-- ==== Sys2Proof/Word.lean ====
section
/-! DEFINITION. The widths of the KX6 (R5, R53, R55, R61, R77, R189): names for bit vectors and
index types, nothing else. -/

namespace Sys2Proof

/-- A scalar register (R53). -/
abbrev Word := BitVec 64

/-- A byte of memory, little-endian in wider values (R5). -/
abbrev Byte := BitVec 8

/-- A code address or a global virtual address (R99, R190). -/
abbrev Addr := BitVec 57

/-- One slot of a bundle (R189). -/
abbrev SlotWord := BitVec 24

/-- A bundle: eight slots, 24 bytes (R189). -/
abbrev Bundle := BitVec 192

/-- A vector of 2048 bits (R55, R77): bit 8j + b is bit b of byte j. -/
abbrev Vec := BitVec 2048

/-- A 4 KiB tile image: an accumulator or a latch (R61). Byte j is bits [8j+7:8j]. -/
abbrev TileBits := BitVec 32768

/-- A shape register copy: sixteen 32-bit fields (R63). -/
abbrev Shape := BitVec 512

/-- A core: 0 to 3,839 is the global logical number 128f + c of a compute core (R19); the newt at site
132 + m of fen f is 4096 + 2f + m (R20). -/
abbrev CoreKey := Nat

/-- A die, 0 to 5 (R15). -/
abbrev DieNo := Fin 6

/-- A global fen number, 0 to 29 (R19). -/
abbrev FenNo := Fin 30

/-- A device of the scale-up domain, 0 to 63 (R168). -/
abbrev DevNo := BitVec 6

/-- A Moend port, 0 to 35 (R23). -/
abbrev PortNo := Fin 36

end Sys2Proof
end

