-- ==== Sys2Proof/Syntax.lean ====
section
/-! DEFINITION. The instructions: one constructor for each row of spec/opcode_table.json. The first
221 are slot instructions, with the fields of the row's encoding; the other 92 are the steps of the
other agents (95_what_each_step_holds.md), with what their event carries. -/

namespace Sys2Proof

/-- What verifying a flash slot's image gives (R181, R399). -/
inductive ImageCheck where
  | good
  | edFailed
  | mlFailed
  | keyNotFused
  | rolledBack
  deriving DecidableEq, Repr, Inhabited

/-- What R181 asks of a firmware image: each signature verifies over its SHA-384 digest, the keys' digests are fused in die 0, and
its version. -/
structure ImageFacts where
  ed : Bool
  ml : Bool
  fused : Bool
  version : BitVec 32
  digest : BitVec 384
  deriving DecidableEq, Repr, Inhabited

/-- What the physical world answers during boot (R180, R181, R399, R400). -/
structure BootInput where
  /-- dies whose UCIe modules do not train, and UCIe modules that do not: pair of R15 and module -/
  badDies : List DieNo
  badModules : List (BitVec 3 × BitVec 2)
  /-- core sites that fail the self-test, 0 to 133 -/
  badSites : List (FenNo × BitVec 8)
  /-- HBM channels that fail training or the self-test -/
  badChannels : List (DieNo × BitVec 6)
  /-- HBM rows that the self-test remaps to spare rows -/
  badRows : List (DieNo × BitVec 6 × Nat)
  /-- the host link has trained -/
  hostLink : Bool
  /-- Moend ports that are connected: the device at the far end, and the lanes that train -/
  ports : List (PortNo × DevNo × BitVec 8)
  /-- what firmware writes into the device's route table (R380): a destination and its port -/
  routes : List (DevNo × PortNo)
  /-- mire ports that do not train -/
  badMire : List (BitVec 2)
  deriving DecidableEq, Repr, Inhabited

/-- Why a channel is retired (R366, MCE cause 2); a remap-table loss names its row (R368). -/
inductive RetireReason where
  | training
  | rebuilds
  | spares
  | remapTable (row : BitVec 16)
  deriving DecidableEq, Repr, Inhabited

/-- What the lender answers to a lease request (R313). -/
inductive LeaseReply where
  | granted (win : BitVec 48) (lid : BitVec 32)
  | noCapacity
  | badLender
  deriving DecidableEq, Repr, Inhabited

/-- A lease as its borrower names it: each lender numbers its own (R376). -/
structure LeaseId where
  lender : DevNo
  lid : BitVec 32
  deriving DecidableEq, Repr, Inhabited

/-- The key of a transfer (R388). -/
structure XferKey where
  dev : DevNo
  fen : FenNo
  serial : BitVec 32
  index : Nat
  deriving DecidableEq, Repr, Inhabited

/-- One transfer of a collective record on its way (R170, R171, R173). -/
structure Transfer where
  key : XferKey
  ctx : BitVec 6
  /-- the member word of the destination (R168) -/
  member : Word
  red : BitVec 3
  etype : BitVec 2
  /-- RSP: the destination is the member's scratchpad -/
  rsp : Bool
  dst : Word
  aci : BitVec 5
  /-- SUMB: contributions a tile, anchor exponent, bin area and remote offset (R173) -/
  ncon : BitVec 7
  sexp : BitVec 8
  bbase : Word
  roff : Word
  data : List Byte
  deriving DecidableEq, Repr, Inhabited

/-- One phase of a device's calendar (R177). -/
structure Phase where
  len : Nat
  recvq : Nat
  sendq : Nat
  src : Nat
  dst : Nat
  deriving DecidableEq, Repr, Inhabited

/-- A device's calendar, and the epoch of the skink that wrote it (R177, R396). -/
structure Calendar where
  epoch : BitVec 32
  gen : BitVec 32
  t0 : Word
  slot : BitVec 32
  rank : Nat
  n : Nat
  phases : List Phase
  deriving DecidableEq, Repr, Inhabited

/-- What the active skink tells its first standby before it writes the calendars of an exchange (R396): D, GEN, T0, SLOT. -/
structure XIssue where
  d : List (List Nat)
  gen : BitVec 32
  t0 : Word
  slot : BitVec 32
  deriving DecidableEq, Repr, Inhabited

/-- The encodings of a sector (R108). -/
inductive SectorEnc where
  | zero
  | delta8
  | delta16
  | dedupe
  | raw
  deriving DecidableEq, Repr, Inhabited

/-- A sector header in a flit's payload (R379): the sector's tag byte, its poison bit, its encoding (R108) and its CRC-16 (R374). -/
structure SectorHeader where
  tag : Byte
  poison : Bool
  enc : SectorEnc
  crc16 : BitVec 16
  deriving DecidableEq, Repr, Inhabited

/-- What a flit's payload carries, as far as a rule gives it a meaning at the receiver: a sector of a transfer, with the transfer less
its data, its length and the sector's place in it, and the word that a transfer has been counted (R170 to R172) or refused (R330);
lease traffic (R114, R313, R376), a borrower's write to a lent range, and the posts, calendars, quanta, a sector each, and close flits
of an exchange (R175 to R179, R396). `part`: of a message that takes several flits (R379) the one of this number. -/
inductive FlitBody where
  | empty
  | part (whole : FlitBody) (i n : Nat)
  | transfer (t : Transfer) (total off : Nat) (hdr : SectorHeader) (bytes : List Byte)
  | counted (key : XferKey)
  | refused (key : XferKey) (cause : Nat)
  | leaseRequest (size : BitVec 24)
  | leaseReply (r : LeaseReply)
  | leaseNotice (lid : BitVec 32) (t : Word)
  | leaseReturn (lid : BitVec 32)
  | memory (pa : BitVec 48) (hdr : SectorHeader) (bytes : List Byte)
  | memoryRead (pa : BitVec 48) (len : Nat)
  | memoryData (pa : BitVec 48) (hdr : SectorHeader) (bytes : List Byte)
  | skinkPost (ctx : BitVec 6) (xid : BitVec 16) (mask : BitVec 64) (prior : BitVec 32) (again : Bool) (counts : List (BitVec 32))
  | postRefused (ctx : BitVec 6) (xid : BitVec 16) (cause : Nat)
  | skinkForward (src : DevNo) (ctx : BitVec 6) (xid : BitVec 16) (mask : BitVec 64) (counts : List (BitVec 32))
  | issue (ctx : BitVec 6) (xid : BitVec 16) (mask : BitVec 64) (x : XIssue)
  | issueHeld (ctx : BitVec 6) (xid : BitVec 16) (gen : BitVec 32)
  | xtmo (ctx : BitVec 6) (xid : BitVec 16) (absent : Word)
  | calendar (ctx : BitVec 6) (xid : BitVec 16) (c : Calendar)
  | quanta (key : XferKey) (ctx : BitVec 6) (xid : BitVec 16) (gen : BitVec 32) (off : Nat) (hdr : SectorHeader) (bytes : List Byte)
  | quantaLanded (key : XferKey) (off : Nat)
  | close (key : XferKey) (ctx : BitVec 6) (xid : BitVec 16) (gen : BitVec 32) (bytes : BitVec 32)
  | closeCounted (key : XferKey)
  | announce (epoch : BitVec 32)
  deriving DecidableEq, Repr, Inhabited

/-- A Moend flit: the fields of its trailer (R379), and what its payload carries. -/
structure Flit where
  crc : BitVec 32
  seq : BitVec 12
  ack : BitVec 12
  avc : BitVec 3
  nak : Bool
  vc : BitVec 3
  kind : BitVec 3
  crd : BitVec 8
  src : DevNo
  dst : DevNo
  body : FlitBody
  deriving DecidableEq, Repr, Inhabited

/-- The instructions and steps. -/
inductive Instr where
  -- any slot
  /-- NOP (R192). The all-zero slot value does nothing and reads no guard, in any slot class. -/
  | nop
  -- S slot (R197, R198)
  /-- ADD (R215). Adds two scalar registers modulo 2^64. -/
  | add (d : BitVec 5) (a : BitVec 5) (b : BitVec 5) (p : BitVec 2)
  /-- SUB (R215). Subtracts two scalar registers modulo 2^64. -/
  | sub (d : BitVec 5) (a : BitVec 5) (b : BitVec 5) (p : BitVec 2)
  /-- MUL (R215). Writes the low 64 bits of a product, with latency 3. -/
  | mul (d : BitVec 5) (a : BitVec 5) (b : BitVec 5) (p : BitVec 2)
  /-- MULH (R215). Writes the high 64 bits of the signed 128-bit product. -/
  | mulh (d : BitVec 5) (a : BitVec 5) (b : BitVec 5) (p : BitVec 2)
  /-- MULHU (R215). Writes the high 64 bits of the unsigned 128-bit product. -/
  | mulhu (d : BitVec 5) (a : BitVec 5) (b : BitVec 5) (p : BitVec 2)
  /-- MIN (R215). Writes the signed minimum of two registers. -/
  | min (d : BitVec 5) (a : BitVec 5) (b : BitVec 5) (p : BitVec 2)
  /-- MAX (R215). Writes the signed maximum of two registers. -/
  | max (d : BitVec 5) (a : BitVec 5) (b : BitVec 5) (p : BitVec 2)
  /-- MINU (R215). Writes the unsigned minimum of two registers. -/
  | minu (d : BitVec 5) (a : BitVec 5) (b : BitVec 5) (p : BitVec 2)
  /-- MAXU (R215). Writes the unsigned maximum of two registers. -/
  | maxu (d : BitVec 5) (a : BitVec 5) (b : BitVec 5) (p : BitVec 2)
  /-- AND (R215). Bitwise and of two registers. -/
  | and (d : BitVec 5) (a : BitVec 5) (b : BitVec 5) (p : BitVec 2)
  /-- OR (R215). Bitwise or of two registers. -/
  | or (d : BitVec 5) (a : BitVec 5) (b : BitVec 5) (p : BitVec 2)
  /-- XOR (R215). Bitwise exclusive-or of two registers. -/
  | xor (d : BitVec 5) (a : BitVec 5) (b : BitVec 5) (p : BitVec 2)
  /-- ANDN (R215). Writes a and not b. -/
  | andn (d : BitVec 5) (a : BitVec 5) (b : BitVec 5) (p : BitVec 2)
  /-- CLZ (R215). Counts leading zero bits of a register. -/
  | clz (d : BitVec 5) (a : BitVec 5) (p : BitVec 2)
  /-- POPC (R215). Counts one bits of a register. -/
  | popc (d : BitVec 5) (a : BitVec 5) (p : BitVec 2)
  /-- SHL (R215). Shifts left by b[5:0]. -/
  | shl (d : BitVec 5) (a : BitVec 5) (b : BitVec 5) (p : BitVec 2)
  /-- SHR (R215). Shifts right logically by b[5:0]. -/
  | shr (d : BitVec 5) (a : BitVec 5) (b : BitVec 5) (p : BitVec 2)
  /-- SAR (R215). Shifts right arithmetically by b[5:0]. -/
  | sar (d : BitVec 5) (a : BitVec 5) (b : BitVec 5) (p : BitVec 2)
  /-- ADDI (R215). Adds a signed 5-bit immediate to a register. -/
  | addi (d : BitVec 5) (a : BitVec 5) (i : BitVec 5) (p : BitVec 2)
  /-- SHLI (R215). Shifts left by an unsigned 5-bit immediate. -/
  | shli (d : BitVec 5) (a : BitVec 5) (n : BitVec 5) (p : BitVec 2)
  /-- SHRI (R215). Shifts right logically by an unsigned 5-bit immediate. -/
  | shri (d : BitVec 5) (a : BitVec 5) (n : BitVec 5) (p : BitVec 2)
  /-- SARI (R215). Shifts right arithmetically by an unsigned 5-bit immediate. -/
  | sari (d : BitVec 5) (a : BitVec 5) (n : BitVec 5) (p : BitVec 2)
  /-- PCA (R215). Writes the bundle's address plus 24 times a signed immediate. -/
  | pca (d : BitVec 5) (i : BitVec 5) (p : BitVec 2)
  /-- ADDB (R215). Adds the sign-extended broadcast value to a register. -/
  | addb (d : BitVec 5) (a : BitVec 5) (p : BitVec 2)
  /-- ANDB (R215). Ands a register with the broadcast value. -/
  | andb (d : BitVec 5) (a : BitVec 5) (p : BitVec 2)
  /-- ORB (R215). Ors a register with the broadcast value. -/
  | orb (d : BitVec 5) (a : BitVec 5) (p : BitVec 2)
  /-- XORB (R215). Exclusive-ors a register with the broadcast value. -/
  | xorb (d : BitVec 5) (a : BitVec 5) (p : BitVec 2)
  /-- DIV (R216). Signed division truncating toward zero, latency 24, never trapping. -/
  | div (d : BitVec 5) (a : BitVec 5) (b : BitVec 5) (p : BitVec 2)
  /-- DIVU (R216). Unsigned division, latency 24. -/
  | divu (d : BitVec 5) (a : BitVec 5) (b : BitVec 5) (p : BitVec 2)
  /-- REM (R216). Signed remainder with the dividend's sign. -/
  | rem (d : BitVec 5) (a : BitVec 5) (b : BitVec 5) (p : BitVec 2)
  /-- REMU (R216). Unsigned remainder. -/
  | remu (d : BitVec 5) (a : BitVec 5) (b : BitVec 5) (p : BitVec 2)
  /-- CMPEQ (R217). Sets a predicate when two registers are equal. -/
  | cmpeq (d : BitVec 3) (a : BitVec 5) (b : BitVec 5) (p : BitVec 2)
  /-- CMPNE (R217). Sets a predicate when two registers differ. -/
  | cmpne (d : BitVec 3) (a : BitVec 5) (b : BitVec 5) (p : BitVec 2)
  /-- CMPLT (R217). Sets a predicate on signed less-than. -/
  | cmplt (d : BitVec 3) (a : BitVec 5) (b : BitVec 5) (p : BitVec 2)
  /-- CMPLTU (R217). Sets a predicate on unsigned less-than. -/
  | cmpltu (d : BitVec 3) (a : BitVec 5) (b : BitVec 5) (p : BitVec 2)
  /-- CMPLE (R217). Sets a predicate on signed less-or-equal. -/
  | cmple (d : BitVec 3) (a : BitVec 5) (b : BitVec 5) (p : BitVec 2)
  /-- CMPLEU (R217). Sets a predicate on unsigned less-or-equal. -/
  | cmpleu (d : BitVec 3) (a : BitVec 5) (b : BitVec 5) (p : BitVec 2)
  /-- CMPEQI (R217). Sets a predicate when a register equals a signed immediate. -/
  | cmpeqi (d : BitVec 3) (a : BitVec 5) (i : BitVec 5) (p : BitVec 2)
  /-- CMPLTI (R217). Sets a predicate when a register is below a signed immediate. -/
  | cmplti (d : BitVec 3) (a : BitVec 5) (i : BitVec 5) (p : BitVec 2)
  /-- PAND (R217). Ands two predicates. -/
  | pand (d : BitVec 3) (a : BitVec 3) (b : BitVec 3) (p : BitVec 2)
  /-- POR (R217). Ors two predicates. -/
  | por (d : BitVec 3) (a : BitVec 3) (b : BitVec 3) (p : BitVec 2)
  /-- PNOT (R217). Inverts a predicate. -/
  | pnot (d : BitVec 3) (a : BitVec 3) (p : BitVec 2)
  /-- SHW (R218). Writes one 32-bit field of a shape register's shadow copy. -/
  | shw (r : BitVec 5) (a : BitVec 5) (f : BitVec 5) (p : BitVec 2)
  /-- AGW (R219). Writes one address-generator field, arming a walk when LEVELS is written with 1 to 6. -/
  | agw (g : BitVec 2) (l : BitVec 3) (a : BitVec 5) (f : BitVec 5) (p : BitVec 2)
  /-- CRR (R220). Copies a control register into a scalar register. -/
  | crr (d : BitVec 5) (c : BitVec 10) (p : BitVec 2)
  /-- CRW (R220). Writes a control register under its fields' access codes, before any same-cycle hardware update. -/
  | crw (c : BitVec 5) (a : BitVec 5) (e : BitVec 5) (p : BitVec 2)
  -- V slots (R201, R202)
  /-- VADD_F32 (R252). Adds FP32 vectors with one rounding to nearest even. -/
  | vaddF32 (d : BitVec 4) (a : BitVec 4) (b : BitVec 4) (x : BitVec 1) (y : BitVec 1) (m : BitVec 1) (c : BitVec 1)
  /-- VSUB_F32 (R252). Subtracts FP32 vectors. -/
  | vsubF32 (d : BitVec 4) (a : BitVec 4) (b : BitVec 4) (x : BitVec 1) (y : BitVec 1) (m : BitVec 1) (c : BitVec 1)
  /-- VMUL_F32 (R252). Multiplies FP32 vectors. -/
  | vmulF32 (d : BitVec 4) (a : BitVec 4) (b : BitVec 4) (x : BitVec 1) (y : BitVec 1) (m : BitVec 1) (c : BitVec 1)
  /-- VFMA_F32 (R252). Fused multiply-add with the addend popped from the destination queue. -/
  | vfmaF32 (d : BitVec 4) (a : BitVec 4) (b : BitVec 4) (x : BitVec 1) (y : BitVec 1) (m : BitVec 1) (c : BitVec 1)
  /-- VMIN_F32 (R252). Elementwise FP32 minimum. -/
  | vminF32 (d : BitVec 4) (a : BitVec 4) (b : BitVec 4) (x : BitVec 1) (y : BitVec 1) (m : BitVec 1) (c : BitVec 1)
  /-- VMAX_F32 (R252). Elementwise FP32 maximum. -/
  | vmaxF32 (d : BitVec 4) (a : BitVec 4) (b : BitVec 4) (x : BitVec 1) (y : BitVec 1) (m : BitVec 1) (c : BitVec 1)
  /-- VCMPLT_F32 (R254). Pushes onto the mask stack the lanes where a < b. -/
  | vcmpltF32 (a : BitVec 4) (b : BitVec 4) (x : BitVec 1) (y : BitVec 1) (m : BitVec 1) (c : BitVec 1)
  /-- VCMPLE_F32 (R254). Pushes onto the mask stack the lanes where a <= b. -/
  | vcmpleF32 (a : BitVec 4) (b : BitVec 4) (x : BitVec 1) (y : BitVec 1) (m : BitVec 1) (c : BitVec 1)
  /-- VADD_BF16 (R252). Adds BF16 vectors. -/
  | vaddBf16 (d : BitVec 4) (a : BitVec 4) (b : BitVec 4) (x : BitVec 1) (y : BitVec 1) (m : BitVec 1) (c : BitVec 1)
  /-- VSUB_BF16 (R252). Subtracts BF16 vectors. -/
  | vsubBf16 (d : BitVec 4) (a : BitVec 4) (b : BitVec 4) (x : BitVec 1) (y : BitVec 1) (m : BitVec 1) (c : BitVec 1)
  /-- VMUL_BF16 (R252). Multiplies BF16 vectors. -/
  | vmulBf16 (d : BitVec 4) (a : BitVec 4) (b : BitVec 4) (x : BitVec 1) (y : BitVec 1) (m : BitVec 1) (c : BitVec 1)
  /-- VFMA_BF16 (R252). BF16 fused multiply-add. -/
  | vfmaBf16 (d : BitVec 4) (a : BitVec 4) (b : BitVec 4) (x : BitVec 1) (y : BitVec 1) (m : BitVec 1) (c : BitVec 1)
  /-- VMIN_BF16 (R252). Elementwise BF16 minimum. -/
  | vminBf16 (d : BitVec 4) (a : BitVec 4) (b : BitVec 4) (x : BitVec 1) (y : BitVec 1) (m : BitVec 1) (c : BitVec 1)
  /-- VMAX_BF16 (R252). Elementwise BF16 maximum. -/
  | vmaxBf16 (d : BitVec 4) (a : BitVec 4) (b : BitVec 4) (x : BitVec 1) (y : BitVec 1) (m : BitVec 1) (c : BitVec 1)
  /-- VCMPLT_BF16 (R254). BF16 less-than compare, pushing a lane mask. -/
  | vcmpltBf16 (a : BitVec 4) (b : BitVec 4) (x : BitVec 1) (y : BitVec 1) (m : BitVec 1) (c : BitVec 1)
  /-- VCMPLE_BF16 (R254). BF16 less-or-equal compare, pushing a lane mask. -/
  | vcmpleBf16 (a : BitVec 4) (b : BitVec 4) (x : BitVec 1) (y : BitVec 1) (m : BitVec 1) (c : BitVec 1)
  /-- VADD_F16 (R252). Adds FP16 vectors. -/
  | vaddF16 (d : BitVec 4) (a : BitVec 4) (b : BitVec 4) (x : BitVec 1) (y : BitVec 1) (m : BitVec 1) (c : BitVec 1)
  /-- VSUB_F16 (R252). Subtracts FP16 vectors. -/
  | vsubF16 (d : BitVec 4) (a : BitVec 4) (b : BitVec 4) (x : BitVec 1) (y : BitVec 1) (m : BitVec 1) (c : BitVec 1)
  /-- VMUL_F16 (R252). Multiplies FP16 vectors. -/
  | vmulF16 (d : BitVec 4) (a : BitVec 4) (b : BitVec 4) (x : BitVec 1) (y : BitVec 1) (m : BitVec 1) (c : BitVec 1)
  /-- VFMA_F16 (R252). FP16 fused multiply-add. -/
  | vfmaF16 (d : BitVec 4) (a : BitVec 4) (b : BitVec 4) (x : BitVec 1) (y : BitVec 1) (m : BitVec 1) (c : BitVec 1)
  /-- VMIN_F16 (R252). Elementwise FP16 minimum. -/
  | vminF16 (d : BitVec 4) (a : BitVec 4) (b : BitVec 4) (x : BitVec 1) (y : BitVec 1) (m : BitVec 1) (c : BitVec 1)
  /-- VMAX_F16 (R252). Elementwise FP16 maximum. -/
  | vmaxF16 (d : BitVec 4) (a : BitVec 4) (b : BitVec 4) (x : BitVec 1) (y : BitVec 1) (m : BitVec 1) (c : BitVec 1)
  /-- VCMPEQ_F32 (R254). FP32 equality compare, pushing a lane mask. -/
  | vcmpeqF32 (a : BitVec 4) (b : BitVec 4) (x : BitVec 1) (y : BitVec 1) (m : BitVec 1) (c : BitVec 1)
  /-- VCMPEQ_BF16 (R254). BF16 equality compare, pushing a lane mask. -/
  | vcmpeqBf16 (a : BitVec 4) (b : BitVec 4) (x : BitVec 1) (y : BitVec 1) (m : BitVec 1) (c : BitVec 1)
  /-- VDIV_F32 (R256). Correctly rounded FP32 division, latency 14. -/
  | vdivF32 (d : BitVec 4) (a : BitVec 4) (b : BitVec 4) (x : BitVec 1) (y : BitVec 1) (m : BitVec 1) (c : BitVec 1)
  /-- VSQRT_F32 (R256). Correctly rounded FP32 square root. -/
  | vsqrtF32 (d : BitVec 4) (a : BitVec 4) (x : BitVec 1) (m : BitVec 1)
  /-- VRSQRT_F32 (R256). Correctly rounded FP32 reciprocal square root. -/
  | vrsqrtF32 (d : BitVec 4) (a : BitVec 4) (x : BitVec 1) (m : BitVec 1)
  /-- VEXP2_F32 (R257). Exactly defined approximation of 2^x. -/
  | vexp2F32 (d : BitVec 4) (a : BitVec 4) (x : BitVec 1) (m : BitVec 1)
  /-- VLOG2_F32 (R257). Exactly defined approximation of log2 x. -/
  | vlog2F32 (d : BitVec 4) (a : BitVec 4) (x : BitVec 1) (m : BitVec 1)
  /-- VSEL (R255). Selects each lane from a or b by the slot's active mask. -/
  | vsel (d : BitVec 4) (a : BitVec 4) (b : BitVec 4) (x : BitVec 1) (y : BitVec 1) (c : BitVec 1)
  /-- VAMAX_F32 (R258). Writes the greatest absolute value of the enabled FP32 elements to every enabled lane. -/
  | vamaxF32 (d : BitVec 4) (a : BitVec 4) (x : BitVec 1) (m : BitVec 1)
  /-- VAMAX_BF16 (R258). Writes the greatest absolute value of the enabled BF16 elements as FP32. -/
  | vamaxBf16 (d : BitVec 4) (a : BitVec 4) (x : BitVec 1) (m : BitVec 1)
  /-- VCVT_BF16_F32 (R260). Narrows two FP32 entries into one BF16 entry under the named rounding mode. -/
  | vcvtBf16F32 (d : BitVec 4) (a : BitVec 4) (r : BitVec 3) (x : BitVec 1) (m : BitVec 1)
  /-- VCVT_F16_F32 (R260). Narrows FP32 to FP16. -/
  | vcvtF16F32 (d : BitVec 4) (a : BitVec 4) (r : BitVec 3) (x : BitVec 1) (m : BitVec 1)
  /-- VCVT_E4M3_F32 (R260). Narrows four FP32 entries to E4M3, saturating unless .nsat. -/
  | vcvtE4m3F32 (d : BitVec 4) (a : BitVec 4) (r : BitVec 3) (t : BitVec 1) (x : BitVec 1) (m : BitVec 1)
  /-- VCVT_E5M2_F32 (R260). Narrows four FP32 entries to E5M2, saturating with .sat. -/
  | vcvtE5m2F32 (d : BitVec 4) (a : BitVec 4) (r : BitVec 3) (t : BitVec 1) (x : BitVec 1) (m : BitVec 1)
  /-- VCVT_F32_BF16 (R260). Exact widening of BF16 to two FP32 entries. -/
  | vcvtF32Bf16 (d : BitVec 4) (a : BitVec 4) (x : BitVec 1) (m : BitVec 1)
  /-- VCVT_F32_F16 (R260). Exact widening of FP16 to FP32. -/
  | vcvtF32F16 (d : BitVec 4) (a : BitVec 4) (x : BitVec 1) (m : BitVec 1)
  /-- VCVT_F32_E4M3 (R260). Exact widening of E4M3 to four FP32 entries. -/
  | vcvtF32E4m3 (d : BitVec 4) (a : BitVec 4) (x : BitVec 1) (m : BitVec 1)
  /-- VCVT_F32_E5M2 (R260). Exact widening of E5M2 to four FP32 entries. -/
  | vcvtF32E5m2 (d : BitVec 4) (a : BitVec 4) (x : BitVec 1) (m : BitVec 1)
  /-- VCVT_I32_F32 (R260). Converts FP32 to saturated 32-bit integers. -/
  | vcvtI32F32 (d : BitVec 4) (a : BitVec 4) (r : BitVec 3) (x : BitVec 1) (m : BitVec 1)
  /-- VCVT_F32_I32 (R260). Converts 32-bit integers to FP32. -/
  | vcvtF32I32 (d : BitVec 4) (a : BitVec 4) (r : BitVec 3) (x : BitVec 1) (m : BitVec 1)
  /-- VCVT_I8_F32 (R260). Converts four FP32 entries to saturated 8-bit integers. -/
  | vcvtI8F32 (d : BitVec 4) (a : BitVec 4) (r : BitVec 3) (x : BitVec 1) (m : BitVec 1)
  /-- VCVT_E4M3_BF16 (R260). Narrows two BF16 entries to E4M3. -/
  | vcvtE4m3Bf16 (d : BitVec 4) (a : BitVec 4) (r : BitVec 3) (t : BitVec 1) (x : BitVec 1) (m : BitVec 1)
  /-- VRSUM_F32 (R259). Sums the 64 lanes in a fixed tree and writes the sum to every enabled lane. -/
  | vrsumF32 (d : BitVec 4) (a : BitVec 4) (x : BitVec 1) (m : BitVec 1)
  /-- VQNT_E4M3 (R261). Quantizes 256 FP32 elements to E4M3 codes under per-block scales. -/
  | vqntE4m3 (d : BitVec 4) (a : BitVec 4) (b : BitVec 4) (x : BitVec 1) (y : BitVec 1) (m : BitVec 1) (c : BitVec 1)
  /-- VQNT_E4M3_SR (R261). Quantizes to E4M3 with stochastic rounding. -/
  | vqntE4m3Sr (d : BitVec 4) (a : BitVec 4) (b : BitVec 4) (x : BitVec 1) (y : BitVec 1) (m : BitVec 1) (c : BitVec 1)
  /-- VQNT_E5M2 (R261). Quantizes to E5M2 codes. -/
  | vqntE5m2 (d : BitVec 4) (a : BitVec 4) (b : BitVec 4) (x : BitVec 1) (y : BitVec 1) (m : BitVec 1) (c : BitVec 1)
  /-- VQNT_E5M2_SR (R261). Quantizes to E5M2 with stochastic rounding. -/
  | vqntE5m2Sr (d : BitVec 4) (a : BitVec 4) (b : BitVec 4) (x : BitVec 1) (y : BitVec 1) (m : BitVec 1) (c : BitVec 1)
  /-- VQNT_I8 (R261). Quantizes to saturated 8-bit integers. -/
  | vqntI8 (d : BitVec 4) (a : BitVec 4) (b : BitVec 4) (x : BitVec 1) (y : BitVec 1) (m : BitVec 1) (c : BitVec 1)
  /-- VQNT_I8_SR (R261). Quantizes to 8-bit integers with stochastic rounding. -/
  | vqntI8Sr (d : BitVec 4) (a : BitVec 4) (b : BitVec 4) (x : BitVec 1) (y : BitVec 1) (m : BitVec 1) (c : BitVec 1)
  /-- VDQNT_E4M3 (R261). Dequantizes 256 E4M3 codes to four FP32 entries. -/
  | vdqntE4m3 (d : BitVec 4) (a : BitVec 4) (b : BitVec 4) (x : BitVec 1) (y : BitVec 1) (m : BitVec 1) (c : BitVec 1)
  /-- VDQNT_E5M2 (R261). Dequantizes E5M2 codes to FP32. -/
  | vdqntE5m2 (d : BitVec 4) (a : BitVec 4) (b : BitVec 4) (x : BitVec 1) (y : BitVec 1) (m : BitVec 1) (c : BitVec 1)
  /-- VDQNT_I8 (R261). Dequantizes 8-bit integers to FP32. -/
  | vdqntI8 (d : BitVec 4) (a : BitVec 4) (b : BitVec 4) (x : BitVec 1) (y : BitVec 1) (m : BitVec 1) (c : BitVec 1)
  /-- VRELU_F32 (R262). Rectifies FP32 elements. -/
  | vreluF32 (d : BitVec 4) (a : BitVec 4) (x : BitVec 1) (m : BitVec 1)
  /-- VRELU_BF16 (R262). Rectifies BF16 elements. -/
  | vreluBf16 (d : BitVec 4) (a : BitVec 4) (x : BitVec 1) (m : BitVec 1)
  /-- VMPOOL_F32 (R263). 2x2 max pool over two FP32 row entries, pushing values and positions. -/
  | vmpoolF32 (d : BitVec 4) (a : BitVec 4) (x : BitVec 1) (m : BitVec 1)
  /-- VMPOOL_BF16 (R263). 2x2 max pool over two BF16 row entries. -/
  | vmpoolBf16 (d : BitVec 4) (a : BitVec 4) (x : BitVec 1) (m : BitVec 1)
  /-- VRELUB_F32 (R266). Rectifier gradient from a kept mask or FULL operand. -/
  | vrelubF32 (d : BitVec 4) (a : BitVec 4) (b : BitVec 4) (x : BitVec 1) (y : BitVec 1) (m : BitVec 1)
  /-- VRELUB_BF16 (R266). BF16 rectifier gradient from kept data. -/
  | vrelubBf16 (d : BitVec 4) (a : BitVec 4) (b : BitVec 4) (x : BitVec 1) (y : BitVec 1) (m : BitVec 1)
  /-- VMPOOLB_F32 (R266). Routes the gradient to each pooling window's winner from kept positions. -/
  | vmpoolbF32 (d : BitVec 4) (a : BitVec 4) (b : BitVec 4) (x : BitVec 1) (y : BitVec 1) (m : BitVec 1)
  /-- VMPOOLB_BF16 (R266). BF16 max-pool gradient from kept positions. -/
  | vmpoolbBf16 (d : BitVec 4) (a : BitVec 4) (b : BitVec 4) (x : BitVec 1) (y : BitVec 1) (m : BitVec 1)
  /-- VGELUB_F32 (R266). GELU gradient from a kept CODE8 or FULL operand. -/
  | vgelubF32 (d : BitVec 4) (a : BitVec 4) (b : BitVec 4) (x : BitVec 1) (y : BitVec 1) (m : BitVec 1)
  /-- VGELUB_BF16 (R266). BF16 GELU gradient from kept data. -/
  | vgelubBf16 (d : BitVec 4) (a : BitVec 4) (b : BitVec 4) (x : BitVec 1) (y : BitVec 1) (m : BitVec 1)
  /-- VDROPB_F32 (R266). Dropout gradient from a kept mask. -/
  | vdropbF32 (d : BitVec 4) (a : BitVec 4) (b : BitVec 4) (x : BitVec 1) (y : BitVec 1) (m : BitVec 1)
  /-- VDROPB_BF16 (R266). BF16 dropout gradient from a kept mask. -/
  | vdropbBf16 (d : BitVec 4) (a : BitVec 4) (b : BitVec 4) (x : BitVec 1) (y : BitVec 1) (m : BitVec 1)
  /-- VSMAXB_F32 (R266). Softmax gradient y(dy - s) from kept y and a row term. -/
  | vsmaxbF32 (d : BitVec 4) (a : BitVec 4) (b : BitVec 4) (x : BitVec 1) (y : BitVec 1) (m : BitVec 1)
  /-- VSMAXB_BF16 (R266). BF16 softmax gradient from kept data. -/
  | vsmaxbBf16 (d : BitVec 4) (a : BitVec 4) (b : BitVec 4) (x : BitVec 1) (y : BitVec 1) (m : BitVec 1)
  /-- VLNORMB_F32 (R266). Layer-norm gradient from kept normalised input and row terms. -/
  | vlnormbF32 (d : BitVec 4) (a : BitVec 4) (b : BitVec 4) (x : BitVec 1) (y : BitVec 1) (m : BitVec 1)
  /-- VLNORMB_BF16 (R266). BF16 layer-norm gradient from kept data. -/
  | vlnormbBf16 (d : BitVec 4) (a : BitVec 4) (b : BitVec 4) (x : BitVec 1) (y : BitVec 1) (m : BitVec 1)
  /-- VADD_I32 (R253). Wrapping 32-bit integer add. -/
  | vaddI32 (d : BitVec 4) (a : BitVec 4) (b : BitVec 4) (x : BitVec 1) (y : BitVec 1) (m : BitVec 1) (c : BitVec 1)
  /-- VSUB_I32 (R253). Wrapping 32-bit integer subtract. -/
  | vsubI32 (d : BitVec 4) (a : BitVec 4) (b : BitVec 4) (x : BitVec 1) (y : BitVec 1) (m : BitVec 1) (c : BitVec 1)
  /-- VMUL_I32 (R253). Low 32 bits of a 32-bit integer product. -/
  | vmulI32 (d : BitVec 4) (a : BitVec 4) (b : BitVec 4) (x : BitVec 1) (y : BitVec 1) (m : BitVec 1) (c : BitVec 1)
  /-- VMIN_I32 (R253). Signed 32-bit minimum. -/
  | vminI32 (d : BitVec 4) (a : BitVec 4) (b : BitVec 4) (x : BitVec 1) (y : BitVec 1) (m : BitVec 1) (c : BitVec 1)
  /-- VMAX_I32 (R253). Signed 32-bit maximum. -/
  | vmaxI32 (d : BitVec 4) (a : BitVec 4) (b : BitVec 4) (x : BitVec 1) (y : BitVec 1) (m : BitVec 1) (c : BitVec 1)
  /-- VCMPEQ_I32 (R254). 32-bit integer equality compare, pushing a lane mask. -/
  | vcmpeqI32 (a : BitVec 4) (b : BitVec 4) (x : BitVec 1) (y : BitVec 1) (m : BitVec 1) (c : BitVec 1)
  /-- VCMPLT_I32 (R254). Signed 32-bit less-than compare, pushing a lane mask. -/
  | vcmpltI32 (a : BitVec 4) (b : BitVec 4) (x : BitVec 1) (y : BitVec 1) (m : BitVec 1) (c : BitVec 1)
  /-- VADD_I16 (R253). Wrapping 16-bit integer add. -/
  | vaddI16 (d : BitVec 4) (a : BitVec 4) (b : BitVec 4) (x : BitVec 1) (y : BitVec 1) (m : BitVec 1) (c : BitVec 1)
  /-- VSUB_I16 (R253). Wrapping 16-bit integer subtract. -/
  | vsubI16 (d : BitVec 4) (a : BitVec 4) (b : BitVec 4) (x : BitVec 1) (y : BitVec 1) (m : BitVec 1) (c : BitVec 1)
  /-- VADDS_I16 (R253). Saturating 16-bit add. -/
  | vaddsI16 (d : BitVec 4) (a : BitVec 4) (b : BitVec 4) (x : BitVec 1) (y : BitVec 1) (m : BitVec 1) (c : BitVec 1)
  /-- VADD_I8 (R253). Wrapping 8-bit integer add. -/
  | vaddI8 (d : BitVec 4) (a : BitVec 4) (b : BitVec 4) (x : BitVec 1) (y : BitVec 1) (m : BitVec 1) (c : BitVec 1)
  /-- VSUB_I8 (R253). Wrapping 8-bit integer subtract. -/
  | vsubI8 (d : BitVec 4) (a : BitVec 4) (b : BitVec 4) (x : BitVec 1) (y : BitVec 1) (m : BitVec 1) (c : BitVec 1)
  /-- VADDS_I8 (R253). Saturating 8-bit add. -/
  | vaddsI8 (d : BitVec 4) (a : BitVec 4) (b : BitVec 4) (x : BitVec 1) (y : BitVec 1) (m : BitVec 1) (c : BitVec 1)
  /-- VAND (R253). Bitwise and of vectors. -/
  | vand (d : BitVec 4) (a : BitVec 4) (b : BitVec 4) (x : BitVec 1) (y : BitVec 1) (m : BitVec 1) (c : BitVec 1)
  /-- VOR (R253). Bitwise or of vectors. -/
  | vor (d : BitVec 4) (a : BitVec 4) (b : BitVec 4) (x : BitVec 1) (y : BitVec 1) (m : BitVec 1) (c : BitVec 1)
  /-- VXOR (R253). Bitwise exclusive-or of vectors. -/
  | vxor (d : BitVec 4) (a : BitVec 4) (b : BitVec 4) (x : BitVec 1) (y : BitVec 1) (m : BitVec 1) (c : BitVec 1)
  /-- VSHL (R253). Logical left shift of 32-bit lanes. -/
  | vshl (d : BitVec 4) (a : BitVec 4) (b : BitVec 4) (x : BitVec 1) (y : BitVec 1) (m : BitVec 1) (c : BitVec 1)
  /-- VSHR (R253). Logical right shift of 32-bit lanes. -/
  | vshr (d : BitVec 4) (a : BitVec 4) (b : BitVec 4) (x : BitVec 1) (y : BitVec 1) (m : BitVec 1) (c : BitVec 1)
  /-- VSAR (R253). Arithmetic right shift of 32-bit lanes. -/
  | vsar (d : BitVec 4) (a : BitVec 4) (b : BitVec 4) (x : BitVec 1) (y : BitVec 1) (m : BitVec 1) (c : BitVec 1)
  /-- VSHUF (R267). Permutes lanes of a by indices in b. -/
  | vshuf (d : BitVec 4) (a : BitVec 4) (b : BitVec 4) (x : BitVec 1) (y : BitVec 1) (m : BitVec 1) (c : BitVec 1)
  /-- VROT (R267). Rotates lanes of a. -/
  | vrot (d : BitVec 4) (a : BitVec 4) (b : BitVec 4) (x : BitVec 1) (y : BitVec 1) (m : BitVec 1) (c : BitVec 1)
  /-- VZIP (R267). Interleaves lanes of a and b into two entries. -/
  | vzip (d : BitVec 4) (a : BitVec 4) (b : BitVec 4) (x : BitVec 1) (y : BitVec 1) (m : BitVec 1) (c : BitVec 1)
  /-- VUNZIP (R267). De-interleaves lanes of a and b into two entries. -/
  | vunzip (d : BitVec 4) (a : BitVec 4) (b : BitVec 4) (x : BitVec 1) (y : BitVec 1) (m : BitVec 1) (c : BitVec 1)
  /-- VMOV (R267). Copies an entry within the slot's cluster. -/
  | vmov (d : BitVec 4) (a : BitVec 4) (x : BitVec 1) (m : BitVec 1)
  /-- VXMOV (R267). Moves an entry with its tag to the other cluster. -/
  | vxmov (d : BitVec 4) (a : BitVec 4) (x : BitVec 1) (m : BitVec 1)
  /-- VDEC (R269). Decodes one variable-length symbol per lane from an input port's word stream. -/
  | vdec (d : BitVec 4) (a : BitVec 4) (x : BitVec 1) (m : BitVec 1)
  /-- VLFRD (R268). Pushes the 64 lane LFSR states. -/
  | vlfrd (d : BitVec 4) (m : BitVec 1)
  /-- VLFWR (R268). Writes the lane LFSR states of enabled lanes from a. -/
  | vlfwr (a : BitVec 4) (x : BitVec 1) (m : BitVec 1)
  -- M slot (R203, R204)
  /-- MMA_BF16_LATCH (R280). BF16 matrix step with B from a latch, queued into an accumulator. -/
  | mmaBf16Latch (c : BitVec 2) (l : BitVec 2) (s : BitVec 2) (w : BitVec 1) (b : BitVec 1) (e : BitVec 1) (k : BitVec 1) (g : BitVec 2) (h : BitVec 1)
  /-- MMA_BF16_BANK (R280). BF16 matrix step with B read from a bank group, checked as a reader. -/
  | mmaBf16Bank (c : BitVec 2) (s : BitVec 2) (w : BitVec 1) (b : BitVec 1) (e : BitVec 1) (k : BitVec 1) (g : BitVec 2) (h : BitVec 1) (j : BitVec 2)
  /-- MMA_F16_LATCH (R280). FP16 matrix step with B from a latch. -/
  | mmaF16Latch (c : BitVec 2) (l : BitVec 2) (s : BitVec 2) (w : BitVec 1) (b : BitVec 1) (e : BitVec 1) (k : BitVec 1) (g : BitVec 2) (h : BitVec 1)
  /-- MMA_F16_BANK (R280). FP16 matrix step with B from a bank group. -/
  | mmaF16Bank (c : BitVec 2) (s : BitVec 2) (w : BitVec 1) (b : BitVec 1) (e : BitVec 1) (k : BitVec 1) (g : BitVec 2) (h : BitVec 1) (j : BitVec 2)
  /-- MMA_E4M3_LATCH (R280). E4M3 matrix step with B from a latch. -/
  | mmaE4m3Latch (c : BitVec 2) (l : BitVec 2) (s : BitVec 2) (w : BitVec 1) (b : BitVec 1) (e : BitVec 1) (k : BitVec 1) (g : BitVec 2) (h : BitVec 1)
  /-- MMA_E4M3_BANK (R280). E4M3 matrix step with B from a bank group. -/
  | mmaE4m3Bank (c : BitVec 2) (s : BitVec 2) (w : BitVec 1) (b : BitVec 1) (e : BitVec 1) (k : BitVec 1) (g : BitVec 2) (h : BitVec 1) (j : BitVec 2)
  /-- MMA_E5M2_LATCH (R280). E5M2 matrix step with B from a latch. -/
  | mmaE5m2Latch (c : BitVec 2) (l : BitVec 2) (s : BitVec 2) (w : BitVec 1) (b : BitVec 1) (e : BitVec 1) (k : BitVec 1) (g : BitVec 2) (h : BitVec 1)
  /-- MMA_E5M2_BANK (R280). E5M2 matrix step with B from a bank group. -/
  | mmaE5m2Bank (c : BitVec 2) (s : BitVec 2) (w : BitVec 1) (b : BitVec 1) (e : BitVec 1) (k : BitVec 1) (g : BitVec 2) (h : BitVec 1) (j : BitVec 2)
  /-- MMA_C4_LATCH (R280). Codebook 4-bit matrix step, always classical, with B from a latch. -/
  | mmaC4Latch (c : BitVec 2) (l : BitVec 2) (s : BitVec 2) (w : BitVec 1) (b : BitVec 1) (e : BitVec 1) (k : BitVec 1) (g : BitVec 2) (h : BitVec 1)
  /-- MMA_C4_BANK (R280). Codebook 4-bit matrix step with B from a bank group. -/
  | mmaC4Bank (c : BitVec 2) (s : BitVec 2) (w : BitVec 1) (b : BitVec 1) (e : BitVec 1) (k : BitVec 1) (g : BitVec 2) (h : BitVec 1) (j : BitVec 2)
  /-- LATCH (R286). Loads a B tile from a bank group into a latch. -/
  | latch (l : BitVec 2) (s : BitVec 2) (w : BitVec 1) (g : BitVec 2)
  /-- LATCHREED (R287). Loads a B tile from global memory along the reed path once its token is DONE. -/
  | latchreed (l : BitVec 2) (s : BitVec 2) (w : BitVec 1)
  /-- DRAIN (R288). Converts an accumulator and writes it to a bank group, optionally clearing it. -/
  | drain (c : BitVec 2) (s : BitVec 2) (w : BitVec 1) (t : BitVec 3) (a : BitVec 1) (z : BitVec 1) (g : BitVec 2)
  /-- DRAINT (R288). Drains an accumulator transposed. -/
  | draint (c : BitVec 2) (s : BitVec 2) (w : BitVec 1) (t : BitVec 3) (a : BitVec 1) (z : BitVec 1) (g : BitVec 2)
  /-- ZERO (R290). Clears an accumulator and closes its open group. -/
  | zero (c : BitVec 2)
  /-- LDCBK (R291). Loads a 16-entry codebook from scratchpad. -/
  | ldcbk (l : BitVec 2) (s : BitVec 2) (w : BitVec 1) (g : BitVec 2)
  /-- LDFMT (R292). Loads the 16-entry format table from scratchpad. -/
  | ldfmt (s : BitVec 2) (w : BitVec 1) (g : BitVec 2)
  -- C slots (R205-R208)
  /-- LDS (R300). Pushes a local scratchpad vector onto a queue, due 6 cycles later. -/
  | lds (s : BitVec 2) (x : BitVec 4) (y : BitVec 4) (w : BitVec 1) (z : BitVec 3)
  /-- LDSK (R300). Loads a local vector carrying its kept-form tag. -/
  | ldsk (s : BitVec 2) (x : BitVec 4) (y : BitVec 4) (w : BitVec 1) (z : BitVec 3)
  /-- STS (R300). Pops a queue entry and stores it to local scratchpad. -/
  | sts (s : BitVec 2) (x : BitVec 4) (y : BitVec 4) (w : BitVec 1) (z : BitVec 3)
  /-- LDSX (R301). Copies 8 to 256 bytes within local scratchpad. -/
  | ldsx (s : BitVec 2) (x : BitVec 4) (y : BitVec 4) (w : BitVec 1) (z : BitVec 3)
  /-- STSX (R301). Stores a scalar register to local scratchpad. -/
  | stsx (s : BitVec 2) (x : BitVec 4) (y : BitVec 4) (w : BitVec 1) (z : BitVec 3)
  /-- LDR (R300). Loads a vector from another core's scratchpad through the window. -/
  | ldr (s : BitVec 2) (q : BitVec 2) (x : BitVec 4) (y : BitVec 4) (w : BitVec 1) (z : BitVec 3)
  /-- STR (R300). Stores a vector into another core's scratchpad through its network port. -/
  | str (s : BitVec 2) (q : BitVec 2) (x : BitVec 4) (y : BitVec 4) (w : BitVec 1) (z : BitVec 3)
  /-- LDG (R300). Loads a global vector into a queue with a named latency class. -/
  | ldg (s : BitVec 2) (q : BitVec 2) (x : BitVec 4) (y : BitVec 4) (w : BitVec 1) (z : BitVec 3)
  /-- LDGK (R300). Loads a global vector carrying its tag. -/
  | ldgk (s : BitVec 2) (q : BitVec 2) (x : BitVec 4) (y : BitVec 4) (w : BitVec 1) (z : BitVec 3)
  /-- STG (R300). Pops a queue entry and stores it to global memory. -/
  | stg (s : BitVec 2) (q : BitVec 2) (x : BitVec 4) (y : BitVec 4) (w : BitVec 1) (z : BitVec 3)
  /-- LDGX (R301). Copies 8 to 256 bytes from global memory to local scratchpad. -/
  | ldgx (s : BitVec 2) (q : BitVec 2) (x : BitVec 4) (y : BitVec 4) (w : BitVec 1) (z : BitVec 3)
  /-- STGX (R301). Stores a scalar register to global memory. -/
  | stgx (s : BitVec 2) (q : BitVec 2) (x : BitVec 4) (y : BitVec 4) (w : BitVec 1) (z : BitVec 3)
  /-- ATADD (R302). Atomic integer add at the location's home. -/
  | atadd (s : BitVec 2) (t : BitVec 4) (x : BitVec 4) (y : BitVec 4) (w : BitVec 1) (z : BitVec 3)
  /-- ATAND (R302). Atomic and. -/
  | atand (s : BitVec 2) (t : BitVec 4) (x : BitVec 4) (y : BitVec 4) (w : BitVec 1) (z : BitVec 3)
  /-- ATOR (R302). Atomic or. -/
  | ator (s : BitVec 2) (t : BitVec 4) (x : BitVec 4) (y : BitVec 4) (w : BitVec 1) (z : BitVec 3)
  /-- ATXCHG (R302). Atomic exchange. -/
  | atxchg (s : BitVec 2) (t : BitVec 4) (x : BitVec 4) (y : BitVec 4) (w : BitVec 1) (z : BitVec 3)
  /-- ATCAS (R302). Atomic compare-and-swap. -/
  | atcas (s : BitVec 2) (t : BitVec 4) (x : BitVec 4) (y : BitVec 4) (w : BitVec 1) (z : BitVec 3)
  /-- ATFADD (R302). Atomic FP32 add. -/
  | atfadd (s : BitVec 2) (t : BitVec 4) (x : BitVec 4) (y : BitVec 4) (w : BitVec 1) (z : BitVec 3)
  /-- ATFMAX (R302). Atomic FP32 maximum. -/
  | atfmax (s : BitVec 2) (t : BitVec 4) (x : BitVec 4) (y : BitVec 4) (w : BitVec 1) (z : BitVec 3)
  /-- FENCE (R144). Produces a token that becomes DONE once earlier accesses of the masked queues are performed at its scope. -/
  | fence (t : BitVec 4) (m : BitVec 4) (o : BitVec 3)
  /-- STK (R304). Reduces a tile to a reader entry's kept form and stores it tagged. -/
  | stk (s : BitVec 2) (t : BitVec 4) (x : BitVec 4) (y : BitVec 4) (w : BitVec 1) (z : BitVec 3)
  /-- KCOPY (R306). Copies sectors with their tags and poison, optionally remapping entry numbers. -/
  | kcopy (s : BitVec 2) (t : BitVec 4) (x : BitVec 4) (y : BitVec 4) (w : BitVec 1) (z : BitVec 3)
  /-- CP (R308). Runs a plain tensor copy from a descriptor. -/
  | cp (s : BitVec 2) (t : BitVec 4) (x : BitVec 4) (y : BitVec 4) (w : BitVec 1) (z : BitVec 3)
  /-- CPQ (R309). Runs a quantizing copy with a scale and an absolute-maximum fold. -/
  | cpq (s : BitVec 2) (t : BitVec 4) (x : BitVec 4) (y : BitVec 4) (w : BitVec 1) (z : BitVec 3)
  /-- CPBLK (R310). Copies or fills a global range, using the in-array path where eligible, and writes a status word. -/
  | cpblk (s : BitVec 2) (t : BitVec 4) (x : BitVec 4) (y : BitVec 4) (w : BitVec 1) (z : BitVec 3)
  /-- PREFR (R311). Prefetches a virtual range into the home slices. -/
  | prefr (s : BitVec 2) (t : BitVec 4) (x : BitVec 4) (y : BitVec 4) (w : BitVec 1) (z : BitVec 3)
  /-- BANKM (R103). Switches a scratchpad bank between scratchpad, cache-way and FIFO modes. -/
  | bankm (t : BitVec 4) (b : BitVec 3) (m : BitVec 2) (c : BitVec 4)
  /-- REEDINV (R311). Writes back dirty sectors of a range and drops it from every reed buffer. -/
  | reedinv (s : BitVec 2) (t : BitVec 4) (x : BitVec 4) (y : BitVec 4) (w : BitVec 1) (z : BitVec 3)
  /-- COLL (R312). Posts a collective record to the communication master. -/
  | coll (s : BitVec 2) (t : BitVec 4) (x : BitVec 4) (y : BitVec 4) (w : BitVec 1) (z : BitVec 3)
  /-- DPOST (R312). Posts a demand vector for a calendar-driven exchange. -/
  | dpost (s : BitVec 2) (t : BitVec 4) (x : BitVec 4) (y : BitVec 4) (w : BitVec 1) (z : BitVec 3)
  /-- GWAIT (R178). Produces a token completing when the exchange calendar is written, delivering the grant word to s30. -/
  | gwait (s : BitVec 2) (t : BitVec 4) (x : BitVec 4) (y : BitVec 4) (w : BitVec 1) (z : BitVec 3)
  /-- LEASE (R313). Asks a domain device to lend a range of idle HBM. -/
  | lease (s : BitVec 2) (t : BitVec 4) (x : BitVec 4) (y : BitVec 4) (w : BitVec 1) (z : BitVec 3)
  /-- LREL (R314). Returns a granted lease early. -/
  | lrel (s : BitVec 2) (t : BitVec 4) (x : BitVec 4) (y : BitVec 4) (w : BitVec 1) (z : BitVec 3)
  /-- MBPOST (R312). Posts a kind 0 message to the mailbox service program. -/
  | mbpost (s : BitVec 2) (x : BitVec 4) (y : BitVec 4) (w : BitVec 1) (z : BitVec 3)
  -- L slot (R209, R210)
  /-- B (R221). Relative branch taken when its guard is true. -/
  | b (g : BitVec 4) (o : BitVec 14)
  /-- CALL (R221). Relative call; the return address is placed by the S slot. -/
  | call (g : BitVec 4) (o : BitVec 14)
  /-- BRMZ (R230). Branches when the named vector slot's active mask is all zero. -/
  | brmz (v : BitVec 1) (o : BitVec 14)
  /-- JMPI (R221). Indirect jump through a register. -/
  | jmpi (g : BitVec 4) (r : BitVec 5)
  /-- CALLI (R221). Indirect call through a register. -/
  | calli (g : BitVec 4) (r : BitVec 5)
  /-- RET (R221). Returns through a register. -/
  | ret (g : BitVec 4) (r : BitVec 5)
  /-- GUARD (R223). Supplies guard selectors for V0, V1, C0, C1 and the M slot. -/
  | guard (m : BitVec 2) (a : BitVec 4) (b : BitVec 4) (c : BitVec 4) (d : BitVec 4)
  /-- LOOP (R224). Starts a nested loop level over the following body. -/
  | loop (l : BitVec 3) (r : BitVec 5) (n : BitVec 6)
  /-- LOOPP (R227). Starts a software-pipelined loop driving stage predicates. -/
  | loopp (s : BitVec 3) (r : BitVec 5) (n : BitVec 6)
  /-- MPUSH (R229). Pushes a copy of the active mask onto a vector slot's mask stack. -/
  | mpush (v : BitVec 1)
  /-- MINV (R229). Inverts the top mask within its enclosing mask. -/
  | minv (v : BitVec 1)
  /-- MPOP (R229). Pops the top mask entry. -/
  | mpop (v : BitVec 1)
  /-- WAITT (R232). Holds the bundle until a token is DONE. -/
  | waitt (t : BitVec 4)
  /-- WAITC (R232). Holds the bundle until an arrival counter reaches a value. -/
  | waitc (c : BitVec 5) (r : BitVec 5)
  /-- WAITR (R232). Holds until every earlier mailbox post has its reply. -/
  | waitr
  /-- BARA (R234). Arrives at a barrier through a named global queue and scope. -/
  | bara (b : BitVec 5) (s : BitVec 3) (q : BitVec 2)
  /-- BARW (R235). Waits until the phase of the core's latest arrival has completed. -/
  | barw (b : BitVec 5)
  /-- MBTAKE (R236). Takes and reserves the oldest kind 0 mailbox entry of the service program's context. -/
  | mbtake (r : BitVec 5)
  /-- MBREPLY (R237). Sends a reply payload to a poster and frees its reserved entry. -/
  | mbreply (r : BitVec 5) (s : BitVec 5)
  /-- LAUNCH (R238). Hands a launch record to the home fen's walker. -/
  | launch (r : BitVec 5)
  /-- TRAP (R239). Raises a software trap after its bundle commits, entering the handler or stopping the core. -/
  | trap (c : BitVec 8)
  /-- TRET (R241). Returns from handler mode, releasing held state. -/
  | tret
  /-- DONE (R242). Ends issue on the core or ends the conductor. -/
  | done
  -- K slot (R211)
  /-- K (R211). Supplies the bundle's 18-bit broadcast value and gates the bundle to a loop iteration. -/
  | k (f : BitVec 1) (l : BitVec 1) (v : BitVec 3) (k : BitVec 18)
  /-- KCTL (R211). Control form of the K slot; with BKPT the bundle takes the debug trap. -/
  | kctl (f : BitVec 1) (l : BitVec 1) (v : BitVec 3) (b : BitVec 1)
  -- steps without an encoding
  /-- CONTEXT_START (R185). A host write of n to CTXGO moves a ready context to running and starts its conductor. -/
  | contextStart (n : BitVec 6)
  /-- CONTEXT_TEARDOWN (R343). A host write of 3 to STATE stops the context's cores and engines and drops its pending work. -/
  | contextTeardown (n : BitVec 6)
  /-- CONTEXT_FREE (R343). A host write of 0 to STATE after TDOWN frees the context entry. -/
  | contextFree (n : BitVec 6)
  /-- TLBINV (R186). A host write starts invalidation of translations of a context's range. -/
  | tlbinv (v : Word)
  /-- TLBINV_DONE (R119). DONE rises once no TLB holds the range and every access through it is performed. -/
  | tlbinvDone
  /-- ATTN (R182). A host nonce write starts building a signed attestation report. -/
  | attn (nonce : BitVec 256)
  /-- ATTESTATION_READY (R183). The report is placed in ATTR and ATTST.DONE set, or ERR on failure. -/
  | attestationReady (err : BitVec 4)
  /-- RESUME_REPLAY (R339). A RESUME write with ACT 0 replays the agent stopped on the named record. -/
  | resumeReplay (seq : BitVec 32)
  /-- RESUME_IGNORE_BKPT (R339). A RESUME write with ACT 1 replays with the stopping bundle's BKPT ignored once. -/
  | resumeIgnoreBkpt (seq : BitVec 32)
  /-- PREEMPT_SAVE (R350). A PREEMPT write with ACT 1 saves a running context to its save area. -/
  | preemptSave (n : BitVec 6)
  /-- SAVE_RELEASE (R350). Once every save write is performed, PST becomes 2, CSTS is written and the cores go idle. -/
  | saveRelease (n : BitVec 6)
  /-- PREEMPT_RESTORE (R357). A PREEMPT write with ACT 2 restores a saved context onto its logical cores. -/
  | preemptRestore (n : BitVec 6)
  /-- RESTORE_COMPLETE (R357). After the cores are idle and state is loaded, held transfers land and cores issue their saved PC. -/
  | restoreComplete (n : BitVec 6)
  /-- DEBUG_RAW_READ (R404). A DBGCMD raw read returns a sector's payload and tag byte. -/
  | debugRawRead (die : DieNo) (cmd : Word)
  /-- DEBUG_DECODE_READ (R404). A DBGCMD decode read returns only what the sector's kept form determines. -/
  | debugDecodeRead (die : DieNo) (cmd : Word)
  /-- DEBUG_RAW_WRITE (R404). A DBGCMD raw write replaces a stopped core's scratchpad sector and tag. -/
  | debugRawWrite (die : DieNo) (cmd : Word)
  /-- LREVOKE (R376). A lender revokes a lease with a notice sent to the borrower. -/
  | lrevoke (v : Word)
  /-- OVP (R373). A host write sets the overflow pool's base or grows its size. -/
  | ovp (v : Word)
  /-- RETST_ACK (R371). A host ACK starts re-striping of a degraded parity group. -/
  | retstAck (die : DieNo)
  /-- RECOV (R399). Writing RECOV reboots the device from flash. -/
  | recov
  /-- RECOVERY_FLASH_WRITE (R400). The host writes a new image into flash through the recovery window. -/
  | recoveryFlashWrite (off : BitVec 16) (bytes : List Byte)
  /-- GET_EVENT_RECORDS (R366). The CXL Get Event Records command returns DRAM event records. -/
  | getEventRecords
  /-- CLEAR_EVENT_RECORDS (R366). The CXL Clear Event Records command clears event records. -/
  | clearEventRecords (n : Nat)
  /-- HOST_MEM_READ (R132). A host CXL.mem read returns payload, with poison indicated and no tag. -/
  | hostMemRead (pa : BitVec 48) (len : Nat)
  /-- HOST_MEM_WRITE (R123). A host CXL.mem write stores data, clearing tags and whole-sector poison. -/
  | hostMemWrite (pa : BitVec 48) (bytes : List Byte)
  /-- HOST_REGISTER_WRITE (R7). A host write to any register without its own row acts per its access codes. -/
  | hostRegisterWrite (off : BitVec 32) (v : Word)
  /-- BOOT (R180). Reset runs the boot steps from ROM verification to MGST.READY. -/
  | boot (r : BootInput)
  /-- LAUNCH_TAKE (R33). The walker reads a launch record and graph, computes G', and starts or refuses the launch. -/
  | launchTake (n : BitVec 6)
  /-- GROUP_INSTANTIATE (R158). A free group slot instantiates the next group, making PRED-0 nodes ready. -/
  | groupInstantiate (launch : Nat)
  /-- DISPATCH (R161). In each dispatch opportunity the walker picks at most one eligible node by priority and round robin. -/
  | dispatch (fen : FenNo)
  /-- NODE_AGING (R162). After 4,096 passed-over opportunities a node's priority rises or it reserves its core set. -/
  | nodeAging (fen : FenNo) (idx : Nat)
  /-- CORE_TASK_FINISH (R40). A core that executed DONE finishes once its results, commands and accesses have completed. -/
  | coreTaskFinish (key : CoreKey)
  /-- NODE_FINISH (R159). A finished node decrements its successors' counts, making nodes ready. -/
  | nodeFinish (fen : FenNo) (idx : Nat)
  /-- LAUNCH_COMPLETE (R43). When every node of every group finishes, DCNT of the conductor's newt is incremented. -/
  | launchComplete (launch : Nat)
  /-- CONDUCTOR_CHANGE (R30). After 2^20 cycles with another conductor ready, the newt saves and changes conductor. -/
  | conductorChange (fen : FenNo)
  /-- RESULT_LAND (R57). A pipeline result reaches its schedule cycle and lands in its register or queue. -/
  | resultLand (key : CoreKey)
  /-- FREEZE (R46). A global-load result not landed at its due cycle raises the freeze line. -/
  | freeze (key : CoreKey)
  /-- GLOBAL_LOAD_ARRIVE (R46). Late load data arrives and the freeze line falls. -/
  | globalLoadArrive (key : CoreKey) (id : Nat)
  /-- DIRECT_FORM_FAULT (R335). A direct form faulting after commit stops the core at the next bundle boundary. -/
  | directFormFault (key : CoreKey)
  /-- ENGINE_COMMAND_START (R64). An issued engine command starts once all its consumed tokens are DONE. -/
  | engineCommandStart (key : CoreKey) (id : Nat)
  /-- ENGINE_COMMAND_COMPLETE (R297). A command's completion event sets its token DONE. -/
  | engineCommandComplete (key : CoreKey) (id : Nat)
  /-- BARRIER_COMPLETE (R151). A barrier phase completes once every member arrived and their queued accesses are performed. -/
  | barrierComplete (key : CoreKey) (bar : BitVec 5)
  /-- AG_FETCH (R59). An address generator fetches the next vector into its port when there is room. -/
  | agFetch (key : CoreKey) (g : BitVec 2)
  /-- BANK_SWITCH_DONE (R103). A bank mode switch ends after zero-filling the bank, setting MODE and the token. -/
  | bankSwitchDone (key : CoreKey) (bank : BitVec 3)
  /-- FIFO_HELD_WRITE (R105). A window write held at a full FIFO bank enters once an entry is popped. -/
  | fifoHeldWrite (key : CoreKey) (bank : BitVec 3)
  /-- NETWORK_WRITE_LAND (R148). A window, engine or fill write lands in a bank at the end of its wall cycle. -/
  | networkWriteLand (key : CoreKey) (idx : Nat)
  /-- MMA_STEP_LAND (R276). A matrix step's result lands in its accumulator, adding its MXC amounts. -/
  | mmaStepLand (key : CoreKey) (id : Nat)
  /-- LATCHREED_ROW_LAND (R287). A reed-path row lands in the latch, the last clearing its busy state. -/
  | latchreedRowLand (key : CoreKey) (lt : BitVec 2)
  /-- CODEBOOK_TABLE_READY (R291). Product tables are derived and the codebook's matrix busy state ends. -/
  | codebookTableReady (key : CoreKey) (cb : BitVec 2)
  /-- MAILBOX_PLACE (R390). A command waiting on a full mailbox places its entry once space frees. -/
  | mailboxPlace (fen : FenNo)
  /-- MAILBOX_TAKE (R166). The master takes the oldest kind 1 to 4 entry and serves it in hardware. -/
  | mailboxTake (fen : FenNo)
  /-- MAILBOX_SERVICE_START (R167). The master starts a context's service program for the oldest kind 0 entry, or answers it with all ones. -/
  | mailboxServiceStart (fen : FenNo)
  /-- MAILBOX_REPLY_LAND (R53). A mailbox reply lands in the poster's s31. -/
  | mailboxReplyLand (key : CoreKey)
  /-- LEASE_RESPONSE (R313). The master writes STATUS, WIN and LID when a lease is granted or refused. -/
  | leaseResponse (fen : FenNo) (idx : Nat) (r : LeaseReply)
  /-- COLL_TRANSFER_EMIT (R170). The collective walker reads and sends the next transfer of a record. -/
  | collTransferEmit (fen : FenNo) (idx : Nat)
  /-- TRANSFER_ARRIVE (R171). A transfer combines into its destination and increments the member's counter. -/
  | transferArrive (fen : FenNo) (idx : Nat)
  /-- HELD_TRANSFER_DELIVER (R330). Transfers and window accesses held at the master land once a task of their context has entered the core. -/
  | heldTransferDeliver (fen : FenNo) (idx : Nat)
  /-- XHOLD (R393). A transfer held for 1 s posts an XHOLD event and stays held. -/
  | xhold (fen : FenNo) (idx : Nat)
  /-- EXCHANGE_START (R176). Once every member has posted, the skink decomposes the demand into phases and writes calendars. -/
  | exchangeStart (idx : Nat)
  /-- PHASE_START (R179). At its start time the master sends a phase's granted quanta. -/
  | phaseStart (idx : Nat)
  /-- CLOSE_FLIT_RECEIVE (R179). A receiver writes RCVi and increments its counter on a close flit. -/
  | closeFlitReceive (idx : Nat) (rank : BitVec 6) (bytes : BitVec 32)
  /-- XTMO (R394). An exchange still lacking a member 100 ms after its first post posts XTMO. -/
  | xtmo (idx : Nat)
  /-- SKINK_ANNOUNCE (R396). The active skink announces its epoch every 100 microseconds. -/
  | skinkAnnounce (dev : DevNo) (epoch : BitVec 32)
  /-- SKINK_TAKEOVER (R397). After 1 ms without an announcement the first standby takes over the skink role. -/
  | skinkTakeover
  /-- LEASE_NOTICE_RECEIVE (R376). A borrower receiving a revocation notice posts LNOTE with the expiry time. -/
  | leaseNoticeReceive (lease : LeaseId) (t : Word)
  /-- LEASE_EXPIRY (R153). At the notice time each home slice places X; later accesses take FLT_LEASE. -/
  | leaseExpiry (lid : BitVec 32)
  /-- LENDER_UNREACHABLE (R377). A borrower without reach of the lender for 2 ms places X at once. -/
  | lenderUnreachable (dev : DevNo)
  /-- BORROWER_UNREACHABLE (R398). A lender without reach of the borrower for 2 ms reclaims the lease. -/
  | borrowerUnreachable (dev : DevNo)
  /-- FLIT_RECEIVE (R381). A receiver accepts an in-order flit with good CRC, or drops it and sends NAK. -/
  | flitReceive (port : PortNo) (f : Flit)
  /-- ACK_TIMEOUT (R381). An unacknowledged oldest flit after 2 microseconds triggers a resend. -/
  | ackTimeout (port : PortNo) (vc : BitVec 3)
  /-- PORT_RETRAIN (R382). Excess resends start port retraining. -/
  | portRetrain (port : PortNo)
  /-- RETRAIN_DONE (R382). Retraining ends with a new width or the port down, posting LINK. -/
  | retrainDone (port : PortNo) (lanes : BitVec 8)
  /-- PLOSS (R383). A peer unreachable for 2 ms is lost. -/
  | ploss (dev : DevNo)
  /-- UCIE_MODULE_OUT (R384). A UCIe module failing retraining is taken out of use. -/
  | ucieModuleOut (pair : BitVec 3) (mod : BitVec 2)
  /-- DIE_LOSS (R386). A die silent for 10 ms is lost, routes are rewritten and its contexts torn down. -/
  | dieLoss (die : DieNo)
  /-- NEWT_FAILOVER (R387). On master failure the standby saves its conductors and takes the master role. -/
  | newtFailover (fen : FenNo) (core : Bool)
  /-- FAULT_RECORD_POST (R336). A ready record is written to the ring when space exists, then MSI-X vector 0 is raised. -/
  | faultRecordPost
  /-- WAIT_TIMEOUT (R346). A wait or freeze exceeding its limit posts one FLT_TMO record and continues. -/
  | waitTimeout (key : CoreKey)
  /-- TELEM_UPDATE (R184). Die power and temperatures are updated every 1 ms. -/
  | telemUpdate (die : DieNo) (v : Word)
  /-- ENERGY_UPDATE (R188). Per-context energy counters are updated every 1 ms. -/
  | energyUpdate (n : BitVec 6) (uj : Word)
  /-- CLOCK_THROTTLE (R187). Power or temperature above its limit lowers a die's clock in 75 MHz steps. -/
  | clockThrottle (die : DieNo)
  /-- HEAT_SWEEP (R122). A wrap of the die's 24-bit sample counter halves every heat byte. -/
  | heatSweep (die : DieNo)
  /-- SCRUB (R367). The scrubber reads, corrects and writes back the next HBM sector. -/
  | scrub (pa : BitVec 48) (symbols : Nat)
  /-- STRIPE_REBUILD (R365). An uncorrectable HBM sector is rebuilt from its stripe or poisoned; `bad`: the stripe positions
  of the other lines that cannot be decoded. -/
  | stripeRebuild (pa : BitVec 48) (bad : List (BitVec 4))
  /-- CHANNEL_RETIRE (R370). A failing channel is retired and its group enters the degraded phase. -/
  | channelRetire (die : DieNo) (ch : BitVec 6) (reason : RetireReason)
  /-- RESTRIPE_STRIPE (R371). The die moves one stripe to the 15-channel layout and advances WMARK. -/
  | restripeStripe (die : DieNo)
  /-- MIRE_TIMEOUT (R375). A mire request without response in 2 ms poisons its sector. -/
  | mireTimeout (pa : BitVec 48)
  /-- MIRE_PORT_DOWN (R375). A mire port link going down posts MCE cause 6. -/
  | mirePortDown (port : BitVec 2)
  /-- MIRE_PORT_UP (R375). A mire port restored posts MCE cause 7. -/
  | mirePortUp (port : BitVec 2)
  /-- PORT_UP (R385). A Moend port that was down trains and comes up again, restoring routes and reachability of peers and posting LINK cause 3. -/
  | portUp (port : PortNo) (lanes : BitVec 8) (peer : DevNo)
  /-- LEASE_REQUEST_RECEIVE (R114). The lender device receives a lease request, chooses an offset in its window and grants or refuses it. -/
  | leaseRequestReceive (dev : DevNo) (size : BitVec 24) (grant : Option (BitVec 48))
  /-- MSI_X_VECTOR_0 (R336). When the 1 microsecond rate limit has passed, MSI-X vector 0 is raised for every record written since the last raise. -/
  | msiXVector0

  deriving DecidableEq, Repr, Inhabited

end Sys2Proof
end

