-- ==== Sys2Proof/WellFormed.lean ====
section
/-! DEFINITION. Which instructions the encodings admit: the values the bundle chapter marks reserved in
an assigned op (R192, R194, R196, R199, R201, R203, R207, R209). What depends on the kind of core or on the
machine's state (R200, R212, the counter range of WAITC) is checked where the instruction executes. -/

namespace Sys2Proof

/-- bc replaces operand b, and the b field and peekB must then be zero (R201). -/
def bcOk (c : BitVec 1) (b : BitVec 4) (y : BitVec 1) : Bool :=
  decide (c = 0) || (decide (b = 0) && decide (y = 0))

/-- AGW's field code and level (R199). -/
def agwOk (l : BitVec 3) (f : BitVec 5) : Bool :=
  if f ≤ 1 then decide (l = 0) else decide (f ≤ 4) && decide (l ≤ 5)

/-- An MMA with block scales must be in the classical order, which MMA.c4 always is (R80, R203, R285). -/
def sclOk (h k : BitVec 1) : Bool := decide (h = 0) || decide (k = 1)

/-- DRAIN's output type, and ALT, which only E4M3 and E5M2 may set (R201, R203). -/
def drainOk (t : BitVec 3) (a : BitVec 1) : Bool :=
  decide (t ≤ 4) && (decide (a = 0) || decide (3 ≤ t))

/-- The gating level of the K slot (R194, R196). -/
def lvlOk (f l : BitVec 1) (v : BitVec 3) : Bool :=
  decide (v ≤ 5) && (decide (f = 1) || decide (l = 1) || decide (v = 0))

/-- Well-formedness: no field holds a reserved value. The word of K with every field zero is the NOP's
(R192), and the word of BANKM with mode 3 is ILLEGAL (R207), so those two are no instruction either. -/
def wellFormed : Instr → Bool
  | .nop => true
  | .add _ _ _ _ => true
  | .sub _ _ _ _ => true
  | .mul _ _ _ _ => true
  | .mulh _ _ _ _ => true
  | .mulhu _ _ _ _ => true
  | .min _ _ _ _ => true
  | .max _ _ _ _ => true
  | .minu _ _ _ _ => true
  | .maxu _ _ _ _ => true
  | .and _ _ _ _ => true
  | .or _ _ _ _ => true
  | .xor _ _ _ _ => true
  | .andn _ _ _ _ => true
  | .clz _ _ _ => true
  | .popc _ _ _ => true
  | .shl _ _ _ _ => true
  | .shr _ _ _ _ => true
  | .sar _ _ _ _ => true
  | .addi _ _ _ _ => true
  | .shli _ _ _ _ => true
  | .shri _ _ _ _ => true
  | .sari _ _ _ _ => true
  | .pca _ _ _ => true
  | .addb _ _ _ => true
  | .andb _ _ _ => true
  | .orb _ _ _ => true
  | .xorb _ _ _ => true
  | .div _ _ _ _ => true
  | .divu _ _ _ _ => true
  | .rem _ _ _ _ => true
  | .remu _ _ _ _ => true
  | .cmpeq _ _ _ _ => true
  | .cmpne _ _ _ _ => true
  | .cmplt _ _ _ _ => true
  | .cmpltu _ _ _ _ => true
  | .cmple _ _ _ _ => true
  | .cmpleu _ _ _ _ => true
  | .cmpeqi _ _ _ _ => true
  | .cmplti _ _ _ _ => true
  | .pand _ _ _ _ => true
  | .por _ _ _ _ => true
  | .pnot _ _ _ => true
  | .shw r _ f _ => decide (r ≤ 11) && decide (f ≤ 15)
  | .agw _ l _ f _ => agwOk l f
  | .crr _ _ _ => true
  | .crw _ _ _ _ => true
  | .vaddF32 _ _ b _ y _ c => bcOk c b y
  | .vsubF32 _ _ b _ y _ c => bcOk c b y
  | .vmulF32 _ _ b _ y _ c => bcOk c b y
  | .vfmaF32 _ _ b _ y _ c => bcOk c b y
  | .vminF32 _ _ b _ y _ c => bcOk c b y
  | .vmaxF32 _ _ b _ y _ c => bcOk c b y
  | .vcmpltF32 _ b _ y _ c => bcOk c b y
  | .vcmpleF32 _ b _ y _ c => bcOk c b y
  | .vaddBf16 _ _ b _ y _ c => bcOk c b y
  | .vsubBf16 _ _ b _ y _ c => bcOk c b y
  | .vmulBf16 _ _ b _ y _ c => bcOk c b y
  | .vfmaBf16 _ _ b _ y _ c => bcOk c b y
  | .vminBf16 _ _ b _ y _ c => bcOk c b y
  | .vmaxBf16 _ _ b _ y _ c => bcOk c b y
  | .vcmpltBf16 _ b _ y _ c => bcOk c b y
  | .vcmpleBf16 _ b _ y _ c => bcOk c b y
  | .vaddF16 _ _ b _ y _ c => bcOk c b y
  | .vsubF16 _ _ b _ y _ c => bcOk c b y
  | .vmulF16 _ _ b _ y _ c => bcOk c b y
  | .vfmaF16 _ _ b _ y _ c => bcOk c b y
  | .vminF16 _ _ b _ y _ c => bcOk c b y
  | .vmaxF16 _ _ b _ y _ c => bcOk c b y
  | .vcmpeqF32 _ b _ y _ c => bcOk c b y
  | .vcmpeqBf16 _ b _ y _ c => bcOk c b y
  | .vdivF32 _ _ b _ y _ c => bcOk c b y
  | .vsqrtF32 _ _ _ _ => true
  | .vrsqrtF32 _ _ _ _ => true
  | .vexp2F32 _ _ _ _ => true
  | .vlog2F32 _ _ _ _ => true
  | .vsel _ _ b _ y c => bcOk c b y
  | .vamaxF32 _ _ _ _ => true
  | .vamaxBf16 _ _ _ _ => true
  | .vcvtBf16F32 _ _ r _ _ => decide (r ≤ 4)
  | .vcvtF16F32 _ _ r _ _ => decide (r ≤ 4)
  | .vcvtE4m3F32 _ _ r _ _ _ => decide (r ≤ 4)
  | .vcvtE5m2F32 _ _ r _ _ _ => decide (r ≤ 4)
  | .vcvtF32Bf16 _ _ _ _ => true
  | .vcvtF32F16 _ _ _ _ => true
  | .vcvtF32E4m3 _ _ _ _ => true
  | .vcvtF32E5m2 _ _ _ _ => true
  | .vcvtI32F32 _ _ r _ _ => decide (r ≤ 4)
  | .vcvtF32I32 _ _ r _ _ => decide (r ≤ 4)
  | .vcvtI8F32 _ _ r _ _ => decide (r ≤ 4)
  | .vcvtE4m3Bf16 _ _ r _ _ _ => decide (r ≤ 4)
  | .vrsumF32 _ _ _ _ => true
  | .vqntE4m3 _ _ b _ y _ c => bcOk c b y
  | .vqntE4m3Sr _ _ b _ y _ c => bcOk c b y
  | .vqntE5m2 _ _ b _ y _ c => bcOk c b y
  | .vqntE5m2Sr _ _ b _ y _ c => bcOk c b y
  | .vqntI8 _ _ b _ y _ c => bcOk c b y
  | .vqntI8Sr _ _ b _ y _ c => bcOk c b y
  | .vdqntE4m3 _ _ b _ y _ c => bcOk c b y
  | .vdqntE5m2 _ _ b _ y _ c => bcOk c b y
  | .vdqntI8 _ _ b _ y _ c => bcOk c b y
  | .vreluF32 _ _ _ _ => true
  | .vreluBf16 _ _ _ _ => true
  | .vmpoolF32 _ _ _ _ => true
  | .vmpoolBf16 _ _ _ _ => true
  | .vrelubF32 _ _ _ _ _ _ => true
  | .vrelubBf16 _ _ _ _ _ _ => true
  | .vmpoolbF32 _ _ _ _ _ _ => true
  | .vmpoolbBf16 _ _ _ _ _ _ => true
  | .vgelubF32 _ _ _ _ _ _ => true
  | .vgelubBf16 _ _ _ _ _ _ => true
  | .vdropbF32 _ _ _ _ _ _ => true
  | .vdropbBf16 _ _ _ _ _ _ => true
  | .vsmaxbF32 _ _ _ _ _ _ => true
  | .vsmaxbBf16 _ _ _ _ _ _ => true
  | .vlnormbF32 _ _ _ _ _ _ => true
  | .vlnormbBf16 _ _ _ _ _ _ => true
  | .vaddI32 _ _ b _ y _ c => bcOk c b y
  | .vsubI32 _ _ b _ y _ c => bcOk c b y
  | .vmulI32 _ _ b _ y _ c => bcOk c b y
  | .vminI32 _ _ b _ y _ c => bcOk c b y
  | .vmaxI32 _ _ b _ y _ c => bcOk c b y
  | .vcmpeqI32 _ b _ y _ c => bcOk c b y
  | .vcmpltI32 _ b _ y _ c => bcOk c b y
  | .vaddI16 _ _ b _ y _ c => bcOk c b y
  | .vsubI16 _ _ b _ y _ c => bcOk c b y
  | .vaddsI16 _ _ b _ y _ c => bcOk c b y
  | .vaddI8 _ _ b _ y _ c => bcOk c b y
  | .vsubI8 _ _ b _ y _ c => bcOk c b y
  | .vaddsI8 _ _ b _ y _ c => bcOk c b y
  | .vand _ _ b _ y _ c => bcOk c b y
  | .vor _ _ b _ y _ c => bcOk c b y
  | .vxor _ _ b _ y _ c => bcOk c b y
  | .vshl _ _ b _ y _ c => bcOk c b y
  | .vshr _ _ b _ y _ c => bcOk c b y
  | .vsar _ _ b _ y _ c => bcOk c b y
  | .vshuf _ _ b _ y _ c => bcOk c b y
  | .vrot _ _ b _ y _ c => bcOk c b y
  | .vzip _ _ b _ y _ c => bcOk c b y
  | .vunzip _ _ b _ y _ c => bcOk c b y
  | .vmov _ _ _ _ => true
  | .vxmov _ _ _ _ => true
  | .vdec _ _ _ _ => true
  | .vlfrd _ _ => true
  | .vlfwr _ _ _ => true
  | .mmaBf16Latch _ _ _ _ _ _ k _ h => sclOk h k
  | .mmaBf16Bank _ _ _ _ _ k _ h _ => sclOk h k
  | .mmaF16Latch _ _ _ _ _ _ k _ h => sclOk h k
  | .mmaF16Bank _ _ _ _ _ k _ h _ => sclOk h k
  | .mmaE4m3Latch _ _ _ _ _ _ k _ h => sclOk h k
  | .mmaE4m3Bank _ _ _ _ _ k _ h _ => sclOk h k
  | .mmaE5m2Latch _ _ _ _ _ _ k _ h => sclOk h k
  | .mmaE5m2Bank _ _ _ _ _ k _ h _ => sclOk h k
  | .mmaC4Latch _ _ _ _ _ _ _ _ _ => true
  | .mmaC4Bank _ _ _ _ _ _ _ _ _ => true
  | .latch _ _ _ _ => true
  | .latchreed _ _ _ => true
  | .drain _ _ _ t a _ _ => drainOk t a
  | .draint _ _ _ t a _ _ => drainOk t a
  | .zero _ => true
  | .ldcbk _ _ _ _ => true
  | .ldfmt _ _ _ => true
  | .lds _ _ _ _ _ => true
  | .ldsk _ _ _ _ _ => true
  | .sts _ _ _ _ _ => true
  | .ldsx _ _ _ _ _ => true
  | .stsx _ _ _ _ _ => true
  | .ldr _ _ _ _ _ _ => true
  | .str _ _ _ _ _ _ => true
  | .ldg _ _ _ _ _ _ => true
  | .ldgk _ _ _ _ _ _ => true
  | .stg _ _ _ _ _ _ => true
  | .ldgx _ _ _ _ _ _ => true
  | .stgx _ _ _ _ _ _ => true
  | .atadd _ _ _ _ _ _ => true
  | .atand _ _ _ _ _ _ => true
  | .ator _ _ _ _ _ _ => true
  | .atxchg _ _ _ _ _ _ => true
  | .atcas _ _ _ _ _ _ => true
  | .atfadd _ _ _ _ _ _ => true
  | .atfmax _ _ _ _ _ _ => true
  | .fence _ _ o => decide (o ≤ 5)
  | .stk _ _ _ _ _ _ => true
  | .kcopy _ _ _ _ _ _ => true
  | .cp _ _ _ _ _ _ => true
  | .cpq _ _ _ _ _ _ => true
  | .cpblk _ _ _ _ _ _ => true
  | .prefr _ _ _ _ _ _ => true
  | .bankm _ _ m _ => decide (m ≠ 3)
  | .reedinv _ _ _ _ _ _ => true
  | .coll _ _ _ _ _ _ => true
  | .dpost _ _ _ _ _ _ => true
  | .gwait _ _ _ _ _ _ => true
  | .lease _ _ _ _ _ _ => true
  | .lrel _ _ _ _ _ _ => true
  | .mbpost _ _ _ _ _ => true
  | .b _ _ => true
  | .call _ _ => true
  | .brmz _ _ => true
  | .jmpi _ _ => true
  | .calli _ _ => true
  | .ret _ _ => true
  | .guard _ _ _ _ _ => true
  | .loop l _ _ => decide (l ≤ 5)
  | .loopp _ _ _ => true
  | .mpush _ => true
  | .minv _ => true
  | .mpop _ => true
  | .waitt t => decide (t ≠ 0)
  | .waitc _ _ => true
  | .waitr => true
  | .bara _ s _ => decide (s ≠ 0) && decide (s ≤ 5)
  | .barw _ => true
  | .mbtake _ => true
  | .mbreply _ _ => true
  | .launch _ => true
  | .trap _ => true
  | .tret => true
  | .done => true
  | .k f l v k => lvlOk f l v && decide (f ≠ 0 ∨ l ≠ 0 ∨ v ≠ 0 ∨ k ≠ 0)
  | .kctl f l v _ => lvlOk f l v
  | .contextStart _ => true
  | .contextTeardown _ => true
  | .contextFree _ => true
  | .tlbinv _ => true
  | .tlbinvDone => true
  | .attn _ => true
  | .attestationReady _ => true
  | .resumeReplay _ => true
  | .resumeIgnoreBkpt _ => true
  | .preemptSave _ => true
  | .saveRelease _ => true
  | .preemptRestore _ => true
  | .restoreComplete _ => true
  | .debugRawRead _ _ => true
  | .debugDecodeRead _ _ => true
  | .debugRawWrite _ _ => true
  | .lrevoke _ => true
  | .ovp _ => true
  | .retstAck _ => true
  | .recov => true
  | .recoveryFlashWrite _ _ => true
  | .getEventRecords => true
  | .clearEventRecords _ => true
  | .hostMemRead _ _ => true
  | .hostMemWrite _ _ => true
  | .hostRegisterWrite _ _ => true
  | .boot _ => true
  | .launchTake _ => true
  | .groupInstantiate _ => true
  | .dispatch _ => true
  | .nodeAging _ _ => true
  | .coreTaskFinish _ => true
  | .nodeFinish _ _ => true
  | .launchComplete _ => true
  | .conductorChange _ => true
  | .resultLand _ => true
  | .freeze _ => true
  | .globalLoadArrive _ _ => true
  | .directFormFault _ => true
  | .engineCommandStart _ _ => true
  | .engineCommandComplete _ _ => true
  | .barrierComplete _ _ => true
  | .agFetch _ _ => true
  | .bankSwitchDone _ _ => true
  | .fifoHeldWrite _ _ => true
  | .networkWriteLand _ _ => true
  | .mmaStepLand _ _ => true
  | .latchreedRowLand _ _ => true
  | .codebookTableReady _ _ => true
  | .mailboxPlace _ => true
  | .mailboxTake _ => true
  | .mailboxServiceStart _ => true
  | .mailboxReplyLand _ => true
  | .leaseResponse _ _ _ => true
  | .collTransferEmit _ _ => true
  | .transferArrive _ _ => true
  | .heldTransferDeliver _ _ => true
  | .xhold _ _ => true
  | .exchangeStart _ => true
  | .phaseStart _ => true
  | .closeFlitReceive _ _ _ => true
  | .xtmo _ => true
  | .skinkAnnounce _ _ => true
  | .skinkTakeover => true
  | .leaseNoticeReceive _ _ => true
  | .leaseExpiry _ => true
  | .lenderUnreachable _ => true
  | .borrowerUnreachable _ => true
  | .flitReceive _ _ => true
  | .ackTimeout _ _ => true
  | .portRetrain _ => true
  | .retrainDone _ _ => true
  | .ploss _ => true
  | .ucieModuleOut _ _ => true
  | .dieLoss _ => true
  | .newtFailover _ _ => true
  | .faultRecordPost => true
  | .waitTimeout _ => true
  | .telemUpdate _ _ => true
  | .energyUpdate _ _ => true
  | .clockThrottle _ => true
  | .heatSweep _ => true
  | .scrub _ _ => true
  | .stripeRebuild _ _ => true
  | .channelRetire _ _ _ => true
  | .restripeStripe _ => true
  | .mireTimeout _ => true
  | .mirePortDown _ => true
  | .mirePortUp _ => true
  | .portUp _ _ _ => true
  | .leaseRequestReceive _ _ _ => true
  | .msiXVector0 => true

end Sys2Proof
end

