-- ==== Sys2Proof/Decode.lean ====
section
/-! DEFINITION. Decoding a slot by the class of its position (R191, R192), total on every 24-bit value,
and the encoder. The five maps are those of R198, R202, R204, R208 and R210, with the K slot's two forms
(R211). -/

namespace Sys2Proof

/-- The class of a slot (R189). -/
inductive SlotClass where
  | s | v | m | c | l | k
  deriving DecidableEq, Repr, Inhabited

/-- The class of slot i of a bundle (R189). -/
def slotClass (i : Nat) : SlotClass :=
  match i with
  | 0 => .s
  | 1 => .v
  | 2 => .v
  | 3 => .m
  | 4 => .c
  | 5 => .c
  | 6 => .l
  | _ => .k

/-- The fates of a slot value (R192). -/
inductive Decoded where
  | instr (i : Instr)
  | illegal
  | enc
  deriving DecidableEq, Repr, Inhabited

/-- A row of a map: the op value, the bits the encoding fixes (mask) and their values (match), and the
instruction its fields make. -/
structure OpRow where
  op : BitVec 8
  mask : SlotWord
  pat : SlotWord
  build : SlotWord → Instr

def sRows0 : List OpRow :=
  [⟨0x01, 0xFE0000, 0x020000, fun w => .add (w.extractLsb' 12 5) (w.extractLsb' 7 5) (w.extractLsb' 2 5) (w.extractLsb' 0 2)⟩,
   ⟨0x02, 0xFE0000, 0x040000, fun w => .sub (w.extractLsb' 12 5) (w.extractLsb' 7 5) (w.extractLsb' 2 5) (w.extractLsb' 0 2)⟩,
   ⟨0x03, 0xFE0000, 0x060000, fun w => .mul (w.extractLsb' 12 5) (w.extractLsb' 7 5) (w.extractLsb' 2 5) (w.extractLsb' 0 2)⟩,
   ⟨0x04, 0xFE0000, 0x080000, fun w => .mulh (w.extractLsb' 12 5) (w.extractLsb' 7 5) (w.extractLsb' 2 5) (w.extractLsb' 0 2)⟩,
   ⟨0x05, 0xFE0000, 0x0A0000, fun w => .mulhu (w.extractLsb' 12 5) (w.extractLsb' 7 5) (w.extractLsb' 2 5) (w.extractLsb' 0 2)⟩,
   ⟨0x06, 0xFE0000, 0x0C0000, fun w => .min (w.extractLsb' 12 5) (w.extractLsb' 7 5) (w.extractLsb' 2 5) (w.extractLsb' 0 2)⟩,
   ⟨0x07, 0xFE0000, 0x0E0000, fun w => .max (w.extractLsb' 12 5) (w.extractLsb' 7 5) (w.extractLsb' 2 5) (w.extractLsb' 0 2)⟩,
   ⟨0x08, 0xFE0000, 0x100000, fun w => .minu (w.extractLsb' 12 5) (w.extractLsb' 7 5) (w.extractLsb' 2 5) (w.extractLsb' 0 2)⟩,
   ⟨0x09, 0xFE0000, 0x120000, fun w => .maxu (w.extractLsb' 12 5) (w.extractLsb' 7 5) (w.extractLsb' 2 5) (w.extractLsb' 0 2)⟩,
   ⟨0x0A, 0xFE0000, 0x140000, fun w => .and (w.extractLsb' 12 5) (w.extractLsb' 7 5) (w.extractLsb' 2 5) (w.extractLsb' 0 2)⟩,
   ⟨0x0B, 0xFE0000, 0x160000, fun w => .or (w.extractLsb' 12 5) (w.extractLsb' 7 5) (w.extractLsb' 2 5) (w.extractLsb' 0 2)⟩,
   ⟨0x0C, 0xFE0000, 0x180000, fun w => .xor (w.extractLsb' 12 5) (w.extractLsb' 7 5) (w.extractLsb' 2 5) (w.extractLsb' 0 2)⟩,
   ⟨0x0D, 0xFE0000, 0x1A0000, fun w => .andn (w.extractLsb' 12 5) (w.extractLsb' 7 5) (w.extractLsb' 2 5) (w.extractLsb' 0 2)⟩,
   ⟨0x0E, 0xFE007C, 0x1C0000, fun w => .clz (w.extractLsb' 12 5) (w.extractLsb' 7 5) (w.extractLsb' 0 2)⟩,
   ⟨0x0F, 0xFE007C, 0x1E0000, fun w => .popc (w.extractLsb' 12 5) (w.extractLsb' 7 5) (w.extractLsb' 0 2)⟩,
   ⟨0x10, 0xFE0000, 0x200000, fun w => .shl (w.extractLsb' 12 5) (w.extractLsb' 7 5) (w.extractLsb' 2 5) (w.extractLsb' 0 2)⟩]

def sRows1 : List OpRow :=
  [⟨0x11, 0xFE0000, 0x220000, fun w => .shr (w.extractLsb' 12 5) (w.extractLsb' 7 5) (w.extractLsb' 2 5) (w.extractLsb' 0 2)⟩,
   ⟨0x12, 0xFE0000, 0x240000, fun w => .sar (w.extractLsb' 12 5) (w.extractLsb' 7 5) (w.extractLsb' 2 5) (w.extractLsb' 0 2)⟩,
   ⟨0x13, 0xFE0000, 0x260000, fun w => .addi (w.extractLsb' 12 5) (w.extractLsb' 7 5) (w.extractLsb' 2 5) (w.extractLsb' 0 2)⟩,
   ⟨0x14, 0xFE0000, 0x280000, fun w => .shli (w.extractLsb' 12 5) (w.extractLsb' 7 5) (w.extractLsb' 2 5) (w.extractLsb' 0 2)⟩,
   ⟨0x15, 0xFE0000, 0x2A0000, fun w => .shri (w.extractLsb' 12 5) (w.extractLsb' 7 5) (w.extractLsb' 2 5) (w.extractLsb' 0 2)⟩,
   ⟨0x16, 0xFE0000, 0x2C0000, fun w => .sari (w.extractLsb' 12 5) (w.extractLsb' 7 5) (w.extractLsb' 2 5) (w.extractLsb' 0 2)⟩,
   ⟨0x17, 0xFE0F80, 0x2E0000, fun w => .pca (w.extractLsb' 12 5) (w.extractLsb' 2 5) (w.extractLsb' 0 2)⟩,
   ⟨0x18, 0xFE007C, 0x300000, fun w => .addb (w.extractLsb' 12 5) (w.extractLsb' 7 5) (w.extractLsb' 0 2)⟩,
   ⟨0x19, 0xFE007C, 0x320000, fun w => .andb (w.extractLsb' 12 5) (w.extractLsb' 7 5) (w.extractLsb' 0 2)⟩,
   ⟨0x1A, 0xFE007C, 0x340000, fun w => .orb (w.extractLsb' 12 5) (w.extractLsb' 7 5) (w.extractLsb' 0 2)⟩,
   ⟨0x1B, 0xFE007C, 0x360000, fun w => .xorb (w.extractLsb' 12 5) (w.extractLsb' 7 5) (w.extractLsb' 0 2)⟩,
   ⟨0x1C, 0xFE0000, 0x380000, fun w => .div (w.extractLsb' 12 5) (w.extractLsb' 7 5) (w.extractLsb' 2 5) (w.extractLsb' 0 2)⟩,
   ⟨0x1D, 0xFE0000, 0x3A0000, fun w => .divu (w.extractLsb' 12 5) (w.extractLsb' 7 5) (w.extractLsb' 2 5) (w.extractLsb' 0 2)⟩,
   ⟨0x1E, 0xFE0000, 0x3C0000, fun w => .rem (w.extractLsb' 12 5) (w.extractLsb' 7 5) (w.extractLsb' 2 5) (w.extractLsb' 0 2)⟩,
   ⟨0x1F, 0xFE0000, 0x3E0000, fun w => .remu (w.extractLsb' 12 5) (w.extractLsb' 7 5) (w.extractLsb' 2 5) (w.extractLsb' 0 2)⟩,
   ⟨0x20, 0xFF8000, 0x400000, fun w => .cmpeq (w.extractLsb' 12 3) (w.extractLsb' 7 5) (w.extractLsb' 2 5) (w.extractLsb' 0 2)⟩]

def sRows2 : List OpRow :=
  [⟨0x21, 0xFF8000, 0x420000, fun w => .cmpne (w.extractLsb' 12 3) (w.extractLsb' 7 5) (w.extractLsb' 2 5) (w.extractLsb' 0 2)⟩,
   ⟨0x22, 0xFF8000, 0x440000, fun w => .cmplt (w.extractLsb' 12 3) (w.extractLsb' 7 5) (w.extractLsb' 2 5) (w.extractLsb' 0 2)⟩,
   ⟨0x23, 0xFF8000, 0x460000, fun w => .cmpltu (w.extractLsb' 12 3) (w.extractLsb' 7 5) (w.extractLsb' 2 5) (w.extractLsb' 0 2)⟩,
   ⟨0x24, 0xFF8000, 0x480000, fun w => .cmple (w.extractLsb' 12 3) (w.extractLsb' 7 5) (w.extractLsb' 2 5) (w.extractLsb' 0 2)⟩,
   ⟨0x25, 0xFF8000, 0x4A0000, fun w => .cmpleu (w.extractLsb' 12 3) (w.extractLsb' 7 5) (w.extractLsb' 2 5) (w.extractLsb' 0 2)⟩,
   ⟨0x26, 0xFF8000, 0x4C0000, fun w => .cmpeqi (w.extractLsb' 12 3) (w.extractLsb' 7 5) (w.extractLsb' 2 5) (w.extractLsb' 0 2)⟩,
   ⟨0x27, 0xFF8000, 0x4E0000, fun w => .cmplti (w.extractLsb' 12 3) (w.extractLsb' 7 5) (w.extractLsb' 2 5) (w.extractLsb' 0 2)⟩,
   ⟨0x28, 0xFF8C60, 0x500000, fun w => .pand (w.extractLsb' 12 3) (w.extractLsb' 7 3) (w.extractLsb' 2 3) (w.extractLsb' 0 2)⟩,
   ⟨0x29, 0xFF8C60, 0x520000, fun w => .por (w.extractLsb' 12 3) (w.extractLsb' 7 3) (w.extractLsb' 2 3) (w.extractLsb' 0 2)⟩,
   ⟨0x2A, 0xFF8C7C, 0x540000, fun w => .pnot (w.extractLsb' 12 3) (w.extractLsb' 7 3) (w.extractLsb' 0 2)⟩,
   ⟨0x2C, 0xFE0000, 0x580000, fun w => .shw (w.extractLsb' 12 5) (w.extractLsb' 7 5) (w.extractLsb' 2 5) (w.extractLsb' 0 2)⟩,
   ⟨0x2D, 0xFE0000, 0x5A0000, fun w => .agw (w.extractLsb' 15 2) (w.extractLsb' 12 3) (w.extractLsb' 7 5) (w.extractLsb' 2 5) (w.extractLsb' 0 2)⟩,
   ⟨0x2E, 0xFE0000, 0x5C0000, fun w => .crr (w.extractLsb' 12 5) (w.extractLsb' 2 10) (w.extractLsb' 0 2)⟩,
   ⟨0x2F, 0xFE0000, 0x5E0000, fun w => .crw (w.extractLsb' 12 5) (w.extractLsb' 7 5) (w.extractLsb' 2 5) (w.extractLsb' 0 2)⟩]

/-- The S map (R198). -/
def sRows : List OpRow :=
  sRows0 ++ (sRows1 ++ (sRows2))

def vRows0 : List OpRow :=
  [⟨0x80, 0xFF0000, 0x800000, fun w => .vaddF32 (w.extractLsb' 12 4) (w.extractLsb' 8 4) (w.extractLsb' 4 4) (w.extractLsb' 3 1) (w.extractLsb' 2 1) (w.extractLsb' 1 1) (w.extractLsb' 0 1)⟩,
   ⟨0x81, 0xFF0000, 0x810000, fun w => .vsubF32 (w.extractLsb' 12 4) (w.extractLsb' 8 4) (w.extractLsb' 4 4) (w.extractLsb' 3 1) (w.extractLsb' 2 1) (w.extractLsb' 1 1) (w.extractLsb' 0 1)⟩,
   ⟨0x82, 0xFF0000, 0x820000, fun w => .vmulF32 (w.extractLsb' 12 4) (w.extractLsb' 8 4) (w.extractLsb' 4 4) (w.extractLsb' 3 1) (w.extractLsb' 2 1) (w.extractLsb' 1 1) (w.extractLsb' 0 1)⟩,
   ⟨0x83, 0xFF0000, 0x830000, fun w => .vfmaF32 (w.extractLsb' 12 4) (w.extractLsb' 8 4) (w.extractLsb' 4 4) (w.extractLsb' 3 1) (w.extractLsb' 2 1) (w.extractLsb' 1 1) (w.extractLsb' 0 1)⟩,
   ⟨0x84, 0xFF0000, 0x840000, fun w => .vminF32 (w.extractLsb' 12 4) (w.extractLsb' 8 4) (w.extractLsb' 4 4) (w.extractLsb' 3 1) (w.extractLsb' 2 1) (w.extractLsb' 1 1) (w.extractLsb' 0 1)⟩,
   ⟨0x85, 0xFF0000, 0x850000, fun w => .vmaxF32 (w.extractLsb' 12 4) (w.extractLsb' 8 4) (w.extractLsb' 4 4) (w.extractLsb' 3 1) (w.extractLsb' 2 1) (w.extractLsb' 1 1) (w.extractLsb' 0 1)⟩,
   ⟨0x86, 0xFFF000, 0x860000, fun w => .vcmpltF32 (w.extractLsb' 8 4) (w.extractLsb' 4 4) (w.extractLsb' 3 1) (w.extractLsb' 2 1) (w.extractLsb' 1 1) (w.extractLsb' 0 1)⟩,
   ⟨0x87, 0xFFF000, 0x870000, fun w => .vcmpleF32 (w.extractLsb' 8 4) (w.extractLsb' 4 4) (w.extractLsb' 3 1) (w.extractLsb' 2 1) (w.extractLsb' 1 1) (w.extractLsb' 0 1)⟩,
   ⟨0x88, 0xFF0000, 0x880000, fun w => .vaddBf16 (w.extractLsb' 12 4) (w.extractLsb' 8 4) (w.extractLsb' 4 4) (w.extractLsb' 3 1) (w.extractLsb' 2 1) (w.extractLsb' 1 1) (w.extractLsb' 0 1)⟩,
   ⟨0x89, 0xFF0000, 0x890000, fun w => .vsubBf16 (w.extractLsb' 12 4) (w.extractLsb' 8 4) (w.extractLsb' 4 4) (w.extractLsb' 3 1) (w.extractLsb' 2 1) (w.extractLsb' 1 1) (w.extractLsb' 0 1)⟩,
   ⟨0x8A, 0xFF0000, 0x8A0000, fun w => .vmulBf16 (w.extractLsb' 12 4) (w.extractLsb' 8 4) (w.extractLsb' 4 4) (w.extractLsb' 3 1) (w.extractLsb' 2 1) (w.extractLsb' 1 1) (w.extractLsb' 0 1)⟩,
   ⟨0x8B, 0xFF0000, 0x8B0000, fun w => .vfmaBf16 (w.extractLsb' 12 4) (w.extractLsb' 8 4) (w.extractLsb' 4 4) (w.extractLsb' 3 1) (w.extractLsb' 2 1) (w.extractLsb' 1 1) (w.extractLsb' 0 1)⟩,
   ⟨0x8C, 0xFF0000, 0x8C0000, fun w => .vminBf16 (w.extractLsb' 12 4) (w.extractLsb' 8 4) (w.extractLsb' 4 4) (w.extractLsb' 3 1) (w.extractLsb' 2 1) (w.extractLsb' 1 1) (w.extractLsb' 0 1)⟩,
   ⟨0x8D, 0xFF0000, 0x8D0000, fun w => .vmaxBf16 (w.extractLsb' 12 4) (w.extractLsb' 8 4) (w.extractLsb' 4 4) (w.extractLsb' 3 1) (w.extractLsb' 2 1) (w.extractLsb' 1 1) (w.extractLsb' 0 1)⟩,
   ⟨0x8E, 0xFFF000, 0x8E0000, fun w => .vcmpltBf16 (w.extractLsb' 8 4) (w.extractLsb' 4 4) (w.extractLsb' 3 1) (w.extractLsb' 2 1) (w.extractLsb' 1 1) (w.extractLsb' 0 1)⟩,
   ⟨0x8F, 0xFFF000, 0x8F0000, fun w => .vcmpleBf16 (w.extractLsb' 8 4) (w.extractLsb' 4 4) (w.extractLsb' 3 1) (w.extractLsb' 2 1) (w.extractLsb' 1 1) (w.extractLsb' 0 1)⟩]

def vRows1 : List OpRow :=
  [⟨0x90, 0xFF0000, 0x900000, fun w => .vaddF16 (w.extractLsb' 12 4) (w.extractLsb' 8 4) (w.extractLsb' 4 4) (w.extractLsb' 3 1) (w.extractLsb' 2 1) (w.extractLsb' 1 1) (w.extractLsb' 0 1)⟩,
   ⟨0x91, 0xFF0000, 0x910000, fun w => .vsubF16 (w.extractLsb' 12 4) (w.extractLsb' 8 4) (w.extractLsb' 4 4) (w.extractLsb' 3 1) (w.extractLsb' 2 1) (w.extractLsb' 1 1) (w.extractLsb' 0 1)⟩,
   ⟨0x92, 0xFF0000, 0x920000, fun w => .vmulF16 (w.extractLsb' 12 4) (w.extractLsb' 8 4) (w.extractLsb' 4 4) (w.extractLsb' 3 1) (w.extractLsb' 2 1) (w.extractLsb' 1 1) (w.extractLsb' 0 1)⟩,
   ⟨0x93, 0xFF0000, 0x930000, fun w => .vfmaF16 (w.extractLsb' 12 4) (w.extractLsb' 8 4) (w.extractLsb' 4 4) (w.extractLsb' 3 1) (w.extractLsb' 2 1) (w.extractLsb' 1 1) (w.extractLsb' 0 1)⟩,
   ⟨0x94, 0xFF0000, 0x940000, fun w => .vminF16 (w.extractLsb' 12 4) (w.extractLsb' 8 4) (w.extractLsb' 4 4) (w.extractLsb' 3 1) (w.extractLsb' 2 1) (w.extractLsb' 1 1) (w.extractLsb' 0 1)⟩,
   ⟨0x95, 0xFF0000, 0x950000, fun w => .vmaxF16 (w.extractLsb' 12 4) (w.extractLsb' 8 4) (w.extractLsb' 4 4) (w.extractLsb' 3 1) (w.extractLsb' 2 1) (w.extractLsb' 1 1) (w.extractLsb' 0 1)⟩,
   ⟨0x96, 0xFFF000, 0x960000, fun w => .vcmpeqF32 (w.extractLsb' 8 4) (w.extractLsb' 4 4) (w.extractLsb' 3 1) (w.extractLsb' 2 1) (w.extractLsb' 1 1) (w.extractLsb' 0 1)⟩,
   ⟨0x97, 0xFFF000, 0x970000, fun w => .vcmpeqBf16 (w.extractLsb' 8 4) (w.extractLsb' 4 4) (w.extractLsb' 3 1) (w.extractLsb' 2 1) (w.extractLsb' 1 1) (w.extractLsb' 0 1)⟩,
   ⟨0x98, 0xFF0000, 0x980000, fun w => .vdivF32 (w.extractLsb' 12 4) (w.extractLsb' 8 4) (w.extractLsb' 4 4) (w.extractLsb' 3 1) (w.extractLsb' 2 1) (w.extractLsb' 1 1) (w.extractLsb' 0 1)⟩,
   ⟨0x99, 0xFF00F5, 0x990000, fun w => .vsqrtF32 (w.extractLsb' 12 4) (w.extractLsb' 8 4) (w.extractLsb' 3 1) (w.extractLsb' 1 1)⟩,
   ⟨0x9A, 0xFF00F5, 0x9A0000, fun w => .vrsqrtF32 (w.extractLsb' 12 4) (w.extractLsb' 8 4) (w.extractLsb' 3 1) (w.extractLsb' 1 1)⟩,
   ⟨0x9B, 0xFF00F5, 0x9B0000, fun w => .vexp2F32 (w.extractLsb' 12 4) (w.extractLsb' 8 4) (w.extractLsb' 3 1) (w.extractLsb' 1 1)⟩,
   ⟨0x9C, 0xFF00F5, 0x9C0000, fun w => .vlog2F32 (w.extractLsb' 12 4) (w.extractLsb' 8 4) (w.extractLsb' 3 1) (w.extractLsb' 1 1)⟩,
   ⟨0x9D, 0xFF0002, 0x9D0000, fun w => .vsel (w.extractLsb' 12 4) (w.extractLsb' 8 4) (w.extractLsb' 4 4) (w.extractLsb' 3 1) (w.extractLsb' 2 1) (w.extractLsb' 0 1)⟩,
   ⟨0x9E, 0xFF00F5, 0x9E0000, fun w => .vamaxF32 (w.extractLsb' 12 4) (w.extractLsb' 8 4) (w.extractLsb' 3 1) (w.extractLsb' 1 1)⟩,
   ⟨0x9F, 0xFF00F5, 0x9F0000, fun w => .vamaxBf16 (w.extractLsb' 12 4) (w.extractLsb' 8 4) (w.extractLsb' 3 1) (w.extractLsb' 1 1)⟩]

def vRows2 : List OpRow :=
  [⟨0xA0, 0xFF0015, 0xA00000, fun w => .vcvtBf16F32 (w.extractLsb' 12 4) (w.extractLsb' 8 4) (w.extractLsb' 5 3) (w.extractLsb' 3 1) (w.extractLsb' 1 1)⟩,
   ⟨0xA1, 0xFF0015, 0xA10000, fun w => .vcvtF16F32 (w.extractLsb' 12 4) (w.extractLsb' 8 4) (w.extractLsb' 5 3) (w.extractLsb' 3 1) (w.extractLsb' 1 1)⟩,
   ⟨0xA2, 0xFF0005, 0xA20000, fun w => .vcvtE4m3F32 (w.extractLsb' 12 4) (w.extractLsb' 8 4) (w.extractLsb' 5 3) (w.extractLsb' 4 1) (w.extractLsb' 3 1) (w.extractLsb' 1 1)⟩,
   ⟨0xA3, 0xFF0005, 0xA30000, fun w => .vcvtE5m2F32 (w.extractLsb' 12 4) (w.extractLsb' 8 4) (w.extractLsb' 5 3) (w.extractLsb' 4 1) (w.extractLsb' 3 1) (w.extractLsb' 1 1)⟩,
   ⟨0xA4, 0xFF00F5, 0xA40000, fun w => .vcvtF32Bf16 (w.extractLsb' 12 4) (w.extractLsb' 8 4) (w.extractLsb' 3 1) (w.extractLsb' 1 1)⟩,
   ⟨0xA5, 0xFF00F5, 0xA50000, fun w => .vcvtF32F16 (w.extractLsb' 12 4) (w.extractLsb' 8 4) (w.extractLsb' 3 1) (w.extractLsb' 1 1)⟩,
   ⟨0xA6, 0xFF00F5, 0xA60000, fun w => .vcvtF32E4m3 (w.extractLsb' 12 4) (w.extractLsb' 8 4) (w.extractLsb' 3 1) (w.extractLsb' 1 1)⟩,
   ⟨0xA7, 0xFF00F5, 0xA70000, fun w => .vcvtF32E5m2 (w.extractLsb' 12 4) (w.extractLsb' 8 4) (w.extractLsb' 3 1) (w.extractLsb' 1 1)⟩,
   ⟨0xA8, 0xFF0015, 0xA80000, fun w => .vcvtI32F32 (w.extractLsb' 12 4) (w.extractLsb' 8 4) (w.extractLsb' 5 3) (w.extractLsb' 3 1) (w.extractLsb' 1 1)⟩,
   ⟨0xA9, 0xFF0015, 0xA90000, fun w => .vcvtF32I32 (w.extractLsb' 12 4) (w.extractLsb' 8 4) (w.extractLsb' 5 3) (w.extractLsb' 3 1) (w.extractLsb' 1 1)⟩,
   ⟨0xAA, 0xFF0015, 0xAA0000, fun w => .vcvtI8F32 (w.extractLsb' 12 4) (w.extractLsb' 8 4) (w.extractLsb' 5 3) (w.extractLsb' 3 1) (w.extractLsb' 1 1)⟩,
   ⟨0xAB, 0xFF0005, 0xAB0000, fun w => .vcvtE4m3Bf16 (w.extractLsb' 12 4) (w.extractLsb' 8 4) (w.extractLsb' 5 3) (w.extractLsb' 4 1) (w.extractLsb' 3 1) (w.extractLsb' 1 1)⟩,
   ⟨0xAC, 0xFF00F5, 0xAC0000, fun w => .vrsumF32 (w.extractLsb' 12 4) (w.extractLsb' 8 4) (w.extractLsb' 3 1) (w.extractLsb' 1 1)⟩,
   ⟨0xB0, 0xFF0000, 0xB00000, fun w => .vqntE4m3 (w.extractLsb' 12 4) (w.extractLsb' 8 4) (w.extractLsb' 4 4) (w.extractLsb' 3 1) (w.extractLsb' 2 1) (w.extractLsb' 1 1) (w.extractLsb' 0 1)⟩,
   ⟨0xB1, 0xFF0000, 0xB10000, fun w => .vqntE4m3Sr (w.extractLsb' 12 4) (w.extractLsb' 8 4) (w.extractLsb' 4 4) (w.extractLsb' 3 1) (w.extractLsb' 2 1) (w.extractLsb' 1 1) (w.extractLsb' 0 1)⟩,
   ⟨0xB2, 0xFF0000, 0xB20000, fun w => .vqntE5m2 (w.extractLsb' 12 4) (w.extractLsb' 8 4) (w.extractLsb' 4 4) (w.extractLsb' 3 1) (w.extractLsb' 2 1) (w.extractLsb' 1 1) (w.extractLsb' 0 1)⟩]

def vRows3 : List OpRow :=
  [⟨0xB3, 0xFF0000, 0xB30000, fun w => .vqntE5m2Sr (w.extractLsb' 12 4) (w.extractLsb' 8 4) (w.extractLsb' 4 4) (w.extractLsb' 3 1) (w.extractLsb' 2 1) (w.extractLsb' 1 1) (w.extractLsb' 0 1)⟩,
   ⟨0xB4, 0xFF0000, 0xB40000, fun w => .vqntI8 (w.extractLsb' 12 4) (w.extractLsb' 8 4) (w.extractLsb' 4 4) (w.extractLsb' 3 1) (w.extractLsb' 2 1) (w.extractLsb' 1 1) (w.extractLsb' 0 1)⟩,
   ⟨0xB5, 0xFF0000, 0xB50000, fun w => .vqntI8Sr (w.extractLsb' 12 4) (w.extractLsb' 8 4) (w.extractLsb' 4 4) (w.extractLsb' 3 1) (w.extractLsb' 2 1) (w.extractLsb' 1 1) (w.extractLsb' 0 1)⟩,
   ⟨0xB6, 0xFF0000, 0xB60000, fun w => .vdqntE4m3 (w.extractLsb' 12 4) (w.extractLsb' 8 4) (w.extractLsb' 4 4) (w.extractLsb' 3 1) (w.extractLsb' 2 1) (w.extractLsb' 1 1) (w.extractLsb' 0 1)⟩,
   ⟨0xB7, 0xFF0000, 0xB70000, fun w => .vdqntE5m2 (w.extractLsb' 12 4) (w.extractLsb' 8 4) (w.extractLsb' 4 4) (w.extractLsb' 3 1) (w.extractLsb' 2 1) (w.extractLsb' 1 1) (w.extractLsb' 0 1)⟩,
   ⟨0xB8, 0xFF0000, 0xB80000, fun w => .vdqntI8 (w.extractLsb' 12 4) (w.extractLsb' 8 4) (w.extractLsb' 4 4) (w.extractLsb' 3 1) (w.extractLsb' 2 1) (w.extractLsb' 1 1) (w.extractLsb' 0 1)⟩,
   ⟨0xB9, 0xFF00F5, 0xB90000, fun w => .vreluF32 (w.extractLsb' 12 4) (w.extractLsb' 8 4) (w.extractLsb' 3 1) (w.extractLsb' 1 1)⟩,
   ⟨0xBA, 0xFF00F5, 0xBA0000, fun w => .vreluBf16 (w.extractLsb' 12 4) (w.extractLsb' 8 4) (w.extractLsb' 3 1) (w.extractLsb' 1 1)⟩,
   ⟨0xBB, 0xFF00F5, 0xBB0000, fun w => .vmpoolF32 (w.extractLsb' 12 4) (w.extractLsb' 8 4) (w.extractLsb' 3 1) (w.extractLsb' 1 1)⟩,
   ⟨0xBC, 0xFF00F5, 0xBC0000, fun w => .vmpoolBf16 (w.extractLsb' 12 4) (w.extractLsb' 8 4) (w.extractLsb' 3 1) (w.extractLsb' 1 1)⟩,
   ⟨0xBD, 0xFF0001, 0xBD0000, fun w => .vrelubF32 (w.extractLsb' 12 4) (w.extractLsb' 8 4) (w.extractLsb' 4 4) (w.extractLsb' 3 1) (w.extractLsb' 2 1) (w.extractLsb' 1 1)⟩,
   ⟨0xBE, 0xFF0001, 0xBE0000, fun w => .vrelubBf16 (w.extractLsb' 12 4) (w.extractLsb' 8 4) (w.extractLsb' 4 4) (w.extractLsb' 3 1) (w.extractLsb' 2 1) (w.extractLsb' 1 1)⟩,
   ⟨0xBF, 0xFF0001, 0xBF0000, fun w => .vmpoolbF32 (w.extractLsb' 12 4) (w.extractLsb' 8 4) (w.extractLsb' 4 4) (w.extractLsb' 3 1) (w.extractLsb' 2 1) (w.extractLsb' 1 1)⟩,
   ⟨0xC0, 0xFF0001, 0xC00000, fun w => .vmpoolbBf16 (w.extractLsb' 12 4) (w.extractLsb' 8 4) (w.extractLsb' 4 4) (w.extractLsb' 3 1) (w.extractLsb' 2 1) (w.extractLsb' 1 1)⟩,
   ⟨0xC1, 0xFF0001, 0xC10000, fun w => .vgelubF32 (w.extractLsb' 12 4) (w.extractLsb' 8 4) (w.extractLsb' 4 4) (w.extractLsb' 3 1) (w.extractLsb' 2 1) (w.extractLsb' 1 1)⟩,
   ⟨0xC2, 0xFF0001, 0xC20000, fun w => .vgelubBf16 (w.extractLsb' 12 4) (w.extractLsb' 8 4) (w.extractLsb' 4 4) (w.extractLsb' 3 1) (w.extractLsb' 2 1) (w.extractLsb' 1 1)⟩]

def vRows4 : List OpRow :=
  [⟨0xC3, 0xFF0001, 0xC30000, fun w => .vdropbF32 (w.extractLsb' 12 4) (w.extractLsb' 8 4) (w.extractLsb' 4 4) (w.extractLsb' 3 1) (w.extractLsb' 2 1) (w.extractLsb' 1 1)⟩,
   ⟨0xC4, 0xFF0001, 0xC40000, fun w => .vdropbBf16 (w.extractLsb' 12 4) (w.extractLsb' 8 4) (w.extractLsb' 4 4) (w.extractLsb' 3 1) (w.extractLsb' 2 1) (w.extractLsb' 1 1)⟩,
   ⟨0xC5, 0xFF0001, 0xC50000, fun w => .vsmaxbF32 (w.extractLsb' 12 4) (w.extractLsb' 8 4) (w.extractLsb' 4 4) (w.extractLsb' 3 1) (w.extractLsb' 2 1) (w.extractLsb' 1 1)⟩,
   ⟨0xC6, 0xFF0001, 0xC60000, fun w => .vsmaxbBf16 (w.extractLsb' 12 4) (w.extractLsb' 8 4) (w.extractLsb' 4 4) (w.extractLsb' 3 1) (w.extractLsb' 2 1) (w.extractLsb' 1 1)⟩,
   ⟨0xC7, 0xFF0001, 0xC70000, fun w => .vlnormbF32 (w.extractLsb' 12 4) (w.extractLsb' 8 4) (w.extractLsb' 4 4) (w.extractLsb' 3 1) (w.extractLsb' 2 1) (w.extractLsb' 1 1)⟩,
   ⟨0xC8, 0xFF0001, 0xC80000, fun w => .vlnormbBf16 (w.extractLsb' 12 4) (w.extractLsb' 8 4) (w.extractLsb' 4 4) (w.extractLsb' 3 1) (w.extractLsb' 2 1) (w.extractLsb' 1 1)⟩,
   ⟨0xD0, 0xFF0000, 0xD00000, fun w => .vaddI32 (w.extractLsb' 12 4) (w.extractLsb' 8 4) (w.extractLsb' 4 4) (w.extractLsb' 3 1) (w.extractLsb' 2 1) (w.extractLsb' 1 1) (w.extractLsb' 0 1)⟩,
   ⟨0xD1, 0xFF0000, 0xD10000, fun w => .vsubI32 (w.extractLsb' 12 4) (w.extractLsb' 8 4) (w.extractLsb' 4 4) (w.extractLsb' 3 1) (w.extractLsb' 2 1) (w.extractLsb' 1 1) (w.extractLsb' 0 1)⟩,
   ⟨0xD2, 0xFF0000, 0xD20000, fun w => .vmulI32 (w.extractLsb' 12 4) (w.extractLsb' 8 4) (w.extractLsb' 4 4) (w.extractLsb' 3 1) (w.extractLsb' 2 1) (w.extractLsb' 1 1) (w.extractLsb' 0 1)⟩,
   ⟨0xD3, 0xFF0000, 0xD30000, fun w => .vminI32 (w.extractLsb' 12 4) (w.extractLsb' 8 4) (w.extractLsb' 4 4) (w.extractLsb' 3 1) (w.extractLsb' 2 1) (w.extractLsb' 1 1) (w.extractLsb' 0 1)⟩,
   ⟨0xD4, 0xFF0000, 0xD40000, fun w => .vmaxI32 (w.extractLsb' 12 4) (w.extractLsb' 8 4) (w.extractLsb' 4 4) (w.extractLsb' 3 1) (w.extractLsb' 2 1) (w.extractLsb' 1 1) (w.extractLsb' 0 1)⟩,
   ⟨0xD5, 0xFFF000, 0xD50000, fun w => .vcmpeqI32 (w.extractLsb' 8 4) (w.extractLsb' 4 4) (w.extractLsb' 3 1) (w.extractLsb' 2 1) (w.extractLsb' 1 1) (w.extractLsb' 0 1)⟩,
   ⟨0xD6, 0xFFF000, 0xD60000, fun w => .vcmpltI32 (w.extractLsb' 8 4) (w.extractLsb' 4 4) (w.extractLsb' 3 1) (w.extractLsb' 2 1) (w.extractLsb' 1 1) (w.extractLsb' 0 1)⟩,
   ⟨0xD8, 0xFF0000, 0xD80000, fun w => .vaddI16 (w.extractLsb' 12 4) (w.extractLsb' 8 4) (w.extractLsb' 4 4) (w.extractLsb' 3 1) (w.extractLsb' 2 1) (w.extractLsb' 1 1) (w.extractLsb' 0 1)⟩,
   ⟨0xD9, 0xFF0000, 0xD90000, fun w => .vsubI16 (w.extractLsb' 12 4) (w.extractLsb' 8 4) (w.extractLsb' 4 4) (w.extractLsb' 3 1) (w.extractLsb' 2 1) (w.extractLsb' 1 1) (w.extractLsb' 0 1)⟩,
   ⟨0xDA, 0xFF0000, 0xDA0000, fun w => .vaddsI16 (w.extractLsb' 12 4) (w.extractLsb' 8 4) (w.extractLsb' 4 4) (w.extractLsb' 3 1) (w.extractLsb' 2 1) (w.extractLsb' 1 1) (w.extractLsb' 0 1)⟩]

def vRows5 : List OpRow :=
  [⟨0xDB, 0xFF0000, 0xDB0000, fun w => .vaddI8 (w.extractLsb' 12 4) (w.extractLsb' 8 4) (w.extractLsb' 4 4) (w.extractLsb' 3 1) (w.extractLsb' 2 1) (w.extractLsb' 1 1) (w.extractLsb' 0 1)⟩,
   ⟨0xDC, 0xFF0000, 0xDC0000, fun w => .vsubI8 (w.extractLsb' 12 4) (w.extractLsb' 8 4) (w.extractLsb' 4 4) (w.extractLsb' 3 1) (w.extractLsb' 2 1) (w.extractLsb' 1 1) (w.extractLsb' 0 1)⟩,
   ⟨0xDD, 0xFF0000, 0xDD0000, fun w => .vaddsI8 (w.extractLsb' 12 4) (w.extractLsb' 8 4) (w.extractLsb' 4 4) (w.extractLsb' 3 1) (w.extractLsb' 2 1) (w.extractLsb' 1 1) (w.extractLsb' 0 1)⟩,
   ⟨0xE0, 0xFF0000, 0xE00000, fun w => .vand (w.extractLsb' 12 4) (w.extractLsb' 8 4) (w.extractLsb' 4 4) (w.extractLsb' 3 1) (w.extractLsb' 2 1) (w.extractLsb' 1 1) (w.extractLsb' 0 1)⟩,
   ⟨0xE1, 0xFF0000, 0xE10000, fun w => .vor (w.extractLsb' 12 4) (w.extractLsb' 8 4) (w.extractLsb' 4 4) (w.extractLsb' 3 1) (w.extractLsb' 2 1) (w.extractLsb' 1 1) (w.extractLsb' 0 1)⟩,
   ⟨0xE2, 0xFF0000, 0xE20000, fun w => .vxor (w.extractLsb' 12 4) (w.extractLsb' 8 4) (w.extractLsb' 4 4) (w.extractLsb' 3 1) (w.extractLsb' 2 1) (w.extractLsb' 1 1) (w.extractLsb' 0 1)⟩,
   ⟨0xE3, 0xFF0000, 0xE30000, fun w => .vshl (w.extractLsb' 12 4) (w.extractLsb' 8 4) (w.extractLsb' 4 4) (w.extractLsb' 3 1) (w.extractLsb' 2 1) (w.extractLsb' 1 1) (w.extractLsb' 0 1)⟩,
   ⟨0xE4, 0xFF0000, 0xE40000, fun w => .vshr (w.extractLsb' 12 4) (w.extractLsb' 8 4) (w.extractLsb' 4 4) (w.extractLsb' 3 1) (w.extractLsb' 2 1) (w.extractLsb' 1 1) (w.extractLsb' 0 1)⟩,
   ⟨0xE5, 0xFF0000, 0xE50000, fun w => .vsar (w.extractLsb' 12 4) (w.extractLsb' 8 4) (w.extractLsb' 4 4) (w.extractLsb' 3 1) (w.extractLsb' 2 1) (w.extractLsb' 1 1) (w.extractLsb' 0 1)⟩,
   ⟨0xE8, 0xFF0000, 0xE80000, fun w => .vshuf (w.extractLsb' 12 4) (w.extractLsb' 8 4) (w.extractLsb' 4 4) (w.extractLsb' 3 1) (w.extractLsb' 2 1) (w.extractLsb' 1 1) (w.extractLsb' 0 1)⟩,
   ⟨0xE9, 0xFF0000, 0xE90000, fun w => .vrot (w.extractLsb' 12 4) (w.extractLsb' 8 4) (w.extractLsb' 4 4) (w.extractLsb' 3 1) (w.extractLsb' 2 1) (w.extractLsb' 1 1) (w.extractLsb' 0 1)⟩,
   ⟨0xEA, 0xFF0000, 0xEA0000, fun w => .vzip (w.extractLsb' 12 4) (w.extractLsb' 8 4) (w.extractLsb' 4 4) (w.extractLsb' 3 1) (w.extractLsb' 2 1) (w.extractLsb' 1 1) (w.extractLsb' 0 1)⟩,
   ⟨0xEB, 0xFF0000, 0xEB0000, fun w => .vunzip (w.extractLsb' 12 4) (w.extractLsb' 8 4) (w.extractLsb' 4 4) (w.extractLsb' 3 1) (w.extractLsb' 2 1) (w.extractLsb' 1 1) (w.extractLsb' 0 1)⟩,
   ⟨0xEC, 0xFF00F5, 0xEC0000, fun w => .vmov (w.extractLsb' 12 4) (w.extractLsb' 8 4) (w.extractLsb' 3 1) (w.extractLsb' 1 1)⟩,
   ⟨0xED, 0xFF00F5, 0xED0000, fun w => .vxmov (w.extractLsb' 12 4) (w.extractLsb' 8 4) (w.extractLsb' 3 1) (w.extractLsb' 1 1)⟩,
   ⟨0xEE, 0xFF00F5, 0xEE0000, fun w => .vdec (w.extractLsb' 12 4) (w.extractLsb' 8 4) (w.extractLsb' 3 1) (w.extractLsb' 1 1)⟩]

def vRows6 : List OpRow :=
  [⟨0xF0, 0xFF0FFD, 0xF00000, fun w => .vlfrd (w.extractLsb' 12 4) (w.extractLsb' 1 1)⟩,
   ⟨0xF1, 0xFFF0F5, 0xF10000, fun w => .vlfwr (w.extractLsb' 8 4) (w.extractLsb' 3 1) (w.extractLsb' 1 1)⟩]

/-- The V map (R202). -/
def vRows : List OpRow :=
  vRows0 ++ (vRows1 ++ (vRows2 ++ (vRows3 ++ (vRows4 ++ (vRows5 ++ (vRows6))))))

def mRows0 : List OpRow :=
  [⟨0x01, 0xF8003F, 0x080000, fun w => .mmaBf16Latch (w.extractLsb' 17 2) (w.extractLsb' 15 2) (w.extractLsb' 13 2) (w.extractLsb' 12 1) (w.extractLsb' 11 1) (w.extractLsb' 10 1) (w.extractLsb' 9 1) (w.extractLsb' 7 2) (w.extractLsb' 6 1)⟩,
   ⟨0x01, 0xF9803C, 0x080020, fun w => .mmaBf16Bank (w.extractLsb' 17 2) (w.extractLsb' 13 2) (w.extractLsb' 12 1) (w.extractLsb' 11 1) (w.extractLsb' 10 1) (w.extractLsb' 9 1) (w.extractLsb' 7 2) (w.extractLsb' 6 1) (w.extractLsb' 0 2)⟩,
   ⟨0x02, 0xF8003F, 0x100000, fun w => .mmaF16Latch (w.extractLsb' 17 2) (w.extractLsb' 15 2) (w.extractLsb' 13 2) (w.extractLsb' 12 1) (w.extractLsb' 11 1) (w.extractLsb' 10 1) (w.extractLsb' 9 1) (w.extractLsb' 7 2) (w.extractLsb' 6 1)⟩,
   ⟨0x02, 0xF9803C, 0x100020, fun w => .mmaF16Bank (w.extractLsb' 17 2) (w.extractLsb' 13 2) (w.extractLsb' 12 1) (w.extractLsb' 11 1) (w.extractLsb' 10 1) (w.extractLsb' 9 1) (w.extractLsb' 7 2) (w.extractLsb' 6 1) (w.extractLsb' 0 2)⟩,
   ⟨0x03, 0xF8003F, 0x180000, fun w => .mmaE4m3Latch (w.extractLsb' 17 2) (w.extractLsb' 15 2) (w.extractLsb' 13 2) (w.extractLsb' 12 1) (w.extractLsb' 11 1) (w.extractLsb' 10 1) (w.extractLsb' 9 1) (w.extractLsb' 7 2) (w.extractLsb' 6 1)⟩,
   ⟨0x03, 0xF9803C, 0x180020, fun w => .mmaE4m3Bank (w.extractLsb' 17 2) (w.extractLsb' 13 2) (w.extractLsb' 12 1) (w.extractLsb' 11 1) (w.extractLsb' 10 1) (w.extractLsb' 9 1) (w.extractLsb' 7 2) (w.extractLsb' 6 1) (w.extractLsb' 0 2)⟩,
   ⟨0x04, 0xF8003F, 0x200000, fun w => .mmaE5m2Latch (w.extractLsb' 17 2) (w.extractLsb' 15 2) (w.extractLsb' 13 2) (w.extractLsb' 12 1) (w.extractLsb' 11 1) (w.extractLsb' 10 1) (w.extractLsb' 9 1) (w.extractLsb' 7 2) (w.extractLsb' 6 1)⟩,
   ⟨0x04, 0xF9803C, 0x200020, fun w => .mmaE5m2Bank (w.extractLsb' 17 2) (w.extractLsb' 13 2) (w.extractLsb' 12 1) (w.extractLsb' 11 1) (w.extractLsb' 10 1) (w.extractLsb' 9 1) (w.extractLsb' 7 2) (w.extractLsb' 6 1) (w.extractLsb' 0 2)⟩,
   ⟨0x05, 0xF8003F, 0x280000, fun w => .mmaC4Latch (w.extractLsb' 17 2) (w.extractLsb' 15 2) (w.extractLsb' 13 2) (w.extractLsb' 12 1) (w.extractLsb' 11 1) (w.extractLsb' 10 1) (w.extractLsb' 9 1) (w.extractLsb' 7 2) (w.extractLsb' 6 1)⟩,
   ⟨0x05, 0xF9803C, 0x280020, fun w => .mmaC4Bank (w.extractLsb' 17 2) (w.extractLsb' 13 2) (w.extractLsb' 12 1) (w.extractLsb' 11 1) (w.extractLsb' 10 1) (w.extractLsb' 9 1) (w.extractLsb' 7 2) (w.extractLsb' 6 1) (w.extractLsb' 0 2)⟩,
   ⟨0x06, 0xFE0E7F, 0x300000, fun w => .latch (w.extractLsb' 15 2) (w.extractLsb' 13 2) (w.extractLsb' 12 1) (w.extractLsb' 7 2)⟩,
   ⟨0x07, 0xFE0FFF, 0x380000, fun w => .latchreed (w.extractLsb' 15 2) (w.extractLsb' 13 2) (w.extractLsb' 12 1)⟩,
   ⟨0x08, 0xF98F80, 0x400000, fun w => .drain (w.extractLsb' 17 2) (w.extractLsb' 13 2) (w.extractLsb' 12 1) (w.extractLsb' 4 3) (w.extractLsb' 3 1) (w.extractLsb' 2 1) (w.extractLsb' 0 2)⟩,
   ⟨0x09, 0xF98F80, 0x480000, fun w => .draint (w.extractLsb' 17 2) (w.extractLsb' 13 2) (w.extractLsb' 12 1) (w.extractLsb' 4 3) (w.extractLsb' 3 1) (w.extractLsb' 2 1) (w.extractLsb' 0 2)⟩,
   ⟨0x0A, 0xF9FFFF, 0x500000, fun w => .zero (w.extractLsb' 17 2)⟩,
   ⟨0x0B, 0xFE0E7F, 0x580000, fun w => .ldcbk (w.extractLsb' 15 2) (w.extractLsb' 13 2) (w.extractLsb' 12 1) (w.extractLsb' 7 2)⟩]

def mRows1 : List OpRow :=
  [⟨0x0C, 0xFF8E7F, 0x600000, fun w => .ldfmt (w.extractLsb' 13 2) (w.extractLsb' 12 1) (w.extractLsb' 7 2)⟩]

/-- The M map (R204). A row with BBANK clear and one with it set share an op. -/
def mRows : List OpRow :=
  mRows0 ++ (mRows1)

def cRows0 : List OpRow :=
  [⟨0x01, 0xFCF000, 0x040000, fun w => .lds (w.extractLsb' 16 2) (w.extractLsb' 8 4) (w.extractLsb' 4 4) (w.extractLsb' 3 1) (w.extractLsb' 0 3)⟩,
   ⟨0x02, 0xFCF000, 0x080000, fun w => .ldsk (w.extractLsb' 16 2) (w.extractLsb' 8 4) (w.extractLsb' 4 4) (w.extractLsb' 3 1) (w.extractLsb' 0 3)⟩,
   ⟨0x03, 0xFCF000, 0x0C0000, fun w => .sts (w.extractLsb' 16 2) (w.extractLsb' 8 4) (w.extractLsb' 4 4) (w.extractLsb' 3 1) (w.extractLsb' 0 3)⟩,
   ⟨0x04, 0xFCF000, 0x100000, fun w => .ldsx (w.extractLsb' 16 2) (w.extractLsb' 8 4) (w.extractLsb' 4 4) (w.extractLsb' 3 1) (w.extractLsb' 0 3)⟩,
   ⟨0x05, 0xFCF000, 0x140000, fun w => .stsx (w.extractLsb' 16 2) (w.extractLsb' 8 4) (w.extractLsb' 4 4) (w.extractLsb' 3 1) (w.extractLsb' 0 3)⟩,
   ⟨0x06, 0xFC3000, 0x180000, fun w => .ldr (w.extractLsb' 16 2) (w.extractLsb' 14 2) (w.extractLsb' 8 4) (w.extractLsb' 4 4) (w.extractLsb' 3 1) (w.extractLsb' 0 3)⟩,
   ⟨0x07, 0xFC3000, 0x1C0000, fun w => .str (w.extractLsb' 16 2) (w.extractLsb' 14 2) (w.extractLsb' 8 4) (w.extractLsb' 4 4) (w.extractLsb' 3 1) (w.extractLsb' 0 3)⟩,
   ⟨0x08, 0xFC3000, 0x200000, fun w => .ldg (w.extractLsb' 16 2) (w.extractLsb' 14 2) (w.extractLsb' 8 4) (w.extractLsb' 4 4) (w.extractLsb' 3 1) (w.extractLsb' 0 3)⟩,
   ⟨0x09, 0xFC3000, 0x240000, fun w => .ldgk (w.extractLsb' 16 2) (w.extractLsb' 14 2) (w.extractLsb' 8 4) (w.extractLsb' 4 4) (w.extractLsb' 3 1) (w.extractLsb' 0 3)⟩,
   ⟨0x0A, 0xFC3000, 0x280000, fun w => .stg (w.extractLsb' 16 2) (w.extractLsb' 14 2) (w.extractLsb' 8 4) (w.extractLsb' 4 4) (w.extractLsb' 3 1) (w.extractLsb' 0 3)⟩,
   ⟨0x0B, 0xFC3000, 0x2C0000, fun w => .ldgx (w.extractLsb' 16 2) (w.extractLsb' 14 2) (w.extractLsb' 8 4) (w.extractLsb' 4 4) (w.extractLsb' 3 1) (w.extractLsb' 0 3)⟩,
   ⟨0x0C, 0xFC3000, 0x300000, fun w => .stgx (w.extractLsb' 16 2) (w.extractLsb' 14 2) (w.extractLsb' 8 4) (w.extractLsb' 4 4) (w.extractLsb' 3 1) (w.extractLsb' 0 3)⟩,
   ⟨0x10, 0xFC0000, 0x400000, fun w => .atadd (w.extractLsb' 16 2) (w.extractLsb' 12 4) (w.extractLsb' 8 4) (w.extractLsb' 4 4) (w.extractLsb' 3 1) (w.extractLsb' 0 3)⟩,
   ⟨0x11, 0xFC0000, 0x440000, fun w => .atand (w.extractLsb' 16 2) (w.extractLsb' 12 4) (w.extractLsb' 8 4) (w.extractLsb' 4 4) (w.extractLsb' 3 1) (w.extractLsb' 0 3)⟩,
   ⟨0x12, 0xFC0000, 0x480000, fun w => .ator (w.extractLsb' 16 2) (w.extractLsb' 12 4) (w.extractLsb' 8 4) (w.extractLsb' 4 4) (w.extractLsb' 3 1) (w.extractLsb' 0 3)⟩,
   ⟨0x13, 0xFC0000, 0x4C0000, fun w => .atxchg (w.extractLsb' 16 2) (w.extractLsb' 12 4) (w.extractLsb' 8 4) (w.extractLsb' 4 4) (w.extractLsb' 3 1) (w.extractLsb' 0 3)⟩]

def cRows1 : List OpRow :=
  [⟨0x14, 0xFC0000, 0x500000, fun w => .atcas (w.extractLsb' 16 2) (w.extractLsb' 12 4) (w.extractLsb' 8 4) (w.extractLsb' 4 4) (w.extractLsb' 3 1) (w.extractLsb' 0 3)⟩,
   ⟨0x15, 0xFC0000, 0x540000, fun w => .atfadd (w.extractLsb' 16 2) (w.extractLsb' 12 4) (w.extractLsb' 8 4) (w.extractLsb' 4 4) (w.extractLsb' 3 1) (w.extractLsb' 0 3)⟩,
   ⟨0x16, 0xFC0000, 0x580000, fun w => .atfmax (w.extractLsb' 16 2) (w.extractLsb' 12 4) (w.extractLsb' 8 4) (w.extractLsb' 4 4) (w.extractLsb' 3 1) (w.extractLsb' 0 3)⟩,
   ⟨0x18, 0xFF001F, 0x600000, fun w => .fence (w.extractLsb' 12 4) (w.extractLsb' 8 4) (w.extractLsb' 5 3)⟩,
   ⟨0x19, 0xFC0000, 0x640000, fun w => .stk (w.extractLsb' 16 2) (w.extractLsb' 12 4) (w.extractLsb' 8 4) (w.extractLsb' 4 4) (w.extractLsb' 3 1) (w.extractLsb' 0 3)⟩,
   ⟨0x1A, 0xFC0000, 0x680000, fun w => .kcopy (w.extractLsb' 16 2) (w.extractLsb' 12 4) (w.extractLsb' 8 4) (w.extractLsb' 4 4) (w.extractLsb' 3 1) (w.extractLsb' 0 3)⟩,
   ⟨0x1B, 0xFC0000, 0x6C0000, fun w => .cp (w.extractLsb' 16 2) (w.extractLsb' 12 4) (w.extractLsb' 8 4) (w.extractLsb' 4 4) (w.extractLsb' 3 1) (w.extractLsb' 0 3)⟩,
   ⟨0x1C, 0xFC0000, 0x700000, fun w => .cpq (w.extractLsb' 16 2) (w.extractLsb' 12 4) (w.extractLsb' 8 4) (w.extractLsb' 4 4) (w.extractLsb' 3 1) (w.extractLsb' 0 3)⟩,
   ⟨0x1D, 0xFC0000, 0x740000, fun w => .cpblk (w.extractLsb' 16 2) (w.extractLsb' 12 4) (w.extractLsb' 8 4) (w.extractLsb' 4 4) (w.extractLsb' 3 1) (w.extractLsb' 0 3)⟩,
   ⟨0x1E, 0xFC0000, 0x780000, fun w => .prefr (w.extractLsb' 16 2) (w.extractLsb' 12 4) (w.extractLsb' 8 4) (w.extractLsb' 4 4) (w.extractLsb' 3 1) (w.extractLsb' 0 3)⟩,
   ⟨0x1F, 0xFF0070, 0x7C0000, fun w => .bankm (w.extractLsb' 12 4) (w.extractLsb' 9 3) (w.extractLsb' 7 2) (w.extractLsb' 0 4)⟩,
   ⟨0x20, 0xFC0000, 0x800000, fun w => .reedinv (w.extractLsb' 16 2) (w.extractLsb' 12 4) (w.extractLsb' 8 4) (w.extractLsb' 4 4) (w.extractLsb' 3 1) (w.extractLsb' 0 3)⟩,
   ⟨0x21, 0xFC0000, 0x840000, fun w => .coll (w.extractLsb' 16 2) (w.extractLsb' 12 4) (w.extractLsb' 8 4) (w.extractLsb' 4 4) (w.extractLsb' 3 1) (w.extractLsb' 0 3)⟩,
   ⟨0x22, 0xFC0000, 0x880000, fun w => .dpost (w.extractLsb' 16 2) (w.extractLsb' 12 4) (w.extractLsb' 8 4) (w.extractLsb' 4 4) (w.extractLsb' 3 1) (w.extractLsb' 0 3)⟩,
   ⟨0x23, 0xFC0000, 0x8C0000, fun w => .gwait (w.extractLsb' 16 2) (w.extractLsb' 12 4) (w.extractLsb' 8 4) (w.extractLsb' 4 4) (w.extractLsb' 3 1) (w.extractLsb' 0 3)⟩,
   ⟨0x24, 0xFC0000, 0x900000, fun w => .lease (w.extractLsb' 16 2) (w.extractLsb' 12 4) (w.extractLsb' 8 4) (w.extractLsb' 4 4) (w.extractLsb' 3 1) (w.extractLsb' 0 3)⟩]

def cRows2 : List OpRow :=
  [⟨0x25, 0xFC0000, 0x940000, fun w => .lrel (w.extractLsb' 16 2) (w.extractLsb' 12 4) (w.extractLsb' 8 4) (w.extractLsb' 4 4) (w.extractLsb' 3 1) (w.extractLsb' 0 3)⟩,
   ⟨0x26, 0xFCF000, 0x980000, fun w => .mbpost (w.extractLsb' 16 2) (w.extractLsb' 8 4) (w.extractLsb' 4 4) (w.extractLsb' 3 1) (w.extractLsb' 0 3)⟩]

/-- The C map (R208). -/
def cRows : List OpRow :=
  cRows0 ++ (cRows1 ++ (cRows2))

def lRows0 : List OpRow :=
  [⟨0x01, 0xFC0000, 0x040000, fun w => .b (w.extractLsb' 14 4) (w.extractLsb' 0 14)⟩,
   ⟨0x02, 0xFC0000, 0x080000, fun w => .call (w.extractLsb' 14 4) (w.extractLsb' 0 14)⟩,
   ⟨0x03, 0xFDC000, 0x0C0000, fun w => .brmz (w.extractLsb' 17 1) (w.extractLsb' 0 14)⟩,
   ⟨0x04, 0xFC01FF, 0x100000, fun w => .jmpi (w.extractLsb' 14 4) (w.extractLsb' 9 5)⟩,
   ⟨0x05, 0xFC01FF, 0x140000, fun w => .calli (w.extractLsb' 14 4) (w.extractLsb' 9 5)⟩,
   ⟨0x06, 0xFC01FF, 0x180000, fun w => .ret (w.extractLsb' 14 4) (w.extractLsb' 9 5)⟩,
   ⟨0x07, 0xFC0000, 0x1C0000, fun w => .guard (w.extractLsb' 16 2) (w.extractLsb' 12 4) (w.extractLsb' 8 4) (w.extractLsb' 4 4) (w.extractLsb' 0 4)⟩,
   ⟨0x08, 0xFC000F, 0x200000, fun w => .loop (w.extractLsb' 15 3) (w.extractLsb' 10 5) (w.extractLsb' 4 6)⟩,
   ⟨0x09, 0xFC000F, 0x240000, fun w => .loopp (w.extractLsb' 15 3) (w.extractLsb' 10 5) (w.extractLsb' 4 6)⟩,
   ⟨0x0A, 0xFDFFFF, 0x280000, fun w => .mpush (w.extractLsb' 17 1)⟩,
   ⟨0x0B, 0xFDFFFF, 0x2C0000, fun w => .minv (w.extractLsb' 17 1)⟩,
   ⟨0x0C, 0xFDFFFF, 0x300000, fun w => .mpop (w.extractLsb' 17 1)⟩,
   ⟨0x10, 0xFC3FFF, 0x400000, fun w => .waitt (w.extractLsb' 14 4)⟩,
   ⟨0x11, 0xFC00FF, 0x440000, fun w => .waitc (w.extractLsb' 13 5) (w.extractLsb' 8 5)⟩,
   ⟨0x12, 0xFFFFFF, 0x480000, fun _ => .waitr⟩,
   ⟨0x13, 0xFC00FF, 0x4C0000, fun w => .bara (w.extractLsb' 13 5) (w.extractLsb' 10 3) (w.extractLsb' 8 2)⟩]

def lRows1 : List OpRow :=
  [⟨0x14, 0xFC1FFF, 0x500000, fun w => .barw (w.extractLsb' 13 5)⟩,
   ⟨0x18, 0xFC1FFF, 0x600000, fun w => .mbtake (w.extractLsb' 13 5)⟩,
   ⟨0x19, 0xFC00FF, 0x640000, fun w => .mbreply (w.extractLsb' 13 5) (w.extractLsb' 8 5)⟩,
   ⟨0x1A, 0xFC1FFF, 0x680000, fun w => .launch (w.extractLsb' 13 5)⟩,
   ⟨0x1B, 0xFC03FF, 0x6C0000, fun w => .trap (w.extractLsb' 10 8)⟩,
   ⟨0x1C, 0xFFFFFF, 0x700000, fun _ => .tret⟩,
   ⟨0x1D, 0xFFFFFF, 0x740000, fun _ => .done⟩]

/-- The L map (R210). -/
def lRows : List OpRow :=
  lRows0 ++ (lRows1)

/-- The K slot (R211); its op value is the form bit. -/
def kRows : List OpRow :=
  [⟨0x00, 0x040000, 0x000000, fun w => .k (w.extractLsb' 23 1) (w.extractLsb' 22 1) (w.extractLsb' 19 3) (w.extractLsb' 0 18)⟩,
   ⟨0x01, 0x05FFFF, 0x040000, fun w => .kctl (w.extractLsb' 23 1) (w.extractLsb' 22 1) (w.extractLsb' 19 3) (w.extractLsb' 17 1)⟩]

/-- The map of a class. -/
def opRows : SlotClass → List OpRow
  | .s => sRows
  | .v => vRows
  | .m => mRows
  | .c => cRows
  | .l => lRows
  | .k => kRows

/-- The op field of a class: S [23:17], V [23:16], M [23:19], C and L [23:18], and the form bit of K. -/
def opField (cl : SlotClass) (w : SlotWord) : BitVec 8 :=
  match cl with
  | .s => (w.extractLsb' 17 7).setWidth 8
  | .v => w.extractLsb' 16 8
  | .m => (w.extractLsb' 19 5).setWidth 8
  | .c => (w.extractLsb' 18 6).setWidth 8
  | .l => (w.extractLsb' 18 6).setWidth 8
  | .k => (w.extractLsb' 18 1).setWidth 8

/-- A word that a row's encoding covers. -/
def OpRow.covers (r : OpRow) (w : SlotWord) : Bool := decide (w &&& r.mask = r.pat)

/-- The row whose encoding covers the word. -/
def findRow (cl : SlotClass) (w : SlotWord) : Option OpRow := (opRows cl).find? (·.covers w)

/-- The row that covers the word, or the first row of its op value, whose reserved fields it breaks. -/
def opRow (cl : SlotClass) (w : SlotWord) : Option OpRow :=
  match findRow cl w with
  | some r => some r
  | none => (opRows cl).find? fun r => decide (r.op = opField cl w)

/-- BANKM with target mode 3 takes ILLEGAL, where any other reserved field takes FLT_ENC (R102, R207). -/
def reservedFate (i : Instr) : Decoded :=
  match i with
  | .bankm _ _ m _ => if m = 3 then .illegal else .enc
  | _ => .enc

/-- The fate of a slot value in a slot of class cl (R192). -/
def decode (cl : SlotClass) (w : SlotWord) : Decoded :=
  if w = 0 then .instr .nop
  else
    match findRow cl w with
    | some r => if wellFormed (r.build w) then .instr (r.build w) else reservedFate (r.build w)
    | none =>
      match opRow cl w with
      | some r => reservedFate (r.build w)
      | none => .illegal

/-- The eight slot values of a bundle (R189). -/
def slotWord (b : Bundle) (i : Nat) : SlotWord := b.extractLsb' (24 * i) 24

/-- The class an instruction belongs to; NOP belongs to any, and a step without an encoding to none. -/
def classOf : Instr → Option SlotClass
  | .nop => none
  | .add _ _ _ _ => some .s
  | .sub _ _ _ _ => some .s
  | .mul _ _ _ _ => some .s
  | .mulh _ _ _ _ => some .s
  | .mulhu _ _ _ _ => some .s
  | .min _ _ _ _ => some .s
  | .max _ _ _ _ => some .s
  | .minu _ _ _ _ => some .s
  | .maxu _ _ _ _ => some .s
  | .and _ _ _ _ => some .s
  | .or _ _ _ _ => some .s
  | .xor _ _ _ _ => some .s
  | .andn _ _ _ _ => some .s
  | .clz _ _ _ => some .s
  | .popc _ _ _ => some .s
  | .shl _ _ _ _ => some .s
  | .shr _ _ _ _ => some .s
  | .sar _ _ _ _ => some .s
  | .addi _ _ _ _ => some .s
  | .shli _ _ _ _ => some .s
  | .shri _ _ _ _ => some .s
  | .sari _ _ _ _ => some .s
  | .pca _ _ _ => some .s
  | .addb _ _ _ => some .s
  | .andb _ _ _ => some .s
  | .orb _ _ _ => some .s
  | .xorb _ _ _ => some .s
  | .div _ _ _ _ => some .s
  | .divu _ _ _ _ => some .s
  | .rem _ _ _ _ => some .s
  | .remu _ _ _ _ => some .s
  | .cmpeq _ _ _ _ => some .s
  | .cmpne _ _ _ _ => some .s
  | .cmplt _ _ _ _ => some .s
  | .cmpltu _ _ _ _ => some .s
  | .cmple _ _ _ _ => some .s
  | .cmpleu _ _ _ _ => some .s
  | .cmpeqi _ _ _ _ => some .s
  | .cmplti _ _ _ _ => some .s
  | .pand _ _ _ _ => some .s
  | .por _ _ _ _ => some .s
  | .pnot _ _ _ => some .s
  | .shw _ _ _ _ => some .s
  | .agw _ _ _ _ _ => some .s
  | .crr _ _ _ => some .s
  | .crw _ _ _ _ => some .s
  | .vaddF32 _ _ _ _ _ _ _ => some .v
  | .vsubF32 _ _ _ _ _ _ _ => some .v
  | .vmulF32 _ _ _ _ _ _ _ => some .v
  | .vfmaF32 _ _ _ _ _ _ _ => some .v
  | .vminF32 _ _ _ _ _ _ _ => some .v
  | .vmaxF32 _ _ _ _ _ _ _ => some .v
  | .vcmpltF32 _ _ _ _ _ _ => some .v
  | .vcmpleF32 _ _ _ _ _ _ => some .v
  | .vaddBf16 _ _ _ _ _ _ _ => some .v
  | .vsubBf16 _ _ _ _ _ _ _ => some .v
  | .vmulBf16 _ _ _ _ _ _ _ => some .v
  | .vfmaBf16 _ _ _ _ _ _ _ => some .v
  | .vminBf16 _ _ _ _ _ _ _ => some .v
  | .vmaxBf16 _ _ _ _ _ _ _ => some .v
  | .vcmpltBf16 _ _ _ _ _ _ => some .v
  | .vcmpleBf16 _ _ _ _ _ _ => some .v
  | .vaddF16 _ _ _ _ _ _ _ => some .v
  | .vsubF16 _ _ _ _ _ _ _ => some .v
  | .vmulF16 _ _ _ _ _ _ _ => some .v
  | .vfmaF16 _ _ _ _ _ _ _ => some .v
  | .vminF16 _ _ _ _ _ _ _ => some .v
  | .vmaxF16 _ _ _ _ _ _ _ => some .v
  | .vcmpeqF32 _ _ _ _ _ _ => some .v
  | .vcmpeqBf16 _ _ _ _ _ _ => some .v
  | .vdivF32 _ _ _ _ _ _ _ => some .v
  | .vsqrtF32 _ _ _ _ => some .v
  | .vrsqrtF32 _ _ _ _ => some .v
  | .vexp2F32 _ _ _ _ => some .v
  | .vlog2F32 _ _ _ _ => some .v
  | .vsel _ _ _ _ _ _ => some .v
  | .vamaxF32 _ _ _ _ => some .v
  | .vamaxBf16 _ _ _ _ => some .v
  | .vcvtBf16F32 _ _ _ _ _ => some .v
  | .vcvtF16F32 _ _ _ _ _ => some .v
  | .vcvtE4m3F32 _ _ _ _ _ _ => some .v
  | .vcvtE5m2F32 _ _ _ _ _ _ => some .v
  | .vcvtF32Bf16 _ _ _ _ => some .v
  | .vcvtF32F16 _ _ _ _ => some .v
  | .vcvtF32E4m3 _ _ _ _ => some .v
  | .vcvtF32E5m2 _ _ _ _ => some .v
  | .vcvtI32F32 _ _ _ _ _ => some .v
  | .vcvtF32I32 _ _ _ _ _ => some .v
  | .vcvtI8F32 _ _ _ _ _ => some .v
  | .vcvtE4m3Bf16 _ _ _ _ _ _ => some .v
  | .vrsumF32 _ _ _ _ => some .v
  | .vqntE4m3 _ _ _ _ _ _ _ => some .v
  | .vqntE4m3Sr _ _ _ _ _ _ _ => some .v
  | .vqntE5m2 _ _ _ _ _ _ _ => some .v
  | .vqntE5m2Sr _ _ _ _ _ _ _ => some .v
  | .vqntI8 _ _ _ _ _ _ _ => some .v
  | .vqntI8Sr _ _ _ _ _ _ _ => some .v
  | .vdqntE4m3 _ _ _ _ _ _ _ => some .v
  | .vdqntE5m2 _ _ _ _ _ _ _ => some .v
  | .vdqntI8 _ _ _ _ _ _ _ => some .v
  | .vreluF32 _ _ _ _ => some .v
  | .vreluBf16 _ _ _ _ => some .v
  | .vmpoolF32 _ _ _ _ => some .v
  | .vmpoolBf16 _ _ _ _ => some .v
  | .vrelubF32 _ _ _ _ _ _ => some .v
  | .vrelubBf16 _ _ _ _ _ _ => some .v
  | .vmpoolbF32 _ _ _ _ _ _ => some .v
  | .vmpoolbBf16 _ _ _ _ _ _ => some .v
  | .vgelubF32 _ _ _ _ _ _ => some .v
  | .vgelubBf16 _ _ _ _ _ _ => some .v
  | .vdropbF32 _ _ _ _ _ _ => some .v
  | .vdropbBf16 _ _ _ _ _ _ => some .v
  | .vsmaxbF32 _ _ _ _ _ _ => some .v
  | .vsmaxbBf16 _ _ _ _ _ _ => some .v
  | .vlnormbF32 _ _ _ _ _ _ => some .v
  | .vlnormbBf16 _ _ _ _ _ _ => some .v
  | .vaddI32 _ _ _ _ _ _ _ => some .v
  | .vsubI32 _ _ _ _ _ _ _ => some .v
  | .vmulI32 _ _ _ _ _ _ _ => some .v
  | .vminI32 _ _ _ _ _ _ _ => some .v
  | .vmaxI32 _ _ _ _ _ _ _ => some .v
  | .vcmpeqI32 _ _ _ _ _ _ => some .v
  | .vcmpltI32 _ _ _ _ _ _ => some .v
  | .vaddI16 _ _ _ _ _ _ _ => some .v
  | .vsubI16 _ _ _ _ _ _ _ => some .v
  | .vaddsI16 _ _ _ _ _ _ _ => some .v
  | .vaddI8 _ _ _ _ _ _ _ => some .v
  | .vsubI8 _ _ _ _ _ _ _ => some .v
  | .vaddsI8 _ _ _ _ _ _ _ => some .v
  | .vand _ _ _ _ _ _ _ => some .v
  | .vor _ _ _ _ _ _ _ => some .v
  | .vxor _ _ _ _ _ _ _ => some .v
  | .vshl _ _ _ _ _ _ _ => some .v
  | .vshr _ _ _ _ _ _ _ => some .v
  | .vsar _ _ _ _ _ _ _ => some .v
  | .vshuf _ _ _ _ _ _ _ => some .v
  | .vrot _ _ _ _ _ _ _ => some .v
  | .vzip _ _ _ _ _ _ _ => some .v
  | .vunzip _ _ _ _ _ _ _ => some .v
  | .vmov _ _ _ _ => some .v
  | .vxmov _ _ _ _ => some .v
  | .vdec _ _ _ _ => some .v
  | .vlfrd _ _ => some .v
  | .vlfwr _ _ _ => some .v
  | .mmaBf16Latch _ _ _ _ _ _ _ _ _ => some .m
  | .mmaBf16Bank _ _ _ _ _ _ _ _ _ => some .m
  | .mmaF16Latch _ _ _ _ _ _ _ _ _ => some .m
  | .mmaF16Bank _ _ _ _ _ _ _ _ _ => some .m
  | .mmaE4m3Latch _ _ _ _ _ _ _ _ _ => some .m
  | .mmaE4m3Bank _ _ _ _ _ _ _ _ _ => some .m
  | .mmaE5m2Latch _ _ _ _ _ _ _ _ _ => some .m
  | .mmaE5m2Bank _ _ _ _ _ _ _ _ _ => some .m
  | .mmaC4Latch _ _ _ _ _ _ _ _ _ => some .m
  | .mmaC4Bank _ _ _ _ _ _ _ _ _ => some .m
  | .latch _ _ _ _ => some .m
  | .latchreed _ _ _ => some .m
  | .drain _ _ _ _ _ _ _ => some .m
  | .draint _ _ _ _ _ _ _ => some .m
  | .zero _ => some .m
  | .ldcbk _ _ _ _ => some .m
  | .ldfmt _ _ _ => some .m
  | .lds _ _ _ _ _ => some .c
  | .ldsk _ _ _ _ _ => some .c
  | .sts _ _ _ _ _ => some .c
  | .ldsx _ _ _ _ _ => some .c
  | .stsx _ _ _ _ _ => some .c
  | .ldr _ _ _ _ _ _ => some .c
  | .str _ _ _ _ _ _ => some .c
  | .ldg _ _ _ _ _ _ => some .c
  | .ldgk _ _ _ _ _ _ => some .c
  | .stg _ _ _ _ _ _ => some .c
  | .ldgx _ _ _ _ _ _ => some .c
  | .stgx _ _ _ _ _ _ => some .c
  | .atadd _ _ _ _ _ _ => some .c
  | .atand _ _ _ _ _ _ => some .c
  | .ator _ _ _ _ _ _ => some .c
  | .atxchg _ _ _ _ _ _ => some .c
  | .atcas _ _ _ _ _ _ => some .c
  | .atfadd _ _ _ _ _ _ => some .c
  | .atfmax _ _ _ _ _ _ => some .c
  | .fence _ _ _ => some .c
  | .stk _ _ _ _ _ _ => some .c
  | .kcopy _ _ _ _ _ _ => some .c
  | .cp _ _ _ _ _ _ => some .c
  | .cpq _ _ _ _ _ _ => some .c
  | .cpblk _ _ _ _ _ _ => some .c
  | .prefr _ _ _ _ _ _ => some .c
  | .bankm _ _ _ _ => some .c
  | .reedinv _ _ _ _ _ _ => some .c
  | .coll _ _ _ _ _ _ => some .c
  | .dpost _ _ _ _ _ _ => some .c
  | .gwait _ _ _ _ _ _ => some .c
  | .lease _ _ _ _ _ _ => some .c
  | .lrel _ _ _ _ _ _ => some .c
  | .mbpost _ _ _ _ _ => some .c
  | .b _ _ => some .l
  | .call _ _ => some .l
  | .brmz _ _ => some .l
  | .jmpi _ _ => some .l
  | .calli _ _ => some .l
  | .ret _ _ => some .l
  | .guard _ _ _ _ _ => some .l
  | .loop _ _ _ => some .l
  | .loopp _ _ _ => some .l
  | .mpush _ => some .l
  | .minv _ => some .l
  | .mpop _ => some .l
  | .waitt _ => some .l
  | .waitc _ _ => some .l
  | .waitr => some .l
  | .bara _ _ _ => some .l
  | .barw _ => some .l
  | .mbtake _ => some .l
  | .mbreply _ _ => some .l
  | .launch _ => some .l
  | .trap _ => some .l
  | .tret => some .l
  | .done => some .l
  | .k _ _ _ _ => some .k
  | .kctl _ _ _ _ => some .k
  | .contextStart _ => none
  | .contextTeardown _ => none
  | .contextFree _ => none
  | .tlbinv _ => none
  | .tlbinvDone => none
  | .attn _ => none
  | .attestationReady _ => none
  | .resumeReplay _ => none
  | .resumeIgnoreBkpt _ => none
  | .preemptSave _ => none
  | .saveRelease _ => none
  | .preemptRestore _ => none
  | .restoreComplete _ => none
  | .debugRawRead _ _ => none
  | .debugDecodeRead _ _ => none
  | .debugRawWrite _ _ => none
  | .lrevoke _ => none
  | .ovp _ => none
  | .retstAck _ => none
  | .recov => none
  | .recoveryFlashWrite _ _ => none
  | .getEventRecords => none
  | .clearEventRecords _ => none
  | .hostMemRead _ _ => none
  | .hostMemWrite _ _ => none
  | .hostRegisterWrite _ _ => none
  | .boot _ => none
  | .launchTake _ => none
  | .groupInstantiate _ => none
  | .dispatch _ => none
  | .nodeAging _ _ => none
  | .coreTaskFinish _ => none
  | .nodeFinish _ _ => none
  | .launchComplete _ => none
  | .conductorChange _ => none
  | .resultLand _ => none
  | .freeze _ => none
  | .globalLoadArrive _ _ => none
  | .directFormFault _ => none
  | .engineCommandStart _ _ => none
  | .engineCommandComplete _ _ => none
  | .barrierComplete _ _ => none
  | .agFetch _ _ => none
  | .bankSwitchDone _ _ => none
  | .fifoHeldWrite _ _ => none
  | .networkWriteLand _ _ => none
  | .mmaStepLand _ _ => none
  | .latchreedRowLand _ _ => none
  | .codebookTableReady _ _ => none
  | .mailboxPlace _ => none
  | .mailboxTake _ => none
  | .mailboxServiceStart _ => none
  | .mailboxReplyLand _ => none
  | .leaseResponse _ _ _ => none
  | .collTransferEmit _ _ => none
  | .transferArrive _ _ => none
  | .heldTransferDeliver _ _ => none
  | .xhold _ _ => none
  | .exchangeStart _ => none
  | .phaseStart _ => none
  | .closeFlitReceive _ _ _ => none
  | .xtmo _ => none
  | .skinkAnnounce _ _ => none
  | .skinkTakeover => none
  | .leaseNoticeReceive _ _ => none
  | .leaseExpiry _ => none
  | .lenderUnreachable _ => none
  | .borrowerUnreachable _ => none
  | .flitReceive _ _ => none
  | .ackTimeout _ _ => none
  | .portRetrain _ => none
  | .retrainDone _ _ => none
  | .ploss _ => none
  | .ucieModuleOut _ _ => none
  | .dieLoss _ => none
  | .newtFailover _ _ => none
  | .faultRecordPost => none
  | .waitTimeout _ => none
  | .telemUpdate _ _ => none
  | .energyUpdate _ _ => none
  | .clockThrottle _ => none
  | .heatSweep _ => none
  | .scrub _ _ => none
  | .stripeRebuild _ _ => none
  | .channelRetire _ _ _ => none
  | .restripeStripe _ => none
  | .mireTimeout _ => none
  | .mirePortDown _ => none
  | .mirePortUp _ => none
  | .portUp _ _ _ => none
  | .leaseRequestReceive _ _ _ => none
  | .msiXVector0 => none

/-- The word of an instruction (R197 to R211); none for a step without an encoding. -/
def encode : Instr → Option SlotWord
  | .nop => some 0
  | .add d a b p => some (0x1#7 ++ d ++ a ++ b ++ p)
  | .sub d a b p => some (0x2#7 ++ d ++ a ++ b ++ p)
  | .mul d a b p => some (0x3#7 ++ d ++ a ++ b ++ p)
  | .mulh d a b p => some (0x4#7 ++ d ++ a ++ b ++ p)
  | .mulhu d a b p => some (0x5#7 ++ d ++ a ++ b ++ p)
  | .min d a b p => some (0x6#7 ++ d ++ a ++ b ++ p)
  | .max d a b p => some (0x7#7 ++ d ++ a ++ b ++ p)
  | .minu d a b p => some (0x8#7 ++ d ++ a ++ b ++ p)
  | .maxu d a b p => some (0x9#7 ++ d ++ a ++ b ++ p)
  | .and d a b p => some (0xa#7 ++ d ++ a ++ b ++ p)
  | .or d a b p => some (0xb#7 ++ d ++ a ++ b ++ p)
  | .xor d a b p => some (0xc#7 ++ d ++ a ++ b ++ p)
  | .andn d a b p => some (0xd#7 ++ d ++ a ++ b ++ p)
  | .clz d a p => some (0xe#7 ++ d ++ a ++ 0#5 ++ p)
  | .popc d a p => some (0xf#7 ++ d ++ a ++ 0#5 ++ p)
  | .shl d a b p => some (0x10#7 ++ d ++ a ++ b ++ p)
  | .shr d a b p => some (0x11#7 ++ d ++ a ++ b ++ p)
  | .sar d a b p => some (0x12#7 ++ d ++ a ++ b ++ p)
  | .addi d a i p => some (0x13#7 ++ d ++ a ++ i ++ p)
  | .shli d a n p => some (0x14#7 ++ d ++ a ++ n ++ p)
  | .shri d a n p => some (0x15#7 ++ d ++ a ++ n ++ p)
  | .sari d a n p => some (0x16#7 ++ d ++ a ++ n ++ p)
  | .pca d i p => some (0x17#7 ++ d ++ 0#5 ++ i ++ p)
  | .addb d a p => some (0x18#7 ++ d ++ a ++ 0#5 ++ p)
  | .andb d a p => some (0x19#7 ++ d ++ a ++ 0#5 ++ p)
  | .orb d a p => some (0x1a#7 ++ d ++ a ++ 0#5 ++ p)
  | .xorb d a p => some (0x1b#7 ++ d ++ a ++ 0#5 ++ p)
  | .div d a b p => some (0x1c#7 ++ d ++ a ++ b ++ p)
  | .divu d a b p => some (0x1d#7 ++ d ++ a ++ b ++ p)
  | .rem d a b p => some (0x1e#7 ++ d ++ a ++ b ++ p)
  | .remu d a b p => some (0x1f#7 ++ d ++ a ++ b ++ p)
  | .cmpeq d a b p => some (0x80#9 ++ d ++ a ++ b ++ p)
  | .cmpne d a b p => some (0x84#9 ++ d ++ a ++ b ++ p)
  | .cmplt d a b p => some (0x88#9 ++ d ++ a ++ b ++ p)
  | .cmpltu d a b p => some (0x8c#9 ++ d ++ a ++ b ++ p)
  | .cmple d a b p => some (0x90#9 ++ d ++ a ++ b ++ p)
  | .cmpleu d a b p => some (0x94#9 ++ d ++ a ++ b ++ p)
  | .cmpeqi d a i p => some (0x98#9 ++ d ++ a ++ i ++ p)
  | .cmplti d a i p => some (0x9c#9 ++ d ++ a ++ i ++ p)
  | .pand d a b p => some (0xa0#9 ++ d ++ 0#2 ++ a ++ 0#2 ++ b ++ p)
  | .por d a b p => some (0xa4#9 ++ d ++ 0#2 ++ a ++ 0#2 ++ b ++ p)
  | .pnot d a p => some (0xa8#9 ++ d ++ 0#2 ++ a ++ 0#5 ++ p)
  | .shw r a f p => some (0x2c#7 ++ r ++ a ++ f ++ p)
  | .agw g l a f p => some (0x2d#7 ++ g ++ l ++ a ++ f ++ p)
  | .crr d c p => some (0x2e#7 ++ d ++ c ++ p)
  | .crw c a e p => some (0x2f#7 ++ c ++ a ++ e ++ p)
  | .vaddF32 d a b x y m c => some (0x80#8 ++ d ++ a ++ b ++ x ++ y ++ m ++ c)
  | .vsubF32 d a b x y m c => some (0x81#8 ++ d ++ a ++ b ++ x ++ y ++ m ++ c)
  | .vmulF32 d a b x y m c => some (0x82#8 ++ d ++ a ++ b ++ x ++ y ++ m ++ c)
  | .vfmaF32 d a b x y m c => some (0x83#8 ++ d ++ a ++ b ++ x ++ y ++ m ++ c)
  | .vminF32 d a b x y m c => some (0x84#8 ++ d ++ a ++ b ++ x ++ y ++ m ++ c)
  | .vmaxF32 d a b x y m c => some (0x85#8 ++ d ++ a ++ b ++ x ++ y ++ m ++ c)
  | .vcmpltF32 a b x y m c => some (0x860#12 ++ a ++ b ++ x ++ y ++ m ++ c)
  | .vcmpleF32 a b x y m c => some (0x870#12 ++ a ++ b ++ x ++ y ++ m ++ c)
  | .vaddBf16 d a b x y m c => some (0x88#8 ++ d ++ a ++ b ++ x ++ y ++ m ++ c)
  | .vsubBf16 d a b x y m c => some (0x89#8 ++ d ++ a ++ b ++ x ++ y ++ m ++ c)
  | .vmulBf16 d a b x y m c => some (0x8a#8 ++ d ++ a ++ b ++ x ++ y ++ m ++ c)
  | .vfmaBf16 d a b x y m c => some (0x8b#8 ++ d ++ a ++ b ++ x ++ y ++ m ++ c)
  | .vminBf16 d a b x y m c => some (0x8c#8 ++ d ++ a ++ b ++ x ++ y ++ m ++ c)
  | .vmaxBf16 d a b x y m c => some (0x8d#8 ++ d ++ a ++ b ++ x ++ y ++ m ++ c)
  | .vcmpltBf16 a b x y m c => some (0x8e0#12 ++ a ++ b ++ x ++ y ++ m ++ c)
  | .vcmpleBf16 a b x y m c => some (0x8f0#12 ++ a ++ b ++ x ++ y ++ m ++ c)
  | .vaddF16 d a b x y m c => some (0x90#8 ++ d ++ a ++ b ++ x ++ y ++ m ++ c)
  | .vsubF16 d a b x y m c => some (0x91#8 ++ d ++ a ++ b ++ x ++ y ++ m ++ c)
  | .vmulF16 d a b x y m c => some (0x92#8 ++ d ++ a ++ b ++ x ++ y ++ m ++ c)
  | .vfmaF16 d a b x y m c => some (0x93#8 ++ d ++ a ++ b ++ x ++ y ++ m ++ c)
  | .vminF16 d a b x y m c => some (0x94#8 ++ d ++ a ++ b ++ x ++ y ++ m ++ c)
  | .vmaxF16 d a b x y m c => some (0x95#8 ++ d ++ a ++ b ++ x ++ y ++ m ++ c)
  | .vcmpeqF32 a b x y m c => some (0x960#12 ++ a ++ b ++ x ++ y ++ m ++ c)
  | .vcmpeqBf16 a b x y m c => some (0x970#12 ++ a ++ b ++ x ++ y ++ m ++ c)
  | .vdivF32 d a b x y m c => some (0x98#8 ++ d ++ a ++ b ++ x ++ y ++ m ++ c)
  | .vsqrtF32 d a x m => some (0x99#8 ++ d ++ a ++ 0#4 ++ x ++ 0#1 ++ m ++ 0#1)
  | .vrsqrtF32 d a x m => some (0x9a#8 ++ d ++ a ++ 0#4 ++ x ++ 0#1 ++ m ++ 0#1)
  | .vexp2F32 d a x m => some (0x9b#8 ++ d ++ a ++ 0#4 ++ x ++ 0#1 ++ m ++ 0#1)
  | .vlog2F32 d a x m => some (0x9c#8 ++ d ++ a ++ 0#4 ++ x ++ 0#1 ++ m ++ 0#1)
  | .vsel d a b x y c => some (0x9d#8 ++ d ++ a ++ b ++ x ++ y ++ 0#1 ++ c)
  | .vamaxF32 d a x m => some (0x9e#8 ++ d ++ a ++ 0#4 ++ x ++ 0#1 ++ m ++ 0#1)
  | .vamaxBf16 d a x m => some (0x9f#8 ++ d ++ a ++ 0#4 ++ x ++ 0#1 ++ m ++ 0#1)
  | .vcvtBf16F32 d a r x m => some (0xa0#8 ++ d ++ a ++ r ++ 0#1 ++ x ++ 0#1 ++ m ++ 0#1)
  | .vcvtF16F32 d a r x m => some (0xa1#8 ++ d ++ a ++ r ++ 0#1 ++ x ++ 0#1 ++ m ++ 0#1)
  | .vcvtE4m3F32 d a r t x m => some (0xa2#8 ++ d ++ a ++ r ++ t ++ x ++ 0#1 ++ m ++ 0#1)
  | .vcvtE5m2F32 d a r t x m => some (0xa3#8 ++ d ++ a ++ r ++ t ++ x ++ 0#1 ++ m ++ 0#1)
  | .vcvtF32Bf16 d a x m => some (0xa4#8 ++ d ++ a ++ 0#4 ++ x ++ 0#1 ++ m ++ 0#1)
  | .vcvtF32F16 d a x m => some (0xa5#8 ++ d ++ a ++ 0#4 ++ x ++ 0#1 ++ m ++ 0#1)
  | .vcvtF32E4m3 d a x m => some (0xa6#8 ++ d ++ a ++ 0#4 ++ x ++ 0#1 ++ m ++ 0#1)
  | .vcvtF32E5m2 d a x m => some (0xa7#8 ++ d ++ a ++ 0#4 ++ x ++ 0#1 ++ m ++ 0#1)
  | .vcvtI32F32 d a r x m => some (0xa8#8 ++ d ++ a ++ r ++ 0#1 ++ x ++ 0#1 ++ m ++ 0#1)
  | .vcvtF32I32 d a r x m => some (0xa9#8 ++ d ++ a ++ r ++ 0#1 ++ x ++ 0#1 ++ m ++ 0#1)
  | .vcvtI8F32 d a r x m => some (0xaa#8 ++ d ++ a ++ r ++ 0#1 ++ x ++ 0#1 ++ m ++ 0#1)
  | .vcvtE4m3Bf16 d a r t x m => some (0xab#8 ++ d ++ a ++ r ++ t ++ x ++ 0#1 ++ m ++ 0#1)
  | .vrsumF32 d a x m => some (0xac#8 ++ d ++ a ++ 0#4 ++ x ++ 0#1 ++ m ++ 0#1)
  | .vqntE4m3 d a b x y m c => some (0xb0#8 ++ d ++ a ++ b ++ x ++ y ++ m ++ c)
  | .vqntE4m3Sr d a b x y m c => some (0xb1#8 ++ d ++ a ++ b ++ x ++ y ++ m ++ c)
  | .vqntE5m2 d a b x y m c => some (0xb2#8 ++ d ++ a ++ b ++ x ++ y ++ m ++ c)
  | .vqntE5m2Sr d a b x y m c => some (0xb3#8 ++ d ++ a ++ b ++ x ++ y ++ m ++ c)
  | .vqntI8 d a b x y m c => some (0xb4#8 ++ d ++ a ++ b ++ x ++ y ++ m ++ c)
  | .vqntI8Sr d a b x y m c => some (0xb5#8 ++ d ++ a ++ b ++ x ++ y ++ m ++ c)
  | .vdqntE4m3 d a b x y m c => some (0xb6#8 ++ d ++ a ++ b ++ x ++ y ++ m ++ c)
  | .vdqntE5m2 d a b x y m c => some (0xb7#8 ++ d ++ a ++ b ++ x ++ y ++ m ++ c)
  | .vdqntI8 d a b x y m c => some (0xb8#8 ++ d ++ a ++ b ++ x ++ y ++ m ++ c)
  | .vreluF32 d a x m => some (0xb9#8 ++ d ++ a ++ 0#4 ++ x ++ 0#1 ++ m ++ 0#1)
  | .vreluBf16 d a x m => some (0xba#8 ++ d ++ a ++ 0#4 ++ x ++ 0#1 ++ m ++ 0#1)
  | .vmpoolF32 d a x m => some (0xbb#8 ++ d ++ a ++ 0#4 ++ x ++ 0#1 ++ m ++ 0#1)
  | .vmpoolBf16 d a x m => some (0xbc#8 ++ d ++ a ++ 0#4 ++ x ++ 0#1 ++ m ++ 0#1)
  | .vrelubF32 d a b x y m => some (0xbd#8 ++ d ++ a ++ b ++ x ++ y ++ m ++ 0#1)
  | .vrelubBf16 d a b x y m => some (0xbe#8 ++ d ++ a ++ b ++ x ++ y ++ m ++ 0#1)
  | .vmpoolbF32 d a b x y m => some (0xbf#8 ++ d ++ a ++ b ++ x ++ y ++ m ++ 0#1)
  | .vmpoolbBf16 d a b x y m => some (0xc0#8 ++ d ++ a ++ b ++ x ++ y ++ m ++ 0#1)
  | .vgelubF32 d a b x y m => some (0xc1#8 ++ d ++ a ++ b ++ x ++ y ++ m ++ 0#1)
  | .vgelubBf16 d a b x y m => some (0xc2#8 ++ d ++ a ++ b ++ x ++ y ++ m ++ 0#1)
  | .vdropbF32 d a b x y m => some (0xc3#8 ++ d ++ a ++ b ++ x ++ y ++ m ++ 0#1)
  | .vdropbBf16 d a b x y m => some (0xc4#8 ++ d ++ a ++ b ++ x ++ y ++ m ++ 0#1)
  | .vsmaxbF32 d a b x y m => some (0xc5#8 ++ d ++ a ++ b ++ x ++ y ++ m ++ 0#1)
  | .vsmaxbBf16 d a b x y m => some (0xc6#8 ++ d ++ a ++ b ++ x ++ y ++ m ++ 0#1)
  | .vlnormbF32 d a b x y m => some (0xc7#8 ++ d ++ a ++ b ++ x ++ y ++ m ++ 0#1)
  | .vlnormbBf16 d a b x y m => some (0xc8#8 ++ d ++ a ++ b ++ x ++ y ++ m ++ 0#1)
  | .vaddI32 d a b x y m c => some (0xd0#8 ++ d ++ a ++ b ++ x ++ y ++ m ++ c)
  | .vsubI32 d a b x y m c => some (0xd1#8 ++ d ++ a ++ b ++ x ++ y ++ m ++ c)
  | .vmulI32 d a b x y m c => some (0xd2#8 ++ d ++ a ++ b ++ x ++ y ++ m ++ c)
  | .vminI32 d a b x y m c => some (0xd3#8 ++ d ++ a ++ b ++ x ++ y ++ m ++ c)
  | .vmaxI32 d a b x y m c => some (0xd4#8 ++ d ++ a ++ b ++ x ++ y ++ m ++ c)
  | .vcmpeqI32 a b x y m c => some (0xd50#12 ++ a ++ b ++ x ++ y ++ m ++ c)
  | .vcmpltI32 a b x y m c => some (0xd60#12 ++ a ++ b ++ x ++ y ++ m ++ c)
  | .vaddI16 d a b x y m c => some (0xd8#8 ++ d ++ a ++ b ++ x ++ y ++ m ++ c)
  | .vsubI16 d a b x y m c => some (0xd9#8 ++ d ++ a ++ b ++ x ++ y ++ m ++ c)
  | .vaddsI16 d a b x y m c => some (0xda#8 ++ d ++ a ++ b ++ x ++ y ++ m ++ c)
  | .vaddI8 d a b x y m c => some (0xdb#8 ++ d ++ a ++ b ++ x ++ y ++ m ++ c)
  | .vsubI8 d a b x y m c => some (0xdc#8 ++ d ++ a ++ b ++ x ++ y ++ m ++ c)
  | .vaddsI8 d a b x y m c => some (0xdd#8 ++ d ++ a ++ b ++ x ++ y ++ m ++ c)
  | .vand d a b x y m c => some (0xe0#8 ++ d ++ a ++ b ++ x ++ y ++ m ++ c)
  | .vor d a b x y m c => some (0xe1#8 ++ d ++ a ++ b ++ x ++ y ++ m ++ c)
  | .vxor d a b x y m c => some (0xe2#8 ++ d ++ a ++ b ++ x ++ y ++ m ++ c)
  | .vshl d a b x y m c => some (0xe3#8 ++ d ++ a ++ b ++ x ++ y ++ m ++ c)
  | .vshr d a b x y m c => some (0xe4#8 ++ d ++ a ++ b ++ x ++ y ++ m ++ c)
  | .vsar d a b x y m c => some (0xe5#8 ++ d ++ a ++ b ++ x ++ y ++ m ++ c)
  | .vshuf d a b x y m c => some (0xe8#8 ++ d ++ a ++ b ++ x ++ y ++ m ++ c)
  | .vrot d a b x y m c => some (0xe9#8 ++ d ++ a ++ b ++ x ++ y ++ m ++ c)
  | .vzip d a b x y m c => some (0xea#8 ++ d ++ a ++ b ++ x ++ y ++ m ++ c)
  | .vunzip d a b x y m c => some (0xeb#8 ++ d ++ a ++ b ++ x ++ y ++ m ++ c)
  | .vmov d a x m => some (0xec#8 ++ d ++ a ++ 0#4 ++ x ++ 0#1 ++ m ++ 0#1)
  | .vxmov d a x m => some (0xed#8 ++ d ++ a ++ 0#4 ++ x ++ 0#1 ++ m ++ 0#1)
  | .vdec d a x m => some (0xee#8 ++ d ++ a ++ 0#4 ++ x ++ 0#1 ++ m ++ 0#1)
  | .vlfrd d m => some (0xf0#8 ++ d ++ 0#10 ++ m ++ 0#1)
  | .vlfwr a x m => some (0xf10#12 ++ a ++ 0#4 ++ x ++ 0#1 ++ m ++ 0#1)
  | .mmaBf16Latch c l s w b e k g h => some (0x1#5 ++ c ++ l ++ s ++ w ++ b ++ e ++ k ++ g ++ h ++ 0#6)
  | .mmaBf16Bank c s w b e k g h j => some (0x1#5 ++ c ++ 0#2 ++ s ++ w ++ b ++ e ++ k ++ g ++ h ++ 0x8#4 ++ j)
  | .mmaF16Latch c l s w b e k g h => some (0x2#5 ++ c ++ l ++ s ++ w ++ b ++ e ++ k ++ g ++ h ++ 0#6)
  | .mmaF16Bank c s w b e k g h j => some (0x2#5 ++ c ++ 0#2 ++ s ++ w ++ b ++ e ++ k ++ g ++ h ++ 0x8#4 ++ j)
  | .mmaE4m3Latch c l s w b e k g h => some (0x3#5 ++ c ++ l ++ s ++ w ++ b ++ e ++ k ++ g ++ h ++ 0#6)
  | .mmaE4m3Bank c s w b e k g h j => some (0x3#5 ++ c ++ 0#2 ++ s ++ w ++ b ++ e ++ k ++ g ++ h ++ 0x8#4 ++ j)
  | .mmaE5m2Latch c l s w b e k g h => some (0x4#5 ++ c ++ l ++ s ++ w ++ b ++ e ++ k ++ g ++ h ++ 0#6)
  | .mmaE5m2Bank c s w b e k g h j => some (0x4#5 ++ c ++ 0#2 ++ s ++ w ++ b ++ e ++ k ++ g ++ h ++ 0x8#4 ++ j)
  | .mmaC4Latch c l s w b e k g h => some (0x5#5 ++ c ++ l ++ s ++ w ++ b ++ e ++ k ++ g ++ h ++ 0#6)
  | .mmaC4Bank c s w b e k g h j => some (0x5#5 ++ c ++ 0#2 ++ s ++ w ++ b ++ e ++ k ++ g ++ h ++ 0x8#4 ++ j)
  | .latch l s w g => some (0x18#7 ++ l ++ s ++ w ++ 0#3 ++ g ++ 0#7)
  | .latchreed l s w => some (0x1c#7 ++ l ++ s ++ w ++ 0#12)
  | .drain c s w t a z g => some (0x8#5 ++ c ++ 0#2 ++ s ++ w ++ 0#5 ++ t ++ a ++ z ++ g)
  | .draint c s w t a z g => some (0x9#5 ++ c ++ 0#2 ++ s ++ w ++ 0#5 ++ t ++ a ++ z ++ g)
  | .zero c => some (0xa#5 ++ c ++ 0#17)
  | .ldcbk l s w g => some (0x2c#7 ++ l ++ s ++ w ++ 0#3 ++ g ++ 0#7)
  | .ldfmt s w g => some (0xc0#9 ++ s ++ w ++ 0#3 ++ g ++ 0#7)
  | .lds s x y w z => some (0x1#6 ++ s ++ 0#4 ++ x ++ y ++ w ++ z)
  | .ldsk s x y w z => some (0x2#6 ++ s ++ 0#4 ++ x ++ y ++ w ++ z)
  | .sts s x y w z => some (0x3#6 ++ s ++ 0#4 ++ x ++ y ++ w ++ z)
  | .ldsx s x y w z => some (0x4#6 ++ s ++ 0#4 ++ x ++ y ++ w ++ z)
  | .stsx s x y w z => some (0x5#6 ++ s ++ 0#4 ++ x ++ y ++ w ++ z)
  | .ldr s q x y w z => some (0x6#6 ++ s ++ q ++ 0#2 ++ x ++ y ++ w ++ z)
  | .str s q x y w z => some (0x7#6 ++ s ++ q ++ 0#2 ++ x ++ y ++ w ++ z)
  | .ldg s q x y w z => some (0x8#6 ++ s ++ q ++ 0#2 ++ x ++ y ++ w ++ z)
  | .ldgk s q x y w z => some (0x9#6 ++ s ++ q ++ 0#2 ++ x ++ y ++ w ++ z)
  | .stg s q x y w z => some (0xa#6 ++ s ++ q ++ 0#2 ++ x ++ y ++ w ++ z)
  | .ldgx s q x y w z => some (0xb#6 ++ s ++ q ++ 0#2 ++ x ++ y ++ w ++ z)
  | .stgx s q x y w z => some (0xc#6 ++ s ++ q ++ 0#2 ++ x ++ y ++ w ++ z)
  | .atadd s t x y w z => some (0x10#6 ++ s ++ t ++ x ++ y ++ w ++ z)
  | .atand s t x y w z => some (0x11#6 ++ s ++ t ++ x ++ y ++ w ++ z)
  | .ator s t x y w z => some (0x12#6 ++ s ++ t ++ x ++ y ++ w ++ z)
  | .atxchg s t x y w z => some (0x13#6 ++ s ++ t ++ x ++ y ++ w ++ z)
  | .atcas s t x y w z => some (0x14#6 ++ s ++ t ++ x ++ y ++ w ++ z)
  | .atfadd s t x y w z => some (0x15#6 ++ s ++ t ++ x ++ y ++ w ++ z)
  | .atfmax s t x y w z => some (0x16#6 ++ s ++ t ++ x ++ y ++ w ++ z)
  | .fence t m o => some (0x60#8 ++ t ++ m ++ o ++ 0#5)
  | .stk s t x y w z => some (0x19#6 ++ s ++ t ++ x ++ y ++ w ++ z)
  | .kcopy s t x y w z => some (0x1a#6 ++ s ++ t ++ x ++ y ++ w ++ z)
  | .cp s t x y w z => some (0x1b#6 ++ s ++ t ++ x ++ y ++ w ++ z)
  | .cpq s t x y w z => some (0x1c#6 ++ s ++ t ++ x ++ y ++ w ++ z)
  | .cpblk s t x y w z => some (0x1d#6 ++ s ++ t ++ x ++ y ++ w ++ z)
  | .prefr s t x y w z => some (0x1e#6 ++ s ++ t ++ x ++ y ++ w ++ z)
  | .bankm t b m c => some (0x7c#8 ++ t ++ b ++ m ++ 0#3 ++ c)
  | .reedinv s t x y w z => some (0x20#6 ++ s ++ t ++ x ++ y ++ w ++ z)
  | .coll s t x y w z => some (0x21#6 ++ s ++ t ++ x ++ y ++ w ++ z)
  | .dpost s t x y w z => some (0x22#6 ++ s ++ t ++ x ++ y ++ w ++ z)
  | .gwait s t x y w z => some (0x23#6 ++ s ++ t ++ x ++ y ++ w ++ z)
  | .lease s t x y w z => some (0x24#6 ++ s ++ t ++ x ++ y ++ w ++ z)
  | .lrel s t x y w z => some (0x25#6 ++ s ++ t ++ x ++ y ++ w ++ z)
  | .mbpost s x y w z => some (0x26#6 ++ s ++ 0#4 ++ x ++ y ++ w ++ z)
  | .b g o => some (0x1#6 ++ g ++ o)
  | .call g o => some (0x2#6 ++ g ++ o)
  | .brmz v o => some (0x3#6 ++ v ++ 0#3 ++ o)
  | .jmpi g r => some (0x4#6 ++ g ++ r ++ 0#9)
  | .calli g r => some (0x5#6 ++ g ++ r ++ 0#9)
  | .ret g r => some (0x6#6 ++ g ++ r ++ 0#9)
  | .guard m a b c d => some (0x7#6 ++ m ++ a ++ b ++ c ++ d)
  | .loop l r n => some (0x8#6 ++ l ++ r ++ n ++ 0#4)
  | .loopp s r n => some (0x9#6 ++ s ++ r ++ n ++ 0#4)
  | .mpush v => some (0xa#6 ++ v ++ 0#17)
  | .minv v => some (0xb#6 ++ v ++ 0#17)
  | .mpop v => some (0xc#6 ++ v ++ 0#17)
  | .waitt t => some (0x10#6 ++ t ++ 0#14)
  | .waitc c r => some (0x11#6 ++ c ++ r ++ 0#8)
  | .waitr => some (0x480000#24)
  | .bara b s q => some (0x13#6 ++ b ++ s ++ q ++ 0#8)
  | .barw b => some (0x14#6 ++ b ++ 0#13)
  | .mbtake r => some (0x18#6 ++ r ++ 0#13)
  | .mbreply r s => some (0x19#6 ++ r ++ s ++ 0#8)
  | .launch r => some (0x1a#6 ++ r ++ 0#13)
  | .trap c => some (0x1b#6 ++ c ++ 0#10)
  | .tret => some (0x700000#24)
  | .done => some (0x740000#24)
  | .k f l v k => some (f ++ l ++ v ++ 0#1 ++ k)
  | .kctl f l v b => some (f ++ l ++ v ++ 0x1#1 ++ b ++ 0#17)
  | .contextStart _ => none
  | .contextTeardown _ => none
  | .contextFree _ => none
  | .tlbinv _ => none
  | .tlbinvDone => none
  | .attn _ => none
  | .attestationReady _ => none
  | .resumeReplay _ => none
  | .resumeIgnoreBkpt _ => none
  | .preemptSave _ => none
  | .saveRelease _ => none
  | .preemptRestore _ => none
  | .restoreComplete _ => none
  | .debugRawRead _ _ => none
  | .debugDecodeRead _ _ => none
  | .debugRawWrite _ _ => none
  | .lrevoke _ => none
  | .ovp _ => none
  | .retstAck _ => none
  | .recov => none
  | .recoveryFlashWrite _ _ => none
  | .getEventRecords => none
  | .clearEventRecords _ => none
  | .hostMemRead _ _ => none
  | .hostMemWrite _ _ => none
  | .hostRegisterWrite _ _ => none
  | .boot _ => none
  | .launchTake _ => none
  | .groupInstantiate _ => none
  | .dispatch _ => none
  | .nodeAging _ _ => none
  | .coreTaskFinish _ => none
  | .nodeFinish _ _ => none
  | .launchComplete _ => none
  | .conductorChange _ => none
  | .resultLand _ => none
  | .freeze _ => none
  | .globalLoadArrive _ _ => none
  | .directFormFault _ => none
  | .engineCommandStart _ _ => none
  | .engineCommandComplete _ _ => none
  | .barrierComplete _ _ => none
  | .agFetch _ _ => none
  | .bankSwitchDone _ _ => none
  | .fifoHeldWrite _ _ => none
  | .networkWriteLand _ _ => none
  | .mmaStepLand _ _ => none
  | .latchreedRowLand _ _ => none
  | .codebookTableReady _ _ => none
  | .mailboxPlace _ => none
  | .mailboxTake _ => none
  | .mailboxServiceStart _ => none
  | .mailboxReplyLand _ => none
  | .leaseResponse _ _ _ => none
  | .collTransferEmit _ _ => none
  | .transferArrive _ _ => none
  | .heldTransferDeliver _ _ => none
  | .xhold _ _ => none
  | .exchangeStart _ => none
  | .phaseStart _ => none
  | .closeFlitReceive _ _ _ => none
  | .xtmo _ => none
  | .skinkAnnounce _ _ => none
  | .skinkTakeover => none
  | .leaseNoticeReceive _ _ => none
  | .leaseExpiry _ => none
  | .lenderUnreachable _ => none
  | .borrowerUnreachable _ => none
  | .flitReceive _ _ => none
  | .ackTimeout _ _ => none
  | .portRetrain _ => none
  | .retrainDone _ _ => none
  | .ploss _ => none
  | .ucieModuleOut _ _ => none
  | .dieLoss _ => none
  | .newtFailover _ _ => none
  | .faultRecordPost => none
  | .waitTimeout _ => none
  | .telemUpdate _ _ => none
  | .energyUpdate _ _ => none
  | .clockThrottle _ => none
  | .heatSweep _ => none
  | .scrub _ _ => none
  | .stripeRebuild _ _ => none
  | .channelRetire _ _ _ => none
  | .restripeStripe _ => none
  | .mireTimeout _ => none
  | .mirePortDown _ => none
  | .mirePortUp _ => none
  | .portUp _ _ _ => none
  | .leaseRequestReceive _ _ _ => none
  | .msiXVector0 => none

/-- The classes in the order of the slots. -/
def classOrder : List SlotClass := [.s, .v, .m, .c, .l, .k]

/-- How many bits a row's encoding fixes. -/
def fixedBits (m : SlotWord) : Nat := (List.range 24).countP fun k => m.getLsbD k

/-- How closely a row names a word of the opcode table: the row's own word, with every operand field zero, comes before any
other, and then the row that fixes more bits. -/
def rowScore (r : OpRow) (w : SlotWord) : Nat := fixedBits r.mask + if r.pat = w then 24 else 0

/-- The class whose map reads a word of the opcode table, which carries no slot: of the classes in which
the word is an instruction, the one whose row names it most closely, and of equals the first (log entry 10). -/
def tableClass (w : SlotWord) : Option SlotClass :=
  let cands := classOrder.filterMap fun cl =>
    match findRow cl w with
    | some r => if wellFormed (r.build w) then some (cl, rowScore r w) else none
    | none => none
  (cands.foldl (fun best x => match best with
    | none => some x
    | some b => if b.2 < x.2 then some x else some b) none).map (·.1)

/-- The instruction an opcode-table word stands for. -/
def decodeTableWord (nbits w : Nat) : Option Instr :=
  if nbits ≤ 24 ∧ w < 2 ^ 24 then
    let x := BitVec.ofNat 24 w
    if x = 0 then some .nop
    else
      match tableClass x with
      | some cl =>
        match decode cl x with
        | .instr i => some i
        | .illegal => none
        | .enc => none
      | none => none
  else none

end Sys2Proof
end

