-- ==== Sys2Proof/Config.lean ====
section
/-! DEFINITION. What the manual leaves open. Every constant here is OPAQUE: nothing can evaluate it or
prove a value of it, so a statement about it holds for every value (log entries 4 and 6 to 9). -/

namespace Sys2Proof

/-- An uncorrectable error (R360), and a corrected one that is counted. `coreState`: state of a core, with the
CAUSE of R363 less one. `site`: a core site of a fen fails (R20). `scratchpad`: a scratchpad sector. `l2Data`: an L2 sector in place, met by no access or by one. `l2Line`: the tags
of an L2 line. `l2Evict`: an L2 sector poisoned in place leaves L2. `expansion`: a compressed sector whose second expansion
fails (R374). `sideEntry`: the side-table entry of a page in the mire (R375). -/
inductive Upset where
  | coreState (key : CoreKey) (cause : Fin 4) (number : BitVec 8)
  | scratchpad (key : CoreKey) (sector : BitVec 13)
  | l2Data (pa : BitVec 48) (met : Bool)
  | l2Line (pa : BitVec 48)
  | l2Evict (pa : BitVec 48)
  | expansion (pa : BitVec 48)
  | sideEntry (pa : BitVec 48)
  | site (fen : FenNo) (site : BitVec 8)
  | corrected (die : DieNo)
  deriving DecidableEq, Repr, Inhabited

/-- How an engine goes on with a command (R137, which orders accesses of one command to different locations not at all). `next`:
its next element. `post`: its next element, whose write takes its place later. `write i`: the i-th of those writes takes its place.
`ahead i`: the source of element i is read before that element's turn. `jump i`: the whole of element i is done before its turn. -/
inductive EngineStep where
  | next
  | post
  | write (i : Nat)
  | ahead (i : Nat)
  | jump (i : Nat)
  deriving DecidableEq, Repr, Inhabited

/-- What moves next (R44, R50, R141; log entry 4). `issue k`: one schedule cycle of core k. `event`: a
step that has a row in the table and no encoding. `perform`: one piece of a direct-form access takes its
place in the global memory order. `element`, `nodeElement`: one step of an engine command or of a copy
node. `scales`: the scale bytes of a queued MMA are read (R282). `array`: an MMA's array work ends (R274, R276).
`l2Miss`: a request for the sector turns out to miss L2, and passes its slice's sampler (R121). `clock`: domain time passes.
`upset`: an error of a store (R360). `wire`: the link takes the oldest flit that a port has to send. -/
inductive Turn where
  | issue (key : CoreKey)
  | event (i : Instr)
  | perform (key : CoreKey) (access piece : Nat)
  | element (key : CoreKey) (cmd : Nat) (how : EngineStep)
  | nodeElement (die : DieNo) (engine : Fin 8) (how : EngineStep)
  | scales (key : CoreKey) (mma : Nat)
  | array (key : CoreKey) (mma : Nat)
  | l2Miss (pa : BitVec 48)
  | clock (ns : Nat)
  | upset (u : Upset)
  | wire (port : PortNo)
  deriving DecidableEq, Repr, Inhabited

/-- The turn taken when the agenda lists none: no rule orders the agents (R137, R141). -/
opaque Config.turn : Nat → Turn

/-- Whether a translation held in a TLB serves the access, or has been evicted (R118 fixes no replacement). -/
opaque Config.tlbServes : Nat → Bool

/-- The set of the fen's TLB in which the translation of an address is held (R118 gives 8 ways and no index). -/
opaque Config.tlbSet : Nat → Nat

/-- How far beyond its logical time a read lease is granted (R141 bounds it from below only). -/
opaque Config.leaseTime : Nat → Nat

/-- The base that firmware sets for side table i (R123): 0 the mire's, n + 1 that of lender n's window. -/
opaque Config.sideTable : Nat → Nat

/-- Which of the values that R152 allows a reed read returns. -/
opaque Config.reedPick : Nat → Nat

/-- Which of several candidates an agent takes where no rule says (R30). -/
opaque Config.pick : Nat → Nat

/-- The two signatures of a message (R183): the device keys are not given. An Ed25519 signature is fixed by its message (RFC
8032); an ML-DSA-65 one also by a random value that it may draw (FIPS 204). -/
opaque Config.edSignature : List Byte → BitVec 512
opaque Config.mlSignature : List Byte → Nat → BitVec 26472

/-- The fused device identifier (R182), and what R181 finds of the images in a flash slot whose bytes are written: 0 stage 1,
d + 1 the management image of die d. -/
opaque Config.deviceId : BitVec 256
opaque Config.imageFacts : List Byte → Nat → ImageFacts

/-- The 240 payload bytes of a flit (R379 gives what they carry, and no layout), and the CRC-16 of a sector and its tag (R374 gives no
polynomial; DESIGN CHOICE, log entry 141). -/
opaque Config.payload : FlitBody → BitVec 1920
opaque Config.sectorCrc : List Byte → Byte → BitVec 16

/-- Bits [9:7] of the address in a peer's memory at which it receives what this device sends it in an exchange: the channel of that
traffic rests on them (R380), and no rule says how a sender knows them (DESIGN CHOICE, log entry 118). -/
opaque Config.peerBuffer : DevNo → BitVec 6 → BitVec 16 → BitVec 3

/-- The order in which the pieces of a transfer are read at its source and land at its destination (R137 fixes none; DESIGN CHOICE, log entry
96). -/
opaque Config.readPick : XferKey → Nat → Nat
opaque Config.landPick : XferKey → Nat → Nat

/-- The port to which firmware moves a route whose port is down, among those that are up (R383). -/
opaque Config.reroute : Nat → Nat

/-- The number of this device in the domain (R168), the other devices of the domain as a mask, and its slot length for 16 KiB in
ns (R177). -/
opaque Config.deviceNo : DevNo
opaque Config.domain : BitVec 64
opaque Config.slotNs : BitVec 32

/-- How a slot's domain time of start is chosen (R177 fixes none). -/
opaque Config.startTime : Nat → Word

/-- What a field or byte reads that the manual leaves undefined, by the model's counter (R8). -/
opaque Config.freeBit : Nat → Bool
opaque Config.freeByte : Nat → Byte

/-- A device of the scale-up domain (R168). -/
def inDomain (d : DevNo) : Bool := decide (d = Config.deviceNo) || Config.domain.toNat.testBit d.toNat

end Sys2Proof
end

