-- ==== Sys2Proof/Machine/State.lean ====
section
/-! DEFINITION. The state of one KX6 package: everything the manual gives the machine, as plain data, and
the state after reset. The docstrings cite the rule that names a piece; INVENTORY.md lists them all. -/

namespace Sys2Proof.Machine

/-- Memory: (address, byte) pairs, addresses strictly rising, no entry equal to what an unlisted address
reads as (log entry 1). Used for physical memory, host memory and every scratchpad. -/
abbrev Memory := List Host.Cell

/-! ### Queues, generators, loops -/

/-- A queue entry with its tag byte (R55, R133); `poison` holds the scratchpad offset of a poisoned
source (R361). -/
structure QEntry where
  v : Vec
  tag : Byte
  poison : Option Nat
  deriving DecidableEq, Repr, Inhabited

/-- One level of an address generator (R59). -/
structure AgLevel where
  count : BitVec 16
  stride : BitVec 20
  pos : BitVec 16
  deriving DecidableEq, Repr, Inhabited

/-- A parameter set of an address generator (R59). -/
structure AgParams where
  base : BitVec 20
  levels : BitVec 3
  lv : Vector AgLevel 6
  deriving DecidableEq, Repr, Inhabited

/-- An address generator: current and pending set, and whether the pending set is armed (R219). -/
structure Ag where
  cur : AgParams
  pend : AgParams
  armed : Bool
  walking : Bool
  deriving DecidableEq, Repr, Inhabited

/-- A lane's bit buffer of VDEC: `len` bits, most significant first (R269). -/
structure VBuf where
  len : Nat
  bits : Nat
  deriving DecidableEq, Repr, Inhabited

/-- The decoder state of an input port (R269). -/
structure Vdec where
  bufs : Vector VBuf 64
  next : Nat
  deriving DecidableEq, Repr, Inhabited

/-- A level of the loop sequencer (R67): its count and index, the addresses of its first and last bundle
and their indices in the loop buffer; `piped` for level 0 of a LOOPP (R227). -/
structure LoopLevel where
  active : Bool
  piped : Bool
  lcnt : BitVec 16
  lidx : BitVec 16
  first : Addr
  last : Addr
  firstIdx : BitVec 6
  lastIdx : BitVec 6
  deriving DecidableEq, Repr, Inhabited

/-- The loop sequencer (R67, R227). `buf` is the loop buffer: bundles held by address; `stages` is the S of
the LOOPP in force, which the mask of its shift needs. -/
structure LoopSeq where
  lv : Vector LoopLevel 6
  buf : List (Addr × Bundle)
  plc : BitVec 16
  pec : BitVec 4
  stages : Nat
  sg : BitVec 8
  deriving DecidableEq, Repr, Inhabited

/-! ### Results in flight, ports, direct accesses -/

/-- What a result in flight does when it lands (R57, R72). -/
inductive Landing where
  | sreg (d : BitVec 5) (v : Word)
  | pred (d : BitVec 3) (v : Bool)
  | push (q : BitVec 4) (es : List QEntry)
  | maskPush (v1 : Bool) (m : BitVec 64)
  | spWrite (a : Nat) (bytes : List Byte)
  | loadQ (q : BitVec 4) (access : Nat)
  | loadX (dst : Nat) (access : Nat)
  /-- no result: the due cycle of a store that leaves the core (R299) -/
  | stored (access : Nat)
  deriving DecidableEq, Repr, Inhabited

/-- A result in flight: remaining schedule cycles, and the slot and bundle that made it (R57, R213, R248). -/
structure Inflight where
  rem : Nat
  slot : Nat
  bundle : Nat
  what : Landing
  deriving DecidableEq, Repr, Inhabited

/-- A use of a bank's core port, `inCycles` from now; `win` for an M window (R278, R298). -/
structure PortUse where
  inCycles : Nat
  bank : BitVec 3
  row : BitVec 10
  win : Bool
  deriving DecidableEq, Repr, Inhabited

/-- What a window's rows are read for (R277). -/
inductive WinDest where
  | mmaA (id : Nat)
  | mmaB (id : Nat)
  | latch (n : BitVec 2)
  deriving DecidableEq, Repr, Inhabited

/-- A reading window: the group rows still to read, one a cycle, and those read (R277, R280). -/
structure Win where
  dest : WinDest
  group : BitVec 2
  rows : List (BitVec 10)
  got : List (BitVec 10 × Vec)
  shape : Shape
  btype : BitVec 3
  deriving DecidableEq, Repr, Inhabited

/-- The space of an access (R99). -/
inductive Space where
  | window
  | global
  deriving DecidableEq, Repr, Inhabited

/-- A piece of an access: what falls within one sector (R138). -/
structure Piece where
  addr : Word
  bytes : List Byte
  len : Nat
  tag : Byte
  done : Bool
  deriving DecidableEq, Repr, Inhabited

/-- The bytes read within one sector, its tag, and whether it is poisoned. -/
structure Sect where
  bytes : List Byte
  tag : Byte
  bad : Bool
  deriving DecidableEq, Repr, Inhabited

/-- A direct-form access that has left the core (R299): its queue, the bundle that issued it, and its pieces.
`carry` for the kept forms; `store` tells a store from a load; `arrived`: a load's data has reached the core;
`faulted`: it met a fault and is performed again on resume (R335); `before`: for a window load of the core's own
scratchpad, by piece, what it finds before a store of its own bundle (R146); `checked`: a store that has reached its due cycle
without a fault (R299). -/
structure Access where
  id : Nat
  slot : Nat
  queue : BitVec 2
  bundle : Nat
  space : Space
  store : Bool
  carry : Bool
  pieces : List Piece
  arrived : Bool
  faulted : Bool
  before : List (Nat × Sect)
  checked : Bool
  deriving DecidableEq, Repr, Inhabited

/-! ### Matrix unit -/

/-- Scale bytes read, keyed by tensor identifier and block number (R281, R282). -/
abbrev ScaleBytes := List ((BitVec 8 × BitVec 24) × Byte)

/-- A scale byte in the scale cache, with the SBASE it was read under, the logical time of the write it holds and the end of its read lease (R282, R141). -/
structure CachedScale where
  tid : BitVec 8
  block : BitVec 24
  base : Addr
  v : Byte
  wts : Nat
  lease : Nat
  deriving DecidableEq, Repr, Inhabited

/-- A queued MMA with its captured operands (R273, R280): `scales` are the scale bytes of A and B once read (R282);
`arrayDone`: its array work has finished (R274, R276). -/
structure Mma where
  id : Nat
  ty : BitVec 3
  acc : BitVec 2
  latch : BitVec 2
  bank : Bool
  groupA : BitVec 2
  groupB : BitVec 2
  classical : Bool
  scaled : Bool
  fmt : BitVec 16
  shape : Shape
  served : BitVec 3
  chain : Nat
  rowsA : Option (List (BitVec 10 × Vec))
  rowsB : Option (List (BitVec 10 × Vec))
  tileB : TileBits
  cbkA : BitVec 256
  cbkB : BitVec 256
  bundle : Nat
  scales : Option (ScaleBytes × ScaleBytes)
  arrayDone : Bool
  stop : Option (BitVec 32)
  deriving DecidableEq, Repr, Inhabited

/-- A pending LATCHREED: its tile address, the commands it waits for, and the rows read (R287, R293). -/
structure Reed where
  lt : BitVec 2
  base : Word
  stride : BitVec 32
  btype : BitVec 3
  waits : List Nat
  row : Nat
  got : List Byte
  stop : Option (BitVec 32)
  deriving DecidableEq, Repr, Inhabited

/-- The matrix unit (R61, R273, R275). `cbkBusy`: the schedule cycles a codebook stays busy yet (R291). -/
structure MatrixUnit where
  acc : Vector TileBits 4
  lt : Vector TileBits 4
  fmt : Vector (BitVec 16) 16
  cbk : Vector (BitVec 256) 4
  cbkBusy : Vector (Option Nat) 4
  mmas : List Mma
  chain : Vector (Option Nat) 4
  reeds : List Reed
  scache : List CachedScale
  sbase : Option Addr
  deriving DecidableEq, Repr, Inhabited

/-! ### Engine commands -/

/-- The command forms (R206). `atomic k`: 0 ATADD to 6 ATFMAX in the order of R302. -/
inductive CmdOp where
  | atomic (k : Nat)
  | fence | stk | kcopy | cp | cpq | cpblk | prefr | bankm | reedinv
  | coll | dpost | gwait | lease | lrel | mbpost
  deriving DecidableEq, Repr, Inhabited

/-- Where an engine access goes: a global address, a window address, or the issuing core's own scratchpad. -/
inductive Place where
  | glob (va : Word)
  | win (a : Nat)
  | own (off : Nat)
  deriving DecidableEq, Repr, Inhabited

/-- A write of an engine, which may have yet to take its place (R137) or be held (R352), and the element it belongs to with the LFSR and the maximum
there (R340). -/
structure EngPost where
  at_ : Place
  bytes : List Byte
  tag : Byte
  bad : Bool
  pos : Nat
  lfsr : BitVec 32
  amax : BitVec 32
  deriving DecidableEq, Repr, Inhabited

/-- An engine command: its captured shape register, tokens, and progress (R296, R297).
`waits` are the commands whose completion it needs before it starts (R64); `posted` its writes that have yet to take their place,
`ahead` the sources of later elements that have been read and `early` the later elements that are done (R137); `paths` the aligned
blocks a CPBLK has come to, by their first sector, and the in-array copy of each that takes that path: its die and its rows; `fill` the
die and the row of the block that a fill clones (R113, R310); `ready` when a command that places a mailbox entry became ready to start, by its fen's count
(R390). -/
structure Cmd where
  id : Nat
  op : CmdOp
  slot : Nat
  shape : Shape
  addrA : Word
  addrB : Word
  tok : BitVec 4
  waits : List Nat
  bundle : Nat
  /-- FENCE: queue mask and scope; BANKM: bank and target mode -/
  arg1 : BitVec 4
  arg2 : BitVec 3
  /-- STK: the entry captured at issue, the codebook it names and the entries popped (R304) -/
  entry : BitVec 32
  cbk : BitVec 256
  src : List QEntry
  started : Bool
  desc : Option (BitVec 1024)
  pos : Nat
  lfsr : BitVec 32
  amax : BitVec 32
  scale : BitVec 32
  snap : List Byte
  placed : Bool
  finished : Bool
  posted : List EngPost
  ahead : List (Nat × Sect)
  early : List Nat
  paths : List (Nat × Option (Nat × Nat × Nat))
  fill : Option (Nat × Nat)
  ready : Option Nat
  stop : Option (BitVec 32)
  deriving DecidableEq, Repr, Inhabited

/-! ### Scratchpad -/

/-- A bank's control byte (R102). -/
structure BankReg where
  rerr : Bool
  pend : BitVec 2
  sw : Bool
  mode : BitVec 2
  deriving DecidableEq, Repr, Inhabited

/-- Where a network write comes from: an access's piece of a core, or an engine (R148). -/
structure NetWrite where
  srcKey : CoreKey
  access : Nat
  piece : Nat
  ctx : BitVec 6
  addr : Nat
  bytes : List Byte
  deriving DecidableEq, Repr, Inhabited

/-- The ring of a bank in FIFO mode: the row of its head and the number of entries (R105). The entries stand
in the bank's rows. -/
structure Fifo where
  head : Nat
  count : Nat
  deriving DecidableEq, Repr, Inhabited

/-- A sector held by a bank in cache-way mode (R104): its bank, its context and address, what it holds, the logical time of
the write it holds and the end of its read lease (R141). -/
structure Way where
  bank : BitVec 3
  ctx : BitVec 6
  va : Addr
  pa : Nat
  v : BitVec 1024
  tag : Byte
  wts : Nat
  lease : Nat
  deriving DecidableEq, Repr, Inhabited

/-- A core's scratchpad (R101 to R105, R123, R361). `tags` and `poison` are by sector, offset div 128.
`fifo` are the rings of R105; `fifoHeld` the window writes held at a full ring; `ways` the
sectors held by banks in cache-way mode (R104); `net` the network writes that have arrived (R148); `stamps`, by sector, the logical
time of its last write and the end of its network reads' lease, both `born` for a sector not listed; `floor`, a time that no write on its
way to it goes below (R140, R141). -/
structure Scratch where
  mem : Memory
  tags : Memory
  poison : List Nat
  bank : Vector BankReg 8
  fifo : Vector Fifo 8
  fifoHeld : List NetWrite
  ways : List Way
  net : List NetWrite
  stamps : List (Nat × Nat × Nat)
  born : Nat
  floor : Nat
  deriving DecidableEq, Repr, Inhabited

/-! ### A core -/

/-- A shape register (R63). -/
structure ShapeReg where
  active : Shape
  shadow : Shape
  deriving DecidableEq, Repr, Inhabited

/-- Scalar registers, predicates, counters, tokens (true is PENDING), flags, counts, LFSRs (R53, R54, R64,
R65, R68, R69, R70). -/
structure Regs where
  s : Vector Word 32
  p : Vector Bool 8
  ac : Vector (BitVec 32) 32
  tok : Vector Bool 16
  flg : BitVec 7
  mxc : Word
  fe : Bool
  fl : BitVec 3
  lfs : Vector (BitVec 32) 64
  deriving DecidableEq, Repr, Inhabited

/-- Vector queues, generators, port decoders and the two mask stacks, top first (R55, R59, R66, R269). -/
structure VState where
  q : Vector (List QEntry) 16
  ag : Vector Ag 4
  vdec : Vector Vdec 2
  mask0 : List (BitVec 64)
  mask1 : List (BitVec 64)
  deriving DecidableEq, Repr, Inhabited

/-- The pipelines: results in flight, port uses and windows of coming cycles, the accesses that have left
the core and the engine commands of C0 and C1 (R72, R278, R296, R298). `now`: the port uses of the schedule cycle that
goes on (R279); `clocks`: the logical clocks of G0 to G3, and `engClocks` those of C0's and C1's engine sequencers (R141);
`synced`: the time that the core's events follow (R139);
`sent`: window writes whose time the clock of their queue has yet to follow: queue, access, target core and its sector. -/
structure Pipes where
  inflight : List Inflight
  uses : List PortUse
  now : List PortUse
  wins : List Win
  acc : List Access
  cmds : List Cmd
  nextId : Nat
  bundleNo : Nat
  clocks : Vector Nat 4
  engClocks : Vector Nat 2
  synced : Nat
  sent : List (BitVec 2 × Nat × CoreKey × Nat)
  deriving DecidableEq, Repr, Inhabited

/-- What a fault record says about one stop or event (R338); the phase bit is added when it is written. -/
structure FaultRec where
  code : Byte
  cause : Byte
  repl : Bool
  hmode : Bool
  agent : BitVec 4
  slot : BitVec 3
  ctx : BitVec 6
  fen : BitVec 5
  site : Byte
  lcore : BitVec 12
  pc : Addr
  scyc : Word
  info0 : Word
  info1 : Word
  ext : BitVec 160
  deriving DecidableEq, Repr, Inhabited

/-- What a bundle waits on (R44, R346). -/
inductive Wait where
  | token (t : BitVec 4)
  | counter (c : BitVec 5) (v : BitVec 32)
  | barrier (b : BitVec 5)
  | mailbox
  | launchSlot
  | scoreboard (n : BitVec 2) (kind : BitVec 2)
  | claim
  | freeze (q : Byte)
  deriving DecidableEq, Repr, Inhabited

/-- A wait or a freeze in force: what, the slot it belongs to, the SCYC at which it began, the core cycles it has held, and
whether its FLT_TMO is posted (R346). -/
structure WaitNote where
  what : Wait
  slot : Nat
  since : Word
  held : Nat
  posted : Bool
  deriving DecidableEq, Repr, Inhabited

/-- What handler mode holds aside (R240, R293), and the bundle after the TRAP (R241). The loop sequencer, the
generators and the ports stay where they are and do not advance. -/
structure Held where
  inflight : List Inflight
  uses : List PortUse
  wins : List Win
  retPc : Addr
  deriving DecidableEq, Repr, Inhabited

/-- A mailbox reply on its way (R150, R237): `from_` names the newt and the bundle that sent it, none when the
hardware answers. -/
structure Reply where
  payload : Word
  ctx : BitVec 6
  from_ : Option (CoreKey × Nat)
  deriving DecidableEq, Repr, Inhabited

/-- A translation held in a TLB (R118): context, page, permissions. -/
structure TlbEntry where
  ctx : BitVec 6
  va : Addr
  lsz : Nat
  pa : BitVec 48
  w : Bool
  d : Bool
  cmp : BitVec 2
  deriving DecidableEq, Repr, Inhabited

/-- What a core is doing. `finishing`: it has executed DONE and waits for R40. -/
inductive Status where
  | idle
  | running
  | finishing
  deriving DecidableEq, Repr, Inhabited

/-- A stop on a record (R333, R339). -/
structure Stop where
  seq : BitVec 32
  deriving DecidableEq, Repr, Inhabited

/-- A compute core or a newt. -/
structure Core where
  key : CoreKey
  site : Byte
  ctx : BitVec 6
  status : Status
  pc : Addr
  scyc : Word
  retain : Bool
  regs : Regs
  vs : VState
  loop : LoopSeq
  mx : MatrixUnit
  mxr : Vector ShapeReg 4
  kar : Vector ShapeReg 4
  kbr : Vector ShapeReg 4
  sp : Scratch
  pipes : Pipes
  held : Option Held
  stop : Option Stop
  skipBkpt : Bool
  dfFault : Option FaultRec
  /-- a cycle has begun since that fault reached the core: a later one, of whatever slot, came after it (R335) -/
  dfPast : Bool
  frozen : Bool
  /-- the wait and the freeze in force, and the further waits of the bundle that the wait holds (R164, R346) -/
  wait : Option WaitNote
  waits : List WaitNote
  freeze : Option WaitNote
  /-- the value a WAITC read when its bundle first reached issue (R232) -/
  waitcVal : Option (BitVec 32)
  /-- by sequencer, the oldest command, on whose completion a seventeenth waits (R296) -/
  cmdWait : Vector (Option Nat) 2
  /-- the bundle that a hold or a freeze keeps from issuing (R334) -/
  fetched : Option Bundle
  /-- CST.LCORE (R70) -/
  lcoreReg : BitVec 12
  /-- kind 0 posts without a reply, and replies on their way (R232, R237) -/
  posts : Nat
  replies : List Reply
  /-- the last task's context and site, for retained state (R39) -/
  lastCtx : Option (BitVec 6)
  lastSite : Byte
  /-- core cycles in which its context was resident, and their number when the program was last resumed (R30) -/
  ran : Nat
  resumed : Nat
  tlb : List TlbEntry
  /-- uncorrectable errors that its state holds: the CAUSE of FLT_CORE, and a number (R360, R363) -/
  errs : List (Nat × Nat)
  deriving DecidableEq, Repr, Inhabited

/-! ### The bundle being issued (the model's own) -/

/-- A fault met by a slot of the bundle, with its rank in the order of R193. -/
structure SlotFault where
  rank : Nat
  slot : Nat
  code : Byte
  cause : Byte
  repl : Bool
  info0 : Word
  info1 : Word
  deriving DecidableEq, Repr, Inhabited

/-- A write that lands at the end of the issue cycle (R63, R213, R219, R220, R291). -/
inductive Eoc where
  | shw (r f : Nat) (v : BitVec 32)
  | agw (g : BitVec 2) (l f : Nat) (v : Word)
  | crw (n : BitVec 10) (v : Word)
  | cbk (n : BitVec 2) (v : BitVec 256)
  | cmd (c : Cmd)
  | reed (r : Reed)
  deriving DecidableEq, Repr, Inhabited

/-- A loop to start when the bundle commits (R224, R227). -/
structure LoopReq where
  level : Nat
  piped : Bool
  count : BitVec 16
  stages : Nat
  len : Nat
  skip : Bool
  deriving DecidableEq, Repr, Inhabited

/-- The bundle being issued: what its slots share, and what they have asked for. It is empty between
issues. -/
structure Issue where
  slot : Nat
  word : SlotWord
  bc : BitVec 18
  gated : Bool
  guards : Vector Bool 8
  fault : Option SlotFault
  hold : Option Wait
  holdSlot : Nat
  /-- further waits of the bundle, each with its slot -/
  others : List (Wait × Nat)
  claim : Bool
  freeze : Option Byte
  occ : Vector Nat 16
  pops : Vector Nat 16
  pushes : Vector Nat 16
  pushSlot : Vector Nat 16
  claims : Vector Nat 16
  newInfl : List Inflight
  eoc : List Eoc
  flg : BitVec 7
  satd : Nat
  lfs : Vector (BitVec 32) 64
  uses : List PortUse
  compares0 : Nat
  compares1 : Nat
  waitc : Option (BitVec 32)
  cmdWait : Vector (Option Nat) 2
  /-- a wait of the bundle on other agents is satisfied (R139, R149 to R151) -/
  synced : Bool
  next : Option Addr
  loopReq : Option LoopReq
  trap : Option Byte
  tret : Bool
  done : Bool
  deriving DecidableEq, Repr, Inhabited

/-! ### Tasks, launches, fens -/

/-- An arrival at a barrier (R151, R234). -/
structure Arrival where
  core : CoreKey
  scope : BitVec 3
  queue : BitVec 2
  bundle : Nat
  deriving DecidableEq, Repr, Inhabited

/-- A barrier (R233 to R235): its phase, the arrivals of the phase, and each member's latest arrival phase. -/
structure Barrier where
  phase : Nat
  arrived : List Arrival
  latest : List (CoreKey × Nat)
  deriving DecidableEq, Repr, Inhabited

/-- A running tile task (R37, R38). -/
structure Task where
  ctx : BitVec 6
  fen : FenNo
  launch : Nat
  gslot : Nat
  node : Nat
  members : List CoreKey
  finished : List CoreKey
  bars : Vector Barrier 32
  deriving DecidableEq, Repr, Inhabited

/-- A node of a task graph (R156). -/
structure GNode where
  cmask : BitVec 128
  entry : Addr
  succ : List Nat
  pred : Nat
  fen : FenNo
  prio : Nat
  copy : Bool
  deriving DecidableEq, Repr, Inhabited

/-- A group slot: its group, and for each node the running count and whether it has finished (R158). -/
structure GSlot where
  group : Nat
  counts : List Nat
  done : List Bool
  deriving DecidableEq, Repr, Inhabited

/-- A launch taken by its walker (R32, R33, R157, R158). -/
structure Launch where
  id : Nat
  ctx : BitVec 6
  newt : CoreKey
  record : Word
  carea : Word
  arg : Word
  dcnt : BitVec 5
  groups : Nat
  nextGroup : Nat
  nodes : List GNode
  slots : Vector (Option GSlot) 16
  deriving DecidableEq, Repr, Inhabited

/-- A launch handed over by LAUNCH and not yet taken (R34); `got`: what its reads have returned so far, each made once (R32,
R33, R157). -/
structure LaunchReq where
  ctx : BitVec 6
  newt : CoreKey
  addr : Word
  bundle : Nat
  got : List (List Byte)
  stop : Option (BitVec 32)
  deriving DecidableEq, Repr, Inhabited

/-- A ready node waiting for dispatch (R161, R162). `order`: when it became ready; `aged`: its count has reached 4,096 before;
`refused`: FLT_DISP was posted (R343). -/
structure ReadyNode where
  launch : Nat
  gslot : Nat
  group : Nat
  node : Nat
  ctx : BitVec 6
  eff : Nat
  passed : Nat
  order : Nat
  aged : Bool
  refused : Bool
  deriving DecidableEq, Repr, Inhabited

/-- A node that has finished and whose decrements are to be applied (R41, R42, R159). -/
structure DoneNode where
  launch : Nat
  gslot : Nat
  node : Nat
  deriving DecidableEq, Repr, Inhabited

/-- A mailbox entry (R165); `taken`: reserved by an MBTAKE (R166); `got`: what the reads of its service have returned so far;
`stop`: a read or a write that its service needs has met a fault or a refusal (R372, R391, R394). -/
structure MbEntry where
  bits : BitVec 128
  poster : CoreKey
  cmd : Nat
  taken : Bool
  got : List (List Byte)
  stop : Option (BitVec 32)
  deriving DecidableEq, Repr, Inhabited

/-- A transfer of which sectors have come over a link and others not yet (R379): its flits' places in its data, and their bytes. -/
structure Coming where
  t : Transfer
  parts : List (Nat × List Byte)
  deriving DecidableEq, Repr, Inhabited

/-- A transfer at its destination fen, and how many of its pieces have landed (R171). -/
structure Arriving where
  t : Transfer
  landed : Nat
  deriving DecidableEq, Repr, Inhabited

/-- An active collective record (R170): the next transfer, the source bytes read for it so far, the transfers sent and not
yet counted, and those among them that came back while the record was stopped, with their causes (R392). -/
structure CollRec where
  serial : BitVec 32
  ctx : BitVec 6
  poster : CoreKey
  cmd : Nat
  addr : Word
  record : BitVec 1024
  table : List Word
  pos : Nat
  total : Nat
  data : List Byte
  unacked : List Nat
  refused : List (Nat × Nat)
  stop : Option (BitVec 32)
  deriving DecidableEq, Repr, Inhabited

/-- Which engine makes an access: a sequencer for a command, or a bulk copy engine. -/
inductive EngSrc where
  | cmd (key : CoreKey) (id : Nat)
  | node (die : DieNo) (engine : Fin 8)
  deriving DecidableEq, Repr, Inhabited

/-- A transfer or window access held at a fen's master (R330, R352). -/
inductive HeldItem where
  /-- a transfer, and its pieces that have landed -/
  | transfer (t : Transfer) (landed : Nat)
  | netWrite (target : CoreKey) (w : NetWrite)
  | netRead (target : CoreKey) (srcKey : CoreKey) (access piece : Nat) (ctx : BitVec 6)
  /-- window accesses of engines (R351, R352): a write, with its element (R340); a read, whose element waits -/
  | engWrite (target : CoreKey) (src : EngSrc) (ctx : BitVec 6) (w : EngPost)
  | engRead (target : CoreKey) (src : EngSrc) (ctx : BitVec 6)
  /-- an increment that follows an exchange's data, and the close flit to acknowledge -/
  | count (target : CoreKey) (ctx : BitVec 6) (aci : BitVec 5) (ack : Option XferKey)
  deriving DecidableEq, Repr, Inhabited

/-- A command whose entry waits for a place in the mailbox (R390): when it became ready, by its fen's count, since which cycle it
waits, and whether its FLT_TMO is posted. -/
structure MbWait where
  key : CoreKey
  cmd : Nat
  order : Nat
  began : Nat
  posted : Bool
  deriving DecidableEq, Repr, Inhabited

/-- A lease request the master has taken (R313); `reply`: the lender's answer, until it is written. -/
structure LeaseReq where
  poster : CoreKey
  cmd : Nat
  ctx : BitVec 6
  addr : Word
  lender : DevNo
  size : BitVec 24
  reply : Option LeaseReply
  stop : Option (BitVec 32)
  deriving DecidableEq, Repr, Inhabited

/-- One saved slot of a save area (R353, R354): the state only a KX6 reads, and the state block as it was
written. A task is held in the slot of its lowest-ranked member (R72). -/
structure SavedSlot where
  slot : Nat
  core : Core
  task : Option Task
  block : List Byte
  /-- it went to an emergency slot first: its core was idle from then on (R355) -/
  out : Bool
  deriving DecidableEq, Repr, Inhabited

/-- A conductor of a fen (R30). -/
inductive ConductorState where
  | ready | running | waiting | ended
  deriving DecidableEq, Repr, Inhabited

/-- A conductor: its state, its slot-0 image while it is changed out and what has been read back of it (R30, R349), and how
often it was ready and another conductor came onto the newt (R48). `stuck`: it stands stopped on its newt, where a write of its change has
faulted while all emergency slots of the fen are in use (R349, R355). -/
structure Conductor where
  ctx : BitVec 6
  state : ConductorState
  image : Option SavedSlot
  readBack : List (List Byte)
  passed : Nat
  stuck : Bool
  deriving DecidableEq, Repr, Inhabited

/-- A fen: site map, newt roles, walker, mailbox and communication master (R20, R21, R155 to R179). -/
structure Fen where
  /-- spare assignment: logical core and the site that carries it; failed sites; left with no newt at boot (R400) -/
  remap : List (Nat × Nat)
  failed : List Nat
  offline : Bool
  master : Option Nat
  standby : Option Nat
  mailbox : List MbEntry
  mbWait : List MbWait
  /-- entries taken whose service is stopped at a read -/
  reading : List MbEntry
  service : Option (BitVec 6)
  colls : List CollRec
  serial : BitVec 32
  coming : List Coming
  arriving : List Arriving
  held : List (HeldItem × Bool)
  /-- the keys of transfers, and of close flits, that are known (R388) -/
  seen : List XferKey
  seenClose : List XferKey
  leaseReqs : List LeaseReq
  conductors : List Conductor
  ready : List ReadyNode
  doneNodes : List DoneNode
  last : Vector (BitVec 6) 4
  resv : Option (Nat × Nat × Nat)
  order : Nat
  /-- how many commands of the fen have become ready to place a mailbox entry (R390) -/
  posts : Nat
  tlb : List TlbEntry
  /-- the logical clock of the fen's walker and its communication master (R141) -/
  clock : Nat
  /-- emergency-area slots in use: the slot, the context, and the slot of the save area (R355) -/
  emerg : List (Nat × BitVec 6 × Nat)
  deriving DecidableEq, Repr, Inhabited

/-! ### Contexts -/

/-- A context-table entry (R185) and what the device keeps for the context. -/
structure Ctx where
  root : BitVec 36
  home : BitVec 5
  entry : Addr
  state : BitVec 2
  lnchst : Word
  wlkst : Word
  energy : Word
  thnd : Word
  limits : Word
  /-- the limits as read at the start of the context (R345) -/
  lim : Word
  savb : Word
  kt : Vector (BitVec 32) 16
  csts : BitVec 32
  mbent : Word
  pending : List LaunchReq
  /-- DONE was executed by the conductor; CEND is posted; TDOWN is posted (R242, R343) -/
  ended : Bool
  cend : Bool
  tdown : Bool
  saved : List SavedSlot
  savedHdr : List Byte
  keptResume : List (BitVec 32 × Bool)
  /-- what a restore has read back of the save area so far (R356) -/
  readBack : List (List Byte)
  /-- while a save waits for the service program: the newt's cycle count at which the wait began (R167) -/
  saveWait : Option Nat
  deriving DecidableEq, Repr, Inhabited

/-! ### Dies and the package -/

/-- A copy node on a bulk copy engine (R37). -/
structure CopyJob where
  launch : Nat
  gslot : Nat
  node : Nat
  ctx : BitVec 6
  fen : FenNo
  cmd : Cmd
  deriving DecidableEq, Repr, Inhabited

/-- A die (R18): per-die registers and resources. `reed` lists the earlier values of its HBM sectors, with their tags, that a
reed read may still return (R111, R152): oldest first, each until a REEDINV. -/
structure Die where
  ovfw : BitVec 32
  raww : BitVec 32
  heatb : Word
  emrgb : Word
  hsmp : Vector (BitVec 12) 256
  samples : BitVec 24
  /-- requests whose slice has not yet found whether they miss L2 (R121), oldest first: the sector, and whether it is a reed read,
  which passes the sampler in any case -/
  requests : List (BitVec 48 × Bool)
  /-- sweeps that wraps of the sample counter have started and that have not ended, and the bytes the first has halved (R122) -/
  sweep : Nat
  sweepPos : Nat
  ecccnt : Word
  retst : Word
  retired : List (BitVec 6)
  /-- channels already re-striped around, one a group at most (R370, R371) -/
  restriped : List (BitVec 6)
  spares : List (BitVec 6 × Nat)
  rebuilds : List (BitVec 6 × Nat)
  remapped : List (BitVec 6 × Nat)
  corrected : List (BitVec 6 × Nat × Nat)
  dbgcmd : Word
  dbgst : Word
  dbgtag : Word
  dbgaux : Word
  dbgraw : BitVec 1024
  dbgdec : BitVec 8192
  telem : Word
  clock : Nat
  reed : List (BitVec 48 × BitVec 1024 × Byte)
  engines : Vector (Option CopyJob) 8
  /-- the logical clocks of the bulk copy engines (R141) -/
  engClocks : Vector Nat 8
  /-- the route table: by destination die, the adjacent die that its traffic goes to; none where no route is left (R17) -/
  routes : Vector (Option (BitVec 3)) 6
  deriving DecidableEq, Repr, Inhabited

/-- A Moend port (R379 to R382): its status register and, by channel, the flits not yet acknowledged, the
next SEQ to send, the last SEQ accepted, whether a NAK is out, the credits to return, and how often the oldest flit has been
resent; the times of the last 64 resends; and the flits that the link has yet to take, oldest first. -/
structure Port where
  status : Word
  unacked : Vector (List Flit) 8
  nextSeq : Vector (BitVec 12) 8
  rxSeq : Vector (BitVec 12) 8
  nakOut : Vector Bool 8
  credits : Vector Nat 8
  tries : Vector Nat 8
  resent : List Nat
  wire : List Flit
  training : Bool
  deriving DecidableEq, Repr, Inhabited

/-- A message to a peer: its source device, its virtual channel, the KIND of its flit, and what it carries (R379, R380). -/
structure OutMsg where
  src : DevNo
  dst : DevNo
  vc : BitVec 3
  kind : BitVec 3
  body : FlitBody
  deriving DecidableEq, Repr, Inhabited

/-- A lease (R114, R313, R376). `mine`: this device borrows it; otherwise it lends it. -/
structure Lease where
  lid : BitVec 32
  mine : Bool
  peer : DevNo
  win : BitVec 48
  units : BitVec 24
  ctx : BitVec 6
  fen : FenNo
  desc : Word
  notice : Option Word
  expired : Bool
  deriving DecidableEq, Repr, Inhabited

/-- An exchange pending at the skink (R176, R394, R396). -/
structure XPend where
  ctx : BitVec 6
  xid : BitVec 16
  mask : BitVec 64
  posts : List (DevNo × List (BitVec 32))
  xtmo : Bool
  /-- its calendar data, once fixed, and whether the first standby has acknowledged them (R396) -/
  issue : Option XIssue
  acked : Bool
  /-- taken over from a former active skink (R397) -/
  inherited : Bool
  /-- a member of it was lost before its calendars were written: it never starts, though the member may come back (R395) -/
  lost : Bool
  deriving DecidableEq, Repr, Inhabited

/-- What an exchange has to write yet at this device, each until it is written (R179, R395). -/
inductive ExchWork where
  | quanta (key : XferKey) (rank off : Nat) (bytes : List Byte)
  | rcv (rank : Nat) (v : BitVec 32)
  | lost (rank : Nat)
  | res (rank v : Nat)
  deriving DecidableEq, Repr, Inhabited

/-- An exchange this device takes part in (R175, R177, R179). -/
structure Exch where
  fen : FenNo
  ctx : BitVec 6
  xid : BitVec 16
  poster : CoreKey
  cmd : Nat
  /-- the mailbox entry of its DPOST -/
  entry : MbEntry
  /-- GEN of this device's earlier exchange of the key -/
  prior : BitVec 32
  /-- the serial of its close flits' keys (R388) -/
  serial : BitVec 32
  vector : BitVec 2560
  /-- its calendar, once written; one that has arrived and is not written yet -/
  cal : Option Calendar
  calDue : Option Calendar
  next : Nat
  /-- by destination rank, COUNT as read again -/
  counts : List (Nat × Nat)
  /-- sectors that are sent and not acknowledged: phase, place in the buffer of the phase's rank, length; and those, with the close
  flits by rank, that a new master has to send again (R387) -/
  unacked : List (Nat × Nat × Nat)
  again : List (Nat × Nat × Nat)
  closeAgain : List Nat
  /-- ranks whose close flit is sent and not yet counted there, and the bytes that it speaks of -/
  closes : List (Nat × Nat)
  /-- source ranks whose close flit has been counted; by source rank, the ranges received: offset and length -/
  closed : List Nat
  received : List (Nat × Nat × Nat)
  /-- members lost since its DPOST, or while its calendar came: lost to it for good (R395) -/
  lost : List DevNo
  /-- what is still to write, oldest first -/
  todo : List ExchWork
  /-- close flits that have arrived and are not counted: rank, bytes and key -/
  due : List (BitVec 6 × BitVec 32 × XferKey)
  finished : Bool
  deriving DecidableEq, Repr, Inhabited

/-- The skink (R396, R397). -/
structure Skink where
  active : DevNo
  epoch : BitVec 32
  gen : BitVec 32
  pending : List XPend
  /-- at a standby: the exchanges whose calendar data it holds, with context, XID and MASK -/
  issued : List (BitVec 6 × BitVec 16 × BitVec 64 × XIssue)
  /-- context, XID, MASK and GEN of the last exchange of each key whose calendars this skink has written: a post of it that a master
  sends again is of that exchange (R397; DESIGN CHOICE, log entry 120) -/
  done : List (BitVec 6 × BitVec 16 × BitVec 64 × BitVec 32)
  deriving DecidableEq, Repr, Inhabited

/-- Who waits for a RESUME of a record: each is an agent of its own (R338, R339, R372; of a fen's master and walker, DEDUCED, log entry
143). -/
inductive Stopped where
  | core (key : CoreKey)
  | cmd (key : CoreKey) (id : Nat)
  | mma (key : CoreKey) (id : Nat)
  | reed (key : CoreKey) (lt : BitVec 2)
  | copy (die : DieNo) (engine : Fin 8)
  | coll (fen : FenNo) (serial : BitVec 32)
  | entry (fen : FenNo) (key : CoreKey) (cmd : Nat)
  | transfer (key : XferKey)
  | exch (key : CoreKey) (cmd : Nat)
  | launch (ctx : BitVec 6)
  | save (ctx : BitVec 6) (slot : Nat)
  /-- the STATUS of an expired lease, by lender and LID -/
  | status (lender : DevNo) (lid : BitVec 32)
  deriving DecidableEq, Repr, Inhabited

/-- A record awaiting RESUME. -/
structure Await where
  seq : BitVec 32
  ctx : BitVec 6
  who : Stopped
  record : FaultRec
  deriving DecidableEq, Repr, Inhabited

/-- A slot of the package flash (R180, R181, R399): its bytes, and what R181 finds of its images: stage 1, then the management
images of dies 0 to 5. -/
structure FlashSlot where
  bytes : List Byte
  images : Vector ImageFacts 7
  deriving DecidableEq, Repr, Inhabited

/-- Package registers (R184, R336, R347, R373, R399, R401). `ctxbSet`: CTXB has been written since reset (R185). -/
structure Pkg where
  mgst : Word
  ctxb : Word
  ctxbSet : Bool
  tlbinv : Word
  nonce : Option (BitVec 256)
  attst : Word
  attlen : Word
  attr : List Byte
  fqbase : Word
  fqhead : Word
  fqtail : Word
  preemptBusy : Option (BitVec 6)
  ovp : Word
  ovpUsed : List (BitVec 48)
  /-- the bases that firmware sets for the side tables of the mire and of each lender's window; none before boot (R123) -/
  side : List Nat
  bootst : Word
  bootStep : Nat
  recovery : Bool
  flashA : FlashSlot
  flashB : FlashSlot
  /-- the rollback counter fused in die 0 (R181), and the images that run: stage 1, then those of dies 0 to 5 (R182) -/
  rollback : BitVec 32
  running : List ImageFacts
  /-- the last value a host read of memory or of the CXL event log returned, with its poison indication -/
  hostRead : List Byte
  hostPoison : Bool
  eventLog : List FaultRec
  deriving DecidableEq, Repr, Inhabited

/-- What stops the machine itself. -/
inductive Fault where
  /-- A restore found a save area that no save of this device wrote (R354: 'has effects that no rule
  fixes'). Raised by RESTORE_COMPLETE and CONDUCTOR_CHANGE. Safe: the machine stops where the hardware goes on somehow. -/
  | foreignSaveArea
  deriving DecidableEq, Repr, Inhabited

/-- Instructions without a meaning. -/
inductive Refusal where
  /-- Raised by an arm of exec whose instruction has no meaning yet. Safe: nothing is claimed of it. -/
  | notModelled (mnemonic : String)
  deriving DecidableEq, Repr, Inhabited

/-- How a poisoned sector fails: in place in L2 (R364), or because its expansion failed twice (R374). -/
inductive Flaw where
  | l2
  | expansion
  deriving DecidableEq, Repr, Inhabited

/-- The state of the package. `core` is the core in focus and `cores` the others that differ from their
reset state, by rising key. -/
structure State where
  core : Core
  cores : List Core
  iss : Issue
  mem : Memory
  tags : Memory
  poison : List Nat
  /-- poisoned sectors that fail otherwise than by their tier: in place in L2, or by a failed expansion (R364, R374) -/
  flaws : List (Nat × Flaw)
  /-- by sector, the logical write time and the read-lease end that its home slice keeps (R141); a sector not listed has both
  zero -/
  stamps : List (Nat × Nat × Nat)
  /-- the latest logical time of any event, and the host's logical clock (R141) -/
  latest : Nat
  hostClock : Nat
  hostMem : Memory
  ctxs : Vector Ctx 64
  tasks : List Task
  launches : List Launch
  nextLaunch : Nat
  fens : Vector Fen 30
  dies : Vector Die 6
  pkg : Pkg
  ports : Vector Port 36
  /-- UCIe modules up, by pair of R15 in its order; mire ports up -/
  ucie : Vector (BitVec 4) 7
  mireUp : Vector Bool 4
  lostPeers : List DevNo
  leases : List Lease
  skink : Skink
  exchs : List Exch
  /-- domain time in ns (R177) -/
  time : Nat
  /-- by destination device, the Moend port of its route (R380) -/
  routes : Vector (Option PortNo) 64
  /-- records ready to post, stops that wait until their die has room to hold one (R337), the next SEQ, records awaiting RESUME,
  interrupt vectors raised -/
  ready : List (BitVec 32 × FaultRec)
  late : List (BitVec 32 × FaultRec)
  seq : BitVec 32
  await : List Await
  msix : List Nat
  msixDue : Bool
  /-- what is to leave for peer devices, oldest first (R380, R381) -/
  out : List OutMsg
  agenda : List Turn
  tick : Nat
  deriving DecidableEq, Repr, Inhabited

/-! ### Reset -/

/-- A generator after reset: idle, parameters zero (R39, R59). -/
def Ag.reset : Ag :=
  let z : AgParams := ⟨0, 0, Vector.replicate 6 ⟨0, 0, 0⟩⟩
  ⟨z, z, false, false⟩

def Vdec.reset : Vdec := ⟨Vector.replicate 64 ⟨0, 0⟩, 0⟩

def LoopSeq.reset : LoopSeq :=
  ⟨Vector.replicate 6 ⟨false, false, 0, 0, 0, 0, 0, 0⟩, [], 0, 0, 0, 0⟩

/-- The lane LFSRs reset to i + 1 (R68). -/
def lfsReset : Vector (BitVec 32) 64 := Vector.ofFn fun i => BitVec.ofNat 32 (i.val + 1)

/-- R52, R53, R54, R64, R65, R69, R70. -/
def Regs.reset : Regs :=
  ⟨Vector.replicate 32 0, Vector.replicate 8 false, Vector.replicate 32 0, Vector.replicate 16 false,
   0, 0, false, 0, lfsReset⟩

def VState.reset : VState :=
  ⟨Vector.replicate 16 [], Vector.replicate 4 Ag.reset, Vector.replicate 2 Vdec.reset, [], []⟩

def MatrixUnit.reset : MatrixUnit :=
  ⟨Vector.replicate 4 0, Vector.replicate 4 0, Vector.replicate 16 0, Vector.replicate 4 0,
   Vector.replicate 4 none, [], Vector.replicate 4 none, [], [], none⟩

/-- Zero-filled, every bank in scratchpad mode (R39, R102). -/
def Scratch.reset : Scratch :=
  ⟨[], [], [], Vector.replicate 8 ⟨false, 0, false, 0⟩, Vector.replicate 8 ⟨0, 0⟩, [], [], [], [], 0, 0⟩

def Pipes.reset : Pipes := ⟨[], [], [], [], [], [], 0, 0, Vector.replicate 4 0, Vector.replicate 2 0, 0, []⟩

/-- The fen of a core (R19). -/
def fenOfKey (k : CoreKey) : Nat := if k < 4096 then k / 128 else (k - 4096) / 2

/-- Newt keys stand from 4096 on. -/
def isNewtKey (k : CoreKey) : Bool := decide (4096 ≤ k)

/-- The site a core sits on at reset (R20). -/
def siteOfKey (k : CoreKey) : Byte :=
  if k < 4096 then BitVec.ofNat 8 (k % 128) else BitVec.ofNat 8 (132 + (k - 4096) % 2)

/-- A core as its site comes out of reset (R52). -/
def Core.reset (k : CoreKey) : Core :=
  { key := k, site := siteOfKey k, ctx := 0, status := .idle, pc := 0, scyc := 0, retain := false,
    regs := Regs.reset, vs := VState.reset, loop := LoopSeq.reset, mx := MatrixUnit.reset,
    mxr := Vector.replicate 4 ⟨0, 0⟩, kar := Vector.replicate 4 ⟨0, 0⟩, kbr := Vector.replicate 4 ⟨0, 0⟩,
    sp := Scratch.reset, pipes := Pipes.reset, held := none, stop := none, skipBkpt := false,
    dfFault := none, dfPast := false, frozen := false, wait := none, waits := [], freeze := none, waitcVal := none,
    cmdWait := Vector.replicate 2 none, fetched := none, lcoreReg := (siteOfKey k).setWidth 12, posts := 0, replies := [],
    lastCtx := none, lastSite := siteOfKey k, ran := 0, resumed := 0, tlb := [], errs := [] }

/-- No bundle is being issued. -/
def Issue.reset : Issue :=
  { slot := 0, word := 0, bc := 0, gated := false, guards := Vector.replicate 8 true, fault := none,
    hold := none, holdSlot := 0, others := [], claim := false, freeze := none, occ := Vector.replicate 16 0,
    pops := Vector.replicate 16 0, pushes := Vector.replicate 16 0, pushSlot := Vector.replicate 16 0,
    claims := Vector.replicate 16 0, newInfl := [], eoc := [], flg := 0, satd := 0, lfs := lfsReset,
    uses := [], compares0 := 0, compares1 := 0, waitc := none, cmdWait := Vector.replicate 2 none, synced := false, next := none, loopReq := none, trap := none,
    tret := false, done := false }

/-- R20, R21, R161. -/
def Fen.reset : Fen :=
  { remap := [], failed := [], offline := false, master := some 132, standby := some 133, mailbox := [], mbWait := [], reading := [],
    service := none, colls := [], serial := 0, coming := [], arriving := [], held := [], seen := [], seenClose := [], leaseReqs := [],
    conductors := [], ready := [], doneNodes := [], last := Vector.replicate 4 63, resv := none,
    order := 0, posts := 0, tlb := [], clock := 0, emerg := [] }

def Ctx.reset : Ctx :=
  { root := 0, home := 0, entry := 0, state := 0, lnchst := 0, wlkst := 0, energy := 0, thnd := 0,
    limits := 0, lim := 0, savb := 0, kt := Vector.replicate 16 0, csts := 0, mbent := 0, pending := [],
    ended := false, cend := false, tdown := false, saved := [], savedHdr := [], keptResume := [], readBack := [],
    saveWait := none }

/-- R110, R121, R369, R371; DBGST.DONE is 1 at reset (R403); the nominal clock (R187). -/
def Die.reset : Die :=
  { ovfw := 0, raww := 0, heatb := 0, emrgb := 0, hsmp := Vector.replicate 256 0, samples := 0, requests := [],
    sweep := 0, sweepPos := 0,
    ecccnt := 0, retst := 0, retired := [], restriped := [], spares := [], rebuilds := [],
    remapped := [], corrected := [], dbgcmd := 0, dbgst := 1, dbgtag := 0, dbgaux := 0, dbgraw := 0,
    dbgdec := 0, telem := 0, clock := 2250, reed := [], engines := Vector.replicate 8 none, engClocks := Vector.replicate 8 0,
    routes := Vector.replicate 6 none }

def Port.reset : Port :=
  { status := 0, unacked := Vector.replicate 8 [], nextSeq := Vector.replicate 8 0,
    rxSeq := Vector.replicate 8 0xFFF, nakOut := Vector.replicate 8 false, credits := Vector.replicate 8 0,
    tries := Vector.replicate 8 0, resent := [], wire := [], training := false }

/-- A flash slot whose images verify, at version 0 and with a digest of 0 each (DESIGN CHOICE, log entry 101). -/
def FlashSlot.reset : FlashSlot := ⟨[], Vector.replicate 7 ⟨true, true, true, 0, 0⟩⟩

/-- TLBINV.DONE is 1 (R186) and FQHEAD.PH is 1 (R336) at reset. -/
def Pkg.reset : Pkg :=
  { mgst := 0, ctxb := 0, ctxbSet := false, tlbinv := 0x8000000000000000, nonce := none, attst := 0, attlen := 0,
    attr := [], fqbase := 0, fqhead := 0x100000000, fqtail := 0, preemptBusy := none, ovp := 0,
    ovpUsed := [], side := [], bootst := 0, bootStep := 1, recovery := false, flashA := FlashSlot.reset,
    flashB := FlashSlot.reset, rollback := 0, running := [],
    hostRead := [], hostPoison := false, eventLog := [] }

/-- The package right after reset (R52, R180): nothing runs, memory lists nothing; every register without
a stated reset value holds the one log entries 1 to 3 name. -/
def State.reset : State :=
  { core := Core.reset 0, cores := [], iss := Issue.reset, mem := [], tags := [], poison := [], flaws := [],
    stamps := [], latest := 0, hostClock := 0, hostMem := [], ctxs := Vector.replicate 64 Ctx.reset, tasks := [], launches := [], nextLaunch := 0,
    fens := Vector.replicate 30 Fen.reset, dies := Vector.replicate 6 Die.reset, pkg := Pkg.reset,
    ports := Vector.replicate 36 Port.reset, ucie := Vector.replicate 7 0xF,
    mireUp := Vector.replicate 4 true, lostPeers := [], leases := [],
    skink := ⟨0, 1, 0, [], [], []⟩, exchs := [], time := 0, routes := Vector.replicate 64 none,
    ready := [], late := [], seq := 0, await := [], msix := [],
    msixDue := false, out := [], agenda := [], tick := 0 }

end Sys2Proof.Machine
end

