-- ==== Sys2Proof/Machine/Mem.lean ====
section
/-! DEFINITION. Byte memories in canonical form, the little-endian reading of bytes (R5), and the small
helpers over vectors and bit vectors that every other file uses. -/

namespace Sys2Proof.Machine

/-! ### Vectors by number -/

/-- Entry i, or the default outside the vector. -/
def vget {α : Type} [Inhabited α] {n : Nat} (v : Vector α n) (i : Nat) : α := (v[i]?).getD default

/-- Entry i replaced; nothing outside the vector. -/
def vset {α : Type} {n : Nat} (v : Vector α n) (i : Nat) (x : α) : Vector α n := v.setIfInBounds i x

/-! ### Memories -/

/-- The byte at an address; an unlisted address reads as zero (log entry 1). -/
def Memory.read : Memory → Nat → Byte
  | [], _ => 0
  | (k, v) :: r, a => if k = a then v else Memory.read r a

/-- One byte written, keeping the canonical form. -/
def Memory.write : Memory → Nat → Byte → Memory
  | [], a, b => if b = 0 then [] else [(a, b)]
  | (k, v) :: r, a, b =>
    if a < k then (if b = 0 then (k, v) :: r else (a, b) :: (k, v) :: r)
    else if a = k then (if b = 0 then r else (a, b) :: r)
    else (k, v) :: Memory.write r a b

/-- Canonical form: addresses strictly rising, no entry equal to what an unlisted address reads as. -/
def Memory.wf : Memory → Bool
  | [] => true
  | [(_, v)] => decide (v ≠ 0)
  | (k, v) :: (k', v') :: r => decide (v ≠ 0) && decide (k < k') && Memory.wf ((k', v') :: r)

/-- n bytes from a on. -/
def Memory.readBytes (m : Memory) (a n : Nat) : List Byte := (List.range n).map fun i => m.read (a + i)

/-- Bytes written from a on. -/
def Memory.writeBytes : Memory → Nat → List Byte → Memory
  | m, _, [] => m
  | m, a, b :: bs => Memory.writeBytes (m.write a b) (a + 1) bs

/-- Zero written to [a, a + n). -/
def Memory.clear (m : Memory) (a n : Nat) : Memory := m.filter fun c => !(decide (a ≤ c.1) && decide (c.1 < a + n))

/-! ### Little-endian values -/

/-- The number whose little-endian bytes are given (R5). -/
def bytesToNat : List Byte → Nat
  | [] => 0
  | b :: bs => b.toNat + 256 * bytesToNat bs

/-- The n little-endian bytes of a number (R5). -/
def natToBytes : Nat → Nat → List Byte
  | 0, _ => []
  | n + 1, x => BitVec.ofNat 8 x :: natToBytes n (x / 256)

/-- The bytes of a bit vector of 8·n bits. -/
def bvBytes {w : Nat} (x : BitVec w) : List Byte := natToBytes (w / 8) x.toNat

/-- A vector's 256 bytes (R77). -/
def vecOfBytes (bs : List Byte) : Vec := BitVec.ofNat 2048 (bytesToNat bs)

/-! ### Lists -/

/-- A list element changed where a condition holds. -/
def mapIf {α : Type} (p : α → Bool) (f : α → α) (l : List α) : List α := l.map fun x => if p x then f x else x

/-! ### Sorted sets of numbers -/

/-- A number added to a rising list. -/
def setAdd (x : Nat) : List Nat → List Nat
  | [] => [x]
  | y :: r => if x < y then x :: y :: r else if x = y then y :: r else y :: setAdd x r

/-- A number removed. -/
def setDel (x : Nat) (l : List Nat) : List Nat := l.filter (fun y => y ≠ x)

/-- Whether a number is in the list. -/
def setHas (x : Nat) (l : List Nat) : Bool := l.any (fun y => decide (y = x))

/-! ### Bits -/

/-- Field [hi:lo] of a bit vector as a number. -/
def bits {w : Nat} (x : BitVec w) (hi lo : Nat) : Nat := (x.toNat >>> lo) % 2 ^ (hi + 1 - lo)

/-- Bit k of a bit vector. -/
def bit {w : Nat} (x : BitVec w) (k : Nat) : Bool := x.getLsbD k

/-- Field [hi:lo] replaced. -/
def setBits {w : Nat} (x : BitVec w) (hi lo : Nat) (v : Nat) : BitVec w :=
  let m := BitVec.ofNat w ((2 ^ (hi + 1 - lo) - 1) <<< lo)
  (x &&& ~~~m) ||| (BitVec.ofNat w (v <<< lo) &&& m)

/-- A Bool as 0 or 1. -/
def b2n (b : Bool) : Nat := if b then 1 else 0

/-- The sign-extended value of the low w bits of x, as a 64-bit word. -/
def sext64 {w : Nat} (x : BitVec w) : Word := x.signExtend 64

/-- A number clipped to a maximum. -/
def satTo (m x : Nat) : Nat := if x ≤ m then x else m

end Sys2Proof.Machine
end

