-- ==== Sys2Proof/Machine/Ops.lean ====
section
/-! DEFINITION. The named operations over registers, queues, scratchpad and sequencer that the meanings
share; taking a fault or a trap, and the return from a trap; and what a result does when it lands. -/

namespace Sys2Proof.Machine

/-! ### Registers (R53, R54, R64) -/

/-- A scalar register; s0 reads as zero. -/
def Core.rs (c : Core) (r : BitVec 5) : Word := if r = 0 then 0 else vget c.regs.s r.toNat

/-- The errors of a core's state without the one that a write replaces (R360). -/
def errsWithout (e : Nat × Nat) (l : List (Nat × Nat)) : List (Nat × Nat) := if l.isEmpty then [] else l.filter fun x => decide (x ≠ e)

/-- An error added. -/
def setAddErr (e : Nat × Nat) (l : List (Nat × Nat)) : List (Nat × Nat) := if l.any fun x => decide (x = e) then l else l ++ [e]

/-- A write to a scalar register; to s0 it is discarded. An error that the register held is gone (R360). -/
def Core.ws (c : Core) (r : BitVec 5) (v : Word) : Core :=
  if r = 0 then c
  else { c with regs := { c.regs with s := vset c.regs.s r.toNat v }, errs := errsWithout (1, r.toNat) c.errs }

/-- A predicate; p0 reads true. -/
def Core.rp (c : Core) (p : BitVec 3) : Bool := if p = 0 then true else vget c.regs.p p.toNat

/-- A write to a predicate; to p0 it is discarded. -/
def Core.wp (c : Core) (p : BitVec 3) (v : Bool) : Core :=
  if p = 0 then c else { c with regs := { c.regs with p := vset c.regs.p p.toNat v } }

/-- A guard selector: 0 to 7 name p0 to p7, 8 to 15 name sg0 to sg7 (R194). -/
def Core.sel (c : Core) (g : BitVec 4) : Bool :=
  if g.toNat < 8 then c.rp (g.setWidth 3) else bit c.loop.sg (g.toNat - 8)

/-- Token t is PENDING; token 0 names none and never is (R64). -/
def Core.pending (c : Core) (t : Nat) : Bool := decide (t ≠ 0) && vget c.regs.tok t

/-- A token set PENDING or DONE. -/
def Core.setTok (c : Core) (t : Nat) (p : Bool) : Core :=
  if t = 0 then c else { c with regs := { c.regs with tok := vset c.regs.tok t p } }

/-- A newt core (R71). -/
def Core.newt (c : Core) : Bool := isNewtKey c.key

/-- The fen of a core. -/
def Core.fen (c : Core) : Nat := fenOfKey c.key

/-- The size of the local scratchpad (R71, R99). -/
def Core.spSize (c : Core) : Nat := if c.newt then 2 ^ 18 else 2 ^ 20

/-- A core's number in a record: the global logical number, 0xFFF for a newt (R340). -/
def Core.lcore (c : Core) : BitVec 12 := if c.newt then 0xFFF else BitVec.ofNat 12 c.key

/-- The current index of a loop level; an inactive level reads as index 0 (R196, R295). -/
def Core.lidx (c : Core) (l : Nat) : Nat :=
  let v := vget c.loop.lv l
  if l < 6 && v.active then v.lidx.toNat else 0

/-- The mask stack of a vector slot. -/
def Core.mask (c : Core) (v1 : Bool) : List (BitVec 64) := if v1 then c.vs.mask1 else c.vs.mask0

/-- The mask stack of a vector slot replaced. -/
def Core.setMask (c : Core) (v1 : Bool) (m : List (BitVec 64)) : Core :=
  { c with vs := if v1 then { c.vs with mask1 := m } else { c.vs with mask0 := m } }

/-- The active mask; an empty stack enables every lane (R66). -/
def activeMask (st : List (BitVec 64)) : BitVec 64 := st.headD (BitVec.allOnes 64)

/-- A queue's landed entries, head first. -/
def Core.queue (c : Core) (q : Nat) : List QEntry := vget c.vs.q q

/-- A queue's landed entries replaced. -/
def Core.setQueue (c : Core) (q : Nat) (l : List QEntry) : Core :=
  { c with vs := { c.vs with q := vset c.vs.q q l } }

/-! ### Cores by key -/

/-- The core of a key; one not listed is in its reset state. -/
def State.getCore (s : State) (k : CoreKey) : Core :=
  if s.core.key = k then s.core else (s.cores.find? fun c => decide (c.key = k)).getD (Core.reset k)

/-- A core put into a list sorted by key. -/
def coreInsert (c : Core) : List Core → List Core
  | [] => [c]
  | d :: r => if c.key < d.key then c :: d :: r else if c.key = d.key then c :: r else d :: coreInsert c r

/-- A core replaced. -/
def State.putCore (s : State) (c : Core) : State :=
  if s.core.key = c.key then { s with core := c } else { s with cores := coreInsert c s.cores }

/-- A core changed by a function. -/
def State.onCore (s : State) (k : CoreKey) (f : Core → Core) : State := s.putCore (f (s.getCore k))

/-- The core of key k brought into focus. -/
def State.focus (s : State) (k : CoreKey) : State :=
  if s.core.key = k then s
  else
    { s with
      core := s.getCore k
      cores := coreInsert s.core (s.cores.filter fun c => decide (c.key ≠ k)) }

/-- Every core the state lists, the one in focus included. -/
def State.allCores (s : State) : List Core := s.core :: s.cores

/-- The context of the focus core. -/
def State.ctx (s : State) : Ctx := vget s.ctxs s.core.ctx.toNat

/-- PST of CSTS (R348): 0 resident, 1 saving, 2 saved, 3 restoring. -/
def Ctx.pst (x : Ctx) : Nat := bits x.csts 1 0

/-- A context changed. -/
def State.onCtx (s : State) (n : Nat) (f : Ctx → Ctx) : State := { s with ctxs := vset s.ctxs n (f (vget s.ctxs n)) }

/-- A fen changed. -/
def State.onFen (s : State) (n : Nat) (f : Fen → Fen) : State := { s with fens := vset s.fens n (f (vget s.fens n)) }

/-- A die changed. -/
def State.onDie (s : State) (n : Nat) (f : Die → Die) : State := { s with dies := vset s.dies n (f (vget s.dies n)) }

/-! ### Records (R336 to R339) -/

/-- A sector fails no longer otherwise than by its tier. -/
def flawsWithout (sector : Nat) (l : List (Nat × Flaw)) : List (Nat × Flaw) := l.filter fun x => decide (x.1 ≠ sector)

/-- The record is an event that no agent caused, whose SITE is the die that detects it (R340, R363, R385). -/
def FaultRec.event (r : FaultRec) : Bool :=
  let c := r.code.toNat
  decide (r.lcore = 0xFFF) && decide (r.agent = 0)
    && (decide (c = 0x22) || decide (c = 0x23) || (decide (0x38 ≤ c) && decide (c ≤ 0x3A)) || decide (0x48 ≤ c))

/-- The die that a record belongs to (R337). -/
def FaultRec.die (r : FaultRec) : Nat := if r.event then r.site.toNat else r.fen.toNat / 5

/-- A die has no room left among the 256 records that it holds (R337). -/
def State.dieFull (s : State) (d : Nat) : Bool := decide (256 ≤ s.ready.countP fun x => decide (x.2.die = d))

/-- A record becomes ready to post: it takes the next SEQ (log entry 11). The sector of a FLT_CPRS is from now on plainly
poisoned (R363, R374). -/
def State.post (s : State) (r : FaultRec) : State :=
  { s with
    ready := s.ready ++ [(s.seq, r)]
    seq := s.seq + 1
    flaws := if r.code = 0x31 then flawsWithout (r.info1.toNat / 128) s.flaws else s.flaws }

/-- The record of an event that no agent caused (R363). -/
def eventRec (code cause : Nat) (ctx : Nat) (site : Nat) (i0 i1 : Word) : FaultRec :=
  { code := BitVec.ofNat 8 code, cause := BitVec.ofNat 8 cause, repl := false, hmode := false, agent := 0,
    slot := 0, ctx := BitVec.ofNat 6 ctx, fen := 0, site := BitVec.ofNat 8 site, lcore := 0xFFF, pc := 0,
    scyc := 0, info0 := i0, info1 := i1, ext := 0 }

/-- A record of a core, agent 0 to 3 (R338). -/
def Core.record (c : Core) (agent code cause : Nat) (repl : Bool) (slot : Nat) (i0 i1 : Word) : FaultRec :=
  { code := BitVec.ofNat 8 code, cause := BitVec.ofNat 8 cause, repl := repl, hmode := c.held.isSome,
    agent := BitVec.ofNat 4 agent, slot := BitVec.ofNat 3 slot, ctx := c.ctx, fen := BitVec.ofNat 5 c.fen,
    site := c.site, lcore := c.lcore, pc := if agent = 0 then c.pc else 0,
    scyc := c.scyc, info0 := i0, info1 := i1, ext := 0 }

/-- A record that stops an agent: it becomes ready, or waits until its die has room (R337), and the agent waits for its
RESUME. -/
def State.postStop (s : State) (who : Stopped) (r : FaultRec) : State :=
  let t := { s.post r with await := s.await ++ [⟨s.seq, r.ctx, who, r⟩] }
  if s.dieFull r.die then { t with ready := s.ready, late := s.late ++ [(s.seq, r)] } else t

/-- TAKING A FAULT (R333): the focus core stops before the bundle at its pc; the record of the stop becomes
ready to post, and the core waits for RESUME. The value that the bundle's WAITC read as the bundle first reached issue stays (R232). -/
def State.stopCore (s : State) (r : FaultRec) : State :=
  { s.postStop (.core s.core.key) r with
    core := { s.core with
      stop := some ⟨s.seq⟩, skipBkpt := false, frozen := false, wait := none, waits := [], freeze := none
      cmdWait := Vector.replicate 2 none, fetched := none } }

/-- ENTERING HANDLER MODE (R239, R240): the results in flight, port uses and windows are held, and the core
issues next at THND + 192 · code. The pc saved is that of the bundle after the TRAP. -/
def Core.enterHandler (c : Core) (thnd : Addr) (code : Byte) : Core :=
  { c with
    held := some ⟨c.pipes.inflight, c.pipes.uses, c.pipes.wins, c.pc⟩
    pipes := { c.pipes with inflight := [], uses := [], wins := [] }
    pc := thnd + BitVec.ofNat 57 (192 * code.toNat) }

/-- TAKING A TRAP after its bundle has committed (R239): with a handler and outside handler mode the core
enters it; otherwise the core stops with a TRAP record. The handler is at bits [56:0] of THND as they stand, and there is none where
these are zero (DESIGN CHOICE, log entry 103). -/
def State.takeTrap (s : State) (code : Byte) : State :=
  let thnd : Addr := s.ctx.thnd.extractLsb' 0 57
  if thnd = 0 || s.core.held.isSome then
    s.stopCore (s.core.record 0 0x20 0 false 6 (code.setWidth 64) 0)
  else { s with core := s.core.enterHandler thnd code }

/-- THE RETURN FROM HANDLER MODE (R241): the held state is released, each result with its remaining cycles,
and the bundle after the TRAP issues. -/
def Core.leaveHandler (c : Core) : Core :=
  match c.held with
  | none => c
  | some h =>
    { c with
      held := none
      pipes := { c.pipes with
        inflight := h.inflight ++ c.pipes.inflight, uses := h.uses ++ c.pipes.uses,
        wins := h.wins ++ c.pipes.wins }
      pc := h.retPc }

/-- A counter of MXC raised, saturating at 0xFFFF (R69): 0 SATD, 1 INFA, 2 NANA, 3 NFIN. -/
def mxcAdd (m : Word) (k n : Nat) : Word :=
  setBits m (16 * k + 15) (16 * k) (satTo 0xFFFF (bits m (16 * k + 15) (16 * k) + n))

/-! ### What a slot asks of its bundle -/

/-- The slot runs: its guard is true and the bundle is not gated off (R195, R196). -/
def State.active (s : State) : Bool := !s.iss.gated && vget s.iss.guards s.iss.slot

/-- A fault met by the executing slot; the bundle keeps the first in the order of R193 (rank, then slot). -/
def State.raise (s : State) (rank code cause : Nat) (repl : Bool) (i0 i1 : Word) : State :=
  let f : SlotFault := ⟨rank, s.iss.slot, BitVec.ofNat 8 code, BitVec.ofNat 8 cause, repl, i0, i1⟩
  match s.iss.fault with
  | none => { s with iss := { s.iss with fault := some f } }
  | some g =>
    if f.rank < g.rank ∨ (f.rank = g.rank ∧ f.slot < g.slot) then { s with iss := { s.iss with fault := some f } }
    else s

/-- The ILLEGAL trap (R192, R193). -/
def State.illegal (s : State) : State := s.raise 1 0x01 0 false (s.iss.word.setWidth 64) 0

/-- FLT_ENC (R192, R193). -/
def State.encFault (s : State) : State := s.raise 2 0x02 0 false (s.iss.word.setWidth 64) 0

/-- A fault raised at issue (R193, point 4). -/
def State.issueFault (s : State) (code cause : Nat) (repl : Bool) (i0 i1 : Word) : State :=
  s.raise 3 code cause repl i0 i1

/-- The executing slot reads state of the core: FLT_CORE if it is in error (R360, R363). `cause` 1: scalar register n; 2: queue n;
3: accumulator n, or latch n - 4; 4: other state. -/
def State.coreRead (s : State) (cause n : Nat) : State :=
  if s.core.errs.any fun e => decide (e = (cause, n)) then
    s.issueFault 0x32 cause false (BitVec.ofNat 64 (if cause = 3 then n % 4 else n)) 0
  else s

/-- FLT_ALIGN with the offending address (R340). -/
def State.alignFault (s : State) (a : Word) : State := s.issueFault 0x03 0 false a 0

/-- FLT_PAGE, non-canonical (R99, R190). -/
def State.canonFault (s : State) (a : Word) : State := s.issueFault 0x0A 6 false a 0

/-- The bundle holds on a wait of the executing slot (R44, R231); every further wait of the bundle is noted beside the first. -/
def State.holdOn (s : State) (w : Wait) : State :=
  match s.iss.hold with
  | some v => if v = w || s.iss.others.any (fun x => decide (x.1 = w)) then s else { s with iss := { s.iss with others := s.iss.others ++ [(w, s.iss.slot)] } }
  | none => { s with iss := { s.iss with hold := some w, holdSlot := s.iss.slot } }

/-- The bundle holds on tokens of the executing slot: each is a wait of its own (R44, R346). -/
def State.holdTokens (s : State) (l : List (BitVec 4)) : State := l.foldl (fun s t => s.holdOn (.token t)) s

/-- The bundle's accesses follow what other agents have done before this wait of the slot (R149 to R151). -/
def State.synced (s : State) : State := { s with iss := { s.iss with synced := true } }

/-- A result that lands after `rem` schedule cycles (R57, R213). -/
def State.result (s : State) (rem : Nat) (w : Landing) : State :=
  { s with iss := { s.iss with newInfl := s.iss.newInfl ++ [⟨rem, s.iss.slot, s.core.pipes.bundleNo, w⟩] } }

/-- A write that lands at the end of the issue cycle. -/
def State.endOfCycle (s : State) (e : Eoc) : State :=
  { s with iss := { s.iss with eoc := s.iss.eoc ++ [e] } }

/-- Flags set when the bundle commits (R69). -/
def State.flag (s : State) (f : BitVec 7) : State := { s with iss := { s.iss with flg := s.iss.flg ||| f } }

/-! ### Queues (R55 to R58) -/

/-- Results in flight, those held in handler mode included. -/
def Core.allInflight (c : Core) : List Inflight :=
  match c.held with
  | none => c.pipes.inflight
  | some h => h.inflight ++ c.pipes.inflight

/-- How many entries a result pushes onto queue q. -/
def Landing.pushes (q : Nat) : Landing → Nat
  | .push k es => if k.toNat = q then es.length else 0
  | .loadQ k _ => if k.toNat = q then 1 else 0
  | .sreg _ _ => 0
  | .pred _ _ => 0
  | .maskPush _ _ => 0
  | .spWrite _ _ => 0
  | .loadX _ _ => 0
  | .stored _ => 0

/-- Pushes in flight to queue q (R58). -/
def Core.inflightPushes (c : Core) (q : Nat) : Nat := (c.allInflight.map fun i => i.what.pushes q).sum

/-- Compare pushes in flight to a mask stack (R229). -/
def Core.inflightMasks (c : Core) (v1 : Bool) : Nat :=
  c.allInflight.countP fun i => match i.what with
    | .maskPush b _ => b == v1
    | _ => false

/-- The generator of an input port is walking. -/
def Core.portWalking (c : Core) (q : Nat) : Bool := (vget c.vs.ag (q - 12)).walking

/-- FLT_QUF for queue q; its INFO1 is filled in when the bundle's counts are known. -/
def State.qufFault (s : State) (q : Nat) : State := s.issueFault 0x05 0 false (BitVec.ofNat 64 q) 0

/-- One pop, or one peek, of queue q (R56, R58): the entry, or a hold, a freeze or FLT_QUF. A poisoned entry is
FLT_POISON (R362), and one whose queue holds an error is FLT_CORE (R360). In handler mode a peek of an input port is FLT_QUF as a pop
is, whatever stands in the port: R240 names the pop alone (DESIGN CHOICE, log entry 123). -/
def State.takeQ (s : State) (q : Nat) (peek : Bool) : QEntry × State :=
  let n := s.iss
  let s := if peek then s else { s with iss := { n with pops := vset n.pops q (vget n.pops q + 1) } }
  let port := decide (q = 12) || decide (q = 13)
  if port && s.core.held.isSome then (default, s.qufFault q)
  else
    match s.core.queue q with
    | e :: r =>
      let s := if peek then s else { s with core := s.core.setQueue q r }
      match e.poison with
      | none => (e, s.coreRead 2 q)
      | some a =>
        (e, s.issueFault 0x30 3 true (BitVec.ofNat 64 (2 ^ 63 + a)) (s.core.lcore.setWidth 64))
    | [] =>
      if vget s.iss.claims q < s.core.inflightPushes q then
        let c := vget s.iss.claims q + (if peek then 0 else 1)
        (default, { s with iss := { s.iss with claim := true, claims := vset s.iss.claims q c } })
      else if port && s.core.portWalking q then
        (default, { s with iss := { s.iss with freeze := some (BitVec.ofNat 8 q) } })
      else (default, s.qufFault q)

/-- n entries that the bundle pushes onto queue q, counted for R58. -/
def State.notePush (s : State) (q n : Nat) : State :=
  let i := s.iss
  let first := decide (vget i.pushes q = 0) || decide (i.slot < vget i.pushSlot q)
  { s with iss := { i with
    pushes := vset i.pushes q (vget i.pushes q + n)
    pushSlot := if first then vset i.pushSlot q i.slot else i.pushSlot } }

/-- Entries pushed onto queue q when the result lands. -/
def State.pushQ (s : State) (rem : Nat) (q : Nat) (es : List QEntry) : State :=
  (s.notePush q es.length).result rem (.push (BitVec.ofNat 4 q) es)

/-! ### Scratchpad through the core port (R101, R105, R132, R362) -/

/-- The bank of an address (R101). -/
def bankOf (a : Nat) : Nat := 2 * (a / 2 ^ 18 % 4) + a / 128 % 2

/-- The row of an address within its bank (R101). -/
def rowOf (a : Nat) : Nat := a / 256 % 1024

/-- The address of a row of the bank that holds a, with a's place within the row. -/
def rowAddr (a row : Nat) : Nat := a / 2 ^ 18 * 2 ^ 18 + row % 1024 * 256 + a % 256

/-- The parts of an access that fall within one sector each (R138): address and length. -/
def sectorParts (a : Nat) : Nat → Nat → List (Nat × Nat)
  | 0, _ => []
  | _ + 1, 0 => []
  | f + 1, n =>
    let k := min n (128 - a % 128)
    (a, k) :: sectorParts (a + k) f (n - k)

/-- An access cut into its sector parts. -/
def partsOf (a n : Nat) : List (Nat × Nat) := sectorParts a (n / 128 + 2) n

/-- The bank of an address is a FIFO (R105). -/
def Scratch.isFifo (sp : Scratch) (a : Nat) : Bool := decide ((vget sp.bank (bankOf a)).mode = 2)

/-- Bytes written within one sector, its tag cleared; a whole sector loses its poison (R132, R362). -/
def Scratch.put (sp : Scratch) (a : Nat) (bs : List Byte) (tag : Byte) : Scratch :=
  { sp with
    mem := sp.mem.writeBytes a bs
    tags := sp.tags.write (a / 128) tag
    poison := if bs.length = 128 then setDel (a / 128) sp.poison else sp.poison }

/-- A write within one sector: to a FIFO bank it pushes one entry (R105). One shorter than 128 bytes leaves the entry's other bytes,
and its poison, as its row held them: the rule does not say what they are (DESIGN CHOICE, log entry 109). -/
def Scratch.storePart (sp : Scratch) (a : Nat) (bs : List Byte) (tag : Byte) : Scratch :=
  if sp.isFifo a then
    let f := vget sp.fifo (bankOf a)
    { sp.put (rowAddr a (f.head + f.count)) bs tag with
      fifo := vset sp.fifo (bankOf a) ⟨f.head, f.count + 1⟩ }
  else sp.put a bs tag

/-- A write of any length. -/
def Scratch.store (sp : Scratch) (a : Nat) (bs : List Byte) (tag : Byte) : Scratch :=
  ((partsOf a bs.length).foldl
    (fun (st : Scratch × List Byte) p => (st.1.storePart p.1 (st.2.take p.2) tag, st.2.drop p.2)) (sp, bs)).1

/-- The logical time of a sector's last write and the end of its read lease (R141). -/
def Scratch.stamp (sp : Scratch) (k : Nat) : Nat × Nat :=
  (sp.stamps.find? fun x => decide (x.1 = k)).elim (sp.born, sp.born) (·.2)

/-- A sector's times set. -/
def Scratch.setStamp (sp : Scratch) (k w l : Nat) : Scratch :=
  { sp with stamps := (k, w, l) :: sp.stamps.filter fun x => decide (x.1 ≠ k) }

/-- A write takes its place in the sector: later than every lease, and not before a time (R141). -/
def Scratch.wroteAfter (sp : Scratch) (t k : Nat) : Scratch :=
  let u := max t ((sp.stamp k).2 + 1)
  sp.setStamp k u u

/-- A core-port write of n bytes at a takes its place in each sector (R140). -/
def Scratch.portWrote (sp : Scratch) (t a n : Nat) : Scratch :=
  (partsOf a n).foldl (fun sp p => sp.wroteAfter t (p.1 / 128)) sp

/-- A time later than every access of the scratchpad. -/
def Scratch.lastTime (sp : Scratch) : Nat := sp.stamps.foldl (fun t x => max t (x.2.2 + 1)) (max sp.floor sp.born)

/-- The whole scratchpad takes other contents at a time. -/
def Scratch.bornAt (sp : Scratch) (t : Nat) : Scratch := { sp with stamps := [], born := t, floor := t }

/-- What a read finds: bytes, one tag for each sector, and the first poisoned address. -/
structure SpRead where
  bytes : List Byte
  tags : List Byte
  poison : Option Nat
  deriving DecidableEq, Repr, Inhabited

/-- A read of any length, with no effect on FIFO banks. -/
def Scratch.look (sp : Scratch) (a n : Nat) : SpRead :=
  let ps := partsOf a n
  ⟨sp.mem.readBytes a n, ps.map fun p => sp.tags.read (p.1 / 128),
   (ps.find? fun p => setHas (p.1 / 128) sp.poison).map (·.1)⟩

/-- A core-port read within one sector: of a FIFO bank it pops one entry (R105). -/
def Scratch.readPart (sp : Scratch) (p : Nat × Nat) : SpRead × Scratch :=
  if sp.isFifo p.1 then
    let f := vget sp.fifo (bankOf p.1)
    (sp.look (rowAddr p.1 f.head) p.2,
     { sp with fifo := vset sp.fifo (bankOf p.1) ⟨(f.head + 1) % 1024, f.count - 1⟩ })
  else (sp.look p.1 p.2, sp)

/-- A core-port read of any length. -/
def Scratch.read (sp : Scratch) (a n : Nat) : SpRead × Scratch :=
  (partsOf a n).foldl
    (fun (st : SpRead × Scratch) p =>
      let r := st.2.readPart p
      (⟨st.1.bytes ++ r.1.bytes, st.1.tags ++ r.1.tags, st.1.poison.or r.1.poison⟩, r.2))
    (⟨[], [], none⟩, sp)

/-- A core-port write of a core, not before a logical time; local offsets wrap (R99, R301), and every store clears tags (R300). -/
def Core.spStoreAt (c : Core) (t a : Nat) (bs : List Byte) : Core :=
  { c with sp := (c.sp.store (a % c.spSize) bs 0).portWrote t (a % c.spSize) bs.length }

/-- A core-port write of a core, after what its core follows. -/
def Core.spStore (c : Core) (a : Nat) (bs : List Byte) : Core := c.spStoreAt c.pipes.synced a bs

/-! ### Results landing (R57, R72, R299) -/

/-- The access of an id. -/
def Core.access (c : Core) (id : Nat) : Option Access := c.pipes.acc.find? fun a => decide (a.id = id)

/-- An access removed. -/
def Core.dropAccess (c : Core) (id : Nat) : Core :=
  { c with pipes := { c.pipes with acc := c.pipes.acc.filter fun a => decide (a.id ≠ id) } }

/-- The bytes a load has gathered. -/
def Access.bytes (a : Access) : List Byte := (a.pieces.map (·.bytes)).flatten

/-- A tag byte as a queue entry carries it: zero for untagged data (R132, R133). -/
def carriedTag (t : Byte) : Byte := if 128 ≤ t.toNat then t else 0

/-- The tag a carrying load's sectors agree on, zero for any other load (R300). -/
def Access.tag (a : Access) : Byte := if a.carry then carriedTag ((a.pieces.head?.map (·.tag)).getD 0) else 0

/-- A load's data has arrived. -/
def Core.arrived (c : Core) (id : Nat) : Bool := (c.access id).elim false (·.arrived)

/-- The engine sequencer of a command is stopped on a record: one agent, whichever of its commands met the fault (R338, R339). -/
def Core.seqStopped (c : Core) (x : Cmd) : Bool := c.pipes.cmds.any fun y => decide (y.slot = x.slot) && y.stop.isSome

/-- The matrix unit is stopped on a record: at a scale read or at a LATCHREED row (R338, R339). -/
def Core.unitStopped (c : Core) : Bool := c.mx.mmas.any (·.stop.isSome) || c.mx.reeds.any (·.stop.isSome)

/-- One result lands. -/
def Core.land (c : Core) (w : Landing) : Core :=
  match w with
  | .sreg d v => c.ws d v
  | .pred d v => c.wp d v
  | .push q es => c.setQueue q.toNat (c.queue q.toNat ++ es)
  | .maskPush v1 m => c.setMask v1 (m :: c.mask v1)
  | .spWrite a bs => c.spStore a bs
  | .loadQ q id =>
    match c.access id with
    | some a => (c.setQueue q.toNat (c.queue q.toNat ++ [⟨vecOfBytes a.bytes, a.tag, none⟩])).dropAccess id
    | none => c
  | .loadX dst id =>
    match c.access id with
    | some a => (c.spStoreAt (max c.pipes.synced (vget c.pipes.clocks a.queue.toNat)) dst a.bytes).dropAccess id
    | none => c
  | .stored _ => c

/-- The results due, in slot order (R57); two of one slot, of different bundles, in the order of issue (DESIGN CHOICE, log entry
133). -/
def dueInOrder (l : List Inflight) : List Inflight :=
  let d := l.filter fun i => decide (i.rem = 0)
  (List.range 8).flatMap fun k => d.filter fun i => decide (i.slot = k)

/-- What a piece of a window load of the core's own scratchpad finds there: bytes, tag, poison. -/
def Core.pieceNow (c : Core) (p : Piece) : Sect :=
  let o := p.addr.toNat % 2 ^ 20
  ⟨c.sp.mem.readBytes o p.len, c.sp.tags.read (o / 128), setHas (o / 128) c.sp.poison⟩

/-- A core-port store of bundle b that is about to land at n bytes from a leaves its bundle's window loads of the core's own
scratchpad, piece by piece, what they find now: bytes, tag and poison (R146, R132). -/
def Core.keepBefore (c : Core) (b a n : Nat) : Core :=
  let old := ((List.range n).map fun i => (a + i) % c.spSize).filter fun x => !c.sp.isFifo x
  let mine (x : Access) : Bool := decide (x.bundle = b) && !x.store && decide (x.space = .window)
  let meets (p : Piece) : Bool := !p.done && decide (p.addr.toNat / 2 ^ 20 % 128 + 128 * c.fen = c.key)
    && old.any fun o => decide (p.addr.toNat % 2 ^ 20 ≤ o) && decide (o < p.addr.toNat % 2 ^ 20 + p.len)
  let seen (x : Access) : List (Nat × Sect) :=
    (x.pieces.zipIdx.filter fun y => meets y.1 && !(x.before.any fun z => decide (z.1 = y.2))).map fun y => (y.2, c.pieceNow y.1)
  { c with pipes := { c.pipes with acc := mapIf mine (fun x => { x with before := x.before ++ seen x }) c.pipes.acc } }

/-- The ring of a bank is full (R105). -/
def Core.fifoFull (c : Core) (bank : Nat) : Bool :=
  decide ((vget c.sp.bank bank).mode = 2) && decide (1024 ≤ (vget c.sp.fifo bank).count)

/-- The ring of a bank is empty (R105). -/
def Core.fifoEmpty (c : Core) (bank : Nat) : Bool :=
  decide ((vget c.sp.bank bank).mode = 2) && decide ((vget c.sp.fifo bank).count = 0)

/-- A core-port write of n bytes at a cannot enter: a bank it writes is a full FIFO (R105). -/
def Core.storeWaits (c : Core) (a n : Nat) : Bool := (partsOf (a % c.spSize) n).any fun p => c.fifoFull (bankOf p.1)

/-- A store may yet stop the core: its access stands, has not begun, and has not been checked at its due cycle (R299). -/
def Access.unchecked (a : Access) : Bool := a.store && !a.checked && !a.pieces.any (·.done)

/-- One due result: it lands, unless it is a load whose data has not arrived, a push behind one, or a write for which a full FIFO has
no room, which holds the core as the freeze line does (R105). The due cycle of a store passes once the store has been checked. -/
def landStep (st : Core × List Inflight × List Nat) (i : Inflight) : Core × List Inflight × List Nat :=
  let (c, keep, blocked) := st
  let stay (q : List Nat) := (c, keep ++ [i], q ++ blocked)
  match i.what with
  | .loadQ q id => if c.arrived id && !setHas q.toNat blocked then (c.land i.what, keep, blocked) else stay [q.toNat]
  | .push q _ => if setHas q.toNat blocked then stay [] else (c.land i.what, keep, blocked)
  | .loadX d id =>
    if c.arrived id && !c.storeWaits d ((c.access id).elim 0 fun a => a.bytes.length) then (c.land i.what, keep, blocked) else stay []
  | .sreg _ _ => (c.land i.what, keep, blocked)
  | .pred _ _ => (c.land i.what, keep, blocked)
  | .maskPush _ _ => (c.land i.what, keep, blocked)
  | .stored id => if (c.access id).elim false (·.unchecked) then stay [] else (c, keep, blocked)
  | .spWrite a bs =>
    if c.storeWaits a bs.length then stay [] else ((c.keepBefore i.bundle a bs.length).land i.what, keep, blocked)

/-- Every result due at the core's schedule cycle lands. -/
def Core.landDue (c : Core) : Core :=
  let (c', keep, _) := (dueInOrder c.pipes.inflight).foldl landStep (c, [], [])
  { c' with pipes := { c'.pipes with
      inflight := keep ++ c.pipes.inflight.filter fun i => decide (i.rem ≠ 0) } }

/-- A landing is a result: all are, but a store's due cycle. -/
def Landing.isResult : Landing → Bool
  | .stored _ => false
  | .sreg _ _ => true
  | .pred _ _ => true
  | .push _ _ => true
  | .maskPush _ _ => true
  | .spWrite _ _ => true
  | .loadQ _ _ => true
  | .loadX _ _ => true

/-- A due result has not landed: the freeze line is up (R46). -/
def Core.lateLoad (c : Core) : Bool := c.pipes.inflight.any fun i => decide (i.rem = 0) && i.what.isResult

/-! ### Freezes, waits and late faults (R46, R335, R346) -/

/-- A freeze, whichever queue it is for. -/
def Wait.isFreeze : Wait → Bool
  | .freeze _ => true
  | .token _ => false
  | .counter _ _ => false
  | .barrier _ => false
  | .mailbox => false
  | .launchSlot => false
  | .scoreboard _ _ => false
  | .claim => false

/-- A note of one cycle more: one of the same wait goes on, any other begins (R346). A freeze that goes on is one freeze, and names what
it is for now (DESIGN CHOICE, log entry 58). -/
def noteOn (n : Option WaitNote) (w : Wait) (slot : Nat) (scyc : Word) : Option WaitNote :=
  match n with
  | some x =>
    if x.what = w ∨ (x.what.isFreeze ∧ w.isFreeze) then some { x with what := w, held := x.held + 1 } else some ⟨w, slot, scyc, 1, false⟩
  | none => some ⟨w, slot, scyc, 1, false⟩

/-- The further waits of the bundle that a wait holds, each under a note of its own (R346): w becomes the wait in force. -/
def Core.noteOthers (c : Core) (w : Wait) (l : List (Wait × Nat)) : Core :=
  let all := c.wait.toList ++ c.waits
  if all.isEmpty && l.isEmpty then c
  else { c with
    wait := all.find? fun n => decide (n.what = w)
    waits := l.filterMap fun x => noteOn (all.find? fun n => decide (n.what = x.1)) x.1 x.2 c.scyc }

/-- The note of the wait that holds the bundle in this cycle. -/
def Core.noteWait (c : Core) (w : Wait) (slot : Nat) : Core := { c with wait := noteOn c.wait w slot c.scyc }

/-- The freeze line is up: nothing of the core moves (R46). A wait in force stays in force (R164). -/
def State.freezeCycle (s : State) (q : Byte) : State :=
  let c := s.core
  { s with
    core := { c with
      frozen := true
      ran := c.ran + 1
      freeze := noteOn c.freeze (.freeze q) 0 c.scyc
      wait := c.wait.map fun n => { n with held := n.held + 1 }
      waits := c.waits.map fun n => { n with held := n.held + 1 }
      pipes := { c.pipes with now := [] } }
    iss := Issue.reset }

/-- The core stops before its next bundle for a direct form that faulted after its bundle committed (R335). A wait or a freeze that
holds that bundle stays in force, with what the bundle read when it first reached issue (R164, R232, R296, R334, R346). -/
def State.stopDirect (s : State) (r : FaultRec) : State :=
  let c := s.core
  let r := { r with pc := c.pc, scyc := c.scyc, hmode := c.held.isSome }
  let t := { s with core := { c with dfFault := none, dfPast := false } }.stopCore r
  { t with core := { t.core with
      wait := c.wait, waits := c.waits, freeze := c.freeze, cmdWait := c.cmdWait, fetched := c.fetched } }

/-! ### The sequencer (R224 to R227) -/

/-- An address within the body of a level (R225): from its first bundle to its last, whether or not a bundle of the body begins there
(DESIGN CHOICE, log entry 140). -/
def LoopLevel.holds (l : LoopLevel) (a : Addr) : Bool := l.active && decide (l.first ≤ a) && decide (a ≤ l.last)

/-- The levels, innermost first. -/
def levels : List Nat := [0, 1, 2, 3, 4, 5]

/-- Some active level's body holds the address. -/
def LoopSeq.inBody (ls : LoopSeq) (a : Addr) : Bool := levels.any fun l => (vget ls.lv l).holds a

/-- The loop buffer keeps the bundles of active bodies only. -/
def LoopSeq.prune (ls : LoopSeq) : LoopSeq := { ls with buf := ls.buf.filter fun b => ls.inBody b.1 }

/-- A level deactivated; the level 0 of a LOOPP clears the stage predicates and pass counts (R225, R227). -/
def LoopSeq.deactivate (ls : LoopSeq) (l : Nat) : LoopSeq :=
  let v := vget ls.lv l
  let ls := { ls with lv := vset ls.lv l { v with active := false, piped := false } }
  if v.piped then { ls with sg := 0, plc := 0, pec := 0 } else ls

/-- The end of one pass of a level's body: the next address when the level goes round again. -/
def LoopSeq.pass (ls : LoopSeq) (l : Nat) : LoopSeq × Option Addr :=
  let v := vget ls.lv l
  let again (ls : LoopSeq) := ({ ls with lv := vset ls.lv l { v with lidx := v.lidx + 1 } }, some v.first)
  if v.piped then
    if ls.plc ≠ 0 then
      again { ls with plc := ls.plc - 1, sg := ((ls.sg <<< 1) ||| 1) &&& BitVec.ofNat 8 (2 ^ ls.stages - 1) }
    else if ls.pec ≠ 0 then
      again { ls with pec := ls.pec - 1, sg := (ls.sg <<< 1) &&& BitVec.ofNat 8 (2 ^ ls.stages - 1) }
    else (ls.deactivate l, none)
  else if v.lidx.toNat + 1 < v.lcnt.toNat then again ls
  else (ls.deactivate l, none)

/-- The end-of-body step for the bundle at x (R225): innermost first, until a level goes round again. -/
def LoopSeq.endStep (ls : LoopSeq) (x : Addr) : LoopSeq × Option Addr :=
  levels.foldl
    (fun (st : LoopSeq × Option Addr) l =>
      match st.2 with
      | some _ => st
      | none =>
        let v := vget st.1.lv l
        if v.active && decide (v.last = x) then st.1.pass l else st)
    (ls, none)

/-- A taken transfer deactivates every level whose body does not hold the target (R225). -/
def LoopSeq.transfer (ls : LoopSeq) (target : Addr) : LoopSeq :=
  levels.foldl
    (fun (ls : LoopSeq) l =>
      let v := vget ls.lv l
      if v.active && !v.holds target then ls.deactivate l else ls) ls

/-- The outermost active level's first address, or a. -/
def LoopSeq.outerFirst (ls : LoopSeq) (a : Addr) : Addr :=
  levels.foldl (fun acc l => let v := vget ls.lv l; if v.active then v.first else acc) a

/-- The address of the k-th bundle after the one at pc (R190), modulo 2^57 past the top of the space (DESIGN CHOICE, log entry 138). -/
def bundleAt (pc : Addr) (k : Nat) : Addr := pc + BitVec.ofNat 57 (24 * k)

/-- A level activated for the len bundles after pc (R224, R227). -/
def LoopSeq.activate (ls : LoopSeq) (l : Nat) (piped : Bool) (count : BitVec 16) (pc : Addr) (len : Nat) :
    LoopSeq :=
  let first := bundleAt pc 1
  let last := bundleAt pc len
  let o := ls.outerFirst first
  let idx (a : Addr) : BitVec 6 := BitVec.ofNat 6 ((a - o).toNat / 24)
  { ls with lv := vset ls.lv l ⟨true, piped, count, 0, first, last, idx first, idx last⟩ }

end Sys2Proof.Machine
end

