-- ==== Sys2Proof/Machine/Kept.lean ====
section
/-! DEFINITION. Kept forms (R123 to R131): the reader table's entries, the grid of R130, and kept_check. -/

namespace Sys2Proof.Machine

/-- A fault met by an access: what its record says (R340, R363). -/
structure FaultInfo where
  code : Nat
  cause : Nat
  repl : Bool
  i0 : Word
  i1 : Word
  ext : Nat
  deriving DecidableEq, Repr, Inhabited

/-! ### Tag and entry fields (R123, R124) -/

def tagV (t : Byte) : Bool := bit t 7
def tagForm (t : Byte) : Nat := bits t 6 4
def tagIdx (t : Byte) : Nat := bits t 3 0

/-- The tag of a kept sector. -/
def mkTag (form idx : Nat) : Byte := BitVec.ofNat 8 (128 + form % 8 * 16 + idx % 16)

/-- The mixed tag of a port entry whose sectors disagree (R59, R132). -/
def mixedTag : Byte := 0x80

def ktReader (e : BitVec 32) : Nat := bits e 31 20
def ktForm (e : BitVec 32) : Nat := bits e 19 17
def ktEtype (e : BitVec 32) : Nat := bits e 16 14
def ktPwin (e : BitVec 32) : Nat := bits e 13 10
def ktCb (e : BitVec 32) : Nat := bits e 9 8
def ktEn (e : BitVec 32) : Bool := bit e 0

/-- The pool window of an entry: height and width. -/
def ktWindow (e : BitVec 32) : Nat × Nat := (bits e 13 12 + 1, bits e 11 10 + 1)

/-- The width in bits of an element type code (R124). -/
def etypeBits : Nat → Nat
  | 0 => 16
  | 1 => 16
  | 2 => 8
  | 3 => 8
  | _ => 32

/-- PWIN and CB obey the rule of the entry's form (R124). -/
def ktFieldsOk (e : BitVec 32) : Bool :=
  match ktForm e with
  | 1 => decide (ktPwin e = 0) && decide (ktCb e = 0)
  | 2 => decide (ktPwin e = 5) && decide (ktCb e = 0)
  | 3 => decide (ktCb e = 0)
  | 4 => decide (ktPwin e = 0) && decide (ktCb e = 0)
  | 5 => decide (ktPwin e = 0)
  | 6 => decide (ktCb e = 0)
  | _ => true

/-! ### Readers (R125, R130) -/

/-- The readers of R130. -/
inductive Reader where
  | vrelub | vdropb | vmpoolb | vgelub | vsmaxb | vlnormb | mmaB
  deriving DecidableEq, Repr, Inhabited

/-- The reader code of a V op (R125). -/
def vReader (op : Nat) : Nat := 0x400 + op

/-- The reader code of an M instruction: op field and variant bits [6:2] (R125). -/
def mReader (op variant : Nat) : Nat := 0x800 + op / 8 * 256 + op % 8 * 32 + variant / 4 % 32

/-- Which reader a code names, and the width class of its V type: some for each row of R130's grid. The V codes
are those of R202; an M code with op 1 to 5 names an MMA, and its B operand is read from a bank group only
when BBANK (variant bit 5) is set; variant [4:2] is zero in every M instruction (R285). -/
def readerOf (code : Nat) : Option Reader :=
  if code / 256 = 4 then
    match code % 256 with
    | 0xBD => some .vrelub
    | 0xBE => some .vrelub
    | 0xC3 => some .vdropb
    | 0xC4 => some .vdropb
    | 0xBF => some .vmpoolb
    | 0xC0 => some .vmpoolb
    | 0xC1 => some .vgelub
    | 0xC2 => some .vgelub
    | 0xC5 => some .vsmaxb
    | 0xC6 => some .vsmaxb
    | 0xC7 => some .vlnormb
    | 0xC8 => some .vlnormb
    | _ => none
  else if code / 256 = 8 && decide (1 ≤ code / 32 % 8) && decide (code / 32 % 8 ≤ 5) && decide (code / 8 % 2 = 1)
      && decide (code % 8 = 0) then
    some .mmaB
  else none

/-- The grid of R130 serves the pair of a form and a reader. -/
def gridServes (form : Nat) (r : Reader) : Bool :=
  match form, r with
  | 1, .vrelub => true
  | 1, .vdropb => true
  | 2, .vmpoolb => true
  | 3, .vmpoolb => true
  | 4, .vgelub => true
  | 4, .vsmaxb => true
  | 4, .vlnormb => true
  | 4, .mmaB => true
  | 5, .mmaB => true
  | 6, _ => true
  | _, _ => false

/-- The grid serves the pair of a form and a reader code. -/
def served (form code : Nat) : Bool := (readerOf code).elim false (gridServes form)

/-- What an access says of itself to kept_check: its reader code (0 for none), whether it carries tags, and
whether a condition of its grid cell holds of an entry. -/
structure Presented where
  code : Nat
  carry : Bool
  ok : BitVec 32 → Bool

/-- An access that is not a reader. -/
def Presented.none : Presented := ⟨0, false, fun _ => true⟩

/-- An access that carries tags with payloads. -/
def Presented.carrying : Presented := ⟨0, true, fun _ => true⟩

/-- The outcome of kept_check. -/
inductive KeptResult where
  | untagged
  | carried (t : Byte)
  | served (e : BitVec 32) (t : Byte)
  | fault (cause : Nat) (t : Byte)
  deriving DecidableEq, Repr, Inhabited

/-- kept_check (R131) over the tags of all sectors read, in ascending address order. -/
def keptCheck (kt : Vector (BitVec 32) 16) (p : Presented) (ts : List Byte) : KeptResult :=
  match ts.find? tagV with
  | none => .untagged
  | some t =>
    if ts.any (fun x => decide (x ≠ t)) then .fault 7 t
    else if p.carry then .carried t
    else if p.code = 0 then .fault 1 t
    else
      let e := vget kt (tagIdx t)
      if tagIdx t = 0 || !ktEn e then .fault 2 t
      else if ktForm e ≠ tagForm t || decide (ktForm e = 0) || decide (ktForm e = 7) then .fault 3 t
      else if ktReader e ≠ p.code then .fault 4 t
      else if !served (ktForm e) p.code then .fault 5 t
      else if !ktFieldsOk e || !p.ok e then .fault 6 t
      else .served e t

/-- INFO1 of a FLT_KEPT record (R341). -/
def keptInfo1 (code : Nat) (t : Byte) : Word := BitVec.ofNat 64 (tagIdx t + code % 4096 * 16 + t.toNat * 65536)

/-- A FLT_KEPT at the given INFO0 (R341). -/
def keptFault (cause code : Nat) (t : Byte) (i0 : Word) : FaultInfo := ⟨0x09, cause, true, i0, keptInfo1 code t, 0⟩

/-- INFO0 of a FLT_KEPT for local scratchpad (R341, R402). -/
def keptSpInfo (a : Nat) : Word := BitVec.ofNat 64 (2 ^ 62 + a % 2 ^ 20)

/-- INFO0 of a FLT_KEPT for a queue entry (R341). -/
def keptQueueInfo (q : Nat) (operandB : Bool) : Word := BitVec.ofNat 64 (2 ^ 63 + q + 16 * b2n operandB)

/-- INFO0 of a FLT_KEPT for memory read by physical address (R341). -/
def keptPhysInfo (pa : Nat) : Word := BitVec.ofNat 64 (2 ^ 61 + pa % 2 ^ 48)

/-- The check of an access that is not a reader, over the sectors it read. -/
def keptPlain (ts : List Byte) (i0 : Word) : Option FaultInfo :=
  match ts.find? tagV with
  | none => none
  | some t => some (keptFault (if ts.any (fun x => decide (x ≠ t)) then 7 else 1) 0 t i0)

/-- A fault of the executing slot raised from a FaultInfo. -/
def State.raiseInfo (s : State) (f : FaultInfo) : State := s.issueFault f.code f.cause f.repl f.i0 f.i1

/-- FLT_POISON for a scratchpad sector (R363): INFO1 the owner's global logical number. -/
def spPoison (owner a : Nat) : FaultInfo :=
  ⟨0x30, 3, true, BitVec.ofNat 64 (2 ^ 63 + a % 2 ^ 20), BitVec.ofNat 64 (owner % 4096), 0⟩

/-- A store that writes part of a poisoned sector fails (R362); in a bank in FIFO mode it pushes an entry instead (R105; log entry 109). -/
def State.storePoison (s : State) (a n : Nat) : State :=
  match (partsOf a n).find? fun p => decide (p.2 ≠ 128) && !s.core.sp.isFifo p.1 && setHas (p.1 / 128) s.core.sp.poison with
  | some p => s.raiseInfo (spPoison s.core.lcore.toNat p.1)
  | none => s

end Sys2Proof.Machine
end

