-- ==== Sys2Proof/Machine/Table.lean ====
section
/-! DEFINITION. The context table (R185): the counters that WLKST shows, the access codes of an entry's words, and an entry's
bytes read and written; and messages to peer devices (R379 to R381). -/

namespace Sys2Proof.Machine

/-! ### WLKST, LNCHST and the reader table (R36, R124, R160) -/

/-- Launches of a context that its walker has taken and that have not completed. -/
def State.taken (s : State) (n : Nat) : Nat := s.launches.countP fun l => decide (l.ctx.toNat = n)

/-- Ready nodes of a context not yet dispatched, over all fens (R160). -/
def State.readyCount (s : State) (n : Nat) : Nat :=
  (s.fens.toList.map fun f => f.ready.countP fun r => decide (r.ctx.toNat = n)).sum

/-- WLKST of a context (R160): XDEC as kept, RDY and LOUT as they stand. A launch that the walker has not accepted yet adds nothing
(R342). -/
def State.wlkst (s : State) (n : Nat) : Word :=
  BitVec.ofNat 64
    (bits (vget s.ctxs n).wlkst 63 32 * 2 ^ 32 + satTo 0xFFFF (s.readyCount n) * 2 ^ 16 + satTo 64 (s.taken n))

/-- A software write to LNCHST under its access codes (R36). -/
def lnchstWrite (old v : Word) : Word :=
  (v &&& 0xFFFFFFFFFFFF0000) ||| (old &&& ~~~v &&& 1)

/-- A software write to WLKST: XDEC alone (R160). -/
def wlkstWrite (old v : Word) : Word := (v &&& 0xFFFFFFFF00000000) ||| (old &&& 0xFFFFFFFF)

/-- A software write to a reader-table entry: [7:1] read zero (R124). -/
def ktWrite (v : BitVec 32) : BitVec 32 := v &&& 0xFFFFFF01

/-! ### An entry's bytes (R185) -/

/-- The bytes of a context-table entry. -/
def State.entryBytes (s : State) (n : Nat) : List Byte :=
  let x := vget s.ctxs n
  natToBytes 16 (x.state.toNat + x.entry.toNat * 2 ^ 7 + x.home.toNat * 2 ^ 87 + x.root.toNat * 2 ^ 92)
    ++ bvBytes x.lnchst ++ bvBytes (s.wlkst n) ++ bvBytes x.energy ++ bvBytes x.thnd ++ bvBytes x.limits ++ bvBytes x.savb
    ++ (x.kt.toList.drop 1).flatMap bvBytes ++ bvBytes x.csts ++ bvBytes x.mbent ++ List.replicate 120 0

/-- Bytes [a, a + k) of an entry as a number. -/
def entryField (bs : List Byte) (a k : Nat) : Nat := bytesToNat ((bs.drop a).take k)

/-- A write to an entry, but for STATE, under each word's access code: `bs` its bytes with the written ones in place, and which
bytes are written. While STATE is 2 the descriptor stays. -/
def Ctx.store (x : Ctx) (bs : List Byte) (w : Nat → Bool) : Ctx :=
  let wrote (a k : Nat) : Bool := (List.range k).any fun i => w (a + i)
  let word (a : Nat) : Word := BitVec.ofNat 64 (entryField bs a 8)
  let ovf : Word := if w 16 then word 16 else word 16 &&& 0xFFFFFFFFFFFFFFFE
  let v := entryField bs 0 16
  let open_ := wrote 0 16 && decide (x.state ≠ 2)
  { x with
    root := if open_ then BitVec.ofNat 36 (v / 2 ^ 92) else x.root
    home := if open_ then BitVec.ofNat 5 (v / 2 ^ 87) else x.home
    entry := if open_ then BitVec.ofNat 57 (v / 2 ^ 7) else x.entry
    lnchst := if wrote 16 8 then lnchstWrite x.lnchst ovf else x.lnchst
    wlkst := if wrote 24 8 then wlkstWrite x.wlkst (word 24) else x.wlkst
    thnd := word 40
    limits := word 48
    savb := word 56
    kt := Vector.ofFn fun i : Fin 16 => if i.val = 0 then 0 else ktWrite (BitVec.ofNat 32 (entryField bs (60 + 4 * i.val) 4))
    mbent := word 128 }

/-- The context whose table entry holds a physical address, once CTXB is written. -/
def State.entryOf (s : State) (pa : Nat) : Option Nat :=
  let b := s.pkg.ctxb.toNat
  if s.pkg.ctxbSet && decide (b ≤ pa) && decide (pa < b + 16384) then some ((pa - b) / 256) else none

/-- A byte of an entry. -/
def State.entryByte (s : State) (n pa : Nat) : Byte := (s.entryBytes n).getD ((pa - s.pkg.ctxb.toNat) % 256) 0

/-- A byte of an entry stored by an agent of the device: STATE is the host's alone (DESIGN CHOICE, log entry 100). -/
def State.entryPut (s : State) (n pa : Nat) (b : Byte) : State :=
  let off := (pa - s.pkg.ctxb.toNat) % 256
  s.onCtx n fun x => x.store ((s.entryBytes n).set off b) fun i => decide (i = off)

/-- CTXB is written: the entries that it named stand in memory again, and those at the new base are what stands there; the entry
of a context that runs, or is torn down, goes with the device (DESIGN CHOICE, log entry 100). -/
def State.setCtxb (s : State) (v : Word) : State :=
  let old := s.pkg.ctxb.toNat
  let ns := List.range 64
  let s := if s.pkg.ctxbSet then ns.foldl (fun t n => { t with mem := t.mem.writeBytes (old + 256 * n) (s.entryBytes n) }) s else s
  let b := v &&& 0x0000FFFFFFFFC000
  let load (s : State) (n : Nat) : State :=
    let bs := s.mem.readBytes (b.toNat + 256 * n) 256
    if 2 ≤ (vget s.ctxs n).state.toNat then s
    else s.onCtx n fun x => { x.store bs fun i => decide (i < 16) || decide (40 ≤ i) with
      state := if entryField bs 0 1 % 4 = 1 then 1 else 0 }
  let s := ns.foldl load s
  { s with pkg := { s.pkg with ctxb := b, ctxbSet := true } }

/-! ### Messages to peer devices -/

/-- The port that carries traffic to a device: that of its route (R380). -/
def State.portTo (s : State) (dev : DevNo) : Option Nat := (vget s.routes dev.toNat).map (·.val)

/-- The bytes that a flit's CRC covers: the payload, and trailer bits [95:0] (R379). -/
def flitTrailer (f : Flit) : BitVec 96 :=
  BitVec.ofNat 96 (f.dst.toNat * 2 ^ 42 + f.src.toNat * 2 ^ 48 + f.crd.toNat * 2 ^ 54 + f.kind.toNat * 2 ^ 62 + f.vc.toNat * 2 ^ 65
    + b2n f.nak * 2 ^ 68 + f.avc.toNat * 2 ^ 69 + f.ack.toNat * 2 ^ 72 + f.seq.toNat * 2 ^ 84)

/-- One byte of a CRC-32C (Castagnoli), reflected. -/
def crcByte (c : BitVec 32) (b : Byte) : BitVec 32 :=
  (List.range 8).foldl (fun c _ => if bit c 0 then (c >>> 1) ^^^ 0x82F63B78 else c >>> 1) (c ^^^ b.setWidth 32)

/-- CRC-32C of bytes. -/
def crc32c (bs : List Byte) : BitVec 32 := ~~~(bs.foldl crcByte 0xFFFFFFFF)

/-- The CRC of a flit (R379). -/
def flitCrc (f : Flit) : BitVec 32 := crc32c (bvBytes (Config.payload f.body) ++ bvBytes (flitTrailer f))

/-- A flit's 16-byte trailer (R379). -/
def flitTail (f : Flit) : BitVec 128 := f.crc ++ flitTrailer f

/-- A flit with its CRC. -/
def sealFlit (f : Flit) : Flit := { f with crc := flitCrc f }

/-- A flit with what its port says of channel AVC: the last SEQ accepted on it, and the credits that it returns (R379). -/
def Port.fill (p : Port) (f : Flit) : Flit :=
  let a := f.avc.toNat
  sealFlit { f with ack := vget p.rxSeq a, crd := BitVec.ofNat 8 (min 255 (vget p.credits a)) }

/-- A filled flit on its way. -/
def Port.launch (p : Port) (f : Flit) : Port :=
  let a := f.avc.toNat
  { p with credits := vset p.credits a (vget p.credits a - f.crd.toNat), wire := p.wire ++ [f] }

/-- A message becomes the next flit of its channel. -/
def Port.push (p : Port) (m : OutMsg) : Port :=
  let v := m.vc.toNat
  let seq := vget p.nextSeq v
  let f := p.fill ⟨0, seq, 0, m.vc, false, m.vc, m.kind, 0, m.src, m.dst, m.body⟩
  Port.launch { p with unacked := vset p.unacked v (vget p.unacked v ++ [f]), nextSeq := vset p.nextSeq v (seq + 1) } f

/-- One waiting message is sent if a port that is up carries it, no older message to its device waits on its channel, and that
channel holds fewer than 2,048 unacknowledged flits (R381); a port that retrains holds its channels (R382). -/
def State.pumpOne (st : State × List OutMsg) (m : OutMsg) : State × List OutMsg :=
  let stay := (st.1, st.2 ++ [m])
  match st.1.portTo m.dst with
  | none => stay
  | some p =>
    let x := vget st.1.ports p
    if decide (bits x.status 17 16 ≠ 2) || x.training || decide (2048 ≤ (vget x.unacked m.vc.toNat).length)
        || st.2.any (fun y => decide (y.dst = m.dst) && decide (y.vc = m.vc)) then stay
    else ({ st.1 with ports := vset st.1.ports p (x.push m) }, st.2)

/-- Waiting messages leave in order, each on its channel. -/
def State.pump (s : State) : State :=
  let r := s.out.foldl State.pumpOne ({ s with out := [] }, [])
  { r.1 with out := r.2 }

/-- Every little-endian word of a sector differs from word 0 by a signed value of k bits (R108). -/
def deltasFit (k : Nat) (v : BitVec 1024) : Bool :=
  let word (i : Nat) : BitVec 32 := v.extractLsb' (32 * i) 32
  (List.range 32).all fun i => let d := (word i - word 0).toInt; decide (-(2 ^ (k - 1) : Int) ≤ d) && decide (d < (2 ^ (k - 1) : Int))

/-- The elements of 16 bits of a sector have at most two values of bits [14:7] (R108). -/
def twoExponents (v : BitVec 1024) : Bool :=
  decide (((List.range 64).map fun i => bits v (16 * i + 14) (16 * i + 7)).eraseDups.length ≤ 2)

/-- The smallest encoding that fits a sector (R108): the table lists them from the smallest to the largest. Bytes that are less than a
sector are taken with zeros after them (DESIGN CHOICE, log entry 141). -/
def sectorEnc (bs : List Byte) : SectorEnc :=
  let v : BitVec 1024 := BitVec.ofNat 1024 (bytesToNat bs)
  if v = 0 then .zero
  else if deltasFit 8 v then .delta8
  else if deltasFit 16 v then .delta16
  else if twoExponents v then .dedupe
  else .raw

/-- The header of a sector on a link (R379): its tag, its poison, its encoding (R108) and its CRC-16 (R374). -/
def sectorHeader (bs : List Byte) (tag : Byte) (bad : Bool) : SectorHeader := ⟨tag, bad, sectorEnc bs, Config.sectorCrc bs tag⟩

/-- The bytes that a control message of no fixed length carries, its routing words apart. -/
def bodySize : FlitBody → Nat
  | .skinkPost _ _ _ _ _ counts => 4 * counts.length
  | .skinkForward _ _ _ _ counts => 4 * counts.length
  | .issue _ _ _ x => 4 * (x.d.map List.length).sum
  | .calendar _ _ c => 64 + 16 * c.phases.length
  | _ => 0

/-- The flits of a message: as many as its bytes need at 240 a flit (R379; DESIGN CHOICE, log entry 117). -/
def bodyFlits (b : FlitBody) : List FlitBody :=
  let n := (bodySize b + 239) / 240
  if n ≤ 1 then [b] else (List.range n).map fun i => .part b i n

/-- A message to a peer device. -/
def State.sendTo (s : State) (dev : DevNo) (vc kind : Nat) (body : FlitBody) : State :=
  State.pump { s with out := s.out ++ (bodyFlits body).map (OutMsg.mk Config.deviceNo dev (BitVec.ofNat 3 vc) (BitVec.ofNat 3 kind)) }

end Sys2Proof.Machine
end

