-- ==== Sys2Proof/Machine/Vm.lean ====
section
/-! DEFINITION. Physical memory and translation: the address map, home dies, the page walk and the TLBs,
compressed mire pages, and one read or write piece of physical memory (R100, R106 to R120, R362, R373). -/

namespace Sys2Proof.Machine

/-! ### The physical address map (R100) -/

/-- Where a physical address lies. -/
inductive Tier where
  | hbm (die : Nat)
  | mire (port : Nat)
  | lease (lender : Nat)
  | absent
  deriving DecidableEq, Repr, Inhabited

/-- The bytes of HBM of a die: 120 GB, or 112 GB once a group is re-striped (R100, R371). -/
def Die.hbmSize (d : Die) : Nat := if d.restriped.isEmpty then 120000000000 else 112000000000

/-- A die is lost (R184, R386). -/
def State.dieLost (s : State) (d : Nat) : Bool := bit s.pkg.mgst (1 + d)

/-- The host sees the device: it has booted, or the second half of the boot is still to come, is not in recovery, and die 0 with its
host link is not lost (R28, R180, R400). -/
def State.visible (s : State) : Bool :=
  (decide (s.pkg.bootStep = 0) || decide (s.pkg.bootStep = 5)) && !s.pkg.recovery && !s.dieLost 0

/-- The mire port, and the home die less one, of a mire address: lines of 256 bytes interleave across the four ports (R106, R115). -/
def mirePort (pa : Nat) : Nat := (pa / 2 ^ 8 % 4) ^^^ (pa / 2 ^ 16 % 4)

/-- The tier of a physical address: HBM, the 8 TiB of the mire (R115) or a lease window; a range lost with its die is absent (R364). -/
def State.tier (s : State) (pa : Nat) : Tier :=
  let d := pa / 2 ^ 37
  if d < 6 then
    if decide (pa % 2 ^ 37 < (vget s.dies d).hbmSize) && !s.dieLost d then .hbm d else .absent
  else if 0x100000000000 ≤ pa ∧ pa ≤ 0x17FFFFFFFFFF then
    if s.dieLost (mirePort pa + 1) then .absent else .mire (mirePort pa)
  else if 0x400000000000 ≤ pa ∧ pa < 0x400000000000 + 64 * 2 ^ 40 then .lease ((pa - 0x400000000000) / 2 ^ 40)
  else .absent

/-- The home die of a physical address (R106). -/
def State.homeDie (s : State) (pa : Nat) : Nat :=
  match s.tier pa with
  | .hbm d => d
  | .mire p => p + 1
  | .lease n => n % 6
  | .absent => 0

/-- The lease this device borrows that covers a window address, the newest first. -/
def State.leaseAt (s : State) (pa : Nat) : Option Lease :=
  s.leases.find? fun l => l.mine && decide (l.win.toNat ≤ pa) && decide (pa < l.win.toNat + l.units.toNat * 2 ^ 21)

/-- FLT_POISON for memory (R363, R364): EXT is the address of the sector. -/
def poisonFault (cause : Nat) (va : Word) (pa : Nat) : FaultInfo :=
  ⟨0x30, cause, true, va, BitVec.ofNat 64 pa, pa / 128 * 128⟩

/-- The cause of R364 for a poisoned sector. -/
def poisonCause : Tier → Nat
  | .hbm _ => 1
  | .mire _ => 4
  | .lease _ => 5
  | .absent => 7

/-- The fault of a poisoned sector: FLT_CPRS after a failed expansion, cause 2 in place in L2, else by its tier (R363,
R364, R374). -/
def State.sectorFault (s : State) (va : Word) (pa : Nat) : FaultInfo :=
  match s.flaws.find? fun x => decide (x.1 = pa / 128) with
  | some (_, .expansion) => ⟨0x31, 1, true, va, BitVec.ofNat 64 pa, pa / 128 * 128⟩
  | some (_, .l2) => poisonFault 2 va pa
  | none => poisonFault (poisonCause (s.tier pa)) va pa

/-- Whether an access of one sector at pa is served at all: absent memory, an expired lease or a mire port that is
down stops it (R100, R153, R362, R375). A lease window whose home die (R106) is lost is served all the same: DESIGN CHOICE,
log entry 93. -/
def State.reachable (s : State) (va : Word) (pa : Nat) : Option FaultInfo :=
  match s.tier pa with
  | .absent => some (poisonFault 7 va pa)
  | .hbm _ => none
  | .mire p => if vget s.mireUp p then none else some (poisonFault 4 va pa)
  | .lease _ =>
    match s.leaseAt pa with
    | some l => if l.expired then some ⟨0x0B, 0, true, va, l.lid.setWidth 64, 0⟩ else none
    | none => some ⟨0x0B, 0, true, va, 0, 0⟩

/-! ### Placement of lines (R107, R371) -/

def Die.phase (d : Die) : Nat := bits d.retst 63 62
def Die.retChan (d : Die) : BitVec 6 := d.retst.extractLsb' 55 6
def Die.retGroup (d : Die) : Nat := bits d.retst 54 53
def Die.wmark (d : Die) : Nat := bits d.retst 29 7

/-- The parity group of a channel. -/
def groupOf (c : BitVec 6) : Nat := c.toNat / 16

/-- The channel around which line k of a group is placed: one that has been re-striped, or, below WMARK, the one that is
being re-striped. -/
def Die.around (d : Die) (g k : Nat) : Option (BitVec 6) :=
  match d.restriped.find? fun c => decide (groupOf c = g) with
  | some c => some c
  | none => if d.phase = 2 ∧ d.retGroup = g ∧ k / 14 < d.wmark then some d.retChan else none

/-- The channels of a group in order, without the one given. -/
def groupChannels (g : Nat) (skip : Option (BitVec 6)) : List (BitVec 6) :=
  ((List.range 16).map fun i => BitVec.ofNat 6 (16 * g + i)).filter fun c => decide (some c ≠ skip)

/-- Where a line lies: its group, the channels of its stripe, the stripe, and its position there. -/
structure LinePlace where
  group : Nat
  chans : List (BitVec 6)
  stripe : Nat
  pos : Nat
  deriving DecidableEq, Repr, Inhabited

/-- The placement of the line at a die-local offset. -/
def Die.place (d : Die) (off : Nat) : LinePlace :=
  let l := off / 256
  let g := l % 4
  let k := l / 4
  let ch := groupChannels g (d.around g k)
  let nd := ch.length - 1
  let s := k / nd
  let j := k % nd
  let pc := s % ch.length
  ⟨g, ch, s, if j < pc then j else j + 1⟩

def LinePlace.channel (p : LinePlace) : BitVec 6 := p.chans.getD p.pos 0

/-- The DRAM row of a line in its channel. -/
def LinePlace.row (p : LinePlace) : Nat := p.stripe / 8

/-- The die-local offset of the line at a position of the same stripe; none for the parity line. -/
def LinePlace.lineAt (p : LinePlace) (pos : Nat) : Option Nat :=
  let n := p.chans.length
  let pc := p.stripe % n
  if pos = pc ∨ n ≤ pos then none
  else some (256 * (4 * (p.stripe * (n - 1) + if pos < pc then pos else pos - 1) + p.group))

/-- The retired channel of a degraded stripe: one that its placement still uses (R370). -/
def Die.lostChannel (d : Die) (p : LinePlace) : Option (BitVec 6) := d.retired.find? fun c => decide (c ∈ p.chans)

/-! ### Poison, and stripes that cannot be rebuilt (R361, R365, R370) -/

/-- The sector of the same half of the line at a position of the stripe. -/
def stripeSector (die : Nat) (p : LinePlace) (pa pos : Nat) : Option Nat :=
  (p.lineAt pos).map fun off => (die * 2 ^ 37 + off + pa % 256) / 128

/-- The sector of a line on a retired channel, when a poisoned line of its stripe keeps it from being reconstructed (R361,
R370). -/
def State.unrebuilt (s : State) (pa : Nat) : Bool :=
  match s.tier pa with
  | .hbm die =>
    let d := vget s.dies die
    if d.retired.isEmpty then false
    else
      let p := d.place (pa % 2 ^ 37)
      decide (d.lostChannel p = some p.channel)
        && (List.range p.chans.length).any fun i =>
          decide (i ≠ p.pos) && (stripeSector die p pa i).elim false fun k => setHas k s.poison
  | .mire _ => false
  | .lease _ => false
  | .absent => false

/-- A read of the sector meets poison: its own, or that of a stripe from which it would be reconstructed. -/
def State.poisoned (s : State) (pa : Nat) : Bool := setHas (pa / 128) s.poison || s.unrebuilt pa

/-! ### Machine checks (R366) -/

/-- An MSI-X vector raised at the host; none reaches it while it does not see the device (R28, R180). -/
def State.raiseMsix (s : State) (v : Nat) : State := if s.visible then { s with msix := s.msix ++ [v] } else s

/-- An MCE of a die: a record, MSI-X vector 2, and, for causes 1, 2, 4 and 5 of HBM, an entry of the CXL event log. -/
def State.mce (s : State) (die cause : Nat) (i0 i1 : Nat) : State :=
  let r := eventRec 0x38 cause 0 die (BitVec.ofNat 64 i0) (BitVec.ofNat 64 i1)
  let log := decide (cause ∈ [1, 2, 5]) || (decide (cause = 4) && decide (i0 / 2 ^ 37 < 6))
  let s := (s.post r).raiseMsix 2
  { s with pkg := { s.pkg with eventLog := if log then s.pkg.eventLog ++ [r] else s.pkg.eventLog } }

/-- A count of ECCCNT raised, saturating (R369): `lo` is its lowest bit. -/
def Die.count (d : Die) (lo n : Nat) : Die :=
  { d with ecccnt := setBits d.ecccnt (lo + 15) lo (satTo 0xFFFF (bits d.ecccnt (lo + 15) lo + n)) }

/-! ### Lines that are lost (R365, R370) -/

/-- Sectors become poisoned. -/
def State.poisonAll (s : State) (l : List Nat) : State := { s with poison := l.foldl (fun p k => setAdd k p) s.poison }

/-- Sectors of a die become poisoned without a consumer: they are counted, and MCE cause 4 is posted. -/
def State.poisonDie (s : State) (die : Nat) (l : List Nat) : State :=
  let first := l.foldl min (l.headD 0)
  ((s.poisonAll l).onDie die fun d => d.count 0 l.length).mce die 4 (first * 128) l.length

/-- An access meets a sector of a retired channel that a poisoned line of its stripe keeps from being reconstructed: the sector is
poisoned, and MCE cause 4 is posted (R365, R370). -/
def State.lostLine (s : State) (pa : Nat) : State :=
  if s.unrebuilt pa && !setHas (pa / 128) s.poison then s.poisonDie (pa / 2 ^ 37) [pa / 128] else s

/-- An access has met a fault: one at a poisoned sector of memory may have lost its line. -/
def State.met (s : State) (f : FaultInfo) : State :=
  if f.code = 0x30 ∧ bit f.i0 63 = false then s.lostLine f.i1.toNat else s

/-- The number of the next free choice. -/
def State.fresh (s : State) : State := { s with tick := s.tick + 1 }

/-! ### Side tables (R123, R361) -/

/-- The sector of a page and the byte of its entry that a byte of a side table is, when the table's base is set. -/
def State.sideOf (s : State) (pa : Nat) : Option (Nat × Nat) :=
  let at_ (i start size : Nat) : Option (Nat × Nat) :=
    match s.pkg.side[i]? with
    | none => none
    | some b => if b ≤ pa ∧ pa < b + size / 64 then some (start / 128 + (pa - b) / 64 * 32, (pa - b) % 64) else none
  match s.tier pa with
  | .mire _ => at_ 0 0x100000000000 0x80000000000
  | .lease n => at_ (n + 1) (0x400000000000 + n * 2 ^ 40) (2 ^ 40)
  | .hbm _ => none
  | .absent => none

/-- Byte i of a page's entry: tags, the poison mask, zeros. -/
def State.sideByte (s : State) (k i : Nat) : Byte :=
  if i < 32 then s.tags.read (k + i)
  else if i < 36 then
    BitVec.ofNat 8 ((List.range 8).map fun j => b2n (setHas (k + 8 * (i - 32) + j) s.poison) * 2 ^ j).sum
  else 0

/-- Byte i of a page's entry written. -/
def State.sidePut (s : State) (k i : Nat) (b : Byte) : State :=
  if i < 32 then { s with tags := s.tags.write (k + i) b }
  else if i < 36 then
    { s with poison := (List.range 8).foldl (fun p j =>
        let x := k + 8 * (i - 32) + j
        if bit b j then setAdd x p else setDel x p) s.poison }
  else s

/-- No part of memory stands for state of the device. -/
def State.plainMem (s : State) : Bool := s.pkg.side.isEmpty && !s.pkg.ctxbSet

/-- A byte of physical memory: those of the context table are its entries (R185), and a side table's bytes are the tags and the
poison that it holds. -/
def State.byteAt (s : State) (pa : Nat) : Byte :=
  match s.entryOf pa with
  | some n => s.entryByte n pa
  | none =>
    match s.sideOf pa with
    | some x => s.sideByte x.1 x.2
    | none => s.mem.read pa

/-- A byte of physical memory written. -/
def State.putByte (s : State) (pa : Nat) (b : Byte) : State :=
  match s.entryOf pa with
  | some n => s.entryPut n pa b
  | none =>
    match s.sideOf pa with
    | some y => s.sidePut y.1 y.2 b
    | none => { s with mem := s.mem.write pa b }

/-- Bytes of physical memory. -/
def State.peek (s : State) (pa n : Nat) : List Byte :=
  if s.plainMem then s.mem.readBytes pa n else (List.range n).map fun i => s.byteAt (pa + i)

/-- Bytes of physical memory written. -/
def State.poke (s : State) (pa : Nat) (bs : List Byte) : State :=
  if s.plainMem then { s with mem := s.mem.writeBytes pa bs } else bs.zipIdx.foldl (fun s x => s.putByte (pa + x.2) x.1) s

/-! ### What a reed read may return (R111, R152) -/

/-- A sector's content. -/
def State.sector (s : State) (pa : Nat) : List Byte := s.peek (pa / 128 * 128) 128

/-- The value a sector of HBM holds joins those a reed read may still return (R111, R152). -/
def State.reedKeep (s : State) (pa : Nat) : State :=
  match s.tier pa with
  | .hbm d => s.onDie d fun x => { x with
      reed := x.reed ++ [(BitVec.ofNat 48 (pa / 128), BitVec.ofNat 1024 (bytesToNat (s.sector pa)), s.tags.read (pa / 128))] }
  | .mire _ => s
  | .lease _ => s
  | .absent => s

/-! ### Heat (R121, R122) -/

/-- The slice of a physical address (R106). -/
def sliceOf (pa : Nat) : Nat :=
  pa / 2 ^ 8 % 256 ^^^ pa / 2 ^ 16 % 256 ^^^ pa / 2 ^ 24 % 256 ^^^ pa / 2 ^ 32 % 256 ^^^ pa / 2 ^ 40 % 256

/-- The place of a page's byte in its die's heat table; none for memory that is never sampled. -/
def State.heatIndex (s : State) (pa : Nat) : Option Nat :=
  match s.tier pa with
  | .hbm d => some ((pa - d * 2 ^ 37) / 65536)
  | .mire _ => some (2 ^ 21 + (pa - 0x100000000000) / 65536)
  | .lease _ => none
  | .absent => none

/-- The bytes of a heat table. -/
def heatBytes : Nat := 2 ^ 21 + 2 ^ 27

/-- A request passes the sampler: its slice counts it, and the request at which the counter becomes zero adds one to its
page's byte and to the die's samples (R121, R122). -/
def State.heatTurn (s : State) (pa : Nat) : State :=
  match s.heatIndex pa with
  | none => s
  | some i =>
    let die := s.homeDie pa
    let d := vget s.dies die
    let h := vget d.hsmp (sliceOf pa) + 1
    let s := s.onDie die fun d => { d with hsmp := vset d.hsmp (sliceOf pa) h }
    if h ≠ 0 then s
    else
      let at_ := d.heatb.toNat + i
      { (s.reedKeep at_).onDie die fun d => { d with
          samples := d.samples + 1, sweep := d.sweep + b2n (decide (d.samples + 1 = 0)) } with
        mem := s.mem.write at_ (BitVec.ofNat 8 (satTo 255 ((s.mem.read at_).toNat + 1))) }

/-- The peer device whose HBM holds a physical address (R100, R114). -/
def State.lender (s : State) (pa : Nat) : Option DevNo :=
  match s.tier pa with
  | .lease n => if n = Config.deviceNo.toNat then none else some (BitVec.ofNat 6 n)
  | .hbm _ => none
  | .mire _ => none
  | .absent => none

/-- The header of a sector on a link (R379). -/
def State.header (s : State) (pa : Nat) : SectorHeader :=
  let bs := s.peek (pa / 128 * 128) 128
  sectorHeader bs (s.tags.read (pa / 128)) (setHas (pa / 128) s.poison)

/-- A memory request to the lender, on VC PA[9:8] (R114, R380); none for other memory. -/
def State.toLender (s : State) (pa : Nat) (body : FlitBody) : State :=
  (s.lender pa).elim s fun d => s.sendTo d (pa / 256 % 4) 0 body

/-- A request, or a reed read, reaches its home slice in the slice's order of arrival (R121). -/
def State.requestAs (s : State) (reed : Bool) (pa : Nat) : State :=
  if (s.heatIndex pa).isNone && (s.lender pa).isNone then s
  else s.onDie (s.homeDie pa) fun d => { d with requests := d.requests ++ [(BitVec.ofNat 48 (pa / 128 * 128), reed)] }

/-- A request reaches its home slice, which has yet to find whether it misses L2. -/
def State.request (s : State) (pa : Nat) : State := s.requestAs false pa

/-- Of the requests of a slice the oldest for the sector misses L2; those before it have hit (log entry 85), and the reed reads among
them pass the sampler before it. The sector of a lease window is then asked of its lender, and never counted (R121). -/
def State.missTurn (s : State) (pa : Nat) : State :=
  let die := s.homeDie pa
  let q := (vget s.dies die).requests
  let here (x : BitVec 48 × Bool) : Bool := decide (sliceOf x.1.toNat = sliceOf pa)
  match q.findIdx? fun x => decide (x.1.toNat = pa / 128 * 128) with
  | none => s
  | some i =>
    let s := s.onDie die fun d => { d with requests := ((q.take i).filter fun x => !here x) ++ q.drop (i + 1) }
    let s := (((q.take i).filter fun x => here x && x.2).foldl (fun s x => s.heatTurn x.1.toNat) s).heatTurn pa
    if (q.getD i default).2 then s else s.toLender pa (.memoryRead (BitVec.ofNat 48 (pa / 128 * 128)) 128)

/-! ### Logical time (R141) -/

/-- The logical write time and read-lease end of a sector. -/
def State.stamp (s : State) (pa : Nat) : Nat × Nat :=
  (s.stamps.find? fun x => decide (x.1 = pa / 128)).elim (0, 0) (·.2)

/-- A sector's times set by an event at a logical time. -/
def State.setStamp (s : State) (pa w l t : Nat) : State :=
  { s with
    stamps := (pa / 128, w, l) :: s.stamps.filter fun x => decide (x.1 ≠ pa / 128)
    latest := max s.latest t }

/-- A read at its home by a queue that keeps no copy: the time at which it takes place; its lease lasts to that time. -/
def State.readAt (s : State) (pa clock : Nat) : Nat × State :=
  let x := s.stamp pa
  let t := max clock x.1
  (t, s.setStamp pa x.1 (max x.2 t) t)

/-- A read at its home by a queue whose clock is `clock`: the time at which it takes place and the lease it is given. -/
def State.readTimed (s : State) (pa clock : Nat) : Nat × Nat × State :=
  let x := s.stamp pa
  let t := max clock x.1
  let l := max x.2 (t + Config.leaseTime s.tick)
  (t, l, (s.setStamp pa x.1 l t).fresh)

/-- A write at its home by a queue whose clock is `clock`: the time at which it takes place. -/
def State.wroteTimed (s : State) (pa clock : Nat) : Nat × State :=
  let t := max clock ((s.stamp pa).2 + 1)
  (t, s.setStamp pa t t t)

/-- A read that belongs to no queue of R137, the fetch of a bundle or the walk of a table: it takes the latest time (log entry 37). -/
def State.readLast (s : State) (pa : Nat) : State := (s.readAt pa s.latest).2

/-- A write that belongs to no queue: later than every lease granted on the sector. -/
def State.wroteLast (s : State) (pa : Nat) : State := (s.wroteTimed pa s.latest).2

/-- A read by the host, whose accesses form one queue (R137). -/
def State.readNow (s : State) (pa : Nat) : State :=
  let s := s.lostLine pa
  let r := s.readAt pa s.hostClock
  { r.2 with hostClock := r.1 }

/-- A write by the host. -/
def State.wroteNow (s : State) (pa : Nat) : State :=
  let r := s.wroteTimed pa s.hostClock
  { r.2 with hostClock := r.1 }

/-- A read by a fen's walker or communication master. -/
def State.readFen (s : State) (fen pa : Nat) : State :=
  let r := s.readAt pa (vget s.fens fen).clock
  r.2.onFen fen fun f => { f with clock := r.1 }

/-- A write by a fen's walker or communication master. -/
def State.wroteFen (s : State) (fen pa : Nat) : State :=
  let r := s.wroteTimed pa (vget s.fens fen).clock
  r.2.onFen fen fun f => { f with clock := r.1 }

/-- What a fen's walker and communication master do from now on follows every event so far (R150). -/
def State.fenSync (s : State) (fen : Nat) : State := s.onFen fen fun f => { f with clock := max f.clock s.latest }

/-! ### Compression (R108 to R110, R373) -/

/-- The little-endian words of k bytes in a byte list. -/
def wordsOf (k : Nat) : Nat → List Byte → List Nat
  | 0, _ => []
  | n + 1, bs => bytesToNat (bs.take k) :: wordsOf k n (bs.drop k)

/-- A difference of two 32-bit words read as signed lies in [−h, h). -/
def deltaFits (h w w0 : Nat) : Bool :=
  let d := (w + 2 ^ 32 - w0) % 2 ^ 32
  decide (d < h) || decide (2 ^ 32 - h ≤ d)

/-- The number of distinct values of a list. -/
def distinct : List Nat → List Nat
  | [] => []
  | x :: r => let d := distinct r; if setHas x d then d else x :: d

/-- The payload bytes of a sector, before rounding (R108). -/
def sectorPayload (bs : List Byte) : Nat :=
  let w := wordsOf 4 32 bs
  let w0 := w.headD 0
  if bs.all (fun b => decide (b = 0)) then 0
  else if w.all (fun x => deltaFits 128 x w0) then 36
  else if w.all (fun x => deltaFits 32768 x w0) then 68
  else if (distinct ((wordsOf 2 64 bs).map fun x => x / 128 % 256)).length ≤ 2 then 74
  else 128

/-- The payload fits a slot of a CMP = 2 page: 64 bytes after rounding up to 32 (R108, R109). -/
def fitsSlot (bs : List Byte) : Bool := decide ((sectorPayload bs + 31) / 32 * 32 ≤ 64)

/-- Free entries of the overflow pool (R373). -/
def Pkg.ovpFree (p : Pkg) : Nat := bits p.ovp 38 28 * 8192 - p.ovpUsed.length

/-- OVP as read: FREE over SIZE and BASE. -/
def Pkg.ovpRead (p : Pkg) : Word := setBits p.ovp 63 40 p.ovpFree

/-- The compression of the stored sector at pa on a mire page: the pool's entry and the counters (R109, R110). -/
def State.compress (s : State) (pa cmp : Nat) : State :=
  match s.tier pa with
  | .mire p =>
    if cmp = 0 then s
    else
      let sec := BitVec.ofNat 48 (pa / 128)
      let bs := s.sector pa
      let raw := decide (sectorPayload bs = 128)
      let redirect := decide (cmp = 2) && !fitsSlot bs
      let used := s.pkg.ovpUsed.filter fun x => decide (x ≠ sec)
      let s := if cmp = 2 then
        { s with pkg := { s.pkg with ovpUsed := if redirect then sec :: used else used } } else s
      s.onDie (p + 1) fun d =>
        { d with
          ovfw := if redirect then BitVec.ofNat 32 (satTo 0xFFFFFFFF (d.ovfw.toNat + 1)) else d.ovfw
          raww := if raw then BitVec.ofNat 32 (satTo 0xFFFFFFFF (d.raww.toNat + 1)) else d.raww }
  | .hbm _ => s
  | .lease _ => s
  | .absent => s

/-- A write to a CMP = 2 page needs a pool entry and none is free (R373). -/
def State.poolFull (s : State) (pa cmp : Nat) (bs : List Byte) : Bool :=
  match s.tier pa with
  | .mire _ =>
    let after := (s.poke pa bs).sector pa
    decide (cmp = 2) && !fitsSlot after && !s.pkg.ovpUsed.contains (BitVec.ofNat 48 (pa / 128))
      && decide (s.pkg.ovpFree = 0)
  | .hbm _ => false
  | .lease _ => false
  | .absent => false

/-! ### One piece of physical memory (R138, R362) -/

/-- A read within one sector: the bytes and the sector's tag. -/
def State.readPhys (s : State) (va : Word) (pa n : Nat) : Except FaultInfo (List Byte × Byte) :=
  match s.reachable va pa with
  | some f => .error f
  | none =>
    if s.poisoned pa then .error (s.sectorFault va pa)
    else .ok (s.peek pa n, s.tags.read (pa / 128))

/-- Bytes stored within one sector, with a tag; a whole sector loses its poison. -/
def State.putHere (s : State) (pa : Nat) (bs : List Byte) (tag : Byte) : State :=
  let s := (s.reedKeep pa).poke pa bs
  { s with
    tags := s.tags.write (pa / 128) tag
    poison := if bs.length = 128 then setDel (pa / 128) s.poison else s.poison
    flaws := if bs.length = 128 then flawsWithout (pa / 128) s.flaws else s.flaws }

/-- A sector becomes poisoned where `bad`: a copy carries its source's poison (R361, R362). -/
def State.taint (s : State) (pa : Nat) (bad : Bool) : State :=
  if bad then { s with poison := setAdd (pa / 128) s.poison } else s

/-- Bytes stored within one sector, with their poison; those of a lease window go to its lender (log entry 102). -/
def State.putBad (s : State) (pa : Nat) (bs : List Byte) (tag : Byte) (bad : Bool) : State :=
  let s := (s.putHere pa bs tag).taint pa bad
  s.toLender pa (.memory (BitVec.ofNat 48 pa) (s.header pa) bs)

/-- Bytes stored within one sector. -/
def State.putPhys (s : State) (pa : Nat) (bs : List Byte) (tag : Byte) : State := s.putBad pa bs tag false

/-- A write within one sector, with its poison: a partial write of a poisoned sector fails, and a full pool stops it. -/
def State.writeBad (s : State) (va : Word) (pa cmp : Nat) (bs : List Byte) (tag : Byte) (bad : Bool) : Except FaultInfo State :=
  match s.reachable va pa with
  | some f => .error f
  | none =>
    if s.poisoned pa && decide (bs.length ≠ 128) then
      .error (s.sectorFault va pa)
    else if s.poolFull pa cmp bs then .error ⟨0x0A, 8, true, va, 0, 0⟩
    else .ok ((s.putBad pa bs tag bad).compress pa cmp)

/-- A write within one sector. -/
def State.writePhys (s : State) (va : Word) (pa cmp : Nat) (bs : List Byte) (tag : Byte) : Except FaultInfo State :=
  s.writeBad va pa cmp bs tag false

/-! ### The page walk (R116, R117) -/

/-- A leaf found: the entry's address, the entry, and the size of its page. -/
structure Leaf where
  at_ : Nat
  pte : BitVec 64
  lsz : Nat
  deriving DecidableEq, Repr, Inhabited

/-- FLT_PAGE (R340). -/
def pageFault (cause : Nat) (va : Word) : FaultInfo := ⟨0x0A, cause, decide (cause ≠ 6), va, 0, 0⟩

/-- The index of a virtual address at a level. -/
def ptIndex (va : Word) : Nat → Nat
  | 0 => bits va 20 16
  | n + 1 => bits va (29 + 9 * n) (21 + 9 * n)

/-- log2 of the page size of a leaf at a level. -/
def pageLsz : Nat → Nat
  | 0 => 16
  | n + 1 => 21 + 9 * n

/-- A reserved field of an entry is nonzero, or a leaf's address bits below its page size (R117). -/
def pteReserved (e : BitVec 64) (level : Nat) : Bool :=
  let leaf := bit e 1
  decide (bits e 63 48 ≠ 0) || decide (bits e 11 9 ≠ 0) || decide (bits e 4 3 ≠ 0)
    || (leaf && decide (bits e 15 12 ≠ 0))
    || (leaf && decide (level = 2) && decide (bits e 29 16 ≠ 0))
    || (leaf && decide (level = 1) && decide (bits e 20 16 ≠ 0))

/-- The faults of one entry, in the order of R117. -/
def pteFault (e : BitVec 64) (level : Nat) (write : Bool) : Option Nat :=
  let leaf := bit e 1
  if !bit e 0 then some 1
  else if pteReserved e level then some 5
  else if leaf && decide (3 ≤ level) then some 3
  else if !leaf && decide (level = 0) then some 4
  else if leaf && decide (bits e 6 5 = 3) then some 7
  else if leaf && write && !bit e 2 then some 2
  else none

/-- One entry read by the walker: poison is cause 6 (R372), and kept data is refused (R132, R341). -/
def State.readPte (s : State) (va : Word) (pa : Nat) : Except FaultInfo (BitVec 64) :=
  match s.readPhys va pa 8 with
  | .error f => .error (if f.code = 0x30 ∧ f.cause ≠ 7 then { f with cause := 6 } else f)
  | .ok (bs, t) =>
    match keptPlain [t] (keptPhysInfo (pa / 128 * 128)) with
    | some f => .error f
    | none => .ok (BitVec.ofNat 64 (bytesToNat bs))

/-- The walk from a level down, at the table of the given physical base. -/
def State.walk (s : State) (va : Word) (write : Bool) : Nat → Nat → Except FaultInfo Leaf
  | 0, table =>
    match s.readPte va (table + 8 * ptIndex va 0) with
    | .error f => .error f
    | .ok e =>
      match pteFault e 0 write with
      | some c => .error (pageFault c va)
      | none => .ok ⟨table + 8 * ptIndex va 0, e, 16⟩
  | n + 1, table =>
    match s.readPte va (table + 8 * ptIndex va (n + 1)) with
    | .error f => .error f
    | .ok e =>
      match pteFault e (n + 1) write with
      | some c => .error (pageFault c va)
      | none =>
        if bit e 1 then .ok ⟨table + 8 * ptIndex va (n + 1), e, pageLsz (n + 1)⟩
        else s.walk va write n (bits e 47 12 * 4096)

/-- The addresses of the entries that the walk reads, the one that it faults at last (R117, R118). -/
def State.walkReads (s : State) (va : Word) : Nat → Nat → List Nat
  | 0, table => [table + 8 * ptIndex va 0]
  | n + 1, table =>
    let a := table + 8 * ptIndex va (n + 1)
    a :: match s.readPte va a with
      | .error _ => []
      | .ok e => if (pteFault e (n + 1) false).isNone && !bit e 1 then s.walkReads va n (bits e 47 12 * 4096) else []

/-- Where a leaf maps a virtual address. -/
def Leaf.phys (l : Leaf) (va : Word) : Nat := bits l.pte 47 16 * 65536 / 2 ^ l.lsz * 2 ^ l.lsz + va.toNat % 2 ^ l.lsz

/-! ### Translation (R118, R120) -/

/-- A TLB entry that serves an access. -/
def TlbEntry.serves (e : TlbEntry) (ctx : Nat) (va : Word) (write : Bool) : Bool :=
  decide (e.ctx.toNat = ctx) && decide (va.toNat / 2 ^ e.lsz = e.va.toNat / 2 ^ e.lsz) && (!write || !e.w || e.d)

/-- What a translation answers: the physical address, the page's CMP, and the machine with A, D and TLBs updated. -/
structure Xlate where
  pa : Nat
  cmp : Nat
  st : State

/-- What an access comes to: its answer, or the fault that it meets with the machine as the attempt leaves it: what the walk has read is
requested of its home slices, and a walk that has succeeded has set A and D and filled the TLBs, whatever the access meets then (R117,
R121; DESIGN CHOICE, log entry 135). -/
abbrev Tried (α : Type) := Except (FaultInfo × State) α

/-- The TLBs an access looks in: its core's when it is a core's, and its fen's. -/
def State.tlbs (s : State) (fen : Nat) (key : Option CoreKey) : List TlbEntry :=
  (key.elim [] fun k => (s.getCore k).tlb) ++ (vget s.fens fen).tlb

/-- An entry put into a TLB, in place of one for the same page; where its set holds `ways` entries, a free choice of them
leaves (R118 fixes no replacement). -/
def tlbPut (e : TlbEntry) (ways n : Nat) (same : TlbEntry → Bool) (l : List TlbEntry) : List TlbEntry :=
  let l := l.filter fun x => !(decide (x.ctx = e.ctx) && decide (x.va = e.va))
  if l.length < ways then e :: l
  else
    let set_ := l.filter same
    if set_.length < ways then e :: l
    else
      let out := set_.getD (n % set_.length) default
      e :: l.filter fun x => decide (x ≠ out)

/-- The set of a fen's TLB that holds an entry: 512 sets of 8 ways (R118). -/
def TlbEntry.set (e : TlbEntry) : Nat := Config.tlbSet e.va.toNat % 512

/-- An entry put into the fen's TLB of 4,096 entries and into the core's of 64 (R118). -/
def State.tlbFill (s : State) (fen : Nat) (key : Option CoreKey) (e : TlbEntry) : State :=
  let n := Config.pick s.tick
  let s := s.onFen fen fun f => { f with tlb := tlbPut e 8 n (fun x => decide (x.set = e.set)) f.tlb }
  match key with
  | none => s
  | some k => s.onCore k fun c => { c with tlb := tlbPut e 64 n (fun _ => true) c.tlb }

/-- The reads of a walk are ordinary coherent reads at their homes (R118). -/
def State.walkTaken (s : State) (ctx : Nat) (va : Word) : State :=
  (s.walkReads va 4 ((vget s.ctxs ctx).root.toNat * 4096)).foldl (fun s a => (s.request a).readLast a) s

/-- A walk's answer: A, and D for a write, are set in the entry, and the TLBs are filled. -/
def State.walked (s : State) (fen : Nat) (key : Option CoreKey) (ctx : Nat) (va : Word) (write : Bool) (l : Leaf) :
    Xlate :=
  let d := write || bit l.pte 8
  let e := l.pte ||| BitVec.ofNat 64 (128 + 256 * b2n write)
  let s := s.walkTaken ctx va
  let s := if e = l.pte then s else ({ s.reedKeep l.at_ with mem := s.mem.writeBytes l.at_ (bvBytes e) }).wroteLast l.at_
  let entry : TlbEntry := ⟨BitVec.ofNat 6 ctx, BitVec.ofNat 57 (va.toNat / 2 ^ l.lsz * 2 ^ l.lsz), l.lsz,
    BitVec.ofNat 48 (l.phys va / 2 ^ l.lsz * 2 ^ l.lsz), bit l.pte 2, d, BitVec.ofNat 2 (bits l.pte 6 5)⟩
  ⟨l.phys va, bits l.pte 6 5, s.tlbFill fen key entry⟩

/-- The translation of a global virtual address for an agent of a fen (log entry 12: whether a held translation
still serves is open). -/
def State.translate (s : State) (fen : Nat) (key : Option CoreKey) (ctx : Nat) (va : Word) (write : Bool) :
    Tried Xlate :=
  if bits va 63 57 ≠ 0 then .error (pageFault 6 va, s)
  else
    let hit := (s.tlbs fen key).find? fun e => e.serves ctx va write
    let held := hit.elim false fun _ => Config.tlbServes s.tick
    match hit, held with
    | some e, true =>
      if write && !e.w then .error (pageFault 2 va, s)
      else .ok ⟨e.pa.toNat + va.toNat % 2 ^ e.lsz, e.cmp.toNat, s.fresh⟩
    | _, _ =>
      match s.walk va write 4 ((vget s.ctxs ctx).root.toNat * 4096) with
      | .error f => .error (f, s.walkTaken ctx va)
      | .ok l => .ok (s.walked fen key ctx va write l)

/-! ### Pieces of the global virtual space -/

/-- What a read finds: bytes and one tag for each sector. -/
structure GRead where
  bytes : List Byte
  tags : List Byte
  st : State

/-- An access that meets a fault at its sector has been requested of the home slice, but for one that no lease covers (R121, R153). -/
def State.asked (s : State) (f : FaultInfo) (pa : Nat) : State := if f.code = 0x0B then s else s.request pa

/-- One read piece through translation, by a core (key given) or by the walker or the master of a fen. -/
def State.readPiece (s : State) (fen : Nat) (key : Option CoreKey) (ctx : Nat) (va : Word) (n : Nat) : Tried GRead :=
  match s.translate fen key ctx va false with
  | .error e => .error e
  | .ok x =>
    match x.st.readPhys va x.pa n with
    | .error f => .error (f, x.st.asked f x.pa)
    | .ok (bs, t) =>
      let s := x.st.request x.pa
      .ok ⟨bs, [t], if key.isSome then s.readLast x.pa else s.readFen fen x.pa⟩

/-- One write piece through translation, and its physical address. -/
def State.writeAt (s : State) (fen : Nat) (key : Option CoreKey) (ctx : Nat) (va : Word) (bs : List Byte)
    (tag : Byte) : Tried (State × Nat) :=
  match s.translate fen key ctx va true with
  | .error e => .error e
  | .ok x =>
    match x.st.writePhys va x.pa x.cmp bs tag with
    | .error f => .error (f, x.st.asked f x.pa)
    | .ok s => .ok (s.request x.pa, x.pa)

/-- One write piece through translation. -/
def State.writePiece (s : State) (fen : Nat) (key : Option CoreKey) (ctx : Nat) (va : Word) (bs : List Byte)
    (tag : Byte) : Tried State :=
  match s.writeAt fen key ctx va bs tag with
  | .error e => .error e
  | .ok r => .ok (if key.isSome then r.1.wroteLast r.2 else r.1.wroteFen fen r.2)

/-- A read of pieces in address order, after what has been read. -/
def GRead.more (fen : Nat) (key : Option CoreKey) (ctx : Nat) : List (Nat × Nat) → GRead → Tried GRead
  | [], g => .ok g
  | p :: ps, g =>
    match g.st.readPiece fen key ctx (BitVec.ofNat 64 p.1) p.2 with
    | .error e => .error e
    | .ok r => GRead.more fen key ctx ps ⟨g.bytes ++ r.bytes, g.tags ++ r.tags, r.st⟩

/-- A read of any length, piece by piece in address order. -/
def State.readVirt (s : State) (fen : Nat) (key : Option CoreKey) (ctx : Nat) (va : Word) (n : Nat) : Tried GRead :=
  GRead.more fen key ctx (partsOf va.toNat n) ⟨[], [], s⟩

/-- A read of any length by an access that is not a reader: kept data is refused (R131, R132). -/
def State.readPlain (s : State) (fen : Nat) (key : Option CoreKey) (ctx : Nat) (va : Word) (n : Nat) :
    Tried (List Byte × State) :=
  match s.readVirt fen key ctx va n with
  | .error e => .error e
  | .ok g =>
    match keptPlain g.tags (va &&& 0x01FFFFFFFFFFFF80) with
    | some f => .error (f, g.st)
    | none => .ok (g.bytes, g.st)

/-- What an attempt to write one piece leaves where nothing is written. -/
def State.touch (s : State) (fen : Nat) (key : Option CoreKey) (ctx : Nat) (va : Word) : State :=
  match s.translate fen key ctx va true with
  | .error e => e.2
  | .ok x => x.st.request x.pa

/-- A write of pieces in address order. `u`: the machine with the attempts made and nothing written. -/
def State.writeMore (fen : Nat) (key : Option CoreKey) (ctx : Nat) (tag : Byte) :
    List (Nat × Nat) → List Byte → State → State → Tried State
  | [], _, _, s => .ok s
  | p :: ps, bs, u, s =>
    let va : Word := BitVec.ofNat 64 p.1
    match s.writePiece fen key ctx va (bs.take p.2) tag with
    | .error e => .error (e.1, u.touch fen key ctx va)
    | .ok s => State.writeMore fen key ctx tag ps (bs.drop p.2) (u.touch fen key ctx va) s

/-- A write of any length, piece by piece, in one step; where a piece faults nothing is written (DESIGN CHOICE, log entry 116). -/
def State.writeVirt (s : State) (fen : Nat) (key : Option CoreKey) (ctx : Nat) (va : Word) (bs : List Byte) (tag : Byte) :
    Tried State :=
  State.writeMore fen key ctx tag (partsOf va.toNat bs.length) bs s s

end Sys2Proof.Machine
end

