-- ==== Sys2Proof/Machine/Scalar.lean ====
section
/-! DEFINITION. The S slot (R213 to R220): arithmetic, compares, shape and generator fields, control registers. -/

namespace Sys2Proof.Machine

/-- The outcome of a meaning. -/
abbrev Out := Host.Outcome State Fault Refusal

/-! ### Values (R215, R216) -/

/-- The number of leading zero bits, 0 to 64. -/
def clz64 (a : Word) : Word := if a = 0 then 64 else BitVec.ofNat 64 (63 - Nat.log2 a.toNat)

/-- The number of one bits. -/
def popc64 (a : Word) : Word := BitVec.ofNat 64 ((List.range 64).countP fun k => a.getLsbD k)

/-- High 64 bits of the signed product. -/
def mulhs (a b : Word) : Word := BitVec.ofInt 64 (a.toInt * b.toInt / 2 ^ 64)

/-- High 64 bits of the unsigned product. -/
def mulhuu (a b : Word) : Word := BitVec.ofNat 64 (a.toNat * b.toNat / 2 ^ 64)

/-- Quotient and remainder of R216; no case traps. -/
def divide (a b : Word) (signed : Bool) : Word × Word :=
  if b = 0 then (0xFFFFFFFFFFFFFFFF, a)
  else if signed && decide (a = 0x8000000000000000) && decide (b = 0xFFFFFFFFFFFFFFFF) then (0x8000000000000000, 0)
  else if signed then
    let q := Int.tdiv a.toInt b.toInt
    (BitVec.ofInt 64 q, BitVec.ofInt 64 (a.toInt - q * b.toInt))
  else (BitVec.ofNat 64 (a.toNat / b.toNat), BitVec.ofNat 64 (a.toNat % b.toNat))

/-- The byte address of the bundle at pc plus 24 · k (R190, R215). -/
def bundleAddr (pc : Addr) (k : Int) : Word := pc.setWidth 64 + BitVec.ofInt 64 (24 * k)

/-- The broadcast value as the S slot reads it (R60). -/
def State.bcS (s : State) : Word := s.iss.bc.signExtend 64

/-! ### Forms -/

/-- The S slot runs: its predicate p0 to p3 is true and the bundle is not gated off (R195, R214). -/
def State.activeS (s : State) (p : BitVec 2) : Bool := !s.iss.gated && s.core.rp (p.setWidth 3)

/-- An S instruction that writes a scalar register after L cycles (R213). -/
def sResult (s : State) (p : BitVec 2) (lat : Nat) (d : BitVec 5) (v : Word) : State :=
  if s.activeS p then s.result lat (.sreg d v) else s

/-- An S instruction that writes a predicate after one cycle (R213). -/
def sPred (s : State) (p : BitVec 2) (d : BitVec 3) (v : Bool) : State :=
  if s.activeS p then s.result 1 (.pred d v) else s

/-! ### Arithmetic and logic (R215) -/

/-- add (R215). a + b modulo 2^64. -/
def execAdd (d a b : BitVec 5) (p : BitVec 2) (s : State) : Out :=
  .next (sResult s p 1 d ((s.core.rs a) + (s.core.rs b)))

/-- sub (R215). a − b modulo 2^64. -/
def execSub (d a b : BitVec 5) (p : BitVec 2) (s : State) : Out :=
  .next (sResult s p 1 d ((s.core.rs a) - (s.core.rs b)))

/-- mul (R215). The low 64 bits of a · b. -/
def execMul (d a b : BitVec 5) (p : BitVec 2) (s : State) : Out :=
  .next (sResult s p 3 d ((s.core.rs a) * (s.core.rs b)))

/-- mulh (R215). The high 64 bits of the signed product. -/
def execMulh (d a b : BitVec 5) (p : BitVec 2) (s : State) : Out :=
  .next (sResult s p 3 d (mulhs (s.core.rs a) (s.core.rs b)))

/-- mulhu (R215). The high 64 bits of the unsigned product. -/
def execMulhu (d a b : BitVec 5) (p : BitVec 2) (s : State) : Out :=
  .next (sResult s p 3 d (mulhuu (s.core.rs a) (s.core.rs b)))

/-- min (R215). The signed minimum. -/
def execMin (d a b : BitVec 5) (p : BitVec 2) (s : State) : Out :=
  .next (sResult s p 1 d (if BitVec.sle (s.core.rs a) (s.core.rs b) then s.core.rs a else s.core.rs b))

/-- max (R215). The signed maximum. -/
def execMax (d a b : BitVec 5) (p : BitVec 2) (s : State) : Out :=
  .next (sResult s p 1 d (if BitVec.sle (s.core.rs a) (s.core.rs b) then s.core.rs b else s.core.rs a))

/-- minu (R215). The unsigned minimum. -/
def execMinu (d a b : BitVec 5) (p : BitVec 2) (s : State) : Out :=
  .next (sResult s p 1 d (if (s.core.rs a) ≤ (s.core.rs b) then s.core.rs a else s.core.rs b))

/-- maxu (R215). The unsigned maximum. -/
def execMaxu (d a b : BitVec 5) (p : BitVec 2) (s : State) : Out :=
  .next (sResult s p 1 d (if (s.core.rs a) ≤ (s.core.rs b) then s.core.rs b else s.core.rs a))

/-- and (R215). a and b. -/
def execAnd (d a b : BitVec 5) (p : BitVec 2) (s : State) : Out :=
  .next (sResult s p 1 d ((s.core.rs a) &&& (s.core.rs b)))

/-- or (R215). a or b. -/
def execOr (d a b : BitVec 5) (p : BitVec 2) (s : State) : Out :=
  .next (sResult s p 1 d ((s.core.rs a) ||| (s.core.rs b)))

/-- xor (R215). a xor b. -/
def execXor (d a b : BitVec 5) (p : BitVec 2) (s : State) : Out :=
  .next (sResult s p 1 d ((s.core.rs a) ^^^ (s.core.rs b)))

/-- andn (R215). a and not b. -/
def execAndn (d a b : BitVec 5) (p : BitVec 2) (s : State) : Out :=
  .next (sResult s p 1 d ((s.core.rs a) &&& ~~~(s.core.rs b)))

/-- clz (R215). The number of leading zero bits of a. -/
def execClz (d a : BitVec 5) (p : BitVec 2) (s : State) : Out :=
  .next (sResult s p 1 d (clz64 (s.core.rs a)))

/-- popc (R215). The number of one bits of a. -/
def execPopc (d a : BitVec 5) (p : BitVec 2) (s : State) : Out :=
  .next (sResult s p 1 d (popc64 (s.core.rs a)))

/-- shl (R215). a << b[5:0]. -/
def execShl (d a b : BitVec 5) (p : BitVec 2) (s : State) : Out :=
  .next (sResult s p 1 d ((s.core.rs a) <<< ((s.core.rs b) &&& 63)))

/-- shr (R215). a >> b[5:0], zeros shifted in. -/
def execShr (d a b : BitVec 5) (p : BitVec 2) (s : State) : Out :=
  .next (sResult s p 1 d ((s.core.rs a) >>> ((s.core.rs b) &&& 63)))

/-- sar (R215). a >> b[5:0], copies of a[63] shifted in. -/
def execSar (d a b : BitVec 5) (p : BitVec 2) (s : State) : Out :=
  .next (sResult s p 1 d (BitVec.sshiftRight (s.core.rs a) ((s.core.rs b) &&& 63).toNat))

/-- addi (R215). a + imm, imm from −16 to 15. -/
def execAddi (d a i : BitVec 5) (p : BitVec 2) (s : State) : Out :=
  .next (sResult s p 1 d ((s.core.rs a) + sext64 i))

/-- shli (R215). a << n. -/
def execShli (d a n : BitVec 5) (p : BitVec 2) (s : State) : Out :=
  .next (sResult s p 1 d ((s.core.rs a) <<< n.toNat))

/-- shri (R215). a >> n, zeros shifted in. -/
def execShri (d a n : BitVec 5) (p : BitVec 2) (s : State) : Out :=
  .next (sResult s p 1 d ((s.core.rs a) >>> n.toNat))

/-- sari (R215). a >> n, copies of a[63] shifted in. -/
def execSari (d a n : BitVec 5) (p : BitVec 2) (s : State) : Out :=
  .next (sResult s p 1 d (BitVec.sshiftRight (s.core.rs a) n.toNat))

/-- pca (R215). The byte address of this bundle plus 24 · imm. -/
def execPca (d i : BitVec 5) (p : BitVec 2) (s : State) : Out :=
  .next (sResult s p 1 d (bundleAddr s.core.pc i.toInt))

/-- addb (R215). a + bc. -/
def execAddb (d a : BitVec 5) (p : BitVec 2) (s : State) : Out :=
  .next (sResult s p 1 d ((s.core.rs a) + s.bcS))

/-- andb (R215). a and bc. -/
def execAndb (d a : BitVec 5) (p : BitVec 2) (s : State) : Out :=
  .next (sResult s p 1 d ((s.core.rs a) &&& s.bcS))

/-- orb (R215). a or bc. -/
def execOrb (d a : BitVec 5) (p : BitVec 2) (s : State) : Out :=
  .next (sResult s p 1 d ((s.core.rs a) ||| s.bcS))

/-- xorb (R215). a xor bc. -/
def execXorb (d a : BitVec 5) (p : BitVec 2) (s : State) : Out :=
  .next (sResult s p 1 d ((s.core.rs a) ^^^ s.bcS))

/-! ### Division (R216) -/

/-- div (R216). The signed quotient. -/
def execDiv (d a b : BitVec 5) (p : BitVec 2) (s : State) : Out :=
  .next (sResult s p 24 d ((divide (s.core.rs a) (s.core.rs b) true).1))

/-- divu (R216). The unsigned quotient. -/
def execDivu (d a b : BitVec 5) (p : BitVec 2) (s : State) : Out :=
  .next (sResult s p 24 d ((divide (s.core.rs a) (s.core.rs b) false).1))

/-- rem (R216). The signed remainder. -/
def execRem (d a b : BitVec 5) (p : BitVec 2) (s : State) : Out :=
  .next (sResult s p 24 d ((divide (s.core.rs a) (s.core.rs b) true).2))

/-- remu (R216). The unsigned remainder. -/
def execRemu (d a b : BitVec 5) (p : BitVec 2) (s : State) : Out :=
  .next (sResult s p 24 d ((divide (s.core.rs a) (s.core.rs b) false).2))

/-! ### Compares and predicates (R217) -/

/-- cmpeq (R217). a = b. -/
def execCmpeq (d : BitVec 3) (a b : BitVec 5) (p : BitVec 2) (s : State) : Out :=
  .next (sPred s p d (decide ((s.core.rs a) = (s.core.rs b))))

/-- cmpne (R217). a ≠ b. -/
def execCmpne (d : BitVec 3) (a b : BitVec 5) (p : BitVec 2) (s : State) : Out :=
  .next (sPred s p d (decide ((s.core.rs a) ≠ (s.core.rs b))))

/-- cmplt (R217). a < b, signed. -/
def execCmplt (d : BitVec 3) (a b : BitVec 5) (p : BitVec 2) (s : State) : Out :=
  .next (sPred s p d (BitVec.slt (s.core.rs a) (s.core.rs b)))

/-- cmpltu (R217). a < b, unsigned. -/
def execCmpltu (d : BitVec 3) (a b : BitVec 5) (p : BitVec 2) (s : State) : Out :=
  .next (sPred s p d (BitVec.ult (s.core.rs a) (s.core.rs b)))

/-- cmple (R217). a ≤ b, signed. -/
def execCmple (d : BitVec 3) (a b : BitVec 5) (p : BitVec 2) (s : State) : Out :=
  .next (sPred s p d (BitVec.sle (s.core.rs a) (s.core.rs b)))

/-- cmpleu (R217). a ≤ b, unsigned. -/
def execCmpleu (d : BitVec 3) (a b : BitVec 5) (p : BitVec 2) (s : State) : Out :=
  .next (sPred s p d (BitVec.ule (s.core.rs a) (s.core.rs b)))

/-- cmpeqi (R217). a = imm. -/
def execCmpeqi (d : BitVec 3) (a i : BitVec 5) (p : BitVec 2) (s : State) : Out :=
  .next (sPred s p d (decide ((s.core.rs a) = sext64 i)))

/-- cmplti (R217). a < imm, signed. -/
def execCmplti (d : BitVec 3) (a i : BitVec 5) (p : BitVec 2) (s : State) : Out :=
  .next (sPred s p d (BitVec.slt (s.core.rs a) (sext64 i)))

/-- pand (R217). pa and pb. -/
def execPand (d a b : BitVec 3) (p : BitVec 2) (s : State) : Out :=
  .next (sPred s p d (s.core.rp a && s.core.rp b))

/-- por (R217). pa or pb. -/
def execPor (d a b : BitVec 3) (p : BitVec 2) (s : State) : Out :=
  .next (sPred s p d (s.core.rp a || s.core.rp b))

/-- pnot (R217). not pa. -/
def execPnot (d a : BitVec 3) (p : BitVec 2) (s : State) : Out :=
  .next (sPred s p d (!s.core.rp a))

/-! ### Shape and generator fields (R218, R219) -/

/-- SHW (R218). The low 32 bits of the source go to a field of a shadow copy at the end of the cycle; a newt
has no mx registers (R71). -/
def execShw (r a f : BitVec 5) (p : BitVec 2) (s : State) : Out :=
  .next (if s.core.newt && decide (r < 4) then s.illegal
    else if s.activeS p then s.endOfCycle (.shw r.toNat f.toNat ((s.core.rs a).setWidth 32)) else s)

/-- AGW (R219). One generator field is written at the end of the cycle; a newt has no generators (R71). -/
def execAgw (g : BitVec 2) (l : BitVec 3) (a f : BitVec 5) (p : BitVec 2) (s : State) : Out :=
  .next (if s.core.newt then s.illegal
    else if s.activeS p then s.endOfCycle (.agw g l.toNat f.toNat (s.core.rs a)) else s)

/-- A level's field (R199): 2 COUNT, 3 STRIDE, 4 POS. -/
def AgLevel.setField (v : AgLevel) (f : Nat) (x : Word) : AgLevel :=
  match f with
  | 2 => { v with count := x.setWidth 16 }
  | 3 => { v with stride := x.setWidth 20 }
  | _ => { v with pos := x.setWidth 16 }

/-- A field of a parameter set (R199). -/
def AgParams.setField (p : AgParams) (l f : Nat) (x : Word) : AgParams :=
  match f with
  | 0 => { p with base := x.setWidth 20 }
  | 1 => { p with levels := x.setWidth 3 }
  | _ => { p with lv := vset p.lv l ((vget p.lv l).setField f x) }

/-- LEVELS names a walk: 1 to 6 (R59). -/
def agWalks (n : Nat) : Bool := decide (1 ≤ n) && decide (n ≤ 6)

/-- The active levels that are not skipped (R59, R219). -/
def AgParams.live (p : AgParams) : List Nat :=
  (List.range p.levels.toNat).filter fun l => decide ((vget p.lv l).count ≠ 0)

/-- Every POS at zero (R219). -/
def AgParams.rewind (p : AgParams) : AgParams :=
  { p with lv := p.lv.map fun v => { v with pos := 0 } }

/-- The walk of the current set starts; one that has no live level ends as it starts, so that its first cycle finds the generator idle:
R219 says that it ends in that cycle (DESIGN CHOICE, log entry 127). -/
def Ag.start (g : Ag) : Ag :=
  if g.cur.live.isEmpty then { g with cur := g.cur.rewind, walking := false, armed := false }
  else { g with pend := g.cur, walking := true, armed := false }

/-- An AGW lands (R219). A LEVELS of 0 or 7 written to a pending set that is armed leaves it armed: with it current the generator is idle
(DESIGN CHOICE, log entry 139). -/
def Ag.write (g : Ag) (l f : Nat) (x : Word) : Ag :=
  let arms := decide (f = 1) && agWalks (x.setWidth 3 : BitVec 3).toNat
  if g.walking then { g with pend := g.pend.setField l f x, armed := g.armed || arms }
  else
    let g := { g with cur := g.cur.setField l f x }
    if arms then g.start else g

/-- The write of a field starts a walk. -/
def Ag.writeStarts (g : Ag) (f : Nat) (x : Word) : Bool :=
  !g.walking && decide (f = 1) && agWalks (x.setWidth 3 : BitVec 3).toNat

/-- A walk has ended (R219): POS returns to zero, and an armed pending set becomes current. The next walk begins at the POS of that set,
which are those of the current set when the walk began where none was written since: R219 does not say whether they return to zero as
well (DESIGN CHOICE, log entry 128). -/
def Ag.finish (g : Ag) : Ag :=
  if g.armed then
    let g := { g with cur := g.pend, walking := false, armed := false }
    if agWalks g.cur.levels.toNat then g.start else g
  else { g with cur := g.cur.rewind, walking := false }

/-- The scratchpad address of the walk's next vector (R59): BASE and STRIDE without their low eight bits, modulo
1 MiB. -/
def AgParams.address (p : AgParams) : Nat :=
  let hi (x : BitVec 20) : Nat := x.toNat / 256 * 256
  (p.live.foldl (fun acc l => acc + (vget p.lv l).pos.toNat * hi (vget p.lv l).stride) (hi p.base)) % 2 ^ 20

/-- POS advanced, innermost first; none when the walk's last vector has gone (R219). A level that began at or above its COUNT gives one
vector at its POS, and then goes on from 0 with the next level (DESIGN CHOICE, log entry 139). -/
def AgParams.advance (p : AgParams) : List Nat → Option AgParams
  | [] => none
  | l :: ls =>
    let v := vget p.lv l
    if v.pos.toNat + 1 < v.count.toNat then some { p with lv := vset p.lv l { v with pos := v.pos + 1 } }
    else AgParams.advance { p with lv := vset p.lv l { v with pos := 0 } } ls

/-- One vector of the walk has gone. -/
def Ag.step (g : Ag) : Ag :=
  match g.cur.advance g.cur.live with
  | some p => { g with cur := p }
  | none => g.finish

/-- The vector that has gone was the walk's last, and the next walk starts. -/
def Ag.stepStarts (g : Ag) : Bool :=
  (g.cur.advance g.cur.live).isNone && g.armed && agWalks g.pend.levels.toNat

/-- A generator replaced; where an input port's starts a walk, the port's decoder state is emptied (R269). -/
def Core.putAg (c : Core) (g : Nat) (ag : Ag) (starts : Bool) : Core :=
  { c with vs := { c.vs with
      ag := vset c.vs.ag g ag
      vdec := if starts then vset c.vs.vdec g Vdec.reset else c.vs.vdec } }

/-! ### Control registers (R70, R200, R220) -/

/-- The control registers. -/
inductive CReg where
  | flg | mxc | cst | bkm | prd | lnchst | wlkst
  | kt (n : Nat)
  deriving DecidableEq, Repr, Inhabited

/-- The newt runs a conductor, not the mailbox service program (R30, R220). -/
def State.runsConductor (s : State) : Bool :=
  let f := vget s.fens s.core.fen
  s.core.newt && !(f.service.isSome && decide (f.master = some s.core.site.toNat))

/-- The control register of a number on this kind of core (R200). -/
def State.creg (s : State) (n : BitVec 10) : Option CReg :=
  let c := s.core
  let k := n.toNat
  if k = 0 then some .flg
  else if k = 1 then (if c.newt then none else some .mxc)
  else if k = 2 then some .cst
  else if k = 3 then (if c.newt then none else some .bkm)
  else if k = 4 then some .prd
  else if !s.runsConductor then none
  else if k = 0x10 then some .lnchst
  else if k = 0x11 then some .wlkst
  else if 0x21 ≤ k ∧ k ≤ 0x2F then some (.kt (k - 0x20))
  else none

/-- An accumulator is busy: an MMA to it has not landed (R61, R273). -/
def Core.accBusy (c : Core) (n : Nat) : Bool := c.mx.mmas.any fun m => decide (m.acc.toNat = n)

/-- CST (R70). -/
def Core.cst (c : Core) : Word :=
  let lcore := if c.newt then c.site.toNat else c.lcoreReg.toNat
  BitVec.ofNat 64
    (c.ctx.toNat * 2 ^ 58 + lcore * 2 ^ 46 + b2n c.newt * 2 ^ 45 + b2n c.retain * 2 ^ 44
      + (b2n (c.accBusy 3) * 8 + b2n (c.accBusy 2) * 4 + b2n (c.accBusy 1) * 2 + b2n (c.accBusy 0)) * 2 ^ 40
      + c.vs.mask1.length * 2 ^ 36 + c.vs.mask0.length * 2 ^ 32
      + b2n c.regs.fe * 16 + c.regs.fl.toNat * 2)

/-- A bank's byte of BKM (R102). -/
def BankReg.byte (b : BankReg) : Nat := b2n b.rerr * 128 + b.pend.toNat * 16 + b2n b.sw * 8 + b.mode.toNat

/-- BKM (R102). -/
def Core.bkm (c : Core) : Word :=
  BitVec.ofNat 64 (c.sp.bank.toList.foldr (fun b acc => b.byte + 256 * acc) 0)

/-- PRD (R200): p1 to p7 at [7:1], sg0 to sg7 at [15:8], [0] reads 1. -/
def Core.prd (c : Core) : Word :=
  BitVec.ofNat 64
    (1 + ((List.range 8).map fun k => if k = 0 then 0 else b2n (vget c.regs.p k) * 2 ^ k).sum + c.loop.sg.toNat * 256)

/-- Launches of a context that are handed over or taken (R35). -/
def State.outstanding (s : State) (n : Nat) : Nat := (vget s.ctxs n).pending.length + s.taken n

/-- The value of a control register. -/
def State.cregRead (s : State) : CReg → Word
  | .flg => s.core.regs.flg.setWidth 64
  | .mxc => s.core.regs.mxc
  | .cst => s.core.cst
  | .bkm => s.core.bkm
  | .prd => s.core.prd
  | .lnchst => s.ctx.lnchst
  | .wlkst => s.wlkst s.core.ctx.toNat
  | .kt n => (vget s.ctx.kt n).setWidth 64

/-- A CRW lands under each field's access code (R7, R220). -/
def State.cregWrite (s : State) (r : CReg) (v : Word) : State :=
  let c := s.core
  let n := c.ctx.toNat
  match r with
  | .flg => { s with core := { c with regs := { c.regs with flg := c.regs.flg &&& ~~~(v.setWidth 7) } } }
  | .mxc => { s with core := { c with regs := { c.regs with mxc := v } } }
  | .cst => { s with core := { c with regs := { c.regs with fe := bit v 4, fl := v.extractLsb' 1 3 } } }
  | .bkm =>
    { s with core := { c with sp := { c.sp with
        bank := c.sp.bank.mapIdx fun i b => { b with rerr := b.rerr && !bit v (8 * i + 7) } } } }
  | .prd =>
    { s with core := { c with regs := { c.regs with
        p := c.regs.p.mapIdx fun i b => if i = 0 then b else bit v i } } }
  | .lnchst => s.onCtx n fun x => { x with lnchst := lnchstWrite x.lnchst v }
  | .wlkst => s.onCtx n fun x => { x with wlkst := wlkstWrite x.wlkst v }
  | .kt k => s.onCtx n fun x => { x with kt := vset x.kt k (ktWrite (v.setWidth 32)) }

/-- CRR (R220). A control register copied into a scalar register; a number of no register here is ILLEGAL. -/
def execCrr (d : BitVec 5) (c : BitVec 10) (p : BitVec 2) (s : State) : Out :=
  match s.creg c with
  | none => .next s.illegal
  | some r => .next (sResult s p 1 d (s.cregRead r))

/-- CRW (R220). A control register written at the end of the cycle. -/
def execCrw (c a e : BitVec 5) (p : BitVec 2) (s : State) : Out :=
  match s.creg (c ++ e) with
  | none => .next s.illegal
  | some _ => .next (if s.activeS p then s.endOfCycle (.crw (c ++ e) (s.core.rs a)) else s)

end Sys2Proof.Machine
end

