-- ==== Sys2Proof/Machine/Control.lean ====
section
/-! DEFINITION. The L and K slots (R194 to R196, R221 to R243): guards, branches, loops, mask stacks, waits,
barriers, the mailbox program, launch, traps, the end of a task, and the broadcast. -/

namespace Sys2Proof.Machine

/-! ### Transfers of control (R190, R221, R222) -/

/-- A transfer taken to a 64-bit target: the target is checked, and becomes the next bundle (R190). -/
def State.jumpTo (s : State) (t : Word) : State :=
  if bits t 2 0 ≠ 0 then s.alignFault t
  else if bits t 63 57 ≠ 0 then s.canonFault t
  else { s with iss := { s.iss with next := some (t.setWidth 57) } }

/-- A transfer taken when the slot runs and its condition holds. -/
def State.jumpIf (s : State) (cond : Bool) (t : Word) : State := if s.active && cond then s.jumpTo t else s

/-- Some loop level is active. -/
def Core.anyLevel (c : Core) : Bool := levels.any fun l => (vget c.loop.lv l).active

/-- FLT_LOOP with its cause (R226, R340). -/
def State.loopFault (s : State) (cause : Nat) : State := s.issueFault 0x08 cause false 0 0

/-- A call: as a jump, unless a level is active or the core is in handler mode (R226, R240). -/
def State.callIf (s : State) (cond : Bool) (t : Word) : State :=
  if s.active && cond then
    if s.core.held.isSome then s.loopFault 9
    else if s.core.anyLevel then s.loopFault 8
    else s.jumpTo t
  else s

/-- The target of a relative transfer (R190). -/
def State.relTarget (s : State) (o : BitVec 14) : Word := bundleAddr s.core.pc o.toInt

/-- B (R221). A guarded relative branch. -/
def execB (g : BitVec 4) (o : BitVec 14) (s : State) : Out := .next (s.jumpIf (s.core.sel g) (s.relTarget o))

/-- CALL (R221). As B; no return address is saved. -/
def execCall (g : BitVec 4) (o : BitVec 14) (s : State) : Out := .next (s.callIf (s.core.sel g) (s.relTarget o))

/-- BRMZ (R230). Taken when the active mask of a vector slot is all zero. A newt has no mask stacks (R71). -/
def execBrmz (v : BitVec 1) (o : BitVec 14) (s : State) : Out :=
  .next (if s.core.newt then s.illegal
    else s.jumpIf (decide (activeMask (s.core.mask (v = 1)) = 0)) (s.relTarget o))

/-- JMPI (R221). A guarded jump to a register's value. -/
def execJmpi (g : BitVec 4) (r : BitVec 5) (s : State) : Out := .next (s.jumpIf (s.core.sel g) (s.core.rs r))

/-- CALLI (R221). As JMPI; refused while a level is active. -/
def execCalli (g : BitVec 4) (r : BitVec 5) (s : State) : Out := .next (s.callIf (s.core.sel g) (s.core.rs r))

/-- RET (R221). A guarded jump to the return address in a register. -/
def execRet (g : BitVec 4) (r : BitVec 5) (s : State) : Out := .next (s.jumpIf (s.core.sel g) (s.core.rs r))

/-! ### Guards and gating (R195, R196, R223) -/

/-- The guards a GUARD gives slots 0 to 7. -/
def guardsOf (c : Core) (m : BitVec 2) (v0 v1 c0 c1 : BitVec 4) : Vector Bool 8 :=
  let mg := if m = 0 then true else if m = 1 then c.sel v0 else if m = 2 then c.sel v1 else c.sel c0
  #v[true, c.sel v0, c.sel v1, mg, c.sel c0, c.sel c1, true, true]

/-- GUARD (R195, R223). The guards of V0, V1, M, C0 and C1; on a newt only C0 and C1 may be named (R212). -/
def execGuard (m : BitVec 2) (a b c d : BitVec 4) (s : State) : Out :=
  .next (if s.core.newt && (decide (m ≠ 0) || decide (a ≠ 0) || decide (b ≠ 0)) then s.encFault
    else { s with iss := { s.iss with guards := guardsOf s.core m a b c d } })

/-- The bundle runs in this iteration of level v (R196). -/
def gateOpen (c : Core) (first last : Bool) (v : Nat) : Bool :=
  let l := vget c.loop.lv v
  !l.active || ((!first || decide (l.lidx = 0)) && (!last || decide (l.lidx.toNat + 1 = l.lcnt.toNat)))

/-- K (R60, R196, R211). The broadcast value, and the gating flags. -/
def execK (f l : BitVec 1) (v : BitVec 3) (k : BitVec 18) (s : State) : Out :=
  .next { s with iss := { s.iss with bc := k, gated := !gateOpen s.core (f = 1) (l = 1) v.toNat } }

/-- KCTL (R211, R334). The control form: its broadcast is zero, and BKPT takes the debug trap, gated off or not. -/
def execKctl (f l : BitVec 1) (v : BitVec 3) (b : BitVec 1) (s : State) : Out :=
  let s := { s with iss := { s.iss with bc := 0, gated := !gateOpen s.core (f = 1) (l = 1) v.toNat } }
  .next (if b = 1 && !s.core.skipBkpt then s.raise 0 0x21 0 false 0 0 else s)

/-! ### Loops (R224, R226, R227) -/

/-- The length a body field names (R209): 0 means 64. -/
def bodyLen (n : BitVec 6) : Nat := if n = 0 then 64 else n.toNat

/-- The body of len bundles after this one extends past an enclosing active body (R226). -/
def Core.pastBody (c : Core) (len : Nat) : Bool :=
  levels.any fun l =>
    let v := vget c.loop.lv l
    v.active && decide (v.last.toNat < c.pc.toNat + 24 * len)

/-- LOOP (R224, R226). -/
def execLoop (l : BitVec 3) (r : BitVec 5) (n : BitVec 6) (s : State) : Out :=
  let c := s.core
  let cnt := c.rs r
  let len := bodyLen n
  .next (if !s.active then s
    else if c.held.isSome then s.loopFault 9
    else if (vget c.loop.lv l.toNat).active then s.loopFault 1
    else if levels.any (fun k => (vget c.loop.lv k).active && decide (k ≤ l.toNat)) then s.loopFault 2
    else if 65535 < cnt.toNat then s.loopFault 3
    else if c.pastBody len then s.loopFault 4
    else { s with iss := { s.iss with
      loopReq := some ⟨l.toNat, false, cnt.setWidth 16, 0, len, decide (cnt = 0)⟩ } })

/-- LOOPP (R226, R227). The stage field holds S − 1. -/
def execLoopp (s : BitVec 3) (r : BitVec 5) (n : BitVec 6) (st : State) : Out :=
  let c := st.core
  let cnt := c.rs r
  let len := bodyLen n
  .next (if !st.active then st
    else if c.held.isSome then st.loopFault 9
    else if (vget c.loop.lv 0).active then st.loopFault 5
    else if 65528 < cnt.toNat then st.loopFault 6
    else if c.pastBody len then st.loopFault 7
    else { st with iss := { st.iss with
      loopReq := some ⟨0, true, cnt.setWidth 16, s.toNat + 1, len, decide (cnt = 0)⟩ } })

/-- A loop started when its bundle commits (R224, R227). -/
def LoopSeq.begin (ls : LoopSeq) (q : LoopReq) (pc : Addr) : LoopSeq :=
  if q.piped then
    let n := q.count.toNat
    { ls.activate q.level true (BitVec.ofNat 16 (n + q.stages - 1)) pc q.len with
      plc := BitVec.ofNat 16 (n - 1), pec := BitVec.ofNat 4 (q.stages - 1), stages := q.stages, sg := 1 }
  else ls.activate q.level false q.count pc q.len

/-! ### Mask stacks (R229) -/

/-- FLT_MSTK (R340). -/
def State.mstkFault (s : State) (v1 : Bool) : State :=
  s.issueFault 0x06 0 false (BitVec.ofNat 64 (b2n v1))
    (BitVec.ofNat 64 ((s.core.mask v1).length + s.core.inflightMasks v1))

/-- Compare pushes of this bundle so far. -/
def Issue.compares (i : Issue) (v1 : Bool) : Nat := if v1 then i.compares1 else i.compares0

/-- A change of a mask stack at the end of the issue cycle, unless the check fails. -/
def State.maskOp (s : State) (v1 : Bool) (ok : Bool) (f : List (BitVec 64) → List (BitVec 64)) : State :=
  if s.core.newt then s.illegal
  else if !s.active then s
  else if ok then { s with core := s.core.setMask v1 (f (s.core.mask v1)) }
  else s.mstkFault v1

/-- The mask a MINV leaves (R229). -/
def invertTop : List (BitVec 64) → List (BitVec 64)
  | [] => []
  | [t] => [~~~t]
  | t :: u :: r => (~~~t &&& u) :: u :: r

/-- MPUSH (R229). A copy of the active mask is pushed. -/
def execMpush (v : BitVec 1) (s : State) : Out :=
  let b := decide (v = 1)
  .next (s.maskOp b (decide ((s.core.mask b).length + s.core.inflightMasks b + s.iss.compares b + 1 ≤ 8))
    fun m => activeMask m :: m)

/-- MINV (R229). The top is inverted within the entry below it. -/
def execMinv (v : BitVec 1) (s : State) : Out :=
  let b := decide (v = 1)
  .next (s.maskOp b (!(s.core.mask b).isEmpty) invertTop)

/-- MPOP (R229). The top is removed. -/
def execMpop (v : BitVec 1) (s : State) : Out :=
  let b := decide (v = 1)
  .next (s.maskOp b (!(s.core.mask b).isEmpty) List.tail)

/-! ### Waits (R231, R232) -/

/-- A hold of the whole bundle while a condition lasts. -/
def State.holdIf (s : State) (cond : Bool) (w : Wait) : State := if s.active && cond then s.holdOn w else s

/-- A wait of the L slot: held while the condition lasts; once it does not, later accesses follow what it waited for. -/
def State.waitIf (s : State) (cond : Bool) (w : Wait) : State := if s.active then (s.synced).holdIf cond w else s

/-- WAITT (R232). Held while the token is PENDING. -/
def execWaitt (t : BitVec 4) (s : State) : Out := .next (s.waitIf (s.core.pending t.toNat) (.token t))

/-- The counter has reached the value, or passed it (R232). -/
def reached (c v : BitVec 32) : Bool := decide ((c - v).toNat < 2 ^ 31)

/-- WAITC (R232). The value register is read when the bundle first reaches issue; a counter the core does not
have is reserved (R209). -/
def execWaitc (c r : BitVec 5) (s : State) : Out :=
  if !s.core.newt && decide (15 < c.toNat) then .next s.encFault
  else
    let v := s.core.waitcVal.getD ((s.core.rs r).setWidth 32)
    let s := if s.active then { s with iss := { s.iss with waitc := some v } } else s
    .next (s.waitIf (!reached (vget s.core.regs.ac c.toNat) v) (.counter c v))

/-- WAITR (R232). Held while a kind 0 post of the core has no reply. -/
def execWaitr (s : State) : Out := .next (s.waitIf (decide (s.core.posts ≠ 0)) .mailbox)

/-! ### Barriers (R233 to R235) -/

/-- The core runs its part of the task: it belongs to it and has not finished (R40). -/
def Task.runsOn (t : Task) (k : CoreKey) : Bool :=
  (t.members.any fun m => decide (m = k)) && !t.finished.any fun m => decide (m = k)

/-- The task a core runs. -/
def State.taskOf (s : State) (k : CoreKey) : Option Task := s.tasks.find? (·.runsOn k)

/-- The task that a core runs changed. -/
def State.onTask (s : State) (k : CoreKey) (f : Task → Task) : State := { s with tasks := mapIf (·.runsOn k) f s.tasks }

/-- The core's latest arrival at a barrier has not completed. -/
def State.arrivalOpen (s : State) (k : CoreKey) (b : Nat) : Bool :=
  (s.taskOf k).elim false fun t => (vget t.bars b).arrived.any fun a => decide (a.core = k)

/-- BARA (R234). An arrival enters the named queue; it holds only while the core's previous arrival is open.
ILLEGAL on a newt (R233). -/
def execBara (b : BitVec 5) (s : BitVec 3) (q : BitVec 2) (st : State) : Out :=
  let k := st.core.key
  .next (if st.core.newt then st.illegal
    else if !st.active then st
    else if st.arrivalOpen k b.toNat then st.holdOn (.barrier b)
    else st.onTask k fun t =>
      let bar := vget t.bars b.toNat
      { t with bars := vset t.bars b.toNat { bar with
          arrived := bar.arrived ++ [⟨k, s, q, st.core.pipes.bundleNo⟩]
          latest := (k, bar.phase) :: bar.latest.filter fun x => decide (x.1 ≠ k) } })

/-- BARW (R235). Held while the core's latest arrival is open. ILLEGAL on a newt (R233). -/
def execBarw (b : BitVec 5) (s : State) : Out :=
  .next (if s.core.newt then s.illegal else s.waitIf (s.arrivalOpen s.core.key b.toNat) (.barrier b))

/-! ### The mailbox program (R165, R236, R237) -/

/-- The site of the focus core is the fen's communication master (R21). -/
def State.isMaster (s : State) : Bool :=
  s.core.newt && decide ((vget s.fens s.core.fen).master = some s.core.site.toNat)

def mbKind (e : BitVec 128) : Nat := bits e 50 48
def mbCtx (e : BitVec 128) : Nat := bits e 63 58

/-- The poster fields of an entry: context, logical core and NEWT. -/
def mbPoster (e : BitVec 128) : Nat := bits e 63 51 * 2 + bits e 43 43

/-- The oldest kind 0 entry of a context that has not been taken. -/
def MbEntry.open (e : MbEntry) (ctx : Nat) : Bool :=
  decide (mbKind e.bits = 0) && decide (mbCtx e.bits = ctx) && !e.taken

/-- The first entry that meets a condition, changed. -/
def firstMap {α : Type} (p : α → Bool) (f : α → α) : List α → List α
  | [] => []
  | x :: r => if p x then f x :: r else x :: firstMap p f r

/-- The first entry that meets a condition, removed. -/
def firstDrop {α : Type} (p : α → Bool) : List α → List α
  | [] => []
  | x :: r => if p x then r else x :: firstDrop p r

/-- MBTAKE (R236). The oldest untaken kind 0 entry of the running context is reserved and written, with bit 42 set,
to local scratchpad; zeros if there is none. Only on the master (R209). -/
def execMbtake (r : BitVec 5) (s : State) : Out :=
  let a := (s.core.rs r).toNat % 2 ^ 18
  let n := s.core.ctx.toNat
  let f := s.core.fen
  .next (if !s.isMaster then s.illegal
    else if !s.active then s
    else if a % 16 ≠ 0 then s.alignFault (BitVec.ofNat 64 a)
    else
      match (vget s.fens f).mailbox.find? fun e => e.open n with
      | none => (s.storePoison a 16).result 3 (.spWrite a (List.replicate 16 0))
      | some e =>
        ((s.onFen f fun x => { x with
          mailbox := firstMap (fun e => e.open n) (fun e => { e with taken := true }) x.mailbox }).storePoison a 16).result 3
          (.spWrite a (bvBytes (e.bits ||| BitVec.ofNat 128 (2 ^ 42)))))

/-- The key of a newt of a fen by its site. -/
def newtKey (fen site : Nat) : CoreKey := 4096 + 2 * fen + (site - 132)

/-- A newt runs the mailbox service program. -/
def State.serving (s : State) (k : CoreKey) : Bool :=
  let f := vget s.fens (fenOfKey k)
  f.service.isSome && decide (f.master.map (newtKey (fenOfKey k)) = some k)

/-- The newt that runs the conductors of a fen: the standby, or the only live one (R30). -/
def Fen.conductorSite (f : Fen) : Option Nat := f.standby.orElse fun _ => f.master

/-- The core a poster field names (R237): NEWT stands for the newt that posts as the standby does (R30, R165). -/
def State.posterKey (s : State) (fen lcore : Nat) (newt : Bool) : Option CoreKey :=
  if newt then (vget s.fens fen).conductorSite.map (newtKey fen) else some (128 * fen + lcore)

/-- MBREPLY (R237). The payload goes to the poster, whose reserved entry leaves the mailbox. Only on the master. -/
def execMbreply (r s : BitVec 5) (st : State) : Out :=
  let w := st.core.rs s
  let f := st.core.fen
  let reply : Reply := ⟨st.core.rs r, BitVec.ofNat 6 (bits w 63 58), some (st.core.key, st.core.pipes.bundleNo)⟩
  .next (if !st.isMaster then st.illegal
    else if !st.active then st
    else
      let s' := st.onFen f fun x => { x with
        mailbox := firstDrop (fun e => e.taken && decide (mbKind e.bits = 0)
          && decide (mbPoster e.bits = mbPoster (w.setWidth 128))) x.mailbox }
      match s'.posterKey f (bits w 57 51) (bit w 43) with
      | none => s'
      | some k => s'.onCore k fun c => { c with replies := c.replies ++ [reply] })

/-! ### Launch, traps, the end of a task (R238 to R242) -/

/-- LAUNCH (R35, R238). The record's address goes to the home fen's walker; held while 64 launches are
outstanding. Only on a newt (R31). -/
def execLaunch (r : BitVec 5) (s : State) : Out :=
  let n := s.core.ctx.toNat
  .next (if !s.core.newt then s.illegal
    else if !s.active then s
    else if 64 ≤ s.outstanding n then s.holdOn .launchSlot
    else s.onCtx n fun x => { x with
      pending := x.pending ++ [⟨s.core.ctx, s.core.key, s.core.rs r, s.core.pipes.bundleNo, [], none⟩] })

/-- TRAP (R239). The trap is taken after the bundle has committed. -/
def execTrap (c : BitVec 8) (s : State) : Out :=
  .next (if s.active then { s with iss := { s.iss with trap := some c } } else s)

/-- TRET (R241). The return from handler mode; ILLEGAL outside it. -/
def execTret (s : State) : Out :=
  .next (if s.core.held.isNone then s.illegal
    else if s.active then { s with iss := { s.iss with tret := true } } else s)

/-- The CEND event, once a conductor that executed DONE has no launch outstanding (R242, R340). -/
def State.postCend (s : State) (n : Nat) : State :=
  let x := vget s.ctxs n
  if x.ended && !x.cend && decide (s.outstanding n = 0) && decide (x.state = 2) then
    (s.onCtx n fun x => { x with cend := true }).post (eventRec 0x22 0 n 0 0 0)
  else s

/-- DONE (R242). Issue ends after this bundle; ILLEGAL in handler mode (R240). -/
def execDone (s : State) : Out :=
  .next (if s.core.held.isSome then s.illegal
    else if s.active then { s with iss := { s.iss with done := true } } else s)

/-- NOP (R192). Nothing. -/
def execNop (s : State) : Out := .next s

end Sys2Proof.Machine
end

