-- ==== Sys2Proof/Machine/Port.lean ====
section
/-! DEFINITION. The core port of the scratchpad (R101, R103, R278, R298): port cycles and conflicts, poison and
tag checks of sectors, and the commands behind a token (R64). -/

namespace Sys2Proof.Machine

/-- FLT_BANK: bank, row, and the schedule cycle of the contended port cycle (R340). -/
def State.bankFault (s : State) (bank row inCycles : Nat) : State :=
  s.issueFault 0x07 0 false (BitVec.ofNat 64 (bank % 8 + row % 1024 * 8)) (s.core.scyc + BitVec.ofNat 64 inCycles)

/-- A bank that an M window may not touch (R278). -/
def BankReg.closed (b : BankReg) : Bool := b.sw || decide (b.mode ≠ 0)

/-- The first poisoned sector (R362). -/
def State.poisonSectors (s : State) (secs : List Nat) : State :=
  match secs.find? fun k => setHas k s.core.sp.poison with
  | some k => s.raiseInfo (spPoison s.core.lcore.toNat (k * 128))
  | none => s

/-- The tag check of sectors (R131) under a presented code; INFO0 names the first tagged sector (R402). -/
def State.checkSectors (s : State) (p : Presented) (secs : List Nat) : KeptResult × State :=
  let tags := secs.map fun k => s.core.sp.tags.read k
  let r := keptCheck s.ctx.kt p tags
  match r with
  | .fault cause t =>
    let k := (secs.find? fun k => tagV (s.core.sp.tags.read k)).getD 0
    (r, s.raiseInfo (keptFault cause p.code t (keptSpInfo (k * 128))))
  | .untagged => (r, s)
  | .carried _ => (r, s)
  | .served _ _ => (r, s)

/-- A read of sectors by an instruction that is no reader. -/
def State.plainSectors (s : State) (secs : List Nat) : State :=
  ((s.poisonSectors secs).checkSectors Presented.none secs).2

/-- Rows of a bank at a cycle already claimed that meet an access (R278, R298): a window on its group, or another row of the
bank. -/
def portMeets (u : PortUse) (inCycles bank row : Nat) : Bool :=
  decide (u.inCycles = inCycles) &&
    (if u.win then decide (u.bank.toNat / 2 = bank / 2) else decide (u.bank.toNat = bank) && decide (u.row.toNat ≠ row))

/-- One bank's port claimed for one cycle by a C slot: FLT_BANK where the bank does not serve the access (R103) or the
cycle is taken (R298). -/
def State.usePort (s : State) (inCycles bank row : Nat) : State :=
  let b := vget s.core.sp.bank bank
  if b.sw || decide (b.mode = 1) || s.iss.uses.any (fun u => portMeets u inCycles bank row) then
    s.bankFault bank row inCycles
  else
    { s with iss := { s.iss with
      uses := s.iss.uses ++ [⟨inCycles, BitVec.ofNat 3 bank, BitVec.ofNat 10 row, false⟩] } }

/-- The banks an access of n bytes at a touches, each with its row. -/
def portRows (a n : Nat) : List (Nat × Nat) := (partsOf a n).map fun p => (bankOf p.1, rowOf p.1)

/-- The port claimed for every bank an access touches. -/
def State.usePorts (s : State) (inCycles a n : Nat) : State :=
  (portRows a n).foldl (fun s p => s.usePort inCycles p.1 p.2) s

/-- Two parts of the machine may not use a bank in the same cycle: a window its group, a C slot the one bank (R279, R298). -/
def PortUse.keeps (u : PortUse) (bank : Nat) : Bool :=
  if u.win then decide (u.bank.toNat / 2 = bank / 2) else decide (u.bank.toNat = bank)

/-- The commands of a core whose completion makes token t DONE (R64). -/
def Core.tokenCmds (c : Core) (t : Nat) : List Nat :=
  if t = 0 then [] else (c.pipes.cmds.filter fun x => decide (x.tok.toNat = t)).map (·.id)

end Sys2Proof.Machine
end

