-- ==== Sys2Proof/Machine/Direct.lean ====
section
/-! DEFINITION. The direct forms of the C slots (R206, R294 to R301). -/

namespace Sys2Proof.Machine

/-! ### The shape register (R294) -/

/-- Bits [hi:lo] of a shape register. -/
def fld (sh : Shape) (hi lo : Nat) : Nat := bits sh hi lo

/-- The active copy of the shape register a C slot names. -/
def State.ksh (s : State) (n : BitVec 2) : Shape :=
  (if s.iss.slot = 4 then vget s.core.kar n.toNat else vget s.core.kbr n.toNat).active

/-- The copies exchanged when the swap bit is set (R63, R296). -/
def State.swapK (s : State) (n : BitVec 2) (w : BitVec 1) : State :=
  if w = 1 then
    let c := s.core
    let ex (r : ShapeReg) : ShapeReg := ⟨r.shadow, r.active⟩
    if s.iss.slot = 4 then { s with core := { c with kar := vset c.kar n.toNat (ex (vget c.kar n.toNat)) } }
    else { s with core := { c with kbr := vset c.kbr n.toNat (ex (vget c.kbr n.toNat)) } }
  else s

/-- A 32-bit field sign-extended to 64 bits. -/
def sext32 (n : Nat) : Word := (BitVec.ofNat 32 n).signExtend 64

/-- A loop level's index; 7 and an inactive level contribute 0 (R295). -/
def Core.lvIndex (c : Core) (lv : Nat) : Word := BitVec.ofNat 64 (c.lidx lv)

/-- A reserved level value (R295). -/
def lvBad (sh : Shape) : Bool := decide (fld sh 134 132 = 6) || decide (fld sh 137 135 = 6)

/-- Address A without loop terms. -/
def baseA (sh : Shape) : Word := BitVec.ofNat 64 (fld sh 56 0)

/-- Address B (R295). -/
def baseB (sh : Shape) : Word := BitVec.ofNat 64 (fld sh 216 160)

/-- Address A with its loop terms (R295). -/
def Core.addrA (c : Core) (sh : Shape) : Word :=
  baseA sh + sext32 (fld sh 95 64) * c.lvIndex (fld sh 134 132) + sext32 (fld sh 127 96) * c.lvIndex (fld sh 137 135)

/-- A window address: the core named by ALO[26:20], and the offset (R99, R295). -/
def windowAddr (sh : Shape) (a : Word) : Word := BitVec.ofNat 64 (fld sh 26 20 * 2 ^ 20 + a.toNat % 2 ^ 20)

/-- Address A in the space that AS chooses. -/
def Core.addrAS (c : Core) (sh : Shape) : Word :=
  if bit sh 63 then windowAddr sh (c.addrA sh) else c.addrA sh

/-- Whether address A names the window. -/
def asWindow (sh : Shape) : Bool := bit sh 63

/-- Whether address B names the window. -/
def bsWindow (sh : Shape) : Bool := bit sh 223

/-! ### Running a C instruction -/

/-- The consumed tokens of a slot (R205). -/
def consumed (x y : BitVec 4) (z : BitVec 3) : List Nat := [x.toNat, y.toNat, z.toNat]

/-- A direct form: it holds while a consumed token is PENDING (R206), captures its shape register, and swaps (R296). Its access
follows the events of the tokens' commands (R139). -/
def directForm (n : BitVec 2) (x y : BitVec 4) (w : BitVec 1) (z : BitVec 3) (body : Shape → State → State)
    (s : State) : Out :=
  if s.active then
    match (consumed x y z).filter fun t => s.core.pending t with
    | t :: l => .next (s.holdTokens ((t :: l).map (BitVec.ofNat 4)))
    | [] =>
      let s := if (consumed x y z).all (fun t => decide (t = 0)) then s else s.synced
      .next ((body (s.ksh n) s).swapK n w)
  else .next s

/-- The queue of a queue form; a port is ILLEGAL (R300). -/
def qOf (sh : Shape) : Nat := fld sh 131 128

/-- D of R299. -/
def dueOf (sh : Shape) : Nat := 16 * 2 ^ fld sh 140 138

/-- The size of an X form. -/
def szxOf (sh : Shape) : Nat := 8 * 2 ^ fld sh 143 141

/-- Checks in the order of R193: ILLEGAL, FLT_ENC, then alignment with the offending address. -/
def State.cChecks (s : State) (illegal enc : Bool) (aligns : List (Nat × Nat)) : State :=
  let s := if illegal then s.illegal else s
  let s := if enc then s.encFault else s
  match aligns.find? fun p => decide (p.1 % p.2 ≠ 0) with
  | some p => s.alignFault (BitVec.ofNat 64 p.1)
  | none => s

/-- A non-canonical global address faults at the bundle (R99). -/
def State.canonCheck (s : State) (a : Word) : State := if bits a 63 57 ≠ 0 then s.canonFault a else s

/-! ### Local scratchpad -/

/-- A result in flight writes the bank through the core port: a store, or the landing of an LDGX. -/
def Core.writesBank (c : Core) (bank : Nat) (i : Inflight) : Bool :=
  match i.what with
  | .spWrite a bs => (portRows (a % c.spSize) bs.length).any fun p => decide (p.1 = bank)
  | .loadX d id => (c.access id).elim false fun a =>
      (portRows d (a.pieces.map (·.len)).sum).any fun p => decide (p.1 = bank)
  | .sreg _ _ => false
  | .pred _ _ => false
  | .push _ _ => false
  | .maskPush _ _ => false
  | .loadQ _ _ => false
  | .stored _ => false

/-- A core-port read of n bytes at a finds a bank's ring empty (R105). -/
def Core.loadWaits (c : Core) (a n : Nat) : Bool := (portRows a n).any fun p => c.fifoEmpty p.1

/-- A load from an empty FIFO bank: the core freezes in its issue cycle, and nothing of what the load would read is checked before the
bank can serve it (R105, R298). A store to a full one freezes it in the cycle in which it writes the bank (Core.storeWaits). -/
def State.fifoFreeze (s : State) : State := { s with iss := { s.iss with freeze := some 0xFF } }

/-- The checks of what a core-port read of n bytes at a finds: poison, then tags (R131, R362). -/
def State.spChecks (s : State) (carry : Bool) (a n : Nat) (r : SpRead) : State :=
  match r.poison with
  | some p => s.raiseInfo (spPoison s.core.lcore.toNat p)
  | none =>
    let first := ((partsOf a n).zip r.tags).find? fun x => tagV x.2
    match keptCheck s.ctx.kt (if carry then Presented.carrying else Presented.none) r.tags with
    | .fault cause t => s.raiseInfo (keptFault cause 0 t (keptSpInfo (first.elim a fun x => x.1.1 / 128 * 128)))
    | .untagged => s
    | .carried _ => s
    | .served _ _ => s

/-- A core-port read at issue: ports, then poison and tags; what it finds. -/
def State.spLoad (s : State) (carry : Bool) (a n : Nat) : SpRead × State :=
  let s := s.usePorts 0 a n
  let r := s.core.sp.read a n
  if s.core.loadWaits a n then (r.1, s.fifoFreeze)
  else (r.1, State.spChecks { s with core := { s.core with sp := r.2 } } carry a n r.1)

/-- A core-port store issued now: the bank is written at the end of the cycle after next (R147, R298). -/
def State.spStoreIssue (s : State) (a : Nat) (bs : List Byte) : State :=
  ((s.usePorts 2 a bs.length).storePoison a bs.length).result 3 (.spWrite a bs)

/-- A tag the sectors agree on, for an entry that carries it. -/
def agreedTag (ts : List Byte) : Byte := carriedTag (ts.headD 0)

/-- LDS and LDSK. -/
def ldsBody (carry : Bool) (sh : Shape) (s : State) : State :=
  let a := (s.core.addrA sh).toNat % s.core.spSize
  let s := s.cChecks (decide (11 < qOf sh)) (lvBad sh) [(a, 256)]
  let r := s.spLoad carry a 256
  r.2.pushQ 6 (qOf sh) [⟨vecOfBytes r.1.bytes, if carry then agreedTag r.1.tags else 0, none⟩]

/-- An entry popped by a store; a tagged one is FLT_KEPT, cause 1 (R133). -/
def State.popStore (s : State) (q : Nat) : List Byte × State :=
  let r := s.takeQ q false
  let s := if tagV r.1.tag then r.2.raiseInfo (keptFault 1 0 r.1.tag (keptQueueInfo q false)) else r.2
  (bvBytes r.1.v, s)

/-- STS. -/
def stsBody (sh : Shape) (s : State) : State :=
  let a := (s.core.addrA sh).toNat % s.core.spSize
  let s := s.cChecks (decide (11 < qOf sh)) (lvBad sh) [(a, 256)]
  let r := s.popStore (qOf sh)
  r.2.spStoreIssue a r.1

/-- LDSX: the copy is written at the end of c + 5 (R298, R301). -/
def ldsxBody (sh : Shape) (s : State) : State :=
  let n := szxOf sh
  let a := (s.core.addrA sh).toNat % s.core.spSize
  let d := fld sh 179 160 % s.core.spSize
  let s := s.cChecks false (lvBad sh || decide (6 ≤ fld sh 143 141)) [(a, n), (d, n)]
  let r := s.spLoad false a n
  ((r.2.usePorts 5 d n).storePoison d n).result 6 (.spWrite d r.1.bytes)

/-- The eight bytes of register SREG. -/
def State.sregBytes (s : State) (sh : Shape) : List Byte := bvBytes (s.core.rs (BitVec.ofNat 5 (fld sh 148 144)))

/-- SREG is read: FLT_CORE if it is in error (R360). -/
def State.sregRead (s : State) (sh : Shape) : State := s.coreRead 1 (fld sh 148 144)

/-- STSX. -/
def stsxBody (sh : Shape) (s : State) : State :=
  let a := (s.core.addrA sh).toNat % s.core.spSize
  let s := (s.cChecks false (lvBad sh || decide (fld sh 143 141 ≠ 0)) [(a, 8)]).sregRead sh
  s.spStoreIssue a (s.sregBytes sh)

/-! ### Accesses that leave the core -/

/-- The pieces of an access, one for each sector it touches (R138). -/
def piecesOf (a : Word) (n : Nat) (bs : List Byte) : List Piece :=
  ((partsOf a.toNat n).foldl
    (fun (st : List Piece × List Byte) p =>
      (st.1 ++ [⟨BitVec.ofNat 64 p.1, st.2.take p.2, p.2, 0, false⟩], st.2.drop p.2)) ([], bs)).1

/-- An access sent on its way in a global queue; its id. -/
def State.sendAccess (s : State) (q : BitVec 2) (space : Space) (store carry : Bool) (a : Word) (n : Nat)
    (bs : List Byte) : Nat × State :=
  let c := s.core
  let id := c.pipes.nextId
  let x : Access := ⟨id, s.iss.slot, q, c.pipes.bundleNo, space, store, carry, piecesOf a n bs, false, false, [], false⟩
  (id, { s with core := { c with pipes := { c.pipes with acc := c.pipes.acc ++ [x], nextId := id + 1 } } })

/-- A load to queue that leaves the core: LDR, LDG, LDGK. -/
def loadQBody (space : Space) (carry : Bool) (q : BitVec 2) (sh : Shape) (s : State) : State :=
  let a := if space = .window then windowAddr sh (s.core.addrA sh) else s.core.addrA sh
  let s := s.cChecks (decide (11 < qOf sh)) (lvBad sh) [(a.toNat, if space = .window then 256 else 128)]
  let s := if space = .window then s else s.canonCheck a
  let r := s.sendAccess q space false carry a 256 []
  (r.2.notePush (qOf sh) 1).result (dueOf sh) (.loadQ (BitVec.ofNat 4 (qOf sh)) r.1)

/-- A store of a popped entry that leaves the core: STR, STG. Its due cycle goes with it (R299). -/
def storeQBody (space : Space) (q : BitVec 2) (sh : Shape) (s : State) : State :=
  let a := if space = .window then windowAddr sh (s.core.addrA sh) else s.core.addrA sh
  let s := s.cChecks (decide (11 < qOf sh)) (lvBad sh) [(a.toNat, if space = .window then 256 else 128)]
  let s := if space = .window then s else s.canonCheck a
  let r := s.popStore (qOf sh)
  let t := r.2.sendAccess q space true false a 256 r.1
  t.2.result (dueOf sh) (.stored t.1)

/-- LDGX. -/
def ldgxBody (q : BitVec 2) (sh : Shape) (s : State) : State :=
  let n := szxOf sh
  let a := s.core.addrA sh
  let d := fld sh 179 160 % s.core.spSize
  let s := s.cChecks false (lvBad sh || decide (6 ≤ fld sh 143 141)) [(a.toNat, n), (d, n)]
  let s := s.canonCheck a
  let s := (s.usePorts (dueOf sh - 1) d n).storePoison d n
  let r := s.sendAccess q .global false false a n []
  r.2.result (dueOf sh) (.loadX d r.1)

/-- STGX. -/
def stgxBody (q : BitVec 2) (sh : Shape) (s : State) : State :=
  let a := s.core.addrA sh
  let s := s.cChecks false (lvBad sh || decide (fld sh 143 141 ≠ 0)) [(a.toNat, 8)]
  let s := (s.canonCheck a).sregRead sh
  let t := s.sendAccess q .global true false a 8 (s.sregBytes sh)
  t.2.result (dueOf sh) (.stored t.1)

/-! ### The instructions -/

/-- LDS (R300). -/
def execLds (sh : BitVec 2) (x y : BitVec 4) (w : BitVec 1) (z : BitVec 3) (s : State) : Out :=
  directForm sh x y w z (ldsBody false) s

/-- LDSK (R300). -/
def execLdsk (sh : BitVec 2) (x y : BitVec 4) (w : BitVec 1) (z : BitVec 3) (s : State) : Out :=
  directForm sh x y w z (ldsBody true) s

/-- STS (R300). -/
def execSts (sh : BitVec 2) (x y : BitVec 4) (w : BitVec 1) (z : BitVec 3) (s : State) : Out :=
  directForm sh x y w z stsBody s

/-- LDSX (R301). -/
def execLdsx (sh : BitVec 2) (x y : BitVec 4) (w : BitVec 1) (z : BitVec 3) (s : State) : Out :=
  directForm sh x y w z ldsxBody s

/-- STSX (R301). -/
def execStsx (sh : BitVec 2) (x y : BitVec 4) (w : BitVec 1) (z : BitVec 3) (s : State) : Out :=
  directForm sh x y w z stsxBody s

/-- LDR (R300). -/
def execLdr (sh q : BitVec 2) (x y : BitVec 4) (w : BitVec 1) (z : BitVec 3) (s : State) : Out :=
  directForm sh x y w z (loadQBody .window false q) s

/-- STR (R300). -/
def execStr (sh q : BitVec 2) (x y : BitVec 4) (w : BitVec 1) (z : BitVec 3) (s : State) : Out :=
  directForm sh x y w z (storeQBody .window q) s

/-- LDG (R300). -/
def execLdg (sh q : BitVec 2) (x y : BitVec 4) (w : BitVec 1) (z : BitVec 3) (s : State) : Out :=
  directForm sh x y w z (loadQBody .global false q) s

/-- LDGK (R300). -/
def execLdgk (sh q : BitVec 2) (x y : BitVec 4) (w : BitVec 1) (z : BitVec 3) (s : State) : Out :=
  directForm sh x y w z (loadQBody .global true q) s

/-- STG (R300). -/
def execStg (sh q : BitVec 2) (x y : BitVec 4) (w : BitVec 1) (z : BitVec 3) (s : State) : Out :=
  directForm sh x y w z (storeQBody .global q) s

/-- LDGX (R301). -/
def execLdgx (sh q : BitVec 2) (x y : BitVec 4) (w : BitVec 1) (z : BitVec 3) (s : State) : Out :=
  directForm sh x y w z (ldgxBody q) s

/-- STGX (R301). -/
def execStgx (sh q : BitVec 2) (x y : BitVec 4) (w : BitVec 1) (z : BitVec 3) (s : State) : Out :=
  directForm sh x y w z (stgxBody q) s

end Sys2Proof.Machine
end

