-- ==== Sys2Proof/Machine/Num.lean ====
section
/-! DEFINITION. Number formats (R73 to R78), the rounding helpers (R10 to R14), overflow (R82) and the flags of a
rounded result (R87). Every value is exact until it is rounded. -/

namespace Sys2Proof.Machine

/-! ### Formats (R73) -/

/-- The floating-point element formats. -/
inductive Fmt where
  | f32 | bf16 | f16 | e4m3 | e5m2
  deriving DecidableEq, Repr, Inhabited

/-- Width in bits. -/
def Fmt.w : Fmt → Nat
  | .f32 => 32
  | .bf16 => 16
  | .f16 => 16
  | .e4m3 => 8
  | .e5m2 => 8

/-- Width of the fraction. -/
def Fmt.fw : Fmt → Nat
  | .f32 => 23
  | .bf16 => 7
  | .f16 => 10
  | .e4m3 => 3
  | .e5m2 => 2

/-- The exponent bias. -/
def Fmt.bias : Fmt → Nat
  | .f32 => 127
  | .bf16 => 127
  | .f16 => 15
  | .e4m3 => 7
  | .e5m2 => 15

/-- Width of the exponent. -/
def Fmt.ew (f : Fmt) : Nat := f.w - 1 - f.fw

/-- The all-ones exponent. -/
def Fmt.emax (f : Fmt) : Nat := 2 ^ f.ew - 1

/-- Precision with the hidden bit. -/
def Fmt.p (f : Fmt) : Nat := f.fw + 1

/-- The exponent of the smallest normal value. -/
def Fmt.emin (f : Fmt) : Int := 1 - (f.bias : Int)

/-- The canonical NaN. -/
def Fmt.nan : Fmt → Nat
  | .f32 => 0x7FC00000
  | .bf16 => 0x7FC0
  | .f16 => 0x7E00
  | .e4m3 => 0x7F
  | .e5m2 => 0x7E

/-- The encoding of the largest finite magnitude. -/
def Fmt.maxEnc (f : Fmt) : Nat := if f = .e4m3 then 0x7E else f.emax * 2 ^ f.fw - 1

/-- The encoding of +∞. -/
def Fmt.infEnc (f : Fmt) : Nat := f.emax * 2 ^ f.fw

/-- The sign bit's weight. -/
def Fmt.sign (f : Fmt) : Nat := 2 ^ (f.w - 1)

/-! ### Values -/

/-- A value: NaN, an infinity, or (−1)^neg · m · 2^e; m = 0 is a signed zero. -/
inductive Val where
  | nan
  | inf (neg : Bool)
  | fin (neg : Bool) (m : Nat) (e : Int)
  deriving DecidableEq, Repr, Inhabited

def Val.isNan : Val → Bool
  | .nan => true
  | .inf _ => false
  | .fin _ _ _ => false

def Val.isInf : Val → Bool
  | .nan => false
  | .inf _ => true
  | .fin _ _ _ => false

def Val.isFin : Val → Bool
  | .nan => false
  | .inf _ => false
  | .fin _ _ _ => true

def Val.isZero : Val → Bool
  | .nan => false
  | .inf _ => false
  | .fin _ m _ => decide (m = 0)

/-- The sign; of a NaN, positive. -/
def Val.neg : Val → Bool
  | .nan => false
  | .inf n => n
  | .fin n _ _ => n

def Val.negate : Val → Val
  | .nan => .nan
  | .inf n => .inf !n
  | .fin n m e => .fin (!n) m e

def Val.abs : Val → Val
  | .nan => .nan
  | .inf _ => .inf false
  | .fin _ m e => .fin false m e

/-- +0. -/
def Val.zero : Val := .fin false 0 0

/-- The value of an encoding (R74). -/
def Fmt.dec (f : Fmt) (x : Nat) : Val :=
  let n := decide (f.sign ≤ x)
  let ef := x / 2 ^ f.fw % 2 ^ f.ew
  let fr := x % 2 ^ f.fw
  if ef = 0 then .fin n fr (f.emin - f.fw)
  else if ef < f.emax then .fin n (2 ^ f.fw + fr) ((ef : Int) - f.bias - f.fw)
  else if f = .e4m3 then
    if fr = 7 then .nan else .fin n (8 + fr) 5
  else if fr = 0 then .inf n
  else .nan

/-- A subnormal encoding. -/
def Fmt.isSub (f : Fmt) (x : Nat) : Bool := decide (x / 2 ^ f.fw % 2 ^ f.ew = 0) && decide (x % 2 ^ f.fw ≠ 0)

/-- The encoding of a finite value n · 2^q that the format holds. -/
def Fmt.encFin (f : Fmt) (neg : Bool) (n : Nat) (q : Int) : Nat :=
  let s := if neg then f.sign else 0
  if n = 0 then s
  else
    let l : Int := Nat.log2 n
    let e := l + q
    if e < f.emin then s + n * 2 ^ (q - (f.emin - f.fw)).toNat / 2 ^ ((f.emin - f.fw) - q).toNat
    else s + ((e + f.bias).toNat * 2 ^ f.fw + (n * 2 ^ (f.fw - l).toNat / 2 ^ (l - f.fw).toNat - 2 ^ f.fw))

/-! ### Rounding (R10 to R13) -/

/-- The rounding modes (R81). -/
inductive Rnd where
  | rn | rz | rp | rm | sr
  deriving DecidableEq, Repr, Inhabited

/-- A mode code (R201). -/
def rndOf : Nat → Rnd
  | 0 => .rn
  | 1 => .rz
  | 2 => .rp
  | 3 => .rm
  | _ => .sr

/-- One step of a Galois LFSR (R12). -/
def lfsNext (s : BitVec 32) : BitVec 32 := if bit s 0 then (s >>> 1) ^^^ 0x80200003 else s >>> 1

/-- The number of trailing zeros of a nonzero number, at most k. -/
def trailing : Nat → Nat → Nat
  | 0, _ => 0
  | k + 1, x => if x % 2 = 1 then 0 else 1 + trailing k (x / 2)

/-- The rounded significand of x = ±(m + s)·2^e, where s is a real in (0, 1) when `sticky` and 0 otherwise, at the
quantum 2^q; `draw` is the stepped LFSR state of a stochastic rounding. -/
def roundSig (mode : Rnd) (neg : Bool) (m : Nat) (e : Int) (sticky : Bool) (q : Int) (draw : BitVec 32) : Nat :=
  if q ≤ e then m * 2 ^ (e - q).toNat
  else
    let k := (q - e).toNat
    let n := m / 2 ^ k
    let g := m % 2 ^ k
    let half := 2 ^ (k - 1)
    let some_ := decide (g ≠ 0) || sticky
    let up := match mode with
      | .rn => decide (half < g) || (decide (g = half) && (sticky || decide (n % 2 = 1)))
      | .rz => false
      | .rp => some_ && !neg
      | .rm => some_ && neg
      | .sr =>
        let d := if g = 0 then 0 else k - trailing k g
        let mm := min d 16
        let t := g * 2 ^ mm / 2 ^ k
        decide (2 ^ mm ≤ t + bits draw 31 16 / 2 ^ (16 - mm))
    if up then n + 1 else n

/-- The exponent of the quantum of precision p and smallest normal exponent emin at m·2^e, m ≠ 0 (R10). -/
def quantum (p : Nat) (emin : Int) (m : Nat) (e : Int) : Int :=
  max ((Nat.log2 m : Int) + e) emin - p + 1

/-! ### Flags (R69) -/

def flNX : BitVec 7 := 1
def flUF : BitVec 7 := 2
def flOF : BitVec 7 := 4
def flDZ : BitVec 7 := 8
def flNV : BitVec 7 := 16
def flSAT : BitVec 7 := 32
def flFZ : BitVec 7 := 64

/-- A flag set on a condition. -/
def flIf (c : Bool) (f : BitVec 7) : BitVec 7 := if c then f else 0

/-! ### Rounding into a format (R82, R87) -/

/-- How a result beyond maxf is replaced (R82): by the format's own rule, or by ±maxf. -/
inductive Ovf where
  | ieee | sat | nan
  deriving DecidableEq, Repr, Inhabited

/-- The replacement of a rounded magnitude beyond maxf, and its flags (NX beside them by the caller). -/
def overflowEnc (f : Fmt) (mode : Rnd) (o : Ovf) (neg : Bool) : Nat × BitVec 7 :=
  let s := if neg then f.sign else 0
  let away := match mode with
    | .rn => true
    | .sr => true
    | .rz => false
    | .rp => !neg
    | .rm => neg
  match o with
  | .sat => (s + f.maxEnc, flSAT)
  | .ieee => if away then (s + f.infEnc, flOF) else (s + f.maxEnc, flSAT)
  | .nan => if away then (f.nan, flNV) else (s + f.maxEnc, flSAT)

/-- A finite exact value ±(m + s)·2^e rounded into a format: encoding and flags. -/
def roundFin (f : Fmt) (mode : Rnd) (o : Ovf) (neg : Bool) (m : Nat) (e : Int) (sticky : Bool) (draw : BitVec 32) :
    Nat × BitVec 7 :=
  if m = 0 then ((if neg then f.sign else 0), 0)
  else
    let q := quantum f.p f.emin m e
    let n := roundSig mode neg m e sticky q draw
    let exact := !sticky && (decide (q ≤ e) || decide (m % 2 ^ (q - e).toNat = 0))
    let beyond := decide (n ≠ 0) && decide (f.dec f.maxEnc ≠ .nan) &&
      (match f.dec f.maxEnc with
       | .fin _ mm me => decide (mm * 2 ^ (me - min me q).toNat < n * 2 ^ (q - min me q).toNat)
       | .inf _ => false
       | .nan => false)
    if beyond then
      let r := overflowEnc f mode o neg
      (r.1, r.2 ||| flNX)
    else
      let tiny := decide (n * 2 ^ (q - (f.emin - f.fw)).toNat < 2 ^ f.fw)
      (f.encFin neg n q, flIf (!exact) flNX ||| flIf (!exact && tiny) flUF)

/-- An exact value rounded into a format. A NaN gives the canonical NaN; an infinity follows R82. -/
def narrow (f : Fmt) (mode : Rnd) (o : Ovf) (x : Val) (draw : BitVec 32) : Nat × BitVec 7 :=
  match x with
  | .nan => (f.nan, 0)
  | .inf neg =>
    let s := if neg then f.sign else 0
    match o with
    | .ieee => (s + f.infEnc, 0)
    | .sat => (s + f.maxEnc, flSAT)
    | .nan => (f.nan, flNV)
  | .fin neg m e => roundFin f mode o neg m e false draw

/-- Rounding to nearest even with the format's own overflow. -/
def rne (f : Fmt) (x : Val) : Nat × BitVec 7 := narrow f .rn .ieee x 0

/-- A value rounded to FP32 and read back. -/
def toF32 (x : Val) : Val := Fmt.f32.dec (rne .f32 x).1

/-- A pre-sum rounded to precision p and smallest normal exponent emin, with no overflow (R89, R91). -/
def roundPre (p : Nat) (emin : Int) (x : Val) : Val :=
  match x with
  | .nan => .nan
  | .inf n => .inf n
  | .fin n m e =>
    if m = 0 then .fin n 0 e
    else
      let q := quantum p emin m e
      .fin n (roundSig .rn n m e false q 0) q

/-! ### Exact arithmetic (R84, R85) -/

/-- The exact sum. An exact sum of zero is +0, unless both addends are −0. -/
def Val.add (a b : Val) : Val :=
  match a, b with
  | .nan, _ => .nan
  | _, .nan => .nan
  | .inf x, .inf y => if x = y then .inf x else .nan
  | .inf x, .fin _ _ _ => .inf x
  | .fin _ _ _, .inf y => .inf y
  | .fin x m e, .fin y k d =>
    let q := min e d
    let i : Int := (if x then -1 else 1) * (m * 2 ^ (e - q).toNat : Nat)
    let j : Int := (if y then -1 else 1) * (k * 2 ^ (d - q).toNat : Nat)
    let r := i + j
    if r = 0 then .fin (decide (m = 0) && decide (k = 0) && x && y) 0 q
    else .fin (decide (r < 0)) r.natAbs q

/-- The exact product. -/
def Val.mul (a b : Val) : Val :=
  match a, b with
  | .nan, _ => .nan
  | _, .nan => .nan
  | .inf x, .inf y => .inf (x != y)
  | .inf x, .fin y k _ => if k = 0 then .nan else .inf (x != y)
  | .fin x m _, .inf y => if m = 0 then .nan else .inf (x != y)
  | .fin x m e, .fin y k d => .fin (x != y) (m * k) (e + d)

/-- The value times 2^k, exactly. -/
def Val.scale (a : Val) (k : Int) : Val :=
  match a with
  | .nan => .nan
  | .inf n => .inf n
  | .fin n m e => .fin n m (e + k)

/-- a < b of two values that are not NaN; +0 equals −0. -/
def Val.lt (a b : Val) : Bool :=
  match a, b with
  | .nan, _ => false
  | _, .nan => false
  | .inf x, .inf y => x && !y
  | .inf x, .fin _ _ _ => x
  | .fin _ _ _, .inf y => !y
  | .fin x m e, .fin y k d =>
    let q := min e d
    let i : Int := (if x then -1 else 1) * (m * 2 ^ (e - q).toNat : Nat)
    let j : Int := (if y then -1 else 1) * (k * 2 ^ (d - q).toNat : Nat)
    decide (i < j)

/-- a = b of two values that are not NaN; +0 equals −0. -/
def Val.eqv (a b : Val) : Bool := !a.isNan && !b.isNan && !a.lt b && !b.lt a

/-- The exact value of an integer. -/
def Val.ofInt (i : Int) : Val := .fin (decide (i < 0)) i.natAbs 0

/-- The sum of a list of exact terms (R89): any NaN, or infinities of both signs, give NaN; a zero sum is −0 only when
every term is −0 (log entry 14). -/
def sumTerms (ts : List Val) : Val :=
  match ts with
  | [] => .zero
  | t :: r => r.foldl Val.add t

/-! ### Integers (R76, R88) -/

/-- A w-bit pattern read as two's complement. -/
def sgn (w x : Nat) : Int := if x % 2 ^ w < 2 ^ (w - 1) then (x % 2 ^ w : Nat) else ((x % 2 ^ w : Nat) : Int) - (2 ^ w : Nat)

/-- An integer as a w-bit pattern. -/
def pat (w : Nat) (i : Int) : Nat := (i % (2 ^ w : Nat)).toNat

/-- An integer clipped to w bits two's complement, and whether that changed it. -/
def clip (w : Nat) (i : Int) : Int × Bool :=
  let hi : Int := (2 ^ (w - 1) : Nat) - 1
  let lo : Int := -((2 ^ (w - 1) : Nat) : Int)
  if hi < i then (hi, true) else if i < lo then (lo, true) else (i, false)

/-- A conversion to a w-bit integer (R88): the value and its flags. -/
def toInt (w : Nat) (mode : Rnd) (x : Val) (draw : BitVec 32) : Int × BitVec 7 :=
  match x with
  | .nan => (0, flNV)
  | .inf neg => ((clip w (if neg then -(2 ^ 64 : Nat) else (2 ^ 64 : Nat))).1, flSAT)
  | .fin neg m e =>
    let n := if m = 0 then 0 else roundSig mode neg m e false 0 draw
    let exact := decide (m = 0) || decide (0 ≤ e) || decide (m % 2 ^ (-e).toNat = 0)
    let c := clip w (if neg then -(n : Int) else n)
    (c.1, if c.2 then flSAT ||| flNX else flIf (!exact) flNX)

/-! ### E8M0 (R75) -/

/-- The scale's exponent; none for NaN. -/
def e8m0 (b : Nat) : Option Int := if b = 255 then none else some ((b : Int) - 127)

/-- A value under an E8M0 scale (R80): a NaN scale makes it NaN. -/
def Val.scaled (x : Val) (b : Nat) : Val := (e8m0 b).elim .nan x.scale

end Sys2Proof.Machine
end

