-- ==== Sys2Proof/Machine/MatrixStep.lean ====
section
/-! DEFINITION. The arithmetic of one matrix step (R78, R80, R86, R89 to R95): the two orders, flushing, and the
counts of exceptions. -/

namespace Sys2Proof.Machine

/-- The format of an element type code of the matrix unit; a .c4 index decodes to BF16 (R62, R78). -/
def mFmt (ty : Nat) : Fmt :=
  match ty with
  | 1 => .f16
  | 2 => .e4m3
  | 3 => .e5m2
  | _ => .bf16

/-- Bits of an element of a type code. -/
def mBits (ty : Nat) : Nat := if ty = 4 then 4 else (mFmt ty).w

/-- An element of an operand: its encoding after codebook decode, whether that is subnormal, its value after the flush
of R86, and its block scale's exponent (none is NaN). -/
structure MEl where
  raw : Nat
  sub : Bool
  v : Val
  sc : Option Int
  deriving DecidableEq, Repr, Inhabited

/-- A value flushed to a zero of its sign. -/
def Val.flush (v : Val) : Val := .fin v.neg 0 0

/-- The element of a code. -/
def mEl (ty : Nat) (cbk : BitVec 256) (ftz : Bool) (code : Nat) (sc : Option Int) : MEl :=
  let f := mFmt ty
  let raw := if ty = 4 then bits cbk (16 * code + 15) (16 * code) else code
  let sub := f.isSub raw
  let v := f.dec raw
  ⟨raw, sub, if ftz && sub then v.flush else v, sc⟩

/-- An element's value under its scale (R80). -/
def MEl.scaled (x : MEl) : Val := x.sc.elim .nan x.v.scale

/-- An entry of the product table: round_rne of the product of two codebook entries (R78). -/
def ptab (a b : Nat) : Nat := (rne .bf16 ((Fmt.bf16.dec a).mul (Fmt.bf16.dec b))).1

/-- A term of a .c4 step (R78, R86, R89), and whether it was flushed. -/
def c4Term (ftz : Bool) (a b : MEl) : Val × Bool :=
  let p := ptab a.raw b.raw
  let fl := ftz && !a.v.isNan && !b.v.isNan && (a.sub || b.sub || Fmt.bf16.isSub p)
  let v := if fl then .fin (decide (Fmt.bf16.sign ≤ a.raw) != decide (Fmt.bf16.sign ≤ b.raw)) 0 0 else Fmt.bf16.dec p
  (match a.sc, b.sc with
   | some i, some j => v.scale (i + j)
   | none, _ => .nan
   | some _, none => .nan, fl)

/-- A term of any other step. -/
def plainTerm (a b : MEl) : Val × Bool := (a.scaled.mul b.scaled, false)

/-- A value below the smallest normal of its format and not zero. -/
def Val.isSubAt (emin : Int) (v : Val) : Bool :=
  match v with
  | .nan => false
  | .inf _ => false
  | .fin _ m e => decide (m ≠ 0) && decide ((Nat.log2 m : Int) + e < emin)

/-- A matrix of values, and whether a value was flushed in making it. -/
structure MBlk where
  m : List (List Val)
  fl : Bool
  deriving DecidableEq, Repr, Inhabited

/-- A value flushed under FTZ if it is subnormal at emin. -/
def flushAt (ftz : Bool) (emin : Int) (v : Val) : Val × Bool :=
  if ftz && v.isSubAt emin then (v.flush, true) else (v, false)

/-- A matrix flushed. -/
def flushBlk (ftz : Bool) (emin : Int) (x : List (List Val)) (fl : Bool) : MBlk :=
  let y := x.map fun r => r.map (flushAt ftz emin)
  ⟨y.map fun r => r.map (·.1), fl || y.any fun r => r.any (·.2)⟩

/-- dot of R89 over rows of A and columns of B: each sum rounded once to FP32. -/
def dotWith {α : Type} (ftz : Bool) (term : α → α → Val × Bool) (x y : List (List α)) : MBlk :=
  let d := x.map fun r => y.map fun c =>
    let ts := List.zipWith term r c
    (toF32 (sumTerms (ts.map (·.1))), ts.any (·.2))
  flushBlk ftz (-126) (d.map fun r => r.map (·.1)) (d.any fun r => r.any (·.2))

/-- dot over plain values. -/
def dotVal (ftz : Bool) (x y : MBlk) : MBlk :=
  let d := dotWith ftz (fun a b => (a.mul b, false)) x.m y.m
  { d with fl := d.fl || x.fl || y.fl }

/-- Elementwise combination. -/
def zip2 (f : Val → Val → Val) (x y : List (List Val)) : List (List Val) := List.zipWith (List.zipWith f) x y

/-- add of R89. -/
def addF32 (x y : Val) : Val := toF32 (x.add y)

/-- add of blocks. -/
def addBlk (x y : MBlk) : MBlk := ⟨zip2 addF32 x.m y.m, x.fl || y.fl⟩

/-- x − y under add. -/
def subBlk (x y : MBlk) : MBlk := ⟨zip2 (fun a b => addF32 a b.negate) x.m y.m, x.fl || y.fl⟩

/-- A pre-sum format of R91: precision and smallest normal exponent. -/
def preFmt (ty : Nat) : Nat × Int :=
  match ty with
  | 1 => (12, -14)
  | 2 => (7, -6)
  | 3 => (6, -14)
  | _ => (11, -126)

/-- A pre-sum x + y, or x − y, rounded into its format (R91, R92). -/
def preSum (ftz : Bool) (ty : Nat) (minus : Bool) (x y : MBlk) : MBlk :=
  let (p, emin) := preFmt ty
  flushBlk ftz emin (zip2 (fun a b => roundPre p emin (a.add (if minus then b.negate else b))) x.m y.m)
    (x.fl || y.fl)

/-- The rows from r on, sixteen of them. -/
def half {α : Type} (x : List (List α)) (second : Bool) : List (List α) := if second then x.drop 16 else x.take 16

/-- The part of every row within one half of the reduction dimension. -/
def part {α : Type} (h : Nat) (x : List (List α)) (second : Bool) : List (List α) :=
  x.map fun r => if second then r.drop h else r.take h

/-- A block of plain values. -/
def valBlk (x : List (List MEl)) : MBlk := ⟨x.map fun r => r.map (·.v), false⟩

/-- D of a step in classical order (R90): add(T1, T2), block by block. The products of a .c4 step are its product-table entries,
which are flushed term by term, and not its sums (R86). -/
def classicalD (ftz c4 : Bool) (h : Nat) (a b : List (List MEl)) (x y : Bool) : MBlk :=
  let term := if c4 then c4Term ftz else plainTerm
  let flush := ftz && !c4
  addBlk (dotWith flush term (part h (half a x) false) (part h (half b y) false))
    (dotWith flush term (part h (half a x) true) (part h (half b y) true))

/-- The four blocks of D of a step in recombined order (R92). A holds rows, B columns. -/
def recombinedD (ftz : Bool) (h tyA tyB : Nat) (a b : List (List MEl)) : MBlk × MBlk × MBlk × MBlk :=
  let a11 := valBlk (part h (half a false) false)
  let a12 := valBlk (part h (half a false) true)
  let a21 := valBlk (part h (half a true) false)
  let a22 := valBlk (part h (half a true) true)
  let b11 := valBlk (part h (half b false) false)
  let b21 := valBlk (part h (half b false) true)
  let b12 := valBlk (part h (half b true) false)
  let b22 := valBlk (part h (half b true) true)
  let p := preSum ftz tyA
  let q := preSum ftz tyB
  let m1 := dotVal ftz (p false a11 a22) (q false b11 b22)
  let m2 := dotVal ftz (p false a21 a22) b11
  let m3 := dotVal ftz a11 (q true b12 b22)
  let m4 := dotVal ftz a22 (q true b21 b11)
  let m5 := dotVal ftz (p false a11 a12) b22
  let m6 := dotVal ftz (p true a21 a11) (q false b11 b12)
  let m7 := dotVal ftz (p true a12 a22) (q false b21 b22)
  (addBlk (subBlk (addBlk m1 m4) m5) m7, addBlk m3 m5, addBlk m2 m4, addBlk (addBlk (subBlk m1 m2) m3) m6)

/-- Blocks side by side, then one above the other. -/
def joinBlks (d11 d12 d21 d22 : MBlk) : MBlk :=
  ⟨List.zipWith (· ++ ·) d11.m d12.m ++ List.zipWith (· ++ ·) d21.m d22.m, d11.fl || d12.fl || d21.fl || d22.fl⟩

/-- What a step does: the accumulator after it, the MXC amounts, and whether it flushed (R95, R284). -/
structure StepOut where
  acc : List Nat
  infa : Nat
  nana : Nat
  nfin : Nat
  fz : Bool
  deriving DecidableEq, Repr, Inhabited

/-- One step on an accumulator of 1,024 encodings, row by row. -/
def matStep (cls ftz : Bool) (tyA tyB : Nat) (a b : List (List MEl)) (acc : List Nat) : StepOut :=
  let h := (a.headD []).length / 2
  let c4 := decide (tyA = 4)
  let d :=
    if cls then
      joinBlks (classicalD ftz c4 h a b false false) (classicalD ftz c4 h a b false true)
        (classicalD ftz c4 h a b true false) (classicalD ftz c4 h a b true true)
    else
      let r := recombinedD ftz h tyA tyB a b
      joinBlks r.1 r.2.1 r.2.2.1 r.2.2.2
  let f := Fmt.f32
  let after := List.zipWith (fun x (v : Val) => (rne f ((f.dec x).add v)).1) acc d.m.flatten
  let pairs := (acc.map f.dec).zip (after.map f.dec)
  let els := a.flatten ++ b.flatten
  { acc := after
    infa := pairs.countP fun p => p.1.isFin && p.2.isInf
    nana := pairs.countP fun p => !p.1.isNan && p.2.isNan
    nfin := if cls then 0 else els.countP fun x => !x.v.isFin
    fz := d.fl || (ftz && !c4 && els.any (·.sub)) }

/-! ### Tile images -/

/-- The elements of a row of a tile: n elements of w bits. -/
def rowCodes (w n row : Nat) : List Nat := (List.range n).map fun k => (row >>> (w * k)) % 2 ^ w

/-- The columns of a matrix given by rows. -/
def columns {α : Type} [Inhabited α] (n : Nat) (rows : List (List α)) : List (List α) :=
  (List.range n).map fun j => rows.map fun r => r.getD j default

/-- The rows of a tile image whose rows are `width` bytes. -/
def imageRows (img : TileBits) (rows width : Nat) : List Nat :=
  (List.range rows).map fun r => (img.toNat >>> (8 * width * r)) % 2 ^ (8 * width)

/-- The 1,024 encodings of an accumulator (R61). -/
def accList (t : TileBits) : List Nat := (List.range 1024).map fun k => (t.toNat >>> (32 * k)) % 2 ^ 32

/-- An accumulator from its encodings. -/
def accOf (l : List Nat) : TileBits := BitVec.ofNat 32768 (l.foldr (fun x acc => acc * 2 ^ 32 + x % 2 ^ 32) 0)

end Sys2Proof.Machine
end

