-- ==== Sys2Proof/Machine/Window.lean ====
section
/-! DEFINITION. The M windows (R272, R277, R280): the rows of a bank group that a tile touches, and the reading
of one row of each window a cycle. -/

namespace Sys2Proof.Machine

/-- Bits [hi:lo] of a shape register. -/
def shAt (sh : Shape) (hi lo : Nat) : Nat := bits sh hi lo

/-- The shape of a tile: rows, and bytes in a row (R272). -/
structure TileShape where
  rows : Nat
  width : Nat
  deriving DecidableEq, Repr, Inhabited

/-- The A tile of a type code (R62, R272). -/
def aShape (ty : Nat) : TileShape := if ty = 4 then ⟨32, 128⟩ else ⟨32, 64⟩

/-- The B tile of a type code. -/
def bShape (ty : Nat) : TileShape := if ty = 4 then ⟨256, 16⟩ else if ty = 2 ∨ ty = 3 then ⟨64, 32⟩ else ⟨32, 64⟩

/-- The offset of tile row r within its group (R272). -/
def tileOff (base stride r : Nat) : Nat := (base + r * stride) % 2 ^ 18

/-- A number put into a rising list once. -/
def rowsAdd (l : List Nat) (x : Nat) : List Nat := setAdd x l

/-- The distinct group rows a tile touches, in ascending offset order from the base (R277): those at or above the
base's row first, then those the wrap of offsets brings below it. -/
def groupRows (base stride : Nat) (t : TileShape) : List (BitVec 10) :=
  let rows := (List.range t.rows).foldl (fun acc r => rowsAdd acc (tileOff base stride r / 256)) []
  let b := base / 256
  (rows.filter (fun r => decide (b ≤ r)) ++ rows.filter (fun r => decide (r < b))).map (BitVec.ofNat 10)

/-- A group row's 256 bytes as they stand. -/
def Core.groupRow (c : Core) (g : Nat) (row : BitVec 10) : Vec :=
  vecOfBytes (c.sp.mem.readBytes (g * 2 ^ 18 + row.toNat * 256) 256)

/-- The bytes of one tile row from the group rows read. -/
def tileRow (got : List (BitVec 10 × Vec)) (off width : Nat) : Nat :=
  let row := (got.find? fun x => decide (x.1.toNat = off / 256)).elim (0 : Vec) (·.2)
  row.toNat >>> (8 * (off % 256)) % 2 ^ (8 * width)

/-- A tile's rows as numbers of width · 8 bits each, from the group rows read. -/
def tileOf (got : List (BitVec 10 × Vec)) (base stride : Nat) (t : TileShape) : List Nat :=
  (List.range t.rows).map fun r => tileRow got (tileOff base stride r) t.width

/-- The packed image of a tile's rows, row by row. -/
def tileImage (t : TileShape) (rows : List Nat) : TileBits :=
  BitVec.ofNat 32768 (rows.reverse.foldl (fun acc r => acc * 2 ^ (8 * t.width) + r) 0)

/-- A window whose rows are all read delivers them: an MMA captures its tile, and a LATCH writes its latch in the
cycle after (R280, R286). -/
def Core.deliver (c : Core) (w : Win) : Core :=
  match w.dest with
  | .mmaA id =>
    { c with mx := { c.mx with mmas := c.mx.mmas.map fun m => if m.id = id then { m with rowsA := some w.got } else m } }
  | .mmaB id =>
    { c with mx := { c.mx with mmas := c.mx.mmas.map fun m => if m.id = id then { m with rowsB := some w.got } else m } }
  | .latch n =>
    let t := bShape w.btype.toNat
    let img := tileImage t (tileOf w.got (shAt w.shape 17 0) (shAt w.shape 49 32) t)
    { c with mx := { c.mx with lt := vset c.mx.lt n.toNat img }, errs := errsWithout (3, 4 + n.toNat) c.errs }

/-- One cycle of one window: the next row is read, or the window ends. -/
def Core.winStep (st : Core × List Win) (w : Win) : Core × List Win :=
  match w.rows with
  | r :: rest =>
    let w := { w with rows := rest, got := w.got ++ [(r, st.1.groupRow w.group.toNat r)] }
    match w.dest, rest with
    | .latch _, _ => (st.1, st.2 ++ [w])
    | .mmaA _, [] => (st.1.deliver w, st.2)
    | .mmaB _, [] => (st.1.deliver w, st.2)
    | .mmaA _, _ :: _ => (st.1, st.2 ++ [w])
    | .mmaB _, _ :: _ => (st.1, st.2 ++ [w])
  | [] => (st.1.deliver w, st.2)

/-- A codebook's busy state ends once its product tables are derived: after the end of cycle c + 17 (R291). -/
def Core.tablesReady (c : Core) : Core :=
  { c with mx := { c.mx with cbkBusy := c.mx.cbkBusy.map fun b => if b = some 0 then none else b } }

/-- One schedule cycle of every window. -/
def Core.winTick (c : Core) : Core :=
  let (c', ws) := c.pipes.wins.foldl Core.winStep (c, [])
  { c' with pipes := { c'.pipes with wins := ws } }

end Sys2Proof.Machine
end

