-- ==== Sys2Proof/Machine/Matrix.lean ====
section
/-! DEFINITION. The M slot (R270 to R293): what each instruction checks, captures and starts. The steps themselves
land as events. -/

namespace Sys2Proof.Machine

/-! ### Selection, capture, swap -/

/-- An M instruction: ILLEGAL in handler mode (R293), nothing when its guard is false. -/
def mRun (s : State) (body : State → State) : Out :=
  if s.core.held.isSome then .next s.illegal else if s.active then .next (body s) else .next s

/-- The active copy of a shape register of M. -/
def State.mx (s : State) (n : BitVec 2) : Shape := (vget s.core.mxr n.toNat).active

/-- The copies exchanged when the swap bit is set (R63). -/
def State.swapMx (s : State) (n : BitVec 2) (w : BitVec 1) : State :=
  if w = 1 then
    let r := vget s.core.mxr n.toNat
    { s with core := { s.core with mxr := vset s.core.mxr n.toNat ⟨r.shadow, r.active⟩ } }
  else s

/-- The format-table entry in use (R62, R70): FL values 6 and 7 behave as 0. -/
def Core.fmtEntry (c : Core) : BitVec 16 :=
  let l := if c.regs.fl.toNat < 6 then c.regs.fl.toNat else 0
  vget c.mx.fmt (if c.regs.fe then c.lidx l % 16 else 0)

def fmtA (e : BitVec 16) : Nat := bits e 15 13
def fmtB (e : BitVec 16) : Nat := bits e 12 10

/-- The width class of a type code; none for 5 to 7 (R62). -/
def widthClass (ty : Nat) : Option Nat :=
  if ty ≤ 1 then some 0 else if ty ≤ 3 then some 1 else if ty = 4 then some 2 else none

/-! ### The scoreboard (R61, R273, R274) -/

/-- A load of the latch is under way. -/
def Core.latchLoading (c : Core) (n : Nat) : Bool :=
  (c.pipes.wins.any fun w => match w.dest with
    | .latch k => decide (k.toNat = n)
    | .mmaA _ => false
    | .mmaB _ => false) || c.mx.reeds.any fun r => decide (r.lt.toNat = n)

/-- An issued MMA that names the latch has not finished its array work. -/
def Core.latchUsed (c : Core) (n : Nat) : Bool :=
  c.mx.mmas.any fun m => !m.arrayDone && !m.bank && decide (m.latch.toNat = n)

/-- A format entry names the codebook. -/
def namesCbk (e : BitVec 16) (n : Nat) : Bool :=
  (decide (fmtA e = 4) && decide (bits e 9 8 = n)) || (decide (fmtB e = 4) && decide (bits e 7 6 = n))

/-- An issued MMA whose format entry names the codebook has not finished its array work. -/
def Core.cbkUsed (c : Core) (n : Nat) : Bool := c.mx.mmas.any fun m => !m.arrayDone && namesCbk m.fmt n

/-- A codebook that the entry names is busy. -/
def Core.cbkWait (c : Core) (e : BitVec 16) : Option Nat :=
  (List.range 4).find? fun n => namesCbk e n && (vget c.mx.cbkBusy n).isSome

/-- A scoreboard hold: the number, and 0 for an accumulator, 1 a latch, 2 a codebook (R346). -/
def State.scoreHold (s : State) (n kind : Nat) : State := s.holdOn (.scoreboard (BitVec.ofNat 2 n) (BitVec.ofNat 2 kind))

/-! ### Alignment, ports, tags -/

/-- The offending base or stride, if either is not a multiple of the row length (R272). -/
def misaligned (base stride len : Nat) : Option Nat :=
  if base % len ≠ 0 then some base else if stride % len ≠ 0 then some stride else none

/-- FLT_ALIGN for the first offending value of a list of (base, stride, row length). -/
def State.alignTiles (s : State) (l : List (Nat × Nat × Nat)) : State :=
  match l.findSome? fun x => misaligned x.1 x.2.1 x.2.2 with
  | some v => s.alignFault (BitVec.ofNat 64 v)
  | none => s

/-- The sectors a tile touches, as absolute scratchpad sector numbers, rising. -/
def tileSectors (g base stride : Nat) (t : TileShape) : List Nat :=
  (List.range t.rows).foldl (fun acc r => setAdd ((g * 2 ^ 18 + tileOff base stride r) / 128) acc) []

/-- A window on a group (R277, R278): its banks must be open, and its port cycles free; it claims them. `first` is its
first cycle from now. -/
def State.claimWindow (s : State) (g first : Nat) (rows : List (BitVec 10)) (secs : List Nat) : State :=
  match secs.find? fun k => (vget s.core.sp.bank (bankOf (k * 128))).closed with
  | some k =>
    s.bankFault (bankOf (k * 128)) (rowOf (k * 128)) (first + rows.findIdx fun r => decide (r.toNat = rowOf (k * 128)))
  | none =>
    let cycles := rows.zipIdx first
    let hit := cycles.find? fun x => s.iss.uses.any fun u =>
      decide (u.inCycles = x.2) && decide (u.bank.toNat / 2 = g)
    match hit with
    | some x => s.bankFault (2 * g) x.1.toNat x.2
    | none =>
      { s with iss := { s.iss with uses := s.iss.uses ++ cycles.flatMap fun x =>
          [⟨x.2, BitVec.ofNat 3 (2 * g), x.1, true⟩, ⟨x.2, BitVec.ofNat 3 (2 * g + 1), x.1, true⟩] } }

/-- A window started in this cycle (R277). -/
def State.startWin (s : State) (w : Win) : State :=
  { s with core := { s.core with pipes := { s.core.pipes with wins := s.core.pipes.wins ++ [w] } } }

/-! ### MMA (R280 to R285) -/

/-- The fields of an MMA's slot. -/
structure MmaSlot where
  op : Nat
  acc : BitVec 2
  latch : BitVec 2
  shape : BitVec 2
  swap : BitVec 1
  begins : BitVec 1
  ends : BitVec 1
  classical : BitVec 1
  groupA : BitVec 2
  scaled : BitVec 1
  bank : Bool
  groupB : BitVec 2
  deriving DecidableEq, Repr, Inhabited

/-- The type code an opcode names. -/
def MmaSlot.ty (m : MmaSlot) : Nat := m.op - 1

/-- The order the step runs in (R90). -/
def MmaSlot.cls (m : MmaSlot) : Bool := decide (m.op = 5) || decide (m.classical = 1)

/-- The variant field. -/
def MmaSlot.variant (m : MmaSlot) : Nat := m.scaled.toNat * 64 + b2n m.bank * 32 + m.groupB.toNat

/-- The condition of R130 and R283 of an entry that serves the B operand. -/
def mmaOk (f : BitVec 16) (m : MmaSlot) (sh : Shape) (e : BitVec 32) : Bool :=
  match ktForm e with
  | 4 =>
    decide (fmtB f = 2) && decide (m.scaled = 1) && m.cls && decide (shAt sh 113 96 = 32)
      && decide (shAt sh 472 466 ≤ 112)
  | 5 => decide (fmtB f = 4) && decide (bits f 7 6 = ktCb e) && decide (shAt sh 113 96 = 16)
  | 6 => decide (fmtB f = ktEtype e) && decide (fmtB f ≤ 3)
  | _ => true

/-- The B tile read from a bank group: its tags are checked under the MMA's own code, with the scale sector of CODE8
(R283), whose tag joins the check once the tile's own tags serve CODE8: a tile that fails faults with its own cause (DESIGN CHOICE,
log entry 137). Answers the form served, FULL for untagged data, and the sectors read. -/
def State.checkB (s : State) (f : BitVec 16) (m : MmaSlot) (sh : Shape) (secs : List Nat) :
    (Nat × List Nat) × State :=
  let s := s.poisonSectors secs
  let p : Presented := ⟨mReader m.op m.variant, false, mmaOk f m sh⟩
  match keptCheck s.ctx.kt p (secs.map fun k => s.core.sp.tags.read k) with
  | .served e _ =>
    if ktForm e = 4 then
      let all := setAdd ((m.groupB.toNat * 2 ^ 18 + shAt sh 465 448) / 128) secs
      let s := s.poisonSectors all
      ((4, all), (s.checkSectors p all).2)
    else ((ktForm e, secs), s)
  | .untagged => ((6, secs), s)
  | .carried _ => ((6, secs), s)
  | .fault _ _ => ((6, secs), (s.checkSectors p secs).2)

/-- The reorder group an MMA falls in (R275), and what stays open after it. -/
def chainOf (m : MmaSlot) (opened : Option Nat) (id : Nat) : Nat × Option Nat :=
  let g := if m.begins = 1 then id else opened.getD id
  let still := if m.begins = 1 then some id else opened
  (g, if m.ends = 1 then none else still)

/-- The scale cache is emptied when SBASE changes (R282). -/
def MatrixUnit.rebase (x : MatrixUnit) (scaled : Bool) (sh : Shape) : MatrixUnit :=
  let b : Addr := BitVec.ofNat 57 (shAt sh 440 384)
  if scaled && decide (x.sbase ≠ some b) then { x with scache := [], sbase := some b }
  else x

/-- The MMA joins the unit's queue. -/
def State.queueMma (s : State) (f : BitVec 16) (m : MmaSlot) (sh : Shape) (served : Nat) : State :=
  let c := s.core
  let id := c.pipes.nextId
  let x := c.mx.rebase (decide (m.scaled = 1)) sh
  let g := chainOf m (vget x.chain m.acc.toNat) id
  let q : Mma :=
    { id := id, ty := BitVec.ofNat 3 m.ty, acc := m.acc, latch := m.latch, bank := m.bank, groupA := m.groupA,
      groupB := m.groupB, classical := m.cls, scaled := decide (m.scaled = 1), fmt := f, shape := sh,
      served := BitVec.ofNat 3 served, chain := g.1, rowsA := none, rowsB := none,
      tileB := if m.bank then 0 else vget x.lt m.latch.toNat,
      cbkA := vget x.cbk (bits f 9 8), cbkB := vget x.cbk (bits f 7 6), bundle := c.pipes.bundleNo, scales := none,
      arrayDone := false, stop := none }
  { s with core := { c with
      pipes := { c.pipes with nextId := id + 1 }
      mx := { x with mmas := x.mmas ++ [q], chain := vset x.chain m.acc.toNat g.2 } } }

/-- What an MMA waits for on the scoreboard (R274). -/
def State.mmaHold (s : State) (f : BitVec 16) (m : MmaSlot) : Option (Nat × Nat) :=
  let c := s.core
  if 4 ≤ c.mx.mmas.length then some (m.acc.toNat, 0)
  else if !m.bank && c.latchLoading m.latch.toNat then some (m.latch.toNat, 1)
  else (c.cbkWait f).map fun n => (n, 2)

/-- The windows and checks of an MMA, and its place in the queue. -/
def State.startMma (s : State) (f : BitVec 16) (m : MmaSlot) : State :=
  let sh := s.mx m.shape
  let ta := aShape m.ty
  let tb := bShape (fmtB f)
  let ao := shAt sh 17 0
  let as := shAt sh 49 32
  let bo := shAt sh 81 64
  let bs := shAt sh 113 96
  let s := s.alignTiles ((ao, as, ta.width) :: if m.bank then [(bo, bs, tb.width)] else [])
  let ga := m.groupA.toNat
  let gb := m.groupB.toNat
  let rowsA := groupRows ao as ta
  let secsA := tileSectors ga ao as ta
  let s := s.claimWindow ga 0 rowsA secsA
  let s := s.plainSectors secsA
  let id := s.core.pipes.nextId
  let winA : Win := ⟨.mmaA id, m.groupA, rowsA, [], sh, 0⟩
  if m.bank then
    let k := s.checkB f m sh (tileSectors gb bo bs tb)
    let base := groupRows bo bs tb
    let scaleRow : BitVec 10 := BitVec.ofNat 10 (shAt sh 465 448 / 256)
    let rowsB := if k.1.1 = 4 && !base.any (fun r => decide (r = scaleRow)) then base ++ [scaleRow] else base
    let s := k.2.claimWindow gb 0 rowsB k.1.2
    let s := s.queueMma f m sh k.1.1
    ((s.startWin winA).startWin ⟨.mmaB id, m.groupB, rowsB, [], sh, 0⟩).swapMx m.shape m.swap
  else ((s.queueMma f m sh 6).startWin winA).swapMx m.shape m.swap

/-- MMA. -/
def mMma (m : MmaSlot) (s : State) : Out :=
  mRun s fun s =>
    let f := s.core.fmtEntry
    match s.mmaHold f m with
    | some h => s.scoreHold h.1 h.2
    | none =>
      if fmtA f ≠ m.ty ∨ widthClass (fmtB f) ≠ widthClass m.ty then s.encFault
      else
        let s := s.coreRead 3 m.acc.toNat
        (if m.bank then s else s.coreRead 3 (4 + m.latch.toNat)).startMma f m

/-! ### LATCH and LATCHREED (R286, R287) -/

/-- LATCH. -/
def mLatch (l sh : BitVec 2) (w : BitVec 1) (g : BitVec 2) (s : State) : Out :=
  mRun s fun s =>
    let f := s.core.fmtEntry
    let n := l.toNat
    if s.core.latchLoading n || s.core.latchUsed n then s.scoreHold n 1
    else if (widthClass (fmtB f)).isNone then s.encFault
    else
      let x := s.mx sh
      let t := bShape (fmtB f)
      let o := shAt x 17 0
      let st := shAt x 49 32
      let rows := groupRows o st t
      let secs := tileSectors g.toNat o st t
      let s := s.alignTiles [(o, st, t.width)]
      let s := s.claimWindow g.toNat 0 rows secs
      let s := s.plainSectors secs
      (s.startWin ⟨.latch l, g, rows, [], x, BitVec.ofNat 3 (fmtB f)⟩).swapMx sh w

/-- LATCHREED. -/
def mLatchreed (l sh : BitVec 2) (w : BitVec 1) (s : State) : Out :=
  mRun s fun s =>
    let f := s.core.fmtEntry
    let n := l.toNat
    if s.core.latchLoading n || s.core.latchUsed n then s.scoreHold n 1
    else if (widthClass (fmtB f)).isNone then s.encFault
    else
      let x := s.mx sh
      let t := bShape (fmtB f)
      let a := shAt x 248 192
      let s := s.alignTiles [(a, shAt x 287 256, t.width)]
      let r : Reed := ⟨l, BitVec.ofNat 64 a, BitVec.ofNat 32 (shAt x 287 256), BitVec.ofNat 3 (fmtB f),
        s.core.tokenCmds (shAt x 255 252), 0, [], none⟩
      (s.endOfCycle (.reed r)).swapMx sh w

/-! ### DRAIN, DRAINT and ZERO (R288 to R290) -/

/-- The output format of a drain's type code. -/
def drainFmt (t : Nat) : Fmt :=
  match t with
  | 1 => .bf16
  | 2 => .f16
  | 3 => .e4m3
  | 4 => .e5m2
  | _ => .f32

/-- How a drain replaces what lies beyond maxf. -/
def drainOvf (t : Nat) (alt : Bool) : Ovf :=
  if t = 3 then (if alt then .nan else .sat) else if t = 4 && alt then .sat else .ieee

/-- One drained element: its encoding, and whether it was replaced by ±maxf. -/
def drainEl (t : Nat) (alt : Bool) (x : Nat) : Nat × Bool :=
  if t = 0 then (x, false)
  else
    let r := narrow (drainFmt t) .rn (drainOvf t alt) (Fmt.f32.dec x) 0
    (r.1, decide (r.2 &&& flSAT ≠ 0))

/-- The writes to one sector, in the order of tile rows: one whole-sector write when they cover it. -/
def sectorWrites (k : Nat) (ws : List (Nat × List Byte)) : List (Nat × List Byte) :=
  let final : Memory := ws.foldl (fun m w => m.writeBytes w.1 w.2) []
  let covered := (List.range 128).all fun j => ws.any fun w =>
    decide (w.1 ≤ k * 128 + j) && decide (k * 128 + j < w.1 + w.2.length)
  if covered then [(k * 128, final.readBytes (k * 128) 128)] else ws

/-- A store of a drain: the place of its group row in the window, the address and the bytes. -/
structure DrainWrite where
  row : Nat
  addr : Nat
  bytes : List Byte
  deriving DecidableEq, Repr, Inhabited

/-- The stores of a drain: for each group row in order, the writes of its two sectors (R289). -/
def drainWrites (g base stride : Nat) (t : TileShape) (rows : List (List Byte)) : List DrainWrite :=
  let all := rows.zipIdx.map fun x => (g * 2 ^ 18 + tileOff base stride x.2, x.1)
  (groupRows base stride t).zipIdx.flatMap fun x =>
    let k := 2 * (g * 1024 + x.1.toNat)
    [k, k + 1].flatMap fun k =>
      (sectorWrites k (all.filter fun w => decide (w.1 / 128 = k))).map fun w => ⟨x.2, w.1, w.2⟩

/-- DRAIN and DRAINT. -/
def mDrain (transpose : Bool) (a sh : BitVec 2) (w : BitVec 1) (t : BitVec 3) (alt zac : BitVec 1) (g : BitVec 2)
    (s : State) : Out :=
  mRun s fun s =>
    let n := a.toNat
    if s.core.accBusy n then s.scoreHold n 0
    else
      let x := s.mx sh
      let f := drainFmt t.toNat
      let ts : TileShape := ⟨32, 4 * f.w⟩
      let o := shAt x 145 128
      let st := shAt x 177 160
      let acc := accList (vget s.core.mx.acc n)
      let els := (List.range 32).map fun i => (List.range 32).map fun j =>
        drainEl t.toNat (decide (alt = 1)) (acc.getD (if transpose then 32 * j + i else 32 * i + j) 0)
      let rows := els.map fun r => natToBytes (4 * f.w) (r.foldr (fun e b => b * 2 ^ f.w + e.1 % 2 ^ f.w) 0)
      let s := (s.coreRead 3 n).alignTiles [(o, st, ts.width)]
      let s := s.claimWindow g.toNat 2 (groupRows o st ts) (tileSectors g.toNat o st ts)
      let s := (drainWrites g.toNat o st ts rows).foldl
        (fun s y => (s.storePoison y.addr y.bytes.length).result (3 + y.row) (.spWrite y.addr y.bytes)) s
      let c := s.core
      let zero := decide (zac = 1)
      let s := { s with
        iss := { s.iss with satd := s.iss.satd + els.flatten.countP fun (e : Nat × Bool) => e.2 }
        core := { c with mx := { c.mx with
          chain := vset c.mx.chain n none
          acc := if zero then vset c.mx.acc n 0 else c.mx.acc } } }
      s.swapMx sh w

/-- ZERO. -/
def mZero (a : BitVec 2) (s : State) : Out :=
  mRun s fun s =>
    let n := a.toNat
    let c := s.core
    if c.accBusy n then s.scoreHold n 0
    else
      { s with core := { c with
          mx := { c.mx with acc := vset c.mx.acc n 0, chain := vset c.mx.chain n none }, errs := errsWithout (3, n) c.errs } }

/-! ### LDCBK and LDFMT (R291, R292) -/

/-- The 32 bytes at AOFF of a group, read through the core port in this cycle: what they hold. -/
def State.read32 (s : State) (x : Shape) (g : BitVec 2) : BitVec 256 × State :=
  let o := shAt x 17 0
  let a := g.toNat * 2 ^ 18 + o
  let s := if o % 32 ≠ 0 then s.alignFault (BitVec.ofNat 64 o) else s
  let s := s.claimWindow g.toNat 0 [BitVec.ofNat 10 (o / 256)] [a / 128]
  let s := s.plainSectors [a / 128]
  (BitVec.ofNat 256 (bytesToNat (s.core.sp.mem.readBytes a 32)), s)

/-- LDCBK. -/
def mLdcbk (l sh : BitVec 2) (w : BitVec 1) (g : BitVec 2) (s : State) : Out :=
  mRun s fun s =>
    let n := l.toNat
    if (vget s.core.mx.cbkBusy n).isSome || s.core.cbkUsed n then s.scoreHold n 2
    else
      let r := s.read32 (s.mx sh) g
      (r.2.endOfCycle (.cbk l r.1)).swapMx sh w

/-- LDFMT: bits [4:0] of each entry are written as zero. -/
def mLdfmt (sh : BitVec 2) (w : BitVec 1) (g : BitVec 2) (s : State) : Out :=
  mRun s fun s =>
    let r := s.read32 (s.mx sh) g
    let c := r.2.core
    let fmt : Vector (BitVec 16) 16 := Vector.ofFn fun n : Fin 16 =>
      r.1.extractLsb' (16 * n.val) 16 &&& 0xFFE0
    { r.2 with core := { c with mx := { c.mx with fmt := fmt } } }.swapMx sh w

/-! ### The instructions -/

/-- MMA_BF16_LATCH (R280). -/
def execMmaBf16Latch (c l sh : BitVec 2) (w b e k : BitVec 1) (g : BitVec 2) (h : BitVec 1) (s : State) : Out :=
  mMma ⟨1, c, l, sh, w, b, e, k, g, h, false, 0⟩ s

/-- MMA_BF16_BANK (R280). -/
def execMmaBf16Bank (c sh : BitVec 2) (w b e k : BitVec 1) (g : BitVec 2) (h : BitVec 1) (j : BitVec 2) (s : State) : Out :=
  mMma ⟨1, c, 0, sh, w, b, e, k, g, h, true, j⟩ s

/-- MMA_F16_LATCH (R280). -/
def execMmaF16Latch (c l sh : BitVec 2) (w b e k : BitVec 1) (g : BitVec 2) (h : BitVec 1) (s : State) : Out :=
  mMma ⟨2, c, l, sh, w, b, e, k, g, h, false, 0⟩ s

/-- MMA_F16_BANK (R280). -/
def execMmaF16Bank (c sh : BitVec 2) (w b e k : BitVec 1) (g : BitVec 2) (h : BitVec 1) (j : BitVec 2) (s : State) : Out :=
  mMma ⟨2, c, 0, sh, w, b, e, k, g, h, true, j⟩ s

/-- MMA_E4M3_LATCH (R280). -/
def execMmaE4m3Latch (c l sh : BitVec 2) (w b e k : BitVec 1) (g : BitVec 2) (h : BitVec 1) (s : State) : Out :=
  mMma ⟨3, c, l, sh, w, b, e, k, g, h, false, 0⟩ s

/-- MMA_E4M3_BANK (R280). -/
def execMmaE4m3Bank (c sh : BitVec 2) (w b e k : BitVec 1) (g : BitVec 2) (h : BitVec 1) (j : BitVec 2) (s : State) : Out :=
  mMma ⟨3, c, 0, sh, w, b, e, k, g, h, true, j⟩ s

/-- MMA_E5M2_LATCH (R280). -/
def execMmaE5m2Latch (c l sh : BitVec 2) (w b e k : BitVec 1) (g : BitVec 2) (h : BitVec 1) (s : State) : Out :=
  mMma ⟨4, c, l, sh, w, b, e, k, g, h, false, 0⟩ s

/-- MMA_E5M2_BANK (R280). -/
def execMmaE5m2Bank (c sh : BitVec 2) (w b e k : BitVec 1) (g : BitVec 2) (h : BitVec 1) (j : BitVec 2) (s : State) : Out :=
  mMma ⟨4, c, 0, sh, w, b, e, k, g, h, true, j⟩ s

/-- MMA_C4_LATCH (R280). -/
def execMmaC4Latch (c l sh : BitVec 2) (w b e k : BitVec 1) (g : BitVec 2) (h : BitVec 1) (s : State) : Out :=
  mMma ⟨5, c, l, sh, w, b, e, k, g, h, false, 0⟩ s

/-- MMA_C4_BANK (R280). -/
def execMmaC4Bank (c sh : BitVec 2) (w b e k : BitVec 1) (g : BitVec 2) (h : BitVec 1) (j : BitVec 2) (s : State) : Out :=
  mMma ⟨5, c, 0, sh, w, b, e, k, g, h, true, j⟩ s

/-- LATCH (R286). -/
def execLatch (l sh : BitVec 2) (w : BitVec 1) (g : BitVec 2) (s : State) : Out :=
  mLatch l sh w g s

/-- LATCHREED (R287). -/
def execLatchreed (l sh : BitVec 2) (w : BitVec 1) (s : State) : Out :=
  mLatchreed l sh w s

/-- DRAIN (R288). -/
def execDrain (c sh : BitVec 2) (w : BitVec 1) (t : BitVec 3) (a z : BitVec 1) (g : BitVec 2) (s : State) : Out :=
  mDrain false c sh w t a z g s

/-- DRAINT (R288). -/
def execDraint (c sh : BitVec 2) (w : BitVec 1) (t : BitVec 3) (a z : BitVec 1) (g : BitVec 2) (s : State) : Out :=
  mDrain true c sh w t a z g s

/-- ZERO (R290). -/
def execZero (c : BitVec 2) (s : State) : Out :=
  mZero c s

/-- LDCBK (R291). -/
def execLdcbk (l sh : BitVec 2) (w : BitVec 1) (g : BitVec 2) (s : State) : Out :=
  mLdcbk l sh w g s

/-- LDFMT (R292). -/
def execLdfmt (sh : BitVec 2) (w : BitVec 1) (g : BitVec 2) (s : State) : Out :=
  mLdfmt sh w g s

/-! ### The scale bytes that a step names (R281, R283) -/

/-- The length of the reduction dimension of a type code. -/
def mDepth (ty : Nat) : Nat := if ty = 4 then 256 else if ty = 2 ∨ ty = 3 then 64 else 32

/-- The scale bytes of a step: tensor identifier and block numbers, one list for each row of A or column of B (R281). -/
def scaleBlocks (tid blk0 per depth : Nat) : List (List (Nat × Nat)) :=
  if tid = 0 then []
  else (List.range 32).map fun i => (List.range (depth / 32)).map fun k => (tid, (blk0 + i * per + k) % 2 ^ 24)

def Mma.tyA (m : Mma) : Nat := fmtA m.fmt
def Mma.tyB (m : Mma) : Nat := fmtB m.fmt
def Mma.ftz (m : Mma) : Bool := bit m.fmt 5

/-- The scale blocks of A. -/
def Mma.blocksA (m : Mma) : List (List (Nat × Nat)) :=
  if m.scaled then scaleBlocks (shAt m.shape 319 312) (shAt m.shape 311 288) (shAt m.shape 383 368) (mDepth m.tyA) else []

/-- The scale blocks of B; a kept CODE8 B has its own scales (R283). -/
def Mma.blocksB (m : Mma) : List (List (Nat × Nat)) :=
  if m.scaled && decide (m.served ≠ 4) then
    scaleBlocks (shAt m.shape 351 344) (shAt m.shape 343 320) (shAt m.shape 367 352) (mDepth m.tyA) else []

end Sys2Proof.Machine
end

