-- ==== Sys2Proof/Machine/Access.lean ====
section
/-! DEFINITION. Accesses after they have left the core (R137, R138, R146 to R148, R299, R335, R352), the network port
of a scratchpad, bank switches and FIFO banks (R101 to R105), address generators (R59, R219), and the landing of results
(R46, R57). -/

namespace Sys2Proof.Machine

/-! ### The network port (R101, R103, R105, R148) -/

/-- A bank's RERR set (R102). -/
def Core.setRerr (c : Core) (b : Nat) : Core :=
  { c with sp := { c.sp with bank := vset c.sp.bank b { vget c.sp.bank b with rerr := true } } }

/-- The bank serves no network access (R103). -/
def BankReg.shut (b : BankReg) : Bool := b.sw || decide (b.mode = 1)

/-- A network write takes its place in the sector: later than every lease, and not before its writer's clock (R141). -/
def Scratch.wrote (sp : Scratch) (k : Nat) : Scratch := sp.wroteAfter sp.floor k

/-- A write of a queue whose clock is `clock` is on its way to a core's scratchpad. -/
def State.spBound (s : State) (k : CoreKey) (clock : Nat) : State :=
  { s.onCore k fun c => { c with sp := { c.sp with floor := max c.sp.floor clock } } with latest := max s.latest clock }

/-- The time at which a network read of a scratchpad sector takes place, for a queue whose clock is `clock`; its lease lasts to
that time, and a write takes a later one. -/
def State.spReadAt (s : State) (k : CoreKey) (off clock : Nat) : Nat × State :=
  let c := s.getCore k
  let n := off % c.spSize / 128
  let x := c.sp.stamp n
  let t := max clock x.1
  (t, { s.putCore { c with sp := c.sp.setStamp n x.1 (max x.2 t) } with latest := max s.latest (t + 1) })

/-- The time of the last write of a scratchpad sector. -/
def State.spWrote (s : State) (k : CoreKey) (off : Nat) : Nat :=
  let c := s.getCore k
  (c.sp.stamp (off % c.spSize / 128)).1

/-- A read piece through the network port: bytes and tag. A shut bank gives zero and sets RERR (R103); what a FIFO
bank gives is left open. -/
def State.netRead (s : State) (k : CoreKey) (off n : Nat) : Except FaultInfo (List Byte × Byte) × State :=
  let c := (s.getCore k).landDue
  let off := off % c.spSize
  let b := bankOf off
  let r := vget c.sp.bank b
  if r.shut then (.ok (List.replicate n 0, 0), s.putCore (c.setRerr b))
  else if r.mode = 2 then
    (.ok ((List.range n).map fun i => Config.freeByte (s.tick * 128 + i), 0), (s.putCore (c.setRerr b)).fresh)
  else if setHas (off / 128) c.sp.poison then (.error (spPoison c.lcore.toNat off), s.putCore c)
  else (.ok (c.sp.mem.readBytes off n, c.sp.tags.read (off / 128)), s.putCore c)

/-- What becomes of a write piece at the network port. -/
inductive NetOut where
  | done (c : Core)
  | full
  | fault (f : FaultInfo)

/-- A write piece through the network port, with a tag. A shut bank discards it and sets RERR (R103); a FIFO bank
takes one entry and sets RERR too (R102), or is full (R105). -/
def Core.netWrite (c : Core) (off : Nat) (bs : List Byte) (tag : Byte) : NetOut :=
  let c := c.landDue
  let off := off % c.spSize
  let b := bankOf off
  let r := vget c.sp.bank b
  if r.shut then .done (c.setRerr b)
  else if r.mode = 2 then
    if c.fifoFull b then .full else .done (({ c with sp := (c.sp.storePart off bs tag).wrote (off / 128) } : Core).setRerr b)
  else if decide (bs.length ≠ 128) && setHas (off / 128) c.sp.poison then .fault (spPoison c.lcore.toNat off)
  else .done { c with sp := (c.sp.put off bs tag).wrote (off / 128) }

/-! ### The fen scratchpad window (R99, R330, R352) -/

/-- The core a window address names. -/
def windowCore (fen a : Nat) : CoreKey := 128 * fen + a / 2 ^ 20 % 128

/-- The target runs a task of the context, and is not being saved; a saving core's own commands still reach it (R351,
R352). -/
def State.windowOpen (s : State) (target src : CoreKey) (ctx : BitVec 6) : Bool :=
  let c := s.getCore target
  (decide (c.status = .running) || decide (c.status = .finishing)) && decide (c.ctx = ctx)
    && (decide ((vget s.ctxs ctx.toNat).pst = 0) || decide (src = target))

/-- The key under which a newt's items are held: the fen's, whichever of its newts runs. -/
def holdKey (k : CoreKey) : CoreKey := if isNewtKey k then 4096 + 2 * fenOfKey k else k

/-- The core that a member word names in a fen (R168): its logical core, or its master. -/
def memberHoldKey (fen : Nat) (m : Word) : CoreKey := if bit m 18 then 4096 + 2 * fen else 128 * fen + bits m 17 11

/-- The core that a held item is for. -/
def HeldItem.target (fen : Nat) : HeldItem → CoreKey
  | .transfer t _ => memberHoldKey fen t.member
  | .netWrite k _ => k
  | .netRead k _ _ _ _ => k
  | .engWrite k _ _ _ => k
  | .engRead k _ _ => k
  | .count k _ _ _ => holdKey k

/-- The context of an item held at a master. -/
def HeldItem.ctx : HeldItem → BitVec 6
  | .transfer t _ => t.ctx
  | .netWrite _ w => w.ctx
  | .netRead _ _ _ _ n => n
  | .engWrite _ _ n _ => n
  | .engRead _ _ n => n
  | .count _ n _ _ => n

/-- A read that an engine's element waits for. -/
def HeldItem.readOf (src : EngSrc) : HeldItem → Bool
  | .engRead _ x _ => decide (x = src)
  | .transfer _ _ => false
  | .netWrite _ _ => false
  | .netRead _ _ _ _ _ => false
  | .engWrite _ _ _ _ => false
  | .count _ _ _ _ => false

/-- A write of an engine. -/
def HeldItem.writeOf (src : EngSrc) : HeldItem → Bool
  | .engWrite _ x _ _ => decide (x = src)
  | .transfer _ _ => false
  | .netWrite _ _ => false
  | .netRead _ _ _ _ _ => false
  | .engRead _ _ _ => false
  | .count _ _ _ _ => false

/-- An item that meets a condition is held at some master. -/
def State.heldAny (s : State) (p : HeldItem → Bool) : Bool := s.fens.toList.any fun f => f.held.any fun h => p h.1

/-- A window access that arrives now is served: its target is open, and nothing of its context that arrived before is held for it
(R330, R352). A core's access to itself waits for nothing (R351). -/
def State.windowAt (s : State) (fen : Nat) (target src : CoreKey) (ctx : BitVec 6) : Bool :=
  s.windowOpen target src ctx && (decide (src = target)
    || !(vget s.fens fen).held.any fun h => decide (h.1.target fen = target) && decide (h.1.ctx = ctx))

/-- Something held at the master of a fen, in the order of arrival. -/
def State.holdAt (s : State) (fen : Nat) (h : HeldItem) : State := s.onFen fen fun f => { f with held := f.held ++ [(h, false)] }

/-- What came before everything that is held there, and goes to the front. -/
def State.holdFirst (s : State) (fen : Nat) (h : HeldItem) : State := s.onFen fen fun f => { f with held := (h, false) :: f.held }

/-! ### Progress of an access -/

/-- A core's access replaced. -/
def Core.onAccess (c : Core) (id : Nat) (f : Access → Access) : Core :=
  { c with pipes := { c.pipes with acc := c.pipes.acc.map fun a => if a.id = id then f a else a } }

/-- Every piece is performed. -/
def Access.complete (a : Access) : Bool := a.pieces.all (·.done)

/-- A piece replaced. -/
def Access.onPiece (a : Access) (i : Nat) (f : Piece → Piece) : Access :=
  { a with pieces := a.pieces.zipIdx.map fun x => if x.2 = i then f x.1 else x.1 }

/-- A store's piece is performed; the access ends with its last piece. -/
def Core.storeDone (c : Core) (id i : Nat) : Core :=
  let c := c.onAccess id fun a => a.onPiece i fun p => { p with done := true }
  match c.access id with
  | none => c
  | some a => if a.complete then c.dropAccess id else c

/-- The access meets a fault after its bundle committed: it is held and performed again on resume, and the fault that reached the core
first is the one recorded, of those of one cycle the lowest slot's (R335). A load's pieces are undone. While the core is stopped nothing more is recorded. -/
def State.accessFault (s : State) (k : CoreKey) (id : Nat) (f : FaultInfo) : State :=
  (s.met f).onCore k fun c =>
    match c.access id with
    | none => c
    | some a =>
      let c := c.onAccess id fun a => { a with
        faulted := true
        pieces := if a.store then a.pieces else a.pieces.map fun p => { p with done := false, bytes := [], tag := 0 } }
      let r := { c.record 0 f.code f.cause true a.slot f.i0 f.i1 with ext := BitVec.ofNat 160 f.ext }
      let first := c.dfFault.elim true fun g => decide (a.slot < g.slot.toNat) && !c.dfPast
      if c.stop.isSome || !first then c else { c with dfFault := some r, dfPast := false }

/-- INFO0 of a FLT_KEPT met by a load (R341, R402). -/
def Access.keptInfo (a : Access) : Word :=
  let first := (a.pieces.find? fun p => tagV p.tag).getD default
  match a.space with
  | .window => keptSpInfo (first.addr.toNat / 128 * 128)
  | .global => (a.pieces.head?.getD default).addr &&& 0x01FFFFFFFFFFFF80

/-- The fault a completed load meets at its tags (R131, R300). -/
def State.loadKept (s : State) (ctx : Nat) (a : Access) : Option FaultInfo :=
  let p := if a.carry then Presented.carrying else Presented.none
  match keptCheck (vget s.ctxs ctx).kt p (a.pieces.map (·.tag)) with
  | .fault cause t => some (keptFault cause 0 t a.keptInfo)
  | .untagged => none
  | .carried _ => none
  | .served _ _ => none

/-- What a piece of a window load found before a store of its own bundle overwrote it (R146). -/
def Access.asBefore (a : Access) (i : Nat) : Option Sect := (a.before.find? fun x => decide (x.1 = i)).map (·.2)

/-- A load's piece is performed; with its last piece the tags are checked. -/
def State.loadDone (s : State) (k : CoreKey) (id i : Nat) (bs : List Byte) (tag : Byte) : State :=
  let s := s.onCore k fun c => c.onAccess id fun a => a.onPiece i fun p =>
    { p with done := true, bytes := bs, tag := tag }
  let c := s.getCore k
  match c.access id with
  | none => s
  | some a =>
    if a.complete then
      match s.loadKept c.ctx.toNat a with
      | some f => s.accessFault k id f
      | none => s
    else s

/-! ### Cache ways (R104, R141) -/

/-- The banks in cache-way mode. -/
def Core.wayBanks (c : Core) : List Nat :=
  (List.range 8).filter fun i => decide ((vget c.sp.bank i).mode = 1) && !(vget c.sp.bank i).sw

/-- The set of a sector: bits [16:7] of its virtual address. -/
def waySet (va : Addr) : Nat := bits va 16 7

/-- The sector that a virtual address lies in. -/
def waySector (va : Word) : Addr := BitVec.ofNat 57 (va.toNat / 128 * 128)

/-- A way holds the sector of a context's address. -/
def Way.holds (w : Way) (ctx : BitVec 6) (va : Addr) (pa : Nat) : Bool :=
  decide (w.ctx = ctx) && decide (w.va = va) && decide (w.pa = pa / 128)

/-- A way that serves a load of a queue whose clock is `clock`: its read lease has not expired (R104, R141). -/
def Core.wayHit (c : Core) (va : Word) (pa clock : Nat) : Option Way :=
  c.sp.ways.find? fun w => w.holds c.ctx (waySector va) pa && decide (clock ≤ w.lease)

/-- A loaded sector enters the ways: in place of itself where a way holds it, otherwise in a pseudo-random bank of those in
cache-way mode, whose entry of the set leaves. -/
def Core.wayFill (c : Core) (va : Word) (w : Way) (n : Nat) : Core :=
  let same (x : Way) : Bool := decide (x.ctx = w.ctx) && decide (x.va = w.va)
  match c.wayBanks with
  | [] => c
  | b :: bs =>
    let bank := match c.sp.ways.find? same with
      | some x => x.bank
      | none => BitVec.ofNat 3 ((b :: bs).getD (n % (bs.length + 1)) 0)
    let rest := c.sp.ways.filter fun x =>
      !(decide (x.bank = bank) && decide (waySet x.va = waySet (waySector va))) && !same x
    { c with sp := { c.sp with ways := { w with bank := bank } :: rest } }

/-- A store at logical time t updates a matching sector of the ways and allocates none. -/
def Core.wayStore (c : Core) (va : Word) (pa : Nat) (v : BitVec 1024) (tag : Byte) (t : Nat) : Core :=
  let put (x : Way) : Way := { x with v := v, tag := tag, wts := t, lease := t }
  { c with sp := { c.sp with ways := mapIf (·.holds c.ctx (waySector va) pa) put c.sp.ways } }

/-! ### The logical clocks of a core's queues (R141, R145) -/

/-- A queue's clock never decreases. -/
def Core.raiseClock (c : Core) (q t : Nat) : Core :=
  { c with pipes := { c.pipes with clocks := vset c.pipes.clocks q (max (vget c.pipes.clocks q) t) } }

/-- The latest clock of the queues that a mask names. -/
def Core.maskClock (c : Core) (m : BitVec 4) : Nat :=
  (List.range 4).foldl (fun t q => if bit m q then max t (vget c.pipes.clocks q) else t) 0

/-- A fence is complete: what follows it in its queues follows what precedes it. -/
def Core.fenceClocks (c : Core) (m : BitVec 4) : Core :=
  (List.range 4).foldl (fun d q => if bit m q then d.raiseClock q (c.maskClock m) else d) c

/-- The fences that stand before an access in its queue. -/
def Core.fencesBefore (c : Core) (q : BitVec 2) (bundle : Nat) : List Cmd :=
  c.pipes.cmds.filter fun x => decide (x.op = .fence) && bit x.arg1 q.toNat && decide (x.bundle < bundle)

/-- The clock an access is performed at. -/
def Core.clockOf (c : Core) (q : BitVec 2) (bundle : Nat) : Nat :=
  (c.fencesBefore q bundle).foldl (fun t x => max t (c.maskClock x.arg1)) (vget c.pipes.clocks q.toNat)

/-- A core's clocks follow every event up to a time. -/
def Core.syncAt (c : Core) (t : Nat) : Core :=
  { c with pipes := { c.pipes with 
    clocks := c.pipes.clocks.map (max · t), engClocks := c.pipes.engClocks.map (max · t), synced := max c.pipes.synced t } }

/-- The focus core's accesses from now on follow every event so far (R149 to R151; log entry 37). -/
def State.syncClocks (s : State) : State := { s with core := s.core.syncAt s.latest }

/-- The clock of a core's queue follows those of its window writes that have landed. -/
def State.settle (s : State) (k : CoreKey) : State :=
  let c := s.getCore k
  if c.pipes.sent.isEmpty then s
  else
    let landed (x : BitVec 2 × Nat × CoreKey × Nat) : Bool := (c.access x.2.1).isNone
    s.onCore k fun _ => (c.pipes.sent.filter landed).foldl (fun d x => d.raiseClock x.1.toNat (s.spWrote x.2.2.1 x.2.2.2))
      { c with pipes := { c.pipes with sent := c.pipes.sent.filter fun x => !landed x } }

/-! ### Fences (R143, R144) -/

/-- A location of an access lies within a scope, seen from a core (R143): 0 core, 1 fen, 2 die, 3 to 5 device and wider. An
address that does not translate counts as within it. -/
def State.inScope (s : State) (c : Core) (scope : Nat) (space : Space) (p : Piece) : Bool :=
  match space with
  | .window => decide (1 ≤ scope)
  | .global =>
    if 3 ≤ scope then true
    else if scope ≤ 1 then false
    else
      match s.translate c.fen (some c.key) c.ctx.toNat p.addr false with
      | .error _ => true
      | .ok x => decide (s.homeDie x.pa = c.fen / 5)

/-- An access has a piece within a scope that is not performed. -/
def State.openWithin (s : State) (c : Core) (scope : Nat) (a : Access) : Bool :=
  a.pieces.any fun p => !p.done && s.inScope c scope a.space p

/-- An MMA's scales are still to be read on G0 (R282). -/
def Mma.unread (m : Mma) : Bool := m.scaled && m.scales.isNone

/-- The scale reads of a core's MMAs issued before a bundle are not all done: accesses on G0 to memory (R282). -/
def Core.scalesOpen (c : Core) (bundle : Nat) : Bool := c.mx.mmas.any fun m => m.unread && decide (m.bundle < bundle)

/-- The accesses a fence waits for are performed, the scale reads of MMAs on G0 among them. -/
def State.fenceDone (s : State) (c : Core) (x : Cmd) : Bool :=
  !(c.pipes.acc.any fun a =>
      bit x.arg1 a.queue.toNat && decide (a.bundle < x.bundle) && s.openWithin c x.arg2.toNat a)
    && !(bit x.arg1 0 && decide (2 ≤ x.arg2.toNat) && c.scalesOpen x.bundle)

/-! ### Performing a piece (R137, R138, R142, R146) -/

/-- Two pieces share a location, each address as given. -/
def Piece.meetsAt (p q : Piece) (a b : Nat) : Bool := decide (a < b + q.len) && decide (b < a + p.len)

/-- Two pieces of a core share a location: a global one is its physical address, where both translate (R138). -/
def State.meets (s : State) (c : Core) (space : Space) (p q : Piece) : Bool :=
  let plain := p.meetsAt q p.addr.toNat q.addr.toNat
  match space with
  | .window => plain
  | .global =>
    match s.translate c.fen (some c.key) c.ctx.toNat p.addr false, s.translate c.fen (some c.key) c.ctx.toNat q.addr false with
    | .ok x, .ok y => p.meetsAt q x.pa y.pa
    | .ok _, .error _ => plain
    | .error _, .ok _ => plain
    | .error _, .error _ => plain

/-- A store's piece meets a scale byte that an MMA of its own bundle has yet to read (R146, R282). -/
def State.scaleMeets (s : State) (c : Core) (m : Mma) (p : Piece) : Bool :=
  let base : Word := BitVec.ofNat 64 (shAt m.shape 440 384)
  ((m.blocksA ++ m.blocksB).flatten.map fun b => base + BitVec.ofNat 64 (b.1 * 2 ^ 24 + b.2)).any fun va =>
    s.meets c .global p ⟨va, [], 1, 0, false⟩

/-- The orders of R137, R145, R146 and R282 allow the piece: nothing of an earlier bundle is left in its queue, no fence before
it in its queue still waits, and a store follows the loads of its own bundle at its location. -/
def State.pieceMay (s : State) (c : Core) (a : Access) (p : Piece) : Bool :=
  !a.faulted && !p.done
    && !(c.pipes.acc.any fun x => decide (x.queue = a.queue) && decide (x.bundle < a.bundle) && !x.complete)
    && !(decide (a.queue = 0) && c.scalesOpen a.bundle)
    && !(a.store && decide (a.space = .global) && c.mx.mmas.any fun m => m.unread && decide (m.bundle = a.bundle) && s.scaleMeets c m p)
    && ((c.fencesBefore a.queue a.bundle).all fun x => s.fenceDone c x)
    && (!a.store || !(c.pipes.acc.any fun x =>
        decide (x.bundle = a.bundle) && !x.store && decide (x.space = a.space)
          && x.pieces.any fun q => !q.done && s.meets c a.space q p))

/-- The window access of a piece is on its way, or held. -/
def State.pieceAway (s : State) (k : CoreKey) (id i : Nat) : Bool :=
  let mine (w : NetWrite) : Bool := decide (w.srcKey = k) && decide (w.access = id) && decide (w.piece = i)
  (s.allCores.any fun c => c.sp.net.any mine || c.sp.fifoHeld.any mine)
    || (s.fens.toList.any fun f => f.held.any fun h => match h.1 with
        | .transfer _ _ => false
        | .netWrite _ w => mine w
        | .netRead _ src a p _ => decide (src = k) && decide (a = id) && decide (p = i)
        | .engWrite _ _ _ _ => false
        | .engRead _ _ _ => false
        | .count _ _ _ _ => false)

/-- A window read is served at its target, at a time of its queue (R138, R141); one that a store of its own bundle has overtaken there
returns what it found before (R146). -/
def State.serveRead (s : State) (t : CoreKey) (off n : Nat) (k : CoreKey) (id i : Nat) : State :=
  let c := s.getCore k
  match c.access id with
  | none => s
  | some a =>
    let r := s.spReadAt t off (c.clockOf a.queue a.bundle)
    let s := r.2.onCore k fun x => x.raiseClock a.queue.toNat r.1
    match a.asBefore i with
    | some x =>
      if x.bad then s.accessFault k id (spPoison (s.getCore t).lcore.toNat off) else s.loadDone k id i x.bytes x.tag
    | none =>
      match s.netRead t off n with
      | (.ok r, s) => s.loadDone k id i r.1 r.2
      | (.error f, s) => s.accessFault k id f

/-- A window write leaves its core: its target's sector takes no earlier time than its queue's clock, which will follow it. -/
def State.sendWindow (s : State) (t : CoreKey) (off : Nat) (c : Core) (a : Access) : State :=
  (s.spBound t (c.clockOf a.queue a.bundle)).onCore c.key fun x => { x with pipes := { x.pipes with
    sent := x.pipes.sent ++ [(a.queue, a.id, t, off)] } }

/-- A window piece: a read is served at its target, a write travels to it, and either is held where R352 says. -/
def State.performWindow (s : State) (c : Core) (a : Access) (i : Nat) (p : Piece) : State :=
  let t := windowCore c.fen p.addr.toNat
  let off := p.addr.toNat % 2 ^ 20
  let w : NetWrite := ⟨c.key, a.id, i, c.ctx, off, p.bytes⟩
  let open_ := s.windowAt c.fen t c.key c.ctx
  if a.store then
    let s := s.sendWindow t off c a
    if open_ then s.onCore t fun x => { x with sp := { x.sp with net := x.sp.net ++ [w] } }
    else s.holdAt c.fen (.netWrite t w)
  else if open_ then s.serveRead t off p.len c.key a.id i
  else s.holdAt c.fen (.netRead t c.key a.id i c.ctx)

/-- The fault that a global piece would meet now, and the machine as the attempt leaves it. -/
def State.pieceFault (s : State) (c : Core) (a : Access) (p : Piece) : Option (FaultInfo × State) :=
  if a.store then
    match s.writePiece c.fen (some c.key) c.ctx.toNat p.addr p.bytes 0 with
    | .error f => some f
    | .ok _ => none
  else
    match s.readPiece c.fen (some c.key) c.ctx.toNat p.addr p.len with
    | .error f => some f
    | .ok _ => none

/-- A load piece is served by a way: at a time at which its lease holds (R104, R141). -/
def State.serveWay (s : State) (c : Core) (a : Access) (i : Nat) (p : Piece) (clock : Nat) (w : Way) : State :=
  let bs := ((natToBytes 128 w.v.toNat).drop (p.addr.toNat % 128)).take p.len
  ((s.onCore c.key fun x => x.raiseClock a.queue.toNat (max clock w.wts)).loadDone c.key a.id i bs w.tag).fresh

/-- A load piece is served by its home, which grants a lease; the sector enters the ways. -/
def State.serveHome (s : State) (c : Core) (a : Access) (i : Nat) (p : Piece) (clock pa : Nat) (r : List Byte × Byte) : State :=
  let s := s.request pa
  let t := s.readTimed pa clock
  let n := Config.pick s.tick
  let w : Way := ⟨0, c.ctx, waySector p.addr, pa / 128, BitVec.ofNat 1024 (bytesToNat (s.sector pa)), r.2, (s.stamp pa).1, t.2.1⟩
  (t.2.2.onCore c.key fun x => (x.raiseClock a.queue.toNat t.1).wayFill p.addr w n).loadDone c.key a.id i r.1 r.2

/-- A global load piece: a way may serve it while its lease holds; otherwise its home does. -/
def State.performLoad (s : State) (c : Core) (a : Access) (i : Nat) (p : Piece) : State :=
  let clock := c.clockOf a.queue a.bundle
  match s.translate c.fen (some c.key) c.ctx.toNat p.addr false with
  | .error e => e.2.accessFault c.key a.id e.1
  | .ok x =>
    match x.st.readPhys p.addr x.pa p.len with
    | .error f => (x.st.asked f x.pa).accessFault c.key a.id f
    | .ok r =>
      match (c.wayHit p.addr x.pa clock).filter fun _ => Config.freeBit x.st.tick with
      | some w => x.st.serveWay c a i p clock w
      | none => x.st.serveHome c a i p clock x.pa r

/-- A global store piece: it takes a time later than every lease on its sector, and updates a matching way. -/
def State.performStore (s : State) (c : Core) (a : Access) (i : Nat) (p : Piece) : State :=
  match s.writeAt c.fen (some c.key) c.ctx.toNat p.addr p.bytes 0 with
  | .error e => e.2.accessFault c.key a.id e.1
  | .ok (s, pa) =>
    let t := s.wroteTimed pa (c.clockOf a.queue a.bundle)
    let v : BitVec 1024 := BitVec.ofNat 1024 (bytesToNat (t.2.sector pa))
    t.2.onCore c.key fun x => ((x.raiseClock a.queue.toNat t.1).storeDone a.id i).wayStore p.addr pa v 0 t.1

/-- A global piece. Before the first one, the access faults as a whole if any of its pieces would. -/
def State.performGlobal (s : State) (c : Core) (a : Access) (i : Nat) (p : Piece) : State :=
  let todo := if a.pieces.any (·.done) then [p] else a.pieces
  match todo.findSome? (s.pieceFault c a) with
  | some e => e.2.accessFault c.key a.id e.1
  | none => if a.store then s.performStore c a i p else s.performLoad c a i p

/-- The stores whose due cycle has come and that have not begun. -/
def Core.storesDue (c : Core) : List Access :=
  (c.pipes.inflight.filter fun i => decide (i.rem = 0)).filterMap fun i =>
    c.pipes.acc.find? fun a => decide (i.what = .stored a.id) && a.unchecked && !a.faulted

/-- A store has reached its due cycle: a fault that any of its pieces meets is taken now (R299). What changes in its translation
afterwards it meets as it takes its place (DESIGN CHOICE, log entry 142). -/
def State.dueStore (s : State) (a : Access) : State :=
  let c := s.core
  match if a.space = .global then a.pieces.findSome? (s.pieceFault c a) else none with
  | some e => e.2.accessFault c.key a.id e.1
  | none => { s with core := c.onAccess a.id fun x => { x with checked := true } }

/-- The focus core's stores that are due. -/
def State.dueStores (s : State) : State := s.core.storesDue.foldl State.dueStore s

/-- One piece of an access takes its place in the global memory order, if it may. -/
def State.performPiece (s : State) (k : CoreKey) (id i : Nat) : State :=
  let s := s.settle k
  let c := s.getCore k
  match c.access id with
  | none => s
  | some a =>
    match a.pieces[i]? with
    | none => s
    | some p =>
      if !s.pieceMay c a p || s.pieceAway k id i then s
      else
        match a.space with
        | .window => s.performWindow c a i p
        | .global => s.performGlobal c a i p

/-! ### Arrival and landing (R46, R57, R148) -/

/-- GLOBAL_LOAD_ARRIVE (R46). A performed load's data reaches the core; when no result is late any more, the freeze line
falls. -/
def execGlobalLoadArrive (key : CoreKey) (id : Nat) (s : State) : Out :=
  .next (s.onCore key fun c =>
    match c.access id with
    | none => c
    | some a =>
      if a.store || !a.complete || a.faulted then c
      else
        let d := (c.onAccess id fun a => { a with arrived := true }).landDue
        { d with frozen := d.frozen && !(c.lateLoad && !d.lateLoad) })

/-- RESULT_LAND (R57). The results due at the core's schedule cycle land, in slot order. -/
def execResultLand (key : CoreKey) (s : State) : Out := .next (s.onCore key Core.landDue)

/-- The core issues bundles: it runs, is not stopped, and its context is not being saved. -/
def State.issues (s : State) (c : Core) : Bool :=
  (decide (c.status = .running) || decide (c.status = .finishing)) && c.stop.isNone
    && decide ((vget s.ctxs c.ctx.toNat).pst = 0)

/-- FREEZE (R46). A load result is due and has not landed: the freeze line rises. -/
def execFreeze (key : CoreKey) (s : State) : Out :=
  let c := (s.getCore key).landDue
  .next (if s.issues c && c.lateLoad then ((s.putCore c).focus key).freezeCycle 0xFF else s.putCore c)

/-- DIRECT_FORM_FAULT (R335). The core stops at the bundle boundary with the record of the fault. -/
def execDirectFormFault (key : CoreKey) (s : State) : Out :=
  let c := s.getCore key
  .next (match c.dfFault with
    | some r => if s.issues c then (s.focus key).stopDirect r else s
    | none => s)

/-- A write that its core takes now: it lands in a bank, or stays where a full FIFO keeps it. -/
def State.landNet (s : State) (k : CoreKey) (w : NetWrite) (back : State) : State :=
  match (s.getCore k).netWrite w.addr w.bytes 0 with
  | .done c => (s.putCore c).onCore w.srcKey fun x => x.storeDone w.access w.piece
  | .full => back
  | .fault f => s.accessFault w.srcKey w.access f

/-- A write on its way lands, or is held at the fen's master. -/
def State.arriveNet (s : State) (k : CoreKey) (w : NetWrite) (back : State) : State :=
  if s.windowAt (fenOfKey k) k w.srcKey w.ctx then s.landNet k w back else s.holdAt (fenOfKey k) (.netWrite k w)

/-- Of the writes that have arrived at a FIFO bank, those of lower-numbered writers enter first, and one writer's in order
(R105). -/
def Core.netFirst (c : Core) (idx : Nat) (w : NetWrite) : Bool :=
  let bank (x : NetWrite) : Nat := bankOf (x.addr % c.spSize)
  !c.sp.isFifo (w.addr % c.spSize)
    || c.sp.net.zipIdx.all fun x =>
      decide (bank x.1 ≠ bank w) || decide (w.srcKey < x.1.srcKey) || (decide (w.srcKey = x.1.srcKey) && decide (idx ≤ x.2))

/-- NETWORK_WRITE_LAND (R148). One of the writes that have arrived lands at the end of its cycle. Once a bank in FIFO mode has room
again, one that arrives later may enter before one that is held at the bank: R105 does not say which does (DESIGN CHOICE, log entry
124). -/
def execNetworkWriteLand (key : CoreKey) (idx : Nat) (s : State) : Out :=
  let c := s.getCore key
  .next (match (c.sp.net[idx]?).filter (c.netFirst idx) with
    | none => s
    | some w =>
      let net := c.sp.net.eraseIdx idx
      let s' := s.onCore key fun x => { x with sp := { x.sp with net := net } }
      s'.arriveNet key w (s'.onCore key fun x => { x with sp := { x.sp with fifoHeld := x.sp.fifoHeld ++ [w] } }))

/-- FIFO_HELD_WRITE (R105). The first write held at the bank enters once it has room. -/
def execFifoHeldWrite (key : CoreKey) (bank : BitVec 3) (s : State) : Out :=
  let c := s.getCore key
  .next (match c.sp.fifoHeld.findIdx? fun w => decide (bankOf (w.addr % c.spSize) = bank.toNat) with
    | none => s
    | some i =>
      let s' := s.onCore key fun x => { x with sp := { x.sp with fifoHeld := x.sp.fifoHeld.eraseIdx i } }
      let w := c.sp.fifoHeld.getD i default
      if s.windowOpen key w.srcKey w.ctx then s'.landNet key w s else s'.holdAt (fenOfKey key) (.netWrite key w))

/-! ### Bank switches (R103) -/

/-- The freeze line holds the core's engine sequencers (R46); a save lets commands that have started end (R350). -/
def State.enginesHeld (s : State) (c : Core) : Bool := c.frozen && decide ((vget s.ctxs c.ctx.toNat).pst = 0)

/-- The bank switch commands of a bank that have not ended. -/
def Core.switches (c : Core) (bank : Nat) : List Cmd :=
  c.pipes.cmds.filter fun x => decide (x.op = .bankm) && decide (x.arg1.toNat = bank) && !x.finished

/-- A core-port access to the bank that issued before the switch has not ended: a store, an LDGX's landing, or rows that a
window has yet to read (R103, step 2). -/
def Core.bankInUse (c : Core) (bank : Nat) : Bool :=
  c.allInflight.any (c.writesBank bank)
    || (c.pipes.wins ++ c.held.elim [] (·.wins)).any fun w => decide (w.group.toNat = bank / 2) && !w.rows.isEmpty

/-- Every row of the bank zero, its tags, poison, ring and cached sectors cleared, not before a logical time (R140). -/
def Scratch.zeroBank (sp : Scratch) (bank t : Nat) : Scratch :=
  { sp with
    stamps := sp.stamps.map fun x =>
      if bankOf (x.1 * 128) = bank then (x.1, max t (x.2.2 + 1), max t (x.2.2 + 1)) else x
    mem := sp.mem.filter fun c => decide (bankOf c.1 ≠ bank)
    tags := sp.tags.filter fun c => decide (bankOf (c.1 * 128) ≠ bank)
    poison := sp.poison.filter fun k => decide (bankOf (k * 128) ≠ bank)
    fifo := vset sp.fifo bank ⟨0, 0⟩
    ways := sp.ways.filter fun w => decide (w.bank.toNat ≠ bank) }

/-- BANK_SWITCH_DONE (R103). Once the core-port accesses issued before it have ended, the switch zero-fills the bank, MODE
becomes PEND, SW falls and the command has ended. A freeze holds the engine sequencers (R46). -/
def execBankSwitchDone (key : CoreKey) (bank : BitVec 3) (s : State) : Out :=
  .next (s.onCore key fun c =>
    let b := bank.toNat
    let c := c.landDue
    if s.enginesHeld c then c else
    match (c.switches b).find? (·.started) with
    | none => c
    | some x =>
      if c.bankInUse b then c
      else
        let r := vget c.sp.bank b
        let sp := c.sp.zeroBank b (vget c.pipes.engClocks (x.slot - 4))
        { c with
          sp := { sp with bank := vset sp.bank b { r with mode := r.pend, sw := decide (1 < (c.switches b).length) } }
          pipes := { c.pipes with cmds := c.pipes.cmds.map fun y => if y.id = x.id then { y with finished := true } else y } })

/-! ### Address generators (R59, R219, R279, R329) -/

/-- The core is frozen only for an empty input port (R46). -/
def Core.portFreeze (c : Core) : Bool :=
  match c.freeze with
  | some n => decide (n.what = .freeze 12) || decide (n.what = .freeze 13)
  | none => false

/-- The generator moves: it walks, and the core is not stopped, in handler mode or frozen for anything else. -/
def State.agMoves (s : State) (c : Core) (g : Nat) : Bool :=
  s.issues c && c.held.isNone && (vget c.vs.ag g).walking && (!c.frozen || c.portFreeze)

/-- A bank of the vector at a serves no core-port access now, or a window or a C slot has its port in this cycle (R279,
R298). -/
def Core.agWaits (c : Core) (a : Nat) (write : Bool) : Bool :=
  (portRows a 256).any fun p =>
    (vget c.sp.bank p.1).shut || c.pipes.now.any (·.keeps p.1) || (if write then c.fifoFull p.1
      else c.fifoEmpty p.1)

/-- The tag of a port entry (R59): the tag the sectors agree on, zero where all are untagged, or the mixed tag. -/
def portTag (ts : List Byte) : Byte :=
  let t := ts.headD 0
  if ts.all (fun x => !tagV x) then 0 else if ts.all (fun x => decide (x = t)) then t else mixedTag

/-- One vector of a walk (R59): fetched into its input port, or drained from its output port. -/
def Core.agFetch (c : Core) (g : Nat) : Core :=
  let ag := vget c.vs.ag g
  let a := ag.cur.address
  let q := 12 + g
  let step (c : Core) : Core := c.putAg g ag.step (ag.stepStarts && decide (g < 2))
  if c.agWaits a (decide (2 ≤ g)) then c
  else if g < 2 then
    if 4 ≤ (c.queue q).length then c
    else
      let r := c.sp.read a 256
      let e : QEntry := ⟨vecOfBytes r.1.bytes, portTag r.1.tags, r.1.poison⟩
      step (({ c with sp := r.2 } : Core).setQueue q (c.queue q ++ [e]))
  else
    match c.queue q with
    | [] => c
    | e :: rest => step ((c.spStore a (bvBytes e.v)).setQueue q rest)

/-- An entry of an input port that was fetched from a poisoned sector, as a replay finds it once the sector has been rewritten in full
(R364): it is read again. What came from a bank in FIFO mode stands nowhere else, and stays as it is (DEDUCED, log entry 130). -/
def Core.portAgain (c : Core) (e : QEntry) : QEntry :=
  match e.poison with
  | none => e
  | some a =>
    if setHas (a / 128) c.sp.poison || c.sp.isFifo a then e
    else
      let r := c.sp.look (a / 256 * 256) 256
      ⟨vecOfBytes r.bytes, portTag r.tags, r.poison⟩

/-- The entries of both input ports as a replay finds them. -/
def Core.portsAgain (c : Core) : Core :=
  (c.setQueue 12 ((c.queue 12).map c.portAgain)).setQueue 13 ((c.queue 13).map c.portAgain)

/-- AG_FETCH (R59, R219). The generator moves one vector; after its last the walk ends, and an armed pending set begins the
next one. -/
def execAgFetch (key : CoreKey) (g : BitVec 2) (s : State) : Out :=
  .next (s.onCore key fun c => if s.agMoves c g.toNat then c.landDue.agFetch g.toNat else c)

end Sys2Proof.Machine
end

