-- ==== Sys2Proof/Machine/Forms.lean ====
section
/-! DEFINITION. What the kept forms hold of an element or a window (R126 to R129). -/

namespace Sys2Proof.Machine

/-- x precedes y in R127's order: NaN above every number, +0 equal to −0. -/
def poolLess (f : Fmt) (x y : Nat) : Bool :=
  let a := f.dec x
  let b := f.dec y
  if a.isNan then false else b.isNan || a.lt b

/-- The position of the first greatest element (R127); 0 of an empty window. -/
def argmax (f : Fmt) (l : List Nat) : Nat :=
  ((l.zipIdx).foldl
    (fun (st : Option Nat × Nat) p =>
      match st.1 with
      | none => (some p.1, p.2)
      | some g => if poolLess f g p.1 then (some p.1, p.2) else st)
    (none, 0)).2

/-- A CODE8 code under an E8M0 scale, rounded into T (R128). -/
def code8Val (f : Fmt) (code scale : Nat) : Nat := (rne f ((Fmt.e4m3.dec code).scaled scale)).1

end Sys2Proof.Machine
end

