-- ==== Sys2Proof/Machine/Engine.lean ====
section
/-! DEFINITION. The command forms of the C slots (R206, R207, R294 to R297, R302 to R314): what each checks and captures
at issue. The commands themselves run as events and elements. -/

namespace Sys2Proof.Machine

/-! ### Issue (R64, R296) -/

/-- A command with nothing done. -/
def Cmd.fresh (id : Nat) (op : CmdOp) (slot : Nat) (sh : Shape) (a b : Word) (tok : BitVec 4) (waits : List Nat)
    (bundle : Nat) : Cmd :=
  { id := id, op := op, slot := slot, shape := sh, addrA := a, addrB := b, tok := tok, waits := waits,
    bundle := bundle, arg1 := 0, arg2 := 0, entry := 0, cbk := 0, src := [], started := false, desc := none,
    pos := 0, lfsr := 0, amax := 0, scale := 0, snap := [], placed := false, finished := false, posted := [], ahead := [], early := [],
    paths := [], fill := none, ready := none, stop := none }

/-- The KIND of a command's entry (R312). -/
def kindOf : CmdOp → Option Nat
  | .mbpost => some 0
  | .coll => some 1
  | .dpost => some 2
  | .lease => some 3
  | .lrel => some 4
  | .gwait => none
  | .fence => none
  | .stk => none
  | .kcopy => none
  | .cp => none
  | .cpq => none
  | .cpblk => none
  | .prefr => none
  | .bankm => none
  | .reedinv => none
  | .atomic _ => none

/-- The commands of the executing slot's sequencer, oldest first. -/
def State.slotCmds (s : State) : List Cmd := s.core.pipes.cmds.filter fun x => decide (x.slot = s.iss.slot)

/-- The command on whose completion a command form waits for a place in its sequencer (R296): the oldest of the sixteen that
stood there when the bundle first reached issue. -/
def State.oldestCmd (s : State) : Option Nat :=
  match vget s.iss.cmdWait (s.iss.slot - 4) with
  | some id => (s.slotCmds.find? fun x => decide (x.id = id)).map (·.id)
  | none => if 16 ≤ s.slotCmds.length then s.slotCmds.head?.map (·.id) else none

/-- The slot's bundle waits for a place in its sequencer. -/
def State.noteOldest (s : State) : State :=
  { s with iss := { s.iss with cmdWait := vset s.iss.cmdWait (s.iss.slot - 4) s.oldestCmd } }

/-- What holds a command form at issue: its produced token is PENDING (R64), or its sequencer holds sixteen commands
(R296), or both; the tokens that it waits for. -/
def State.cmdHolds (s : State) (t : BitVec 4) : List (BitVec 4) :=
  (if s.core.pending t.toNat then [t] else [])
    ++ (s.oldestCmd.map fun id => (s.slotCmds.find? fun x => decide (x.id = id)).elim 0 (·.tok)).toList

/-- A command joins its sequencer; its produced token becomes PENDING at the end of the issue cycle. -/
def State.sendCmd (s : State) (op : CmdOp) (sh : Shape) (a b : Word) (t : BitVec 4) (toks : List Nat)
    (f : Cmd → Cmd) : State :=
  let c := s.core
  let x := f (Cmd.fresh c.pipes.nextId op s.iss.slot sh a b t (toks.flatMap c.tokenCmds) c.pipes.bundleNo)
  ({ s with core := { c with pipes := { c.pipes with nextId := c.pipes.nextId + 1 } } }).endOfCycle (.cmd x)

/-- A command form: held as above, nothing when its guard is false; `body` checks and sends. -/
def commandForm (t : BitVec 4) (body : State → State) (s : State) : Out :=
  if s.active then
    match s.cmdHolds t with
    | u :: l => .next (s.noteOldest.holdTokens (u :: l))
    | [] => .next (body s)
  else .next s

/-- A command form with a shape register. -/
def shapeCmd (n : BitVec 2) (t : BitVec 4) (w : BitVec 1) (body : Shape → State → State) (s : State) : Out :=
  commandForm t (fun s => (body (s.ksh n) s).swapK n w) s

/-! ### Bodies -/

/-- An address chosen by AS or BS, without loop terms. -/
def plainAddr (window : Bool) (a : Word) : Word := if window then BitVec.ofNat 64 (a.toNat % 2 ^ 27) else a

/-- Atomics (R302). -/
def atomicBody (k : Nat) (t : BitVec 4) (toks : List Nat) (sh : Shape) (s : State) : State :=
  let a := s.core.addrAS sh
  let w := if bit sh 156 then 8 else 4
  let s := s.cChecks false (lvBad sh || (bit sh 156 && decide (5 ≤ k)))
    [(a.toNat, w), (fld sh 179 160, w), (fld sh 211 192, w)]
  s.sendCmd (.atomic k) sh a 0 t toks id

/-- Whether the pair of an entry's form and reader is one that R130 serves. -/
def stkServed (e : BitVec 32) : Bool := served (ktForm e) (ktReader e)

/-- The cause of an STK refused at issue (R304). -/
def stkCause (kt : Nat) (e : BitVec 32) : Option Nat :=
  if kt = 0 || !ktEn e then some 2
  else if !stkServed e then some 5
  else if decide (5 ≤ ktEtype e) || !ktFieldsOk e then some 6
  else none

/-- Elements of an STK: 0 means 65,536. -/
def stkN (sh : Shape) : Nat := if fld sh 207 192 = 0 then 65536 else fld sh 207 192

/-- Entries popped by an STK in queue mode; one tagged other than FULL is FLT_KEPT, cause 1. -/
def State.stkPops (s : State) (q : Nat) : Nat → List QEntry × State
  | 0 => ([], s)
  | n + 1 =>
    let r := s.takeQ q false
    let t := r.1.tag
    let s := if tagV t && decide (tagForm t ≠ 6) then r.2.raiseInfo (keptFault 1 0 t (keptQueueInfo q false)) else r.2
    let rest := State.stkPops s q n
    (r.1 :: rest.1, rest.2)

/-- STK (R304). -/
def stkBody (t : BitVec 4) (toks : List Nat) (sh : Shape) (s : State) : State :=
  let kt := fld sh 152 149
  let e := vget s.ctx.kt kt
  let a := s.core.addrAS sh
  let qm := bit sh 155
  let n := fld sh 154 153 + 1
  let s := s.cChecks (qm && decide (11 < qOf sh))
    (lvBad sh || (qm && decide (ktEtype e ≤ 4) && decide (n * 2048 / etypeBits (ktEtype e) < stkN sh))) [(a.toNat, 128)]
  let s := match stkCause kt e with
    | some c => s.issueFault 0x09 c true 0 (BitVec.ofNat 64 kt)
    | none => s
  let r := if qm then s.stkPops (qOf sh) n else ([], s)
  r.2.sendCmd .stk sh a 0 t toks fun x =>
    { x with entry := e, cbk := vget s.core.mx.cbk (ktCb e), src := r.1 }

/-- KCOPY (R306). -/
def kcopyBody (t : BitVec 4) (toks : List Nat) (sh : Shape) (s : State) : State :=
  let a := plainAddr (asWindow sh) (baseA sh)
  let b := plainAddr (bsWindow sh) (baseB sh)
  let s := s.cChecks false false [(a.toNat, 128), (b.toNat, 128), (fld sh 95 64, 128)]
  s.sendCmd .kcopy sh a b t toks id

/-- CP and CPQ (R307): the descriptor's address. -/
def cpBody (op : CmdOp) (t : BitVec 4) (toks : List Nat) (sh : Shape) (s : State) : State :=
  let a := if asWindow sh then BitVec.ofNat 64 (fld sh 19 0) else baseA sh
  let s := s.cChecks false false [(a.toNat, 128)]
  s.sendCmd op sh a 0 t toks id

/-- The source and destination ranges of a CPBLK copy overlap (R310). -/
def cpblkOverlap (sh : Shape) : Bool :=
  let n := fld sh 95 64
  let a := (baseA sh).toNat
  let b := (baseB sh).toNat
  !bit sh 158 && decide (a < b + n) && decide (b < a + n)

/-- CPBLK (R310). -/
def cpblkBody (t : BitVec 4) (toks : List Nat) (sh : Shape) (s : State) : State :=
  let a := baseA sh
  let b := baseB sh
  let s := s.cChecks false (asWindow sh || bsWindow sh)
    [(a.toNat, 128), (b.toNat, 128), (fld sh 95 64, 128), (fld sh 243 224, 8)]
  let s := if cpblkOverlap sh then s.issueFault 0x0C 7 true a 0 else s
  s.sendCmd .cpblk sh a b t toks id

/-- PREFR, REEDINV and the fabric requests: address A as written (R311, R312). -/
def plainBody (op : CmdOp) (t : BitVec 4) (toks : List Nat) (sh : Shape) (s : State) : State :=
  s.sendCmd op sh (baseA sh) 0 t toks id

/-- MBPOST: the 64-bit payload AHI:ALO (R312). -/
def mbpostBody (toks : List Nat) (sh : Shape) (s : State) : State :=
  s.sendCmd .mbpost sh (BitVec.ofNat 64 (fld sh 63 0)) 0 0 toks id

/-! ### The instructions -/

/-- ATADD (R302). -/
def execAtadd (sh : BitVec 2) (t x y : BitVec 4) (w : BitVec 1) (z : BitVec 3) (s : State) : Out :=
  shapeCmd sh t w (atomicBody 0 t (consumed x y z)) s

/-- ATAND (R302). -/
def execAtand (sh : BitVec 2) (t x y : BitVec 4) (w : BitVec 1) (z : BitVec 3) (s : State) : Out :=
  shapeCmd sh t w (atomicBody 1 t (consumed x y z)) s

/-- ATOR (R302). -/
def execAtor (sh : BitVec 2) (t x y : BitVec 4) (w : BitVec 1) (z : BitVec 3) (s : State) : Out :=
  shapeCmd sh t w (atomicBody 2 t (consumed x y z)) s

/-- ATXCHG (R302). -/
def execAtxchg (sh : BitVec 2) (t x y : BitVec 4) (w : BitVec 1) (z : BitVec 3) (s : State) : Out :=
  shapeCmd sh t w (atomicBody 3 t (consumed x y z)) s

/-- ATCAS (R302). -/
def execAtcas (sh : BitVec 2) (t x y : BitVec 4) (w : BitVec 1) (z : BitVec 3) (s : State) : Out :=
  shapeCmd sh t w (atomicBody 4 t (consumed x y z)) s

/-- ATFADD (R302). -/
def execAtfadd (sh : BitVec 2) (t x y : BitVec 4) (w : BitVec 1) (z : BitVec 3) (s : State) : Out :=
  shapeCmd sh t w (atomicBody 5 t (consumed x y z)) s

/-- ATFMAX (R302). -/
def execAtfmax (sh : BitVec 2) (t x y : BitVec 4) (w : BitVec 1) (z : BitVec 3) (s : State) : Out :=
  shapeCmd sh t w (atomicBody 6 t (consumed x y z)) s

/-- FENCE (R144, R303). One whose mask is zero orders nothing: no command is left of it, and its token stays DONE (R145). -/
def execFence (t m : BitVec 4) (o : BitVec 3) (s : State) : Out :=
  commandForm t (fun s => if m = 0 then s else s.sendCmd .fence 0 0 0 t [] fun x => { x with arg1 := m, arg2 := o }) s

/-- STK (R304). -/
def execStk (sh : BitVec 2) (t x y : BitVec 4) (w : BitVec 1) (z : BitVec 3) (s : State) : Out :=
  shapeCmd sh t w (stkBody t (consumed x y z)) s

/-- KCOPY (R306). -/
def execKcopy (sh : BitVec 2) (t x y : BitVec 4) (w : BitVec 1) (z : BitVec 3) (s : State) : Out :=
  shapeCmd sh t w (kcopyBody t (consumed x y z)) s

/-- CP (R307). -/
def execCp (sh : BitVec 2) (t x y : BitVec 4) (w : BitVec 1) (z : BitVec 3) (s : State) : Out :=
  shapeCmd sh t w (cpBody .cp t (consumed x y z)) s

/-- CPQ (R307). -/
def execCpq (sh : BitVec 2) (t x y : BitVec 4) (w : BitVec 1) (z : BitVec 3) (s : State) : Out :=
  shapeCmd sh t w (cpBody .cpq t (consumed x y z)) s

/-- CPBLK (R310). -/
def execCpblk (sh : BitVec 2) (t x y : BitVec 4) (w : BitVec 1) (z : BitVec 3) (s : State) : Out :=
  shapeCmd sh t w (cpblkBody t (consumed x y z)) s

/-- PREFR (R311). -/
def execPrefr (sh : BitVec 2) (t x y : BitVec 4) (w : BitVec 1) (z : BitVec 3) (s : State) : Out :=
  shapeCmd sh t w (plainBody .prefr t (consumed x y z)) s

/-- BANKM (R103, R303). -/
def execBankm (t : BitVec 4) (b : BitVec 3) (m : BitVec 2) (c : BitVec 4) (s : State) : Out :=
  commandForm t (fun s => s.sendCmd .bankm 0 0 0 t [c.toNat] fun x =>
    { x with arg1 := b.setWidth 4, arg2 := m.setWidth 3 }) s

/-- REEDINV (R311). -/
def execReedinv (sh : BitVec 2) (t x y : BitVec 4) (w : BitVec 1) (z : BitVec 3) (s : State) : Out :=
  shapeCmd sh t w (plainBody .reedinv t (consumed x y z)) s

/-- COLL (R312). -/
def execColl (sh : BitVec 2) (t x y : BitVec 4) (w : BitVec 1) (z : BitVec 3) (s : State) : Out :=
  shapeCmd sh t w (plainBody .coll t (consumed x y z)) s

/-- DPOST (R312). -/
def execDpost (sh : BitVec 2) (t x y : BitVec 4) (w : BitVec 1) (z : BitVec 3) (s : State) : Out :=
  shapeCmd sh t w (plainBody .dpost t (consumed x y z)) s

/-- GWAIT (R312). -/
def execGwait (sh : BitVec 2) (t x y : BitVec 4) (w : BitVec 1) (z : BitVec 3) (s : State) : Out :=
  shapeCmd sh t w (plainBody .gwait t (consumed x y z)) s

/-- LEASE (R312). -/
def execLease (sh : BitVec 2) (t x y : BitVec 4) (w : BitVec 1) (z : BitVec 3) (s : State) : Out :=
  shapeCmd sh t w (plainBody .lease t (consumed x y z)) s

/-- LREL (R312). -/
def execLrel (sh : BitVec 2) (t x y : BitVec 4) (w : BitVec 1) (z : BitVec 3) (s : State) : Out :=
  shapeCmd sh t w (plainBody .lrel t (consumed x y z)) s

/-- MBPOST (R312). -/
def execMbpost (sh : BitVec 2) (x y : BitVec 4) (w : BitVec 1) (z : BitVec 3) (s : State) : Out :=
  shapeCmd sh 0 w (mbpostBody (consumed x y z)) s

end Sys2Proof.Machine
end

