-- ==== Sys2Proof/Machine/Flags.lean ====
section
/-! DEFINITION. The flags of an operation on floating-point elements (R69, R82, R84, R87, R256): every result the
vector slots round, with the flags it sets. -/

namespace Sys2Proof.Machine

/-- NV: a NaN made from operands none of which is NaN (R84). -/
def flInvalid (v : Val) (ops : List Val) : BitVec 7 := flIf (v.isNan && !ops.any Val.isNan) flNV

/-- An exact result rounded to nearest even into T, with the flags of its operands and its rounding (R84, R87). -/
def floatResult (f : Fmt) (v : Val) (ops : List Val) : Nat × BitVec 7 :=
  let r := rne f v
  (r.1, r.2 ||| flInvalid v ops)

/-- A rounded conversion of one element (R81, R82, R84). -/
def convert (src dst : Fmt) (mode : Rnd) (o : Ovf) (x : Nat) (draw : BitVec 32) : Nat × BitVec 7 :=
  narrow dst mode o (src.dec x) draw

/-- A conversion to a w-bit integer pattern (R88). -/
def convertToInt (w : Nat) (mode : Rnd) (v : Val) (draw : BitVec 32) : Nat × BitVec 7 :=
  let r := toInt w mode v draw
  (pat w r.1, r.2)

/-- A sum clamped to the signed range of w bits; only SAT is set (R253). -/
def addSat (w : Nat) (x y : Nat) : Nat × BitVec 7 :=
  let r := clip w (sgn w x + sgn w y)
  (pat w r.1, flIf r.2 flSAT)

/-- The lesser or the greater of two elements (R252); no flag. -/
def minMax (f : Fmt) (greater : Bool) (x y : Nat) : Nat × BitVec 7 :=
  let a := f.dec x
  let b := f.dec y
  let pickX := if a.lt b then !greater else if b.lt a then greater else a.neg != greater
  (if a.isNan || b.isNan then f.nan else if pickX then x else y, 0)

end Sys2Proof.Machine
end

