-- ==== Sys2Proof/Machine/KeptStore.lean ====
section
/-! DEFINITION. The reduction of a tile to its kept form, as STK makes it (R126 to R129, R305). -/

namespace Sys2Proof.Machine

/-- The format of an element type code of the reader table (R124). -/
def etypeFmt : Nat → Fmt
  | 0 => .bf16
  | 1 => .f16
  | 2 => .e4m3
  | 3 => .e5m2
  | _ => .f32

/-- A list cut into pieces of n. -/
def chunks {α : Type} (n : Nat) : Nat → List α → List (List α)
  | 0, _ => []
  | _, [] => []
  | f + 1, l => l.take n :: chunks n f (l.drop n)

/-- Fields of w bits packed from the least significant bit upward (R126). -/
def packFields (w : Nat) (l : List Nat) : List Byte :=
  if w < 8 then
    (chunks (8 / w) l.length l).map fun c => BitVec.ofNat 8 (c.foldr (fun x acc => acc * 2 ^ w + x % 2 ^ w) 0)
  else l.flatMap fun x => natToBytes (w / 8) x

/-- Zero bytes to a whole number of sectors. -/
def padSector (bs : List Byte) : List Byte := bs ++ List.replicate ((128 - bs.length % 128) % 128) 0

/-- ceil(a / b). -/
def ceilDiv (a b : Nat) : Nat := (a + b - 1) / b

/-- MASK1: x > 0. -/
def mask1Bit (f : Fmt) (x : Nat) : Nat :=
  let v := f.dec x
  b2n (!v.isNan && !v.neg && !v.isZero)

/-- The place of the first greatest of the elements present, each with its place (R127); 0 when there is none. -/
def placedMax (f : Fmt) (l : List (Nat × Nat)) : Nat :=
  match l with
  | [] => 0
  | x :: r => (r.foldl (fun g p => if poolLess f g.2 p.2 then p else g) x).1

/-- The positions of the windows of a tile of n elements, tw to a row, in windows of h × v (R127, R305). -/
def poolIdx (f : Fmt) (h v tw n : Nat) (l : List Nat) : List Nat :=
  let rows := ceilDiv n tw
  (List.range (ceilDiv rows h)).flatMap fun wr => (List.range (ceilDiv tw v)).map fun wc =>
    placedMax f ((List.range (h * v)).filterMap fun p =>
      let r := wr * h + p / v
      let c := wc * v + p % v
      if c < tw ∧ r * tw + c < n then some (p, l.getD (r * tw + c) 0) else none)

/-- The scale of a code sector (R128): the least e with every finite |x| at most 448 · 2^(e − 127), or 254. -/
def code8Scale (f : Fmt) (l : List Nat) : Nat :=
  let fits (e : Nat) : Bool := l.all fun x =>
    let v := (f.dec x).abs
    !v.isFin || !(Val.fin false 448 ((e : Int) - 127)).lt v
  ((List.range 255).find? fits).getD 254

/-- The code of an element under a scale (R128). -/
def code8Code (f : Fmt) (e x : Nat) : Nat :=
  let v := f.dec x
  if v.isNan then 0x7F else (narrow .e4m3 .rn .sat (v.scale (127 - (e : Int))) 0).1

/-- A block of up to 128 code sectors and its scale sector. -/
def code8Block (f : Fmt) (sectors : List (List Nat)) : List Byte :=
  let es := sectors.map (code8Scale f)
  (sectors.zip es).flatMap (fun p => padSector (packFields 8 (p.1.map (code8Code f p.2)))) ++ padSector (packFields 8 es)

/-- The distance of R129; none for +∞. -/
def code4Dist (x c : Val) : Option Val :=
  if x.eqv c then some .zero else if x.isInf || c.isInf then none else some (x.add c.negate).abs

/-- a < b of two distances. -/
def distLt (a b : Option Val) : Bool :=
  match a, b with
  | none, _ => false
  | some _, none => true
  | some u, some v => u.lt v

/-- The index of the codebook entry nearest to x (R129). -/
def code4Idx (f : Fmt) (cbk : BitVec 256) (x : Nat) : Nat :=
  let v := f.dec x
  let entries := (List.range 16).map fun i => (i, Fmt.bf16.dec (bits cbk (16 * i + 15) (16 * i)))
  if v.isNan then ((entries.find? fun p => p.2.isNan).map (·.1)).getD 0
  else
    match entries.filter fun p => !p.2.isNan with
    | [] => 0
    | g :: r => (r.foldl (fun g p => if distLt (code4Dist v p.2) (code4Dist v g.2) then p else g) g).1

/-- The payload of a tile, padded to whole sectors (R126, R305): `e` is the entry captured at issue. -/
def keptPayload (e : BitVec 32) (cbk : BitVec 256) (tw n : Nat) (l : List Nat) : List Byte :=
  let f := etypeFmt (ktEtype e)
  match ktForm e with
  | 1 => padSector (packFields 1 (l.map (mask1Bit f)))
  | 2 => padSector (packFields 2 (poolIdx f 2 2 tw n l))
  | 3 => padSector (packFields 4 (poolIdx f (ktWindow e).1 (ktWindow e).2 tw n l))
  | 4 => (chunks 128 n (chunks 128 n l)).flatMap (code8Block f)
  | 5 => padSector (packFields 4 (l.map (code4Idx f cbk)))
  | _ => padSector (packFields f.w l)

end Sys2Proof.Machine
end

