-- ==== Sys2Proof/Machine/Elements.lean ====
section
/-! DEFINITION. The work of the engine commands, one element at a time (R120, R137, R297, R302 to R311): atomics, kept stores
and copies, tensor copies, block copies, prefetch and reed invalidation, and the completion of a fence (R144). -/

namespace Sys2Proof.Machine

/-! ### Reads and writes of an engine -/

/-- Who an engine works for: its fen, the issuing core (none for a copy node), the context, the engine itself (none for a
communication master), the core to which a held access of it is being delivered, and whether an element's write is to take its
place later (R137). -/
structure Agent where
  fen : Nat
  key : Option CoreKey
  ctx : BitVec 6
  src : Option EngSrc
  through : Option CoreKey
  post : Bool
  deriving DecidableEq, Repr, Inhabited

/-- The command of an id. -/
def Core.cmd (c : Core) (id : Nat) : Option Cmd := c.pipes.cmds.find? fun x => decide (x.id = id)

/-- A command replaced. -/
def Core.putCmd (c : Core) (x : Cmd) : Core :=
  { c with pipes := { c.pipes with cmds := c.pipes.cmds.map fun y => if y.id = x.id then x else y } }

/-- The logical clock of an engine (R141): its sequencer's, its copy engine's, or that of its fen's walker and master. -/
def State.agClock (s : State) (ag : Agent) : Nat :=
  match ag.src with
  | some (.cmd k id) => let c := s.getCore k; vget c.pipes.engClocks ((c.cmd id).elim 0 fun x => x.slot - 4)
  | some (.node d e) => vget (vget s.dies d.val).engClocks e.val
  | none => (vget s.fens ag.fen).clock

/-- An engine's clock never decreases. -/
def State.agRaise (s : State) (ag : Agent) (t : Nat) : State :=
  let up (v : Vector Nat 2) (i : Nat) : Vector Nat 2 := vset v i (max (vget v i) t)
  match ag.src with
  | some (.cmd k id) =>
    s.onCore k fun c => { c with pipes := { c.pipes with
      engClocks := up c.pipes.engClocks ((c.cmd id).elim 0 fun x => x.slot - 4) } }
  | some (.node d e) => s.onDie d.val fun x => { x with engClocks := vset x.engClocks e.val (max (vget x.engClocks e.val) t) }
  | none => s.onFen ag.fen fun f => { f with clock := max f.clock t }

/-- The answer of one access: it is held, it faults, or it is performed. -/
inductive Got (α : Type) where
  | wait (s : State)
  | fault (f : FaultInfo) (s : State)
  | ok (a : α) (s : State)

/-- A scratchpad sector through the network port; a carrying read takes poison along (R362). -/
def State.spSector (s : State) (k : CoreKey) (off n : Nat) (carry : Bool) : Got Sect :=
  let c := (s.getCore k).landDue
  let o := off % c.spSize
  let r := vget c.sp.bank (bankOf o)
  if carry && !r.shut && decide (r.mode ≠ 2) && setHas (o / 128) c.sp.poison then
    .ok ⟨c.sp.mem.readBytes o n, c.sp.tags.read (o / 128), true⟩ (s.putCore c)
  else
    match s.netRead k off n with
    | (.ok r, s) => .ok ⟨r.1, r.2, false⟩ s
    | (.error f, s) => .fault f s

/-- The same by an engine, at a time of its queue (R140, R141). -/
def State.engSector (s : State) (ag : Agent) (k : CoreKey) (off n : Nat) (carry : Bool) : Got Sect :=
  match s.spSector k off n carry with
  | .wait s => .wait s
  | .fault f s => .fault f s
  | .ok x s =>
    let r := s.spReadAt k off (s.agClock ag)
    .ok x (r.2.agRaise ag r.1)

/-- A carrying read of memory (R362, R374, R375): it takes poison along, that of a mire port which is down too, and stops only
where nothing answers, at an expired lease, and at a failed expansion. -/
def State.carryRead (s : State) (va : Word) (pa n : Nat) : Except FaultInfo Sect :=
  let bad := Sect.mk (s.peek pa n) (s.tags.read (pa / 128)) true
  match s.reachable va pa with
  | some f => if f.code = 0x30 ∧ f.cause = 4 then .ok bad else .error f
  | none =>
    if s.flaws.any fun x => decide (x = (pa / 128, .expansion)) then .error (s.sectorFault va pa)
    else .ok { bad with bad := s.poisoned pa }

/-- A window access of an engine reaches its core now, and is not held (R351, R352). -/
def State.engOpen (s : State) (ag : Agent) (t : CoreKey) : Bool :=
  let k := ag.key.getD 8192
  if ag.through = some t then s.windowOpen t k ag.ctx else s.windowAt ag.fen t k ag.ctx

/-- A window access of an engine held at the master. -/
def State.holdEng (s : State) (ag : Agent) (h : EngSrc → HeldItem) : State := ag.src.elim s fun x => s.holdAt ag.fen (h x)

/-- A read within one sector. One to a window that is not open is held, and its element waits for it. -/
def State.engRead (s : State) (ag : Agent) (carry : Bool) (p : Place) (n : Nat) : Got Sect :=
  match p with
  | .glob va =>
    match s.translate ag.fen ag.key ag.ctx.toNat va false with
    | .error e => .fault e.1 e.2
    | .ok x =>
      let got := if carry then x.st.carryRead va x.pa n else (x.st.readPhys va x.pa n).map fun r => ⟨r.1, r.2, false⟩
      match got with
      | .error f => .fault f (x.st.asked f x.pa)
      | .ok r =>
        let t := ((if r.bad then x.st.lostLine x.pa else x.st).request x.pa).readAt x.pa (s.agClock ag)
        .ok r (t.2.agRaise ag t.1)
  | .win a =>
    let t := windowCore ag.fen a
    if s.engOpen ag t then s.engSector ag t (a % 2 ^ 20) n carry else .wait (s.holdEng ag fun x => .engRead t x ag.ctx)
  | .own off =>
    match ag.key with
    | some k => s.engSector ag k off n carry
    | none => .wait s

/-- INFO0 of a FLT_KEPT met at a place (R341, R402). -/
def Place.keptInfo : Place → Word
  | .glob va => va &&& 0x01FFFFFFFFFFFF80
  | .win a => keptSpInfo (a % 2 ^ 20 / 128 * 128)
  | .own off => keptSpInfo (off / 128 * 128)

/-- A read by an access that is not a reader (R132). -/
def State.engPlain (s : State) (ag : Agent) (p : Place) (n : Nat) : Got Sect :=
  match s.engRead ag false p n with
  | .wait s => .wait s
  | .fault f s => .fault f s
  | .ok x s =>
    match keptPlain [x.tag] p.keptInfo with
    | some f => .fault f s
    | none => .ok x s

/-- The sector of a scratchpad that a network write at an offset goes to: in a bank in FIFO mode that of the next entry (R105). -/
def Scratch.writeSector (sp : Scratch) (o : Nat) : Nat :=
  let f := vget sp.fifo (bankOf o)
  (if sp.isFifo o then rowAddr o (f.head + f.count) else o) / 128

/-- A write through the network port of a core, with a tag and poison. -/
def State.spPut (s : State) (k : CoreKey) (off : Nat) (bs : List Byte) (tag : Byte) (bad : Bool) : Got Unit :=
  match (s.getCore k).netWrite off bs tag with
  | .full => .wait s
  | .fault f => .fault f s
  | .done c =>
    let o := off % c.spSize
    let at_ := (s.getCore k).landDue.sp.writeSector o
    let c := if bad && !(vget c.sp.bank (bankOf o)).shut then
      { c with sp := { c.sp with poison := setAdd at_ c.sp.poison } } else c
    .ok () (s.putCore c)

/-- The same by an engine, at a time of its queue (R140, R141). -/
def State.engSpPut (s : State) (ag : Agent) (k : CoreKey) (off : Nat) (bs : List Byte) (tag : Byte) (bad : Bool) : Got Unit :=
  match (s.spBound k (s.agClock ag)).spPut k off bs tag bad with
  | .wait s => .wait s
  | .fault f s => .fault f s
  | .ok _ s => .ok () (s.agRaise ag (s.spWrote k off))

/-- A write within one sector, with a tag and poison. One to a window that is not open is held, and the engine goes on. -/
def State.engWrite (s : State) (ag : Agent) (w : EngPost) : Got Unit :=
  match w.at_ with
  | .glob va =>
    match s.translate ag.fen ag.key ag.ctx.toNat va true with
    | .error e => .fault e.1 e.2
    | .ok x =>
      match x.st.writeBad va x.pa x.cmp w.bytes w.tag w.bad with
      | .error f => .fault f (x.st.asked f x.pa)
      | .ok u =>
        let t := (u.request x.pa).wroteTimed x.pa (s.agClock ag)
        .ok () (t.2.agRaise ag t.1)
  | .win a =>
    let t := windowCore ag.fen a
    if s.engOpen ag t then s.engSpPut ag t (a % 2 ^ 20) w.bytes w.tag w.bad
    else if ag.src.isNone then .wait s
    else .ok () (s.holdEng ag fun x => .engWrite t x ag.ctx w)
  | .own off =>
    match ag.key with
    | some k => s.engSpPut ag k off w.bytes w.tag w.bad
    | none => .wait s

/-- An address of a shape register moved by an offset: a window address keeps its core (R295). -/
def placeAt (window : Bool) (base : Word) (off : Nat) : Place :=
  if window then .win (base.toNat % 2 ^ 27 / 2 ^ 20 * 2 ^ 20 + (base.toNat + off) % 2 ^ 20)
  else .glob (base + BitVec.ofNat 64 off)

/-! ### One element -/

/-- What one element comes to: it is held, the engine stops at it, or it is done and the command has moved on. -/
inductive Elem where
  | wait (s : State)
  | stop (f : FaultInfo) (s : State)
  | go (c : Cmd) (s : State)

/-- The answer of an access continued. -/
def Got.elem {α : Type} (g : Got α) (k : α → State → Elem) : Elem :=
  match g with
  | .wait s => .wait s
  | .fault f s => .stop f s
  | .ok a s => k a s

/-- The resume point of a range in EXT[31:0] (R340). -/
def FaultInfo.atIndex (f : FaultInfo) (i : Nat) : FaultInfo := { f with ext := i % 2 ^ 32 }

/-- A stop's EXT replaced by a resume point. -/
def Elem.atIndex (e : Elem) (i : Nat) : Elem :=
  match e with
  | .wait s => .wait s
  | .stop f s => .stop (f.atIndex i) s
  | .go c s => .go c s

/-! ### Copy descriptors (R307, R344) -/

def dRnd (d : BitVec 1024) : Nat := bits d 1023 1021
def dQtype (d : BitVec 1024) : Nat := bits d 1020 1019
def dSca (d : BitVec 1024) : Nat := bits d 1014 958
def dAmx (d : BitVec 1024) : Nat := bits d 957 901
def dAlt (d : BitVec 1024) : Bool := bit d 896
def dCount (d : BitVec 1024) (l : Nat) : Nat := bits d (192 + 96 * l + 15) (192 + 96 * l)
def dSstr (d : BitVec 1024) (l : Nat) : Nat := bits d (192 + 96 * l + 63) (192 + 96 * l + 32)
def dDstr (d : BitVec 1024) (l : Nat) : Nat := bits d (192 + 96 * l + 95) (192 + 96 * l + 64)
def dQuant (d : BitVec 1024) : Bool := bit d 136
def dLevels (d : BitVec 1024) : Nat := bits d 135 133

/-- Source and destination element sizes in bytes, for the form. -/
def dSizes (d : BitVec 1024) (quant : Bool) : Nat × Nat :=
  (2 ^ bits d 129 128, if quant then (if dQtype d = 3 then 2 else 1) else 2 ^ bits d 129 128)

/-- A reserved field of the descriptor is not zero, in any level. -/
def dReserved (d : BitVec 1024) : Bool :=
  decide (bits d 1018 1015 ≠ 0) || decide (bits d 900 897 ≠ 0) || decide (bits d 191 137 ≠ 0) || decide (bits d 132 130 ≠ 0)
    || decide (bits d 127 122 ≠ 0) || decide (bits d 63 58 ≠ 0)
    || (List.range 7).any fun l => decide (bits d (192 + 96 * l + 31) (192 + 96 * l + 16) ≠ 0)

/-- A base or an active stride is not a multiple of its element size. -/
def dMisaligned (d : BitVec 1024) (quant : Bool) : Bool :=
  let z := dSizes d quant
  decide (bits d 56 0 % z.1 ≠ 0) || decide (bits d 120 64 % z.2 ≠ 0)
    || (List.range (dLevels d)).any (fun l => decide (dSstr d l % z.1 ≠ 0) || decide (dDstr d l % z.2 ≠ 0))
    || (quant && (decide (dSca d % 4 ≠ 0) || decide (dAmx d % 4 ≠ 0)))

/-- The cause of a refused descriptor, the lowest that applies (R344): `form` is the opcode's QNT, none for a copy node. -/
def descFault (form : Option Bool) (d : BitVec 1024) : Option Nat :=
  let quant := form.getD (dQuant d)
  if dReserved d then some 1
  else if dLevels d = 0 then some 2
  else if 5 ≤ dRnd d then some 3
  else if dMisaligned d quant then some 4
  else if dQuant d ≠ quant then some 5
  else if quant && (decide (bits d 129 128 ≠ 2) || (dAlt d && decide (2 ≤ dQtype d))) then some 6
  else none

/-- The counts of the active levels. -/
def dCounts (d : BitVec 1024) : List Nat := (List.range (dLevels d)).map (dCount d)

/-- The number of elements of the walk; none when an active level has COUNT 0 (R308). -/
def dTotal (d : BitVec 1024) : Nat := (dCounts d).foldl (· * ·) 1

/-- The index tuple at a position of the walk, i0 fastest. -/
def tupleAt : List Nat → Nat → List Nat
  | [], _ => []
  | c :: cs, k => k % c :: tupleAt cs (k / c)

/-- The tuple in EXT: i_l at bits [16l + 15 : 16l] (R340). -/
def tupleExt (l : List Nat) : Nat := l.foldr (fun i acc => acc * 65536 + i % 65536) 0

/-- SRC or DST moved by the tuple: a global address, or a window address modulo 2^27. -/
def walkPlace (window : Bool) (base : Nat) (strides idx : List Nat) : Place :=
  let a : Word := (strides.zip idx).foldl (fun a p => a + sext32 p.1 * BitVec.ofNat 64 p.2) (BitVec.ofNat 64 base)
  if window then .win (a.toNat % 2 ^ 27) else .glob a

/-- The quantized element (R309). -/
def copyQuant (d : BitVec 1024) (x scale : Nat) (draw : BitVec 32) : Nat :=
  let v := (Fmt.f32.dec x).mul (Fmt.f32.dec scale)
  let mode := rndOf (dRnd d)
  match dQtype d with
  | 0 => (narrow .e4m3 mode (if dAlt d then .nan else .sat) v draw).1
  | 1 => (narrow .e5m2 mode (if dAlt d then .sat else .ieee) v draw).1
  | 2 => pat 8 (toInt 8 mode v draw).1
  | _ => (narrow .bf16 mode .ieee v draw).1

/-! ### Locations (R138) -/

/-- Where a virtual address of an agent lies, if it translates. -/
def State.physAt (s : State) (ag : Agent) (va : Word) : Option Nat :=
  match s.translate ag.fen ag.key ag.ctx.toNat va false with
  | .ok x => some x.pa
  | .error _ => none

/-- The locations of an access: a space (physical memory, an address that does not translate, a core's scratchpad), the first of
them and their number. -/
structure Span where
  space : Nat
  first : Nat
  len : Nat
  deriving DecidableEq, Repr, Inhabited

/-- Two accesses share a location. -/
def Span.meets (a b : Span) : Bool :=
  decide (a.space = b.space) && decide (a.first < b.first + b.len) && decide (b.first < a.first + a.len)

/-- The locations of a scratchpad access; in a bank in FIFO mode offset bits [17:8] are ignored (R105). -/
def State.spSpan (s : State) (k : CoreKey) (off n : Nat) : Span :=
  let c := s.getCore k
  let o := off % c.spSize
  if (vget c.sp.bank (bankOf o)).mode = 2 then ⟨2 + k, o / 2 ^ 18 * 2 ^ 18 + o % 256 / 128 * 128, 128⟩ else ⟨2 + k, o, n⟩

/-- The locations of an engine's access within one sector. -/
def State.span (s : State) (ag : Agent) (p : Place) (n : Nat) : Span :=
  match p with
  | .glob va => (s.physAt ag va).elim ⟨1, va.toNat, n⟩ fun pa => ⟨0, pa, n⟩
  | .win a => s.spSpan (windowCore ag.fen a) (a % 2 ^ 20) n
  | .own off => ag.key.elim ⟨1, 0, 0⟩ fun k => s.spSpan k off n

/-! ### The source and the target of an element (R137, R304 to R310) -/

/-- The number of bytes of a range command. -/
def lenOf (sh : Shape) : Nat := fld sh 95 64

/-- The source of a copy's element. -/
def copySource (d : BitVec 1024) (pos : Nat) : Place :=
  walkPlace (bit d 57) (bits d 56 0) ((List.range (dLevels d)).map (dSstr d)) (tupleAt (dCounts d) pos)

/-- The target of a copy's element. -/
def copyTarget (d : BitVec 1024) (pos : Nat) : Place :=
  walkPlace (bit d 121) (bits d 120 64) ((List.range (dLevels d)).map (dDstr d)) (tupleAt (dCounts d) pos)

/-- The parts of the source of an STK, a sector each, wrapping with the scratchpad. -/
def stkParts (c : Cmd) : List (Nat × Nat) :=
  partsOf (fld c.shape 179 160) ((stkN c.shape * etypeBits (ktEtype c.entry) + 7) / 8)

/-- The source of a copy's element once the descriptor, and a quantizing copy's scale, have been read. -/
def Cmd.copySourceAt (c : Cmd) (i : Nat) : Option (Place × Nat) :=
  c.desc.bind fun d => if i < dTotal d ∧ (dQuant d → c.placed) then some (copySource d i, (dSizes d (dQuant d)).1) else none

/-- The source of element i of a command and its bytes, where one is known. -/
def Cmd.sourceAt (c : Cmd) (i : Nat) : Option (Place × Nat) :=
  match c.op with
  | .kcopy => if 128 * i < lenOf c.shape then some (placeAt (asWindow c.shape) c.addrA (128 * i), 128) else none
  | .cpblk => if 128 * i < lenOf c.shape ∧ !bit c.shape 158 then some (placeAt false c.addrA (128 * i), 128) else none
  | .stk => if c.placed || bit c.shape 155 then none else (stkParts c)[i]?.map fun p => (.own p.1, p.2)
  | .cp => c.copySourceAt i
  | .cpq => c.copySourceAt i
  | .atomic _ => none
  | .fence => none
  | .prefr => none
  | .bankm => none
  | .reedinv => none
  | .coll => none
  | .dpost => none
  | .gwait => none
  | .lease => none
  | .lrel => none
  | .mbpost => none

/-- The target of element i of a copy and its bytes. -/
def Cmd.targetAt (c : Cmd) (i : Nat) : Option (Place × Nat) :=
  let copy := c.desc.map fun d => (copyTarget d i, (dSizes d (dQuant d)).2)
  match c.op with
  | .kcopy => some (placeAt (bsWindow c.shape) c.addrB (128 * i), 128)
  | .cpblk => some (placeAt false c.addrB (128 * i), 128)
  | .cp => copy
  | .cpq => copy
  | .stk => none
  | .atomic _ => none
  | .fence => none
  | .prefr => none
  | .bankm => none
  | .reedinv => none
  | .coll => none
  | .dpost => none
  | .gwait => none
  | .lease => none
  | .lrel => none
  | .mbpost => none

/-- A read of an element's source: carrying for the kept copies, unchecked for an STK, which checks for itself (R132, R134,
R304). -/
def State.readSource (s : State) (ag : Agent) (op : CmdOp) (p : Place × Nat) : Got Sect :=
  if op = .kcopy ∨ op = .cpblk then s.engRead ag true p.1 p.2
  else if op = .stk then s.engRead ag false p.1 p.2
  else s.engPlain ag p.1 p.2

/-- A write of the command that has yet to take its place shares a location with the access. -/
def State.behind (s : State) (ag : Agent) (c : Cmd) (x : Span) : Bool :=
  c.posted.any fun y => (s.span ag y.at_ y.bytes.length).meets x

/-- The source of the next element: as it was read ahead, or read now, after the command's earlier writes to its locations. -/
def State.engSource (s : State) (ag : Agent) (c : Cmd) : Got Sect :=
  match c.sourceAt c.pos with
  | none => .wait s
  | some p =>
    match c.ahead.find? fun x => decide (x.1 = c.pos) with
    | some x => .ok x.2 s
    | none => if s.behind ag c (s.span ag p.1 p.2) then .wait s else s.readSource ag c.op p

/-- A write of the element at hand. -/
def Cmd.write (c : Cmd) (p : Place) (bs : List Byte) (tag : Byte) (bad : Bool) : EngPost := ⟨p, bs, tag, bad, c.pos, c.lfsr, c.amax⟩

/-- The write of the next element: it takes its place now, after the command's earlier writes to its locations; or, posted, once
it is known to meet no fault, it takes its place later. -/
def State.engPut (s : State) (ag : Agent) (c : Cmd) (p : Place) (bs : List Byte) (tag : Byte) (bad : Bool)
    (k : Cmd → State → Elem) : Elem :=
  if !ag.post && s.behind ag c (s.span ag p bs.length) then .wait s
  else
    (s.engWrite ag (c.write p bs tag bad)).elem fun _ t =>
      if ag.post then k { c with posted := c.posted ++ [c.write p bs tag bad] } s else k c t

/-! ### Copies (R308, R309) -/

/-- The resume point in a copy's record (R340): the tuple, and with FLT_PAGE the LFSR and the maximum. -/
def copyStop (c : Cmd) (f : FaultInfo) : FaultInfo :=
  let idx := c.desc.elim [] fun d => tupleAt (dCounts d) c.pos
  { f with
    ext := tupleExt idx
    i1 := if f.code = 0x0A then BitVec.ofNat 64 (c.lfsr.toNat * 2 ^ 32 + c.amax.toNat) else f.i1 }

/-- The address a descriptor is named by. -/
def Place.address : Place → Word
  | .glob va => va
  | .win a => BitVec.ofNat 64 a
  | .own off => BitVec.ofNat 64 off

/-- The descriptor is read and checked. -/
def copyStart (ag : Agent) (form : Option Bool) (at_ : Place) (c : Cmd) (s : State) : Elem :=
  (s.engPlain ag at_ 128).elem fun x s =>
    let d : BitVec 1024 := BitVec.ofNat 1024 (bytesToNat x.bytes)
    match descFault form d with
    | some k => .stop ⟨0x0C, k, true, at_.address, 0, 0⟩ s
    | none => .go { c with desc := some d, lfsr := BitVec.ofNat 32 (bits d 895 864), finished := decide (dTotal d = 0) } s

/-- Every write of a command's elements has been performed: none is posted, and none is held at a master. -/
def State.elementsWritten (s : State) (ag : Agent) (c : Cmd) : Bool :=
  c.posted.isEmpty && !(ag.src.elim false fun x => s.heldAny (·.writeOf x))

/-- The fold of the maximum into AMX, as ATFMAX does, after the write of the last element (R309). -/
def copyFold (ag : Agent) (d : BitVec 1024) (c : Cmd) (s : State) : Elem :=
  let p := Place.glob (BitVec.ofNat 64 (dAmx d))
  if !s.elementsWritten ag c then .wait s
  else (s.engPlain ag p 4).elem fun x s =>
    let m := (minMax .f32 true (bytesToNat x.bytes) c.amax.toNat).1
    (s.engWrite ag (c.write p (natToBytes 4 m) 0 false)).elem fun _ s => .go { c with finished := true } s

/-- One element of the walk. -/
def copyOne (ag : Agent) (d : BitVec 1024) (c : Cmd) (s : State) : Elem :=
  let z := dSizes d (dQuant d)
  (s.engSource ag c).elem fun x s =>
    let v := bytesToNat x.bytes
    let draw := lfsNext c.lfsr
    let y := if dQuant d then copyQuant d v c.scale.toNat draw else v
    let top := if (Fmt.f32.dec v).isFin then max c.amax.toNat (v % 2 ^ 31) else c.amax.toNat
    s.engPut ag c (copyTarget d c.pos) (natToBytes z.2 y) 0 false fun c s =>
      .go { c with
        pos := c.pos + 1
        lfsr := if dQuant d && decide (dRnd d = 4) then draw else c.lfsr
        amax := if dQuant d then BitVec.ofNat 32 top else 0
        finished := decide (c.pos + 1 = dTotal d) && (!dQuant d || decide (dAmx d = 0)) } s

/-- The next step of a CP, a CPQ or a copy node: its descriptor, its scale (`placed` says that it has been read), an element,
or its fold. -/
def copyElem (ag : Agent) (form : Option Bool) (at_ : Place) (c : Cmd) (s : State) : Elem :=
  let e := match c.desc with
    | none => copyStart ag form at_ c s
    | some d =>
      if dQuant d && !c.placed then
        (s.engPlain ag (.glob (BitVec.ofNat 64 (dSca d))) 4).elem fun x s =>
          .go { c with placed := true, scale := BitVec.ofNat 32 (bytesToNat x.bytes) } s
      else if c.pos = dTotal d then
        (if dQuant d && decide (dAmx d ≠ 0) then copyFold ag d c s else .go { c with finished := true } s)
      else copyOne ag d c s
  match e with
  | .wait s => .wait s
  | .stop f s => .stop (copyStop c f) s
  | .go c s => .go c s

/-! ### Atomics (R302) -/

/-- The new value of an atomic; none for a failing ATCAS. -/
def atomicNew (k w old o o2 : Nat) : Option Nat :=
  match k with
  | 0 => some ((old + o) % 2 ^ w)
  | 1 => some (old &&& o)
  | 2 => some (old ||| o)
  | 3 => some o
  | 4 => if old = o then some o2 else none
  | 5 => some (rne .f32 ((Fmt.f32.dec old).add (Fmt.f32.dec o))).1
  | _ => some (minMax .f32 true old o).1

/-- The piece of an atomic, which reads and then writes; then the old value at RES. `placed` says that the piece is done. -/
def atomicElem (ag : Agent) (k : Nat) (c : Cmd) (s : State) : Elem :=
  let sh := c.shape
  let b := if bit sh 156 then 8 else 4
  let opd := fld sh 179 160
  let p := placeAt (asWindow sh) c.addrA 0
  if c.placed then
    s.engPut ag c (.own (fld sh 211 192)) c.snap 0 false fun c s => .go { c with finished := true } s
  else
    (s.engPlain ag (.own opd) b).elem fun x s =>
      (if k = 4 then s.engPlain ag (.own (opd + b)) b else .ok x s).elem fun y s =>
        (s.engPlain ag p b).elem fun z s =>
          let c := { c with placed := true, snap := z.bytes, finished := bit sh 157 }
          match atomicNew k (8 * b) (bytesToNat z.bytes) (bytesToNat x.bytes) (bytesToNat y.bytes) with
          | none => .go c s
          | some v => (s.engWrite ag (c.write p (natToBytes b v) 0 false)).elem fun _ s => .go c s

/-! ### Kept stores and copies (R304 to R306) -/

/-- The elements of an STK from its bytes. -/
def stkElems (c : Cmd) (bs : List Byte) : List Nat :=
  wordsOf (etypeBits (ktEtype c.entry) / 8) (stkN c.shape) bs

/-- The payload of an STK (R304, steps 4 and 5). -/
def stkPayload (c : Cmd) (bs : List Byte) : List Byte :=
  let n := stkN c.shape
  let tw := if fld c.shape 223 208 = 0 then n else fld c.shape 223 208
  keptPayload c.entry c.cbk tw n (stkElems c bs)

/-- The next step of an STK: a part of its source, the reduction, or a sector of its payload (`placed` says that `snap` is
the payload). -/
def stkElem (ag : Agent) (c : Cmd) (s : State) : Elem :=
  let sh := c.shape
  if c.placed then
    let bs := (c.snap.drop (128 * c.pos)).take 128
    let tag := mkTag (ktForm c.entry) (fld sh 152 149)
    s.engPut ag c (placeAt (asWindow sh) c.addrA (128 * c.pos)) bs tag false fun c s =>
      .go { c with pos := c.pos + 1, finished := decide (c.snap.length ≤ 128 * (c.pos + 1)) } s
  else if bit sh 155 then
    .go { c with placed := true, pos := 0, snap := stkPayload c (c.src.flatMap fun e => bvBytes e.v) } s
  else
    match (stkParts c)[c.pos]? with
    | none => .go { c with placed := true, pos := 0, snap := stkPayload c c.snap } s
    | some p =>
      (s.engSource ag c).elem fun x s =>
        if tagV x.tag && decide (tagForm x.tag ≠ 6) then .stop (keptFault 1 0 x.tag (Place.own p.1).keptInfo) s
        else .go { c with pos := c.pos + 1, snap := c.snap ++ x.bytes } s

/-- The tag a KCOPY writes (R134). -/
def kcopyTag (sh : Shape) (t : Byte) : Byte :=
  if !tagV t then 0
  else if bit sh 158 then mkTag (tagForm t) (fld sh 319 256 / 16 ^ tagIdx t % 16)
  else t

/-- One sector of a copy with tag and poison. -/
def carrySector (ag : Agent) (c : Cmd) (dst : Place) (f : Byte → Byte) (s : State) (k : Cmd → State → Elem) : Elem :=
  (s.engSource ag c).elem fun x s => s.engPut ag c dst x.bytes (f x.tag) x.bad k

/-- One sector of a KCOPY (R306). -/
def kcopyElem (ag : Agent) (c : Cmd) (s : State) : Elem :=
  let sh := c.shape
  if lenOf sh ≤ 128 * c.pos then .go { c with finished := true } s
  else
    (carrySector ag c (placeAt (bsWindow sh) c.addrB (128 * c.pos)) (kcopyTag sh) s
      fun c s => .go { c with pos := c.pos + 1, finished := decide (lenOf sh ≤ 128 * (c.pos + 1)) } s).atIndex c.pos

/-! ### Block copies (R113, R310) -/

/-- A block of in-array copies: 120 KiB. -/
def blockBytes : Nat := 122880

/-- The die and the DRAM row of a block that starts at a virtual address, when the block lies in one piece at a multiple of
its size in one die's HBM. -/
def State.blockAt (s : State) (ag : Agent) (va : Word) : Option (Nat × Nat) :=
  match s.physAt ag va with
  | none => none
  | some pa =>
    let die := pa / 2 ^ 37
    let off := pa % 2 ^ 37
    let breaks := [65536 - va.toNat % 65536, 131072 - va.toNat % 65536].filter fun k => decide (k < blockBytes)
    let whole := breaks.all fun k => decide (s.physAt ag (va + BitVec.ofNat 64 k) = some (pa + k))
    match s.tier pa with
    | .hbm _ =>
      if off % blockBytes = 0 ∧ off + blockBytes ≤ (vget s.dies die).hbmSize ∧ whole then some (die, off / blockBytes) else none
    | .mire _ => none
    | .lease _ => none
    | .absent => none

/-- An aligned block of the destination starts at this sector (its die-local offset is a multiple of the size). -/
def State.blockStart (s : State) (ag : Agent) (va : Word) : Bool :=
  match s.physAt ag va with
  | none => false
  | some pa =>
    match s.tier pa with
    | .hbm _ => decide (pa % 2 ^ 37 % blockBytes = 0)
    | .mire _ => false
    | .lease _ => false
    | .absent => false

/-- The in-array path serves a copy between two blocks (R113). -/
def State.inArray (s : State) (a b : Nat × Nat) : Bool :=
  decide (a.1 = b.1) && decide (a.2 / 512 = b.2 / 512) && (vget s.dies b.1).retired.isEmpty

/-- The first sector of the aligned destination block, wholly inside the range, that holds sector i of the range. -/
def State.blockOf (s : State) (ag : Agent) (c : Cmd) (i : Nat) : Option Nat :=
  match s.physAt ag (c.addrB + BitVec.ofNat 64 (128 * i)) with
  | none => none
  | some pa =>
    let back := pa % 2 ^ 37 % blockBytes / 128
    let at_ := i - back
    if i < back ∨ !(s.blockStart ag (c.addrB + BitVec.ofNat 64 (128 * at_)) && decide (128 * at_ + blockBytes ≤ lenOf c.shape)) then none
    else some at_

/-- The in-array copy of the destination block at sector i of the range, as things stand: its die, and the rows of its source and
destination blocks (R113). -/
def State.newPath (s : State) (ag : Agent) (c : Cmd) (i : Nat) : Option (Nat × Nat × Nat) :=
  let src := if bit c.shape 158 then c.fill else s.blockAt ag (c.addrA + BitVec.ofNat 64 (128 * i))
  match src, s.blockAt ag (c.addrB + BitVec.ofNat 64 (128 * i)) with
  | some a, some b => if s.inArray a b then some (b.1, a.2, b.2) else none
  | some _, none => none
  | none, some _ => none
  | none, none => none

/-- The path of the destination block that holds sector i is settled when its first sector is copied, and kept (R310; DESIGN CHOICE, log
entry 129). A fill writes
its first eligible block through the ordinary path, and clones that block into the others (R113). -/
def State.notePath (s : State) (ag : Agent) (c : Cmd) (i : Nat) : Cmd :=
  match s.blockOf ag c i with
  | none => c
  | some k =>
    if c.paths.any fun x => decide (x.1 = k) then c
    else
      let dst := s.blockAt ag (c.addrB + BitVec.ofNat 64 (128 * k))
      { c with
        paths := c.paths ++ [(k, s.newPath ag c k)]
        fill := c.fill.or (dst.filter fun b => (vget s.dies b.1).retired.isEmpty) }

/-- The in-array copy of the block that holds sector i, once its path is settled. -/
def State.pathAt (s : State) (ag : Agent) (c : Cmd) (i : Nat) : Option (Nat × Nat × Nat) :=
  (s.blockOf ag c i).bind fun k => (c.paths.find? fun x => decide (x.1 = k)).bind (·.2)

/-- The status word of a CPBLK (R310): the blocks that took the in-array path, and those that took the ordinary one. -/
def Cmd.cpblkStatus (c : Cmd) : Nat :=
  c.paths.countP (·.2.isSome) % 2 ^ 32 + c.paths.countP (·.2.isNone) % 2 ^ 32 * 2 ^ 32

/-- The in-array path drops a block from the reed buffers (R113). -/
def State.reedDropBlock (s : State) (die row : Nat) : State :=
  let first := (die * 2 ^ 37 + row * blockBytes) / 128
  { s with dies := s.dies.map fun d => { d with
      reed := d.reed.filter fun x => decide (x.1.toNat < first) || decide (first + blockBytes / 128 ≤ x.1.toNat) } }

/-- What the in-array path does besides copying: both blocks leave the reed buffers. -/
def State.afterSector (s : State) (x : Option (Nat × Nat × Nat)) : State :=
  match x with
  | some (die, a, b) => (s.reedDropBlock die a).reedDropBlock die b
  | none => s

/-- One sector of a CPBLK, or its status word (R310). -/
def cpblkElem (ag : Agent) (c : Cmd) (s : State) : Elem :=
  let sh := c.shape
  let i := c.pos
  if lenOf sh ≤ 128 * i then
    (s.engPut ag c (.own (fld sh 243 224)) (natToBytes 8 c.cpblkStatus) 0 false fun c s =>
      .go { c with finished := true } s).atIndex i
  else
    let dst := placeAt false c.addrB (128 * i)
    let c := s.notePath ag c i
    let blk := s.pathAt ag c i
    let ag := { ag with post := ag.post && blk.isNone }
    let next : Cmd → State → Elem := fun c s => .go { c with pos := i + 1 } (s.afterSector blk)
    (if bit sh 158 then
      s.engPut ag c dst (List.replicate 16 (natToBytes 8 (fld sh 319 256))).flatten 0 false next
    else carrySector ag c dst id s next).atIndex i

/-! ### Prefetch and reed invalidation (R111, R112, R311) -/

/-- The lines of a range, rounded outward. -/
def lineCount (c : Cmd) : Nat :=
  if lenOf c.shape = 0 then 0 else (c.addrA.toNat + lenOf c.shape + 255) / 256 - c.addrA.toNat / 256

/-- The sectors of a line leave the reed buffers of the package. -/
def State.reedDrop (s : State) (pa : Nat) : State :=
  { s with dies := s.dies.map fun d => { d with
      reed := d.reed.filter fun x => decide (x.1.toNat ≠ pa / 256 * 2) && decide (x.1.toNat ≠ pa / 256 * 2 + 1) } }

/-- A prefetched line fills its home slice (R112): a read fill of each of its sectors reaches the slice (R121). -/
def State.fillLine (s : State) (pa : Nat) : State := (s.request (pa / 256 * 256)).request (pa / 256 * 256 + 128)

/-- One line of a PREFR, which changes no value, or of a REEDINV. -/
def lineElem (drop : Bool) (ag : Agent) (c : Cmd) (s : State) : Elem :=
  if lineCount c ≤ c.pos then .go { c with finished := true } s
  else
    let va := BitVec.ofNat 64 ((c.addrA.toNat / 256 + c.pos) * 256)
    match s.translate ag.fen ag.key ag.ctx.toNat va false with
    | .error e => .stop (e.1.atIndex c.pos) e.2
    | .ok x =>
      let s := if drop then x.st.reedDrop x.pa else x.st.fillLine x.pa
      .go { c with pos := c.pos + 1, finished := decide (lineCount c ≤ c.pos + 1) } s

/-! ### Accesses out of element order (R137) -/

/-- The resume point of a write that has yet to take its place (R340). -/
def Cmd.stopAt (c : Cmd) (x : EngPost) (f : FaultInfo) : FaultInfo :=
  let copy := copyStop { c with pos := x.pos, lfsr := x.lfsr, amax := x.amax } f
  match c.op with
  | .kcopy => f.atIndex x.pos
  | .cpblk => f.atIndex x.pos
  | .cp => copy
  | .cpq => copy
  | .stk => f
  | .atomic _ => f
  | .fence => f
  | .prefr => f
  | .bankm => f
  | .reedinv => f
  | .coll => f
  | .dpost => f
  | .gwait => f
  | .lease => f
  | .lrel => f
  | .mbpost => f

/-- The i-th posted write of a command takes its place, after the earlier ones to its locations. -/
def postedWrite (ag : Agent) (c : Cmd) (i : Nat) (s : State) : Elem :=
  match c.posted[i]? with
  | none => .wait s
  | some x =>
    if s.behind ag { c with posted := c.posted.take i } (s.span ag x.at_ x.bytes.length) then .wait s
    else
      match s.engWrite ag x with
      | .wait _ => .wait s
      | .fault f s => .stop (c.stopAt x f) s
      | .ok _ s => .go { c with posted := c.posted.eraseIdx i } s

/-- An element before i, not done yet, has still to access the locations of an access of element i (R137: two accesses of one command
to one location are in element order). -/
def State.clash (s : State) (ag : Agent) (c : Cmd) (i : Nat) (x : Span) : Bool :=
  let met (p : Option (Place × Nat)) : Bool := p.elim false fun p => (s.span ag p.1 p.2).meets x
  ((List.range (i - c.pos)).map (c.pos + ·)).any fun j =>
    !setHas j c.early && (met (c.targetAt j) || (!c.ahead.any (fun y => decide (y.1 = j)) && met (c.sourceAt j)))

/-- The source of element i is read before its turn, where no earlier access of the command to its locations is left; a read that
would wait or fault is left to the element. -/
def readAhead (ag : Agent) (c : Cmd) (i : Nat) (s : State) : Elem :=
  match c.sourceAt i with
  | none => .wait s
  | some p =>
    let x := s.span ag p.1 p.2
    if i < c.pos ∨ setHas i c.early ∨ c.ahead.any (fun y => decide (y.1 = i)) ∨ s.behind ag c x ∨ s.clash ag c i x then .wait s
    else
      match s.readSource ag c.op p with
      | .wait _ => .wait s
      | .fault _ _ => .wait s
      | .ok y s => .go { c with ahead := c.ahead ++ [(i, y)] } s

/-- The state of a copy's LFSR at element i, which is not before the next one: it steps once per element in walk order (R309). -/
def Cmd.lfsrAt (c : Cmd) (i : Nat) : BitVec 32 :=
  if c.desc.elim false fun d => dQuant d && decide (dRnd d = 4) then Nat.rec c.lfsr (fun _ x => lfsNext x) (i - c.pos) else c.lfsr

/-- The number of elements of a command that may be done out of order (R137): those of a copy, once it has its descriptor and its scale.
R306 fixes the order of a KCOPY, and R304 has an STK read its elements before it writes. -/
def Cmd.freeElems (c : Cmd) : Nat :=
  match c.op with
  | .kcopy => 0
  | .cpblk => lenOf c.shape / 128
  | .cp => c.desc.elim 0 fun d => if dQuant d && !c.placed then 0 else dTotal d
  | .cpq => c.desc.elim 0 fun d => if dQuant d && !c.placed then 0 else dTotal d
  | .stk => 0
  | .atomic _ => 0
  | .fence => 0
  | .prefr => 0
  | .bankm => 0
  | .reedinv => 0
  | .coll => 0
  | .dpost => 0
  | .gwait => 0
  | .lease => 0
  | .lrel => 0
  | .mbpost => 0

/-- Element i may be done before its turn: no earlier access to its locations is left, and a CPBLK's sector takes the ordinary path,
after the block that a fill clones (R113, R137). -/
def State.mayJump (s : State) (ag : Agent) (c : Cmd) (i : Nat) : Bool :=
  let free (p : Option (Place × Nat)) : Bool := p.elim true fun p => !s.clash ag c i (s.span ag p.1 p.2)
  decide (c.pos < i) && decide (i < c.freeElems) && !setHas i c.early && free (c.sourceAt i) && free (c.targetAt i)
    && (decide (c.op ≠ .cpblk) || (s.blockOf ag c i).isNone
      || ((s.pathAt ag (s.notePath ag c i) i).isNone && (!bit c.shape 158 || c.fill.isSome)))

/-- The whole of element i is done before its turn, with the draw that its place in the walk gives it; one that would wait or fault is
left to its turn. -/
def jumpElem (ag : Agent) (run : Agent → Cmd → State → Elem) (c : Cmd) (i : Nat) (s : State) : Elem :=
  if !s.mayJump ag c i then .wait s
  else
    match run ag { c with pos := i, lfsr := c.lfsrAt i } s with
    | .wait _ => .wait s
    | .stop _ _ => .wait s
    | .go d s => .go { d with pos := c.pos, lfsr := c.lfsr, finished := false, early := i :: d.early } s

/-- The next element that is not done. -/
def skipDone (early : List Nat) : Nat → Nat → Nat
  | 0, i => i
  | n + 1, i => if setHas i early then skipDone early n (i + 1) else i

/-- Elements done before their turn are passed over, and what has been kept for elements that are done is forgotten. -/
def Elem.tidy (e : Elem) : Elem :=
  match e with
  | .wait s => .wait s
  | .stop f s => .stop f s
  | .go c s =>
    let pos := skipDone c.early c.early.length c.pos
    .go { c with
      pos := pos
      lfsr := c.lfsrAt pos
      ahead := c.ahead.filter fun x => decide (pos ≤ x.1)
      early := c.early.filter fun i => decide (pos ≤ i) } s

/-- One step of an engine on a command; `run` is its next element. A KCOPY reads and writes sector by sector (R306). -/
def engineStep (ag : Agent) (run : Agent → Cmd → State → Elem) (how : EngineStep) (c : Cmd) (s : State) : Elem :=
  match how with
  | .next => if c.finished then .wait s else (run ag c s).tidy
  | .post => if c.finished || decide (c.op = .kcopy) then .wait s else (run { ag with post := true } c s).tidy
  | .write i => postedWrite ag c i s
  | .ahead i => if c.finished || decide (c.op = .kcopy) then .wait s else readAhead ag c i s
  | .jump i => if c.finished then .wait s else jumpElem ag run c i s

/-! ### A core's engine sequencers -/

/-- The next step of a command. -/
def cmdElem (ag : Agent) (c : Core) (x : Cmd) (s : State) : Elem :=
  match x.op with
  | .atomic k => atomicElem ag k x s
  | .fence =>
    if s.fenceDone c x then .go { x with finished := true } ((s.settle c.key).onCore c.key fun c => c.fenceClocks x.arg1) else .wait s
  | .stk => stkElem ag x s
  | .kcopy => kcopyElem ag x s
  | .cp => copyElem ag (some false) (if asWindow x.shape then .own x.addrA.toNat else .glob x.addrA) x s
  | .cpq => copyElem ag (some true) (if asWindow x.shape then .own x.addrA.toNat else .glob x.addrA) x s
  | .cpblk => cpblkElem ag x s
  | .prefr => lineElem false ag x s
  | .reedinv => lineElem true ag x s
  | .bankm => .wait s
  | .coll => .wait s
  | .dpost => .wait s
  | .gwait => .wait s
  | .lease => .wait s
  | .lrel => .wait s
  | .mbpost => .wait s

/-- A command that places a mailbox entry has become ready to start: its consumed tokens are DONE (R64, R390). -/
def Core.newPost (c : Core) (x : Cmd) : Bool :=
  (kindOf x.op).isSome && x.ready.isNone && !x.started && !x.waits.any fun i => (c.cmd i).isSome

/-- The commands of a core that have become ready to place an entry take the next numbers of their fen; of several that become ready
in one step, the one issued first comes first (DESIGN CHOICE, log entry 119). -/
def State.notePosts (s : State) (k : CoreKey) : State :=
  let c := s.getCore k
  (c.pipes.cmds.filter c.newPost).foldl
    (fun s x => (s.onCore k fun d => d.putCmd { x with ready := some (vget s.fens c.fen).posts }).onFen c.fen fun f => { f with
      posts := f.posts + 1 }) s

/-- The record of an engine sequencer (R338, R340). -/
def Core.cmdRecord (c : Core) (x : Cmd) (f : FaultInfo) : FaultRec :=
  { c.record (x.slot - 3) f.code f.cause f.repl x.slot f.i0 f.i1 with ext := BitVec.ofNat 160 f.ext }

/-- The engine stops at the element with a record (R120). -/
def State.stopCmd (s : State) (k : CoreKey) (x : Cmd) (f : FaultInfo) : State :=
  let r := (s.getCore k).cmdRecord x f
  let s := s.met f
  (s.onCore k fun c => c.putCmd { x with stop := some s.seq }).postStop (.cmd k x.id) r

/-- A step of a command that has started. A sequencer that is stopped on a record goes on with none of its commands, so that it has one
record at most (R339); a FENCE accesses nothing, and ends when what it orders has. `through`: the core to which a held access of it is being delivered. -/
def State.elementRun (s : State) (k : CoreKey) (id : Nat) (through : Option CoreKey) (how : EngineStep) : State :=
  let c := s.getCore k
  match c.cmd id with
  | none => s
  | some x =>
    if !x.started || (c.seqStopped x && decide (x.op ≠ .fence)) then s
    else
      match engineStep ⟨c.fen, some k, c.ctx, some (.cmd k id), through, false⟩ (fun ag x s => cmdElem ag c x s) how x s with
      | .wait s => s
      | .stop f s => s.stopCmd k x f
      | .go x s => s.onCore k fun c => c.putCmd x

/-- A held read of an engine keeps this step waiting: only writes that have yet to take their place go on. -/
def State.readHolds (s : State) (src : EngSrc) (how : EngineStep) : Bool :=
  match how with
  | .next => s.heldAny (·.readOf src)
  | .post => s.heldAny (·.readOf src)
  | .ahead _ => s.heldAny (·.readOf src)
  | .jump _ => s.heldAny (·.readOf src)
  | .write _ => false

/-- A step of an engine command, unless a read of it is held or a freeze holds the sequencers (R46). -/
def State.elementTurn (s : State) (k : CoreKey) (id : Nat) (how : EngineStep) : State :=
  if s.enginesHeld (s.getCore k) || s.readHolds (.cmd k id) how then s else s.elementRun k id none how

end Sys2Proof.Machine
end

