-- ==== Sys2Proof/Machine/Units.lean ====
section
/-! DEFINITION. What the matrix unit does after issue (R273 to R287, R291), the completion of engine commands (R64, R297) and
of barriers (R151). -/

namespace Sys2Proof.Machine

/-! ### The matrix unit (R276, R281 to R284) -/

/-- The matrix unit of the core moves: it is not held by a freeze, a stop, handler mode or a save (R293). -/
def State.unitMoves (s : State) (c : Core) : Bool := s.issues c && c.held.isNone && !c.frozen

/-- A scale byte that the scale cache serves: it was read under the same SBASE, and its read lease has not expired at G0's clock
(R282, R141). -/
def Core.scaleHit (c : Core) (base : Word) (b : Nat × Nat) (clock : Nat) : Option CachedScale :=
  c.mx.scache.find? fun x =>
    decide (x.base = base.setWidth 57) && decide (x.tid.toNat = b.1) && decide (x.block.toNat = b.2) && decide (clock ≤ x.lease)

/-- The scale cache keeps a byte; it holds 64 (R61). -/
def Core.scaleKeep (c : Core) (x : CachedScale) : Core :=
  { c with mx := { c.mx with
      scache := (x :: c.mx.scache.filter fun y =>
        !(decide (y.base = x.base) && decide (y.tid = x.tid) && decide (y.block = x.block))).take 64 } }

/-- One scale byte, as a load on G0 in the MMA's bundle reads it: from the scale cache, where the address still answers (R153), or
from its home. -/
def State.readScale (s : State) (key : CoreKey) (bundle : Nat) (base : Word) (b : Nat × Nat) : Tried (Byte × State) :=
  let s := s.settle key
  let c := s.getCore key
  let clock := c.clockOf 0 bundle
  let va := base + BitVec.ofNat 64 (b.1 * 2 ^ 24 + b.2)
  match s.translate c.fen (some key) c.ctx.toNat va false with
  | .error f => .error f
  | .ok x =>
    match x.st.readPhys va x.pa 1 with
    | .error f => .error (f, x.st.asked f x.pa)
    | .ok (bs, tag) =>
      match (c.scaleHit base b clock).filter fun _ => Config.freeBit x.st.tick with
      | some h => .ok (h.v, (x.st.onCore key fun c => c.raiseClock 0 (max clock h.wts)).fresh)
      | none =>
        let s := x.st.request x.pa
        match keptPlain [tag] (va &&& 0x01FFFFFFFFFFFF80) with
        | some f => .error (f, s)
        | none =>
          let t := s.readTimed x.pa clock
          let y : CachedScale := ⟨BitVec.ofNat 8 b.1, BitVec.ofNat 24 b.2, base.setWidth 57, bs.headD 0, (s.stamp x.pa).1, t.2.1⟩
          .ok (bs.headD 0, t.2.2.onCore key fun c => (c.raiseClock 0 t.1).scaleKeep y)

/-- Scale bytes read in order, each an access of its own. -/
def State.readScales (s : State) (key : CoreKey) (bundle : Nat) (base : Word) :
    List (Nat × Nat) → Tried (ScaleBytes × State)
  | [] => .ok ([], s)
  | b :: r =>
    match s.readScale key bundle base b with
    | .error f => .error f
    | .ok (v, s) =>
      match State.readScales s key bundle base r with
      | .error f => .error f
      | .ok (l, s) => .ok (((BitVec.ofNat 8 b.1, BitVec.ofNat 24 b.2), v) :: l, s)

/-- The exponent of element k of row i under the scales read; 0 when the operand is unscaled. -/
def scaleAt (blocks : List (List (Nat × Nat))) (got : ScaleBytes) (i k : Nat) : Option Int :=
  match blocks[i]? with
  | none => some 0
  | some r =>
    let b := r.getD (k / 32) (0, 0)
    match got.find? fun g => decide (g.1 = (BitVec.ofNat 8 b.1, BitVec.ofNat 24 b.2)) with
    | none => some 0
    | some g => e8m0 g.2.toNat

/-- The rows of B as numbers: captured from a bank group, or the latch's image. -/
def Mma.rowsOfB (m : Mma) : List Nat :=
  let t := bShape m.tyB
  match m.rowsB with
  | some got => tileOf got (shAt m.shape 81 64) (shAt m.shape 113 96) t
  | none => imageRows m.tileB t.rows t.width

/-- The scale byte of a kept CODE8 code f (R283). -/
def Mma.code8Scale (m : Mma) (f : Nat) : Nat :=
  let off := shAt m.shape 465 448 / 128 * 128 + (shAt m.shape 472 466 + f / 128) % 128
  m.rowsB.elim 0 fun got => tileRow got off 1

/-- Rows of A and columns of B of the step. -/
def Mma.operands (m : Mma) (gotA gotB : ScaleBytes) : List (List MEl) × List (List MEl) :=
  let ta := m.tyA
  let tb := m.tyB
  let depth := mDepth ta
  let a := (m.rowsA.getD []) |> fun got => tileOf got (shAt m.shape 17 0) (shAt m.shape 49 32) (aShape ta)
  let rows := a.zipIdx.map fun r =>
    (rowCodes (mBits ta) depth r.1).zipIdx.map fun x => mEl ta m.cbkA m.ftz x.1 (scaleAt m.blocksA gotA r.2 x.2)
  let bRows := m.rowsOfB.zipIdx.map fun r =>
    (rowCodes (mBits tb) 32 r.1).zipIdx.map fun x =>
      mEl tb m.cbkB m.ftz x.1 (if m.served = 4 then e8m0 (m.code8Scale (32 * r.2 + x.2)) else scaleAt m.blocksB gotB x.2 r.2)
  (rows, columns 32 bRows)

/-- The operands are captured, and no step of another group, issued before it, is left on its accumulator (R275). -/
def Core.mmaReady (c : Core) (m : Mma) : Bool :=
  m.rowsA.isSome && (!m.bank || m.rowsB.isSome) && m.stop.isNone
    && (c.mx.mmas.takeWhile fun x => decide (x.id ≠ m.id)).all fun x => decide (x.acc ≠ m.acc) || decide (x.chain = m.chain)

/-- The scale reads follow the accesses of G0 that were issued before the step, the scale reads of earlier steps among them, and the
fences before it there (R139, R282, R145). -/
def State.scalesMay (s : State) (c : Core) (m : Mma) : Bool :=
  !(c.pipes.acc.any fun a => decide (a.queue = 0) && decide (a.bundle < m.bundle) && !a.complete) && !c.scalesOpen m.bundle
    && (c.fencesBefore 0 m.bundle).all fun x => s.fenceDone c x

/-- The step lands: the accumulator, the counts of MXC and FLG.FZ (R284). -/
def Core.landMma (c : Core) (m : Mma) (gotA gotB : ScaleBytes) : Core :=
  let o := m.operands gotA gotB
  let r := matStep m.classical m.ftz m.tyA m.tyB o.1 o.2 (accList (vget c.mx.acc m.acc.toNat))
  let x := c.mx
  { c with
    mx := { x with
      acc := vset x.acc m.acc.toNat (accOf r.acc)
      mmas := x.mmas.filter fun y => decide (y.id ≠ m.id) }
    regs := { c.regs with
      mxc := mxcAdd (mxcAdd (mxcAdd c.regs.mxc 1 r.infa) 2 r.nana) 3 r.nfin
      flg := c.regs.flg ||| flIf r.fz flFZ } }

/-- The record of the matrix unit (R338): agent 3, the M slot. -/
def Core.unitRecord (c : Core) (f : FaultInfo) : FaultRec :=
  { c.record 3 f.code f.cause f.repl 3 f.i0 f.i1 with ext := BitVec.ofNat 160 f.ext }

/-- A step stops at a scale read that faulted. -/
def State.stopMma (s : State) (key : CoreKey) (m : Mma) (f : FaultInfo) : State :=
  let r := (s.getCore key).unitRecord f
  let s := s.met f
  (s.onCore key fun c => { c with mx := { c.mx with
    mmas := c.mx.mmas.map fun x => if x.id = m.id then { x with stop := some s.seq } else x } }).postStop (.mma key m.id) r

/-- A queued MMA changed. -/
def Core.onMma (c : Core) (id : Nat) (f : Mma → Mma) : Core :=
  { c with mx := { c.mx with mmas := mapIf (fun m => decide (m.id = id)) f c.mx.mmas } }

/-- The scale bytes of a queued MMA are read (R282). A read that faults stops the step, which is retried whole; while a record stops the
unit it reads nothing, so that it has one at most (R339). The freeze line
does not hold a read of memory. -/
def State.scalesTurn (s : State) (key : CoreKey) (id : Nat) : State :=
  let c := s.getCore key
  match c.mx.mmas.find? fun m => decide (m.id = id) with
  | none => s
  | some m =>
    if !m.unread || c.unitStopped || !s.issues c || !s.scalesMay c m then s
    else
      let base : Word := BitVec.ofNat 64 (shAt m.shape 440 384)
      match s.readScales key m.bundle base m.blocksA.flatten with
      | .error f => f.2.stopMma key m f.1
      | .ok (ga, s1) =>
        match s1.readScales key m.bundle base m.blocksB.flatten with
        | .error f => f.2.stopMma key m f.1
        | .ok (gb, s2) => s2.onCore key fun c => c.onMma id fun m => { m with scales := some (ga, gb) }

/-- The step has what its array work needs: its operands, its turn on the accumulator, its scales. -/
def Core.arrayMay (c : Core) (m : Mma) : Bool := c.mmaReady m && !m.unread

/-- An MMA's array work ends: its latch and its codebooks may be loaded again (R274, R276). -/
def State.arrayTurn (s : State) (key : CoreKey) (id : Nat) : State :=
  s.onCore key fun c =>
    match c.mx.mmas.find? fun m => decide (m.id = id) with
    | none => c
    | some m => if s.unitMoves c && c.arrayMay m then c.onMma id fun m => { m with arrayDone := true } else c

/-- MMA_STEP_LAND (R276, R284). The result of a step whose operands and scales are there. -/
def execMmaStepLand (key : CoreKey) (id : Nat) (s : State) : Out :=
  .next (s.onCore key fun c =>
    match c.mx.mmas.find? fun m => decide (m.id = id) with
    | none => c
    | some m =>
      let g := m.scales.getD ([], [])
      if s.unitMoves c && c.arrayMay m then c.landMma m g.1 g.2 else c)

/-! ### The reed path (R111, R152, R287) -/

/-- What a reed read of a sector returns: of the core's own die's HBM any value R152 allows, otherwise the current one. -/
def State.reedRead (s : State) (die : Nat) (pa n : Nat) : List Byte × Byte :=
  let now := (s.peek pa n, s.tags.read (pa / 128))
  let old : List (BitVec 48 × BitVec 1024 × Byte) := match s.tier pa with
    | .hbm d => if d = die then (vget s.dies d).reed.filter fun x => decide (x.1.toNat = pa / 128) else []
    | .mire _ => []
    | .lease _ => []
    | .absent => []
  match old[Config.reedPick s.tick % (old.length + 1)]? with
  | none => now
  | some x => (natToBytes n (x.2.1.toNat >>> (8 * (pa % 128))), x.2.2)

/-- A reed read passes the heat sampler of its line's home slice (R111, R121): on the core's own die it is always eligible; one
that the home slice serves is a request like any other. -/
def State.reedSampled (s : State) (die pa : Nat) : State :=
  match s.tier pa with
  | .hbm d => s.requestAs (decide (d = die)) pa
  | .mire _ => s.request pa
  | .lease _ => s
  | .absent => s

/-- One row of a reed read: it passes the sampler, whatever it meets in the sector (R121). -/
def State.reedRow (s : State) (c : Core) (r : Reed) : Tried (List Byte × State) :=
  let n := (bShape r.btype.toNat).width
  let va := r.base + r.stride.signExtend 64 * BitVec.ofNat 64 r.row
  match s.translate c.fen (some c.key) c.ctx.toNat va false with
  | .error f => .error f
  | .ok x =>
    let u := x.st.reedSampled (c.fen / 5) x.pa
    match x.st.readPhys va x.pa n with
    | .error f => .error (f, u)
    | .ok _ =>
      let b := x.st.reedRead (c.fen / 5) x.pa n
      match keptPlain [b.2] (va &&& 0x01FFFFFFFFFFFF80) with
      | some f => .error (f, u.fresh)
      | none => .ok (b.1, u.fresh)

/-- A latch's image from the packed bytes of its rows. -/
def latchImage (bs : List Byte) : TileBits := BitVec.ofNat 32768 (bytesToNat bs)

/-- LATCHREED_ROW_LAND (R287). The next row lands once the token is DONE, where no record stops the unit (R339); the last writes the latch and ends its busy state. -/
def execLatchreedRowLand (key : CoreKey) (lt : BitVec 2) (s : State) : Out :=
  let c := s.getCore key
  .next (match c.mx.reeds.find? fun r => decide (r.lt = lt) with
    | none => s
    | some r =>
      let waiting := r.waits.any fun i => (c.cmd i).isSome
      if !s.unitMoves c || waiting || c.unitStopped then s
      else
        match s.reedRow c r with
        | .error e =>
          let f := e.1
          let s := e.2.met f
          (s.onCore key fun c => { c with mx := { c.mx with
            reeds := c.mx.reeds.map fun x => if x.lt = lt then { x with stop := some s.seq } else x } }).postStop (.reed key lt)
            (c.unitRecord (f.atIndex (r.row % 256)))
        | .ok (bs, s) =>
          let got := r.got ++ bs
          if r.row + 1 < (bShape r.btype.toNat).rows then
            s.onCore key fun c => { c with mx := { c.mx with
              reeds := c.mx.reeds.map fun x => if x.lt = lt then { x with row := r.row + 1, got := got } else x } }
          else
            s.onCore key fun c => { c with
              errs := errsWithout (3, 4 + lt.toNat) c.errs
              mx := { c.mx with
                lt := vset c.mx.lt lt.toNat (latchImage got)
                reeds := c.mx.reeds.filter fun x => decide (x.lt ≠ lt) } })

/-- CODEBOOK_TABLE_READY (R291). The product tables are derived at the end of cycle c + 17, and the codebook's busy state
ends. -/
def execCodebookTableReady (key : CoreKey) (cb : BitVec 2) (s : State) : Out :=
  .next (s.onCore key fun c =>
    if s.unitMoves c && decide (vget c.mx.cbkBusy cb.toNat = some 0) then
      { c with mx := { c.mx with cbkBusy := vset c.mx.cbkBusy cb.toNat none } } else c)

/-! ### Completion (R64, R151, R297) -/

/-- A command leaves its sequencer; its token becomes DONE with the last command that produces it (R64). -/
def Core.completeCmd (c : Core) (id : Nat) : Core :=
  match c.cmd id with
  | none => c
  | some x =>
    let rest := c.pipes.cmds.filter fun y => decide (y.id ≠ id)
    let c := { c with pipes := { c.pipes with cmds := rest } }
    if rest.any fun y => decide (y.tok = x.tok) then c else c.setTok x.tok.toNat false

/-- Every write of an engine is performed: none is held at a master (R297). -/
def State.writesDone (s : State) (src : EngSrc) : Bool := !s.heldAny (·.writeOf src)

/-- A command of a core has ended: what its sequencers do from now on follows it where a command waited for it (R149), and commands that
it held back may become ready to place an entry. -/
def State.commandEnded (s : State) (k : CoreKey) (id : Nat) : State :=
  let c := s.getCore k
  let s := if c.pipes.cmds.any fun x => x.waits.any fun i => decide (i = id) then s.onCore k fun d => { d with
      pipes := { d.pipes with engClocks := d.pipes.engClocks.map (max · s.latest) } } else s
  s.notePosts k

/-- ENGINE_COMMAND_COMPLETE (R297). The command's completion event has happened; a freeze holds the sequencer (R46). -/
def execEngineCommandComplete (key : CoreKey) (id : Nat) (s : State) : Out :=
  let c := s.getCore key
  .next (match c.cmd id with
    | none => s
    | some x =>
      if x.finished && x.posted.isEmpty && !s.enginesHeld c && s.writesDone (.cmd key id) then
        (s.onCore key fun c => c.completeCmd id).commandEnded key id
      else s)

/-- The scope of a phase: the narrowest that its arrivals name (R234). -/
def Barrier.scope (b : Barrier) : Nat := b.arrived.foldl (fun m a => min m a.scope.toNat) 5

/-- The accesses of a member that stand before its arrival in the queue it names, within the phase's scope, are performed, the scale
reads of its MMAs on G0 among them (R151, R282). -/
def State.arrivalDone (s : State) (scope : Nat) (a : Arrival) : Bool :=
  let c := s.getCore a.core
  !(c.pipes.acc.any fun x => decide (x.queue = a.queue) && decide (x.bundle < a.bundle) && s.openWithin c scope x)
    && !(decide (a.queue = 0) && decide (2 ≤ scope) && c.scalesOpen a.bundle)

/-- A phase is over: every member has arrived, and what precedes the arrivals is performed; a member that has finished left
nothing behind (R40). -/
def State.phaseOver (s : State) (t : Task) (b : Barrier) : Bool :=
  (t.members.all fun k => b.arrived.any fun a => decide (a.core = k)) && b.arrived.all fun a => !t.runsOn a.core || s.arrivalDone b.scope a

/-- BARRIER_COMPLETE (R151, R233). The barrier of the core's task goes to its next phase. -/
def execBarrierComplete (key : CoreKey) (bar : BitVec 5) (s : State) : Out :=
  .next (match s.taskOf key with
    | none => s
    | some t =>
      let b := vget t.bars bar.toNat
      if s.phaseOver t b then
        s.onTask key fun t => { t with bars := vset t.bars bar.toNat { b with phase := b.phase + 1, arrived := [] } }
      else s)

end Sys2Proof.Machine
end

