-- ==== Sys2Proof/Machine/Walker.lean ====
section
/-! DEFINITION. The task-graph walkers (R32 to R43, R155 to R163, R342, R343): taking a launch, instantiating groups,
dispatch, aging, and the finishing of tasks, nodes and launches. -/

namespace Sys2Proof.Machine

/-! ### Cores that requests come from, wherever their state stands (R349, R351) -/

/-- The core of a context's task or conductor changed by a function: in the saved image, in a conductor's image, or live.
Nothing where the context holds no such core. -/
def State.onPoster (s : State) (k : CoreKey) (ctx : BitVec 6) (f : Core → Core) : State :=
  let n := ctx.toNat
  let fen := fenOfKey k
  let same (x : Core) : Bool := if isNewtKey k then x.newt && decide (x.fen = fen) else decide (x.key = k)
  let busy (j : CoreKey) : Bool := decide ((s.getCore j).status ≠ .idle) && decide ((s.getCore j).ctx = ctx)
  if (vget s.ctxs n).saved.any fun x => same x.core then
    s.onCtx n fun x => { x with saved := mapIf (fun y => same y.core) (fun y => { y with core := f y.core }) x.saved }
  else if isNewtKey k && (vget s.fens fen).conductors.any fun d => decide (d.ctx = ctx) && d.image.isSome then
    s.onFen fen fun x => { x with
      conductors := mapIf (fun d => decide (d.ctx = ctx)) (fun d => { d with
        image := d.image.map fun y => { y with core := f y.core } }) x.conductors }
  else if busy k then s.onCore k f
  else if isNewtKey k then
    match [newtKey fen 132, newtKey fen 133].find? busy with
    | some j => s.onCore j f
    | none => s
  else s

/-- The state of that core, if it stands anywhere. -/
def State.poster (s : State) (k : CoreKey) (ctx : BitVec 6) : Option Core :=
  let fen := fenOfKey k
  let same (x : Core) : Bool := if isNewtKey k then x.newt && decide (x.fen = fen) else decide (x.key = k)
  let live := ([k] ++ if isNewtKey k then [newtKey fen 132, newtKey fen 133] else []).find? fun j =>
    decide ((s.getCore j).status ≠ .idle) && decide ((s.getCore j).ctx = ctx)
  match (vget s.ctxs ctx.toNat).saved.find? fun x => same x.core with
  | some x => some x.core
  | none =>
    match (vget s.fens fen).conductors.find? fun d => isNewtKey k && decide (d.ctx = ctx) && d.image.isSome with
    | some d => d.image.map (·.core)
    | none => live.map s.getCore

/-- An arrival counter raised (R65). -/
def Core.countUp (c : Core) (i n : Nat) : Core :=
  { c with regs := { c.regs with ac := vset c.regs.ac i (vget c.regs.ac i + BitVec.ofNat 32 n) } }

/-! ### Records of a walker (R342, R372) -/

/-- A record of a fen's walker: agent 7, site 0, no core. -/
def walkerRec (fen ctx : Nat) (f : FaultInfo) : FaultRec :=
  { eventRec f.code f.cause ctx 0 f.i0 f.i1 with
    repl := f.repl, agent := 7, fen := BitVec.ofNat 5 fen, ext := BitVec.ofNat 160 f.ext }

/-! ### Launch records and graphs (R32, R33, R155 to R157) -/

/-- Little-endian bytes as a bit vector. -/
def bitsOf (w : Nat) (bs : List Byte) : BitVec w := BitVec.ofNat w (bytesToNat bs)

/-- A "must be zero" field of a launch record is not zero (R32). -/
def lrecReserved (r : BitVec 256) : Bool :=
  decide (bits r 255 228 ≠ 0) || decide (bits r 202 201 ≠ 0) || decide (bits r 199 192 ≠ 0) || decide (bits r 63 57 ≠ 0)
    || (if bit r 200 then decide (bits r 191 185 ≠ 0) else decide (bits r 191 160 ≠ 0))

/-- GRAPH, the count word's address or the record's own address is misaligned. -/
def lrecMisaligned (at_ : Word) (r : BitVec 256) : Bool :=
  decide (bits r 56 0 % 64 ≠ 0) || (bit r 200 && decide (bits r 184 128 % 4 ≠ 0)) || decide (at_.toNat % 32 ≠ 0)

/-- A graph header breaks R155. -/
def headerBad (h : BitVec 512) : Bool :=
  decide (bits h 511 121 ≠ 0) || decide (bits h 63 13 ≠ 0) || decide (bits h 120 64 % 64 ≠ 0) || decide (bits h 12 0 = 0)
    || decide (4096 < bits h 12 0)

/-- A node field breaks R156, its FEN and CMASK apart. -/
def nodeBad (n : BitVec 512) : Bool :=
  decide (bits n 326 320 ≠ 0) || decide (bits n 262 256 ≠ 0) || decide (bits n 215 0 ≠ 0)
    || decide (bits n 383 327 % (if bit n 216 then 128 else 8) ≠ 0)
    || (decide (bits n 255 240 ≠ 0) && decide (bits n 319 263 % 2 ≠ 0))

/-- FEN is 30 or 31, or CMASK breaks its KIND's rule. -/
def nodePlaceBad (n : BitVec 512) : Bool :=
  decide (30 ≤ bits n 223 219) || (if bit n 216 then decide (bits n 511 384 ≠ 0) else decide (bits n 511 384 = 0))

/-- A fen of a lost die, or left with no newt at boot, takes no node (R386, R400). -/
def State.fenClosed (s : State) (f : Nat) : Bool := s.dieLost (f / 5) || (vget s.fens f).offline

/-- A node as the walker holds it. -/
def nodeOf (n : BitVec 512) (succ : List Nat) : GNode :=
  ⟨n.extractLsb' 384 128, n.extractLsb' 327 57, succ, bits n 239 224, ⟨bits n 223 219 % 30, Nat.mod_lt _ (by decide)⟩,
    bits n 218 217, bit n 216⟩

/-- The successor list of a node: where it stands, and its bytes. -/
def succRange (n : BitVec 512) : Word × Nat :=
  if bits n 255 240 = 0 then (0, 0) else (BitVec.ofNat 64 (bits n 319 263), 2 * bits n 255 240)

/-- Reads made one after another, each once: what those made so far returned says which comes next. A read that faults leaves
what has been read, and a later call goes on with that read. The reads of one call are made in one step, with no other agent's store
between them (DESIGN CHOICE, log entry 116), and follow every event before it (R141; log entry 37). -/
def State.readOn (s : State) (fen ctx : Nat) (next : List (List Byte) → Option (Word × Nat)) :
    Nat → List (List Byte) → List (List Byte) × Option FaultInfo × State
  | 0, got => (got, none, s)
  | n + 1, got =>
    match next got with
    | none => (got, none, s)
    | some r =>
      match (s.fenSync fen).readPlain fen none ctx r.1 r.2 with
      | .error e => (got, some e.1, e.2.met e.1)
      | .ok (bs, s) => State.readOn s fen ctx next n (got ++ [bs])

/-- The next read of a graph below its header: nodes, and, if none breaks R156, their successor lists. -/
def graphNext (graph nnode : Nat) (below : List (List Byte)) : Option (Word × Nat) :=
  let i := below.length
  if i < nnode then some (BitVec.ofNat 64 (graph + 64 + 64 * i), 64)
  else
    let ns := (below.take nnode).map (bitsOf 512)
    if ns.any nodeBad || ns.any nodePlaceBad then none else (ns[i - nnode]?).map succRange

/-- What a graph below an accepted header comes to: the cause and the node of a refusal, or the nodes. -/
def graphOf (nnode : Nat) (closed : Nat → Bool) (below : List (List Byte)) : Except (Nat × Nat) (List GNode) :=
  let ns := (below.take nnode).map (bitsOf 512)
  match ns.findIdx? nodeBad with
  | some i => .error (4, i)
  | none =>
    match ns.findIdx? nodePlaceBad with
    | some i => .error (5, i)
    | none =>
      let nodes := (ns.zip ((below.drop nnode).map fun l => wordsOf 2 (l.length / 2) l)).map fun x => nodeOf x.1 x.2
      match nodes.findIdx? fun n => n.succ.any fun j => decide (nnode ≤ j) with
      | some i => .error (6, i)
      | none =>
        if nodes.all fun n => decide (n.pred ≠ 0) then .error (7, 0)
        else if nodes.any fun n => closed n.fen.val then .error (8, 0)
        else .ok nodes

/-- What has been read of a launch: the record, the count word (of a direct count, its bytes), the header, and what follows. -/
structure LaunchRead where
  rec_ : BitVec 256
  cnt : Option (List Byte)
  hdr : Option (BitVec 512)
  below : List (List Byte)
  deriving DecidableEq, Repr, Inhabited

/-- The reads of a launch by what they are. -/
def launchRead (got : List (List Byte)) : LaunchRead :=
  let r := bitsOf 256 (got.headD [])
  let rest := if bit r 200 then got.tail else natToBytes 4 (bits r 159 128) :: got.tail
  ⟨r, rest.head?, (rest[1]?).map (bitsOf 512), rest.drop 2⟩

/-- The next read of a launch (R32, R33, R157). -/
def launchNext (addr : Word) (got : List (List Byte)) : Option (Word × Nat) :=
  if got.isEmpty then some (addr, 32)
  else
    let x := launchRead got
    let graph := bits x.rec_ 56 0
    if lrecReserved x.rec_ || lrecMisaligned addr x.rec_ then none
    else if x.cnt.isNone then some (BitVec.ofNat 64 (bits x.rec_ 184 128), 4)
    else
      match x.hdr with
      | none => some (BitVec.ofNat 64 graph, 64)
      | some h => if headerBad h then none else graphNext graph (bits h 12 0) x.below

/-- A launch whose reads are made: the cause and the node of its refusal (R342), or its record, CAREA and nodes. -/
def launchOf (addr : Word) (closed : Nat → Bool) (got : List (List Byte)) :
    Except (Nat × Nat) (LaunchRead × Word × List GNode) :=
  let x := launchRead got
  let h := x.hdr.getD 0
  if lrecReserved x.rec_ then .error (1, 0)
  else if lrecMisaligned addr x.rec_ then .error (2, 0)
  else if headerBad h then .error (3, 0)
  else
    match graphOf (bits h 12 0) closed x.below with
    | .error e => .error e
    | .ok nodes => .ok (x, BitVec.ofNat 64 (bits h 120 64), nodes)

/-- More reads than any launch has. -/
def launchReads : Nat := 3 + 2 * 4096 + 1

/-- A launch taken: `id` is its number. -/
def LaunchReq.launch (q : LaunchReq) (id : Nat) (x : LaunchRead) (carea : Word) (nodes : List GNode) : Launch :=
  let g := bytesToNat (x.cnt.getD [])
  ⟨id, q.ctx, q.newt, q.addr, carea, BitVec.ofNat 64 (bits x.rec_ 127 64), BitVec.ofNat 5 (bits x.rec_ 207 203),
    min g (bits x.rec_ 227 208), 0, nodes, Vector.replicate 16 none⟩

/-- DCNT of the conductor's newt is raised (R43). -/
def State.launchDone (s : State) (l : Launch) : State := s.onPoster l.newt l.ctx fun c => c.countUp l.dcnt.toNat 1

/-- LNCHST after a launch (R33). -/
def lnchstAdd (x : Word) (discarded : Nat) (zero : Bool) : Word :=
  let d := satTo 0xFFFFFFFF (bits x 63 32 + discarded)
  let z := satTo 0xFFFF (bits x 31 16 + b2n zero)
  BitVec.ofNat 64 (d * 2 ^ 32 + z * 2 ^ 16 + b2n (bit x 0 || decide (discarded ≠ 0)))

/-- The stores that the LAUNCH's bundle follows in G0 are performed, and the fences that stand before it there are complete
(R34, R145). -/
def State.launchOrdered (s : State) (q : LaunchReq) : Bool :=
  (s.poster q.newt q.ctx).elim true fun c =>
    !(c.pipes.acc.any fun a => a.store && decide (a.queue = 0) && decide (a.bundle < q.bundle) && !a.complete)
      && (c.fencesBefore 0 q.bundle).all fun x => s.fenceDone c x

/-- The context is running and resident. -/
def Ctx.live (x : Ctx) : Bool := decide (x.state = 2) && decide (x.pst = 0)

/-- A launch is taken: it completes at once with no group, or it is outstanding (R33). -/
def State.startLaunch (s : State) (l : Launch) (requested : Nat) : State :=
  let n := l.ctx.toNat
  let s := { s.onCtx n fun x => { x with lnchst := lnchstAdd x.lnchst (requested - l.groups) (decide (l.groups = 0)) } with
    nextLaunch := s.nextLaunch + 1 }
  if l.groups = 0 then (s.launchDone l).postCend n else { s with launches := s.launches ++ [l] }

/-- LAUNCH_TAKE (R33, R34, R157, R342). The walker takes the context's oldest launch: it waits at a read that faults, and goes on
with that read when resumed; it is refused with FLT_LNCH; or it is taken. Its reads of the record, the count word, the header, the
nodes and the lists are made in this one step: no store of another agent falls between them (DESIGN CHOICE, log entry 116). -/
def execLaunchTake (n : BitVec 6) (s : State) : Out :=
  let x := vget s.ctxs n.toNat
  let fen := x.home.toNat
  .next (match x.pending with
    | [] => s
    | q :: rest =>
      if !x.live || s.dieLost 0 || q.stop.isSome || !s.launchOrdered q then s
      else
        let r := s.readOn fen n.toNat (launchNext q.addr) launchReads q.got
        let s := r.2.2
        match r.2.1 with
        | some f =>
          (s.onCtx n.toNat fun x => { x with pending := { q with got := r.1, stop := some s.seq } :: rest }).postStop
            (.launch n) (walkerRec fen n.toNat f)
        | none =>
          let s := s.onCtx n.toNat fun x => { x with pending := rest }
          match launchOf q.addr s.fenClosed r.1 with
          | .error e =>
            (s.post (walkerRec fen n.toNat ⟨0x10, e.1, true, q.addr, BitVec.ofNat 64 e.2, 0⟩)).postCend n.toNat
          | .ok (y, carea, nodes) => s.startLaunch (q.launch s.nextLaunch y carea nodes) (bytesToNat (y.cnt.getD [])))

/-! ### Groups and readiness (R41, R42, R158, R159) -/

/-- The launch of an id. -/
def State.launch (s : State) (id : Nat) : Option Launch := s.launches.find? fun l => decide (l.id = id)

/-- A launch changed. -/
def State.onLaunch (s : State) (id : Nat) (f : Launch → Launch) : State :=
  { s with launches := mapIf (fun l => decide (l.id = id)) f s.launches }

/-- A node becomes ready at the walker of the fen it is placed on. Those that one event makes ready become so together. -/
def State.makeReady (s : State) (l : Launch) (gs node : Nat) : State :=
  let g := ((l.slots[gs]?).join).elim 0 (·.group)
  match l.nodes[node]? with
  | none => s
  | some n =>
    s.onFen n.fen.val fun f => { f with
      ready := f.ready ++ [⟨l.id, gs, g, node, l.ctx, n.prio, 0, f.order, false, false⟩] }

/-- What becomes ready from now on does so later than what is ready. -/
def State.nextOrder (s : State) : State := { s with fens := s.fens.map fun f => { f with order := f.order + 1 } }

/-- GROUP_INSTANTIATE (R158). The next group takes a free group slot: the lowest one (DESIGN CHOICE, log entry 94: R158 does not
say which). -/
def execGroupInstantiate (launch : Nat) (s : State) : Out :=
  .next (match s.launch launch with
    | none => s
    | some l =>
      match l.slots.toList.findIdx? (·.isNone) with
      | none => s
      | some k =>
        if l.groups ≤ l.nextGroup ∨ !(vget s.ctxs l.ctx.toNat).live then s
        else
          let g : GSlot := ⟨l.nextGroup, l.nodes.map (·.pred), l.nodes.map fun _ => false⟩
          let l' := { l with nextGroup := l.nextGroup + 1, slots := vset l.slots k (some g) }
          let s := s.onLaunch launch fun _ => l'
          ((List.range l.nodes.length).foldl
            (fun s i => if (l.nodes[i]?).elim false (fun n => decide (n.pred = 0)) then s.makeReady l' k i else s) s).nextOrder)

/-! ### Dispatch (R20, R38, R39, R161 to R163) -/

/-- The site that a logical core runs on at the next dispatch (R20). -/
def Fen.siteFor (f : Fen) (c : Nat) : Option Nat :=
  let now := ((f.remap.find? fun x => decide (x.1 = c)).map (·.2)).getD c
  if !setHas now f.failed then some now
  else [128, 129, 130, 131].find? fun x => !setHas x f.failed && !f.remap.any fun y => decide (y.2 = x)

/-- The logical cores of a mask, rising. -/
def maskCores (m : BitVec 128) : List Nat := (List.range 128).filter fun c => bit m c

/-- A logical core of the fen has no live site. -/
def State.noSite (s : State) (fen c : Nat) : Bool := s.dieLost (fen / 5) || ((vget s.fens fen).siteFor c).isNone

/-- A logical core takes the site that it runs on from now on. -/
def Fen.take (f : Fen) (c : Nat) : Fen :=
  match f.siteFor c with
  | some x => { f with remap := if x = c then f.remap else (c, x) :: f.remap.filter fun y => decide (y.1 ≠ c) }
  | none => f

/-- The fen once the cores of a set, in rising order, have taken their sites, and those for which no site was left (R20). -/
def Fen.place (f : Fen) (cs : List Nat) : Fen × List Nat :=
  cs.foldl (fun st c => if (st.1.siteFor c).isNone then (st.1, st.2 ++ [c]) else (st.1.take c, st.2)) (f, [])

/-- The cores of a set that have no site, each spare counted once. -/
def State.missing (s : State) (n : GNode) : List Nat :=
  let cs := maskCores n.cmask
  if s.dieLost (n.fen.val / 5) then cs else ((vget s.fens n.fen.val).place cs).2

/-- A save of the context has not ended, or its restore has begun (R350, step 7; R357): the core of a saved slot is not free, unless its
image went to an emergency slot, from which point on it is idle (R355). -/
def Ctx.keeps (x : Ctx) (y : SavedSlot) : Bool := (decide (x.pst = 1) && !y.out) || decide (x.pst = 3)

/-- The core is idle, no restore waits for it (R357), and no save that has still to end has taken its state (R350, step 7). -/
def State.coreFree (s : State) (k : CoreKey) : Bool :=
  decide ((s.getCore k).status = .idle)
    && !(s.ctxs.toList.any fun x => x.saved.any fun y => x.keeps y && decide (y.core.key = k))

/-- Every core of the set is idle. -/
def State.setIdle (s : State) (n : GNode) : Bool := (maskCores n.cmask).all fun c => s.coreFree (128 * n.fen.val + c)

/-- The node behind a ready entry. -/
def State.nodeAt (s : State) (r : ReadyNode) : Option GNode := (s.launch r.launch).bind fun l => l.nodes[r.node]?

/-- Two entries are of one node. -/
def ReadyNode.same (a b : ReadyNode) : Bool :=
  decide (a.launch = b.launch) && decide (a.gslot = b.gslot) && decide (a.node = b.node)

/-- The entry is the reserving node. -/
def Fen.reserves (f : Fen) (r : ReadyNode) : Bool := decide (f.resv = some (r.launch, r.gslot, r.node))

/-- The core set that the fen's reservation covers. It stays while the node's context is saved or being saved (DESIGN CHOICE, log
entry 95). -/
def State.reserved (s : State) (f : Fen) : BitVec 128 :=
  (f.ready.find? f.reserves).elim 0 fun r => (s.nodeAt r).elim 0 (·.cmask)

/-- A ready entry is eligible (R161), the reservation counted (R162). -/
def State.eligible (s : State) (fen : Nat) (r : ReadyNode) : Bool :=
  let f := vget s.fens fen
  (vget s.ctxs r.ctx.toNat).live && !r.refused &&
    (s.nodeAt r).elim false fun n =>
      if n.copy then !s.dieLost (fen / 5) && (vget s.dies (fen / 5)).engines.toList.any (·.isNone)
      else
        (s.missing n).isEmpty && s.setIdle n && (f.reserves r || decide (n.cmask &&& s.reserved f = 0))

/-- The first context after l, in ascending order modulo 64, that has an entry in the list. -/
def nextContext (l : BitVec 6) (e : List ReadyNode) : Option (BitVec 6) :=
  ((List.range 64).map fun i => l + BitVec.ofNat 6 (i + 1)).find? fun c => e.any fun r => decide (r.ctx = c)

/-- An entry became ready before another; ties go to the lower group, then to the lower node (R161). -/
def ReadyNode.before (a b : ReadyNode) : Bool :=
  decide (a.order < b.order) || (decide (a.order = b.order) && (decide (a.group < b.group)
    || (decide (a.group = b.group) && decide (a.node < b.node))))

/-- The entry that became ready earliest. -/
def earliest (e : List ReadyNode) : Option ReadyNode :=
  e.foldl (fun b r => match b with
    | none => some r
    | some x => if r.before x then some r else some x) none

/-- The choice of R161: the priority, and the entry. -/
def State.choose (s : State) (fen : Nat) : Option (Nat × ReadyNode) :=
  let f := vget s.fens fen
  let e := f.ready.filter (s.eligible fen)
  [3, 2, 1, 0].findSome? fun p =>
    let ep := e.filter fun r => decide (r.eff = p)
    match nextContext (vget f.last p) ep with
    | none => none
    | some c => (earliest (ep.filter fun r => decide (r.ctx = c))).map fun r => (p, r)

/-- The registers at task entry (R39). -/
def Regs.entry (r : Regs) (kept : Bool) (g rank n : Nat) (arg : Word) : Regs :=
  let base := if kept then r else Regs.reset
  { base with
    s := vset (vset (vset (vset (vset (Vector.replicate 32 0) 1 (BitVec.ofNat 64 g)) 2 (BitVec.ofNat 64 rank)) 3
      (BitVec.ofNat 64 n)) 4 arg) 5 (BitVec.ofNat 64 (b2n kept))
    p := Vector.replicate 8 false
    ac := Vector.replicate 32 0
    tok := Vector.replicate 16 false }

/-- TASK ENTRY (R39). The core begins a task of the context at a code address, on a site. Its logical clocks do not go back (R141). -/
def Core.enterTask (c : Core) (ctx : BitVec 6) (site : Byte) (entry : Addr) (g rank n : Nat) (arg : Word) : Core :=
  let kept := decide (c.lastCtx = some ctx) && decide (c.lastSite = site)
  let z := Core.reset c.key
  { z with
    site := site
    ctx := ctx
    status := .running
    pc := entry
    retain := kept
    regs := c.regs.entry kept g rank n arg
    mx := if kept then { z.mx with acc := c.mx.acc, lt := c.mx.lt, fmt := c.mx.fmt, cbk := c.mx.cbk } else z.mx
    mxr := if kept then c.mxr else z.mxr
    kar := if kept then c.kar else z.kar
    kbr := if kept then c.kbr else z.kbr
    sp := if kept then c.sp else z.sp.bornAt c.sp.lastTime
    pipes := { z.pipes with
      nextId := c.pipes.nextId, clocks := c.pipes.clocks, engClocks := c.pipes.engClocks, synced := c.pipes.synced }
    lastCtx := some ctx
    lastSite := site
    lcoreReg := BitVec.ofNat 12 c.key
    tlb := c.tlb }

/-- A tile task starts on its whole set. What its cores do follows what its predecessors did (R41, R150). -/
def State.startTile (s : State) (fen : Nat) (l : Launch) (r : ReadyNode) (n : GNode) : State :=
  let set_ := maskCores n.cmask
  let f' := ((vget s.fens fen).place set_).1
  let s := s.onFen fen fun _ => f'
  let s := set_.zipIdx.foldl (fun s x =>
    s.onCore (128 * fen + x.1) fun c =>
      (c.enterTask l.ctx (BitVec.ofNat 8 ((f'.siteFor x.1).getD x.1)) n.entry r.group x.2 set_.length l.arg).syncAt s.latest) s
  let t : Task := ⟨l.ctx, n.fen, l.id, r.gslot, r.node, set_.map fun c => 128 * fen + c, [],
    Vector.replicate 32 ⟨0, [], []⟩⟩
  { s with tasks := s.tasks ++ [t] }

/-- A copy node starts on the lowest-numbered free engine of its die (R37), after what its predecessors did (R41, R150). -/
def State.startCopy (s : State) (fen : Nat) (l : Launch) (r : ReadyNode) (n : GNode) : State :=
  s.onDie (fen / 5) fun d =>
    match d.engines.toList.findIdx? (·.isNone) with
    | none => d
    | some e =>
      let x := { Cmd.fresh 0 .cp 0 0 (n.entry.setWidth 64) 0 0 [] 0 with started := true }
      { d with
        engines := vset d.engines e (some ⟨l.id, r.gslot, r.node, l.ctx, n.fen, x⟩)
        engClocks := vset d.engClocks e (max (vget d.engClocks e) s.latest) }

/-- A ready entry leaves the list; the others stay ready and count the opportunity (R162). -/
def Fen.dispatched (f : Fen) (r : ReadyNode) : Fen :=
  { f with
    ready := (f.ready.filter fun x => !x.same r).map fun x => { x with passed := x.passed + 1 }
    resv := if f.reserves r then none else f.resv }

/-- The dispatch of one entry. -/
def State.dispatchNode (s : State) (fen : Nat) (r : ReadyNode) : State :=
  match s.launch r.launch with
  | none => s
  | some l =>
    match l.nodes[r.node]? with
    | none => s
    | some n =>
      let s := s.onFen fen fun f => f.dispatched r
      if n.copy then s.startCopy fen l r n else s.startTile fen l r n

/-- A mask of logical cores. -/
def coresMask (l : List Nat) : Nat := (l.map fun c => 2 ^ c).sum

/-- The refusal of a tile task with no live site for a core of its set (R163, R343). One that holds its fen's reservation keeps it, and
its set stays closed to others: R162 does not say when a refused node gives it up (DESIGN CHOICE, log entry 95). -/
def State.refuseNode (s : State) (fen : Nat) (r : ReadyNode) (n : GNode) : State :=
  let m := coresMask (s.missing n)
  let s := s.onFen fen fun f => { f with ready := mapIf (·.same r) (fun x => { x with refused := true }) f.ready }
  s.post (walkerRec fen r.ctx.toNat ⟨0x11, 0, false, BitVec.ofNat 64 (r.node + r.group * 65536), BitVec.ofNat 64 m, m / 2 ^ 64⟩)

/-- The entry is a tile task to be refused. -/
def State.refusable (s : State) (r : ReadyNode) : Bool :=
  !r.refused && (vget s.ctxs r.ctx.toNat).live && (s.nodeAt r).elim false fun n => !n.copy && !(s.missing n).isEmpty

/-- An entry's count has reached 4,096 for the first time, or below priority 3: it restarts. -/
def ReadyNode.restarts (r : ReadyNode) : Bool := decide (r.eff < 3) || !r.aged

/-- An entry's aging is due (R162): its priority rises to at most 3 and its count restarts, or, at 3 and again at 4,096, it takes
the free reservation. An entry that was refused claims none (DESIGN CHOICE, log entry 95). -/
def State.agingDue (s : State) (f : Fen) (r : ReadyNode) : Bool :=
  decide (4096 ≤ r.passed)
    && (r.restarts || (f.resv.isNone && !r.refused && (s.nodeAt r).elim false fun n => !n.copy))

/-- The reserving node, once its set is idle. -/
def State.reservedGo (s : State) (fen : Nat) : Option ReadyNode :=
  let f := vget s.fens fen
  f.ready.find? fun r => f.reserves r && s.eligible fen r

/-- DISPATCH (R161 to R163; with die 0 lost nothing is dispatched, R28). One dispatch opportunity of a fen's walker: a refusal,
the reserving node, or the choice of R161. -/
def execDispatch (fen : FenNo) (s : State) : Out :=
  let f := vget s.fens fen.val
  .next (if s.dieLost 0 || f.ready.any (s.agingDue f) then s
    else
      match earliest (f.ready.filter s.refusable) with
      | some r => (s.nodeAt r).elim s (s.refuseNode fen.val r)
      | none =>
        match s.reservedGo fen.val with
        | some r => s.dispatchNode fen.val r
        | none =>
          match s.choose fen.val with
          | none => s
          | some (p, r) => (s.dispatchNode fen.val r).onFen fen.val fun f => { f with last := vset f.last p r.ctx })

/-- NODE_AGING (R162). The entry passed over 4,096 times rises by one, to at most 3, or, at 3 and again passed over so often, the
earliest-ready such tile task takes the fen's reservation. -/
def execNodeAging (fen : FenNo) (idx : Nat) (s : State) : Out :=
  let f := vget s.fens fen.val
  .next (match f.ready[idx]? with
    | none => s
    | some r =>
      if !s.agingDue f r then s
      else if r.restarts then
        s.onFen fen.val fun f => { f with
          ready := mapIf (·.same r) (fun x => { x with eff := min 3 (x.eff + 1), aged := true, passed := 0 }) f.ready }
      else
        match earliest (f.ready.filter fun x => !x.restarts && s.agingDue f x) with
        | none => s
        | some x => s.onFen fen.val fun f => { f with resv := some (x.launch, x.gslot, x.node) })

/-! ### Finishing (R40 to R43) -/

/-- What the core did before DONE has happened: results landed, commands completed, accesses performed. -/
def Core.quiet (c : Core) : Bool :=
  c.pipes.inflight.isEmpty && c.pipes.cmds.isEmpty && c.pipes.acc.isEmpty && c.pipes.wins.isEmpty && c.mx.mmas.isEmpty
    && c.mx.reeds.isEmpty && c.stop.isNone && c.dfFault.isNone

/-- A node has finished: its walker is told. -/
def State.nodeDone (s : State) (ctx : BitVec 6) (d : DoneNode) : State :=
  s.onFen (vget s.ctxs ctx.toNat).home.toNat fun f => { f with doneNodes := f.doneNodes ++ [d] }

/-- A member of a task has finished; with the last one the task is over. -/
def State.memberDone (s : State) (k : CoreKey) : State :=
  match s.taskOf k with
  | none => s
  | some t =>
    let t' := { t with finished := k :: t.finished }
    if t.members.all fun m => t'.finished.any fun x => decide (x = m) then
      ({ s with tasks := s.tasks.filter fun x => !x.runsOn k }).nodeDone t.ctx
        ⟨t.launch, t.gslot, t.node⟩
    else s.onTask k fun _ => t'

/-! ### Copy nodes (R37, R120) -/

/-- The record of a bulk copy engine (R338): agent 5, its number, no core. -/
def CopyJob.record (j : CopyJob) (engine : Nat) (f : FaultInfo) : FaultRec :=
  { eventRec f.code f.cause j.ctx.toNat engine f.i0 f.i1 with
    repl := f.repl, agent := 5, fen := BitVec.ofNat 5 j.fen.val, ext := BitVec.ofNat 160 f.ext }

/-- The engine's job replaced. -/
def State.putJob (s : State) (d : DieNo) (e : Fin 8) (j : Option CopyJob) : State :=
  s.onDie d.val fun x => { x with engines := vset x.engines e.val j }

/-- An engine stops at an element of a copy node with a record. -/
def State.stopJob (s : State) (d : DieNo) (e : Fin 8) (j : CopyJob) (f : FaultInfo) : State :=
  let s := s.met f
  (s.putJob d e (some { j with cmd := { j.cmd with stop := some s.seq } })).postStop (.copy d e) (j.record e.val f)

/-- A step of a copy node. `through`: the core to which a held access of it is being delivered. -/
def State.copyRun (s : State) (d : DieNo) (e : Fin 8) (through : Option CoreKey) (how : EngineStep) : State :=
  match vget (vget s.dies d.val).engines e.val with
  | none => s
  | some j =>
    if j.cmd.stop.isSome then s
    else
      match engineStep ⟨j.fen.val, none, j.ctx, some (.node d e), through, false⟩
        (fun ag c s => copyElem ag none (.glob c.addrA) c s) how j.cmd s with
      | .wait s => s
      | .stop f s => s.stopJob d e j f
      | .go c s => s.putJob d e (some { j with cmd := c })

/-- A copy node whose walk is over and whose writes are performed has finished. -/
def State.copyEnd (s : State) (d : DieNo) (e : Fin 8) : State :=
  match vget (vget s.dies d.val).engines e.val with
  | none => s
  | some j =>
    if j.cmd.finished && j.cmd.posted.isEmpty && s.writesDone (.node d e) then (s.putJob d e none).nodeDone j.ctx ⟨j.launch, j.gslot, j.node⟩
    else s

/-- A turn of a copy node. It goes on while its context is being saved, and not while it is saved; with its last step the node
has finished. -/
def State.copyTurn (s : State) (d : DieNo) (e : Fin 8) (how : EngineStep) : State :=
  match vget (vget s.dies d.val).engines e.val with
  | none => s
  | some j =>
    let x := vget s.ctxs j.ctx.toNat
    if x.state ≠ 2 ∨ 2 ≤ x.pst ∨ s.readHolds (.node d e) how then s else (s.copyRun d e none how).copyEnd d e

/-- CORE_TASK_FINISH (R40). A core that executed DONE becomes idle; on a newt its program's end is complete: the conductor's, or the
mailbox service program's (R167). -/
def execCoreTaskFinish (key : CoreKey) (s : State) : Out :=
  let c := (s.getCore key).landDue
  let x := vget s.ctxs c.ctx.toNat
  let serves := c.newt && s.serving key
  .next (if decide (c.status = .finishing) && c.quiet && (decide (x.pst = 0) || x.saved.isEmpty || serves) then
      let s := s.putCore { c with status := .idle }
      if serves then s.onFen c.fen fun f => { f with service := none }
      else if c.newt then s else s.memberDone key
    else s.putCore c)

/-- One decrement (R159). -/
def State.decrement (s : State) (id gs k : Nat) : State :=
  match s.launch id with
  | none => s
  | some l =>
    match (l.slots[gs]?).join with
    | none => s
    | some g =>
      match g.counts[k]? with
      | none => s
      | some 0 =>
        s.onCtx l.ctx.toNat fun x => { x with
          wlkst := setBits x.wlkst 63 32 (satTo 0xFFFFFFFF (bits x.wlkst 63 32 + 1)) }
      | some (c + 1) =>
        let s := s.onLaunch id fun l => { l with slots := vset l.slots gs (some { g with counts := g.counts.set k c }) }
        if c = 0 then s.makeReady l gs k else s

/-- A node marked finished; a group whose nodes have all finished frees its slot (R158). -/
def Launch.mark (l : Launch) (gs node : Nat) : Launch :=
  match (l.slots[gs]?).join with
  | none => l
  | some g =>
    let done := g.done.set node true
    { l with slots := vset l.slots gs (if done.all (fun b => b) then none else some { g with done := done }) }

/-- NODE_FINISH (R41, R42, R159). All decrements of one finished node: none of it is left to a save's counts (R359). -/
def execNodeFinish (fen : FenNo) (idx : Nat) (s : State) : Out :=
  .next (match (vget s.fens fen.val).doneNodes[idx]? with
    | none => s
    | some d =>
      let s := s.onFen fen.val fun f => { f with doneNodes := f.doneNodes.eraseIdx idx }
      match (s.launch d.launch).bind fun l => l.nodes[d.node]? with
      | none => s
      | some n =>
        ((n.succ.foldl (fun s k => s.decrement d.launch d.gslot k) s).onLaunch d.launch fun l => l.mark d.gslot d.node).nextOrder)

/-- LAUNCH_COMPLETE (R43, R242). Every node of every group has finished: DCNT is raised, and the conductor's end may be
posted. -/
def execLaunchComplete (launch : Nat) (s : State) : Out :=
  .next (match s.launch launch with
    | none => s
    | some l =>
      if l.nextGroup < l.groups ∨ l.slots.toList.any (·.isSome) then s
      else
        (({ s with launches := s.launches.filter fun x => decide (x.id ≠ launch) }).launchDone l).postCend l.ctx.toNat)

end Sys2Proof.Machine
end

