-- ==== Sys2Proof/Machine/Mailbox.lean ====
section
/-! DEFINITION. Starting engine commands (R64, R296, R312), and the mailbox of a
communication master (R165 to R167, R236, R237, R312 to R314, R389, R390). -/

namespace Sys2Proof.Machine

/-! ### Ends of requests that the master serves (R351) -/

/-- A request has ended: its command waits for ENGINE_COMMAND_COMPLETE on its core, or completes in a saved image. -/
def State.endRequest (s : State) (k : CoreKey) (ctx : BitVec 6) (id : Nat) : State :=
  let live := decide ((s.getCore k).ctx = ctx) && ((s.getCore k).cmd id).isSome
  if live then
    s.onCore k fun c => (c.cmd id).elim c fun x => c.putCmd { x with finished := true }
  else s.onPoster k ctx fun c => c.completeCmd id

/-- The record of the communication master (R338): agent 6, the issuing core's number, the master's site. -/
def State.masterRec (s : State) (fen : Nat) (k : CoreKey) (ctx : BitVec 6) (id : Nat) (f : FaultInfo) : FaultRec :=
  let slot := ((s.poster k ctx).bind fun c => c.cmd id).elim 0 (·.slot)
  { eventRec f.code f.cause ctx.toNat (((vget s.fens fen).master).getD 132) f.i0 f.i1 with
    repl := f.repl, agent := 6, slot := BitVec.ofNat 3 slot, fen := BitVec.ofNat 5 fen
    lcore := if isNewtKey k then 0xFFF else BitVec.ofNat 12 k, ext := BitVec.ofNat 160 f.ext }

/-! ### Entries (R165) -/

/-- The entry of a command (R165). -/
def Core.entryOf (c : Core) (x : Cmd) (kind : Nat) : MbEntry :=
  let lcore := if c.newt then 127 else c.key % 128
  ⟨BitVec.ofNat 128 (x.addrA.toNat * 2 ^ 64 + c.ctx.toNat * 2 ^ 58 + lcore * 2 ^ 51 + kind * 2 ^ 48 + x.tok.toNat * 2 ^ 44
    + b2n c.newt * 2 ^ 43), c.key, x.id, false, [], none⟩

/-- An entry enters the mailbox: its command has started, and an MBPOST has ended (R297). -/
def State.placeEntry (s : State) (c : Core) (x : Cmd) (kind : Nat) : State :=
  (s.onFen c.fen fun f => { f with mailbox := f.mailbox ++ [c.entryOf x kind] }).onCore c.key fun d =>
    d.putCmd { x with started := true, placed := true, finished := decide (kind = 0) }

/-! ### Grant words (R178) -/

/-- The number of sources with a nonzero grant to this device. -/
def calNsrc (c : Calendar) : Nat :=
  (distinct ((c.phases.filter fun p => decide (p.recvq ≠ 0)).map (·.src))).length

/-- The grant word of a calendar. -/
def calGrant (c : Calendar) (xid : BitVec 16) : Word :=
  BitVec.ofNat 64 (xid.toNat + c.gen.toNat % 65536 * 2 ^ 16 + c.phases.length % 4096 * 2 ^ 32 + calNsrc c % 128 * 2 ^ 44)

/-- The grant word of an XID that nothing was posted under: NPH 0 and NOPOST 1. -/
def noPost (xid : BitVec 16) : Word := BitVec.ofNat 64 (xid.toNat + 2 ^ 51)

/-- This device's latest DPOST of a context under an XID. -/
def State.exchOf (s : State) (ctx : BitVec 6) (xid : BitVec 16) : Option Exch :=
  s.exchs.reverse.find? fun e => decide (e.ctx = ctx) && decide (e.xid = xid)

/-- The XID of a GWAIT. -/
def Cmd.xid (x : Cmd) : BitVec 16 := x.shape.extractLsb' 0 16

/-- The XID that a demand vector holds now, if it can be read. -/
def State.vectorXid (s : State) (fen : Nat) (ctx : BitVec 6) (at_ : Word) : Option (BitVec 16) :=
  match s.readPlain fen none ctx.toNat (at_ + 8) 2 with
  | .error _ => none
  | .ok (bs, _) => some (bitsOf 16 bs)

/-- The XID of a DPOST's entry: of its vector as the master has read it, or as it stands. -/
def State.entryXid (s : State) (fen : Nat) (e : MbEntry) : Option (BitVec 16) :=
  match e.got.head? with
  | some bs => some (bitsOf 16 (bs.drop 8))
  | none => s.vectorXid fen (BitVec.ofNat 6 (mbCtx e.bits)) (e.bits.extractLsb' 64 64)

/-- The entry is a DPOST of the context whose XID is the given one, or cannot be told. -/
def State.postsAs (s : State) (fen : Nat) (ctx : BitVec 6) (xid : BitVec 16) (e : MbEntry) : Bool :=
  decide (mbKind e.bits = 2) && decide (mbCtx e.bits = ctx.toNat) && (s.entryXid fen e).elim true fun x => decide (x = xid)

/-- The cores of a context in saved images, changed-out conductors among them. -/
def State.imagesOf (s : State) (ctx : BitVec 6) : List Core :=
  (vget s.ctxs ctx.toNat).saved.map (·.core)
    ++ s.fens.toList.flatMap fun f => f.conductors.filterMap fun d => if d.ctx = ctx then d.image.map (·.core) else none

/-- A DPOST of the context under the XID stands in a mailbox of the device or is being read; or it has been issued and has not started
(R296), on a core or in an image of one. Of the core of the GWAIT of this number only those count that were issued before it. -/
def State.postsUnread (s : State) (k : CoreKey) (id : Nat) (ctx : BitVec 6) (xid : BitVec 16) : Bool :=
  (s.fens.toList.zipIdx.any fun f => f.1.mailbox.any (s.postsAs f.2 ctx xid) || f.1.reading.any (s.postsAs f.2 ctx xid))
    || (s.allCores ++ s.imagesOf ctx).any fun c => decide (c.ctx = ctx) && c.pipes.cmds.any fun x =>
      decide (x.op = .dpost) && !x.started && (decide (c.key ≠ k) || decide (x.id < id))
        && (s.vectorXid c.fen ctx x.addrA).elim true fun y => decide (y = xid)

/-- s30 receives a grant word, and the GWAIT has ended (R53, R178). -/
def Core.grantTo (c : Core) (id : Nat) (v : Word) : Core :=
  let c := c.landDue
  (c.cmd id).elim c fun x =>
    (c.ws 30 v).putCmd { x with finished := true }

/-- A GWAIT starts, once no DPOST of its XID is left unread: it completes at once where the XID has no DPOST or the calendar of
the latest one is written, and waits otherwise. -/
def State.startGwait (s : State) (k : CoreKey) (x : Cmd) : State :=
  let ctx := (s.getCore k).ctx
  let s' := s.onCore k fun c => c.putCmd { x with started := true, placed := true }
  if s.postsUnread k x.id ctx x.xid then s
  else
    match s.exchOf ctx x.xid with
    | some e =>
      match e.cal with
      | some c => s'.onCore k fun d => d.grantTo x.id (calGrant c x.xid)
      | none => s'
    | none => s'.onCore k fun d => d.grantTo x.id (noPost x.xid)

/-! ### Start (R64, R296, R312, R389, R390) -/

/-- FLT_NOMB: the fen has no master. -/
def State.noMaster (s : State) (k : CoreKey) (x : Cmd) (cause : Nat) : State := s.stopCmd k x ⟨0x43, cause, false, 0, 0, 0⟩

/-- A place in the line of those that wait for the mailbox: before every command that became ready later (R390). -/
def mbInsert (w : MbWait) : List MbWait → List MbWait
  | [] => [w]
  | x :: r => if w.order < x.order then w :: x :: r else x :: mbInsert w r

/-- A conductor whose change has found no place for its image (R349, R355). -/
def State.changeStuck (s : State) (c : Core) : Bool :=
  c.newt && !s.serving c.key && (vget s.fens c.fen).conductors.any fun d => decide (d.ctx = c.ctx) && d.stuck

/-- A save or a restore of its context, or its own change, holds the core (R350, R355, R357); a save waits for a mailbox service program
(R167). -/
def State.saveHeld (s : State) (c : Core) : Bool :=
  (decide ((vget s.ctxs c.ctx.toNat).pst ≠ 0) && !(c.newt && s.serving c.key)) || s.changeStuck c

/-- No command of the core starts: a save or a restore holds the core, or a freeze its sequencers (R46, R350, R357). -/
def State.saveStops (s : State) (c : Core) : Bool := s.saveHeld c || s.enginesHeld c

/-- Another command of the fen became ready before this one to place an entry, and has neither placed it nor joined the line (R390). One
that does not start, its core being saved or frozen or its sequencer stopped, holds none up. -/
def State.postAhead (s : State) (fen n : Nat) : Bool :=
  s.allCores.any fun c => decide (c.fen = fen) && decide (c.status ≠ .idle) && !s.saveStops c && c.pipes.cmds.any fun y =>
    (kindOf y.op).isSome && !y.started && !c.seqStopped y && y.ready.elim false (fun m => decide (m < n))
      && !(vget s.fens fen).mbWait.any fun w => decide (w.key = c.key) && decide (w.cmd = y.id)

/-- A command that places an entry: it enters the mailbox, or joins the line of those that wait, in the order in which they became
ready (R390). -/
def State.startPost (s : State) (c : Core) (x : Cmd) (kind : Nat) : State :=
  let f := vget s.fens c.fen
  let n := x.ready.getD f.posts
  if f.master.isNone then s.noMaster c.key x kind
  else if f.mbWait.any fun w => decide (w.key = c.key) && decide (w.cmd = x.id) then s
  else if f.mbWait.isEmpty && decide (f.mailbox.length < 32) && !s.postAhead c.fen n then s.placeEntry c x kind
  else s.onFen c.fen fun f => { f with mbWait := mbInsert ⟨c.key, x.id, n, c.ran, false⟩ f.mbWait }

/-- ENGINE_COMMAND_START (R64, R296). A command whose consumed tokens are DONE starts, where no record stops its sequencer (R339). -/
def execEngineCommandStart (key : CoreKey) (id : Nat) (s : State) : Out :=
  let c := s.getCore key
  .next (match c.cmd id with
    | none => s
    | some x =>
      if x.started || c.seqStopped x || c.frozen || x.waits.any (fun i => (c.cmd i).isSome)
          || s.saveStops c then s
      else
        match kindOf x.op with
        | some kind => s.startPost c x kind
        | none =>
          if x.op = .gwait then (if (vget s.fens c.fen).master.isNone then s.noMaster key x 8 else s.startGwait key x)
          else s.onCore key fun c => c.putCmd { x with started := true })

/-- A command in the line may take its place. -/
def State.postMay (s : State) (w : MbWait) : Bool :=
  let c := s.getCore w.key
  !s.saveStops c && !(c.cmd w.cmd).elim false c.seqStopped

/-- MAILBOX_PLACE (R389, R390). The first command that waits for a place takes one, unless one that became ready before it has yet to
join the line, or stops where the fen has no master any more; one whose core is being saved or frozen, or whose sequencer a record stops, does not start (R46, R339, R350). -/
def execMailboxPlace (fen : FenNo) (s : State) : Out :=
  let f := vget s.fens fen.val
  .next (match f.mbWait.find? s.postMay with
    | none => s
    | some w =>
      let c := s.getCore w.key
      let s' := s.onFen fen.val fun f => { f with
        mbWait := f.mbWait.filter fun x => !(decide (x.key = w.key) && decide (x.cmd = w.cmd)) }
      match c.cmd w.cmd with
      | none => s'
      | some x =>
        let kind := (kindOf x.op).getD 0
        if f.master.isNone then s'.noMaster w.key x kind
        else if f.mailbox.length < 32 ∧ !s.postAhead fen.val w.order then s'.placeEntry c x kind else s)

/-! ### Kind 0: the service program and its replies (R167, R237) -/

/-- A reply on its way to the poster of an entry. -/
def State.replyTo (s : State) (e : MbEntry) (v : Word) : State :=
  s.onCore e.poster fun c => { c with replies := c.replies ++ [⟨v, BitVec.ofNat 6 (mbCtx e.bits), none⟩] }

/-- The service program of a context starts on the master's newt. -/
def Core.startService (c : Core) (ctx : BitVec 6) (entry : Addr) : Core :=
  let z := Core.reset c.key
  { z with
    site := c.site
    ctx := ctx
    status := .running
    pc := entry
    regs := { z.regs with s := vset z.regs.s 1 (ctx.setWidth 64), ac := c.regs.ac }
    sp := c.sp
    pipes := { z.pipes with
      nextId := c.pipes.nextId, bundleNo := c.pipes.bundleNo, clocks := c.pipes.clocks, engClocks := c.pipes.engClocks,
      synced := c.pipes.synced }
    replies := c.replies
    tlb := c.tlb }

/-- The context has no service program, or is not running. -/
def Ctx.noProgram (x : Ctx) : Bool := decide (x.mbent = 0) || decide (x.state ≠ 2)

/-- A restore waits for the newt of a fen, or has taken it (R357, step 2); or a save that has still to end has taken its state (R350,
step 7). -/
def State.newtTaken (s : State) (fen : Nat) : Bool :=
  s.ctxs.toList.any fun x => x.saved.any fun y => x.keeps y && y.core.newt && decide (y.core.fen = fen)

/-- The service program of a context starts on the master's newt; a save of the context that has begun waits for it (R167). An MBENT
that is not 8-byte aligned, or whose bits [63:57] are not zero, is taken at bits [56:0] as they stand: the spec does not say what
becomes of it (DESIGN CHOICE, log entry 103). -/
def State.startService (s : State) (fen : Nat) (k : CoreKey) (n : BitVec 6) : State :=
  let x := vget s.ctxs n.toNat
  let s := (s.onCore k fun c => (c.startService n (x.mbent.extractLsb' 0 57)).syncAt s.latest).onFen fen fun f => { f with service := some n }
  if x.pst = 1 then s.onCtx n.toNat fun x => { x with saveWait := some 0 } else s

/-- MAILBOX_SERVICE_START (R167). The hardware answers an entry whose context has no program; otherwise the context of the
oldest untaken kind 0 entry has its program started, while no other runs. That context may be being saved, or saved: its posts
are served all the same (R351). -/
def execMailboxServiceStart (fen : FenNo) (s : State) : Out :=
  let f := vget s.fens fen.val
  let open_ (e : MbEntry) : Bool := decide (mbKind e.bits = 0) && !e.taken
  let none_ (e : MbEntry) : Bool := open_ e && (vget s.ctxs (mbCtx e.bits)).noProgram
  .next (match f.master with
    | none => s
    | some site =>
      let k := newtKey fen.val site
      match f.mailbox.find? none_ with
      | some e =>
        (s.onFen fen.val fun f => { f with mailbox := firstDrop none_ f.mailbox }).replyTo e 0xFFFFFFFFFFFFFFFF
      | none =>
        match f.mailbox.find? open_ with
        | none => s
        | some e =>
          if f.service.isSome || decide ((s.getCore k).status ≠ .idle) || s.newtTaken fen.val then s
          else s.startService fen.val k (BitVec.ofNat 6 (mbCtx e.bits)))

/-- A command that the communication master serves once it has started (R351). -/
def CmdOp.atMaster : CmdOp → Bool
  | .coll => true
  | .dpost => true
  | .gwait => true
  | .lease => true
  | .lrel => true
  | .mbpost => true
  | .atomic _ => false
  | .fence => false
  | .stk => false
  | .kcopy => false
  | .cp => false
  | .cpq => false
  | .cpblk => false
  | .prefr => false
  | .bankm => false
  | .reedinv => false

/-- The accesses that the replying newt issued before its MBREPLY, those of its engine commands included, are performed
(R150). -/
def State.replyOrdered (s : State) (r : Reply) : Bool :=
  match r.from_ with
  | none => true
  | some (k, b) =>
    let c := s.getCore k
    !(c.pipes.acc.any fun a => decide (a.bundle < b) && !a.complete)
      && !(c.pipes.cmds.any fun x => decide (x.bundle < b) && !x.op.atMaster && !(x.finished && x.posted.isEmpty && !s.heldAny (·.writeOf (.cmd k x.id))))

/-- A reply lands in s31 (R53), unless the core has no kind 0 post outstanding (R237). -/
def Core.landReply (c : Core) (v : Word) : Core :=
  if c.posts = 0 then c
  else
    let c := c.landDue
    { c.ws 31 v with posts := c.posts - 1 }

/-- MAILBOX_REPLY_LAND (R53, R237). The oldest reply to the core lands, or is discarded when the core's context is another. -/
def execMailboxReplyLand (key : CoreKey) (s : State) : Out :=
  .next (match (s.getCore key).replies with
    | [] => s
    | r :: rest =>
      if !s.replyOrdered r then s
      else (s.onCore key fun c => { c with replies := rest }).onPoster key r.ctx fun c => c.landReply r.payload)

/-! ### Kinds 3 and 4: leases (R114, R153, R313, R314) -/

/-- The LID, WIN, SIZE, LENDER and STATUS of a descriptor. -/
def ldLid (d : BitVec 256) : BitVec 32 := d.extractLsb' 160 32
def ldSize (d : BitVec 256) : BitVec 24 := d.extractLsb' 8 24
def ldLender (d : BitVec 256) : BitVec 6 := d.extractLsb' 0 6
def ldStatus (d : BitVec 256) : Nat := bits d 199 192

/-- The descriptor is invalid: a reserved field, SIZE, or its own address. -/
def leaseBad (at_ : Word) (d : BitVec 256) : Bool :=
  decide (bits d 255 200 ≠ 0) || decide (bits d 111 32 ≠ 0) || decide (bits d 7 6 ≠ 0) || decide (ldSize d = 0)
    || decide (524288 < (ldSize d).toNat) || decide (at_.toNat % 32 ≠ 0)

/-- STATUS written to a descriptor. -/
def State.leaseStatus (s : State) (fen : Nat) (ctx : BitVec 6) (at_ : Word) (st : Nat) : Tried State :=
  s.writeVirt fen none ctx.toNat (at_ + 24) [BitVec.ofNat 8 st] 0

/-- What serving an entry comes to: a read or a write of it faults, or it is refused, with what has been read so far; or the
master goes on. -/
inductive Served where
  | stop (f : FaultInfo) (got : List (List Byte)) (s : State)
  | ok (s : State)

/-- The context of an entry, and the address that it holds. -/
def MbEntry.ctx (e : MbEntry) : BitVec 6 := BitVec.ofNat 6 (mbCtx e.bits)
def MbEntry.arg (e : MbEntry) : Word := e.bits.extractLsb' 64 64

/-- The one read of n bytes at an entry's address, made once; then what follows. -/
def State.readArg (s : State) (fen : Nat) (e : MbEntry) (n : Nat) (f : List Byte → State → Tried State) : Served :=
  let r := s.readOn fen e.ctx.toNat (fun got => if got.isEmpty then some (e.arg, n) else none) 2 e.got
  match r.2.1 with
  | some g => .stop g r.1 r.2.2
  | none =>
    match f (r.1.headD []) r.2.2 with
    | .error e => .stop e.1 r.1 e.2
    | .ok s => .ok s

/-- A lease request: a STATUS at once, or a request to the lender. -/
def State.leaseTake (s : State) (fen : Nat) (e : MbEntry) : Served :=
  s.readArg fen e 32 fun bs s =>
    let d := bitsOf 256 bs
    let status (st : Nat) : Tried State :=
      match s.leaseStatus fen e.ctx e.arg st with
      | .error f => .error f
      | .ok s => .ok (s.endRequest e.poster e.ctx e.cmd)
    if leaseBad e.arg d then status 6
    else if ldLender d = Config.deviceNo ∨ !inDomain (ldLender d) then status 3
    else
      .ok ((s.onFen fen fun f => { f with
        leaseReqs := f.leaseReqs ++ [⟨e.poster, e.cmd, e.ctx, e.arg, ldLender d, ldSize d, none, none⟩] }).sendTo (ldLender d) 6 0
          (.leaseRequest (ldSize d)))

/-- A lease that this device borrows of a lender under a LID (R376: LIDs are each lender's own). -/
def Lease.borrowed (lender : DevNo) (lid : BitVec 32) (l : Lease) : Bool :=
  l.mine && decide (l.peer = lender) && decide (l.lid = lid)

/-- The expiry X of a lease this device borrows (R153): its values are lost. -/
def State.expireLease (s : State) (lender : DevNo) (lid : BitVec 32) : State :=
  match s.leases.find? (·.borrowed lender lid) with
  | none => s
  | some l =>
    let n := l.units.toNat * 2 ^ 21
    { s with
      leases := mapIf (·.borrowed lender lid) (fun x => { x with expired := true }) s.leases
      mem := s.mem.clear l.win.toNat n
      tags := s.tags.clear (l.win.toNat / 128) (n / 128)
      poison := s.poison.filter fun k => decide (k < l.win.toNat / 128) || decide ((l.win.toNat + n) / 128 ≤ k)
      flaws := s.flaws.filter fun x => decide (x.1 < l.win.toNat / 128) || decide ((l.win.toNat + n) / 128 ≤ x.1) }

/-- STATUS 4 is written by the master of the fen that leased the range, once the range is revoked (R376, R377); a write that
faults is made again after the RESUME of its record. -/
def State.revoked (s : State) (l : Lease) : State :=
  match s.leaseStatus l.fen.val l.ctx l.desc 4 with
  | .ok s => s
  | .error e =>
    (e.2.met e.1).postStop (.status l.peer l.lid) { s.masterRec l.fen.val (128 * l.fen.val) l.ctx 0 e.1 with lcore := 0xFFF }

/-- A release: at X the master writes STATUS 5; of a descriptor whose STATUS is not 1 nothing changes (R314). -/
def State.lrelTake (s : State) (fen : Nat) (e : MbEntry) : Served :=
  s.readArg fen e 32 fun bs s =>
    let d := bitsOf 256 bs
    if ldStatus d ≠ 1 then .ok (s.endRequest e.poster e.ctx e.cmd)
    else
      match s.leaseStatus fen e.ctx e.arg 5 with
      | .error f => .error f
      | .ok s =>
        .ok (((s.expireLease (ldLender d) (ldLid d)).sendTo (ldLender d) 6 0 (.leaseReturn (ldLid d))).endRequest
          e.poster e.ctx e.cmd)

/-- The fields that a grant writes to the descriptor. -/
def grantFields (d : BitVec 256) (r : LeaseReply) : BitVec 256 :=
  match r with
  | .granted win lid => setBits (setBits (setBits d 199 192 1) 191 160 lid.toNat) 159 112 win.toNat
  | .noCapacity => setBits d 199 192 2
  | .badLender => setBits d 199 192 3

/-- Two requests are the same. -/
def LeaseReq.same (a b : LeaseReq) : Bool := decide (a.poster = b.poster) && decide (a.cmd = b.cmd)

/-- A lease request changed. -/
def State.onLeaseReq (s : State) (fen : Nat) (q : LeaseReq) (f : LeaseReq → LeaseReq) : State :=
  s.onFen fen fun x => { x with leaseReqs := mapIf (·.same q) f x.leaseReqs }

/-- The lender's answer is written: STATUS, and on a grant WIN and LID; then the command has ended. A read or a write that
faults stops the request, which keeps the answer, until its record is resumed. -/
def State.leaseWrite (s : State) (fen : FenNo) (q : LeaseReq) (r : LeaseReply) : State :=
  let stop (f : FaultInfo) (s : State) : State :=
    let s := s.met f
    (s.onLeaseReq fen.val q fun y => { y with reply := some r, stop := some s.seq }).postStop (.entry fen q.poster q.cmd)
      (s.masterRec fen.val q.poster q.ctx q.cmd f)
  match s.readPlain fen.val none q.ctx.toNat q.addr 32 with
  | .error e => stop e.1 e.2
  | .ok (bs, s1) =>
    match s1.writeVirt fen.val none q.ctx.toNat q.addr (bvBytes (grantFields (bitsOf 256 bs) r)) 0 with
    | .error e => stop e.1 e.2
    | .ok s2 =>
      let s2 := s2.onFen fen.val fun x => { x with leaseReqs := x.leaseReqs.filter fun y => !y.same q }
      let s2 := match r with
        | .granted win lid =>
          { s2 with leases := ⟨lid, true, q.lender, win, q.size, q.ctx, fen, q.addr, none, false⟩ :: s2.leases }
        | .noCapacity => s2
        | .badLender => s2
      s2.endRequest q.poster q.ctx q.cmd

/-- LEASE_RESPONSE (R313). The lender answers a request. -/
def execLeaseResponse (fen : FenNo) (idx : Nat) (r : LeaseReply) (s : State) : Out :=
  .next (match (vget s.fens fen.val).leaseReqs[idx]? with
    | none => s
    | some q => if q.reply.isSome then s else s.leaseWrite fen q r)

end Sys2Proof.Machine
end

