-- ==== Sys2Proof/Machine/Coll.lean ====
section
/-! DEFINITION. Collective records and their transfers (R168 to R174, R330, R352, R388, R391 to R393). -/

namespace Sys2Proof.Machine

/-! ### Members and records (R168, R169) -/

def mDev (m : Word) : DevNo := m.extractLsb' 0 6
def mFen (m : Word) : Nat := bits m 10 6
def mCore (m : Word) : Nat := bits m 17 11
def mNewt (m : Word) : Bool := bit m 18

def cLevels (r : BitVec 1024) : Nat := bits r 155 153
def cRed (r : BitVec 1024) : Nat := bits r 150 148
def cEtype (r : BitVec 1024) : Nat := bits r 152 151
def cBytes (r : BitVec 1024) : Nat := bits r 147 128
def cSize (r : BitVec 1024) : Nat := bits r 161 156 + 1
def cAci (r : BitVec 1024) : Nat := bits r 172 168
def cNcon (r : BitVec 1024) : Nat := bits r 179 173
def cRsp (r : BitVec 1024) : Bool := bit r 58
def cLsp (r : BitVec 1024) : Bool := bit r 57
def cBound (r : BitVec 1024) (l : Nat) : Nat := bits r (256 + 96 * l + 15) (256 + 96 * l)
def cCoef (r : BitVec 1024) (l : Nat) : Nat := bits r (256 + 96 * l + 21) (256 + 96 * l + 16)
def cLstr (r : BitVec 1024) (l : Nat) : Nat := bits r (256 + 96 * l + 63) (256 + 96 * l + 32)
def cRstr (r : BitVec 1024) (l : Nat) : Nat := bits r (256 + 96 * l + 95) (256 + 96 * l + 64)

/-- The active levels. -/
def cActive (r : BitVec 1024) : List Nat := List.range (min (cLevels r) 6)

/-- The iterations of the active levels, and their product. -/
def cBounds (r : BitVec 1024) : List Nat := (cActive r).map (cBound r)
def cTotal (r : BitVec 1024) : Nat := (cBounds r).foldl (· * ·) 1

/-- A must-be-zero field of the record, in all six levels. -/
def collReserved (r : BitVec 1024) : Bool :=
  decide (bits r 1023 889 ≠ 0) || decide (bits r 255 249 ≠ 0) || decide (bits r 191 188 ≠ 0) || decide (bits r 127 121 ≠ 0)
    || decide (bits r 63 59 ≠ 0) || (List.range 6).any fun l => decide (bits r (256 + 96 * l + 31) (256 + 96 * l + 22) ≠ 0)

/-- An alignment of R169 is broken, the record's own included. -/
def collMisaligned (at_ : Word) (r : BitVec 1024) : Bool :=
  decide (at_.toNat % 128 ≠ 0) || decide (bits r 56 0 % 128 ≠ 0) || decide (bits r 120 64 % 128 ≠ 0)
    || decide (bits r 248 192 % 8 ≠ 0) || (decide (cRed r = 2) && decide (bits r 888 832 % 128 ≠ 0))
    || (cActive r).any fun l => decide (cLstr r l % 128 ≠ 0) || decide (cRstr r l % 128 ≠ 0)

/-- A field lies outside its range. -/
def collRange (r : BitVec 1024) : Bool :=
  decide (cBytes r = 0) || decide (cBytes r % 128 ≠ 0) || decide (524288 < cBytes r) || decide (cLevels r = 0)
    || decide (6 < cLevels r) || decide (5 ≤ cRed r) || (decide (cRed r ≠ 0) && decide (cEtype r = 3))
    || (decide (cRed r = 2) && (decide (cNcon r = 0) || decide (64 < cNcon r))) || decide (cSize r ≤ bits r 167 162)

/-- The remote offset of some transfer of a SUMB record is no multiple of TBYTES. -/
def collOffsets (r : BitVec 1024) : Bool :=
  decide (cRed r = 2) && decide (cTotal r ≠ 0)
    && (cActive r).any fun l => decide (2 ≤ cBound r l) && decide ((sext32 (cRstr r l)).toInt % (cBytes r : Int) ≠ 0)

/-- The cause of a refused record, the lowest that applies (R391). -/
def collCause (at_ : Word) (r : BitVec 1024) (table : List Word) : Option Nat :=
  if collReserved r || table.any fun m => decide (bits m 63 19 ≠ 0) then some 1
  else if collMisaligned at_ r then some 2
  else if collRange r then some 3
  else if table.any fun m => !mNewt m && decide (15 < cAci r) then some 4
  else if table.any fun m => !inDomain (mDev m) || decide (30 ≤ mFen m) || (mNewt m && cRsp r) then some 5
  else if collOffsets r then some 6
  else none

/-! ### Taking a record (R170) -/

/-- The reads of a COLL: the record, and, unless a must-be-zero field of it is not zero, its group table. -/
def collNext (at_ : Word) (got : List (List Byte)) : Option (Word × Nat) :=
  match got with
  | [] => some (at_, 128)
  | [bs] =>
    let r := bitsOf 1024 bs
    if collReserved r then none else some (BitVec.ofNat 64 (bits r 248 192), 8 * cSize r)
  | _ :: _ :: _ => none

/-- The group table as it has been read. -/
def collTable (r : BitVec 1024) (got : List (List Byte)) : List Word :=
  (got[1]?).elim [] fun tb => (wordsOf 8 (cSize r) tb).map (BitVec.ofNat 64)

/-- A record that is accepted becomes active; one without a transfer has ended. -/
def State.collStart (s : State) (fen : Nat) (e : MbEntry) (r : BitVec 1024) (table : List Word) : State :=
  if cTotal r = 0 then s.endRequest e.poster e.ctx e.cmd
  else
    s.onFen fen fun f => { f with
      colls := f.colls ++ [⟨f.serial, e.ctx, e.poster, e.cmd, e.arg, r, table, 0, cTotal r, [], [], [], none⟩]
      serial := f.serial + 1 }

/-- The record and its group table are read, each once, and checked; a record that was refused is read again (R391). -/
def State.collTake (s : State) (fen : Nat) (e : MbEntry) : Served :=
  let x := s.readOn fen e.ctx.toNat (collNext e.arg) 3 e.got
  match x.2.1 with
  | some f => .stop f x.1 x.2.2
  | none =>
    let r := bitsOf 1024 (x.1.headD [])
    let table := collTable r x.1
    match collCause e.arg r table with
    | some c => .stop ⟨0x40, c, true, e.arg, 0, 0⟩ [] x.2.2
    | none => .ok (x.2.2.collStart fen e r table)

/-! ### Emission (R170, R388, R392) -/

/-- A base moved by the strides of an index tuple. -/
def walkFrom (base : Nat) (strides idx : List Nat) : Word :=
  (strides.zip idx).foldl (fun a p => a + sext32 p.1 * BitVec.ofNat 64 p.2) (BitVec.ofNat 64 base)

/-- The index tuple of the next transfer. -/
def CollRec.tuple (c : CollRec) : List Nat := tupleAt (cBounds c.record) c.pos

/-- The member of the next transfer: its rank, and its word. -/
def CollRec.member (c : CollRec) : Word :=
  let r := c.record
  let k := ((cActive r).zip c.tuple).foldl (fun a p => a + cCoef r p.1 * p.2) (bits r 167 162)
  c.table.getD (k % cSize r) 0

/-- The agent of a fen's master, working on a core's scratchpad or on memory alone. -/
def masterAgent (fen : Nat) (key : Option CoreKey) (ctx : BitVec 6) : Agent := ⟨fen, key, ctx, none, none, false⟩

/-- A source part in the scratchpad of a core as its image holds it (R351). -/
def Core.imagePart (x : Core) (p : Nat × Nat) : Except FaultInfo (List Byte) :=
  let l := x.sp.look (p.1 % x.spSize) p.2
  match l.poison with
  | some a => .error (spPoison x.lcore.toNat a)
  | none =>
    match keptPlain l.tags (keptSpInfo (p.1 / 128 * 128)) with
    | some f => .error f
    | none => .ok l.bytes

/-- One part of the source as it is read: of memory, or of the poster's scratchpad, which may stand in its saved image (R351). -/
def State.collRead (s : State) (fen : Nat) (c : CollRec) (p : Nat × Nat) : Got (List Byte) :=
  let bytes (g : Got Sect) : Got (List Byte) :=
    match g with
    | .wait s => .wait s
    | .fault f s => .fault f s
    | .ok x s => .ok x.bytes s
  if !cLsp c.record then bytes (s.engPlain (masterAgent fen none c.ctx) (.glob (BitVec.ofNat 64 p.1)) p.2)
  else
    let p := (p.1 % 2 ^ 20, p.2)
    let live := s.getCore c.poster
    if decide (live.status ≠ .idle) && decide (live.ctx = c.ctx) then
      bytes (s.engPlain (masterAgent fen (some c.poster) c.ctx) (.own p.1) p.2)
    else
      match s.poster c.poster c.ctx with
      | none => .ok (List.replicate p.2 0) s
      | some x =>
        match x.imagePart p with
        | .error f => .fault f s
        | .ok bs => .ok bs s

/-- The parts of the next transfer's source, in their order. -/
def CollRec.parts (c : CollRec) : List (Nat × Nat) :=
  let r := c.record
  let a := walkFrom (bits r 56 0) ((cActive r).map (cLstr r)) c.tuple
  partsOf (if cLsp r then a.toNat % 2 ^ 20 else a.toNat) (cBytes r)

/-- The transfer of a record's next index tuple. -/
def CollRec.transfer (c : CollRec) (fen : FenNo) (data : List Byte) : Transfer :=
  let r := c.record
  let strides := (cActive r).map (cRstr r)
  let ro := walkFrom 0 strides c.tuple
  { key := ⟨Config.deviceNo, fen, c.serial, c.pos⟩, ctx := c.ctx, member := c.member, red := BitVec.ofNat 3 (cRed r)
    etype := BitVec.ofNat 2 (cEtype r), rsp := cRsp r, dst := walkFrom (bits r 120 64) strides c.tuple
    aci := BitVec.ofNat 5 (cAci r), ncon := BitVec.ofNat 7 (cNcon r), sexp := r.extractLsb' 180 8
    bbase := BitVec.ofNat 64 (bits r 888 832), roff := ro, data := data }

/-! ### Order within a record (R137, R170) -/

/-- A list in an order that a choice fixes. -/
def shuffle {α : Type} (pick : Nat → Nat) : List α → List α
  | [] => []
  | [x] => [x]
  | x :: y :: l => (shuffle pick (y :: l)).insertIdx (pick l.length % (l.length + 2)) x

/-- The parts of the next transfer's source in the order in which they are read: R137 orders accesses to different locations not at
all. -/
def CollRec.order (c : CollRec) (fen : FenNo) : List (Nat × Nat) := shuffle (Config.readPick ⟨Config.deviceNo, fen, c.serial, c.pos⟩) c.parts

/-- The next of them; each is a sector, whose bytes stand in `data` once it has been read. -/
def CollRec.nextPart (c : CollRec) (fen : FenNo) : Option (Nat × Nat) := (c.order fen)[c.data.length / 128]?

/-- What has been read, in the order of the source. -/
def CollRec.gather (c : CollRec) (fen : FenNo) (data : List Byte) : List Byte :=
  let o := c.order fen
  c.parts.flatMap fun p => (o.findIdx? (· = p)).elim [] fun i => (data.drop (128 * i)).take 128

/-- Where a transfer's pieces go. -/
def xferAgent (t : Transfer) (fen : Nat) : Agent :=
  masterAgent fen (if t.rsp then some (128 * fen + mCore t.member) else none) t.ctx
def xferPlace (t : Transfer) (a : Nat) : Place := if t.rsp then .own (a % 2 ^ 20) else .glob (BitVec.ofNat 64 a)

/-- The bin block of a SUMB transfer of n elements and k bytes (R173): its address and its length. -/
def binBlock (t : Transfer) (n k : Nat) : Word × Nat :=
  (t.bbase + BitVec.ofInt 64 (t.roff.toInt / (k : Int) * (128 + 8 * n : Nat)), 128 + 8 * n)

/-- The bytes of an element of a transfer. -/
def xferWidth (t : Transfer) : Nat := if t.etype.toNat = 2 then 4 else 2

/-- The locations that a transfer of k bytes writes. A location in the memory of a peer is known by its virtual address there, in a
scratchpad of a peer by its core and offset (DEDUCED, log entry 96). -/
def State.xferSpans (s : State) (t : Transfer) (k : Nat) : List Span :=
  let m := t.member
  let fen := mFen m
  let here := decide (mDev m = Config.deviceNo)
  let far := 2 ^ 16 * (1 + (mDev m).toNat)
  let dest := (partsOf t.dst.toNat k).map fun p =>
    if here then s.span (xferAgent t fen) (xferPlace t p.1) p.2
    else if t.rsp then ⟨far + 2 + 128 * fen + mCore m, p.1 % 2 ^ 20, p.2⟩ else ⟨far, p.1, p.2⟩
  let b := binBlock t (k / xferWidth t) k
  let bins := (partsOf b.1.toNat b.2).map fun p =>
    if here then s.span (masterAgent fen none t.ctx) (.glob (BitVec.ofNat 64 p.1)) p.2 else ⟨far, p.1, p.2⟩
  if t.red = 2 then dest ++ bins else dest

/-- An earlier transfer of the record that is not counted yet writes to what a part of the next one reads, or to what the next one
writes: R137 keeps such accesses in element order. -/
def State.collBehind (s : State) (fen : FenNo) (c : CollRec) (p : Nat × Nat) : Bool :=
  let n := cBytes c.record
  let src := s.span (masterAgent fen.val (some c.poster) c.ctx) (if cLsp c.record then .own (p.1 % 2 ^ 20) else .glob (BitVec.ofNat 64 p.1)) p.2
  c.unacked.any fun i => (s.xferSpans (CollRec.transfer { c with pos := i } fen []) n).any fun x =>
    x.meets src || (s.xferSpans (c.transfer fen []) n).any x.meets

/-- A part of the source is read once no earlier transfer of the record stands in its way. -/
def State.collPart (s : State) (fen : FenNo) (c : CollRec) (p : Nat × Nat) : Got (List Byte) :=
  if s.collBehind fen c p then .wait s else s.collRead fen.val c p

/-- The cause of FLT_PEER for the next transfer (R385, R392). -/
def State.peerCause (s : State) (m : Word) : Option Nat :=
  if s.lostPeers.contains (mDev m) then some 1
  else if mDev m = Config.deviceNo ∧ (vget s.fens (mFen m)).master.isNone then some 2
  else if mDev m = Config.deviceNo ∧ !mNewt m ∧ s.noSite (mFen m) (mCore m) then some 3
  else none

/-- A fen's number from a member word. -/
def fenNo (n : Nat) : FenNo := ⟨n % 30, Nat.mod_lt _ (by decide)⟩

/-- A transfer reaches its destination fen. A copy of one that stands there and has not been counted, sent again after a failover, is
discarded: the first is applied, and acknowledged, once (R388). -/
def Fen.arrive (f : Fen) (t : Transfer) : Fen :=
  let here := f.arriving.any (fun a => decide (a.t.key = t.key)) || f.held.any fun h => match h.1 with
    | .transfer u _ => decide (u.key = t.key)
    | .netWrite _ _ => false
    | .netRead _ _ _ _ _ => false
    | .engWrite _ _ _ _ => false
    | .engRead _ _ _ => false
    | .count _ _ _ _ => false
  if here then f else { f with arriving := f.arriving ++ [⟨t, 0⟩] }

/-- A transfer on its way: within the device, where what its destination does with it follows what its sender has done, or to a peer,
a sector a flit, each on the channel of its address (R379, R380). -/
def State.sendTransfer (s : State) (t : Transfer) : State :=
  if mDev t.member = Config.deviceNo then
    s.onFen (mFen t.member) fun f => { f.arrive t with clock := max f.clock (vget s.fens t.key.fen.val).clock }
  else
    (partsOf t.dst.toNat t.data.length).foldl (fun s p =>
      let off := p.1 - t.dst.toNat
      let bs := (t.data.drop off).take p.2
      s.sendTo (mDev t.member) (p.1 / 256 % 4) 0 (.transfer { t with data := [] } t.data.length off (sectorHeader bs 0 false) bs)) s

/-- A sector of a transfer from a peer has come; with the last one the transfer has arrived. -/
def State.transferPart (s : State) (t : Transfer) (total off : Nat) (bs : List Byte) : State :=
  let fen := mFen t.member
  let mine (c : Coming) : Bool := decide (c.t.key = t.key)
  let old := ((vget s.fens fen).coming.find? mine).elim [] (·.parts)
  let parts := if old.any fun p => decide (p.1 = off) then old else old ++ [(off, bs)]
  let data := (List.range (total / 128)).flatMap fun i => (parts.find? fun p => decide (p.1 = 128 * i)).elim [] (·.2)
  let s := s.onFen fen fun f => { f with coming := f.coming.filter fun c => !mine c }
  if total ≤ data.length then (s.onFen fen fun f => f.arrive { t with data := data }).fenSync fen
  else s.onFen fen fun f => { f with coming := f.coming ++ [⟨t, parts⟩] }

/-- Transfers of the master that are not yet acknowledged (R388). -/
def Fen.unacked (f : Fen) : Nat := (f.colls.map fun c => c.unacked.length).sum

/-- A record replaced. -/
def State.onColl (s : State) (fen : Nat) (serial : BitVec 32) (f : CollRec → CollRec) : State :=
  s.onFen fen fun x => { x with colls := mapIf (fun y => decide (y.serial = serial)) f x.colls }

/-- An active record stops with a record of the master. -/
def State.stopColl (s : State) (fen : FenNo) (c : CollRec) (f : FaultInfo) : State :=
  let s := s.met f
  (s.onColl fen.val c.serial fun y => { y with stop := some s.seq }).postStop (.coll fen c.serial)
    (s.masterRec fen.val c.poster c.ctx c.cmd f)

/-- A record stops at a transfer with FLT_PEER (R392): what was sent after it is sent again. -/
def State.stopPeer (s : State) (fen : FenNo) (c : CollRec) (pos cause : Nat) : State :=
  let c := { c with
    pos := pos, data := []
    unacked := c.unacked.filter fun i => decide (i < pos)
    refused := c.refused.filter fun x => decide (x.1 < pos) }
  (s.onColl fen.val c.serial fun _ => c).stopColl fen c ⟨0x41, cause, true, c.member, c.addr, tupleExt c.tuple⟩

/-- The next transfer, whose source has been read, is sent. -/
def State.emit (s : State) (fen : FenNo) (c : CollRec) (data : List Byte) : State :=
  (s.onColl fen.val c.serial fun y => { y with pos := c.pos + 1, data := [], unacked := y.unacked ++ [c.pos] }).sendTransfer
    (c.transfer fen data)

/-- COLL_TRANSFER_EMIT (R170, R392). The next unread part of the source of an active record's next transfer is read; with the last one
the transfer is sent, in the record's order. -/
def execCollTransferEmit (fen : FenNo) (idx : Nat) (s : State) : Out :=
  let f := vget s.fens fen.val
  .next (match f.colls[idx]? with
    | none => s
    | some c =>
      if f.master.isNone || c.stop.isSome || decide (c.total ≤ c.pos) || decide (1024 ≤ f.unacked) then s
      else
        match s.peerCause c.member with
        | some k => s.stopPeer fen c c.pos k
        | none =>
          match c.nextPart fen with
          | none => s.emit fen c (c.gather fen c.data)
          | some p =>
            match s.collPart fen c p with
            | .wait s => s
            | .fault g s => s.stopColl fen c g
            | .ok bs s =>
              let data := c.data ++ bs
              if cBytes c.record ≤ data.length then s.emit fen c (c.gather fen data) else s.onColl fen.val c.serial fun y => { y with data := data })

/-- The record of a transfer's key, where it is one of this device. -/
def State.collOf (s : State) (key : XferKey) : Option CollRec :=
  (vget s.fens key.fen.val).colls.find? fun c => decide (c.serial = key.serial)

/-- A transfer of a record has been counted at its destination (R172): with the last one the COLL has ended. -/
def State.collCounted (s : State) (key : XferKey) : State :=
  if key.dev ≠ Config.deviceNo then s.sendTo key.dev 6 0 (.counted key)
  else
    match s.collOf key with
    | none => s
    | some c =>
      let left := c.unacked.filter fun i => decide (i ≠ key.index)
      if left.isEmpty && decide (c.total ≤ c.pos) then
        (s.onFen key.fen.val fun x => { x with colls := x.colls.filter fun y => decide (y.serial ≠ c.serial) }).endRequest
          c.poster c.ctx c.cmd
      else s.onColl key.fen.val c.serial fun y => { y with unacked := left }

/-- A transfer that its destination cannot take (R330, R389): its record stops there with FLT_PEER, or, where it has stopped
already, when it goes on. -/
def State.transferRefused (s : State) (key : XferKey) (cause : Nat) : State :=
  if key.dev ≠ Config.deviceNo then s.sendTo key.dev 6 0 (.refused key cause)
  else
    match s.collOf key with
    | none => s
    | some c =>
      if !c.unacked.contains key.index || c.refused.any (fun x => decide (x.1 = key.index)) then s
      else if c.stop.isSome then s.onColl key.fen.val c.serial fun y => { y with refused := y.refused ++ [(key.index, cause)] }
      else s.stopPeer key.fen c key.index cause

/-- A record goes on after its RESUME. Of the transfers that came back while it was stopped it stops at the first. -/
def State.collGo (s : State) (fen : FenNo) (serial : BitVec 32) : State :=
  let s := s.onColl fen.val serial fun y => { y with stop := none }
  match (vget s.fens fen.val).colls.find? fun c => decide (c.serial = serial) with
  | none => s
  | some c =>
    match c.refused with
    | [] => s
    | x :: l =>
      let y := l.foldl (fun a b => if b.1 < a.1 then b else a) x
      s.stopPeer fen c y.1 y.2

/-! ### Reductions (R171, R173, R174) -/

/-- The element format of an ETYPE. -/
def redFmt (t : Nat) : Fmt := if t = 0 then .bf16 else if t = 1 then .f16 else .f32

/-- One element combined (R171): 1 SUM, 3 MAX, 4 MIN. -/
def redOne (red : Nat) (f : Fmt) (d e : Nat) : Nat :=
  if red = 1 then (rne f ((f.dec d).add (f.dec e))).1
  else if red = 3 then (minMax f true d e).1
  else (minMax f false d e).1

/-- A sector's elements combined. -/
def redBytes (red etype : Nat) (old new : List Byte) : List Byte :=
  let f := redFmt etype
  let w := f.w / 8
  let n := new.length / w
  ((wordsOf w n old).zip (wordsOf w n new)).flatMap fun p => natToBytes w (redOne red f p.1 p.2)

/-- An element folded into its bin (R173): the new bin, and OVR. -/
def binFold (f : Fmt) (sexp bin e : Nat) : Nat × Bool :=
  let coded (c : Nat) : Nat := (bin / 2 ^ 62 ||| c) * 2 ^ 62 + bin % 2 ^ 62
  match f.dec e with
  | .nan => (coded 3, false)
  | .inf neg => (coded (if neg then 2 else 1), false)
  | .fin neg m x =>
    let n := roundSig .rn neg m (x - ((sexp : Int) - 181)) false 0 0
    let k := min n (2 ^ 55 - 1)
    (bin / 2 ^ 62 * 2 ^ 62 + (bin % 2 ^ 62 + if neg then 2 ^ 62 - k else k) % 2 ^ 62, decide (2 ^ 55 - 1 < n))

/-- The result element of a bin (R174). -/
def binResult (f : Fmt) (sexp bin : Nat) : Nat :=
  match bin / 2 ^ 62 with
  | 0 => (rne f ((Val.ofInt (sgn 62 (bin % 2 ^ 62))).scale ((sexp : Int) - 181))).1
  | 1 => f.infEnc
  | 2 => f.sign + f.infEnc
  | _ => f.nan

/-- One piece at the destination of a transfer: what is there is combined with what comes. -/
def State.putPart (s : State) (t : Transfer) (fen : Nat) (f : List Byte → List Byte → List Byte) (reads : Bool) (p : Nat × Nat)
    (bs : List Byte) : Got Unit :=
  let at_ := xferPlace t p.1
  match (if reads then s.engPlain (xferAgent t fen) at_ p.2 else .ok default s) with
  | .wait s => .wait s
  | .fault g s => .fault g s
  | .ok x s => s.engWrite (xferAgent t fen) ⟨at_, f x.bytes bs, 0, false, 0, 0, 0⟩

/-- The bytes of a result stored at the transfer's destination, piece by piece. -/
def State.putParts (s : State) (t : Transfer) (fen : Nat) : List (Nat × Nat) → List Byte → Got Unit
  | [], _ => .ok () s
  | p :: ps, bs =>
    match s.putPart t fen (fun _ x => x) false p (bs.take p.2) with
    | .wait s => .wait s
    | .fault g s => .fault g s
    | .ok _ s => State.putParts s t fen ps (bs.drop p.2)

/-- SUMB: the fold into the bin block, and the conversion that the NCON-th contribution brings. The answer is whether
that contribution has come. -/
def State.sumb (s : State) (t : Transfer) (fen : Nat) : Got Bool :=
  let f := redFmt t.etype.toNat
  let w := f.w / 8
  let n := t.data.length / w
  let base := (binBlock t n t.data.length).1
  match s.readPlain fen none t.ctx.toNat base (128 + 8 * n) with
  | .error e => .fault e.1 e.2
  | .ok (bs, s) =>
    let head := bytesToNat (bs.take 8)
    let folded := ((wordsOf 8 n (bs.drop 128)).zip (wordsOf w n t.data)).map fun p => binFold f t.sexp.toNat p.1 p.2
    let overrun := folded.any (·.2) || decide (head / 2 ^ 32 % 2 = 1)
    let count := head % 2 ^ 32 + 1
    let done := decide (count = t.ncon.toNat)
    let block := if done then List.replicate (128 + 8 * n) 0
      else natToBytes 8 (count + b2n overrun * 2 ^ 32) ++ (bs.drop 8).take 120 ++ folded.flatMap fun b => natToBytes 8 b.1
    let res := folded.flatMap fun b => natToBytes w (binResult f t.sexp.toNat b.1)
    match (if done then s.putParts t fen (partsOf t.dst.toNat res.length) res else .ok () s) with
    | .wait s => .wait s
    | .fault g s => .fault g s
    | .ok _ s =>
      match s.writeVirt fen none t.ctx.toNat base block 0 with
      | .error e => .fault e.1 e.2
      | .ok s => .ok done s

/-- The pieces of a transfer that combines piece by piece, in the order in which they land: R137 leaves it open. -/
def xferOrder (t : Transfer) : List (Nat × Nat) := shuffle (Config.landPick t.key) (partsOf t.dst.toNat t.data.length)

/-- The next step of a transfer of which `landed` pieces have landed (R171): a piece, or, after the last one, the increment of the
member's counter, whose amount is the answer. A SUMB folds all at once (R173, R174; DESIGN CHOICE, log entry 96); one that is not the
last contribution raises no counter. -/
def State.applyPiece (s : State) (fen : Nat) (t : Transfer) (landed : Nat) : Got (Option Nat) :=
  let red := t.red.toNat
  if red = 2 then
    if 1 ≤ landed then .ok (some t.ncon.toNat) s
    else
      match s.sumb t fen with
      | .wait s => .wait s
      | .fault g s => .fault g s
      | .ok done s => .ok (if done then none else some 0) s
  else
    match (xferOrder t)[landed]? with
    | none => .ok (some 1) s
    | some p =>
      let bs := (t.data.drop (p.1 - t.dst.toNat)).take p.2
      match (if red = 0 then s.putPart t fen (fun _ x => x) false p bs
        else s.putPart t fen (redBytes red t.etype.toNat) true p bs) with
      | .wait s => .wait s
      | .fault g s => .fault g s
      | .ok _ s => .ok none s

/-- The core whose counter a transfer raises: a compute core, or the newt that is master (R168). -/
def State.memberKey (s : State) (fen : Nat) (m : Word) : CoreKey :=
  if mNewt m then newtKey fen (((vget s.fens fen).master).getD 132) else 128 * fen + mCore m

/-- A member's counter rises. Where the master also runs the conductors, the counter of the context's conductor is meant, which
may stand in its image (R30, R349). -/
def State.countMember (s : State) (k : CoreKey) (ctx : BitVec 6) (aci : BitVec 5) (n : Nat) : State :=
  let up (c : Core) : Core := c.landDue.countUp aci.toNat n
  let lone := isNewtKey k && (vget s.fens (fenOfKey k)).standby.isNone
  if lone && !s.serving k && (s.poster k ctx).isSome then s.onPoster k ctx up else s.onCore k up

/-- The keys a master remembers: the last 65,536 of each source fen (R388). -/
def seenAdd (l : List XferKey) (k : XferKey) : List XferKey :=
  let same (x : XferKey) : Bool := decide (x.dev = k.dev) && decide (x.fen = k.fen)
  k :: (l.filter same).take 65535 ++ l.filter fun x => !same x

/-- The transfer is waiting for the RESUME of a fault that it met. -/
def State.transferStopped (s : State) (k : XferKey) : Bool := s.await.any fun a => decide (a.who = .transfer k)

/-- The cause with which a fen cannot take a transfer: it has no master, or the member has no live site (R330, R389). -/
def State.arrivalCause (s : State) (fen : Nat) (m : Word) : Option Nat :=
  if (vget s.fens fen).master.isNone then some 2
  else if !mNewt m && s.noSite fen (mCore m) then some 3
  else none

/-- The next step of a transfer at its destination: a piece lands, or, after the last one, the member's counter rises and the transfer
is counted at its record. A piece that faults is performed again after the RESUME, those before it are not (R372). A transfer that the
fen can no longer take is refused (R330, R389). `keep`: the transfer with one piece more landed. -/
def State.landTransfer (s : State) (fen : Nat) (t : Transfer) (landed : Nat) (keep drop : State → State) : State :=
  match s.arrivalCause fen t.member with
  | some c => (drop s).transferRefused t.key c
  | none =>
    match s.applyPiece fen t landed with
    | .wait _ => s
    | .fault f s' =>
      (s'.met f).postStop (.transfer t.key)
        { eventRec f.code f.cause t.ctx.toNat (((vget s.fens fen).master).getD 132) f.i0 f.i1 with
          repl := f.repl, agent := 6, fen := BitVec.ofNat 5 fen, ext := BitVec.ofNat 160 f.ext }
    | .ok none s => keep s
    | .ok (some n) s =>
      let s := (drop s).onFen fen fun x => { x with seen := seenAdd x.seen t.key }
      (s.countMember (s.memberKey fen t.member) t.ctx t.aci n).collCounted t.key

/-- A member is a core that is saved or that runs no task of the context (R330, R351): a compute core whose window is closed to
it, or the newt that runs the conductors of the context being saved. -/
def State.memberClosed (s : State) (fen : Nat) (m : Word) (ctx : BitVec 6) : Bool :=
  let x := vget s.ctxs ctx.toNat
  if mNewt m then decide (x.pst ≠ 0) && decide (x.home.toNat = fen) && (vget s.fens fen).standby.isNone
  else !s.windowOpen (128 * fen + mCore m) 8192 ctx

/-- A transfer that arrives behind others of its context that are held for its member is held too. -/
def State.memberHeld (s : State) (fen : Nat) (m : Word) (ctx : BitVec 6) : Bool :=
  (vget s.fens fen).held.any fun h => decide (h.1.target fen = memberHoldKey fen m) && decide (h.1.ctx = ctx)

/-- A transfer that arrived after the one at an index, for the same member and context, has landed in part too. -/
def Fen.partBehind (f : Fen) (fen idx : Nat) (t : Transfer) : Bool :=
  (f.arriving.drop (idx + 1)).any fun y =>
    decide (y.landed ≠ 0) && decide (memberHoldKey fen y.t.member = memberHoldKey fen t.member) && decide (y.t.ctx = t.ctx)

/-- TRANSFER_ARRIVE (R171, R330, R388). A transfer that has reached its destination fen is acknowledged again and discarded if
its key is known, refused if it can never land, held if its member is not running, and lands otherwise, a piece at a time. One that
has landed in part came before all that are held for its member: of several, the last goes in front of those first. -/
def execTransferArrive (fen : FenNo) (idx : Nat) (s : State) : Out :=
  let f := vget s.fens fen.val
  .next (match f.arriving[idx]? with
    | none => s
    | some a =>
      let t := a.t
      let drop (s : State) : State := s.onFen fen.val fun x => { x with arriving := x.arriving.eraseIdx idx }
      let keep (s : State) : State := s.onFen fen.val fun x => { x with arriving := x.arriving.set idx { a with landed := a.landed + 1 } }
      if f.seen.contains t.key then (drop s).collCounted t.key
      else if a.landed ≠ 0 ∧ s.memberClosed fen.val t.member t.ctx then
        if f.partBehind fen.val idx t then s else (drop s).holdFirst fen.val (.transfer t a.landed)
      else if s.transferStopped t.key then s
      else if a.landed = 0 ∧ (s.arrivalCause fen.val t.member).isSome then
        (drop s).transferRefused t.key ((s.arrivalCause fen.val t.member).getD 0)
      else if a.landed = 0 ∧ (s.memberClosed fen.val t.member t.ctx || s.memberHeld fen.val t.member t.ctx) then
        (drop s).holdAt fen.val (.transfer t 0)
      else s.landTransfer fen.val t a.landed keep drop)

/-! ### Held transfers and window accesses (R330, R351, R352, R393) -/

/-- The engine of a held access has been stopped on a record: of a core's, its sequencer (R339). -/
def State.srcStopped (s : State) : EngSrc → Bool
  | .cmd k id => ((s.getCore k).cmd id).elim false (s.getCore k).seqStopped
  | .node d e => (vget (vget s.dies d.val).engines e.val).elim false (·.cmd.stop.isSome)

/-- The core that an access belongs to is on its site: a conductor may be changed out. -/
def State.srcHere (s : State) (k : CoreKey) (ctx : BitVec 6) : Bool :=
  !isNewtKey k || (decide ((s.getCore k).status ≠ .idle) && decide ((s.getCore k).ctx = ctx))

/-- The engine's core is on its site; a copy engine always is. -/
def State.engHere (s : State) (ctx : BitVec 6) : EngSrc → Bool
  | .cmd k _ => s.srcHere k ctx
  | .node _ _ => true

/-- A freeze holds the sequencers of the engine's core (R46): they read no further element. -/
def State.srcFrozen (s : State) : EngSrc → Bool
  | .cmd k _ => s.enginesHeld (s.getCore k)
  | .node _ _ => false

/-- The item can be delivered: a task of its context runs on its core, and what it belongs to can take it. -/
def State.heldOpen (s : State) (fen : Nat) : HeldItem → Bool
  | .transfer t _ => (s.arrivalCause fen t.member).isSome || (!s.memberClosed fen t.member t.ctx && !s.transferStopped t.key)
  | .netWrite k w => s.windowOpen k w.srcKey w.ctx && s.srcHere w.srcKey w.ctx
  | .netRead k src _ _ ctx => s.windowOpen k src ctx && s.srcHere src ctx
  | .engWrite k src ctx _ => s.windowOpen k 8192 ctx && !s.srcStopped src && s.engHere ctx src
  | .engRead k src ctx => s.windowOpen k 8192 ctx && !s.srcStopped src && s.engHere ctx src && !s.srcFrozen src
  | .count k ctx _ _ =>
    if isNewtKey k then !s.memberClosed fen (BitVec.ofNat 64 (2 ^ 18)) ctx else s.windowOpen k 8192 ctx

/-- A held transfer that its fen can no longer take: it is not held, whatever stands before it (R330). -/
def State.heldRefused (s : State) (fen : Nat) : HeldItem → Bool
  | .transfer t _ => (s.arrivalCause fen t.member).isSome
  | .netWrite _ _ => false
  | .netRead _ _ _ _ _ => false
  | .engWrite _ _ _ _ => false
  | .engRead _ _ _ => false
  | .count _ _ _ _ => false

/-- Nothing of its context that arrived earlier is held for the same core. -/
def Fen.firstHeld (f : Fen) (fen idx : Nat) (h : HeldItem) : Bool :=
  (f.held.take idx).all fun x => decide (x.1.target fen ≠ h.target fen) || decide (x.1.ctx ≠ h.ctx)

/-- A counter raised by one after an exchange's data, and its close flit acknowledged (R179). -/
def State.countNow (s : State) (k : CoreKey) (ctx : BitVec 6) (aci : BitVec 5) (ack : Option XferKey) : State :=
  let s := s.countMember k ctx aci 1
  ack.elim s fun key => s.sendTo key.dev 6 0 (.closeCounted key)

/-- The agent of an engine whose held access is delivered to core k. -/
def EngSrc.agent (src : EngSrc) (fen : Nat) (ctx : BitVec 6) (k : CoreKey) : Agent :=
  ⟨fen, match src with
    | .cmd c _ => some c
    | .node _ _ => none, ctx, some src, some k, false⟩

/-- An engine's write that is delivered meets a fault: the engine stops at its element (R340), and the write stays held until it goes
on. -/
def State.stopSrc (s : State) (src : EngSrc) (w : EngPost) (f : FaultInfo) : State :=
  match src with
  | .cmd k id => ((s.getCore k).cmd id).elim s fun x => s.stopCmd k x (x.stopAt w f)
  | .node d e => (vget (vget s.dies d.val).engines e.val).elim s fun j => s.stopJob d e j (j.cmd.stopAt w f)

/-- The element of an engine that a held read has kept waiting goes on. -/
def State.runSrc (s : State) (src : EngSrc) (through : CoreKey) : State :=
  match src with
  | .cmd k id => s.elementRun k id (some through) .next
  | .node d e => s.copyRun d e (some through) .next

/-- A held item is delivered, as if it had just arrived; of a transfer, its next piece. -/
def State.deliverHeld (s : State) (fen idx : Nat) : State :=
  let f := vget s.fens fen
  match f.held[idx]? with
  | none => s
  | some (h, noted) =>
    let drop (s : State) : State := s.onFen fen fun x => { x with held := x.held.eraseIdx idx }
    if !s.heldOpen fen h || !(f.firstHeld fen idx h || s.heldRefused fen h) then s
    else
      match h with
      | .transfer t n =>
        if f.seen.contains t.key then (drop s).collCounted t.key
        else
          let keep (s : State) : State := s.onFen fen fun x => { x with held := x.held.set idx (.transfer t (n + 1), noted) }
          s.landTransfer fen t n keep drop
      | .netWrite k w =>
        (drop s).landNet k w ((drop s).onCore k fun x => { x with sp := { x.sp with fifoHeld := x.sp.fifoHeld ++ [w] } })
      | .netRead k src a p _ =>
        let off := (((s.getCore src).access a).bind fun x => x.pieces[p]?).elim (0, 0) fun x => (x.addr.toNat % 2 ^ 20, x.len)
        (drop s).serveRead k off.1 off.2 src a p
      | .engWrite k src ctx w =>
        match s.engWrite (src.agent fen ctx k) w with
        | .wait _ => s
        | .fault g _ => s.stopSrc src w g
        | .ok _ s => drop s
      | .engRead k src _ => (drop s).runSrc src k
      | .count k ctx aci ack => (drop s).countNow k ctx aci ack

/-- HELD_TRANSFER_DELIVER (R330, R352). -/
def execHeldTransferDeliver (fen : FenNo) (idx : Nat) (s : State) : Out := .next (s.deliverHeld fen.val idx)

/-- XHOLD (R385, R393). A transfer, or the increment that follows one, that is still held posts one event and stays held. LCORE of a newt
is 0xFFF. -/
def execXhold (fen : FenNo) (idx : Nat) (s : State) : Out :=
  let lcore (k : CoreKey) : Nat := if isNewtKey k then 0xFFF else k
  let note (h : HeldItem) (ctx : BitVec 6) : State :=
    (s.onFen fen.val fun x => { x with held := x.held.set idx (h, true) }).post
      (eventRec 0x4D 0 ctx.toNat (fen.val / 5) (BitVec.ofNat 64 (lcore (h.target fen.val))) (ctx.setWidth 64))
  .next (match (vget s.fens fen.val).held[idx]? with
    | some (h, false) =>
      match h with
      | .transfer t _ => note h t.ctx
      | .count _ ctx _ _ => note h ctx
      | .netWrite _ _ => s
      | .netRead _ _ _ _ _ => s
      | .engWrite _ _ _ _ => s
      | .engRead _ _ _ => s
    | some (_, true) => s
    | none => s)

end Sys2Proof.Machine
end

