-- ==== Sys2Proof/Machine/Exchange.lean ====
section
/-! DEFINITION. Demand-driven exchange (R175 to R179, R394 to R397): demand posts, the skink and its calendars, phases and
close flits; and the master's taking of mailbox entries (R166). -/

namespace Sys2Proof.Machine

/-! ### Demand vectors (R175) -/

abbrev Demand := BitVec 2560

def vMask (v : Demand) : BitVec 64 := v.extractLsb' 0 64
def vXid (v : Demand) : BitVec 16 := v.extractLsb' 64 16
def vAci (v : Demand) : BitVec 5 := v.extractLsb' 80 5
def vCal (v : Demand) : Nat := bits v 184 128
def vSbuf (v : Demand) : Nat := bits v 248 192
def vRbuf (v : Demand) : Nat := bits v 312 256
def vSstr (v : Demand) : Nat := bits v 351 320
def vOwner (v : Demand) : Word := v.extractLsb' 352 64
def vCount (v : Demand) (k : Nat) : BitVec 32 := v.extractLsb' (512 + 32 * k) 32
def vCounts (v : Demand) : List (BitVec 32) := (List.range 64).map (vCount v)

/-- The members of a mask, by rank. -/
def maskDevs (m : BitVec 64) : List DevNo := ((List.range 64).filter fun k => bit m k).map (BitVec.ofNat 6)

/-- The rank of a device. -/
def rankOf (m : BitVec 64) (d : DevNo) : Nat := (maskDevs m).findIdx fun x => decide (x = d)

/-- A field breaks R175, or COUNTk is nonzero for k ≥ N. -/
def demandBad (at_ : Word) (v : Demand) : Bool :=
  let n := (maskDevs (vMask v)).length
  let o := vOwner v
  decide (at_.toNat % 64 ≠ 0) || decide (bits v 511 416 ≠ 0) || decide (bits v 319 313 ≠ 0) || decide (bits v 255 249 ≠ 0)
    || decide (bits v 191 185 ≠ 0) || decide (bits v 127 85 ≠ 0) || decide (vRbuf v % 128 ≠ 0) || decide (vSbuf v % 128 ≠ 0)
    || decide (vCal v % 64 ≠ 0) || decide (vSstr v % 128 ≠ 0) || decide (bits o 63 19 ≠ 0) || decide (30 ≤ mFen o)
    || decide (mDev o ≠ Config.deviceNo) || (!mNewt o && decide (15 < (vAci v).toNat))
    || (List.range 64).any fun k => decide (n ≤ k) && decide (vCount v k ≠ 0)

/-- Two exchanges are one (R388: a serial is given once in a fen). -/
def Exch.same (e x : Exch) : Bool := decide (x.fen = e.fen) && decide (x.serial = e.serial)

/-- An exchange of this device replaced, and as it stands now. -/
def State.onExch (s : State) (e : Exch) (f : Exch → Exch) : State := { s with exchs := mapIf e.same f s.exchs }
def State.exchNow (s : State) (e : Exch) : Option Exch := s.exchs.find? e.same

/-- The skink of this device works: it is on die 0 (R28, R396). -/
def State.skinkOn (s : State) : Bool := !s.dieLost 0

/-- A device of the domain that is not lost. -/
def State.liveDev (s : State) (d : DevNo) : Bool := inDomain d && !s.lostPeers.contains d

/-- The first standby of a skink: the next live device in ascending order, wrapping around (R396). -/
def State.standbyOf (s : State) (d : DevNo) : Option DevNo :=
  ((List.range 63).map fun i => d + BitVec.ofNat 6 (i + 1)).find? s.liveDev

/-- An exchange of a key. -/
def XPend.of (ctx : BitVec 6) (xid : BitVec 16) (p : XPend) : Bool := decide (p.ctx = ctx) && decide (p.xid = xid)

/-- The exchange of a key that still collects posts. -/
def Skink.open_ (k : Skink) (ctx : BitVec 6) (xid : BitVec 16) : Option XPend :=
  k.pending.find? fun p => p.of ctx xid && p.issue.isNone

/-- The cause with which a skink refuses a post of a key whose MASK is fixed (R394). -/
def Skink.refuses (k : Skink) (dev : DevNo) (ctx : BitVec 6) (xid : BitVec 16) (mask : BitVec 64) : Option Nat :=
  match k.open_ ctx xid with
  | none => if bit mask dev.toNat then none else some 2
  | some p => if p.mask ≠ mask then some 1 else if bit mask dev.toNat then none else some 2

/-- The cause of a refused post (R394); another device's skink sends the cause that rests on the fixed MASK. -/
def State.demandCause (s : State) (at_ : Word) (ctx : BitVec 6) (v : Demand) : Option Nat :=
  let here := if s.skink.active = Config.deviceNo then s.skink.refuses Config.deviceNo ctx (vXid v) (vMask v) else none
  if here.isSome then here
  else if !bit (vMask v) Config.deviceNo.toNat then some 2
  else if demandBad at_ v then some 3
  else none

/-- An accepted post joins the exchange of its key, which the first one begins. -/
def Skink.add (k : Skink) (dev : DevNo) (ctx : BitVec 6) (xid : BitVec 16) (mask : BitVec 64) (counts : List (BitVec 32)) :
    Skink :=
  match k.open_ ctx xid with
  | none => { k with pending := k.pending ++ [⟨ctx, xid, mask, [(dev, counts)], false, none, false, false, false⟩] }
  | some _ =>
    let put (x : XPend) : XPend := { x with posts := (x.posts.filter fun y => decide (y.1 ≠ dev)) ++ [(dev, counts)] }
    { k with pending := mapIf (fun p => p.of ctx xid && p.issue.isNone) put k.pending }

/-- The active skink accepts a post, and forwards it to the first standby (R396). -/
def State.skinkAccept (s : State) (dev : DevNo) (ctx : BitVec 6) (xid : BitVec 16) (mask : BitVec 64)
    (counts : List (BitVec 32)) : State :=
  let s := { s with skink := s.skink.add dev ctx xid mask counts }
  (s.standbyOf Config.deviceNo).elim s fun d => s.sendTo d 7 0 (.skinkForward dev ctx xid mask counts)

/-- A post belongs to an exchange whose calendar data the skink holds, or, sent again, to one whose calendars it has written: its
master has sent it again (R397), and its calendar is on the way. `prior`: GEN of the poster's last calendar of the key, which tells
it from a post of the exchange after (DESIGN CHOICE, log entry 120). -/
def Skink.posted (k : Skink) (dev : DevNo) (ctx : BitVec 6) (xid : BitVec 16) (prior : BitVec 32) (again : Bool) : Bool :=
  (k.pending.any fun p => p.of ctx xid && p.issue.elim false fun x => decide (x.gen ≠ prior))
    || again && k.done.any fun y => decide (y.1 = ctx) && decide (y.2.1 = xid) && bit y.2.2.1 dev.toNat && decide (y.2.2.2 ≠ prior)

/-- A post of this device goes to the active skink: its first time, or again (R397). -/
def State.postSkink (s : State) (ctx : BitVec 6) (v : Demand) (prior : BitVec 32) (again : Bool) : State :=
  if s.skink.active = Config.deviceNo then
    if s.skinkOn && !s.skink.posted Config.deviceNo ctx (vXid v) prior again then
      s.skinkAccept Config.deviceNo ctx (vXid v) (vMask v) (vCounts v)
    else s
  else s.sendTo s.skink.active 7 0 (.skinkPost ctx (vXid v) (vMask v) prior again (vCounts v))

/-- A post of another device reaches this device's skink, which accepts or refuses it. -/
def State.skinkPosted (s : State) (src : DevNo) (ctx : BitVec 6) (xid : BitVec 16) (mask : BitVec 64)
    (prior : BitVec 32) (again : Bool) (counts : List (BitVec 32)) : State :=
  if s.skink.active ≠ Config.deviceNo ∨ !s.skinkOn ∨ s.skink.posted src ctx xid prior again then s
  else
    match s.skink.refuses src ctx xid mask with
    | some c => s.sendTo src 7 0 (.postRefused ctx xid c)
    | none => s.skinkAccept src ctx xid mask counts

/-- FLT_XCHG (R385). -/
def xchgFault (at_ : Word) (xid : BitVec 16) (cause : Nat) : FaultInfo := ⟨0x42, cause, true, at_, xid.setWidth 64, 0⟩

/-- A calendar's sources: the ranks with a nonzero grant to this device. -/
def calSources (c : Calendar) : List Nat := (c.phases.filter fun p => decide (p.recvq ≠ 0)).map (·.src)

/-- Nothing more is to come for an exchange: its DPOST has ended, and every source is closed. -/
def Exch.over (e : Exch) : Bool := e.finished && (e.cal.elim [] calSources).all fun r => setHas r e.closed

/-- The vector is read once, and its post sent or refused with FLT_XCHG; a refused vector is read again (R394). -/
def State.dpostTake (s : State) (fen : FenNo) (e : MbEntry) : Served :=
  let r := s.readOn fen.val e.ctx.toNat (fun got => if got.isEmpty then some (e.arg, 320) else none) 2 e.got
  let s := r.2.2
  match r.2.1 with
  | some f => .stop f r.1 s
  | none =>
    let v : Demand := bitsOf 2560 (r.1.headD [])
    match s.demandCause e.arg e.ctx v with
    | some c => .stop (xchgFault e.arg (vXid v) c) [] s
    | none =>
      let key (x : Exch) : Bool := decide (x.ctx = e.ctx) && decide (x.xid = vXid v)
      let prior := ((s.exchs.reverse.find? key).bind (·.cal)).elim 0 (·.gen)
      let x : Exch := ⟨fen, e.ctx, vXid v, e.poster, e.cmd, e, prior, (vget s.fens fen.val).serial, v, none, none, 0, [], [], [],
        [], [], [], [], [], [], [], false⟩
      let s := { s with exchs := (s.exchs.filter fun y => !(key y && y.over)) ++ [x] }
      .ok ((s.onFen fen.val fun f => { f with serial := f.serial + 1 }).postSkink e.ctx v prior false)

/-! ### Taking entries (R166) -/

/-- A DPOST whose XID an earlier one of this device still uses is held in the mailbox (R175): one whose exchange has not ended or
whose token is not DONE yet, or one that stands refused or stopped. A DPOST of another context is another exchange (R394), and holds nothing (DEDUCED,
log entry 97). -/
def State.dpostHeld (s : State) (fen : Nat) (e : MbEntry) : Bool :=
  decide (mbKind e.bits = 2) && (s.entryXid fen e).elim false fun xid =>
    (s.exchOf e.ctx xid).elim false (fun x => !x.finished || ((s.poster x.poster x.ctx).bind fun c => c.cmd x.cmd).isSome)
      || s.fens.toList.zipIdx.any fun f => f.1.reading.any fun y =>
        !(decide (y.poster = e.poster) && decide (y.cmd = e.cmd)) && s.postsAs f.2 e.ctx xid y

/-- An entry of kind 1 to 4 is served; where a read or a check stops it, the master posts a record and keeps it. -/
def State.serve (s : State) (fen : FenNo) (e : MbEntry) : State :=
  let r := match mbKind e.bits with
    | 1 => s.collTake fen.val e
    | 2 => s.dpostTake fen e
    | 3 => s.leaseTake fen.val e
    | _ => s.lrelTake fen.val e
  match r with
  | .ok s => s
  | .stop f got s =>
    (s.onFen fen.val fun x => { x with reading := x.reading ++ [{ e with got := got, stop := some s.seq }] }).postStop
      (.entry fen e.poster e.cmd) (s.masterRec fen.val e.poster e.ctx e.cmd f)

/-- The master can serve the entry: eight records are active at most (R170). -/
def State.mayServe (s : State) (fen : Nat) (e : MbEntry) : Bool :=
  (!decide (mbKind e.bits = 1) || decide ((vget s.fens fen).colls.length < 8)) && !s.dpostHeld fen e

/-- MAILBOX_TAKE (R166, R170). An entry whose stop is resumed is served again; otherwise the oldest entry of kind 1 to 4 leaves
the mailbox and is served. -/
def execMailboxTake (fen : FenNo) (s : State) : Out :=
  let f := vget s.fens fen.val
  .next (if f.master.isNone then s
    else
      match f.reading.findIdx? fun e => e.stop.isNone && s.mayServe fen.val e with
      | some i => (s.onFen fen.val fun x => { x with reading := x.reading.eraseIdx i }).serve fen (f.reading.getD i default)
      | none =>
        match f.mailbox.findIdx? fun e => decide (mbKind e.bits ≠ 0) && !s.dpostHeld fen.val e with
        | none => s
        | some i =>
          let e := f.mailbox.getD i default
          if s.mayServe fen.val e then (s.onFen fen.val fun x => { x with mailbox := x.mailbox.eraseIdx i }).serve fen e else s)

/-! ### The calendar (R176) -/

abbrev Matrix := List (List Nat)

def mAt (m : Matrix) (i j : Nat) : Nat := (m.getD i []).getD j 0
def mSet (m : Matrix) (i j v : Nat) : Matrix := m.set i ((m.getD i []).set j v)

/-- The quantum matrix: 16 KiB each. -/
def quanta (n : Nat) (counts : List (List (BitVec 32))) : Matrix :=
  (List.range n).map fun i => (List.range n).map fun j =>
    if i = j then 0 else (((counts.getD i []).getD j 0).toNat + 16383) / 16384

def rowSum (m : Matrix) (i : Nat) : Nat := (m.getD i []).sum
def colSum (m : Matrix) (j : Nat) : Nat := (m.map fun r => r.getD j 0).sum

/-- The greatest row or column sum. -/
def maxSum (n : Nat) (m : Matrix) : Nat :=
  (List.range n).foldl (fun a i => max a (max (rowSum m i) (colSum m i))) 0

/-- Padding, diagonal included. -/
def padded (n : Nat) (d : Matrix) : Matrix :=
  let top := maxSum n d
  let rd := (List.range n).map fun i => top - rowSum d i
  let cd := (List.range n).map fun j => top - colSum d j
  ((List.range n).foldl
    (fun (st : Matrix × List Nat × List Nat) i =>
      (List.range n).foldl
        (fun (st : Matrix × List Nat × List Nat) j =>
          let a := min (st.2.1.getD i 0) (st.2.2.getD j 0)
          (mSet st.1 i j (mAt st.1 i j + a), st.2.1.set i (st.2.1.getD i 0 - a), st.2.2.set j (st.2.2.getD j 0 - a)))
        st)
    (d, rd, cd)).1

/-- A matching being built: for each column the row matched to it, and the columns seen. -/
structure Matching where
  col : List (Option Nat)
  seen : List Bool
  deriving DecidableEq, Repr, Inhabited

/-- try(i) of R176; the depth is at most the number of columns. -/
def tryRow (p : Matrix) (n : Nat) : Nat → Nat → Matching → Bool × Matching
  | 0, _, m => (false, m)
  | fuel + 1, i, m =>
    (List.range n).foldl
      (fun (st : Bool × Matching) j =>
        let m := st.2
        if st.1 || mAt p i j = 0 || m.seen.getD j false then st
        else
          let m := { m with seen := m.seen.set j true }
          match m.col.getD j none with
          | none => (true, { m with col := m.col.set j (some i) })
          | some r =>
            let t := tryRow p n fuel r m
            if t.1 then (true, { t.2 with col := t.2.col.set j (some i) }) else (false, t.2))
      (false, m)

/-- The matching of a phase: for each column, its row. -/
def matching (p : Matrix) (n : Nat) : List (Option Nat) :=
  ((List.range n).foldl (fun (m : Matching) i => (tryRow p n (n + 1) i { m with seen := List.replicate n false }).2)
    ⟨List.replicate n none, []⟩).col

/-- One phase of the whole exchange: its length, and for each row its column and real quanta. -/
structure Round where
  len : Nat
  send : List (Nat × Nat)
  deriving DecidableEq, Repr, Inhabited

/-- The loop of R176. -/
def rounds (n : Nat) : Nat → Matrix → Matrix → List Round
  | 0, _, _ => []
  | fuel + 1, p, rem =>
    if p.all fun r => r.all fun x => decide (x = 0) then []
    else
      let col := (matching p n).zipIdx.filterMap fun x => x.1.map fun i => (i, x.2)
      let len := col.foldl (fun (l : Option Nat) x =>
        let v := mAt p x.1 x.2
        some (l.elim v (min v))) none |>.getD 0
      let send := (List.range n).map fun i =>
        let j := (col.find? fun x => decide (x.1 = i)).elim 0 (·.2)
        (j, min len (mAt rem i j))
      let p := col.foldl (fun p x => mSet p x.1 x.2 (mAt p x.1 x.2 - len)) p
      let rem := col.foldl (fun r x => mSet r x.1 x.2 (mAt r x.1 x.2 - min len (mAt r x.1 x.2))) rem
      ⟨len, send⟩ :: rounds n fuel p rem

/-- The phases of an exchange of N members. -/
def roundsOf (n : Nat) (d : Matrix) : List Round := rounds n (n * n + 2) (padded n d) d

/-- The phases as one member's calendar shows them (R177). -/
def phasesFor (rs : List Round) (rank : Nat) : List Phase :=
  rs.map fun r =>
    let out := r.send.getD rank (0, 0)
    let src := r.send.findIdx? fun x => decide (x.1 = rank) && decide (x.2 ≠ 0)
    ⟨r.len, src.elim 0 fun i => (r.send.getD i (0, 0)).2, out.2, src.getD 0xFF, if out.2 = 0 then 0xFF else out.1⟩

/-! ### Writing a calendar (R177, R178) -/

/-- The first 64 bytes of a calendar. -/
def calHeader (c : Calendar) (xid : BitVec 16) : Nat :=
  xid.toNat + c.gen.toNat * 2 ^ 32 + c.phases.length % 4096 * 2 ^ 64 + c.rank % 64 * 2 ^ 76 + (c.n - 1) % 64 * 2 ^ 82
    + calNsrc c % 128 * 2 ^ 88 + c.slot.toNat * 2 ^ 96 + c.t0.toNat * 2 ^ 128
    + (c.phases.map (·.recvq)).sum % 2 ^ 24 * 2 ^ 192

/-- A phase entry. -/
def calEntry (p : Phase) : Nat :=
  p.dst % 256 + p.src % 256 * 2 ^ 8 + p.sendq % 2 ^ 24 * 2 ^ 16 + p.recvq % 2 ^ 24 * 2 ^ 40 + p.len % 2 ^ 24 * 2 ^ 64

/-- The GWAITs of a core that wait for an XID receive the grant word; in an image they complete at once (R351). -/
def Core.grantWaits (c : Core) (image : Bool) (xid : BitVec 16) (v : Word) : Core :=
  c.pipes.cmds.foldl
    (fun c x =>
      if x.op = .gwait ∧ x.started ∧ !x.finished ∧ x.xid = xid then
        let c := c.grantTo x.id v
        if image then c.completeCmd x.id else c
      else c) c

/-- Every GWAIT of the context that waits for an XID. -/
def State.grantAll (s : State) (ctx : BitVec 6) (xid : BitVec 16) (v : Word) : State :=
  let live (c : Core) : Core := if c.ctx = ctx then c.grantWaits false xid v else c
  let saved (y : SavedSlot) : SavedSlot := { y with core := y.core.grantWaits true xid v }
  let s := { s with core := live s.core, cores := s.cores.map live }
  let s := s.onCtx ctx.toNat fun x => { x with saved := x.saved.map saved }
  { s with fens := s.fens.map fun f => { f with
      conductors := mapIf (fun d => decide (d.ctx = ctx)) (fun d => { d with image := d.image.map saved }) f.conductors } }

/-- The device of a rank. -/
def Exch.dev (e : Exch) (k : Nat) : DevNo := (maskDevs (vMask e.vector)).getD k 0

/-- A phase sends something: to a rank that the exchange has not lost (R395). -/
def Exch.phaseSends (e : Exch) (p : Phase) : Bool := decide (p.sendq ≠ 0) && !e.lost.contains (e.dev p.dst)

/-- The DPOST has ended once no phase is left that sends, and every quantum and close flit that was sent has been acknowledged (R179). -/
def State.exchEnd (s : State) (e : Exch) : State :=
  match s.exchNow e with
  | none => s
  | some x =>
    if !x.finished && x.closes.isEmpty && x.unacked.isEmpty && x.again.isEmpty
        && (x.cal.elim false fun c => !(c.phases.drop x.next).any x.phaseSends) then
      (s.onExch x fun x => { x with finished := true }).endRequest x.poster x.ctx x.cmd
    else s

/-- An exchange stands still: its master is stopped on a record of it, or its fen has no master (R389). -/
def State.exchStopped (s : State) (e : Exch) : Bool :=
  (vget s.fens e.fen.val).master.isNone || s.await.any fun a => decide (a.who = .exch e.poster e.cmd)

/-- An access of an exchange stops the master's DPOST with a record. -/
def State.stopExch (s : State) (e : Exch) (f : FaultInfo) : State :=
  (s.met f).postStop (.exch e.poster e.cmd) (s.masterRec e.fen.val e.poster e.ctx e.cmd f)

/-- The calendar of an exchange is written, and the GWAITs of its XID complete. -/
def State.writeCalendar (s : State) (e : Exch) (c : Calendar) : Tried State :=
  let ctx := e.ctx.toNat
  let base := BitVec.ofNat 64 (vCal e.vector)
  match s.writeVirt e.fen.val none ctx base (natToBytes 64 (calHeader c e.xid)) 0 with
  | .error f => .error f
  | .ok s =>
    match s.writeVirt e.fen.val none ctx (base + 576) (c.phases.flatMap fun p => natToBytes 16 (calEntry p)) 0 with
    | .error f => .error f
    | .ok s => .ok ((s.onExch e fun x => { x with cal := some c, calDue := none }).grantAll e.ctx e.xid (calGrant c e.xid))

/-! ### What an exchange writes at this device (R179, R395) -/

/-- A RES word written. -/
def State.writeRes (s : State) (e : Exch) (k v : Nat) : Tried State :=
  s.writeVirt e.fen.val none e.ctx.toNat (BitVec.ofNat 64 (vCal e.vector + 320 + 4 * k)) (natToBytes 4 v) 0

/-- The receive offset of a source rank. -/
def recvOff (c : Calendar) (rank : Nat) : Nat :=
  16384 * ((c.phases.filter fun p => decide (p.src < rank)).map (·.recvq)).sum

/-- The bytes received from a rank so far. -/
def Exch.got (e : Exch) (rank : Nat) : Nat := ((e.received.filter fun x => decide (x.1 = rank)).map fun x => x.2.2).sum

/-- A sector of a rank's quanta has been written. -/
def Exch.has (e : Exch) (rank off : Nat) : Bool := e.received.any fun x => decide (x.1 = rank) && decide (x.2.1 = off)

/-- RCV of a source rank written. -/
def State.writeRcv (s : State) (e : Exch) (rank : Nat) (v : BitVec 32) : Tried State :=
  s.writeVirt e.fen.val none e.ctx.toNat (BitVec.ofNat 64 (vCal e.vector + 64 + 4 * rank)) (bvBytes v) 0

/-- An arrival counter of the owner rises by one, or the increment is held (R179, R330, R351). -/
def State.countOwner (s : State) (e : Exch) (ack : Option XferKey) : State :=
  let o := vOwner e.vector
  let fen := mFen o
  let k := s.memberKey fen o
  if s.memberClosed fen o e.ctx || s.memberHeld fen o e.ctx then s.holdAt fen (.count k e.ctx (vAci e.vector) ack)
  else s.countNow k e.ctx (vAci e.vector) ack

/-- One thing that an exchange has to write: a sector of quanta into the receive buffer, unless it has been written before (R388); the
RCV word of a close flit; RCV for a source rank that is lost, after which OWNER's counter rises once; or a RES word. -/
def State.exchWork (s : State) (e : Exch) (c : Calendar) : ExchWork → Tried State
  | .quanta key rank off bs =>
    if e.has rank off then .ok (s.sendTo key.dev 6 0 (.quantaLanded key off))
    else
    match s.writeVirt e.fen.val none e.ctx.toNat (BitVec.ofNat 64 (vRbuf e.vector + recvOff c rank + off)) bs 0 with
    | .error f => .error f
    | .ok s => .ok ((s.onExch e fun x => { x with received := x.received ++ [(rank, off, bs.length)] }).sendTo key.dev 6 0
        (.quantaLanded key off))
  | .rcv rank v => s.writeRcv e rank v
  | .lost rank =>
    match s.writeRcv e rank 0xFFFFFFFF with
    | .error f => .error f
    | .ok s => .ok ((s.onExch e fun x => { x with closed := rank :: x.closed }).countOwner e none)
  | .res rank v => s.writeRes e rank v

/-- The work of an exchange done in order, until one piece of it faults: that piece is done again after the RESUME. -/
def State.exchWorks (s : State) (e : Exch) : Nat → State
  | 0 => s
  | n + 1 =>
    match s.exchNow e with
    | none => s
    | some x =>
      match x.cal, x.todo with
      | some c, w :: _ =>
        match s.exchWork x c w with
        | .error f => f.2.stopExch x f.1
        | .ok s => State.exchWorks (s.onExch e fun x => { x with todo := x.todo.tail }) e n
      | _, _ => s

/-- The key of what an exchange sends: its quanta by phase, its close flits by rank (R388). -/
def Exch.keyOf (e : Exch) (i : Nat) : XferKey := ⟨Config.deviceNo, e.fen, e.serial, i⟩

/-- Where the data of a rank stand in the send buffer. -/
def Exch.sendAt (e : Exch) (k off : Nat) : Word := BitVec.ofNat 64 (vSbuf e.vector + k * vSstr e.vector + off)

/-- Quanta for a rank leave, a sector a flit, on the channel of the sector's address at the peer (R379, R380): `off` is its place in
the peer's buffer for this device, sectors of which are 128 bytes. -/
def State.sendQuanta (s : State) (e : Exch) (c : Calendar) (i k off : Nat) (bs : List Byte) : State :=
  (partsOf off bs.length).foldl (fun s p =>
    let sec := (bs.drop (p.1 - off)).take p.2
    let at_ := (Config.peerBuffer (e.dev k) e.ctx e.xid).toNat + p.1 / 128
    (s.onExch e fun x => { x with unacked := x.unacked ++ [(i, p.1, p.2)] }).sendTo (e.dev k) (at_ / 2 % 4) 0
      (.quanta (e.keyOf i) e.ctx e.xid c.gen p.1 (sectorHeader sec 0 false) sec)) s

/-- The close flit for a rank leaves: it carries the number of bytes sent. -/
def State.sendClose (s : State) (e : Exch) (c : Calendar) (k bytes : Nat) : State :=
  s.sendTo (e.dev k) 6 3 (.close (e.keyOf k) e.ctx e.xid c.gen (BitVec.ofNat 32 bytes))

/-- What a former master had sent, and no acknowledgement has come for, is sent again (R387): the quanta, then the close flits. -/
def State.exchAgain (s : State) (e : Exch) : Nat → State
  | 0 => s
  | n + 1 =>
    match s.exchNow e with
    | none => s
    | some x =>
      if s.exchStopped x then s
      else
        match x.cal, x.again, x.closeAgain with
        | none, _, _ => s
        | some c, (i, off, len) :: l, _ =>
          let k := (c.phases[i]?).elim 0 (·.dst)
          match s.readPlain e.fen.val none e.ctx.toNat (x.sendAt k off) len with
          | .error f => f.2.stopExch x f.1
          | .ok (bs, s) => State.exchAgain ((s.onExch x fun x => { x with again := l }).sendQuanta x c i k off bs) e n
        | some c, [], k :: l =>
          let bytes := (x.closes.find? fun y => decide (y.1 = k)).elim 0 (·.2)
          State.exchAgain ((s.onExch x fun x => { x with closeAgain := l }).sendClose x c k bytes) e n
        | some _, [], [] => s

/-- An exchange goes on, where no record of it waits: its calendar is written once it has come, then what has arrived, and what has to
be sent again is sent; an exchange with nothing to send ends. -/
def State.exchGo (s : State) (e : Exch) : State :=
  match s.exchNow e with
  | none => s
  | some x =>
    if s.exchStopped x then s
    else
      match x.calDue with
      | some c =>
        match s.writeCalendar x c with
        | .error f => f.2.stopExch x f.1
        | .ok s => (s.exchWorks e x.todo.length).exchEnd e
      | none => ((s.exchWorks e x.todo.length).exchAgain e (x.again.length + x.closeAgain.length)).exchEnd e

/-- The loss of a member of an exchange that has its calendar (R395). -/
def State.exchLoss (s : State) (dev : DevNo) (e : Exch) : State :=
  match s.exchNow e with
  | none => s
  | some e =>
    match e.cal.or e.calDue with
    | none => s
    | some c =>
      let rank := rankOf (vMask e.vector) dev
      if !bit (vMask e.vector) dev.toNat then s
      else
        let lacks := setHas rank (calSources c) && !setHas rank e.closed && !e.due.any fun d => decide (d.1.toNat = rank)
        let owes := !e.finished && c.phases.any fun p => decide (p.dst = rank)
        let toRank (x : Nat × Nat × Nat) : Bool := (c.phases[x.1]?).elim false fun p => decide (p.dst = rank)
        (s.onExch e fun x => { x with
          todo := x.todo ++ (if lacks then [.lost rank] else []) ++ if owes then [.res rank 0xFFFFFFFF] else []
          unacked := x.unacked.filter fun y => !toRank y
          again := x.again.filter fun y => !toRank y
          closes := x.closes.filter fun k => decide (k.1 ≠ rank)
          closeAgain := x.closeAgain.filter fun k => decide (k ≠ rank) }).exchGo e

/-- A calendar accepted: from the skink of the highest epoch seen, and not a second one (R396, R397). A member that was lost before it
came, or is lost as it comes, is lost to the exchange (R395). -/
def State.takeCalendar (s : State) (ctx : BitVec 6) (xid : BitVec 16) (c : Calendar) : State :=
  let s := { s with skink := { s.skink with gen := if s.skink.gen < c.gen then c.gen else s.skink.gen } }
  match s.exchOf ctx xid with
  | none => s
  | some e =>
    if e.cal.isSome || e.calDue.isSome || decide (c.gen = e.prior) || decide (c.epoch < s.skink.epoch) then s
    else
      let lost := e.lost ++ s.lostPeers.filter fun d => bit (vMask e.vector) d.toNat && !e.lost.contains d
      lost.foldl (fun s d => s.exchLoss d e) ((s.onExch e fun x => { x with calDue := some c, lost := lost }).exchGo e)

/-! ### The skink's exchanges (R176, R396, R397) -/

/-- Every member of an exchange has posted. -/
def XPend.full (p : XPend) : Bool := (maskDevs p.mask).all fun d => p.posts.any fun x => decide (x.1 = d)

/-- The calendar of a rank under the calendar data of an exchange. -/
def calendarOf (epoch : BitVec 32) (n : Nat) (x : XIssue) (rank : Nat) : Calendar :=
  ⟨epoch, x.gen, x.t0, x.slot, rank, n, phasesFor (roundsOf n x.d) rank⟩

/-- The calendars of an exchange written to its members. -/
def State.writeCalendars (s : State) (p : XPend) (x : XIssue) : State :=
  let devs := maskDevs p.mask
  devs.zipIdx.foldl
    (fun s d =>
      let c := calendarOf s.skink.epoch devs.length x d.2
      if d.1 = Config.deviceNo then s.takeCalendar p.ctx p.xid c else s.sendTo d.1 7 0 (.calendar p.ctx p.xid c)) s

/-- The calendar data of an exchange go to the first standby, whose acknowledgement they wait for (R396); with no standby they
wait for none. -/
def State.announceIssue (s : State) (p : XPend) (x : XIssue) : State :=
  let put (acked : Bool) (s : State) : State := { s with skink := { s.skink with
    pending := mapIf (fun y => decide (y = p)) (fun y => { y with issue := some x, acked := acked }) s.skink.pending } }
  match s.standbyOf Config.deviceNo with
  | none => put true s
  | some d => (put false s).sendTo d 7 0 (.issue p.ctx p.xid p.mask x)

/-- An exchange taken over from a former skink, which comes before others (R397). -/
def XPend.first (p : XPend) : Bool := p.inherited

/-- An exchange that has lost a member before its calendars are written, and never starts, whether or not the member comes back (R395). One whose calendar data were taken
over from a former skink, which may have written some of the calendars, is completed all the same (DESIGN CHOICE, log entry 120). -/
def State.unmanned (s : State) (p : XPend) : Bool :=
  (p.lost || (maskDevs p.mask).any s.lostPeers.contains) && !(p.inherited && p.issue.isSome)

/-- The skink has written the calendars of an exchange: the last of its key. -/
def Skink.wrote (k : Skink) (p : XPend) (x : XIssue) : Skink :=
  { k with done := k.done.filter (fun y => !(decide (y.1 = p.ctx) && decide (y.2.1 = p.xid))) ++ [(p.ctx, p.xid, p.mask, x.gen)] }

/-- EXCHANGE_START (R176, R177, R396). This device's skink fixes the demand, GEN, T0 and SLOT of an exchange that is complete,
and tells the first standby; once that has acknowledged, it sends each member its calendar. What it has taken over comes first
(R397). -/
def execExchangeStart (idx : Nat) (s : State) : Out :=
  .next (match s.skink.pending[idx]? with
    | none => s
    | some p =>
      if !s.skinkOn || decide (s.skink.active ≠ Config.deviceNo)
          || s.unmanned p || (!p.first && s.skink.pending.any fun y => y.first && !s.unmanned y) then s
      else
        match p.issue with
        | some x =>
          if p.acked then
            { s with skink := ({ s.skink with pending := s.skink.pending.eraseIdx idx } : Skink).wrote p x }.writeCalendars p x
          else s
        | none =>
          if !p.full then s
          else
            let devs := maskDevs p.mask
            let d := quanta devs.length (devs.map fun x => (p.posts.find? fun y => decide (y.1 = x)).elim [] (·.2))
            let gen := s.skink.gen + 1
            { s.fresh with skink := { s.skink with gen := gen } }.announceIssue p ⟨d, gen, Config.startTime s.tick, Config.slotNs⟩)

/-- The first standby keeps calendar data, and acknowledges them. -/
def State.keepIssue (s : State) (src : DevNo) (ctx : BitVec 6) (xid : BitVec 16) (mask : BitVec 64) (x : XIssue) : State :=
  let k := s.skink
  let other (y : BitVec 6 × BitVec 16 × BitVec 64 × XIssue) : Bool := !(decide (y.1 = ctx) && decide (y.2.1 = xid))
  { s with skink := { k with
    gen := if k.gen < x.gen then x.gen else k.gen
    pending := k.pending.filter fun p => !p.of ctx xid
    issued := k.issued.filter other ++ [(ctx, xid, mask, x)] } }.sendTo src 7 0
      (.issueHeld ctx xid x.gen)

/-- The standby's acknowledgement. -/
def State.issueHeld (s : State) (ctx : BitVec 6) (xid : BitVec 16) (gen : BitVec 32) : State :=
  let of_ (p : XPend) : Bool := p.of ctx xid && p.issue.elim false fun x => decide (x.gen = gen)
  { s with skink := { s.skink with pending := mapIf of_ (fun p => { p with acked := true }) s.skink.pending } }

/-- A post that another device's skink has refused: the DPOST stands refused, with FLT_XCHG (R394). -/
def State.postRefused (s : State) (ctx : BitVec 6) (xid : BitVec 16) (cause : Nat) : State :=
  match s.exchOf ctx xid with
  | none => s
  | some e =>
    if e.cal.isSome || e.calDue.isSome then s
    else
      let s := { s with exchs := s.exchs.filter fun x => !e.same x }.onFen e.fen.val fun f => { f with
        reading := f.reading ++ [{ e.entry with got := [], stop := some s.seq }] }
      s.postStop (.entry e.fen e.poster e.cmd) (s.masterRec e.fen.val e.poster ctx e.cmd (xchgFault e.entry.arg xid cause))

/-! ### Phases (R179) -/

/-- The quanta granted to a rank over the calendar. -/
def grantTotal (c : Calendar) (k : Nat) : Nat := ((c.phases.filter fun p => decide (p.dst = k)).map (·.sendq)).sum

/-- The start slot of a phase. -/
def startSlot (c : Calendar) (i : Nat) : Nat := ((c.phases.take i).map (·.len)).sum

/-- COUNTk, read again at the first phase to its rank. -/
def State.readCount (s : State) (e : Exch) (k : Nat) : Tried (Nat × State) :=
  match e.counts.find? fun x => decide (x.1 = k) with
  | some x => .ok (x.2, s)
  | none =>
    match s.readPlain e.fen.val none e.ctx.toNat (e.entry.arg + BitVec.ofNat 64 (64 + 4 * k)) 4 with
    | .error f => .error f
    | .ok (bs, s) => .ok (bytesToNat bs, s)

/-- The quanta of a phase leave for their rank; with its last phase the close flit, and RES. -/
def State.sendPhase (s : State) (e : Exch) (c : Calendar) (p : Phase) : Tried State :=
  let k := p.dst
  let i := e.next
  match s.readCount e k with
  | .error f => .error f
  | .ok (a, s) =>
    let limit := min a (16384 * grantTotal c k)
    let already := min limit (16384 * grantTotal { c with phases := c.phases.take i } k)
    let n := min (16384 * p.sendq) (limit - already)
    match s.readPlain e.fen.val none e.ctx.toNat (e.sendAt k already) n with
    | .error f => .error f
    | .ok (bs, s) =>
      let last := !((c.phases.drop (i + 1)).any fun q => decide (q.dst = k))
      match (if last then s.writeRes e k (a - 16384 * grantTotal c k) else .ok s) with
      | .error f => .error f
      | .ok s =>
        let s := s.onExch e fun x => { x with
          next := i + 1
          counts := (k, a) :: x.counts.filter fun y => decide (y.1 ≠ k)
          closes := if last then (k, already + n) :: x.closes.filter fun j => decide (j.1 ≠ k) else x.closes }
        let s := s.sendQuanta e c i k already bs
        .ok (if last then s.sendClose e c k (already + n) else s)

/-- PHASE_START (R179, R395). The next phase of an exchange begins, no earlier than its start slot. -/
def execPhaseStart (idx : Nat) (s : State) : Out :=
  .next (match s.exchs[idx]? with
    | none => s
    | some e =>
      match e.cal with
      | none => s
      | some c =>
        match c.phases[e.next]? with
        | none => s
        | some p =>
          if s.exchStopped e || decide (s.time < c.t0.toNat + c.slot.toNat * startSlot c e.next) then s
          else if !e.phaseSends p then
            (s.onExch e fun x => { x with next := x.next + 1 }).exchEnd e
          else
            match s.sendPhase e c p with
            | .error f => f.2.stopExch e f.1
            | .ok s => s.exchEnd e)

/-! ### Receiving (R179, R395) -/

/-- The exchange of this device that a flit of an exchange belongs to: the one whose calendar has its GEN, or the latest that
has no calendar yet, unless the flit is of the one before. -/
def State.exchGen (s : State) (ctx : BitVec 6) (xid : BitVec 16) (gen : BitVec 32) : Option Exch :=
  let key (e : Exch) : Bool := decide (e.ctx = ctx) && decide (e.xid = xid)
  let gen_ (c : Option Calendar) : Bool := c.elim false fun c => decide (c.gen = gen)
  (s.exchs.find? fun e => key e && (gen_ e.cal || gen_ e.calDue)).or
    (s.exchs.reverse.find? fun e => key e && e.cal.isNone && e.calDue.isNone && decide (e.prior ≠ gen))

/-- Quanta arrive: they land in their order, once the calendar is written. Those of an exchange that is over have landed before, and
are acknowledged again. -/
def State.takeQuanta (s : State) (key : XferKey) (ctx : BitVec 6) (xid : BitVec 16) (gen : BitVec 32) (off : Nat)
    (bs : List Byte) : State :=
  match s.exchGen ctx xid gen with
  | none => if s.exchs.any fun e => decide (e.ctx = ctx) && decide (e.xid = xid) && decide (e.prior = gen) then
      s.sendTo key.dev 6 0 (.quantaLanded key off) else s
  | some e =>
    (s.onExch e fun x => { x with todo := x.todo ++ [.quanta key (rankOf (vMask e.vector) key.dev) off bs] }).exchGo e

/-- A sector of quanta that this device sent has landed. -/
def State.quantaLanded (s : State) (key : XferKey) (off : Nat) : State :=
  let of_ (x : Exch) : Bool := decide (x.fen = key.fen) && decide (x.serial = key.serial)
  match s.exchs.find? of_ with
  | none => s
  | some e =>
    let other (x : Nat × Nat × Nat) : Bool := decide (x.1 ≠ key.index) || decide (x.2.1 ≠ off)
    (s.onExch e fun x => { x with unacked := x.unacked.filter other, again := x.again.filter other }).exchEnd e

/-- A close flit arrives: one whose key is known is acknowledged again and discarded (R388); of another, RCV is written, after what
has arrived before it, and it is due to be counted. -/
def State.closeArrives (s : State) (key : XferKey) (ctx : BitVec 6) (xid : BitVec 16) (gen bytes : BitVec 32) : State :=
  if s.fens.toList.any (·.seenClose.contains key) then s.sendTo key.dev 6 0 (.closeCounted key)
  else
  match s.exchGen ctx xid gen with
  | none => s
  | some e =>
    let r := BitVec.ofNat 6 (rankOf (vMask e.vector) key.dev)
    if e.due.any (fun d => decide (d.2.2 = key)) || setHas r.toNat e.closed then s
    else (s.onExch e fun x => { x with due := x.due ++ [(r, bytes, key)], todo := x.todo ++ [.rcv r.toNat bytes] }).exchGo e

/-- CLOSE_FLIT_RECEIVE (R179). A close flit that has arrived from a source is counted, once RCV holds its number and every byte it
speaks of has landed: OWNER's counter rises. -/
def execCloseFlitReceive (idx : Nat) (rank : BitVec 6) (bytes : BitVec 32) (s : State) : Out :=
  let this (d : BitVec 6 × BitVec 32 × XferKey) : Bool := decide (d.1 = rank) && decide (d.2.1 = bytes)
  .next (match s.exchs[idx]? with
    | none => s
    | some e =>
      match e.due.find? this with
      | none => s
      | some d =>
        if e.cal.isNone || s.exchStopped e || !e.todo.isEmpty || decide (e.got rank.toNat < bytes.toNat) then s
        else
          ((s.onExch e fun x => { x with due := x.due.filter fun y => !this y, closed := rank.toNat :: x.closed }).onFen e.fen.val
            fun f => { f with seenClose := seenAdd f.seenClose d.2.2 }).countOwner e (some d.2.2))

/-- A close flit that this device sent has been counted at its destination. -/
def State.closeCounted (s : State) (key : XferKey) : State :=
  match s.exchs.find? fun x => decide (x.fen = key.fen) && decide (x.serial = key.serial) with
  | none => s
  | some e => (s.onExch e fun x => { x with
      closes := x.closes.filter fun k => decide (k.1 ≠ key.index)
      closeAgain := x.closeAgain.filter fun k => decide (k ≠ key.index) }).exchEnd e

/-- No route reaches a device (R383). -/
def State.unreachable (s : State) (dev : DevNo) : Bool := decide (dev ≠ Config.deviceNo) && (vget s.routes dev.toNat).isNone

/-- The records that have sent a lost device a transfer which is not counted yet stop at the first such transfer (R392; DEDUCED,
log entry 131). -/
def State.recordsLost (s : State) (dev : DevNo) : State :=
  (s.fens.toList.zipIdx.flatMap fun f => f.1.colls.map fun c => (f.2, c)).foldl
    (fun s x =>
      match x.2.unacked.filter fun i => decide (mDev (CollRec.member { x.2 with pos := i }) = dev) with
      | [] => s
      | i :: l => s.transferRefused ⟨Config.deviceNo, fenNo x.1, x.2.serial, l.foldl min i⟩ 1) s

/-- An exchange loses a member. -/
def Exch.lose (dev : DevNo) (e : Exch) : Exch :=
  if bit (vMask e.vector) dev.toNat && !e.lost.contains dev then { e with lost := e.lost ++ [dev] } else e

/-- An exchange whose calendars the skink has not written loses a member. -/
def XPend.lose (dev : DevNo) (p : XPend) : XPend :=
  if bit p.mask dev.toNat && !(p.inherited && p.issue.isSome) then { p with lost := true } else p

/-- PLOSS (R383, R392, R395). A peer that no route reaches is lost: the exchanges that it took part in go on without it, those whose
calendars are not written never start, and records with a transfer on its way there stop. An exchange that has lost it before has
done what its loss asks. -/
def execPloss (dev : DevNo) (s : State) : Out :=
  .next (if s.lostPeers.contains dev || !s.unreachable dev then s
    else
      let had := s.exchs.filter fun e => !e.lost.contains dev
      let s := { s with
        lostPeers := s.lostPeers ++ [dev]
        exchs := s.exchs.map (Exch.lose dev)
        skink := { s.skink with pending := s.skink.pending.map (XPend.lose dev) } }.post (eventRec 0x4E 0 0 0 (dev.setWidth 64) 0)
      let s := (s.skink.pending.filter fun p => !p.acked).foldl (fun s p => p.issue.elim s fun x => s.announceIssue p x) s
      (had.foldl (fun s e => s.exchLoss dev e) s).recordsLost dev)

/-! ### The skink's time limits and failover (R394, R396, R397) -/

/-- The devices of an exchange that have not posted, as a mask. -/
def XPend.missing (p : XPend) : Nat :=
  ((maskDevs p.mask).filter fun d => !p.posts.any fun x => decide (x.1 = d)).map (fun d => 2 ^ d.toNat) |>.sum

/-- The XTMO event of an exchange, on this device. -/
def State.postXtmo (s : State) (ctx : BitVec 6) (xid : BitVec 16) (absent : Word) : State :=
  s.post (eventRec 0x4C 0 ctx.toNat 0 (xid.setWidth 64) absent)

/-- XTMO (R394). An exchange that still lacks a member, or has lost one (R395), posts one event on every device that has posted. -/
def execXtmo (idx : Nat) (s : State) : Out :=
  .next (match s.skink.pending[idx]? with
    | none => s
    | some p =>
      if (!s.unmanned p && (p.full || p.issue.isSome)) || p.xtmo || !s.skinkOn || decide (s.skink.active ≠ Config.deviceNo) then s
      else
        let absent := BitVec.ofNat 64 p.missing
        p.posts.foldl
          (fun s x => if x.1 = Config.deviceNo then s.postXtmo p.ctx p.xid absent
            else s.sendTo x.1 7 0 (.xtmo p.ctx p.xid absent))
          { s with skink := { s.skink with pending := s.skink.pending.set idx { p with xtmo := true } } })

/-- The posts that this device's masters hold without a calendar go to the active skink. -/
def State.postAgain (s : State) : State :=
  (s.exchs.filter fun e => e.cal.isNone && e.calDue.isNone).foldl (fun s e => s.postSkink e.ctx e.vector e.prior true) s

/-- The active skink announces its epoch to every device of the domain (R396). -/
def State.announce (s : State) : State :=
  (((List.range 64).map (BitVec.ofNat 6)).filter fun d => s.liveDev d && decide (d ≠ Config.deviceNo)).foldl
    (fun s d => s.sendTo d 7 0 (.announce s.skink.epoch)) s

/-- Another device's skink, of a higher epoch than any seen, is the active one: this device's own stands by, and the masters send the
new one their posts (R396, R397). -/
def State.adoptSkink (s : State) (dev : DevNo) (epoch : BitVec 32) : State :=
  let s' := { s with skink := { s.skink with active := dev, epoch := epoch } }
  (if s.skink.active = Config.deviceNo then { s' with skink := { s'.skink with pending := [], issued := [], done := [] } } else s').postAgain

/-- A calendar comes from the skink of a device; one of a higher epoch than any seen is from the active skink (R396). -/
def State.calendarFrom (s : State) (src : DevNo) (ctx : BitVec 6) (xid : BitVec 16) (c : Calendar) : State :=
  let s' := s.takeCalendar ctx xid c
  if s.skink.epoch < c.epoch ∧ src ≠ Config.deviceNo then s'.adoptSkink src c.epoch else s'

/-- SKINK_ANNOUNCE (R396, R397). This device's active skink announces its epoch; or another's announcement arrives: the skink of
the highest epoch seen is the active one, a former one stands by, and the masters send a new one their posts. -/
def execSkinkAnnounce (dev : DevNo) (epoch : BitVec 32) (s : State) : Out :=
  .next (if dev = Config.deviceNo then
      (if s.skink.active = dev ∧ s.skink.epoch = epoch ∧ s.skinkOn then s.announce else s)
    else if epoch < s.skink.epoch ∨ (epoch = s.skink.epoch ∧ dev ≠ s.skink.active) then s
    else if dev = s.skink.active ∧ epoch = s.skink.epoch then s
    else s.adoptSkink dev epoch)

/-- What a standby holds when it takes over: the exchanges whose calendar data it holds, and the posts of the others (R397). -/
def Skink.inherit (k : Skink) : List XPend :=
  k.issued.map (fun y => ⟨y.1, y.2.1, y.2.2.1, [], false, some y.2.2.2, false, true, false⟩)
    ++ k.pending.map fun p => { p with inherited := true }

/-- SKINK_TAKEOVER (R397). This device's skink, the first standby, becomes active with the next epoch, announces it, posts
SKFAIL, completes the exchanges whose calendar data it holds, and receives the posts that masters hold without a calendar. -/
def execSkinkTakeover (s : State) : Out :=
  let own := Config.deviceNo
  .next (if s.skink.active = own ∨ !s.skinkOn ∨ s.standbyOf s.skink.active ≠ some own then s
    else
      let epoch := s.skink.epoch + 1
      let s := { s with skink := { s.skink with active := own, epoch := epoch, pending := s.skink.inherit, issued := [] } }.post
        (eventRec 0x4A 0 0 0 (own.setWidth 64) (epoch.setWidth 64))
      let s := s.skink.pending.foldl (fun s p => p.issue.elim s fun x => s.announceIssue p x) s.announce
      s.postAgain)

end Sys2Proof.Machine
end

