-- ==== Sys2Proof/Machine/Save.lean ====
section
/-! DEFINITION. Resuming stopped agents (R339), saving and restoring contexts (R347 to R359), conductor changes (R30, R349)
and newt failover (R387, R389). -/

namespace Sys2Proof.Machine

/-! ### The save area (R348, R353 to R355) -/

def Ctx.saveBase (x : Ctx) : Nat := bits x.savb 56 16 * 65536
def Ctx.nslot (x : Ctx) : Nat := bits x.savb 11 0

/-- SAVB breaks a must-be-zero field. -/
def Ctx.savbBad (x : Ctx) : Bool := decide (bits x.savb 63 57 ≠ 0) || decide (bits x.savb 15 12 ≠ 0)

/-- PST and ERR written to CSTS. -/
def Ctx.setCsts (x : Ctx) (pst : Nat) (err : Bool) : Ctx := { x with csts := BitVec.ofNat 32 (pst % 4 + 4 * b2n err) }

/-- The size of a slot, and of its state block. -/
def slotBytes : Nat := 0x110000
def blockSize : Nat := 57344

/-- A state block (R354): the first 64 bytes are the manual's; what the rest holds only a KX6 reads. -/
def Core.stateBlock (c : Core) (free : Nat) : List Byte :=
  natToBytes 64 (c.pc.toNat + b2n c.held.isSome * 2 ^ 60 + b2n c.stop.isSome * 2 ^ 61 + c.stop.elim 0 (·.seq.toNat) * 2 ^ 64)
    ++ (List.range (blockSize - 64)).map fun i => Config.freeByte (free * blockSize + i)

/-- A slot's bytes: scratchpad, tags, state block. -/
def Core.image (c : Core) (block : List Byte) : List Byte :=
  c.sp.mem.readBytes 0 (2 ^ 20) ++ c.sp.tags.readBytes 0 8192 ++ block

/-- A directory entry. -/
def Core.dirEntry (c : Core) : List Byte := natToBytes 4 (c.lcore.toNat + b2n c.newt * 2 ^ 12 + 2 ^ 13)

/-- A core's image and its directory entry written to the save area. -/
def State.writeSlot (s : State) (n : BitVec 6) (slot : Nat) (c : Core) (block : List Byte) : Tried State :=
  let x := vget s.ctxs n.toNat
  match s.writeVirt x.home.toNat none n.toNat (BitVec.ofNat 64 (x.saveBase + 0x10000 + slotBytes * slot)) (c.image block) 0 with
  | .error f => .error f
  | .ok s => s.writeVirt x.home.toNat none n.toNat (BitVec.ofNat 64 (x.saveBase + 64 + 4 * slot)) c.dirEntry 0

/-- The physical base of an emergency slot of a fen. -/
def State.emergBase (s : State) (fen e : Nat) : Nat :=
  (vget s.dies (fen / 5)).emrgb.toNat + fen % 5 * 0x440000 + e * slotBytes

/-- Bytes written by physical address, a sector at a time. -/
def State.putBytes (s : State) (pa : Nat) (bs : List Byte) : State :=
  ((partsOf pa bs.length).foldl
    (fun (st : State × List Byte) p => (st.1.putPhys p.1 (st.2.take p.2) 0, st.2.drop p.2)) (s, bs)).1

/-- The record of a save or a restore: agent 7, and EXT 1 or 2 (R355, R356). -/
def saveRec (n : BitVec 6) (fen : Nat) (lcore : BitVec 12) (f : FaultInfo) (ext : Nat) : FaultRec :=
  { walkerRec fen n.toNat f with lcore := lcore, ext := BitVec.ofNat 160 ext }

/-- SAVING ONE CORE (R350, R355). Its image goes to its slot, or, when a write faults, to a free emergency slot of its fen
with a record; none when all four are in use. -/
def State.saveCore (s : State) (n : BitVec 6) (slot : Nat) (c : Core) (t : Option Task) : Option (SavedSlot × State) :=
  let block := c.stateBlock s.tick
  let s := s.fresh
  let x : SavedSlot := ⟨slot, c, t, block, false⟩
  match s.writeSlot n slot c block with
  | .ok s => some (x, s)
  | .error e =>
    let f := e.1
    let s := e.2.met f
    let used := (vget s.fens c.fen).emerg
    match [0, 1, 2, 3].find? fun e => !used.any fun y => decide (y.1 = e) with
    | none => none
    | some e =>
      let s := (s.putBytes (s.emergBase c.fen e) (c.image block)).onFen c.fen fun f => { f with emerg := f.emerg ++ [(e, n, slot)] }
      some ({ x with out := true }, s.postStop (.save n slot) (saveRec n c.fen c.lcore f 1))

/-- An emergency slot of the context and slot. -/
def State.emergOf (s : State) (n : BitVec 6) (slot : Nat) : Option (Nat × Nat) :=
  (List.range 30).findSome? fun f =>
    ((vget s.fens f).emerg.find? fun y => decide (y.2 = (n, slot))).map fun y => (f, y.1)

/-- The context holds some emergency slot. -/
def State.emergAny (s : State) (n : BitVec 6) : Bool := s.fens.toList.any fun f => f.emerg.any fun y => decide (y.2.1 = n)

/-- A RESUME of a save's record: the emergency slot is copied into the save area and freed (R355). -/
def State.resumeSave (s : State) (n : BitVec 6) (slot : Nat) : State :=
  match s.emergOf n slot with
  | none => s
  | some (fen, e) =>
    let x := vget s.ctxs n.toNat
    let bs := s.mem.readBytes (s.emergBase fen e) slotBytes
    let c := ((x.saved.find? fun y => decide (y.slot = slot)).map (·.core)).orElse fun _ =>
      ((vget s.fens fen).conductors.find? fun d => decide (d.ctx = n)).bind fun d => d.image.map (·.core)
    let dir := c.elim [] Core.dirEntry
    match s.writeVirt x.home.toNat none n.toNat (BitVec.ofNat 64 (x.saveBase + 0x10000 + slotBytes * slot)) bs 0 with
    | .error g => (g.2.met g.1).postStop (.save n slot) (saveRec n fen (c.elim 0xFFF Core.lcore) g.1 1)
    | .ok s1 =>
      match s1.writeVirt x.home.toNat none n.toNat (BitVec.ofNat 64 (x.saveBase + 64 + 4 * slot)) dir 0 with
      | .error g => (g.2.met g.1).postStop (.save n slot) (saveRec n fen (c.elim 0xFFF Core.lcore) g.1 1)
      | .ok s2 => s2.onFen fen fun f => { f with emerg := f.emerg.filter fun y => decide (y.2 ≠ (n, slot)) }

/-! ### Resume (R120, R333, R335, R339) -/

/-- A core goes on: the direct forms that met a fault are performed again, poisoned entries of its ports are read again where their
sectors have been rewritten, and its BKPT may be ignored once. -/
def Core.resume (c : Core) (skip : Bool) : Core :=
  { c.portsAgain with
    stop := none, dfFault := none, dfPast := false, skipBkpt := skip
    pipes := { c.pipes with acc := c.pipes.acc.map fun a => { a with faulted := false } } }

/-- The stop of a core, or of an engine or a unit of it, is the record's. -/
def Core.stopsOn (c : Core) (seq : BitVec 32) : Stopped → Bool
  | .core _ => decide (c.stop = some ⟨seq⟩)
  | .cmd _ id => (c.cmd id).elim false fun x => decide (x.stop = some seq)
  | .mma _ id => c.mx.mmas.any fun m => decide (m.id = id) && decide (m.stop = some seq)
  | .reed _ lt => c.mx.reeds.any fun r => decide (r.lt = lt) && decide (r.stop = some seq)
  | .copy _ _ => false
  | .coll _ _ => false
  | .entry _ _ _ => false
  | .transfer _ => false
  | .exch _ _ => false
  | .launch _ => false
  | .save _ _ => false
  | .status _ _ => false

/-- A core, or an engine or a unit of it, that a record stopped goes on: on its site, or in the image of a conductor that is
changed out (R30, R349). -/
def State.resumeCore (s : State) (k : CoreKey) (ctx : BitVec 6) (seq : BitVec 32) (who : Stopped) (f : Core → Core) : State :=
  if (s.getCore k).stopsOn seq who then s.onCore k f else s.onPoster k ctx f

/-- The master's service of a mailbox entry goes on: an entry is served again by MAILBOX_TAKE, a lender's answer is written. -/
def State.resumeEntry (s : State) (f : FenNo) (k : CoreKey) (id : Nat) : State :=
  let s := s.onFen f.val fun x => { x with
    reading := mapIf (fun e => decide (e.poster = k) && decide (e.cmd = id)) (fun e => { e with stop := none }) x.reading
    leaseReqs := mapIf (fun q => decide (q.poster = k) && decide (q.cmd = id)) (fun q => { q with stop := none }) x.leaseReqs }
  match (vget s.fens f.val).leaseReqs.find? fun q => decide (q.poster = k) && decide (q.cmd = id) with
  | none => s
  | some q => q.reply.elim s fun r => s.leaseWrite f q r

/-- The agent that a record stopped goes on from its stopping point. -/
def State.resumeWho (s : State) (seq : BitVec 32) (skip : Bool) (ctx : BitVec 6) : Stopped → State
  | .core k => s.resumeCore k ctx seq (.core k) fun c => c.resume skip
  | .cmd k id => s.resumeCore k ctx seq (.cmd k id) fun c => (c.cmd id).elim c fun x => c.putCmd { x with stop := none }
  | .mma k id => s.resumeCore k ctx seq (.mma k id) fun c => { c with mx := { c.mx with
      mmas := mapIf (fun m => decide (m.id = id)) (fun m => { m with stop := none }) c.mx.mmas } }
  | .reed k lt => s.resumeCore k ctx seq (.reed k lt) fun c => { c with mx := { c.mx with
      reeds := mapIf (fun r => decide (r.lt = lt)) (fun r => { r with stop := none }) c.mx.reeds } }
  | .copy d e => s.onDie d.val fun x => { x with
      engines := vset x.engines e.val ((vget x.engines e.val).map fun j => { j with cmd := { j.cmd with stop := none } }) }
  | .coll f serial => s.collGo f serial
  | .entry f k id => s.resumeEntry f k id
  | .transfer _ => s
  | .exch k id => (s.exchs.find? fun e => decide (e.poster = k) && decide (e.cmd = id)).elim s s.exchGo
  | .launch n => s.onCtx n.toNat fun x => { x with
      pending := mapIf (fun q => decide (q.stop = some seq)) (fun q => { q with stop := none }) x.pending }
  | .save n slot => s.resumeSave n slot
  | .status dev lid => (s.leases.find? (·.borrowed dev lid)).elim s s.revoked

/-- The core of a stop that is saved with its core. -/
def Stopped.key : Stopped → Option CoreKey
  | .core k => some k
  | .cmd k _ => some k
  | .mma k _ => some k
  | .reed k _ => some k
  | .copy _ _ => none
  | .coll _ _ => none
  | .entry _ _ _ => none
  | .transfer _ => none
  | .exch _ _ => none
  | .launch _ => none
  | .save _ _ => none
  | .status _ _ => none

/-- A stop of a saved context's core or copy engine, which its restore resumes; a service program is never saved (R167). -/
def State.keepsResume (s : State) (w : Stopped) : Bool :=
  match w with
  | .copy _ _ => true
  | w => w.key.elim false fun k => !(isNewtKey k && s.serving k)

/-- A RESUME written by the host. One for a core of a saved context is kept until its restore (R357). -/
def State.resume (s : State) (seq : BitVec 32) (skip : Bool) : State :=
  match s.await.find? fun a => decide (a.seq = seq) with
  | none => s
  | some a =>
    let x := vget s.ctxs a.ctx.toNat
    if x.state ≠ 2 then s
    else if s.keepsResume a.who && decide (x.pst ≠ 0) then
      s.onCtx a.ctx.toNat fun x => { x with keptResume := x.keptResume ++ [(seq, skip)] }
    else ({ s with await := s.await.filter fun b => decide (b.seq ≠ seq) }).resumeWho seq skip a.ctx a.who

/-- RESUME_REPLAY (R339, ACT 0). With die 0 lost no host write reaches the device (R28). -/
def execResumeReplay (seq : BitVec 32) (s : State) : Out := .next (if s.visible then s.resume seq false else s)

/-- RESUME_IGNORE_BKPT (R339, ACT 1). -/
def execResumeIgnoreBkpt (seq : BitVec 32) (s : State) : Out := .next (if s.visible then s.resume seq true else s)

/-! ### Draining (R350, steps 3 to 5) -/

/-- A piece of the access is held at a master. -/
def State.pieceHeld (s : State) (k : CoreKey) (id i : Nat) : Bool :=
  s.heldAny fun h => match h with
    | .transfer _ _ => false
    | .netWrite _ w => decide (w.srcKey = k) && decide (w.access = id) && decide (w.piece = i)
    | .netRead _ src a p _ => decide (src = k) && decide (a = id) && decide (p = i)
    | .engWrite _ _ _ _ => false
    | .engRead _ _ _ => false
    | .count _ _ _ _ => false

/-- Every access of the core is performed, has met a fault, or is held at a master (R351, R352). -/
def State.accessesDrained (s : State) (c : Core) : Bool :=
  c.pipes.acc.all fun a => a.faulted || a.pieces.zipIdx.all fun p => p.1.done || s.pieceHeld c.key a.id p.2

/-- Every element of a command is done, and writes of it are held at a master: its token becomes DONE once they are performed (R149,
R297, R352). -/
def State.writesHeld (s : State) (src : EngSrc) (x : Cmd) : Bool := x.finished && x.posted.isEmpty && s.heldAny (·.writeOf src)

/-- A started command that can go no further while its core issues nothing: its sequencer is stopped on a record (R378), or it is served
by the master (R351); an access of it is held (R352); it is a FENCE that waits for such an access; or it is a BANKM whose bank results
in flight have still to use (R103; DEDUCED, log entry 98). -/
def State.cmdSettled (s : State) (c : Core) (x : Cmd) : Bool :=
  (c.seqStopped x && decide (x.op ≠ .fence)) || (x.op.atMaster && !x.finished) || s.heldAny (·.readOf (.cmd c.key x.id))
    || s.writesHeld (.cmd c.key x.id) x
    || (decide (x.op = .fence) && !x.finished && !s.fenceDone c x)
    || (decide (x.op = .bankm) && !x.finished && c.bankInUse x.arg1.toNat)

/-- The core is at a point where it can be saved (R350, steps 4 and 5). -/
def State.drained (s : State) (c : Core) : Bool :=
  s.accessesDrained c && (c.pipes.cmds.all fun x => !x.started || s.cmdSettled c x) && c.sp.net.isEmpty

/-- The core as its image holds it: data that has come back stays with its result in flight, and translations are dropped. -/
def Core.forImage (c : Core) : Core :=
  { c with
    replies := [], tlb := [], frozen := false, fetched := none
    sp := { c.sp with net := [], fifoHeld := [] }
    pipes := { c.pipes with acc := c.pipes.acc.map fun a => if a.complete && !a.faulted then { a with arrived := true } else a } }

/-- The core left idle on its site; its clocks never go back (R141). -/
def Core.vacated (c : Core) : Core :=
  let z := Core.reset c.key
  { z with
    site := c.site, replies := c.replies, lastSite := c.site, sp := z.sp.bornAt c.sp.lastTime
    pipes := { z.pipes with
      nextId := c.pipes.nextId, bundleNo := c.pipes.bundleNo, clocks := c.pipes.clocks, engClocks := c.pipes.engClocks,
      synced := c.pipes.synced } }

/-- A core leaves its site: writes held at its full FIFO banks go to the master, and its waiting posts leave the line. -/
def State.vacate (s : State) (k : CoreKey) : State :=
  let c := s.getCore k
  let s := c.sp.fifoHeld.foldl (fun s w => s.holdAt c.fen (.netWrite k w)) s
  (s.onCore k Core.vacated).onFen c.fen fun f => { f with mbWait := f.mbWait.filter fun w => decide (w.key ≠ k) }

/-! ### Conductors (R30, R349) -/

/-- The key of that newt. -/
def State.conductorKey (s : State) (fen : Nat) : Option CoreKey := ((vget s.fens fen).conductorSite).map (newtKey fen)

/-- A wait of a core is over. -/
def State.noteOver (s : State) (c : Core) (n : WaitNote) : Bool :=
  match n.what with
  | .token t => !c.pending t.toNat
  | .counter r v => reached (vget c.regs.ac r.toNat) v
  | .mailbox => decide (c.posts = 0)
  | .launchSlot => decide (s.outstanding c.ctx.toNat < 64)
  | .barrier _ => true
  | .scoreboard _ _ => true
  | .claim => true
  | .freeze _ => true

/-- The wait that a core is held on is over. -/
def State.waitOver (s : State) (c : Core) : Bool := c.wait.elim true (s.noteOver c)

/-- A command of the core can go on while the core is on its site. -/
def Core.cmdGoes (c : Core) : Bool :=
  c.pipes.cmds.any fun x => (!c.seqStopped x || x.finished || decide (x.op = .fence)) && (x.finished || (x.started && !x.op.atMaster)
    || (!x.started && !x.waits.any fun i => (c.cmd i).isSome))

/-- A conductor that can run now: it has not started; or its image stands in the save area, and its wait is over, or a command
of it can go on; one that has executed DONE waits for its commands. -/
def State.conductorReady (s : State) (d : Conductor) : Bool :=
  (vget s.ctxs d.ctx.toNat).live &&
    match d.image with
    | none => decide (d.state = .ready)
    | some y =>
      let c := y.core
      c.stop.isNone && (c.cmdGoes || if c.status = .finishing then c.pipes.cmds.isEmpty else s.waitOver c)
        && (s.emergOf d.ctx 0).isNone && !s.await.any fun a => decide (a.who = .save d.ctx 0)

/-- A conductor's state and image replaced. -/
def State.onConductor (s : State) (fen : Nat) (n : BitVec 6) (f : Conductor → Conductor) : State :=
  s.onFen fen fun x => { x with conductors := mapIf (fun d => decide (d.ctx = n)) f x.conductors }

/-- A conductor begins at its entry (log entry 20). -/
def Core.startConductor (c : Core) (n : BitVec 6) (entry : Addr) : Core :=
  let z := Core.reset c.key
  { z with
    site := c.site, ctx := n, status := .running, pc := entry, replies := c.replies, tlb := c.tlb, sp := z.sp.bornAt c.sp.lastTime
    pipes := { z.pipes with
      nextId := c.pipes.nextId, bundleNo := c.pipes.bundleNo, clocks := c.pipes.clocks, engClocks := c.pipes.engClocks,
      synced := c.pipes.synced } }

/-- A memory of the bytes given, from address 0. -/
def memoryOf (bs : List Byte) : Memory := Memory.writeBytes [] 0 bs

/-- What a save area's part is read back in: a sector at a time. -/
def areaParts (base n : Nat) : List (Word × Nat) := (partsOf base n).map fun p => (BitVec.ofNat 64 p.1, p.2)

/-- The reads of slots. -/
def Ctx.slotParts (x : Ctx) (slot : Nat) : List (Word × Nat) :=
  areaParts (x.saveBase + 0x10000 + slotBytes * slot) slotBytes

/-- The area's parts read one after another, from the first that has not been read (R356). -/
def State.readArea (s : State) (n : BitVec 6) (parts : List (Word × Nat)) (got : List (List Byte)) :
    List (List Byte) × Option FaultInfo × State :=
  s.readOn (vget s.ctxs n.toNat).home.toNat n.toNat (fun g => parts[g.length]?) parts.length got

/-- A slot as it has been read back (R357): scratchpad and tags from the area, and the state that the block holds; none when the
block is not the one that the save wrote (R354). -/
def SavedSlot.load (y : SavedSlot) (bs : List Byte) : Option Core :=
  let c := y.core
  if bs.drop (2 ^ 20 + 8192) ≠ y.block then none
  else
    some { c with
      mx := { c.mx with scache := [], sbase := none }
      sp := { c.sp with mem := memoryOf (bs.take c.spSize), tags := memoryOf ((bs.drop (2 ^ 20)).take (c.spSize / 128)) } }

/-- A restored core takes its place: its site is what the mapping gives now, what it does follows every event so far, and commands that
became ready in its image join the line of its fen's posts. Its task counts as having run on the site where it began, so that the
context's next task on another site starts reset (R39; DESIGN CHOICE, log entry 132). -/
def State.seat (s : State) (k : CoreKey) (site : Byte) (c : Core) : State :=
  let old := s.getCore k
  (s.putCore (Core.syncAt { c with
    key := k, site := site, replies := old.replies, tlb := old.tlb, resumed := c.ran
    sp := c.sp.bornAt (max c.sp.lastTime old.sp.lastTime)
    pipes := { c.pipes with
      nextId := max c.pipes.nextId old.pipes.nextId, bundleNo := max c.pipes.bundleNo old.pipes.bundleNo } } s.latest)).notePosts k

/-- A ready conductor comes onto its newt: from its entry, or from slot 0. A read that faults posts a record, and the change
goes on with that read after its RESUME. -/
def State.conductorEnter (s : State) (fen : Nat) (k : CoreKey) (d : Conductor) : Out :=
  let n := d.ctx
  let x := vget s.ctxs n.toNat
  match d.image with
  | none => .next ((s.onCore k fun c => (c.startConductor n x.entry).syncAt s.latest).onConductor fen n fun d => { d with state := .running })
  | some y =>
    let r := s.readArea n (x.slotParts 0) d.readBack
    let s := r.2.2
    match r.2.1 with
    | some f => .next ((s.onConductor fen n fun d => { d with readBack := r.1 }).postStop (.save n 0) (saveRec n fen 0xFFF f 2))
    | none =>
      match y.load r.1.flatten with
      | none => .fault .foreignSaveArea
      | some c =>
        .next ((s.seat k (s.getCore k).site c).onConductor fen n fun d => { d with
          state := if d.state = .ended then .ended else .running, image := none, readBack := [] })

/-- How often a ready conductor may be passed over (R48 asks for a bound and gives none: DESIGN CHOICE, log entry 99). -/
def maxPassed : Nat := 64

/-- The ready conductor that comes next: one passed over too often, or any (R30 names none). -/
def State.conductorPick (s : State) (l : List Conductor) : Option Conductor :=
  (l.find? fun d => decide (maxPassed ≤ d.passed)).or l[Config.pick s.tick % l.length]?

/-- Some ready conductor comes onto an idle newt, unless a restore has taken the newt (R357); the others are passed over. -/
def State.conductorNext (s : State) (fen : Nat) (k : CoreKey) : Out :=
  let ready := (vget s.fens fen).conductors.filter s.conductorReady
  match (if s.newtTaken fen then none else s.conductorPick ready) with
  | none => .next s
  | some d =>
    let count (x : Conductor) : Conductor := { x with passed := if x.ctx = d.ctx then 0 else x.passed + 1 }
    (s.fresh.onFen fen fun f => { f with conductors := mapIf (fun x => ready.any fun y => decide (y.ctx = x.ctx)) count f.conductors
      }).conductorEnter fen k d

/-- The conductor on a newt is changed out into slot 0; or it stays there stopped until an emergency slot is freed (R355). -/
def State.conductorOut (s : State) (fen : Nat) (k : CoreKey) : State :=
  let c := (s.getCore k).forImage
  match s.saveCore c.ctx 0 c none with
  | none => s.onConductor fen c.ctx fun d => { d with stuck := true }
  | some (y, s) => (s.vacate k).onConductor fen c.ctx fun d => { d with
      state := if d.state = .ended then .ended else .waiting, image := some y, readBack := [], stuck := false }

/-- The running conductor may be changed out now: it is blocked on a wait, has executed DONE, or has run 2^20 cycles since it was
resumed, and another program is to run. -/
def State.mayChange (s : State) (fen : Nat) (c : Core) : Bool :=
  let f := vget s.fens fen
  let other := f.conductors.any s.conductorReady || s.newtTaken fen
  let serve := f.standby.isNone && f.service.isNone && f.mailbox.any fun e => decide (mbKind e.bits = 0) && !e.taken
  decide (c.status ≠ .idle) && c.stop.isNone && (vget s.ctxs c.ctx.toNat).live && s.drained c
    && (((decide (c.status = .finishing) || !s.waitOver c) && (other || serve)) || (decide (2 ^ 20 ≤ c.ran - c.resumed) && other))

/-- CONDUCTOR_CHANGE (R30, R349). -/
def execConductorChange (fen : FenNo) (s : State) : Out :=
  match s.conductorKey fen.val with
  | none => .next s
  | some k =>
    let c := (s.getCore k).landDue
    if s.serving k then .next s
    else if c.status = .idle then s.conductorNext fen.val k
    else if s.changeStuck c && decide (4 ≤ (vget s.fens fen.val).emerg.length) then .next s
    else if s.changeStuck c || s.mayChange fen.val c then
      let s' := (s.putCore c).conductorOut fen.val k
      if (s'.getCore k).status = .idle then s'.conductorNext fen.val k else .next s'
    else .next s

/-! ### Host saves (R347, R350) -/

/-- The compute cores that run tasks of a context, rising. -/
def State.taskCores (s : State) (n : BitVec 6) : List Core :=
  (s.allCores.filter fun c => decide (c.status ≠ .idle) && decide (c.ctx = n) && !c.newt).foldl (fun l c => coreInsert c l) []

/-- The newts that run the service program of a context. -/
def State.servers (s : State) (n : BitVec 6) : List Core :=
  s.allCores.filter fun c => c.newt && decide (c.status ≠ .idle) && decide (c.ctx = n) && s.serving c.key

/-- PREEMPT_SAVE (R347, R350). Admission, and then cores, walkers and engines stop issuing and starting; where the context's
service program runs, the save begins to wait for it (R167). A host write does nothing while the host does not see the device (R28). -/
def execPreemptSave (n : BitVec 6) (s : State) : Out :=
  let x := vget s.ctxs n.toNat
  .next (if !s.visible || s.pkg.preemptBusy.isSome || decide (x.state ≠ 2) || decide (x.pst ≠ 0) then s
    else if x.savbBad || decide (x.nslot < (s.taskCores n).length + 1) then s.onCtx n.toNat fun x => x.setCsts 0 true
    else
      let s := s.onCtx n.toNat fun x => { x.setCsts 1 false with saved := [], saveWait := (s.servers n).head?.map (·.ran) }
      { s with pkg := { s.pkg with preemptBusy := some n } })

/-- The conductor of a context on its newt. -/
def State.conductorCore (s : State) (n : BitVec 6) : Option Core :=
  (s.conductorKey (vget s.ctxs n.toNat).home.toNat).bind fun k =>
    let c := s.getCore k
    if decide (c.status ≠ .idle) && decide (c.ctx = n) && !s.serving k then some c else none

/-- A change of the context's conductor is in progress: its image waits for the save area, or for an emergency slot (R349). -/
def State.changing (s : State) (n : BitVec 6) : Bool :=
  !((vget s.ctxs n.toNat).saved.any fun y => decide (y.slot = 0))
    && ((s.emergOf n 0).isSome || (s.await.any fun a => decide (a.who = .save n 0))
      || s.fens.toList.any fun f => f.conductors.any fun d => decide (d.ctx = n) && d.stuck)

/-- Decrements of a finished node of the context are still to be applied (R42, R359). -/
def State.decrementsDue (s : State) (n : BitVec 6) : Bool :=
  s.fens.toList.any fun f => f.doneNodes.any fun d => (s.launch d.launch).elim false fun l => decide (l.ctx = n)

/-- A copy engine's node of the context that still runs: not stopped on a record, with no read held, and not waiting for writes that are
held. -/
def State.copyRuns (s : State) (n : BitVec 6) : Bool :=
  (List.finRange 6).any fun d => (List.finRange 8).any fun e =>
    (vget (vget s.dies d.val).engines e.val).elim false fun j =>
      decide (j.ctx = n) && j.cmd.stop.isNone && !s.heldAny (·.readOf (.node d e)) && !s.writesHeld (.node d e) j.cmd

/-- Everything of the context has drained: cores, commands, copy engines and decrements; its service program has ended, and no
change of its conductor is in progress. -/
def State.contextDrained (s : State) (n : BitVec 6) : Bool :=
  let newts := s.allCores.filter fun c => c.newt && decide (c.status ≠ .idle) && decide (c.ctx = n)
  !(s.fens.toList.any fun f => decide (f.service = some n))
    && newts.all (fun c => decide ((s.conductorCore n).map (·.key) = some c.key))
    && ((s.taskCores n) ++ (s.conductorCore n).toList).all s.drained
    && !s.copyRuns n && !s.decrementsDue n && !s.changing n

/-- The task that a core's image holds: that of which it is the lowest-numbered member still running (R72). A member that has finished is
not saved, so that the lowest of those that are holds it (DESIGN CHOICE, log entry 134). -/
def State.imageTask (s : State) (n : BitVec 6) (k : CoreKey) : Option Task :=
  s.tasks.find? fun t => decide (t.ctx = n)
    && decide ((t.members.find? fun m => !t.finished.any fun x => decide (x = m)) = some k)

/-- One core of a host save: it is saved and leaves its site, or stays. -/
def State.saveOut (s : State) (n : BitVec 6) (x : Nat × Core) : State :=
  let t := s.imageTask n x.2.key
  match s.saveCore n x.1 x.2.forImage t with
  | none => s
  | some (y, s) =>
    let s := (s.vacate x.2.key).onCtx n.toNat fun c => { c with saved := c.saved ++ [y] }
    match t with
    | none => s
    | some t => { s with tasks := s.tasks.filter fun u => decide (u.members ≠ t.members) }

/-- The compute cores of a save with their slots: by rising number, those already saved counted (R353). -/
def State.saveSlots (s : State) (n : BitVec 6) : List (Nat × Core) :=
  let done := ((vget s.ctxs n.toNat).saved.filter fun y => !y.core.newt).map (·.core.key)
  (s.taskCores n).map fun c =>
    (1 + (done.countP fun k => decide (k < c.key)) + ((s.taskCores n).countP fun d => decide (d.key < c.key)), c)

/-- The conductor is saved into slot 0, which is written again where it is changed out (R349). -/
def State.saveConductor (s : State) (n : BitVec 6) : State :=
  let fen := (vget s.ctxs n.toNat).home.toNat
  match s.conductorCore n with
  | some c => (s.saveOut n (0, c)).onConductor fen n fun d => { d with state := if d.state = .ended then .ended else .waiting }
  | none =>
    match ((vget s.fens fen).conductors.find? fun d => decide (d.ctx = n)).bind (·.image) with
    | none => s
    | some y =>
      match s.saveCore n 0 y.core none with
      | none => s
      | some (z, s) =>
        (s.onConductor fen n fun d => { d with image := none, readBack := [] }).onCtx n.toNat fun x => { x with saved := x.saved ++ [z] }

/-- The running counts of a launch's groups, as the count area holds them (R158). A restore reads them back; a store of another agent
there has no effect on the launch, so that what it goes on with is what was written. -/
def Launch.countArea (l : Launch) : List (Word × List Byte) :=
  (List.range 16).filterMap fun k =>
    ((l.slots[k]?).join).map fun g =>
      (l.carea + BitVec.ofNat 64 (2 * l.nodes.length * k), g.counts.flatMap fun c => natToBytes 2 c)

/-- The header of a save area (R353), and the count areas. -/
def State.saveHeader (s : State) (n : BitVec 6) (walker : List Byte) : List (Word × List Byte) :=
  let x := vget s.ctxs n.toNat
  let b := BitVec.ofNat 64 x.saveBase
  let dir := (List.range x.nslot).flatMap fun k => (x.saved.find? fun y => decide (y.slot = k)).elim [0, 0, 0, 0] fun y =>
    y.core.dirEntry
  [(b, natToBytes 8 1 ++ natToBytes 8 n.toNat ++ natToBytes 8 x.saved.length), (b + 64, dir), (b + 0x8000, walker)]
    ++ (s.launches.filter fun l => decide (l.ctx = n)).flatMap Launch.countArea

/-- Ranges written one after another. -/
def State.writeAll (s : State) (fen ctx : Nat) : List (Word × List Byte) → Tried State
  | [] => .ok s
  | r :: rs =>
    match s.writeVirt fen none ctx r.1 r.2 0 with
    | .error f => .error f
    | .ok s => State.writeAll s fen ctx rs

/-- The save ends (R350, step 7): PST becomes 2, and MSI-X vector 1 is raised. -/
def State.savedNow (s : State) (n : BitVec 6) : State :=
  let x := vget s.ctxs n.toNat
  let walker := (List.range 0x8000).map fun i => Config.freeByte (s.tick * 0x8000 + i)
  match s.writeAll x.home.toNat n.toNat (s.saveHeader n walker) with
  | .error e => (e.2.met e.1).postStop (.save n 4095) (saveRec n x.home.toNat 0xFFF e.1 1)
  | .ok s =>
    let s := s.fresh.onCtx n.toNat fun x => { x.setCsts 2 false with savedHdr := walker, saveWait := none }
    ({ s with pkg := { s.pkg with preemptBusy := none } } : State).raiseMsix 1

/-- SAVE_RELEASE (R350, R355). Once everything has drained, the images are written and the cores become idle; when all of
them stand in the save area, PST becomes 2. -/
def execSaveRelease (n : BitVec 6) (s : State) : Out :=
  let x := vget s.ctxs n.toNat
  .next (if x.pst ≠ 1 ∨ x.state ≠ 2 ∨ !s.contextDrained n then s
    else
      let s := (s.saveSlots n).foldl (fun s x => s.saveOut n x) s
      let s := if (vget s.ctxs n.toNat).saved.any (fun y => decide (y.slot = 0)) then s else s.saveConductor n
      if !(s.taskCores n).isEmpty || (s.conductorCore n).isSome || s.emergAny n
          || s.await.any (fun a => decide (a.who = .save n 4095)) then s
      else s.savedNow n)

/-! ### Host restores (R347, R356, R357) -/

/-- PREEMPT_RESTORE (R347, R357). The restore begins. -/
def execPreemptRestore (n : BitVec 6) (s : State) : Out :=
  let x := vget s.ctxs n.toNat
  .next (if !s.visible || s.pkg.preemptBusy.isSome || decide (x.state ≠ 2) || decide (x.pst ≠ 2) then s
    else
      let s := s.onCtx n.toNat fun x => x.setCsts 3 (bit x.csts 2)
      { s with pkg := { s.pkg with preemptBusy := some n } })

/-- Where a saved core goes: its own logical core, or the newt that now runs its fen's conductors; and its site. -/
def State.restorePlace (s : State) (y : SavedSlot) : Option (CoreKey × Byte) :=
  let fen := y.core.fen
  if y.core.newt then (s.conductorKey fen).map fun k => (k, (s.getCore k).site)
  else ((vget s.fens fen).siteFor (y.core.key % 128)).map fun x => (y.core.key, BitVec.ofNat 8 x)

/-- A compute core of a restore takes its site, which no other core of it can have then (R20). -/
def State.placeSaved (s : State) (y : SavedSlot) : State :=
  if y.core.newt then s else s.onFen y.core.fen fun f => f.take (y.core.key % 128)

/-- Every core of the restore is idle and has a live site, each spare counted once. -/
def State.restoreFree (s : State) (x : Ctx) : Bool :=
  (x.saved.foldl (fun (st : State × Bool) y =>
    (st.1.placeSaved y, st.2 && (st.1.restorePlace y).elim false fun p => decide ((s.getCore p.1).status = .idle))) (s, true)).2

/-- The launches of a context. -/
def State.launchesOf (s : State) (n : BitVec 6) : List Launch := s.launches.filter fun l => decide (l.ctx = n)

/-- The reads of a restore (R357, step 3): the header, the slots, the count areas. -/
def State.restoreParts (s : State) (n : BitVec 6) : List (Word × Nat) :=
  let x := vget s.ctxs n.toNat
  areaParts x.saveBase 65536 ++ (x.saved.flatMap fun y => x.slotParts y.slot)
    ++ (s.launchesOf n).flatMap fun l => l.countArea.flatMap fun r => areaParts r.1.toNat r.2.length

/-- The slot that the next read of a restore belongs to; 4,095 for the header and the count areas. -/
def Ctx.restoreSlot (x : Ctx) (done : Nat) : Nat :=
  let h := (areaParts x.saveBase 65536).length
  let k := (x.slotParts 0).length
  if done < h then 4095 else ((x.saved[(done - h) / k]?).map (·.slot)).getD 4095

/-- The slots as they have been read back, in order. -/
def loadSlots : List SavedSlot → List Byte → Option (List Core)
  | [], _ => some []
  | y :: ys, bs =>
    match y.load (bs.take slotBytes) with
    | none => none
    | some c => (loadSlots ys (bs.drop slotBytes)).map (c :: ·)

/-- The cores of a restore whose reads are made: none when the header or a block is not what the save wrote (R354). -/
def Ctx.loadAll (x : Ctx) (bs : List Byte) : Option (List Core) :=
  if bytesToNat (bs.take 8) ≠ 1 ∨ (bs.take 65536).drop 0x8000 ≠ x.savedHdr then none else loadSlots x.saved (bs.drop 65536)

/-- A restored core takes its place, which `restoreFree` has found. -/
def State.seatSaved (s : State) (n : BitVec 6) (p : SavedSlot × Core) : State :=
  match s.restorePlace p.1 with
  | none => s
  | some (k, site) =>
    let s := (s.placeSaved p.1).seat k site p.2
    let s := if p.2.newt then s.onConductor p.2.fen n fun d => { d with state := if d.state = .ended then .ended else .running } else s
    match p.1.task with
    | none => s
    | some t => { s with tasks := s.tasks ++ [t] }

/-- What is held for the restored cores lands in order of arrival, transfers piece by piece, each with its increment. -/
def State.deliverAll (s : State) (fen : Nat) (keys : List CoreKey) : State :=
  let steps := ((vget s.fens fen).held.map fun h => match h.1 with
    | .transfer t _ => (xferOrder t).length + 2
    | .netWrite _ _ => 1
    | .netRead _ _ _ _ _ => 1
    | .engWrite _ _ _ _ => 1
    | .engRead _ _ _ => 1
    | .count _ _ _ _ => 1).sum
  (List.range steps).foldl
    (fun s _ =>
      let f := vget s.fens fen
      match f.held.zipIdx.find? fun h =>
        keys.any (fun k => decide (holdKey k = h.1.1.target fen)) && s.heldOpen fen h.1.1 && f.firstHeld fen h.2 h.1.1 with
      | none => s
      | some h => s.deliverHeld fen h.2) s

/-- The restore ends (R357, steps 3 to 6). -/
def State.restoredNow (s : State) (n : BitVec 6) (cs : List Core) : State :=
  let x := vget s.ctxs n.toNat
  let s := (x.saved.zip cs).foldl (fun s p => s.seatSaved n p) s
  let s := s.onCtx n.toNat fun x => { x.setCsts 0 (bit x.csts 2) with saved := [], savedHdr := [], keptResume := [], readBack := [] }
  let s := ({ s with pkg := { s.pkg with preemptBusy := none } } : State).raiseMsix 1
  let s := (List.range 30).foldl (fun s f => s.deliverAll f (x.saved.map (·.core.key))) s
  x.keptResume.foldl (fun s r => s.resume r.1 r.2) s

/-- RESTORE_COMPLETE (R356 to R358). Once the cores are idle, their state is loaded, held transfers land, and every core
issues its saved pc next. A read that faults posts a record, and the restore goes on with that read after its RESUME. -/
def execRestoreComplete (n : BitVec 6) (s : State) : Out :=
  let x := vget s.ctxs n.toNat
  let ofSave (w : Stopped) : Bool := match w with
    | .save m _ => decide (m = n)
    | .core _ => false
    | .cmd _ _ => false
    | .mma _ _ => false
    | .reed _ _ => false
    | .copy _ _ => false
    | .coll _ _ => false
    | .entry _ _ _ => false
    | .transfer _ => false
    | .exch _ _ => false
    | .launch _ => false
    | .status _ _ => false
  if x.pst ≠ 3 ∨ s.await.any (fun a => ofSave a.who) ∨ !s.restoreFree x then .next s
  else
    let r := s.readArea n (s.restoreParts n) x.readBack
    let s := r.2.2
    match r.2.1 with
    | some f =>
      let slot := x.restoreSlot r.1.length
      let c := x.saved.find? fun y => decide (y.slot = slot)
      .next ((s.onCtx n.toNat fun x => { x with readBack := r.1 }).postStop (.save n slot)
        (saveRec n x.home.toNat (c.elim 0xFFF (·.core.lcore)) f 2))
    | none =>
      match x.loadAll r.1.flatten with
      | none => .fault .foreignSaveArea
      | some cs => .next (s.restoredNow n cs)

/-! ### Failover of a communication master (R21, R387, R389) -/

/-- Reserved entries return to the head of the mailbox in their order. -/
def mailboxBack (l : List MbEntry) : List MbEntry :=
  ((l.filter (·.taken)).map fun e => { e with taken := false }) ++ l.filter fun e => !e.taken

/-- The failed newt stops; with it the service program that ran there. -/
def State.deadNewt (s : State) (fen site : Nat) : State := s.onCore (newtKey fen site) fun c => { c.vacated with site := c.site }

/-- NFAIL (R385). -/
def State.nfail (s : State) (fen cause site : Nat) : State :=
  s.post (eventRec 0x49 cause 0 (fen / 5) (BitVec.ofNat 64 fen) (BitVec.ofNat 64 site))

/-- The record of a newt that failed on its own state (R363). -/
def State.coreFailed (s : State) (fen site : Nat) (core : Bool) : State :=
  if core then s.post ((s.getCore (newtKey fen site)).record 0 0x32 4 false 0 0 0) else s

/-- A record goes on at the first transfer that is not acknowledged: it, and those after it, are sent again (R387, R388). -/
def CollRec.rewind (c : CollRec) : CollRec := { c with pos := c.unacked.foldl min c.pos, data := [], unacked := [], refused := [] }

/-- An exchange goes on with the quanta, and the close flits, that are not acknowledged: they are sent again. -/
def Exch.rewind (e : Exch) : Exch := { e with again := e.again ++ e.unacked, unacked := [], closeAgain := e.closes.map (·.1) }

/-- The standby has the master role: it goes on with the records and the exchanges of the fen, and starts a service program that
was running afresh. `was`: the context of that program. -/
def State.newMaster (s : State) (fen : FenNo) (old new : Nat) (was : Option (BitVec 6)) : State :=
  let s := { s.onFen fen.val fun x => { x with
      master := some new, standby := none, service := none, failed := x.failed ++ [old]
      mailbox := mailboxBack x.mailbox, colls := x.colls.map CollRec.rewind } with
    exchs := mapIf (fun e => decide (e.fen = fen)) Exch.rewind s.exchs }
  let s := (s.exchs.filter fun e => decide (e.fen = fen)).foldl State.exchGo s
  match was with
  | none => s
  | some n => if (vget s.ctxs n.toNat).noProgram then s else s.startService fen.val (newtKey fen.val new) n

/-- NEWT_FAILOVER (R387, R389). The standby saves the conductor that it runs and takes the master role; a fen whose second
newt fails is left without a master. `core`: the master took FLT_CORE. A save of that conductor's context that has begun finds it changed
out. -/
def execNewtFailover (fen : FenNo) (core : Bool) (s : State) : Out :=
  let f := vget s.fens fen.val
  .next (match f.master with
    | none => s
    | some m =>
      match f.standby with
      | some b =>
        let k := newtKey fen.val b
        let c := s.getCore k
        if decide (c.status ≠ .idle) && !s.drained c then s
        else
          let s' := if c.status = .idle then s else s.conductorOut fen.val k
          if (s'.getCore k).status ≠ .idle then s'
          else
            let was := if (s.getCore (newtKey fen.val m)).status = .running then f.service else none
            ((((s'.coreFailed fen.val m core).deadNewt fen.val m).newMaster fen m b was).nfail fen.val 1 m)
      | none =>
        let k := newtKey fen.val m
        let c := s.getCore k
        let s := s.coreFailed fen.val m core
        let s := if decide (c.status ≠ .idle) && !s.serving k then
          s.onConductor fen.val c.ctx fun d => { d with state := .waiting, image := some ⟨0, c.forImage, none, [], false⟩ } else s
        ((s.deadNewt fen.val m).onFen fen.val fun x => { x with
          master := none, service := none, failed := x.failed ++ [m], mailbox := mailboxBack x.mailbox }).nfail fen.val 2 m)

end Sys2Proof.Machine
end

