-- ==== Sys2Proof/Machine/Host.lean ====
section
/-! DEFINITION. The host's side (R119, R132, R184 to R188, R336, R337, R343 to R346, R366, R373): starting and ending contexts,
invalidating translations, host accesses to memory, to the context table and to the registers, the fault queue and its
interrupts, time limits, and the counters that firmware keeps. -/

namespace Sys2Proof.Machine

/-! ### Starting a context (R180, R185, R345, R349) -/

/-- The context of a ready entry becomes running: its kept words start afresh and its limits are read. -/
def Ctx.start (x : Ctx) : Ctx :=
  { x with
    state := 2, lnchst := 0, wlkst := 0, csts := 0, lim := x.limits, pending := [], ended := false, cend := false
    tdown := false, saved := [], savedHdr := [], keptResume := [], readBack := [], saveWait := none }

/-- A CTXGO is accepted: the host sees the device (R28), it is ready, STATE is 1, and SAVB is valid (R185, R349). One whose HOME is 30 or 31 is ignored:
the spec does not say what becomes of it (DESIGN CHOICE, log entry 103). -/
def State.mayStart (s : State) (n : BitVec 6) : Bool :=
  let x := vget s.ctxs n.toNat
  s.visible && bit s.pkg.mgst 0 && decide (x.state = 1) && !x.savbBad && decide (x.nslot ≠ 0) && decide (x.home.toNat < 30)

/-- The context's conductor waits for its home fen's newt. -/
def State.started (s : State) (n : BitVec 6) : State :=
  (s.onCtx n.toNat Ctx.start).onFen (vget s.ctxs n.toNat).home.toNat fun f => { f with
    conductors := f.conductors ++ [⟨n, .ready, none, [], 0, false⟩] }

/-- The newt that a starting conductor finds idle; a restore may have taken it (R357). -/
def State.idleNewt (s : State) (fen : Nat) : Option CoreKey :=
  match s.conductorKey fen with
  | none => none
  | some k => if decide ((s.getCore k).status = .idle) && !s.serving k && !s.newtTaken fen then some k else none

/-- CONTEXT_START (R185). The conductor starts at ENTRY on its newt, or is ready there until the newt can run it (R30). An ENTRY
that is not 8-byte aligned is taken as it stands: the spec does not say what becomes of it (DESIGN CHOICE, log entry 103). -/
def execContextStart (n : BitVec 6) (s : State) : Out :=
  let x := vget s.ctxs n.toNat
  let fen := x.home.toNat
  .next (if !s.mayStart n then s
    else
      match s.idleNewt fen with
      | none => s.started n
      | some k =>
        ((s.started n).onCore k fun c => c.startConductor n x.entry).onConductor fen n fun d => { d with state := .running })

/-! ### Tearing a context down (R343, R386) -/

/-- A core without the context: idle if it ran it, and with nothing of it on the way. -/
def Core.dropContext (c : Core) (n : BitVec 6) : Core :=
  let mine := decide (c.status ≠ .idle) && decide (c.ctx = n)
  let c := if mine then c.vacated else c
  { c with
    lastCtx := if c.lastCtx = some n then none else c.lastCtx
    sp := { c.sp with
      net := c.sp.net.filter fun w => decide (w.ctx ≠ n)
      fifoHeld := c.sp.fifoHeld.filter fun w => decide (w.ctx ≠ n) } }

/-- The context that a reserving node belongs to still has the node. -/
def keepResv (ready : List ReadyNode) (r : Option (Nat × Nat × Nat)) : Option (Nat × Nat × Nat) :=
  match r with
  | none => none
  | some x => if ready.any fun y => decide ((y.launch, y.gslot, y.node) = x) then some x else none

/-- A fen without the context. `gone`: the cores that ran it. -/
def Fen.dropContext (f : Fen) (n : BitVec 6) (gone : List CoreKey) : Fen :=
  let entry (e : MbEntry) : Bool := decide (mbCtx e.bits ≠ n.toNat)
  let ready := f.ready.filter fun r => decide (r.ctx ≠ n)
  { f with
    mailbox := f.mailbox.filter entry
    mbWait := f.mbWait.filter fun w => !gone.any fun k => decide (k = w.key)
    reading := f.reading.filter entry
    service := if f.service = some n then none else f.service
    colls := f.colls.filter fun c => decide (c.ctx ≠ n)
    coming := f.coming.filter fun c => decide (c.t.ctx ≠ n)
    arriving := f.arriving.filter fun a => decide (a.t.ctx ≠ n)
    held := f.held.filter fun h => decide (h.1.ctx ≠ n)
    leaseReqs := f.leaseReqs.filter fun q => decide (q.ctx ≠ n)
    conductors := f.conductors.filter fun d => decide (d.ctx ≠ n)
    ready := ready
    doneNodes := f.doneNodes
    resv := keepResv ready f.resv
    emerg := f.emerg.filter fun y => decide (y.2.1 ≠ n) }

/-- A die's copy engines without the context. -/
def Die.dropContext (d : Die) (n : BitVec 6) : Die :=
  { d with engines := d.engines.map fun e => e.bind fun j => if j.ctx = n then none else some j }

/-- THE TEARDOWN (R343): cores, commands and pending work of the context end where they stand, and TDOWN becomes ready to post.
Where PST changes to 0, MSI-X vector 1 is raised (R348). -/
def State.teardown (s : State) (n : BitVec 6) : State :=
  let gone := (s.allCores.filter fun c => decide (c.status ≠ .idle) && decide (c.ctx = n)).map (·.key)
  let s := { s with
    core := s.core.dropContext n
    cores := s.cores.map (Core.dropContext · n)
    tasks := s.tasks.filter fun t => decide (t.ctx ≠ n)
    launches := s.launches.filter fun l => decide (l.ctx ≠ n)
    fens := s.fens.map (Fen.dropContext · n gone)
    dies := s.dies.map (Die.dropContext · n)
    exchs := s.exchs.filter fun e => decide (e.ctx ≠ n)
    skink := { s.skink with
      pending := s.skink.pending.filter fun p => decide (p.ctx ≠ n)
      issued := s.skink.issued.filter fun p => decide (p.1 ≠ n)
      done := s.skink.done.filter fun p => decide (p.1 ≠ n) }
    await := s.await.filter fun a => decide (a.ctx ≠ n)
    pkg := { s.pkg with preemptBusy := if s.pkg.preemptBusy = some n then none else s.pkg.preemptBusy } }
  let s := if (vget s.ctxs n.toNat).pst = 0 then s else s.raiseMsix 1
  (s.onCtx n.toNat fun x => { x.setCsts 0 (bit x.csts 2) with
    state := 3, tdown := false, pending := [], saved := [], savedHdr := [], keptResume := [], readBack := [], saveWait := none }).post
      (eventRec 0x23 0 n.toNat 0 0 0)

/-- A host write to STATE (R185, R343): 3 tears the context down, unless it is torn down already; 0 and 1 are written but while it
runs, and while its TDOWN has still to be posted; only CTXGO makes it 2 (log entry 62). -/
def State.hostState (s : State) (n : BitVec 6) (v : Nat) : State :=
  let x := vget s.ctxs n.toNat
  if v = 3 then (if x.state = 3 then s else s.teardown n)
  else if v = 2 ∨ x.state = 2 ∨ (x.state = 3 ∧ !x.tdown) then s
  else s.onCtx n.toNat fun x => { x with state := BitVec.ofNat 2 v }

/-- CONTEXT_TEARDOWN (R343). A host write, which does not reach the device with die 0 lost (R28). -/
def execContextTeardown (n : BitVec 6) (s : State) : Out :=
  .next (if s.visible && decide ((vget s.ctxs n.toNat).state = 2) then s.hostState n 3 else s)

/-- CONTEXT_FREE (R343). Ignored until TDOWN has been posted. -/
def execContextFree (n : BitVec 6) (s : State) : Out :=
  .next (if s.visible && decide ((vget s.ctxs n.toNat).state = 3) then s.hostState n 0 else s)

/-! ### Invalidation of translations (R119, R186) -/

/-- TLBINV (R186). A write while DONE = 0 is ignored. -/
def execTlbinv (v : Word) (s : State) : Out :=
  .next (if s.visible && bit s.pkg.tlbinv 63 then
      { s with pkg := { s.pkg with tlbinv := v &&& 0x7FFFFFFFFFFF003F } }
    else s)

/-- A translation lies in the range that TLBINV names, or, for an LSZ outside 16 to 57, belongs to its context. -/
def TlbEntry.invalidated (e : TlbEntry) (v : Word) : Bool :=
  let lsz := bits v 5 0
  let m := max lsz e.lsz
  decide (e.ctx.toNat = bits v 62 57)
    && (!(decide (16 ≤ lsz) && decide (lsz ≤ 57)) || decide (e.va.toNat / 2 ^ m = bits v 56 16 * 65536 / 2 ^ m))

/-- TLBINV_DONE (R119). No TLB of the package holds the range any more. An access translates when it is performed, so none
is left that used such an entry. -/
def execTlbinvDone (s : State) : Out :=
  let v := s.pkg.tlbinv
  let keep (l : List TlbEntry) := l.filter fun e => !e.invalidated v
  let core (c : Core) : Core := { c with tlb := keep c.tlb }
  .next (if bit v 63 then s
    else
      { s with
        core := core s.core
        cores := s.cores.map core
        fens := s.fens.map fun f => { f with tlb := keep f.tlb }
        pkg := { s.pkg with tlbinv := v ||| 0x8000000000000000 } })

/-! ### Attestation (R182, R183, R401) -/

/-- ATTN (R182). A nonce written while a report is being built is ignored. -/
def execAttn (nonce : BitVec 256) (s : State) : Out :=
  .next (if s.visible && s.pkg.nonce.isNone then
      { s with pkg := { s.pkg with nonce := some nonce, attst := 0, attlen := 0, attr := [] } }
    else s)

/-- One image of the report, with its die and stage. -/
def imageEntry (x : ImageFacts) (kind : Nat) : List Byte := bvBytes x.digest ++ bvBytes x.version ++ natToBytes 4 kind

/-- The images that run (R182, R183): stage 1, then the management image of each die that is not lost. -/
def State.images (s : State) : List (List Byte) :=
  (s.pkg.running.zipIdx.filter fun x => decide (x.2 = 0) || !s.dieLost (x.2 - 1)).map fun x =>
    imageEntry x.1 (if x.2 = 0 then 0x100 else (x.2 - 1) + 0x200)

/-- What the signatures of a report cover (R183). The failed sites are those of every fen, a lost die's 134 a fen among them: the
spec does not say whether these count (DESIGN CHOICE, log entry 104). -/
def State.reportBody (s : State) (nonce : BitVec 256) : List Byte :=
  let m := s.images.length
  let chans := (s.dies.toList.map fun d => d.retired.length).sum
  let sites := (s.fens.toList.map fun f => f.failed.length).sum
  natToBytes 4 (80 + 56 * m + 64 + 3309) ++ natToBytes 2 1 ++ natToBytes 2 m ++ bvBytes nonce ++ bvBytes Config.deviceId
    ++ natToBytes 2 chans ++ natToBytes 2 sites ++ natToBytes 4 0 ++ s.images.flatten

/-- The attestation report (R183). -/
def State.report (s : State) (nonce : BitVec 256) : List Byte :=
  let b := s.reportBody nonce
  b ++ bvBytes (Config.edSignature b) ++ bvBytes (Config.mlSignature b s.tick)

/-- ATTESTATION_READY (R182, R183, R401). `err` 0: the report is ready; 1 or 2: it fails to build with that ECAUSE. -/
def execAttestationReady (err : BitVec 4) (s : State) : Out :=
  .next (match s.pkg.nonce with
    | none => s
    | some n =>
      if err = 0 then
        let r := s.report n
        { s.fresh with pkg := { s.pkg with nonce := none, attst := 1, attlen := BitVec.ofNat 64 r.length, attr := r } }
      else if err.toNat ≤ 2 then
        { s with pkg := { s.pkg with
            nonce := none, attst := BitVec.ofNat 64 (2 + 16 * err.toNat), attlen := 0, attr := [] } }
      else s)

/-! ### The fault queue (R336 to R338) -/

/-- A record as it stands in the ring (R338). -/
def FaultRec.encode (r : FaultRec) (seq : BitVec 32) (ph : Bool) : BitVec 512 :=
  BitVec.ofNat 512
    (b2n ph + r.ext.toNat * 2 ^ 8 + r.cause.toNat * 2 ^ 168 + r.code.toNat * 2 ^ 176 + r.agent.toNat * 2 ^ 186
      + r.slot.toNat * 2 ^ 190 + r.ctx.toNat * 2 ^ 193 + r.fen.toNat * 2 ^ 199 + r.site.toNat * 2 ^ 204
      + r.lcore.toNat * 2 ^ 212 + seq.toNat * 2 ^ 224 + r.scyc.toNat * 2 ^ 256 + b2n r.hmode * 2 ^ 322 + b2n r.repl * 2 ^ 323
      + r.pc.toNat * 2 ^ 327 + r.info0.toNat * 2 ^ 384 + r.info1.toNat * 2 ^ 448)

/-- The number of records that the ring holds. -/
def Pkg.ringSize (p : Pkg) : Nat := 2 ^ (bits p.fqbase 3 0 + 6)

/-- The ring has no room, or there is none. -/
def Pkg.ringFull (p : Pkg) : Bool :=
  decide (p.fqbase = 0) || decide ((bits p.fqhead 31 0 + 2 ^ 32 - bits p.fqtail 31 0) % 2 ^ 32 = p.ringSize)

/-- FQHEAD after a record: PH flips when the index reaches a multiple of the size. -/
def Pkg.headNext (p : Pkg) : Word :=
  let i := (bits p.fqhead 31 0 + 1) % 2 ^ 32
  let flip := decide (i % p.ringSize = 0)
  BitVec.ofNat 64 (i + b2n (bit p.fqhead 32 != flip) * 2 ^ 32)

/-- The oldest stop whose die has room becomes ready (R337). -/
def State.admitLate (s : State) : State :=
  match s.late.findIdx? fun x => !s.dieFull x.2.die with
  | none => s
  | some i => { s with ready := s.ready ++ [s.late.getD i (0, default)], late := s.late.eraseIdx i }

/-- A record of TDOWN has been posted: the host may free the entry from now on (R343). -/
def State.noteTdown (s : State) (r : FaultRec) : State :=
  if r.code = 0x23 then s.onCtx r.ctx.toNat fun x => { x with tdown := decide (x.state = 3) } else s

/-- FAULT_RECORD_POST (R336, R337). The record that became ready first is written to its slot of the ring. -/
def execFaultRecordPost (s : State) : Out :=
  .next (match s.ready with
    | [] => s
    | (q, r) :: rest =>
      if s.pkg.ringFull || s.dieLost 0 then s
      else
        let at_ := bits s.pkg.fqbase 47 12 * 4096 + 64 * (bits s.pkg.fqhead 31 0 % s.pkg.ringSize)
        State.admitLate (State.noteTdown { s with
          ready := rest
          hostMem := s.hostMem.writeBytes at_ (bvBytes (r.encode q (bit s.pkg.fqhead 32)))
          msixDue := true
          pkg := { s.pkg with fqhead := s.pkg.headNext } } r))

/-- MSI_X_VECTOR_0 (R336). One vector covers every record written before it. -/
def execMsiXVector0 (s : State) : Out := .next (if s.msixDue && s.visible then { s.raiseMsix 0 with msixDue := false } else s)

/-! ### Time limits (R340, R345, R346, R390) -/

/-- CAUSE, INFO0 and INFO1 of a FLT_TMO; a hold on a claimed queue has none (R346). -/
def WaitNote.tmo (n : WaitNote) : Option (Nat × Word × Word) :=
  match n.what with
  | .token t => some (1, t.setWidth 64, 0)
  | .counter c v => some (2, c.setWidth 64, v.setWidth 64)
  | .barrier b => some (3, b.setWidth 64, 0)
  | .mailbox => some (4, 0, 0)
  | .launchSlot => some (5, 0, 0)
  | .scoreboard x k => some (6, BitVec.ofNat 64 (x.toNat + 4 * k.toNat), 0)
  | .claim => none
  | .freeze q => some (7, q.setWidth 64, n.since)

/-- WLIM and FLIM in core cycles; 0 is no limit. -/
def Ctx.wlim (x : Ctx) : Nat := bits x.lim 31 0 * 65536
def Ctx.flim (x : Ctx) : Nat := bits x.lim 63 32 * 1024

/-- The limit of a wait. -/
def WaitNote.limit (n : WaitNote) (x : Ctx) : Nat :=
  match n.what with
  | .freeze _ => x.flim
  | .token _ => x.wlim
  | .counter _ _ => x.wlim
  | .barrier _ => x.wlim
  | .mailbox => x.wlim
  | .launchSlot => x.wlim
  | .scoreboard _ _ => x.wlim
  | .claim => 0

/-- A wait or a freeze has held as long as its limit, and its record is not posted. -/
def WaitNote.due (n : WaitNote) (x : Ctx) : Bool :=
  !n.posted && decide (n.limit x ≠ 0) && decide (n.limit x ≤ n.held) && n.tmo.isSome

/-- The record of a wait or a freeze. -/
def Core.tmoRec (c : Core) (n : WaitNote) : Option FaultRec :=
  n.tmo.map fun t => c.record 0 0x0D t.1 false n.slot t.2.1 t.2.2

/-- The record that one of a core's waits, or its freeze, is due to post. -/
def Core.tmoDue (c : Core) (x : Ctx) : Option FaultRec :=
  ((c.wait.toList ++ c.waits ++ c.freeze.toList).find? (·.due x)).bind c.tmoRec

/-- The record that was due is posted: that of the wait in force, of the next of the bundle's further waits, or of the freeze. -/
def Core.tmoPosted (c : Core) (x : Ctx) : Core :=
  let mark (n : WaitNote) : WaitNote := { n with posted := true }
  if c.wait.any fun n => n.due x then { c with wait := c.wait.map mark }
  else if c.waits.any fun n => n.due x then
    { c with waits := (c.waits.takeWhile fun n => !n.due x) ++ match c.waits.dropWhile fun n => !n.due x with
        | [] => []
        | n :: l => mark n :: l }
  else { c with freeze := c.freeze.map mark }

/-- The first command of a core that has waited too long for a place in the mailbox, and its record. -/
def State.mbTmo (s : State) (c : Core) : Option (Nat × FaultRec) :=
  let x := vget s.ctxs c.ctx.toNat
  ((vget s.fens c.fen).mbWait.find? fun w => decide (w.key = c.key) && !w.posted && decide (x.wlim ≠ 0)
      && decide (w.began + x.wlim ≤ c.ran)).bind fun w =>
    (c.cmd w.cmd).map fun m =>
      (w.cmd, c.record (if m.slot = 4 then 1 else 2) 0x0D 8 false m.slot (BitVec.ofNat 64 ((kindOf m.op).getD 0)) 0)

/-- An image's core without the notes of waits that are over: they neither count on nor post (R346). -/
def State.stillWaits (s : State) (c : Core) : Core :=
  { c with wait := c.wait.filter fun n => !s.noteOver c n, waits := c.waits.filter fun n => !s.noteOver c n }

/-- The conductor of a fen that is changed out and whose wait is due to post: its cycles have been counted with domain time. -/
def State.outTmo (s : State) (key : CoreKey) : Option (BitVec 6 × FaultRec) :=
  if s.conductorKey (fenOfKey key) = some key then
    (vget s.fens (fenOfKey key)).conductors.findSome? fun d => d.image.bind fun y =>
      ((s.stillWaits y.core).tmoDue (vget s.ctxs d.ctx.toNat)).map fun r => (d.ctx, r)
  else none

/-- A save has waited too long for the service program that the newt runs (R167): a FLT_TMO whose CAUSE the spec does not give (a
free value, log entry 105). -/
def State.saveTmo (s : State) (c : Core) : Option FaultRec :=
  let x := vget s.ctxs c.ctx.toNat
  (x.saveWait.filter fun b => s.serving c.key && decide (c.status ≠ .idle) && decide (x.wlim ≠ 0) && decide (b + x.wlim ≤ c.ran)).map
    fun _ => c.record 0 0x0D (Config.freeByte s.tick).toNat false 0 0 0

/-- Domain time passes for the conductors that are changed out: their waits go on, and hold for as many whole cycles of their die's
clock (R346; DESIGN CHOICE, log entry 58). -/
def State.outCycles (s : State) (ns : Nat) : State :=
  let conductor (fen : Nat) (d : Conductor) : Conductor := { d with image := d.image.map fun y =>
    let m := ns * (vget s.dies (fen / 5)).clock / 1000
    let more (n : WaitNote) : WaitNote := if s.noteOver y.core n then n else { n with held := n.held + m }
    { y with core := { y.core with wait := y.core.wait.map more, waits := y.core.waits.map more } } }
  { s with fens := Vector.ofFn fun i : Fin 30 =>
      { vget s.fens i.val with conductors := (vget s.fens i.val).conductors.map (conductor i.val) } }

/-- WAIT_TIMEOUT (R167, R346, R390). A wait, a freeze, or a command's wait for the mailbox that has reached its limit posts one
record and goes on. -/
def execWaitTimeout (key : CoreKey) (s : State) : Out :=
  let c := s.getCore key
  .next (match (if c.status = .idle then none else c.tmoDue (vget s.ctxs c.ctx.toNat)) with
    | some r => (s.onCore key fun d => d.tmoPosted (vget s.ctxs c.ctx.toNat)).post r
    | none =>
      match s.mbTmo c with
      | some (id, r) =>
        (s.onFen c.fen fun f => { f with
          mbWait := mapIf (fun w => decide (w.key = key) && decide (w.cmd = id)) (fun w => { w with posted := true }) f.mbWait }).post r
      | none =>
        match s.outTmo key with
        | some (n, r) =>
          (s.onConductor (fenOfKey key) n fun d => { d with
            image := d.image.map fun y => { y with core := (s.stillWaits y.core).tmoPosted (vget s.ctxs n.toNat) } }).post r
        | none =>
          match s.saveTmo c with
          | some r => (s.onCtx c.ctx.toNat fun x => { x with saveWait := none }).fresh.post r
          | none => s)

/-! ### The context table as the host sees it (R185) -/

/-- A host write to an entry: `bs` its bytes with the written ones in place, and which bytes are written. -/
def State.entryWrite (s : State) (n : Nat) (bs : List Byte) (w : Nat → Bool) : State :=
  let s := s.onCtx n fun x => x.store bs w
  if w 0 then s.hostState (BitVec.ofNat 6 n) (entryField bs 0 1 % 4) else s

/-! ### Host accesses to memory (R123, R132, R362) -/

/-- What a host read of one sector part gives: the bytes, and the poison indication (R362). -/
def State.hostReadPart (s : State) (pa n : Nat) : List Byte × Bool :=
  match s.reachable 0 pa with
  | some _ => ((List.range n).map fun i => Config.freeByte (s.tick * 128 + i), true)
  | none => (s.peek pa n, s.poisoned pa)

/-- HOST_MEM_READ (R132, R362). The bytes, and whether any sector is poisoned; tags are not returned. -/
def execHostMemRead (pa : BitVec 48) (len : Nat) (s : State) : Out :=
  .next (if !s.visible then s
    else
      let ps := (partsOf pa.toNat len).map fun p => s.hostReadPart p.1 p.2
      (partsOf pa.toNat len).foldl (fun s p => (s.request p.1).readNow p.1)
        { s.fresh with pkg := { s.pkg with hostRead := ps.flatMap (·.1), hostPoison := ps.any (·.2) } })

/-- A host write of one sector part: a tag is cleared, and a whole sector loses its poison; absent memory takes nothing. A
write of part of a poisoned sector leaves it poisoned. -/
def State.hostWritePart (s : State) (pa : Nat) (bs : List Byte) : State :=
  match s.entryOf pa with
  | some e =>
    let off := (pa - s.pkg.ctxb.toNat) % 256
    let old := s.entryBytes e
    s.entryWrite e (old.take off ++ bs ++ old.drop (off + bs.length)) fun i =>
      decide (off ≤ i) && decide (i < off + bs.length)
  | none =>
    match s.reachable 0 pa with
    | some _ => s
    | none => if s.poisoned pa && decide (bs.length ≠ 128) then s else ((s.putPhys pa bs 0).request pa).wroteNow pa

/-- HOST_MEM_WRITE (R123, R362). -/
def execHostMemWrite (pa : BitVec 48) (bytes : List Byte) (s : State) : Out :=
  .next (if !s.visible then s
    else
      ((partsOf pa.toNat bytes.length).foldl
        (fun (st : State × List Byte) p => (st.1.hostWritePart p.1 (st.2.take p.2), st.2.drop p.2)) (s, bytes)).1)

/-! ### Host writes to registers (R7, R110, R121, R184, R336, R355, R369, R382, R403) -/

/-- A write to one of a die's registers. -/
def Die.register (d : Die) (o : Nat) (v : Word) : Die :=
  if o = 0x1000 then { d with ovfw := BitVec.ofNat 32 (bits v 63 32), raww := BitVec.ofNat 32 (bits v 31 0) }
  else if o = 0x1008 then { d with heatb := v }
  else if o = 0x1010 then { d with emrgb := v }
  else if o = 0x1020 then { d with ecccnt := v }
  else if o = 0x2010 then { d with dbgtag := setBits d.dbgtag 7 0 (bits v 7 0) }
  else if o = 0x2018 then { d with dbgaux := v &&& 0xFFFFF9FFFFFFFFFF }
  else if 0x2080 ≤ o ∧ o < 0x2100 ∧ o % 8 = 0 then
    { d with dbgraw := setBits d.dbgraw (8 * (o - 0x2080) + 63) (8 * (o - 0x2080)) v.toNat }
  else d

/-- A write to a port's status register: RPLY and CRCE. -/
def Port.register (p : Port) (v : Word) : Port :=
  { p with status := (v &&& 0xFFFFFFFF00000000) ||| (p.status &&& 0x00000000FFFFFFFF) }

/-- A write to one of the package's registers that is plain data. -/
def Pkg.register (p : Pkg) (o : Nat) (v : Word) : Pkg :=
  if o = 0x0040 then { p with fqbase := v &&& 0x0000FFFFFFFFF00F }
  else if o = 0x0050 then { p with fqtail := v &&& 0x00000000FFFFFFFF }
  else p

/-- HOST_REGISTER_WRITE (R7). A register of die d lies at its offset plus d · 0x1_0000; read-only and reserved places
take nothing. -/
def execHostRegisterWrite (off : BitVec 32) (v : Word) (s : State) : Out :=
  let d := off.toNat / 0x10000
  let o := off.toNat % 0x10000
  .next (if !s.visible || s.dieLost d then s
    else
      let s := if d = 0 then { s with pkg := s.pkg.register o v } else s
      let s := if d = 0 ∧ o = 0x0008 then s.setCtxb v else s
      if 6 ≤ d then s
      else
        let s := s.onDie d fun x => x.register o v
        if 0x3400 ≤ o ∧ o < 0x3430 ∧ o % 8 = 0 then
          let k := 6 * d + (o - 0x3400) / 8
          { s with ports := vset s.ports k ((vget s.ports k).register v) }
        else s)

/-! ### Host reads of registers (R7, R184, R336, R347, R373, R399, R401, R403) -/

/-- Eight bytes of a buffer that the registers expose. -/
def bufferWord (bs : List Byte) (off : Nat) : Word := BitVec.ofNat 64 (bytesToNat ((bs.drop off).take 8))

/-- What a host read of a package register returns: a write-only register, or a place of none, reads zero. -/
def Pkg.read (p : Pkg) (o : Nat) : Word :=
  if o = 0x0000 then p.mgst
  else if o = 0x0008 then p.ctxb
  else if o = 0x0020 then p.tlbinv
  else if o = 0x0040 then p.fqbase
  else if o = 0x0048 then p.fqhead
  else if o = 0x0050 then p.fqtail
  else if o = 0x0060 then (if p.preemptBusy.isSome then 0x8000000000000000 else 0)
  else if o = 0x0068 then p.ovpRead
  else if o = 0x0078 then p.bootst
  else if o = 0x0120 then p.attst
  else if o = 0x0128 then p.attlen
  else if 0xA000 ≤ o ∧ o < 0xC000 then bufferWord p.attr (o - 0xA000)
  else 0

/-- What a host read of a die's register returns. -/
def Die.read (d : Die) (o : Nat) : Word :=
  if o = 0x1000 then d.ovfw ++ d.raww
  else if o = 0x1008 then d.heatb
  else if o = 0x1010 then d.emrgb
  else if o = 0x1018 then d.retst
  else if o = 0x1020 then d.ecccnt
  else if o = 0x2008 then d.dbgst
  else if o = 0x2010 then d.dbgtag
  else if o = 0x2018 then d.dbgaux
  else if 0x2080 ≤ o ∧ o < 0x2100 then d.dbgraw.extractLsb' (8 * (o - 0x2080)) 64
  else if 0x2400 ≤ o ∧ o < 0x2800 then d.dbgdec.extractLsb' (8 * (o - 0x2400)) 64
  else if o = 0x3000 then d.telem
  else 0

/-- A HOST READ of the eight bytes at an 8-byte aligned offset of BAR0. In recovery only MGST and BOOTST stand there (R400); of a
lost die nothing does. -/
def State.registerRead (s : State) (off : Nat) : Word :=
  let d := off / 0x10000
  let o := off % 0x10000
  if s.pkg.recovery then (if off = 0x0000 ∨ off = 0x0078 then s.pkg.read off else 0)
  else if !s.visible || s.dieLost d || decide (6 ≤ d) then 0
  else if 0x3400 ≤ o ∧ o < 0x3430 then (vget s.ports (6 * d + (o - 0x3400) / 8)).status
  else (vget s.dies d).read o ||| if d = 0 then s.pkg.read o else 0

/-! ### What firmware keeps (R184, R187, R188) -/

/-- TELEM_UPDATE (R184). -/
def execTelemUpdate (die : DieNo) (v : Word) (s : State) : Out :=
  .next (if s.dieLost die.val then s else s.onDie die.val fun d => { d with telem := v })

/-- ENERGY_UPDATE (R188). ENERGY wraps modulo 2^64. -/
def execEnergyUpdate (n : BitVec 6) (uj : Word) (s : State) : Out :=
  .next (s.onCtx n.toNat fun x => { x with energy := x.energy + uj })

/-- CLOCK_THROTTLE (R187). A step of 75 MHz down, to 1.2 GHz at the least. The clock does not rise again until the device boots:
the spec does not say when it does (DESIGN CHOICE, log entry 106). -/
def execClockThrottle (die : DieNo) (s : State) : Out :=
  .next (if s.dieLost die.val then s
    else s.onDie die.val fun d => { d with clock := if 1275 ≤ d.clock then d.clock - 75 else d.clock })

/-! ### The overflow pool (R373) and the CXL event log (R366) -/

/-- OVP (R373). A write that lowers SIZE, or that changes BASE while an entry is in use, is ignored. -/
def execOvp (v : Word) (s : State) : Out :=
  let p := s.pkg
  .next (if !s.visible || decide (bits v 38 28 < bits p.ovp 38 28)
        || (decide (bits v 27 0 ≠ bits p.ovp 27 0) && !p.ovpUsed.isEmpty) then s
    else { s with pkg := { p with ovp := v &&& 0x0000007FFFFFFFFF } })

/-- GET_EVENT_RECORDS (R366). The log's records, as they stand in the fault queue's layout. -/
def execGetEventRecords (s : State) : Out :=
  .next (if !s.visible then s
    else { s with pkg := { s.pkg with
      hostRead := s.pkg.eventLog.flatMap fun r => bvBytes (r.encode 0 false), hostPoison := false } })

/-- CLEAR_EVENT_RECORDS (R366). The oldest n records leave the log. -/
def execClearEventRecords (n : Nat) (s : State) : Out :=
  .next (if s.visible then { s with pkg := { s.pkg with eventLog := s.pkg.eventLog.drop n } } else s)

end Sys2Proof.Machine
end

