-- ==== Sys2Proof/Machine/Repair.lean ====
section
/-! DEFINITION. Heat sweeps (R122), errors of HBM and their repair (R107, R360 to R371), the mire's errors (R375), and
leases under revocation and loss (R114, R153, R376, R377, R398). -/

namespace Sys2Proof.Machine

/-! ### Heat (R121, R122) -/

/-- Every byte of a range halved, rounding down. -/
def Memory.halve (m : Memory) (a n : Nat) : Memory :=
  m.filterMap fun c =>
    if a ≤ c.1 ∧ c.1 < a + n then
      let v : Byte := BitVec.ofNat 8 (c.2.toNat / 2)
      if v = 0 then none else some (c.1, v)
    else some c

/-- The sectors of a range that hold a listed byte; the others hold zeros, which halving leaves as they are. -/
def Memory.sectorsIn (m : Memory) (a n : Nat) : List Nat :=
  m.foldr (fun c l => if a ≤ c.1 ∧ c.1 < a + n then setAdd (c.1 / 128) l else l) []

/-- Bytes of memory halved; a reed read may still return what their sectors held (R152). -/
def State.halveHeat (s : State) (a n : Nat) : State :=
  { (s.mem.sectorsIn a n).foldl (fun s k => s.reedKeep (128 * k)) s with mem := s.mem.halve a n }

/-- The bytes that the next part of a sweep halves: a free number of those left, at least one. -/
def Die.sweepRun (d : Die) (n : Nat) : Nat := n % (heatBytes - d.sweepPos) + 1

/-- HEAT_SWEEP (R122). A die halves the next bytes of its table, some at a time: increments and host reads may fall between.
Each wrap of its sample counter calls for a sweep of every byte. -/
def execHeatSweep (die : DieNo) (s : State) : Out :=
  let d := vget s.dies die.val
  .next (if d.sweep = 0 then s
    else
      let n := d.sweepRun (Config.pick s.tick)
      let last := decide (d.sweepPos + n = heatBytes)
      ((s.halveHeat (d.heatb.toNat + d.sweepPos) n).onDie die.val fun d => { d with
        sweepPos := if last then 0 else d.sweepPos + n
        sweep := if last then d.sweep - 1 else d.sweep }).fresh)

/-! ### Row repair (R367) -/

/-- The count kept for a channel in a list; 0 where it has none. -/
def countOf (l : List (BitVec 6 × Nat)) (c : BitVec 6) : Nat := (l.find? fun x => decide (x.1 = c)).elim 0 (·.2)

/-- The count of a channel replaced. -/
def countSet (l : List (BitVec 6 × Nat)) (c : BitVec 6) (n : Nat) : List (BitVec 6 × Nat) :=
  (c, n) :: l.filter fun x => decide (x.1 ≠ c)

/-- Spare rows that a channel has left. -/
def Die.sparesLeft (d : Die) (c : BitVec 6) : Nat := 128 - countOf d.spares c

/-- A row is remapped to a spare of its channel, and MCE cause 1 is posted; nothing where none is left. -/
def State.remapRow (s : State) (die : Nat) (c : BitVec 6) (row : Nat) : State :=
  let d := vget s.dies die
  if d.sparesLeft c = 0 then s
  else
    (s.onDie die fun d => { d with
      spares := countSet d.spares c (countOf d.spares c + 1)
      remapped := d.remapped ++ [(c, row)]
      corrected := d.corrected.filter fun x => decide ((x.1, x.2.1) ≠ (c, row)) }).mce die 1
      (c.toNat + row * 64) (d.sparesLeft c - 1)

/-- The corrections of a row within the pass. -/
def Die.rowCount (d : Die) (c : BitVec 6) (row : Nat) : Nat :=
  (d.corrected.find? fun x => decide ((x.1, x.2.1) = (c, row))).elim 0 (·.2.2)

/-- A pass begins with the die's first sector: the counts of a pass start afresh. -/
def Die.passStart (d : Die) (off : Nat) : Die := if off = 0 then { d with corrected := [], rebuilds := [] } else d

/-- SCRUB (R367, R369). The scrubber reads a sector with `symbols` symbols in error; 1 to 3 are corrected, and a row's fourth
correction in a pass remaps it. More are left to STRIPE_REBUILD. No value changes. -/
def execScrub (pa : BitVec 48) (symbols : Nat) (s : State) : Out :=
  .next (match s.tier pa.toNat with
    | .hbm die =>
      let off := pa.toNat % 2 ^ 37
      let s := s.onDie die fun d => d.passStart off
      if symbols = 0 ∨ 3 < symbols then s
      else
        let d := vget s.dies die
        let p := d.place off
        let n := d.rowCount p.channel p.row + 1
        let s := s.onDie die fun d => { d.count 48 1 with
          corrected := (p.channel, p.row, n) :: d.corrected.filter fun x => decide ((x.1, x.2.1) ≠ (p.channel, p.row)) }
        if n = 4 then s.remapRow die p.channel p.row else s
    | .mire _ => s
    | .lease _ => s
    | .absent => s)

/-! ### Rebuilds (R365, R370) -/

/-- STRIPE_REBUILD (R365, R367). The sector at `pa` is uncorrectable; `bad` are the stripe positions of other lines that cannot
be decoded. With none, nothing poisoned in the stripe and no channel of it retired, the value is rebuilt and written back, and
its row is remapped; otherwise every line that could not be decoded is poisoned. A line on the retired channel of a degraded
stripe is reconstructed on every access, and is poisoned by any other line of its stripe that is poisoned or in `bad`. -/
def execStripeRebuild (pa : BitVec 48) (bad : List (BitVec 4)) (s : State) : Out :=
  .next (match s.tier pa.toNat with
    | .hbm die =>
      let d := vget s.dies die
      let p := d.place (pa.toNat % 2 ^ 37)
      let sec := pa.toNat / 128
      let others := (List.range p.chans.length).filter fun i => decide (i ≠ p.pos)
      let poisoned := others.any fun i => (stripeSector die p pa.toNat i).elim false fun k => setHas k s.poison
      let lost := (d.lostChannel p).map fun c => p.chans.findIdx fun x => decide (x = c)
      if setHas sec s.poison || (decide (lost = some p.pos) && bad.isEmpty && !poisoned) then s
      else if bad.isEmpty && !poisoned && lost.isNone then
        (s.onDie die fun d => { d.count 32 1 with
          rebuilds := countSet d.rebuilds p.channel (countOf d.rebuilds p.channel + 1) }).remapRow die p.channel p.row
      else
        let more := ((bad.map BitVec.toNat ++ lost.toList).filterMap fun i => stripeSector die p pa.toNat i).filter
          fun k => !setHas k s.poison
        s.poisonDie die (setAdd sec (more.foldl (fun l k => setAdd k l) []))
    | .mire _ => s
    | .lease _ => s
    | .absent => s)

/-! ### Retirement and re-striping (R368, R370, R371) -/

/-- The reason code of MCE cause 2. -/
def retireCode : RetireReason → Nat
  | .training => 1
  | .rebuilds => 2
  | .spares => 3
  | .remapTable _ => 4

/-- The die's records call for the retirement: 8 rebuilds within a pass, or no spare row left; training and the remap table
are found elsewhere. -/
def Die.retireDue (d : Die) (c : BitVec 6) : RetireReason → Bool
  | .training => true
  | .rebuilds => decide (8 ≤ countOf d.rebuilds c)
  | .spares => decide (d.sparesLeft c = 0)
  | .remapTable _ => true

/-- The end of the range that a re-striped die keeps. -/
def keptRange : Nat := 112000000000

/-- RETST takes a degraded group up, and the host is asked for its consent (R371). -/
def State.degrade (s : State) (die : Nat) (c : BitVec 6) : State :=
  (s.onDie die fun d => { d with
    retst := BitVec.ofNat 64 (2 ^ 62 + c.toNat * 2 ^ 55 + groupOf c * 2 ^ 53) }).mce die 3 (groupOf c * 64) keptRange

/-- A retired channel whose group can still be re-striped: the group has no such channel behind it. -/
def Die.waiting (d : Die) : Option (BitVec 6) :=
  d.retired.find? fun c => !d.restriped.any fun x => decide (groupOf x = groupOf c)

/-- The next retired group is taken up once no other is in progress. -/
def State.nextGroup (s : State) (die : Nat) : State :=
  let d := vget s.dies die
  if d.phase = 1 ∨ d.phase = 2 then s
  else
    match d.waiting with
    | none => s
    | some c => s.degrade die c

/-- The sectors whose reconstruction needs two lost channels of a group: those of the lines on either. -/
def Die.unreadable (d : Die) (die : Nat) (a b : BitVec 6) : List Nat :=
  (List.range (d.hbmSize / 128)).filterMap fun k =>
    let p := d.place (128 * k)
    if decide (a ∈ p.chans) && decide (b ∈ p.chans) && (decide (p.channel = a) || decide (p.channel = b)) then
      some (die * 2 ^ 30 + k) else none

/-- CHANNEL_RETIRE (R366, R368, R370, R371). The channel's group enters the degraded phase. In a group that is degraded already,
what needs both channels is poisoned. -/
def execChannelRetire (die : DieNo) (ch : BitVec 6) (reason : RetireReason) (s : State) : Out :=
  let d := vget s.dies die.val
  .next (if s.dieLost die.val || d.retired.contains ch || !d.retireDue ch reason then s
    else
      let s := match reason with
        | .remapTable row => s.mce die.val 5 ch.toNat row.toNat
        | .training => s
        | .rebuilds => s
        | .spares => s
      let earlier := d.retired.find? fun c =>
        decide (groupOf c = groupOf ch) && !d.restriped.any fun x => decide (x = c)
      let s := (s.onDie die.val fun d => { d with retired := d.retired ++ [ch] }).mce die.val 2
        (ch.toNat + groupOf ch * 64) (retireCode reason)
      match earlier with
      | some c =>
        let l := (d.unreadable die.val c ch).filter fun k => !setHas k s.poison
        if l.isEmpty then s else s.poisonDie die.val l
      | none => s.nextGroup die.val)

/-- RETST_ACK (R371, R378). Re-striping begins; an ACK while PHASE ≠ 1 is ignored. -/
def execRetstAck (die : DieNo) (s : State) : Out :=
  .next (if s.visible && !s.dieLost die.val && decide ((vget s.dies die.val).phase = 1) then
      s.onDie die.val fun d => { d with retst := setBits (setBits d.retst 63 62 2) 29 7 0 }
    else s)

/-- The stripes of a group placed over 15 channels. -/
def newStripes : Nat := 7812500

/-- The sectors of the next new stripe that cannot be reconstructed where they stand are poisoned by the move (R365, R370, R371): no
value of theirs is left to be placed. -/
def State.moveLost (s : State) (die : Nat) : State :=
  let d := vget s.dies die
  let sector (i : Nat) : Nat := die * 2 ^ 37 + 256 * (4 * (14 * d.wmark + i / 2) + d.retGroup) + 128 * (i % 2)
  let l := (((List.range 28).map sector).filter fun pa => s.unrebuilt pa && !setHas (pa / 128) s.poison).map (· / 128)
  if l.isEmpty then s else s.poisonDie die l

/-- RESTRIPE_STRIPE (R371). One stripe is moved. With the last one PHASE becomes 3, MCE cause 8 is posted, and the next retired
group of the die is taken up. -/
def execRestripeStripe (die : DieNo) (s : State) : Out :=
  let d := vget s.dies die.val
  .next (if d.phase ≠ 2 ∨ s.dieLost die.val then s
    else if d.wmark + 1 < newStripes then
      (s.moveLost die.val).onDie die.val fun x => { x with retst := setBits x.retst 29 7 (d.wmark + 1) }
    else
      (((s.moveLost die.val).onDie die.val fun d => { d with
        retst := setBits (setBits d.retst 29 7 newStripes) 63 62 3
        restriped := d.restriped ++ [d.retChan] }).mce die.val 8 (d.retGroup * 64) 0).nextGroup die.val)

/-! ### The mire (R375) -/

/-- MIRE_TIMEOUT (R375). A read or a write without a response leaves its sector poisoned. -/
def execMireTimeout (pa : BitVec 48) (s : State) : Out :=
  .next (match s.tier pa.toNat with
    | .mire p => (s.poisonAll [pa.toNat / 128]).onDie (p + 1) fun d => d.count 0 1
    | .hbm _ => s
    | .lease _ => s
    | .absent => s)

/-- MIRE_PORT_DOWN (R375). Until the port is restored, its lines read as poisoned. -/
def execMirePortDown (port : BitVec 2) (s : State) : Out :=
  let p := port.toNat
  .next (if vget s.mireUp p then { s with mireUp := vset s.mireUp p false }.mce (p + 1) 6 p 0 else s)

/-- MIRE_PORT_UP (R375). -/
def execMirePortUp (port : BitVec 2) (s : State) : Out :=
  let p := port.toNat
  .next (if vget s.mireUp p || s.dieLost (p + 1) then s else { s with mireUp := vset s.mireUp p true }.mce (p + 1) 7 p 0)

/-! ### Leases (R114, R153, R313, R376, R377, R398) -/

/-- A lease that this device lends under a LID. -/
def Lease.lent (lid : BitVec 32) (l : Lease) : Bool := !l.mine && decide (l.lid = lid)

/-- The leases that meet a condition changed. -/
def State.onLease (s : State) (p : Lease → Bool) (f : Lease → Lease) : State := { s with leases := mapIf p f s.leases }

/-- The earlier of a lease's notice and another time. -/
def Lease.noticeBy (l : Lease) (t : Word) : Lease :=
  { l with notice := some (match l.notice with
    | some u => if u ≤ t then u else t
    | none => t) }

/-- LREVOKE (R376). The lender gives notice; any LID that it has not lent is ignored. -/
def execLrevoke (v : Word) (s : State) : Out :=
  let lid : BitVec 32 := v.extractLsb' 0 32
  .next (match s.leases.find? (·.lent lid) with
    | none => s
    | some l =>
      if !s.visible then s
      else
        let t : Word := BitVec.ofNat 64 (s.time + max (bits v 47 32) 2 * 1000000)
        (s.onLease (·.lent lid) (Lease.noticeBy · t)).sendTo l.peer 6 0 (.leaseNotice lid t))

/-- LEXP and LNOTE (R363). -/
def leaseRec (code cause : Nat) (l : Lease) (t : Word) : FaultRec := eventRec code cause l.ctx.toNat 0 (l.lid.setWidth 64) t

/-- LEASE_NOTICE_RECEIVE (R376). The borrower posts LNOTE. -/
def execLeaseNoticeReceive (lease : LeaseId) (t : Word) (s : State) : Out :=
  .next (match s.leases.find? (·.borrowed lease.lender lease.lid) with
    | none => s
    | some l => if l.expired then s else (s.onLease (·.borrowed lease.lender lease.lid) (Lease.noticeBy · t)).post (leaseRec 0x39 0 l t))

/-- X at the borrower (R153): the event, and STATUS. -/
def State.borrowerX (s : State) (l : Lease) (cause : Nat) : State :=
  ((s.expireLease l.peer l.lid).post (leaseRec 0x3A cause l (BitVec.ofNat 64 s.time))).revoked l

/-- The lender takes a range back: it is zero-filled, and the lease ends. -/
def State.reclaim (s : State) (l : Lease) : State :=
  let n := l.units.toNat * 2 ^ 21
  { s with
    leases := s.leases.filter fun x => !x.lent l.lid
    mem := s.mem.clear l.win.toNat n
    tags := s.tags.clear (l.win.toNat / 128) (n / 128)
    poison := s.poison.filter fun k => decide (k < l.win.toNat / 128) || decide ((l.win.toNat + n) / 128 ≤ k)
    flaws := s.flaws.filter fun x => decide (x.1 < l.win.toNat / 128) || decide ((l.win.toNat + n) / 128 ≤ x.1) }

/-- X at the lender: LEXP cause 3. -/
def State.lenderX (s : State) (l : Lease) : State :=
  (s.reclaim l).post (leaseRec 0x3A 3 { l with ctx := 0 } (BitVec.ofNat 64 s.time))

/-- The lease's notice has passed. -/
def State.noticeOver (s : State) (l : Lease) : Bool := l.notice.elim false fun t => decide (t.toNat ≤ s.time)

/-- LEASE_EXPIRY (R153, R376). At the borrower later accesses take FLT_LEASE; at the lender the range is taken back. -/
def execLeaseExpiry (lid : BitVec 32) (s : State) : Out :=
  .next (match s.leases.find? fun l => decide (l.lid = lid) && !l.expired && s.noticeOver l with
    | none => s
    | some l => if l.mine then s.borrowerX l 1 else s.lenderX l)

/-- LENDER_UNREACHABLE (R377). Every lease of a lender that no route reaches expires at once. -/
def execLenderUnreachable (dev : DevNo) (s : State) : Out :=
  .next (if s.unreachable dev then
      (s.leases.filter fun l => l.mine && decide (l.peer = dev) && !l.expired).foldl (fun s l => s.borrowerX l 2) s
    else s)

/-- BORROWER_UNREACHABLE (R398). Every lease lent to a borrower that no route reaches is taken back. -/
def execBorrowerUnreachable (dev : DevNo) (s : State) : Out :=
  .next (if s.unreachable dev then
      (s.leases.filter fun l => !l.mine && decide (l.peer = dev)).foldl (fun s l => s.lenderX l) s
    else s)

/-- A range of this device's window that can be granted: in units of 2 MiB, within the window, and lent to no one. -/
def State.grantable (s : State) (win : BitVec 48) (size : BitVec 24) : Bool :=
  let base := 0x400000000000 + Config.deviceNo.toNat * 2 ^ 40
  let n := size.toNat * 2 ^ 21
  decide (win.toNat % 2 ^ 21 = 0) && decide (size ≠ 0) && decide (base ≤ win.toNat) && decide (win.toNat + n ≤ base + 2 ^ 40)
    && s.leases.all fun l => l.mine || decide (win.toNat + n ≤ l.win.toNat)
      || decide (l.win.toNat + l.units.toNat * 2 ^ 21 ≤ win.toNat)

/-- A LID that no lease lent now has. -/
def State.freshLid (s : State) : BitVec 32 :=
  BitVec.ofNat 32 (((s.leases.filter fun l => !l.mine).map fun l => l.lid.toNat).foldl max 0 + 1)

/-- LEASE_REQUEST_RECEIVE (R114). The lender grants the range that it chooses, or has no capacity. -/
def execLeaseRequestReceive (dev : DevNo) (size : BitVec 24) (grant : Option (BitVec 48)) (s : State) : Out :=
  .next (match grant with
    | none => s.sendTo dev 6 0 (.leaseReply .noCapacity)
    | some win =>
      if s.grantable win size then
        let lid := s.freshLid
        { s with leases := s.leases ++ [Lease.mk lid false dev win size 0 ⟨0, by decide⟩ 0 none false] }.sendTo dev 6 0
          (.leaseReply (.granted win lid))
      else s)

end Sys2Proof.Machine
end

