-- ==== Sys2Proof/Machine/Debug.lean ====
section
/-! DEFINITION. The debug path of each die (R136, R403, R404). -/

namespace Sys2Proof.Machine

/-! ### DBGCMD and DBGAUX -/

def dbgSp (v : Word) : Bool := bit v 61
def dbgCtx (v : Word) : BitVec 6 := v.extractLsb' 55 6
def dbgCore (v : Word) : Nat := bits v 54 43
def dbgAddr (v : Word) : Nat := bits v 40 0

/-- A sector that a debug operation names: of physical memory, or of a core's scratchpad. -/
structure DbgSector where
  sp : Bool
  core : Nat
  addr : Nat
  deriving DecidableEq, Repr, Inhabited

/-- The sector of DBGCMD. -/
def dbgSector (v : Word) : DbgSector := ⟨dbgSp v, dbgCore v, dbgAddr v⟩

/-- The scale sector of DBGAUX. -/
def auxSector (v : Word) : DbgSector := ⟨bit v 62, dbgCore v, dbgAddr v⟩

/-- A task of the context runs on the core. -/
def State.runsTask (s : State) (k : CoreKey) (n : BitVec 6) : Bool :=
  let c := s.getCore k
  decide (c.status ≠ .idle) && decide (c.ctx = n)

/-- The core lies on the die. -/
def onDieCore (die : DieNo) (k : Nat) : Bool := decide (k < 3840) && decide (k / 640 = die.val)

/-- What reading a sector gives: an ECAUSE with POISON and TAG, or its bytes and tag. -/
inductive DbgRead where
  | failed (ecause : Nat) (poison : Bool) (tag : Byte) (s : State)
  | ok (bytes : List Byte) (tag : Byte) (s : State)

/-- A sector read as one piece, without any check, in its place in the global memory order (R404). One whose mire port is down is
poisoned (R375). -/
def State.dbgRead (s : State) (die : DieNo) (n : BitVec 6) (x : DbgSector) : DbgRead :=
  if x.sp then
    if !onDieCore die x.core then .failed 3 false 0 s
    else if !s.runsTask x.core n then .failed 4 false 0 s
    else
      let off := 128 * (x.addr % 8192)
      match s.netRead x.core off 128 with
      | (.ok r, s) => .ok r.1 r.2 s
      | (.error _, s) => .failed 3 true ((s.getCore x.core).sp.tags.read (off / 128)) s
  else
    let pa := 128 * x.addr
    match s.reachable 0 pa with
    | some f =>
      let bad := decide (f.code = 0x30) && decide (f.cause = 4)
      .failed 3 bad (if bad then s.tags.read x.addr else 0) s
    | none =>
      let t := s.tags.read x.addr
      let s' := ((s.lostLine pa).request pa).readLast pa
      if s.poisoned pa then .failed 3 true t s' else .ok (s.peek pa 128) t s'

/-! ### The end of an operation -/

/-- DBGST: DONE, and the outcome. -/
def dbgStatus (ecause pwin : Nat) : Word := BitVec.ofNat 64 (1 + b2n (decide (ecause ≠ 0)) * 2 + ecause * 16 + pwin * 256)

/-- DBGTAG after a read. -/
def dbgTagWord (poison : Bool) (tag : Byte) : Word := BitVec.ofNat 64 (tag.toNat + b2n poison * 256)

/-- An operation fails: DBGRAW and DBGDEC read zero. -/
def State.dbgFail (s : State) (die : DieNo) (ecause : Nat) : State :=
  s.onDie die.val fun d => { d with dbgst := dbgStatus ecause 0, dbgraw := 0, dbgdec := 0 }

/-- A write of DBGCMD is taken: the device is visible, the die lives, and no operation runs (R403). -/
def State.dbgStarts (s : State) (die : DieNo) (cmd : Word) (op : Nat) : Bool :=
  s.visible && !s.dieLost die.val && decide (bits cmd 63 62 = op) && bit (vget s.dies die.val).dbgst 0

/-- The operation that DBGCMD names runs, and can be performed. -/
def State.dbgMay (s : State) (die : DieNo) (cmd : Word) (op : Nat) : Bool :=
  s.visible && !s.dieLost die.val && decide (bits cmd 63 62 = op) && !bit (vget s.dies die.val).dbgst 0
    && decide ((vget s.dies die.val).dbgcmd = cmd)

/-- DBGCMD holds the command that runs. -/
def State.dbgTake (s : State) (die : DieNo) (cmd : Word) : State := s.onDie die.val fun d => { d with dbgcmd := cmd }

/-- An operation begins: DONE is 0 until it has been performed. Each operation of the debug path is two steps of its row: the first
begins it, the second performs it, and between them any write of DBGCMD is ignored (DESIGN CHOICE, log entry 122). -/
def State.dbgBegin (s : State) (die : DieNo) (cmd : Word) : State :=
  s.onDie die.val fun d => { d with dbgcmd := cmd, dbgst := 0 }

/-- DBGTAG written by a read. -/
def State.dbgTagged (s : State) (die : DieNo) (poison : Bool) (tag : Byte) : State :=
  s.onDie die.val fun d => { d with dbgtag := dbgTagWord poison tag }

/-- DEBUG_RAW_READ (R404). Payload and tag. -/
def execDebugRawRead (die : DieNo) (cmd : Word) (s : State) : Out :=
  .next (if s.dbgStarts die cmd 0 then s.dbgBegin die cmd
    else if !s.dbgMay die cmd 0 then s
    else
      match (s.dbgTake die cmd).dbgRead die (dbgCtx cmd) (dbgSector cmd) with
      | .failed e p t s => (s.dbgTagged die p t).dbgFail die e
      | .ok bs t s =>
        (s.dbgTagged die false t).onDie die.val fun d => { d with
          dbgst := dbgStatus 0 0, dbgraw := BitVec.ofNat 1024 (bytesToNat bs) })

/-! ### The decode view (R136, R403) -/

/-- What a decode view needs besides the sector: the codebook of CODE4, the scale sector of CODE8. -/
structure DbgAux where
  cbk : BitVec 256
  scale : Option (List Byte)
  deriving DecidableEq, Repr, Inhabited

/-- The fields of w bits of a sector. -/
def dbgFields (w : Nat) (bs : List Byte) : List Nat :=
  let n := bytesToNat bs
  (List.range (1024 / w)).map fun i => n / 2 ^ (w * i) % 2 ^ w

/-- The bytes of DBGDEC for a sector of a form. `ksi` is the index of the code sector within its block. -/
def dbgView (e : BitVec 32) (bs : List Byte) (ksi : Nat) (x : DbgAux) : List Byte :=
  match ktForm e with
  | 1 => (dbgFields 1 bs).map (BitVec.ofNat 8)
  | 2 => (dbgFields 2 bs).map (BitVec.ofNat 8)
  | 3 => (dbgFields 4 bs).map (BitVec.ofNat 8)
  | 4 =>
    match x.scale with
    | none => List.replicate 512 0 ++ bs
    | some k =>
      let sc := (k.getD ksi 0).toNat
      (bs.flatMap fun b => natToBytes 4 (code8Val .f32 b.toNat sc)) ++ bs ++ [BitVec.ofNat 8 sc]
  | 5 => (dbgFields 4 bs).flatMap fun i => natToBytes 4 (bits x.cbk (16 * i + 15) (16 * i) + i * 65536)
  | _ => bs

/-- The codebook register that a CODE4 decode read names: live, or in the saved image; of a core on another die, none. -/
def State.dbgCbk (s : State) (die : DieNo) (k : Nat) (n : BitVec 6) (cb : Nat) : Option (BitVec 256) :=
  if !onDieCore die k then none
  else if s.runsTask k n then some (vget (s.getCore k).mx.cbk cb)
  else ((vget s.ctxs n.toNat).saved.find? fun y => decide (y.core.key = k)).map fun y => vget y.core.mx.cbk cb

/-- The entry's window code for the pooled forms. -/
def dbgPwin (e : BitVec 32) : Nat := if ktForm e = 2 ∨ ktForm e = 3 then ktPwin e else 0

/-- The scale sector read as a second piece, where a CODE8 read names one. -/
def State.dbgScale (s : State) (die : DieNo) (n : BitVec 6) (form : Nat) : Option DbgRead :=
  let aux := (vget s.dies die.val).dbgaux
  if form = 4 ∧ bit aux 63 then some (s.dbgRead die n (auxSector aux)) else none

/-- A decode view put in place. -/
def State.dbgDecoded (s : State) (die : DieNo) (e : BitVec 32) (bs : List Byte) (x : DbgAux) : State :=
  s.onDie die.val fun d => { d with
    dbgst := dbgStatus 0 (dbgPwin e)
    dbgdec := BitVec.ofNat 8192 (bytesToNat (dbgView e bs (bits d.dbgaux 61 55) x)) }

/-- The decode of a sector that has been read. -/
def State.dbgDecode (s : State) (die : DieNo) (cmd : Word) (bs : List Byte) (t : Byte) : State :=
  let n := dbgCtx cmd
  let e := vget (vget s.ctxs n.toNat).kt (tagIdx t)
  if !tagV t || decide (tagIdx t = 0) || !ktEn e || decide (ktForm e ≠ tagForm t) || decide (ktForm e = 0)
      || decide (ktForm e = 7) then s.dbgFail die 1
  else if ktForm e = 5 then
    match s.dbgCbk die (dbgCore cmd) n (ktCb e) with
    | none => s.dbgFail die 4
    | some c => s.dbgDecoded die e bs ⟨c, none⟩
  else
    match s.dbgScale die n (ktForm e) with
    | none => s.dbgDecoded die e bs ⟨0, none⟩
    | some (.failed c p t s) => (if p then s.dbgTagged die p t else s).dbgFail die c
    | some (.ok k u s) => if u = t then s.dbgDecoded die e bs ⟨0, some k⟩ else s.dbgFail die 1

/-- DEBUG_DECODE_READ (R136, R404). Only what the sector's form determines. -/
def execDebugDecodeRead (die : DieNo) (cmd : Word) (s : State) : Out :=
  .next (if s.dbgStarts die cmd 1 then s.dbgBegin die cmd
    else if !s.dbgMay die cmd 1 then s
    else
      match (s.dbgTake die cmd).dbgRead die (dbgCtx cmd) (dbgSector cmd) with
      | .failed e p t s => (s.dbgTagged die p t).dbgFail die e
      | .ok bs t s => (s.dbgTagged die false t).dbgDecode die cmd bs t)

/-! ### Raw writes (R404) -/

/-- A record of the context awaits RESUME that stops the core, or that names the poisoned sector. -/
def State.dbgRecordOk (s : State) (die : DieNo) (cmd : Word) : Bool :=
  let k := dbgCore cmd
  dbgSp cmd && onDieCore die k && s.await.any fun a =>
    decide (a.ctx = dbgCtx cmd) &&
      (decide (a.who = .core k)
        || (decide (a.record.code = 0x30) && decide (a.record.cause = 3) && decide (bits a.record.info1 11 0 = k)
          && decide (bits a.record.info0 19 0 / 128 = dbgAddr cmd % 8192)))

/-- A raw write is accepted: there is such a record, and a task of the context runs on the core (R403, ECAUSE 4). -/
def State.dbgWriteOk (s : State) (die : DieNo) (cmd : Word) : Bool := s.dbgRecordOk die cmd && s.runsTask (dbgCore cmd) (dbgCtx cmd)

/-- DEBUG_RAW_WRITE (R404). One network-port write of DBGRAW and the tag, which clears poison. It is accepted or refused when DBGCMD
is written; a RESUME may come before it is performed, or after; and it waits for room in a bank in FIFO mode (R105). -/
def execDebugRawWrite (die : DieNo) (cmd : Word) (s : State) : Out :=
  .next (if s.dbgStarts die cmd 2 then
      (if s.dbgWriteOk die cmd then s.dbgBegin die cmd
        else (s.dbgTake die cmd).dbgFail die (if s.dbgRecordOk die cmd then 4 else 2))
    else if !s.dbgMay die cmd 2 then s
    else if !s.runsTask (dbgCore cmd) (dbgCtx cmd) then (s.dbgTake die cmd).dbgFail die 4
    else
      let u := s.dbgTake die cmd
      let d := vget s.dies die.val
      match (s.getCore (dbgCore cmd)).netWrite (128 * (dbgAddr cmd % 8192)) (bvBytes d.dbgraw) (d.dbgtag.setWidth 8) with
      | .done c => (u.putCore c).onDie die.val fun d => { d with dbgst := dbgStatus 0 0 }
      | .full => s
      | .fault _ => u.dbgFail die 2)

end Sys2Proof.Machine
end

