-- ==== Sys2Proof/Machine/Link.lean ====
section
/-! DEFINITION. Links and dies (R15 to R17, R28, R379 to R386): flits, replay, retraining, ports, UCIe modules and the loss of
a die; and boot, recovery and the flash (R180, R181, R399, R400). -/

namespace Sys2Proof.Machine

/-! ### Ports (R382, R383) -/

def Port.state (p : Port) : Nat := bits p.status 17 16
def Port.width (p : Port) : Nat := bits p.status 19 18
def Port.lanes (p : Port) : Nat := bits p.status 31 24

/-- The hardware's fields of a status register. -/
def Port.setLink (p : Port) (st width lanes : Nat) : Port :=
  { p with status := setBits (setBits (setBits p.status 17 16 st) 19 18 width) 31 24 lanes }

/-- Flits resent, saturating. -/
def Port.replayed (p : Port) (n : Nat) : Port :=
  { p with status := setBits p.status 63 48 (satTo 0xFFFF (bits p.status 63 48 + n)) }

/-- One flit dropped for its CRC, saturating. -/
def Port.crcError (p : Port) : Port :=
  { p with status := setBits p.status 47 32 (satTo 0xFFFF (bits p.status 47 32 + 1)) }

/-- The port runs. -/
def Port.up (p : Port) : Bool := decide (p.state = 2) && !p.training

/-- A port replaced. -/
def State.putPort (s : State) (k : Nat) (p : Port) : State := { s with ports := vset s.ports k p }

/-- A LINK event of a port (R385). -/
def State.link (s : State) (die cause what lanes : Nat) : State :=
  s.post (eventRec 0x48 cause 0 die (BitVec.ofNat 64 what) (BitVec.ofNat 64 lanes))

/-- The lanes that train, lowest first. -/
def laneList (m : BitVec 8) : List Nat := (List.range 8).filter fun i => bit m i

/-- The widest set that the training lanes allow: its WIDTH and LANES; none below two lanes. -/
def widest (m : BitVec 8) : Option (Nat × Nat) :=
  let l := laneList m
  let mask (n : Nat) : Nat := ((l.take n).map fun i => 2 ^ i).sum
  if 8 ≤ l.length then some (0, mask 8)
  else if 4 ≤ l.length then some (1, mask 4)
  else if 2 ≤ l.length then some (2, mask 2)
  else none

/-! ### Replay (R381) -/

/-- The sender forgets the flits of a channel up to an acknowledged SEQ. -/
def ackUpTo (ack : BitVec 12) (l : List Flit) : List Flit := l.filter fun f => decide (2048 ≤ (ack - f.seq).toNat)

/-- A channel is resent from its oldest flit: nothing of its flits changes, and the port counts them. `now`: domain time. -/
def Port.resend (p : Port) (now vc : Nat) : Port :=
  let l := vget p.unacked vc
  if l.isEmpty then p
  else { p.replayed l.length with
    tries := vset p.tries vc (vget p.tries vc + 1)
    resent := (now :: p.resent).take 64
    wire := p.wire ++ l }

/-- An acknowledgement, and the resend that a NAK asks for. -/
def Port.acked (p : Port) (now : Nat) (f : Flit) : Port :=
  let v := f.avc.toNat
  let old := vget p.unacked v
  let left := ackUpTo f.ack old
  let p := { p with
    unacked := vset p.unacked v left
    tries := if left.length < old.length then vset p.tries v 0 else p.tries }
  if f.nak then p.resend now v else p

/-- Flits that carry a payload in sequence: data, close and link control. -/
def flitSequenced (f : Flit) : Bool := decide (f.kind = 0) || decide (f.kind = 3) || decide (f.kind = 4)

/-- The flit is the next of its channel. -/
def Port.inOrder (p : Port) (f : Flit) : Bool := decide (f.seq = vget p.rxSeq f.vc.toNat + 1)

/-- An acknowledgement-only flit of a channel to the device at the far end, with or without a NAK. -/
def Port.answer (p : Port) (vc : BitVec 3) (nak : Bool) : Port :=
  p.launch (p.fill ⟨0, 0, 0, vc, nak, vc, 1, 0, Config.deviceNo, BitVec.ofNat 6 (bits p.status 5 0), .empty⟩)

/-- A flit accepted, and acknowledged: R381 says not when, the model acknowledges each at once (DESIGN CHOICE, log entry 110). -/
def Port.accept (p : Port) (f : Flit) : Port :=
  let v := f.vc.toNat
  Port.answer { p with
    rxSeq := vset p.rxSeq v f.seq, nakOut := vset p.nakOut v false, credits := vset p.credits v (vget p.credits v + 1) }
    f.vc false

/-- A flit dropped: at the first one of its channel a NAK is sent. -/
def Port.drop (p : Port) (f : Flit) : Port :=
  let v := f.vc.toNat
  if vget p.nakOut v then p else Port.answer { p with nakOut := vset p.nakOut v true } f.vc true

/-- ACK_TIMEOUT (R381). The channel's oldest flit has waited too long for its acknowledgement. -/
def execAckTimeout (port : PortNo) (vc : BitVec 3) (s : State) : Out :=
  let p := vget s.ports port.val
  .next (if p.up then s.putPort port.val (p.resend s.time vc.toNat) else s)

/-- The link takes the oldest flit that a running port has to send. -/
def State.wireTurn (s : State) (port : Nat) : State :=
  let p := vget s.ports port
  if p.up then s.putPort port { p with wire := p.wire.drop 1 } else s

/-! ### What an accepted flit delivers -/

/-- A range of this device's memory that the device at hand borrows (R114). -/
def State.lends (s : State) (dev : DevNo) (pa len : Nat) : Bool :=
  s.leases.any fun l => !l.mine && decide (l.peer = dev) && decide (l.win.toNat ≤ pa)
    && decide (pa + len ≤ l.win.toNat + l.units.toNat * 2 ^ 21)

/-- A write of a borrower within one sector of a range that it has been lent: bytes, tag and poison (R114, R361). -/
def State.lentWrite (s : State) (src : DevNo) (pa : Nat) (h : SectorHeader) (bs : List Byte) : State :=
  if s.lends src pa bs.length then
    let s := s.putHere pa bs h.tag
    if h.poison then { s with poison := setAdd (pa / 128) s.poison } else s
  else s

/-- A read of a borrower: the response leaves on VC4 + PA[8] (R380). -/
def State.lentRead (s : State) (src : DevNo) (pa len : Nat) : State :=
  if s.lends src pa len then
    s.sendTo src (4 + pa / 256 % 2) 0 (.memoryData (BitVec.ofNat 48 pa) (s.header pa) (s.peek pa len))
  else s

/-- The lender's answer reaches the oldest request that waits for it (R313). -/
def State.leaseAnswer (s : State) (src : DevNo) (r : LeaseReply) : Out :=
  let waits (q : LeaseReq) : Bool := decide (q.lender = src) && q.reply.isNone
  let at_ : Option (FenNo × Nat) := (List.range 30).findSome? fun f =>
    ((vget s.fens f).leaseReqs.findIdx? waits).map fun i => (fenNo f, i)
  match at_ with
  | none => .next s
  | some x => execLeaseResponse x.1 x.2 r s

/-- A lease returned early: the lender takes the range back. -/
def State.leaseBack (s : State) (src : DevNo) (lid : BitVec 32) : State :=
  match s.leases.find? fun l => l.lent lid && decide (l.peer = src) with
  | none => s
  | some l => s.reclaim l

/-- What a message delivers once all of it has come. A lease request waits for the lender's choice (LEASE_REQUEST_RECEIVE); the data of a
read complete what the borrower's copy has served (log entry 102). -/
def State.deliverWhole (s : State) (src : DevNo) : FlitBody → Out
  | .empty => .next s
  | .part _ _ _ => .next s
  | .transfer t total off _ bs => .next (s.transferPart t total off bs)
  | .counted k => .next (if k.dev = Config.deviceNo then s.collCounted k else s)
  | .refused k c => .next (if k.dev = Config.deviceNo then s.transferRefused k c else s)
  | .leaseRequest _ => .next s
  | .leaseReply r => s.leaseAnswer src r
  | .leaseNotice lid t => execLeaseNoticeReceive ⟨src, lid⟩ t s
  | .leaseReturn lid => .next (s.leaseBack src lid)
  | .memory pa h bs => .next (s.lentWrite src pa.toNat h bs)
  | .memoryRead pa len => .next (s.lentRead src pa.toNat len)
  | .memoryData _ _ _ => .next s
  | .skinkPost ctx xid mask prior again counts => .next (s.skinkPosted src ctx xid mask prior again counts)
  | .postRefused ctx xid c => .next (if src = s.skink.active then s.postRefused ctx xid c else s)
  | .skinkForward dev ctx xid mask counts => .next { s with skink := s.skink.add dev ctx xid mask counts }
  | .issue ctx xid mask x => .next (s.keepIssue src ctx xid mask x)
  | .issueHeld ctx xid gen => .next (s.issueHeld ctx xid gen)
  | .xtmo ctx xid absent => .next (s.postXtmo ctx xid absent)
  | .calendar ctx xid c => .next (s.calendarFrom src ctx xid c)
  | .quanta key ctx xid gen off _ bs => .next (s.takeQuanta key ctx xid gen off bs)
  | .quantaLanded key off => .next (s.quantaLanded key off)
  | .close key ctx xid gen n => .next (s.closeArrives key ctx xid gen n)
  | .closeCounted key => .next (s.closeCounted key)
  | .announce e => execSkinkAnnounce src e s

/-- The payload of a flit for this device: a message of its own, or the part of a longer one, which delivers it when it is the last
(R381 keeps the flits of a channel in order). -/
def State.deliver (s : State) (src : DevNo) : FlitBody → Out
  | .part w i n => if i + 1 = n then s.deliverWhole src w else .next s
  | b => s.deliverWhole src b

/-- A flit for another device goes on toward it. -/
def State.forward (s : State) (f : Flit) : State := State.pump { s with out := s.out ++ [⟨f.src, f.dst, f.vc, f.kind, f.body⟩] }

/-- FLIT_RECEIVE (R379, R381). -/
def execFlitReceive (port : PortNo) (f : Flit) (s : State) : Out :=
  let p := vget s.ports port.val
  if !p.up then .next s
  else if f.crc ≠ flitCrc f then .next (s.putPort port.val (p.crcError.drop f))
  else
    let p := p.acked s.time f
    if !flitSequenced f then .next (s.putPort port.val p).pump
    else if !p.inOrder f then .next (s.putPort port.val (p.drop f)).pump
    else
      let s := (s.putPort port.val (p.accept f)).pump
      if f.dst = Config.deviceNo then s.deliver f.src f.body else .next (s.forward f)

/-! ### Retraining (R382, R383) -/

/-- The port has reason to retrain: 16 resends of a channel's oldest flit with no acknowledgement between, or 64 resends within
1 ms. A resend is that of a channel (R381). -/
def Port.retrains (p : Port) (now : Nat) : Bool :=
  p.tries.toList.any (fun n => decide (16 ≤ n))
    || (decide (p.resent.length = 64) && p.resent.all fun t => decide (now < t + 1000000))

/-- PORT_RETRAIN (R382). The port retrains, and holds its channels. -/
def execPortRetrain (port : PortNo) (s : State) : Out :=
  let p := vget s.ports port.val
  .next (if p.up && p.retrains s.time then s.putPort port.val { p.setLink 1 p.width p.lanes with training := true } else s)

/-- The messages of the flits that a port has sent and that are not acknowledged, channel by channel in SEQ order. -/
def Port.unsent (p : Port) : List OutMsg :=
  p.unacked.toList.flatMap fun l => l.map fun f => ⟨f.src, f.dst, f.vc, f.kind, f.body⟩

/-- The Moend ports that run. -/
def State.portsUp (s : State) : List PortNo := (List.finRange 36).filter fun k => (vget s.ports k.val).up

/-- Routes given anew: each that `need` names takes one of the ports, or none. Which of them reach the device firmware knows; the
spec gives no rule (DESIGN CHOICE, log entry 108). -/
def State.reroute (s : State) (need : DevNo → Option PortNo → Bool) (ports : List PortNo) : State :=
  let take (n : Nat) : Option PortNo := ports[n % (ports.length + 1)]?
  let route (d : Fin 64) : Option PortNo :=
    if need (BitVec.ofNat 6 d.val) (vget s.routes d.val) = true then take (Config.reroute (64 * s.tick + d.val)) else vget s.routes d.val
  { s.fresh with routes := Vector.ofFn route }

/-- A port is down: its width is none, the routes that used it are rewritten, and what it has not got acknowledged is sent again
on them, ahead of anything newer (R380, R383). -/
def State.portDown (s : State) (port : PortNo) : State :=
  let p := vget s.ports port.val
  let q := { Port.reset with status := (p.setLink 0 3 0).status }
  let s := s.putPort port.val q
  let s := s.reroute (fun _ r => decide (r = some port)) s.portsUp
  State.pump { s with out := p.unsent ++ s.out }

/-- RETRAIN_DONE (R382, R383). The port comes back on the widest set of lanes that survives, or is down. -/
def execRetrainDone (port : PortNo) (lanes : BitVec 8) (s : State) : Out :=
  let p := vget s.ports port.val
  let die := port.val / 6
  .next (if !p.training then s
    else
      match widest lanes with
      | none => (s.portDown port).link die 2 port.val 0
      | some (w, l) =>
        let s' := (s.putPort port.val { p.setLink 2 w l with
          training := false, tries := Vector.replicate 8 0, resent := [] }).pump
        if w = p.width then s' else s'.link die 1 port.val l)

/-- The peers that a route reaches again are not lost any more. -/
def State.peersBack (s : State) : State :=
  { s with lostPeers := s.lostPeers.filter fun d => (vget s.routes d.toNat).isNone }

/-- PORT_UP (R385). A port that was down trains: its peer, and what lies behind it, can be reached again where no route was left. -/
def execPortUp (port : PortNo) (lanes : BitVec 8) (peer : DevNo) (s : State) : Out :=
  let p := vget s.ports port.val
  let die := port.val / 6
  .next (if p.state ≠ 0 ∨ s.dieLost die then s
    else
      match widest lanes with
      | none => s
      | some (w, l) =>
        let q := { Port.reset with status := setBits p.status 5 0 peer.toNat }.setLink 2 w l
        let mine := (vget s.routes peer.toNat).getD port
        let s := { s.putPort port.val q with routes := vset s.routes peer.toNat (some mine) }
        let s := s.reroute (fun d r => decide (d ≠ Config.deviceNo) && r.isNone) [port]
        s.peersBack.pump.link die 3 port.val l)

/-! ### Dies (R15, R17, R28, R384, R386) -/

/-- The adjacent pairs of dies (R15). -/
def diePairs : List (Nat × Nat) := [(0, 1), (1, 2), (3, 4), (4, 5), (0, 3), (1, 4), (2, 5)]

/-- The dies next to a die, those of its row first. -/
def diesBeside (d : Nat) : List Nat :=
  let row := [0, 1, 2].filter fun x => decide (x + 1 = d % 3) || decide (x = d % 3 + 1)
  row.map (fun x => d / 3 * 3 + x) ++ [(d + 3) % 6]

/-- Traffic passes between two adjacent dies: both live, and a module of their pair is up. -/
def State.pairUp (s : State) (a b : Nat) : Bool :=
  !s.dieLost a && !s.dieLost b
    && ((diePairs.findIdx? fun p => decide (p = (min a b, max a b))).elim false fun k => decide (vget s.ucie k ≠ 0))

/-- The dies from which another is reached over n pairs or fewer. -/
def State.within (s : State) (b : Nat) : Nat → List Nat
  | 0 => [b]
  | n + 1 => (List.range 6).filter fun a =>
    (s.within b n).contains a || (diesBeside a).any fun c => s.pairUp a c && (s.within b n).contains c

/-- The adjacent die on the shortest way to another; of two equally short ways the one along the row (R17). Of two that both
leave along the row the lower die is taken (DESIGN CHOICE, log entry 107). -/
def State.dieRoute (s : State) (a b : Nat) : Option (BitVec 3) :=
  if a = b then none
  else
    ((List.range 5).findSome? fun n => (diesBeside a).find? fun c => s.pairUp a c && (s.within b n).contains c).map (BitVec.ofNat 3)

/-- The route tables of the dies written. -/
def State.routeDies (s : State) : State :=
  { s with dies := Vector.ofFn fun a : Fin 6 => { vget s.dies a.val with
      routes := Vector.ofFn fun b : Fin 6 => if s.dieLost a.val then none else s.dieRoute a.val b.val } }

/-- UCIE_MODULE_OUT (R384). A pair with no module left is routed around. -/
def execUcieModuleOut (pair : BitVec 3) (mod : BitVec 2) (s : State) : Out :=
  let k := pair.toNat
  .next (match diePairs[k]? with
    | none => s
    | some d =>
      let m := vget s.ucie k
      if bit m mod.toNat then
        let s := { s with ucie := vset s.ucie k (setBits m mod.toNat mod.toNat 0) }.link d.1 4 (4 * k + mod.toNat) 0
        if vget s.ucie k = 0 then s.routeDies else s
      else s)

/-- A fen whose cores are gone: no newt, and no live site; which context each priority was served last goes on (R161). Its ready nodes
stay ready: a tile task among them is refused at its dispatch opportunity, as one that becomes ready later is (R163, R343); decrements
that have begun are completed (R42). -/
def Fen.dead (f : Fen) : Fen :=
  { Fen.reset with
    failed := List.range 134, master := none, standby := none, last := f.last
    ready := f.ready, order := f.order, doneNodes := f.doneNodes }

/-- A context has a task, a copy node, a conductor, a held transfer or its service program on the die; those of a context that is saved
are in its save (R386; DEDUCED, log entry 82). -/
def State.touches (s : State) (die : Nat) (n : BitVec 6) : Bool :=
  s.tasks.any (fun t => decide (t.ctx = n) && decide (t.fen.val / 5 = die))
    || (vget s.ctxs n.toNat).saved.any (fun y => decide (fenOfKey y.core.key / 5 = die))
    || (vget s.dies die).engines.toList.any (fun e => e.elim false fun j => decide (j.ctx = n))
    || (List.range 5).any fun j =>
      let f := vget s.fens (5 * die + j)
      f.conductors.any (fun d => decide (d.ctx = n)) || f.held.any (fun h => decide (h.1.ctx = n)) || decide (f.service = some n)

/-- The contexts torn down with a die. -/
def State.doomed (s : State) (die : Nat) : List (BitVec 6) :=
  ((List.range 64).map (BitVec.ofNat 6)).filter fun n => decide ((vget s.ctxs n.toNat).state = 2) && s.touches die n

/-- A port goes down with its die: LINK cause 2 for one that was not down. -/
def State.portGone (s : State) (port : PortNo) : State :=
  if (vget s.ports port.val).state = 0 then s else (s.portDown port).link (port.val / 6) 2 port.val 0

/-- The ports of a die. -/
def diePorts (die : Nat) : List PortNo := (List.finRange 36).filter fun k => decide (k.val / 6 = die)

/-- The transfers that stand at a fen: come, held, and on their way in part. -/
def Fen.transfers (f : Fen) : List XferKey :=
  (f.coming.map (·.t.key)) ++ (f.arriving.map (·.t.key)) ++ f.held.filterMap fun h => match h.1 with
    | .transfer t _ => some t.key
    | .netWrite _ _ => none
    | .netRead _ _ _ _ _ => none
    | .engWrite _ _ _ _ => none
    | .engRead _ _ _ => none
    | .count _ _ _ _ => none

/-- The transfers that stand at the fens of a die come back to their records, but for records that go with the die: their fens have no
master any more (R389, R392). -/
def State.sendBack (s : State) (die : Nat) : State :=
  ((List.range 5).flatMap fun j => (vget s.fens (5 * die + j)).transfers).foldl
    (fun s k => if k.dev = Config.deviceNo ∧ k.fen.val / 5 = die then s else s.transferRefused k 2) s

/-- A die is gone (R28): its bit in MGST, its fens, its ports and its mire port, and every route through it; without die 0 the
service ends. -/
def State.withoutDie (s : State) (die : Nat) : State :=
  let mg := s.pkg.mgst ||| BitVec.ofNat 64 (2 ^ (1 + die))
  let s := { s with pkg := { s.pkg with mgst := if die = 0 then mg &&& 0xFFFFFFFFFFFFFFFE else mg } }
  let s := (List.range 5).foldl (fun s j => s.onFen (5 * die + j) Fen.dead) (s.sendBack die)
  let s := (diePorts die).foldl State.portGone s
  let s := if 1 ≤ die ∧ die ≤ 4 then { s with mireUp := vset s.mireUp (die - 1) false } else s
  s.routeDies

/-- DLOSS (R385). -/
def State.dloss (s : State) (die : Nat) : State := s.post (eventRec 0x4B 0 0 0 (BitVec.ofNat 64 die) 0)

/-- DIE_LOSS (R386). DLOSS is posted, the die's resources go, and every context that was on the die is torn down. -/
def execDieLoss (die : DieNo) (s : State) : Out :=
  .next (if s.dieLost die.val || !s.visible then s
    else (s.doomed die.val).foldl State.teardown ((s.dloss die.val).withoutDie die.val))

/-! ### Boot (R20, R21, R180, R181, R399, R400) -/

/-- The CAUSE with which an image does not verify (R181, R399): both signatures, a fused digest of each key, and a version of at
least the rollback counter; none when it may run. -/
def imageCause (rollback : BitVec 32) (x : ImageFacts) : Option Nat :=
  if !x.ed then some 1
  else if !x.ml then some 2
  else if !x.fused then some 3
  else if x.version < rollback then some 4
  else none

/-- BOOTST. -/
def bootWord (step cause fsite rchan slot recov : Nat) : Word :=
  BitVec.ofNat 64 (step * 2 ^ 28 + cause * 2 ^ 24 + satTo 255 fsite * 2 ^ 16 + satTo 255 rchan * 2 ^ 8 + slot * 2 + recov)

/-- Step 1 or 2 has failed on die 0: recovery mode. -/
def State.recoveryMode (s : State) (step cause slot : Nat) : State :=
  { s with pkg := { s.pkg with recovery := true, bootStep := step, bootst := bootWord step cause 0 0 slot 1 } }

/-- A flash slot: A is 0, B is 1. -/
def Pkg.flash (p : Pkg) (slot : Nat) : FlashSlot := if slot = 0 then p.flashA else p.flashB

/-- Why the stage-1 image of a slot does not run. -/
def Pkg.stageCause (p : Pkg) (slot : Nat) : Option Nat := imageCause p.rollback (vget (p.flash slot).images 0)

/-- The flash slot whose stage-1 image verifies (R400). -/
def Pkg.bootSlot (p : Pkg) : Option Nat := [0, 1].find? fun i => (p.stageCause i).isNone

/-- The cause with which a die's step 2 fails: its modules do not train, or its management image does not verify. -/
def Pkg.dieCause (p : Pkg) (slot : Nat) (r : BootInput) (d : DieNo) : Option Nat :=
  if d ∈ r.badDies then some 5 else imageCause p.rollback (vget (p.flash slot).images (d.val + 1))

/-- The sites of a fen that fail their self-test. -/
def badIn (r : BootInput) (f : Nat) : List Nat :=
  ((r.badSites.filter fun x => decide (x.1.val = f)).map fun x => x.2.toNat).filter fun x => decide (x < 134)

/-- A fen after its self-test: its newts are appointed (R21: site 132 is master unless it failed, and with one newt there is no
standby; with none the fen is offline, R400), and its failed sites' cores take the spares (R20). -/
def bootFen (bad : List Nat) : Fen :=
  let bad := bad.foldl (fun l x => setAdd x l) []
  let a := !setHas 132 bad
  let b := !setHas 133 bad
  (Fen.place { Fen.reset with
    failed := bad
    offline := !a && !b
    master := if a then some 132 else if b then some 133 else none
    standby := if a && b then some 133 else none } (bad.filter fun x => decide (x < 128))).1

/-- A channel retired before any data is written: its group starts at 15 channels, unless it already has. -/
def Die.bootRetire (d : Die) (c : BitVec 6) : Die :=
  if d.retired.contains c then d
  else if d.restriped.any fun x => decide (groupOf x = groupOf c) then { d with retired := d.retired ++ [c] }
  else { d with
    retired := d.retired ++ [c], restriped := d.restriped ++ [c]
    retst := BitVec.ofNat 64 (3 * 2 ^ 62 + c.toNat * 2 ^ 55 + groupOf c * 2 ^ 53 + newStripes * 2 ^ 7) }

/-- A channel that fails at boot (R370, R400): MCE cause 2, reason 1. -/
def State.bootChannel (s : State) (x : DieNo × BitVec 6) : State :=
  if s.dieLost x.1.val || (vget s.dies x.1.val).retired.contains x.2 then s
  else (s.onDie x.1.val fun d => d.bootRetire x.2).mce x.1.val 2 (x.2.toNat + groupOf x.2 * 64) 1

/-- A row that the self-test remaps to a spare row of its channel. -/
def Die.bootRow (d : Die) (c : BitVec 6) (row : Nat) : Die :=
  if d.sparesLeft c = 0 ∨ d.remapped.contains (c, row) then d
  else { d with spares := countSet d.spares c (countOf d.spares c + 1), remapped := d.remapped ++ [(c, row)] }

/-- A Moend port at boot, on the widest set of lanes that trains (R382); one that does not train stays down. -/
def State.bootPort (s : State) (x : PortNo × DevNo × BitVec 8) : State :=
  let q := { Port.reset with status := x.2.1.setWidth 64 }
  if s.dieLost (x.1.val / 6) then s
  else s.putPort x.1.val ((widest x.2.2).elim (q.setLink 0 3 0) fun w => q.setLink 2 w.1 w.2)

/-- A route that firmware writes at boot, over a port that is up (R380). -/
def State.bootRoute (s : State) (x : DevNo × PortNo) : State :=
  if (vget s.ports x.2.val).up then { s with routes := vset s.routes x.1.toNat (some x.2) } else s

/-- The device whose skink is active at boot: the lowest-numbered live one (R396): this one, or one that a route reaches. -/
def State.bootSkink (s : State) : DevNo :=
  (((List.range 64).map (BitVec.ofNat 6)).find? fun d =>
    decide (d = Config.deviceNo) || (inDomain d && (vget s.routes d.toNat).isSome)).getD Config.deviceNo

/-- The modules that do not train are out of use. -/
def State.bootModule (s : State) (x : BitVec 3 × BitVec 2) : State :=
  { s with ucie := vset s.ucie x.1.toNat (setBits (vget s.ucie x.1.toNat) x.2.toNat x.2.toNat 0) }

/-- Dies that no UCIe route reaches are lost (R386). -/
def State.loseCut (s : State) : State :=
  ([1, 2, 3, 4, 5].filter fun d => !s.dieLost d && !(s.within 0 5).contains d).foldl (fun s d => (s.withoutDie d).dloss d) s

/-- Step 2: the modules train, the images of the dies are verified and run, and dies that fail are lost, with those that are cut off. -/
def State.bootDies (s : State) (slot : Nat) (r : BootInput) : State :=
  let f := s.pkg.flash slot
  let bad := (List.finRange 6).filter fun d => (s.pkg.dieCause slot r d).isSome
  let s := (r.badModules.foldl State.bootModule { s with pkg := { s.pkg with running := f.images.toList } }).routeDies
  (bad.foldl (fun s d => (s.withoutDie d.val).dloss d.val) s).loseCut

/-- Step 3: sites, spares, newts, channels and rows. -/
def State.bootTests (s : State) (r : BootInput) : State :=
  let s := (List.range 30).foldl (fun s f => if s.dieLost (f / 5) then s else s.onFen f fun _ => bootFen (badIn r f)) s
  let s := r.badChannels.foldl State.bootChannel s
  r.badRows.foldl (fun s x => s.onDie x.1.val fun d => d.bootRow x.2.1 x.2.2) s

/-- Step 5: ports and routes, the mire, the side tables (R123), and the heat tables. -/
def State.bootPorts (s : State) (r : BootInput) : State :=
  let s := r.routes.foldl State.bootRoute (r.ports.foldl State.bootPort s)
  let s := r.badMire.foldl (fun s p => { s with mireUp := vset s.mireUp p.toNat false }) s
  let s := { s with pkg := { s.pkg with side := (List.range 65).map Config.sideTable } }
  (List.range 6).foldl (fun s d =>
    if s.dieLost d then s else { s with mem := s.mem.clear (vget s.dies d).heatb.toNat heatBytes }) s

/-- Step 4: the host link trains, and the host sees the device. -/
def State.bootLink (s : State) (slot : Nat) : State :=
  let sites := (s.fens.toList.zipIdx.map fun f => if s.dieLost (f.2 / 5) then 0 else f.1.failed.length).sum
  let chans := (s.dies.toList.map fun d => d.retired.length).sum
  { s with pkg := { s.pkg with bootStep := 5, bootst := bootWord 0 0 sites chans slot 0 } }

/-- Step 6: READY. -/
def State.bootReady (s : State) : State :=
  { s with
    skink := ⟨s.bootSkink, 1, 0, [], [], []⟩
    pkg := { s.pkg with mgst := s.pkg.mgst ||| 1, bootStep := 0 } }

/-- BOOT (R180, R400). The steps in order, with what the world answers: steps 1 to 4, after which the host sees the device; and then
steps 5 and 6. Without a host link step 4 is tried again; with die 0 lost the package does not go on (R28). -/
def execBoot (r : BootInput) (s : State) : Out :=
  .next (if s.pkg.bootStep = 0 ∨ s.pkg.recovery ∨ !r.hostLink ∨ s.dieLost 0 then s
    else if s.pkg.bootStep = 5 then (s.bootPorts r).bootReady
    else
      match s.pkg.bootSlot with
      | none => s.recoveryMode 1 ((s.pkg.stageCause 1).getD 0) 0
      | some slot =>
        match s.pkg.dieCause slot r ⟨0, by decide⟩ with
        | some c => s.recoveryMode 2 c slot
        | none => ((s.bootDies slot r).bootTests r).bootLink slot)

/-- RECOV (R399). The device reboots from flash: what memory, the host, the flash and the fuses hold stays, and the rest is
reset. -/
def execRecov (s : State) : Out :=
  .next (if !s.visible && !s.pkg.recovery then s
    else { State.reset with
      mem := s.mem, tags := s.tags, poison := s.poison, flaws := s.flaws.filter fun x => decide (x.2 = .expansion)
      hostMem := s.hostMem, time := s.time, agenda := s.agenda, tick := s.tick
      pkg := { Pkg.reset with flashA := s.pkg.flashA, flashB := s.pkg.flashB, rollback := s.pkg.rollback } })

/-- Bytes put into a list, which grows with zeros as far as they reach. -/
def putAtOff (l : List Byte) (off : Nat) (bs : List Byte) : List Byte :=
  let l := l ++ List.replicate (off - l.length) 0
  l.take off ++ bs ++ l.drop (off + bs.length)

/-- A slot's images as its bytes have them (R181). -/
def FlashSlot.of (bytes : List Byte) : FlashSlot := ⟨bytes, Vector.ofFn fun i : Fin 7 => Config.imageFacts bytes i.val⟩

/-- RECOVERY_FLASH_WRITE (R400). In recovery mode the host writes a new image into flash through the 64 KiB window: into slot A,
for the rule names none (DESIGN CHOICE, log entry 115). -/
def execRecoveryFlashWrite (off : BitVec 16) (bytes : List Byte) (s : State) : Out :=
  .next (if s.pkg.recovery && decide (off.toNat + bytes.length ≤ 65536) then
      { s with pkg := { s.pkg with flashA := FlashSlot.of (putAtOff s.pkg.flashA.bytes off.toNat bytes) } }
    else s)

end Sys2Proof.Machine
end

