-- ==== Sys2Proof/Machine/Approx.lean ====
section
/-! DEFINITION. Division, roots, powers and logarithms of FP32 (R256, R257), and the derivative that VGELUB uses
(R266). Each is the exact value rounded as its rule says. -/

namespace Sys2Proof.Machine

/-- Binary digits of a root, from weight 2^k down. -/
def isqrtFrom : Nat → Nat → Nat → Nat
  | 0, _, r => r
  | k + 1, n, r =>
    let t := r + 2 ^ k
    isqrtFrom k n (if t * t ≤ n then t else r)

/-- The integer square root of n, n below 2^(2·bits). -/
def isqrt (bits n : Nat) : Nat := isqrtFrom bits n 0

/-- x / y (R256). -/
def divF32 (x y : Nat) : Nat × BitVec 7 :=
  let f := Fmt.f32
  match f.dec x, f.dec y with
  | .nan, _ => (f.nan, 0)
  | .inf _, .nan => (f.nan, 0)
  | .fin _ _ _, .nan => (f.nan, 0)
  | .inf _, .inf _ => (f.nan, flNV)
  | .inf a, .fin b _ _ => rne f (.inf (a != b))
  | .fin a _ _, .inf b => rne f (.fin (a != b) 0 0)
  | .fin a m e, .fin b k d =>
    if k = 0 then (if m = 0 then (f.nan, flNV) else ((rne f (.inf (a != b))).1, flDZ))
    else
      let n := m * 2 ^ 64
      roundFin f .rn .ieee (a != b) (n / k) (e - d - 64) (decide (n % k ≠ 0)) 0

/-- √x (R256). -/
def sqrtF32 (x : Nat) : Nat × BitVec 7 :=
  let f := Fmt.f32
  match f.dec x with
  | .nan => (f.nan, 0)
  | .inf neg => if neg then (f.nan, flNV) else rne f (.inf false)
  | .fin neg m e =>
    if m = 0 then (x, 0)
    else if neg then (f.nan, flNV)
    else
      let k : Nat := if e % 2 = 0 then 64 else 65
      let n := m * 2 ^ k
      let r := isqrt 48 n
      roundFin f .rn .ieee false r ((e - k) / 2) (decide (r * r ≠ n)) 0

/-- 1/√x (R256). -/
def rsqrtF32 (x : Nat) : Nat × BitVec 7 :=
  let f := Fmt.f32
  match f.dec x with
  | .nan => (f.nan, 0)
  | .inf neg => if neg then (f.nan, flNV) else (0, 0)
  | .fin neg m e =>
    if m = 0 then ((rne f (.inf neg)).1, flDZ)
    else if neg then (f.nan, flNV)
    else
      let k : Nat := if e % 2 = 0 then 120 else 121
      let r := isqrt 61 (2 ^ k / m)
      roundFin f .rn .ieee false r (-((e + k) / 2)) (decide (r * r * m ≠ 2 ^ k)) 0

/-! ### VEXP2 and VLOG2 (R257) -/

/-- 2^f · 2^96 from below, for f = the fraction whose binary digits `fr` has, most significant of `k` first: the
product of 2^(2^-i) over its one digits; `root` is the root for the next digit. The error is below 2^7 units, and
2^18 · 2^f comes no nearer to an integer than 2^-31 for any FP32 x (log entry 15). -/
def exp2Frac : Nat → Nat → Nat → Nat → Nat
  | 0, _, _, acc => acc
  | k + 1, fr, root, acc =>
    let root := isqrt 98 (root * 2 ^ 96)
    exp2Frac k fr root (if fr / 2 ^ k % 2 = 1 then acc * root / 2 ^ 96 else acc)

/-- VEXP2 of one element. -/
def exp2F32 (x : Nat) : Nat × BitVec 7 :=
  let f := Fmt.f32
  match f.dec x with
  | .nan => (f.nan, 0)
  | .inf neg => if neg then (0, 0) else (f.infEnc, 0)
  | .fin neg m e =>
    if !neg && decide (2 ^ 7 * 2 ^ (-e).toNat ≤ m * 2 ^ e.toNat) then (f.infEnc, flOF)
    else if neg && decide (2 ^ 8 * 2 ^ (-e).toNat ≤ m * 2 ^ e.toNat) then (0, flUF)
    else
      -- x in units of 2^-64, rounded toward −∞; below |x| = 2^-41 that leaves the digits of t as they are
      let u := m * 2 ^ (e + 64).toNat
      let k := (-(e + 64)).toNat
      let i : Int := if neg then -(((u + (2 ^ k - 1)) / 2 ^ k : Nat) : Int) else ((u / 2 ^ k : Nat) : Int)
      let n := i / (2 ^ 64 : Nat)
      let fr := (i % (2 ^ 64 : Nat)).toNat
      let t := exp2Frac 64 fr (2 ^ 97) (2 ^ 96) / 2 ^ 78
      let r := roundFin f .rz .ieee false t (n - 18) false 0
      (r.1, r.2 &&& flUF)

/-- VLOG2 of one element: floor(log2(m) · 2^18) is the exact binary logarithm of the 2^18-th power. -/
def log2F32 (x : Nat) : Nat × BitVec 7 :=
  let f := Fmt.f32
  match f.dec x with
  | .nan => (f.nan, 0)
  | .inf neg => if neg then (f.nan, flNV) else (f.infEnc, 0)
  | .fin neg m e =>
    if m = 0 then (f.sign + f.infEnc, flDZ)
    else if neg then (f.nan, flNV)
    else
      let l := Nat.log2 m
      let n := (l : Int) + e
      let d := Nat.log2 (m ^ 2 ^ 18) - l * 2 ^ 18
      ((rne f ((Val.ofInt (n * (2 ^ 18 : Nat) + (d : Nat))).scale (-18))).1, 0)

/-! ### Φ(x) + x·φ(x) (R266) -/

/-- 2^512/√(2π), rounded down. -/
def invSqrt2Pi : Nat :=
  0x662114cf50d942343f2cf1402eae38bfd3829f30512706d8c0471b4802639d2e9df8ac55447d3db723f5d3abb374e88deb14277970be1513278e993445f08cff

/-- The Taylor series of e^-y in units of 2^-512, y in the same units: even terms less odd ones. -/
def expNegSeries : Nat → Nat → Nat → Nat → Int
  | 0, _, _, _ => 0
  | k + 1, i, y, term => (term : Int) - expNegSeries k (i + 1) y (term * y / (2 ^ 512 * (i + 1)))

/-- Squared k times, in units of 2^-512. -/
def squareTimes : Nat → Nat → Nat
  | 0, x => x
  | k + 1, x => squareTimes k (x * x / 2 ^ 512)

/-- e^-y in units of 2^-512: the series at y/2^9, squared nine times. -/
def expNeg (y : Nat) : Nat := squareTimes 9 (expNegSeries 120 0 (y / 2 ^ 9) (2 ^ 512)).toNat

/-- The sum of x^(2k+1)/(1·3·…·(2k+1)) in units of 2^-512. -/
def phiSeries : Nat → Nat → Nat → Nat → Nat → Nat
  | 0, _, _, _, acc => acc
  | k + 1, i, x2, term, acc => phiSeries k (i + 2) x2 (term * x2 / (2 ^ 512 * (i + 2))) (acc + term)

/-- Φ(x) + x·φ(x) in units of 2^-512, for |x| < 16 in the same units. -/
def geluSlope (neg : Bool) (x : Nat) : Int :=
  let x2 := x * x / 2 ^ 512
  let phi := expNeg (x2 / 2) * invSqrt2Pi / 2 ^ 512
  let d : Nat := (phi * phiSeries 600 1 x2 x 0 + x * phi) / 2 ^ 512
  Int.ofNat (2 ^ 511) + (if neg then -Int.ofNat d else Int.ofNat d)

/-- t of VGELUB as a BF16 value (R266): the exact real rounded to nearest even. No element of BF16 or FP32 brings the
real nearer to a rounding boundary than the error of the series (log entry 15). -/
def geluT (x : Val) : Val :=
  let f := Fmt.bf16
  match x with
  | .nan => .nan
  | .inf neg => if neg then .zero else .fin false 1 0
  | .fin neg m e =>
    if decide (16 * 2 ^ (-e).toNat ≤ m * 2 ^ e.toNat) then (if neg then .fin true 0 0 else .fin false 1 0)
    else
      let g := geluSlope neg (m * 2 ^ (e + 512).toNat)
      f.dec (roundFin f .rn .ieee (decide (g < 0)) g.natAbs (-512) (decide (m ≠ 0)) 0).1

end Sys2Proof.Machine
end

