-- ==== Sys2Proof/Machine/Operands.lean ====
section
/-! DEFINITION. The operand forms of the V slot (R55, R60, R244 to R251): which queues a slot may name, pops and
peeks, the broadcast value by element type, masked lanes, and the push of a result. -/

namespace Sys2Proof.Machine

/-! ### Elements (R77) -/

/-- Element e of a vector read as elements of w bits. -/
def elem (w : Nat) (v : Vec) (e : Nat) : Nat := (v.toNat >>> (w * e)) % 2 ^ w

/-- The number whose elements of w bits are listed, element 0 first. -/
def packNat (w : Nat) (l : List Nat) : Nat := l.foldr (fun x acc => acc * 2 ^ w + x % 2 ^ w) 0

/-- A vector from its elements. -/
def packVec (w : Nat) (l : List Nat) : Vec := BitVec.ofNat 2048 (packNat w l)

/-- One element repeated through a vector. -/
def splat (w x : Nat) : Vec := BitVec.ofNat 2048 (x % 2 ^ w * ((2 ^ 2048 - 1) / (2 ^ w - 1)))

/-- The element types of the V slot (R60): a float format, or an integer width. -/
inductive ElTy where
  | float (f : Fmt)
  | int (w : Nat)
  deriving DecidableEq, Repr, Inhabited

/-- Width in bits. -/
def ElTy.w : ElTy → Nat
  | .float f => f.w
  | .int w => w

/-- The broadcast value as an element (R60). -/
def ElTy.bc (t : ElTy) (v : BitVec 18) : Nat :=
  match t with
  | .float .f32 => v.toNat * 2 ^ 14
  | .float .bf16 => v.toNat % 2 ^ 16
  | .float .f16 => v.toNat % 2 ^ 16
  | .float .e4m3 => v.toNat % 2 ^ 8
  | .float .e5m2 => v.toNat % 2 ^ 8
  | .int w => if w = 32 then (v.signExtend 32).toNat else v.toNat % 2 ^ w

/-! ### Roles (R55, R251) -/

/-- The executing slot is V1. -/
def State.v1 (s : State) : Bool := decide (s.iss.slot = 2)

/-- A queue of the slot's own cluster. -/
def ownQ (v1 : Bool) (q : BitVec 4) : Bool := if v1 then decide (6 ≤ q.toNat) && decide (q.toNat ≤ 11) else decide (q.toNat ≤ 5)

/-- An input port. -/
def inPort (q : BitVec 4) : Bool := decide (q = 12) || decide (q = 13)

/-- An output port. -/
def outPort (q : BitVec 4) : Bool := decide (q = 14) || decide (q = 15)

/-- A queue the slot may read. -/
def State.vIn (s : State) (q : BitVec 4) : Bool := ownQ s.v1 q || inPort q

/-- A queue the slot may push. -/
def State.vOut (s : State) (q : BitVec 4) : Bool := ownQ s.v1 q || outPort q

/-- A V instruction with its roles checked: ILLEGAL on a breach, nothing when its guard is false (R54, R193). -/
def vRun (s : State) (roles : Bool) (body : State → State) : Out :=
  if roles then (if s.active then .next (body s) else .next s) else .next s.illegal

/-! ### Masks (R66, R247) -/

/-- The top of the slot's mask stack. -/
def State.vTop (s : State) : BitVec 64 := activeMask (s.core.mask s.v1)

/-- The lanes an instruction works on. -/
def State.vLanes (s : State) (m : BitVec 1) : BitVec 64 := if m = 1 then s.vTop else BitVec.allOnes 64

/-! ### Reads (R245, R250) -/

/-- n reads of queue q, the last a peek if `peek`. -/
def State.readN (s : State) (q : Nat) (peek : Bool) : Nat → List QEntry × State
  | 0 => ([], s)
  | 1 =>
    let (e, s) := s.takeQ q peek
    ([e], s)
  | n + 2 =>
    let (e, s) := s.takeQ q false
    let (es, s) := State.readN s q peek (n + 1)
    (e :: es, s)

/-- One of the entries read from an input port carries the mixed tag (R59, R132). -/
def mixedIn (port : Bool) (tags : List Byte) : Bool := port && tags.any fun t => decide (t = mixedTag)

/-- The tag check of an instruction that is no reader (R250): a tagged entry is FLT_KEPT, cause 7 where one of them is mixed. -/
def State.tagPlain (s : State) (q : Nat) (opB : Bool) (es : List QEntry) : State :=
  match es.find? fun e => tagV e.tag with
  | none => s
  | some e =>
    let cause := if mixedIn (decide (q = 12) || decide (q = 13)) (es.map (·.tag)) then 7 else 1
    s.raiseInfo (keptFault cause 0 e.tag (keptQueueInfo q opB))

/-- Operand a read n times. -/
def State.opA (s : State) (a : BitVec 4) (x : BitVec 1) (n : Nat) : List Vec × State :=
  let (es, s) := s.readN a.toNat (decide (x = 1)) n
  (es.map (·.v), s.tagPlain a.toNat false es)

/-- Operand b read once, or the broadcast value in its place. -/
def State.opB (s : State) (t : ElTy) (b : BitVec 4) (y c : BitVec 1) : Vec × State :=
  if c = 1 then (splat t.w (t.bc s.iss.bc), s)
  else
    let (es, s) := s.readN b.toNat (decide (y = 1)) 1
    ((es.headD default).v, s.tagPlain b.toNat true es)

/-- VFMA's addend, popped from queue d. -/
def State.opC (s : State) (d : BitVec 4) : Vec × State :=
  let (es, s) := s.readN d.toNat false 1
  ((es.headD default).v, s.tagPlain d.toNat false es)

/-! ### Results (R246 to R249) -/

/-- What the elements of a result leave: values in order, flags, LFSR states. -/
structure ElemAcc where
  out : List Nat
  flg : BitVec 7
  lfs : Vector (BitVec 32) 64
  deriving DecidableEq, Repr, Inhabited

/-- One element of a result: disabled lanes keep the old bits; a stochastic rounding steps its lane's LFSR once
(R83). -/
def elemStep (w : Nat) (en : BitVec 64) (old : Vec) (sr : Bool) (f : Nat → BitVec 32 → Nat × BitVec 7) (st : ElemAcc)
    (i : Nat) : ElemAcc :=
  let e := i % (2048 / w)
  let lane := e * w / 32
  if bit en lane then
    let draw := if sr then lfsNext (vget st.lfs lane) else 0
    let r := f i draw
    ⟨r.1 :: st.out, st.flg ||| r.2, if sr then vset st.lfs lane draw else st.lfs⟩
  else { st with out := elem w old e :: st.out }

/-- Entries of 2048/w elements each. -/
def entriesOf (w : Nat) : Nat → List Nat → List Vec
  | 0, _ => []
  | k + 1, l => packVec w (l.take (2048 / w)) :: entriesOf w k (l.drop (2048 / w))

/-- The elements of `k` entries of a result, in ascending order, with their flags and LFSR steps (R246, R249). -/
def State.elements (s : State) (w k : Nat) (en : BitVec 64) (old : Vec) (sr : Bool)
    (f : Nat → BitVec 32 → Nat × BitVec 7) : List Vec × State :=
  let r := (List.range (k * (2048 / w))).foldl (elemStep w en old sr f) ⟨[], 0, s.iss.lfs⟩
  (entriesOf w k r.out.reverse, { s with iss := { s.iss with flg := s.iss.flg ||| r.flg, lfs := r.lfs } })

/-- Entries pushed with their tags onto queue d after L cycles; an output port whose generator is idle is FLT_QOF
(R59, R248). -/
def State.vPushTagged (s : State) (lat : Nat) (d : BitVec 4) (es : List QEntry) : State :=
  let s := s.pushQ lat d.toNat es
  if outPort d && !(vget s.core.vs.ag (d.toNat - 12)).walking then
    s.issueFault 0x04 0 false (BitVec.ofNat 64 d.toNat) 0
  else s

/-- Untagged entries pushed onto queue d after L cycles (R133). -/
def State.vPush (s : State) (lat : Nat) (d : BitVec 4) (vs : List Vec) : State :=
  s.vPushTagged lat d (vs.map fun v => ⟨v, 0, none⟩)

/-! ### The shared shapes of V instructions -/

/-- One read of a and of b, one entry pushed, computed element by element of type t. -/
def vBin (t : ElTy) (lat : Nat) (f : Nat → Nat → Nat × BitVec 7) (d a b : BitVec 4) (x y m c : BitVec 1) (s : State) :
    Out :=
  vRun s (s.vIn a && (decide (c = 1) || s.vIn b) && s.vOut d) fun s =>
    let en := s.vLanes m
    let (as, s) := s.opA a x 1
    let av := as.headD 0
    let (bv, s) := s.opB t b y c
    let (es, s) := s.elements t.w 1 en av false fun i _ => f (elem t.w av i) (elem t.w bv i)
    s.vPush lat d es

/-- One read of a, one entry pushed, computed element by element of width w. -/
def vUn (w lat : Nat) (f : Nat → Nat × BitVec 7) (d a : BitVec 4) (x m : BitVec 1) (s : State) : Out :=
  vRun s (s.vIn a && s.vOut d) fun s =>
    let en := s.vLanes m
    let (as, s) := s.opA a x 1
    let av := as.headD 0
    let (es, s) := s.elements w 1 en av false fun i _ => f (elem w av i)
    s.vPush lat d es

/-- One read of a and of b (untyped: bc reads as .i32, R331), and whole vectors computed from them: every entry is
merged lane by lane with the old bits. -/
def vWhole (f : Vec → Vec → List Vec) (d a b : BitVec 4) (x y m c : BitVec 1) (s : State) : Out :=
  vRun s (s.vIn a && (decide (c = 1) || s.vIn b) && s.vOut d) fun s =>
    let en := s.vLanes m
    let (as, s) := s.opA a x 1
    let av := as.headD 0
    let (bv, s) := s.opB (.int 32) b y c
    let rs := f av bv
    let (es, s) := s.elements 32 rs.length en av false fun i _ => (elem 32 (rs.getD (i / 64) 0) (i % 64), 0)
    s.vPush 2 d es

/-- A compare (R254): one mask entry pushed two cycles later; the depth check is that of R229. -/
def vCmp (t : ElTy) (cond : Nat → Nat → Bool) (a b : BitVec 4) (x y m c : BitVec 1) (s : State) : Out :=
  vRun s (s.vIn a && (decide (c = 1) || s.vIn b)) fun s =>
    let en := s.vLanes m
    let (as, s) := s.opA a x 1
    let av := as.headD 0
    let (bv, s) := s.opB t b y c
    let per := 32 / t.w
    let bits := (List.range 64).map fun l =>
      b2n (bit en l && (List.range per).all fun j =>
        cond (elem t.w av (per * l + j)) (elem t.w bv (per * l + j)))
    let v1 := s.v1
    let n := s.iss
    let more := if v1 then n.compares1 else n.compares0
    let depth := (s.core.mask v1).length + s.core.inflightMasks v1 + more
    let s := { s with iss := if v1 then { n with compares1 := more + 1 } else { n with compares0 := more + 1 } }
    let s := s.result 2 (.maskPush v1 (BitVec.ofNat 64 (packNat 1 bits)))
    if 8 ≤ depth then s.issueFault 0x06 0 false (BitVec.ofNat 64 (b2n v1)) (BitVec.ofNat 64 depth) else s

end Sys2Proof.Machine
end

