-- ==== Sys2Proof/Machine/Reader.lean ====
section
/-! DEFINITION. The backward readers (R264 to R266): how operand a is read under the form that serves it, and the
results. -/

namespace Sys2Proof.Machine

/-- The element type code of a reader's type (R124). -/
def readerEtype (f : Fmt) : Nat := if f = .bf16 then 0 else 4

/-- The condition of a grid cell of R130 for a V reader of type f; `win` is the window of a VMPOOLB. -/
def readerOk (f : Fmt) (win : Option (Nat × Nat)) (e : BitVec 32) : Bool :=
  match ktForm e with
  | 2 => decide (win = some (2, 2))
  | 3 => decide (win = some (ktWindow e))
  | 6 => decide (ktEtype e = readerEtype f) && (win.isNone || decide (win = some (ktWindow e)))
  | _ => true

/-- The form that a served entry names; FULL for untagged data. -/
def KeptResult.form : KeptResult → Nat
  | .untagged => 6
  | .carried _ => 6
  | .served e _ => ktForm e
  | .fault _ _ => 6

/-- A refusal of the check raised at the executing slot. -/
def State.raiseKept (s : State) (r : KeptResult) (code q : Nat) (opB : Bool) : State :=
  match r with
  | .fault cause t => s.raiseInfo (keptFault cause code t (keptQueueInfo q opB))
  | .untagged => s
  | .carried _ => s
  | .served _ _ => s

/-- The check of entries under a reader's own code; a mixed tag is cause 7, with the first tag that has V = 1 (R131, R132). -/
def State.queueCheck (s : State) (pres : Presented) (port : Bool) (tags : List Byte) : KeptResult :=
  if mixedIn port tags then .fault 7 ((tags.find? tagV).getD mixedTag) else keptCheck s.ctx.kt pres tags

/-- Operand b of a reader, read n times: each entry's tag is checked under the reader's own code (R133, R250), but a mixed tag among them
is cause 7 (R132). It has no broadcast form. An entry that passes the check under a form other than FULL is taken at its raw bits: R265 decodes operand a alone
(DESIGN CHOICE, log entry 125). -/
def State.opBN (s : State) (pres : Presented) (b : BitVec 4) (y : BitVec 1) (n : Nat) : List Vec × State :=
  let here := (s.core.queue b.toNat).length
  let (es, s) := s.readN b.toNat (decide (y = 1)) n
  let tags := (es.take here).map (·.tag)
  (es.map (·.v), (es.take here).foldl (fun s e =>
    s.raiseKept (s.queueCheck pres (inPort b) (if mixedIn (inPort b) tags then tags else [e.tag])) pres.code b.toNat true) s)

/-- How many entries the kept operand has: the head entry's tag decides. One whose own check refuses is the only one read: R264 and R265
give a count for a served form and for untagged data (DESIGN CHOICE, log entry 136). -/
def State.keptReadCount (s : State) (pres : Presented) (full : Nat) (port : Bool) : List QEntry → Nat
  | [] => full
  | e :: _ =>
    match s.queueCheck pres port [e.tag] with
    | .untagged => full
    | .carried _ => full
    | .fault _ _ => 1
    | .served k _ => if ktForm k = 6 then full else if ktForm k = 4 then 2 else 1

/-- The kept operand (R264, R265): the tags of all the entries read are checked together. Until all of them are there the bundle holds or
freezes (R58, R329), unless those that are there fail the check (R334). Answers the form and the entries. -/
def State.opKept (s : State) (pres : Presented) (win : Option (Nat × Nat)) (a : BitVec 4) (x : BitVec 1) :
    (Nat × List Vec) × State :=
  let q := a.toNat
  let n := s.keptReadCount pres ((win.map (·.1)).getD 1) (inPort a) (s.core.queue q)
  let here := (s.core.queue q).length
  let (es, s) := s.readN q (decide (x = 1)) n
  let r := s.queueCheck pres (inPort a) ((es.take here).map (·.tag))
  ((r.form, es.map (·.v)), s.raiseKept r pres.code q false)

/-- SLICE of the broadcast value. -/
def State.slice (s : State) : Nat := bits s.iss.bc 17 8

/-- The window of VMPOOLB: height and width (R201). -/
def State.poolWin (s : State) : Nat × Nat := (bits s.iss.bc 3 2 + 1, bits s.iss.bc 1 0 + 1)

/-- The scale pair of CODE8 (R264, R265). -/
def State.scalePair (s : State) : Nat := s.core.lidx (bits s.iss.bc 7 5) % 64

/-- The mask bit of element e (R265, R266): MASK1's bit, or x > 0 under FULL. -/
def State.keptMask (s : State) (f : Fmt) (k : Nat × List Vec) (e : Nat) : Bool :=
  let v := k.2.headD 0
  if k.1 = 1 then
    let n := 2048 / f.w
    bit v (n * (s.slice % (2048 / n)) + e)
  else Val.zero.lt (f.dec (elem f.w v e))

/-- The datum of element e in the reader's type (R265): CODE8's decoded code, or the element itself. -/
def State.keptDatum (s : State) (f : Fmt) (k : Nat × List Vec) (e : Nat) : Nat :=
  let v := k.2.headD 0
  if k.1 = 4 then
    let n := 2048 / f.w
    let c := n * (s.slice % (256 / n)) + e
    code8Val f (elem 8 v c) (elem 8 (k.2.getD 1 0) (2 * s.scalePair + c / 128))
  else elem f.w v e

/-- The pool position of window w (R265): the field of IDX2 or IDX4, or R127 over the rows read. -/
def State.keptPos (s : State) (f : Fmt) (k : Nat × List Vec) (w : Nat) : Nat :=
  let (h, v) := s.poolWin
  let n := 2048 / f.w
  if k.1 = 2 ∨ k.1 = 3 then
    let b := if k.1 = 2 then 2 else 4
    let slices := 2048 / (n / v * b)
    elem b (k.2.headD 0) (n / v * (s.slice % slices) + w)
  else
    argmax f ((List.range (h * v)).map fun p => elem f.w (k.2.getD (p / v) 0) (v * w + p % v))

/-- A reader that reads a and nb entries of b, and pushes one entry. -/
def vRead (f : Fmt) (op lat nb : Nat) (g : State → Nat × List Vec → List Vec → Nat → Nat × BitVec 7)
    (d a b : BitVec 4) (x y m : BitVec 1) (s : State) : Out :=
  vRun s (s.vIn a && s.vIn b && s.vOut d) fun s =>
    let en := s.vLanes m
    let pres : Presented := ⟨vReader op, false, readerOk f none⟩
    let (k, s) := s.opKept pres none a x
    let (bs, s) := s.opBN pres b y nb
    let (es, s) := s.elements f.w 1 en (k.2.headD 0) false fun e _ => g s k bs e
    s.vPush lat d es

/-- VRELUB and VDROPB. -/
def gatedGrad (f : Fmt) (s : State) (k : Nat × List Vec) (bs : List Vec) (e : Nat) : Nat × BitVec 7 :=
  if s.keptMask f k e then
    let dy := f.dec (elem f.w (bs.headD 0) e)
    floatResult f dy [dy]
  else (0, 0)

/-- VGELUB. -/
def geluGrad (f : Fmt) (s : State) (k : Nat × List Vec) (bs : List Vec) (e : Nat) : Nat × BitVec 7 :=
  let x := f.dec (s.keptDatum f k e)
  let dy := f.dec (elem f.w (bs.headD 0) e)
  floatResult f (dy.mul (geluT x)) [x, dy]

/-- VSMAXB: y · (dy − s). -/
def softmaxGrad (f : Fmt) (s : State) (k : Nat × List Vec) (bs : List Vec) (e : Nat) : Nat × BitVec 7 :=
  let y := f.dec (s.keptDatum f k e)
  let dy := f.dec (elem f.w (bs.headD 0) e)
  let t := Fmt.f32.dec (elem 32 (bs.getD 1 0) (e * f.w / 32))
  floatResult f (y.mul (dy.add t.negate)) [y, dy, t]

/-- VLNORMB: r · (dy − m1 − x̂ · m2). -/
def normGrad (f : Fmt) (s : State) (k : Nat × List Vec) (bs : List Vec) (e : Nat) : Nat × BitVec 7 :=
  let x := f.dec (s.keptDatum f k e)
  let dy := f.dec (elem f.w (bs.headD 0) e)
  let row := bs.getD 1 0
  let r := Fmt.f32.dec (elem 32 row 0)
  let m1 := Fmt.f32.dec (elem 32 row 1)
  let m2 := Fmt.f32.dec (elem 32 row 2)
  floatResult f (r.mul ((dy.add m1.negate).add (x.mul m2).negate)) [x, dy, r, m1, m2]

/-- VMPOOLB: one entry for each row of the window. -/
def vPoolB (f : Fmt) (op : Nat) (d a b : BitVec 4) (x y m : BitVec 1) (s : State) : Out :=
  vRun s (s.vIn a && s.vIn b && s.vOut d) fun s =>
    let (h, v) := s.poolWin
    if v = 3 then s.encFault
    else
      let en := s.vLanes m
      let n := 2048 / f.w
      let pres : Presented := ⟨vReader op, false, readerOk f (some (h, v))⟩
      let (k, s) := s.opKept pres (some (h, v)) a x
      let (bs, s) := s.opBN pres b y 1
      let pos := (List.range (n / v)).map fun w => s.keptPos f k w
      let (es, s) := s.elements f.w h en (k.2.headD 0) false fun i _ =>
        let r := i / n
        let c := i % n
        if pos.getD (c / v) 0 = r * v + c % v then
          let dy := f.dec (elem f.w (bs.headD 0) (c / v))
          floatResult f dy [dy]
        else (0, 0)
      s.vPush 4 d es

end Sys2Proof.Machine
end

