-- ==== Sys2Proof/Machine/VConvert.lean ====
section
/-! DEFINITION. The shared forms of conversions, quantization, reductions, moves and variable-length decode (R258 to
R263, R267 to R269). -/

namespace Sys2Proof.Machine

/-- A conversion (R260): ra reads of a in elements of ws bits, rd entries of wd bits pushed. -/
def vCvt (ws ra wd rd : Nat) (sr : Bool) (f : Nat → BitVec 32 → Nat × BitVec 7) (d a : BitVec 4) (x m : BitVec 1)
    (s : State) : Out :=
  vRun s (s.vIn a && s.vOut d) fun s =>
    let en := s.vLanes m
    let (as, s) := s.opA a x ra
    let n := 2048 / ws
    let (es, s) := s.elements wd rd en (as.headD 0) sr fun i draw => f (elem ws (as.getD (i / n) 0) (i % n)) draw
    s.vPush 3 d es

/-- A narrowing or exact widening between float formats. -/
def vCvtF (src dst : Fmt) (r : BitVec 3) (o : Ovf) (d a : BitVec 4) (x m : BitVec 1) (s : State) : Out :=
  let mode := rndOf r.toNat
  vCvt src.w (if src.w < dst.w then 1 else src.w / dst.w) dst.w (if src.w < dst.w then dst.w / src.w else 1)
    (decide (mode = .sr)) (convert src dst mode o) d a x m s

/-- FP32 to an integer of w bits (R88). -/
def vCvtToInt (w : Nat) (r : BitVec 3) (d a : BitVec 4) (x m : BitVec 1) (s : State) : Out :=
  let mode := rndOf r.toNat
  vCvt 32 (32 / w) w 1 (decide (mode = .sr)) (fun e draw => convertToInt w mode (Fmt.f32.dec e) draw) d a x m s

/-- A 32-bit integer to FP32 (R88). -/
def vCvtOfInt (r : BitVec 3) (d a : BitVec 4) (x m : BitVec 1) (s : State) : Out :=
  let mode := rndOf r.toNat
  vCvt 32 1 32 1 (decide (mode = .sr)) (fun e draw => narrow .f32 mode .ieee (Val.ofInt (sgn 32 e)) draw) d a x m s

/-- One code of VQNT (R261): the exact product, rounded into the target. `dst` is none for .i8. -/
def quantize (dst : Option Fmt) (mode : Rnd) (x : Nat) (s : Nat) (draw : BitVec 32) : Nat × BitVec 7 :=
  let a := Fmt.f32.dec x
  let b := Fmt.f32.dec s
  let v := a.mul b
  match dst with
  | some f =>
    let r := narrow f mode .sat v draw
    (r.1, r.2 ||| flInvalid v [a, b])
  | none => convertToInt 8 mode v draw

/-- VQNT (R261). -/
def vQnt (dst : Option Fmt) (sr : Bool) (d a b : BitVec 4) (x y m c : BitVec 1) (s : State) : Out :=
  vRun s (s.vIn a && (decide (c = 1) || s.vIn b) && s.vOut d) fun s =>
    let en := s.vLanes m
    let (as, s) := s.opA a x 4
    let (bv, s) := s.opB (.float .f32) b y c
    let (es, s) := s.elements 8 1 en (as.headD 0) sr fun i draw =>
      quantize dst (if sr then .sr else .rn) (elem 32 (as.getD (i / 64) 0) (i % 64)) (elem 32 bv (i / 64)) draw
    s.vPush 4 d es

/-- VDQNT (R261); `src` is none for .i8. -/
def vDqnt (src : Option Fmt) (d a b : BitVec 4) (x y m c : BitVec 1) (s : State) : Out :=
  vRun s (s.vIn a && (decide (c = 1) || s.vIn b) && s.vOut d) fun s =>
    let en := s.vLanes m
    let (as, s) := s.opA a x 1
    let av := as.headD 0
    let (bv, s) := s.opB (.float .f32) b y c
    let (es, s) := s.elements 32 4 en av false fun i _ =>
      let code := elem 8 av i
      let p := src.elim (Val.ofInt (sgn 8 code)) fun f => f.dec code
      let q := Fmt.f32.dec (elem 32 bv (i / 64))
      floatResult .f32 (p.mul q) [p, q]
    s.vPush 4 d es

/-- The greatest |x| of the enabled elements, NaN ignored, as an FP32 encoding (R258). -/
def amaxOf (f : Fmt) (en : BitVec 64) (v : Vec) : Nat :=
  (rne .f32 ((List.range (2048 / f.w)).foldl
    (fun (g : Val) e =>
      let x := (f.dec (elem f.w v e)).abs
      if bit en (e * f.w / 32) && g.lt x then x else g) Val.zero)).1

/-- VAMAX (R258). -/
def vAmax (f : Fmt) (d a : BitVec 4) (x m : BitVec 1) (s : State) : Out :=
  vRun s (s.vIn a && s.vOut d) fun s =>
    let en := s.vLanes m
    let (as, s) := s.opA a x 1
    let av := as.headD 0
    let g := amaxOf f en av
    let (es, s) := s.elements 32 1 en av false fun _ _ => (g, 0)
    s.vPush 6 d es

/-- Neighbours added, with their flags (R259). -/
def sumPairs : List Nat → List Nat × BitVec 7
  | x :: y :: r =>
    let a := Fmt.f32.dec x
    let b := Fmt.f32.dec y
    let v := floatResult .f32 (a.add b) [a, b]
    let t := sumPairs r
    (v.1 :: t.1, v.2 ||| t.2)
  | l => (l, 0)

/-- k levels of the tree. -/
def sumTree : Nat → List Nat → List Nat × BitVec 7
  | 0, l => (l, 0)
  | k + 1, l =>
    let p := sumPairs l
    let t := sumTree k p.1
    (t.1, p.2 ||| t.2)

/-- VRSUM (R259). -/
def vRsum (d a : BitVec 4) (x m : BitVec 1) (s : State) : Out :=
  vRun s (s.vIn a && s.vOut d) fun s =>
    let en := s.vLanes m
    let (as, s) := s.opA a x 1
    let av := as.headD 0
    let t := sumTree 6 ((List.range 64).map fun l => if bit en l then elem 32 av l else Fmt.f32.sign)
    let (es, s) := s.elements 32 1 en av false fun _ _ => (t.1.headD 0, t.2)
    s.vPush 8 d es

/-- VRELU of one element (R262). -/
def relu (f : Fmt) (x : Nat) : Nat × BitVec 7 :=
  let v := f.dec x
  (if v.isNan then f.nan else if Val.zero.lt v then x else 0, 0)

/-- The position of the first greatest of the four elements of window w (R127, R263). -/
def poolPos (f : Fmt) (r0 r1 : Vec) (w : Nat) : Nat :=
  argmax f [elem f.w r0 (2 * w), elem f.w r0 (2 * w + 1), elem f.w r1 (2 * w), elem f.w r1 (2 * w + 1)]

/-- An element with a NaN written as the canonical NaN. -/
def canonical (f : Fmt) (x : Nat) : Nat := if (f.dec x).isNan then f.nan else x

/-- The entry VMPOOL pushes (R263). -/
def poolEntry (f : Fmt) (r0 r1 : Vec) : Vec :=
  let ws := List.range (1024 / f.w)
  let ps := ws.map (poolPos f r0 r1)
  let vals := (ws.zip ps).map fun p =>
    canonical f (elem f.w (if p.2 < 2 then r0 else r1) (2 * p.1 + p.2 % 2))
  BitVec.ofNat 2048 (packNat f.w vals + packNat 2 ps * 2 ^ 1024)

/-- VMPOOL (R263). -/
def vMpool (f : Fmt) (d a : BitVec 4) (x m : BitVec 1) (s : State) : Out :=
  vRun s (s.vIn a && s.vOut d) fun s =>
    let en := s.vLanes m
    let (as, s) := s.opA a x 2
    let r := poolEntry f (as.headD 0) (as.getD 1 0)
    let (es, s) := s.elements 32 1 en (as.headD 0) false fun i _ => (elem 32 r i, 0)
    s.vPush 4 d es

/-- VFMA (R252): a, b, then the addend popped from d. -/
def vFma (f : Fmt) (d a b : BitVec 4) (x y m c : BitVec 1) (s : State) : Out :=
  vRun s (s.vIn a && (decide (c = 1) || s.vIn b) && ownQ s.v1 d) fun s =>
    let en := s.vLanes m
    let (as, s) := s.opA a x 1
    let av := as.headD 0
    let (bv, s) := s.opB (.float f) b y c
    let (cv, s) := s.opC d
    let (es, s) := s.elements f.w 1 en cv false fun i _ =>
      let p := f.dec (elem f.w av i)
      let q := f.dec (elem f.w bv i)
      let r := f.dec (elem f.w cv i)
      floatResult f ((p.mul q).add r) [p, q, r]
    s.vPush 4 d es

/-- VSEL (R255): lanes of a where the top of the stack enables them, of b elsewhere. -/
def vSel (d a b : BitVec 4) (x y c : BitVec 1) (s : State) : Out :=
  vRun s (s.vIn a && (decide (c = 1) || s.vIn b) && s.vOut d) fun s =>
    let en := s.vTop
    let (as, s) := s.opA a x 1
    let av := as.headD 0
    let (bv, s) := s.opB (.int 32) b y c
    let (es, s) := s.elements 32 1 en bv false fun i _ => (elem 32 av i, 0)
    s.vPush 2 d es

/-- VXMOV (R267): from the slot's own cluster to the other, with the tag. -/
def vXmov (d a : BitVec 4) (x : BitVec 1) (s : State) : Out :=
  vRun s (ownQ s.v1 a && ownQ (!s.v1) d) fun s =>
    let (es, s) := s.readN a.toNat (decide (x = 1)) 1
    let e := es.headD default
    s.vPushTagged 2 d [⟨e.v, e.tag, none⟩]

/-! ### Variable-length decode (R269) -/

/-- The number of leading zero bits of a buffer. -/
def VBuf.zeros (b : VBuf) : Nat := if b.bits = 0 then b.len else b.len - 1 - Nat.log2 b.bits

/-- The buffer without its first k bits. -/
def VBuf.drop (b : VBuf) (k : Nat) : VBuf := ⟨b.len - k, b.bits % 2 ^ (b.len - k)⟩

/-- One symbol: the value, whether it was invalid, and the buffer after it. -/
def VBuf.symbol (b : VBuf) : Nat × Bool × VBuf :=
  let z := b.zeros
  if 16 ≤ z then (0, true, b.drop 16)
  else
    let n := 2 ^ z - 1 + b.bits / 2 ^ (b.len - (2 * z + 1)) % 2 ^ z
    (pat 32 (if n % 2 = 1 then -((n / 2 : Nat) : Int) - 1 else ((n / 2 : Nat) : Int)), false, b.drop (2 * z + 1))

/-- A lane claims the next word of the port when its buffer is short. -/
def vdecClaim (q : Nat) (st : Vdec × State) (l : Nat) : Vdec × State :=
  let (v, s) := st
  let b := vget v.bufs l
  if 32 ≤ b.len then st
  else
    let (e, s) := s.takeQ q true
    let s := s.tagPlain q false [e]
    let w := elem 32 e.v v.next
    let last := decide (v.next = 63)
    let s := if last then (s.takeQ q false).2 else s
    ({ bufs := vset v.bufs l ⟨b.len + 32, b.bits * 2 ^ 32 + w⟩, next := if last then 0 else v.next + 1 }, s)

/-- VDEC (R269). -/
def vDec (d a : BitVec 4) (m : BitVec 1) (s : State) : Out :=
  vRun s (inPort a && s.vOut d) fun s =>
    let en := s.vLanes m
    let p := a.toNat - 12
    let lanes := (List.range 64).filter fun l => bit en l
    let (v, s) := lanes.foldl (vdecClaim a.toNat) (vget s.core.vs.vdec p, s)
    let syms := (List.range 64).map fun l => (vget v.bufs l).symbol
    let bufs := lanes.foldl (fun bs l => vset bs l ((syms.getD l (0, false, default)).2.2)) v.bufs
    let s := { s with core := { s.core with vs := { s.core.vs with
      vdec := vset s.core.vs.vdec p { v with bufs := bufs } } } }
    let (es, s) := s.elements 32 1 en 0 false fun i _ =>
      let y := syms.getD i (0, false, default)
      (y.1, flIf y.2.1 flNV)
    s.vPush 6 d es

/-! ### The lane LFSRs (R268) -/

/-- VLFRD. -/
def vLfrd (d : BitVec 4) (m : BitVec 1) (s : State) : Out :=
  vRun s (s.vOut d) fun s =>
    let en := s.vLanes m
    let r := s.core.regs.lfs
    let (es, s) := s.elements 32 1 en 0 false fun i _ => ((vget r i).toNat, 0)
    s.vPush 1 d es

/-- VLFWR: the write lands at the end of the issue cycle. -/
def vLfwr (a : BitVec 4) (x m : BitVec 1) (s : State) : Out :=
  vRun s (s.vIn a) fun s =>
    let en := s.vLanes m
    let (as, s) := s.opA a x 1
    let av := as.headD 0
    let n := s.iss
    { s with iss := { n with
      lfs := (List.range 64).foldl
        (fun l i => if bit en i then vset l i (BitVec.ofNat 32 (elem 32 av i)) else l) n.lfs } }

end Sys2Proof.Machine
end

