-- ==== Sys2Proof/Machine/Vector.lean ====
section
/-! DEFINITION. The V slot (R244 to R269): one meaning for each instruction over the shared forms. -/

namespace Sys2Proof.Machine

/-! ### Element functions (R252 to R254) -/

/-- x + y. -/
def fAdd (f : Fmt) (x y : Nat) : Nat × BitVec 7 :=
  let a := f.dec x
  let b := f.dec y
  floatResult f (a.add b) [a, b]

/-- x − y. -/
def fSub (f : Fmt) (x y : Nat) : Nat × BitVec 7 :=
  let a := f.dec x
  let b := f.dec y
  floatResult f (a.add b.negate) [a, b]

/-- x · y. -/
def fMul (f : Fmt) (x y : Nat) : Nat × BitVec 7 :=
  let a := f.dec x
  let b := f.dec y
  floatResult f (a.mul b) [a, b]

/-- a < b; false of NaN. -/
def fLt (f : Fmt) (x y : Nat) : Bool := (f.dec x).lt (f.dec y)

/-- a ≤ b; false of NaN. -/
def fLe (f : Fmt) (x y : Nat) : Bool := (f.dec x).lt (f.dec y) || (f.dec x).eqv (f.dec y)

/-- a = b; false of NaN. -/
def fEq (f : Fmt) (x y : Nat) : Bool := (f.dec x).eqv (f.dec y)

/-- An integer operation of w bits that sets no flag. -/
def iOp (w : Nat) (g : Int → Int → Int) (x y : Nat) : Nat × BitVec 7 := (pat w (g (sgn w x) (sgn w y)), 0)

/-- A bitwise operation, lane by lane. -/
def bOp (g : Nat → Nat → Nat) (x y : Nat) : Nat × BitVec 7 := (g x y, 0)

/-- Lane l of the sequence of lanes of a, then of b. -/
def lane2 (a b : Vec) (l : Nat) : Nat := if l < 64 then elem 32 a l else elem 32 b (l - 64)

/-- A vector from a function of the lane. -/
def ofLanes (f : Nat → Nat) : Vec := packVec 32 ((List.range 64).map f)

/-! ### The instructions -/

/-- VADD_F32 (R252). -/
def execVaddF32 (d a b : BitVec 4) (x y m c : BitVec 1) (s : State) : Out :=
  vBin (.float .f32) 4 (fAdd .f32) d a b x y m c s

/-- VSUB_F32 (R252). -/
def execVsubF32 (d a b : BitVec 4) (x y m c : BitVec 1) (s : State) : Out :=
  vBin (.float .f32) 4 (fSub .f32) d a b x y m c s

/-- VMUL_F32 (R252). -/
def execVmulF32 (d a b : BitVec 4) (x y m c : BitVec 1) (s : State) : Out :=
  vBin (.float .f32) 4 (fMul .f32) d a b x y m c s

/-- VFMA_F32 (R252). -/
def execVfmaF32 (d a b : BitVec 4) (x y m c : BitVec 1) (s : State) : Out :=
  vFma .f32 d a b x y m c s

/-- VMIN_F32 (R252). -/
def execVminF32 (d a b : BitVec 4) (x y m c : BitVec 1) (s : State) : Out :=
  vBin (.float .f32) 2 (minMax .f32 false) d a b x y m c s

/-- VMAX_F32 (R252). -/
def execVmaxF32 (d a b : BitVec 4) (x y m c : BitVec 1) (s : State) : Out :=
  vBin (.float .f32) 2 (minMax .f32 true) d a b x y m c s

/-- VCMPLT_F32 (R254). -/
def execVcmpltF32 (a b : BitVec 4) (x y m c : BitVec 1) (s : State) : Out :=
  vCmp (.float .f32) (fLt .f32) a b x y m c s

/-- VCMPLE_F32 (R254). -/
def execVcmpleF32 (a b : BitVec 4) (x y m c : BitVec 1) (s : State) : Out :=
  vCmp (.float .f32) (fLe .f32) a b x y m c s

/-- VADD_BF16 (R252). -/
def execVaddBf16 (d a b : BitVec 4) (x y m c : BitVec 1) (s : State) : Out :=
  vBin (.float .bf16) 4 (fAdd .bf16) d a b x y m c s

/-- VSUB_BF16 (R252). -/
def execVsubBf16 (d a b : BitVec 4) (x y m c : BitVec 1) (s : State) : Out :=
  vBin (.float .bf16) 4 (fSub .bf16) d a b x y m c s

/-- VMUL_BF16 (R252). -/
def execVmulBf16 (d a b : BitVec 4) (x y m c : BitVec 1) (s : State) : Out :=
  vBin (.float .bf16) 4 (fMul .bf16) d a b x y m c s

/-- VFMA_BF16 (R252). -/
def execVfmaBf16 (d a b : BitVec 4) (x y m c : BitVec 1) (s : State) : Out :=
  vFma .bf16 d a b x y m c s

/-- VMIN_BF16 (R252). -/
def execVminBf16 (d a b : BitVec 4) (x y m c : BitVec 1) (s : State) : Out :=
  vBin (.float .bf16) 2 (minMax .bf16 false) d a b x y m c s

/-- VMAX_BF16 (R252). -/
def execVmaxBf16 (d a b : BitVec 4) (x y m c : BitVec 1) (s : State) : Out :=
  vBin (.float .bf16) 2 (minMax .bf16 true) d a b x y m c s

/-- VCMPLT_BF16 (R254). -/
def execVcmpltBf16 (a b : BitVec 4) (x y m c : BitVec 1) (s : State) : Out :=
  vCmp (.float .bf16) (fLt .bf16) a b x y m c s

/-- VCMPLE_BF16 (R254). -/
def execVcmpleBf16 (a b : BitVec 4) (x y m c : BitVec 1) (s : State) : Out :=
  vCmp (.float .bf16) (fLe .bf16) a b x y m c s

/-- VADD_F16 (R252). -/
def execVaddF16 (d a b : BitVec 4) (x y m c : BitVec 1) (s : State) : Out :=
  vBin (.float .f16) 4 (fAdd .f16) d a b x y m c s

/-- VSUB_F16 (R252). -/
def execVsubF16 (d a b : BitVec 4) (x y m c : BitVec 1) (s : State) : Out :=
  vBin (.float .f16) 4 (fSub .f16) d a b x y m c s

/-- VMUL_F16 (R252). -/
def execVmulF16 (d a b : BitVec 4) (x y m c : BitVec 1) (s : State) : Out :=
  vBin (.float .f16) 4 (fMul .f16) d a b x y m c s

/-- VFMA_F16 (R252). -/
def execVfmaF16 (d a b : BitVec 4) (x y m c : BitVec 1) (s : State) : Out :=
  vFma .f16 d a b x y m c s

/-- VMIN_F16 (R252). -/
def execVminF16 (d a b : BitVec 4) (x y m c : BitVec 1) (s : State) : Out :=
  vBin (.float .f16) 2 (minMax .f16 false) d a b x y m c s

/-- VMAX_F16 (R252). -/
def execVmaxF16 (d a b : BitVec 4) (x y m c : BitVec 1) (s : State) : Out :=
  vBin (.float .f16) 2 (minMax .f16 true) d a b x y m c s

/-- VCMPEQ_F32 (R254). -/
def execVcmpeqF32 (a b : BitVec 4) (x y m c : BitVec 1) (s : State) : Out :=
  vCmp (.float .f32) (fEq .f32) a b x y m c s

/-- VCMPEQ_BF16 (R254). -/
def execVcmpeqBf16 (a b : BitVec 4) (x y m c : BitVec 1) (s : State) : Out :=
  vCmp (.float .bf16) (fEq .bf16) a b x y m c s

/-- VDIV_F32 (R256). -/
def execVdivF32 (d a b : BitVec 4) (x y m c : BitVec 1) (s : State) : Out :=
  vBin (.float .f32) 14 divF32 d a b x y m c s

/-- VSQRT_F32 (R256). -/
def execVsqrtF32 (d a : BitVec 4) (x m : BitVec 1) (s : State) : Out :=
  vUn 32 14 sqrtF32 d a x m s

/-- VRSQRT_F32 (R256). -/
def execVrsqrtF32 (d a : BitVec 4) (x m : BitVec 1) (s : State) : Out :=
  vUn 32 14 rsqrtF32 d a x m s

/-- VEXP2_F32 (R257). -/
def execVexp2F32 (d a : BitVec 4) (x m : BitVec 1) (s : State) : Out :=
  vUn 32 8 exp2F32 d a x m s

/-- VLOG2_F32 (R257). -/
def execVlog2F32 (d a : BitVec 4) (x m : BitVec 1) (s : State) : Out :=
  vUn 32 8 log2F32 d a x m s

/-- VSEL (R255). -/
def execVsel (d a b : BitVec 4) (x y c : BitVec 1) (s : State) : Out :=
  vSel d a b x y c s

/-- VAMAX_F32 (R258). -/
def execVamaxF32 (d a : BitVec 4) (x m : BitVec 1) (s : State) : Out :=
  vAmax .f32 d a x m s

/-- VAMAX_BF16 (R258). -/
def execVamaxBf16 (d a : BitVec 4) (x m : BitVec 1) (s : State) : Out :=
  vAmax .bf16 d a x m s

/-- VCVT_BF16_F32 (R260). -/
def execVcvtBf16F32 (d a : BitVec 4) (r : BitVec 3) (x m : BitVec 1) (s : State) : Out :=
  vCvtF .f32 .bf16 r .ieee d a x m s

/-- VCVT_F16_F32 (R260). -/
def execVcvtF16F32 (d a : BitVec 4) (r : BitVec 3) (x m : BitVec 1) (s : State) : Out :=
  vCvtF .f32 .f16 r .ieee d a x m s

/-- VCVT_E4M3_F32 (R260). -/
def execVcvtE4m3F32 (d a : BitVec 4) (r : BitVec 3) (t x m : BitVec 1) (s : State) : Out :=
  vCvtF .f32 .e4m3 r (if t = 1 then .nan else .sat) d a x m s

/-- VCVT_E5M2_F32 (R260). -/
def execVcvtE5m2F32 (d a : BitVec 4) (r : BitVec 3) (t x m : BitVec 1) (s : State) : Out :=
  vCvtF .f32 .e5m2 r (if t = 1 then .sat else .ieee) d a x m s

/-- VCVT_F32_BF16 (R260). -/
def execVcvtF32Bf16 (d a : BitVec 4) (x m : BitVec 1) (s : State) : Out :=
  vCvtF .bf16 .f32 0 .ieee d a x m s

/-- VCVT_F32_F16 (R260). -/
def execVcvtF32F16 (d a : BitVec 4) (x m : BitVec 1) (s : State) : Out :=
  vCvtF .f16 .f32 0 .ieee d a x m s

/-- VCVT_F32_E4M3 (R260). -/
def execVcvtF32E4m3 (d a : BitVec 4) (x m : BitVec 1) (s : State) : Out :=
  vCvtF .e4m3 .f32 0 .ieee d a x m s

/-- VCVT_F32_E5M2 (R260). -/
def execVcvtF32E5m2 (d a : BitVec 4) (x m : BitVec 1) (s : State) : Out :=
  vCvtF .e5m2 .f32 0 .ieee d a x m s

/-- VCVT_I32_F32 (R260). -/
def execVcvtI32F32 (d a : BitVec 4) (r : BitVec 3) (x m : BitVec 1) (s : State) : Out :=
  vCvtToInt 32 r d a x m s

/-- VCVT_F32_I32 (R260). -/
def execVcvtF32I32 (d a : BitVec 4) (r : BitVec 3) (x m : BitVec 1) (s : State) : Out :=
  vCvtOfInt r d a x m s

/-- VCVT_I8_F32 (R260). -/
def execVcvtI8F32 (d a : BitVec 4) (r : BitVec 3) (x m : BitVec 1) (s : State) : Out :=
  vCvtToInt 8 r d a x m s

/-- VCVT_E4M3_BF16 (R260). -/
def execVcvtE4m3Bf16 (d a : BitVec 4) (r : BitVec 3) (t x m : BitVec 1) (s : State) : Out :=
  vCvtF .bf16 .e4m3 r (if t = 1 then .nan else .sat) d a x m s

/-- VRSUM_F32 (R259). -/
def execVrsumF32 (d a : BitVec 4) (x m : BitVec 1) (s : State) : Out :=
  vRsum d a x m s

/-- VQNT_E4M3 (R261). -/
def execVqntE4m3 (d a b : BitVec 4) (x y m c : BitVec 1) (s : State) : Out :=
  vQnt (some .e4m3) false d a b x y m c s

/-- VQNT_E4M3_SR (R261). -/
def execVqntE4m3Sr (d a b : BitVec 4) (x y m c : BitVec 1) (s : State) : Out :=
  vQnt (some .e4m3) true d a b x y m c s

/-- VQNT_E5M2 (R261). -/
def execVqntE5m2 (d a b : BitVec 4) (x y m c : BitVec 1) (s : State) : Out :=
  vQnt (some .e5m2) false d a b x y m c s

/-- VQNT_E5M2_SR (R261). -/
def execVqntE5m2Sr (d a b : BitVec 4) (x y m c : BitVec 1) (s : State) : Out :=
  vQnt (some .e5m2) true d a b x y m c s

/-- VQNT_I8 (R261). -/
def execVqntI8 (d a b : BitVec 4) (x y m c : BitVec 1) (s : State) : Out :=
  vQnt none false d a b x y m c s

/-- VQNT_I8_SR (R261). -/
def execVqntI8Sr (d a b : BitVec 4) (x y m c : BitVec 1) (s : State) : Out :=
  vQnt none true d a b x y m c s

/-- VDQNT_E4M3 (R261). -/
def execVdqntE4m3 (d a b : BitVec 4) (x y m c : BitVec 1) (s : State) : Out :=
  vDqnt (some .e4m3) d a b x y m c s

/-- VDQNT_E5M2 (R261). -/
def execVdqntE5m2 (d a b : BitVec 4) (x y m c : BitVec 1) (s : State) : Out :=
  vDqnt (some .e5m2) d a b x y m c s

/-- VDQNT_I8 (R261). -/
def execVdqntI8 (d a b : BitVec 4) (x y m c : BitVec 1) (s : State) : Out :=
  vDqnt none d a b x y m c s

/-- VRELU_F32 (R262). -/
def execVreluF32 (d a : BitVec 4) (x m : BitVec 1) (s : State) : Out :=
  vUn 32 2 (relu .f32) d a x m s

/-- VRELU_BF16 (R262). -/
def execVreluBf16 (d a : BitVec 4) (x m : BitVec 1) (s : State) : Out :=
  vUn 16 2 (relu .bf16) d a x m s

/-- VMPOOL_F32 (R263). -/
def execVmpoolF32 (d a : BitVec 4) (x m : BitVec 1) (s : State) : Out :=
  vMpool .f32 d a x m s

/-- VMPOOL_BF16 (R263). -/
def execVmpoolBf16 (d a : BitVec 4) (x m : BitVec 1) (s : State) : Out :=
  vMpool .bf16 d a x m s

/-- VRELUB_F32 (R266). -/
def execVrelubF32 (d a b : BitVec 4) (x y m : BitVec 1) (s : State) : Out :=
  vRead .f32 0xBD 4 1 (gatedGrad .f32) d a b x y m s

/-- VRELUB_BF16 (R266). -/
def execVrelubBf16 (d a b : BitVec 4) (x y m : BitVec 1) (s : State) : Out :=
  vRead .bf16 0xBE 4 1 (gatedGrad .bf16) d a b x y m s

/-- VMPOOLB_F32 (R266). -/
def execVmpoolbF32 (d a b : BitVec 4) (x y m : BitVec 1) (s : State) : Out :=
  vPoolB .f32 0xBF d a b x y m s

/-- VMPOOLB_BF16 (R266). -/
def execVmpoolbBf16 (d a b : BitVec 4) (x y m : BitVec 1) (s : State) : Out :=
  vPoolB .bf16 0xC0 d a b x y m s

/-- VGELUB_F32 (R266). -/
def execVgelubF32 (d a b : BitVec 4) (x y m : BitVec 1) (s : State) : Out :=
  vRead .f32 0xC1 6 1 (geluGrad .f32) d a b x y m s

/-- VGELUB_BF16 (R266). -/
def execVgelubBf16 (d a b : BitVec 4) (x y m : BitVec 1) (s : State) : Out :=
  vRead .bf16 0xC2 6 1 (geluGrad .bf16) d a b x y m s

/-- VDROPB_F32 (R266). -/
def execVdropbF32 (d a b : BitVec 4) (x y m : BitVec 1) (s : State) : Out :=
  vRead .f32 0xC3 4 1 (gatedGrad .f32) d a b x y m s

/-- VDROPB_BF16 (R266). -/
def execVdropbBf16 (d a b : BitVec 4) (x y m : BitVec 1) (s : State) : Out :=
  vRead .bf16 0xC4 4 1 (gatedGrad .bf16) d a b x y m s

/-- VSMAXB_F32 (R266). -/
def execVsmaxbF32 (d a b : BitVec 4) (x y m : BitVec 1) (s : State) : Out :=
  vRead .f32 0xC5 6 2 (softmaxGrad .f32) d a b x y m s

/-- VSMAXB_BF16 (R266). -/
def execVsmaxbBf16 (d a b : BitVec 4) (x y m : BitVec 1) (s : State) : Out :=
  vRead .bf16 0xC6 6 2 (softmaxGrad .bf16) d a b x y m s

/-- VLNORMB_F32 (R266). -/
def execVlnormbF32 (d a b : BitVec 4) (x y m : BitVec 1) (s : State) : Out :=
  vRead .f32 0xC7 6 2 (normGrad .f32) d a b x y m s

/-- VLNORMB_BF16 (R266). -/
def execVlnormbBf16 (d a b : BitVec 4) (x y m : BitVec 1) (s : State) : Out :=
  vRead .bf16 0xC8 6 2 (normGrad .bf16) d a b x y m s

/-- VADD_I32 (R253). -/
def execVaddI32 (d a b : BitVec 4) (x y m c : BitVec 1) (s : State) : Out :=
  vBin (.int 32) 2 (iOp 32 (· + ·)) d a b x y m c s

/-- VSUB_I32 (R253). -/
def execVsubI32 (d a b : BitVec 4) (x y m c : BitVec 1) (s : State) : Out :=
  vBin (.int 32) 2 (iOp 32 (· - ·)) d a b x y m c s

/-- VMUL_I32 (R253). -/
def execVmulI32 (d a b : BitVec 4) (x y m c : BitVec 1) (s : State) : Out :=
  vBin (.int 32) 4 (iOp 32 (· * ·)) d a b x y m c s

/-- VMIN_I32 (R253). -/
def execVminI32 (d a b : BitVec 4) (x y m c : BitVec 1) (s : State) : Out :=
  vBin (.int 32) 2 (iOp 32 min) d a b x y m c s

/-- VMAX_I32 (R253). -/
def execVmaxI32 (d a b : BitVec 4) (x y m c : BitVec 1) (s : State) : Out :=
  vBin (.int 32) 2 (iOp 32 max) d a b x y m c s

/-- VCMPEQ_I32 (R254). -/
def execVcmpeqI32 (a b : BitVec 4) (x y m c : BitVec 1) (s : State) : Out :=
  vCmp (.int 32) (fun u v => decide (sgn 32 u = sgn 32 v)) a b x y m c s

/-- VCMPLT_I32 (R254). -/
def execVcmpltI32 (a b : BitVec 4) (x y m c : BitVec 1) (s : State) : Out :=
  vCmp (.int 32) (fun u v => decide (sgn 32 u < sgn 32 v)) a b x y m c s

/-- VADD_I16 (R253). -/
def execVaddI16 (d a b : BitVec 4) (x y m c : BitVec 1) (s : State) : Out :=
  vBin (.int 16) 2 (iOp 16 (· + ·)) d a b x y m c s

/-- VSUB_I16 (R253). -/
def execVsubI16 (d a b : BitVec 4) (x y m c : BitVec 1) (s : State) : Out :=
  vBin (.int 16) 2 (iOp 16 (· - ·)) d a b x y m c s

/-- VADDS_I16 (R253). -/
def execVaddsI16 (d a b : BitVec 4) (x y m c : BitVec 1) (s : State) : Out :=
  vBin (.int 16) 2 (addSat 16) d a b x y m c s

/-- VADD_I8 (R253). -/
def execVaddI8 (d a b : BitVec 4) (x y m c : BitVec 1) (s : State) : Out :=
  vBin (.int 8) 2 (iOp 8 (· + ·)) d a b x y m c s

/-- VSUB_I8 (R253). -/
def execVsubI8 (d a b : BitVec 4) (x y m c : BitVec 1) (s : State) : Out :=
  vBin (.int 8) 2 (iOp 8 (· - ·)) d a b x y m c s

/-- VADDS_I8 (R253). -/
def execVaddsI8 (d a b : BitVec 4) (x y m c : BitVec 1) (s : State) : Out :=
  vBin (.int 8) 2 (addSat 8) d a b x y m c s

/-- VAND (R253, R331). -/
def execVand (d a b : BitVec 4) (x y m c : BitVec 1) (s : State) : Out :=
  vBin (.int 32) 2 (bOp (· &&& ·)) d a b x y m c s

/-- VOR (R253, R331). -/
def execVor (d a b : BitVec 4) (x y m c : BitVec 1) (s : State) : Out :=
  vBin (.int 32) 2 (bOp (· ||| ·)) d a b x y m c s

/-- VXOR (R253, R331). -/
def execVxor (d a b : BitVec 4) (x y m c : BitVec 1) (s : State) : Out :=
  vBin (.int 32) 2 (bOp (· ^^^ ·)) d a b x y m c s

/-- VSHL (R253). -/
def execVshl (d a b : BitVec 4) (x y m c : BitVec 1) (s : State) : Out :=
  vBin (.int 32) 2 (fun u v => (u * 2 ^ (v % 32) % 2 ^ 32, 0)) d a b x y m c s

/-- VSHR (R253). -/
def execVshr (d a b : BitVec 4) (x y m c : BitVec 1) (s : State) : Out :=
  vBin (.int 32) 2 (fun u v => (u / 2 ^ (v % 32), 0)) d a b x y m c s

/-- VSAR (R253). -/
def execVsar (d a b : BitVec 4) (x y m c : BitVec 1) (s : State) : Out :=
  vBin (.int 32) 2 (fun u v => (pat 32 (sgn 32 u / (2 ^ (v % 32) : Nat)), 0)) d a b x y m c s

/-- VSHUF (R267, R331). -/
def execVshuf (d a b : BitVec 4) (x y m c : BitVec 1) (s : State) : Out :=
  vWhole (fun u v => [ofLanes fun l => elem 32 u (elem 32 v l % 64)]) d a b x y m c s

/-- VROT (R267, R331). -/
def execVrot (d a b : BitVec 4) (x y m c : BitVec 1) (s : State) : Out :=
  vWhole (fun u v => [ofLanes fun l => elem 32 u ((l + elem 32 v 0 % 64) % 64)]) d a b x y m c s

/-- VZIP (R267, R331). -/
def execVzip (d a b : BitVec 4) (x y m c : BitVec 1) (s : State) : Out :=
  vWhole (fun u v => [0, 1].map fun j => ofLanes fun l => elem 32 (if l % 2 = 0 then u else v) (32 * j + l / 2)) d a b x y m c s

/-- VUNZIP (R267, R331). -/
def execVunzip (d a b : BitVec 4) (x y m c : BitVec 1) (s : State) : Out :=
  vWhole (fun u v => [0, 1].map fun j => ofLanes fun l => lane2 u v (2 * l + j)) d a b x y m c s

/-- VMOV (R267). -/
def execVmov (d a : BitVec 4) (x m : BitVec 1) (s : State) : Out :=
  vUn 32 1 (fun u => (u, 0)) d a x m s

/-- VXMOV (R267). -/
def execVxmov (d a : BitVec 4) (x _m : BitVec 1) (s : State) : Out :=
  vXmov d a x s

/-- VDEC (R269). Its claims pop the entries that they exhaust, whatever the peek bit says: R201 and R56 make a peek of it, R269 does not
mention it, and form VU does not ask that it be zero (DESIGN CHOICE, log entry 126). -/
def execVdec (d a : BitVec 4) (_x m : BitVec 1) (s : State) : Out :=
  vDec d a m s

/-- VLFRD (R268). -/
def execVlfrd (d : BitVec 4) (m : BitVec 1) (s : State) : Out :=
  vLfrd d m s

/-- VLFWR (R268). -/
def execVlfwr (a : BitVec 4) (x m : BitVec 1) (s : State) : Out :=
  vLfwr a x m s

end Sys2Proof.Machine
end

