-- ==== Sys2Proof/Machine/Dispatch.lean ====
section
/-! DEFINITION. The dispatch: one arm for each constructor of Instr. -/

namespace Sys2Proof.Machine

def exec (i : Instr) (s : State) : Host.Outcome State Fault Refusal :=
  match i with
  | .nop => Sys2Proof.Machine.execNop s
  | .add d a b p => Sys2Proof.Machine.execAdd d a b p s
  | .sub d a b p => Sys2Proof.Machine.execSub d a b p s
  | .mul d a b p => Sys2Proof.Machine.execMul d a b p s
  | .mulh d a b p => Sys2Proof.Machine.execMulh d a b p s
  | .mulhu d a b p => Sys2Proof.Machine.execMulhu d a b p s
  | .min d a b p => Sys2Proof.Machine.execMin d a b p s
  | .max d a b p => Sys2Proof.Machine.execMax d a b p s
  | .minu d a b p => Sys2Proof.Machine.execMinu d a b p s
  | .maxu d a b p => Sys2Proof.Machine.execMaxu d a b p s
  | .and d a b p => Sys2Proof.Machine.execAnd d a b p s
  | .or d a b p => Sys2Proof.Machine.execOr d a b p s
  | .xor d a b p => Sys2Proof.Machine.execXor d a b p s
  | .andn d a b p => Sys2Proof.Machine.execAndn d a b p s
  | .clz d a p => Sys2Proof.Machine.execClz d a p s
  | .popc d a p => Sys2Proof.Machine.execPopc d a p s
  | .shl d a b p => Sys2Proof.Machine.execShl d a b p s
  | .shr d a b p => Sys2Proof.Machine.execShr d a b p s
  | .sar d a b p => Sys2Proof.Machine.execSar d a b p s
  | .addi d a x_i p => Sys2Proof.Machine.execAddi d a x_i p s
  | .shli d a n p => Sys2Proof.Machine.execShli d a n p s
  | .shri d a n p => Sys2Proof.Machine.execShri d a n p s
  | .sari d a n p => Sys2Proof.Machine.execSari d a n p s
  | .pca d x_i p => Sys2Proof.Machine.execPca d x_i p s
  | .addb d a p => Sys2Proof.Machine.execAddb d a p s
  | .andb d a p => Sys2Proof.Machine.execAndb d a p s
  | .orb d a p => Sys2Proof.Machine.execOrb d a p s
  | .xorb d a p => Sys2Proof.Machine.execXorb d a p s
  | .div d a b p => Sys2Proof.Machine.execDiv d a b p s
  | .divu d a b p => Sys2Proof.Machine.execDivu d a b p s
  | .rem d a b p => Sys2Proof.Machine.execRem d a b p s
  | .remu d a b p => Sys2Proof.Machine.execRemu d a b p s
  | .cmpeq d a b p => Sys2Proof.Machine.execCmpeq d a b p s
  | .cmpne d a b p => Sys2Proof.Machine.execCmpne d a b p s
  | .cmplt d a b p => Sys2Proof.Machine.execCmplt d a b p s
  | .cmpltu d a b p => Sys2Proof.Machine.execCmpltu d a b p s
  | .cmple d a b p => Sys2Proof.Machine.execCmple d a b p s
  | .cmpleu d a b p => Sys2Proof.Machine.execCmpleu d a b p s
  | .cmpeqi d a x_i p => Sys2Proof.Machine.execCmpeqi d a x_i p s
  | .cmplti d a x_i p => Sys2Proof.Machine.execCmplti d a x_i p s
  | .pand d a b p => Sys2Proof.Machine.execPand d a b p s
  | .por d a b p => Sys2Proof.Machine.execPor d a b p s
  | .pnot d a p => Sys2Proof.Machine.execPnot d a p s
  | .shw r a f p => Sys2Proof.Machine.execShw r a f p s
  | .agw g l a f p => Sys2Proof.Machine.execAgw g l a f p s
  | .crr d c p => Sys2Proof.Machine.execCrr d c p s
  | .crw c a e p => Sys2Proof.Machine.execCrw c a e p s
  | .vaddF32 d a b x y m c => Sys2Proof.Machine.execVaddF32 d a b x y m c s
  | .vsubF32 d a b x y m c => Sys2Proof.Machine.execVsubF32 d a b x y m c s
  | .vmulF32 d a b x y m c => Sys2Proof.Machine.execVmulF32 d a b x y m c s
  | .vfmaF32 d a b x y m c => Sys2Proof.Machine.execVfmaF32 d a b x y m c s
  | .vminF32 d a b x y m c => Sys2Proof.Machine.execVminF32 d a b x y m c s
  | .vmaxF32 d a b x y m c => Sys2Proof.Machine.execVmaxF32 d a b x y m c s
  | .vcmpltF32 a b x y m c => Sys2Proof.Machine.execVcmpltF32 a b x y m c s
  | .vcmpleF32 a b x y m c => Sys2Proof.Machine.execVcmpleF32 a b x y m c s
  | .vaddBf16 d a b x y m c => Sys2Proof.Machine.execVaddBf16 d a b x y m c s
  | .vsubBf16 d a b x y m c => Sys2Proof.Machine.execVsubBf16 d a b x y m c s
  | .vmulBf16 d a b x y m c => Sys2Proof.Machine.execVmulBf16 d a b x y m c s
  | .vfmaBf16 d a b x y m c => Sys2Proof.Machine.execVfmaBf16 d a b x y m c s
  | .vminBf16 d a b x y m c => Sys2Proof.Machine.execVminBf16 d a b x y m c s
  | .vmaxBf16 d a b x y m c => Sys2Proof.Machine.execVmaxBf16 d a b x y m c s
  | .vcmpltBf16 a b x y m c => Sys2Proof.Machine.execVcmpltBf16 a b x y m c s
  | .vcmpleBf16 a b x y m c => Sys2Proof.Machine.execVcmpleBf16 a b x y m c s
  | .vaddF16 d a b x y m c => Sys2Proof.Machine.execVaddF16 d a b x y m c s
  | .vsubF16 d a b x y m c => Sys2Proof.Machine.execVsubF16 d a b x y m c s
  | .vmulF16 d a b x y m c => Sys2Proof.Machine.execVmulF16 d a b x y m c s
  | .vfmaF16 d a b x y m c => Sys2Proof.Machine.execVfmaF16 d a b x y m c s
  | .vminF16 d a b x y m c => Sys2Proof.Machine.execVminF16 d a b x y m c s
  | .vmaxF16 d a b x y m c => Sys2Proof.Machine.execVmaxF16 d a b x y m c s
  | .vcmpeqF32 a b x y m c => Sys2Proof.Machine.execVcmpeqF32 a b x y m c s
  | .vcmpeqBf16 a b x y m c => Sys2Proof.Machine.execVcmpeqBf16 a b x y m c s
  | .vdivF32 d a b x y m c => Sys2Proof.Machine.execVdivF32 d a b x y m c s
  | .vsqrtF32 d a x m => Sys2Proof.Machine.execVsqrtF32 d a x m s
  | .vrsqrtF32 d a x m => Sys2Proof.Machine.execVrsqrtF32 d a x m s
  | .vexp2F32 d a x m => Sys2Proof.Machine.execVexp2F32 d a x m s
  | .vlog2F32 d a x m => Sys2Proof.Machine.execVlog2F32 d a x m s
  | .vsel d a b x y c => Sys2Proof.Machine.execVsel d a b x y c s
  | .vamaxF32 d a x m => Sys2Proof.Machine.execVamaxF32 d a x m s
  | .vamaxBf16 d a x m => Sys2Proof.Machine.execVamaxBf16 d a x m s
  | .vcvtBf16F32 d a r x m => Sys2Proof.Machine.execVcvtBf16F32 d a r x m s
  | .vcvtF16F32 d a r x m => Sys2Proof.Machine.execVcvtF16F32 d a r x m s
  | .vcvtE4m3F32 d a r t x m => Sys2Proof.Machine.execVcvtE4m3F32 d a r t x m s
  | .vcvtE5m2F32 d a r t x m => Sys2Proof.Machine.execVcvtE5m2F32 d a r t x m s
  | .vcvtF32Bf16 d a x m => Sys2Proof.Machine.execVcvtF32Bf16 d a x m s
  | .vcvtF32F16 d a x m => Sys2Proof.Machine.execVcvtF32F16 d a x m s
  | .vcvtF32E4m3 d a x m => Sys2Proof.Machine.execVcvtF32E4m3 d a x m s
  | .vcvtF32E5m2 d a x m => Sys2Proof.Machine.execVcvtF32E5m2 d a x m s
  | .vcvtI32F32 d a r x m => Sys2Proof.Machine.execVcvtI32F32 d a r x m s
  | .vcvtF32I32 d a r x m => Sys2Proof.Machine.execVcvtF32I32 d a r x m s
  | .vcvtI8F32 d a r x m => Sys2Proof.Machine.execVcvtI8F32 d a r x m s
  | .vcvtE4m3Bf16 d a r t x m => Sys2Proof.Machine.execVcvtE4m3Bf16 d a r t x m s
  | .vrsumF32 d a x m => Sys2Proof.Machine.execVrsumF32 d a x m s
  | .vqntE4m3 d a b x y m c => Sys2Proof.Machine.execVqntE4m3 d a b x y m c s
  | .vqntE4m3Sr d a b x y m c => Sys2Proof.Machine.execVqntE4m3Sr d a b x y m c s
  | .vqntE5m2 d a b x y m c => Sys2Proof.Machine.execVqntE5m2 d a b x y m c s
  | .vqntE5m2Sr d a b x y m c => Sys2Proof.Machine.execVqntE5m2Sr d a b x y m c s
  | .vqntI8 d a b x y m c => Sys2Proof.Machine.execVqntI8 d a b x y m c s
  | .vqntI8Sr d a b x y m c => Sys2Proof.Machine.execVqntI8Sr d a b x y m c s
  | .vdqntE4m3 d a b x y m c => Sys2Proof.Machine.execVdqntE4m3 d a b x y m c s
  | .vdqntE5m2 d a b x y m c => Sys2Proof.Machine.execVdqntE5m2 d a b x y m c s
  | .vdqntI8 d a b x y m c => Sys2Proof.Machine.execVdqntI8 d a b x y m c s
  | .vreluF32 d a x m => Sys2Proof.Machine.execVreluF32 d a x m s
  | .vreluBf16 d a x m => Sys2Proof.Machine.execVreluBf16 d a x m s
  | .vmpoolF32 d a x m => Sys2Proof.Machine.execVmpoolF32 d a x m s
  | .vmpoolBf16 d a x m => Sys2Proof.Machine.execVmpoolBf16 d a x m s
  | .vrelubF32 d a b x y m => Sys2Proof.Machine.execVrelubF32 d a b x y m s
  | .vrelubBf16 d a b x y m => Sys2Proof.Machine.execVrelubBf16 d a b x y m s
  | .vmpoolbF32 d a b x y m => Sys2Proof.Machine.execVmpoolbF32 d a b x y m s
  | .vmpoolbBf16 d a b x y m => Sys2Proof.Machine.execVmpoolbBf16 d a b x y m s
  | .vgelubF32 d a b x y m => Sys2Proof.Machine.execVgelubF32 d a b x y m s
  | .vgelubBf16 d a b x y m => Sys2Proof.Machine.execVgelubBf16 d a b x y m s
  | .vdropbF32 d a b x y m => Sys2Proof.Machine.execVdropbF32 d a b x y m s
  | .vdropbBf16 d a b x y m => Sys2Proof.Machine.execVdropbBf16 d a b x y m s
  | .vsmaxbF32 d a b x y m => Sys2Proof.Machine.execVsmaxbF32 d a b x y m s
  | .vsmaxbBf16 d a b x y m => Sys2Proof.Machine.execVsmaxbBf16 d a b x y m s
  | .vlnormbF32 d a b x y m => Sys2Proof.Machine.execVlnormbF32 d a b x y m s
  | .vlnormbBf16 d a b x y m => Sys2Proof.Machine.execVlnormbBf16 d a b x y m s
  | .vaddI32 d a b x y m c => Sys2Proof.Machine.execVaddI32 d a b x y m c s
  | .vsubI32 d a b x y m c => Sys2Proof.Machine.execVsubI32 d a b x y m c s
  | .vmulI32 d a b x y m c => Sys2Proof.Machine.execVmulI32 d a b x y m c s
  | .vminI32 d a b x y m c => Sys2Proof.Machine.execVminI32 d a b x y m c s
  | .vmaxI32 d a b x y m c => Sys2Proof.Machine.execVmaxI32 d a b x y m c s
  | .vcmpeqI32 a b x y m c => Sys2Proof.Machine.execVcmpeqI32 a b x y m c s
  | .vcmpltI32 a b x y m c => Sys2Proof.Machine.execVcmpltI32 a b x y m c s
  | .vaddI16 d a b x y m c => Sys2Proof.Machine.execVaddI16 d a b x y m c s
  | .vsubI16 d a b x y m c => Sys2Proof.Machine.execVsubI16 d a b x y m c s
  | .vaddsI16 d a b x y m c => Sys2Proof.Machine.execVaddsI16 d a b x y m c s
  | .vaddI8 d a b x y m c => Sys2Proof.Machine.execVaddI8 d a b x y m c s
  | .vsubI8 d a b x y m c => Sys2Proof.Machine.execVsubI8 d a b x y m c s
  | .vaddsI8 d a b x y m c => Sys2Proof.Machine.execVaddsI8 d a b x y m c s
  | .vand d a b x y m c => Sys2Proof.Machine.execVand d a b x y m c s
  | .vor d a b x y m c => Sys2Proof.Machine.execVor d a b x y m c s
  | .vxor d a b x y m c => Sys2Proof.Machine.execVxor d a b x y m c s
  | .vshl d a b x y m c => Sys2Proof.Machine.execVshl d a b x y m c s
  | .vshr d a b x y m c => Sys2Proof.Machine.execVshr d a b x y m c s
  | .vsar d a b x y m c => Sys2Proof.Machine.execVsar d a b x y m c s
  | .vshuf d a b x y m c => Sys2Proof.Machine.execVshuf d a b x y m c s
  | .vrot d a b x y m c => Sys2Proof.Machine.execVrot d a b x y m c s
  | .vzip d a b x y m c => Sys2Proof.Machine.execVzip d a b x y m c s
  | .vunzip d a b x y m c => Sys2Proof.Machine.execVunzip d a b x y m c s
  | .vmov d a x m => Sys2Proof.Machine.execVmov d a x m s
  | .vxmov d a x m => Sys2Proof.Machine.execVxmov d a x m s
  | .vdec d a x m => Sys2Proof.Machine.execVdec d a x m s
  | .vlfrd d m => Sys2Proof.Machine.execVlfrd d m s
  | .vlfwr a x m => Sys2Proof.Machine.execVlfwr a x m s
  | .mmaBf16Latch c l x_s w b e k g h => Sys2Proof.Machine.execMmaBf16Latch c l x_s w b e k g h s
  | .mmaBf16Bank c x_s w b e k g h j => Sys2Proof.Machine.execMmaBf16Bank c x_s w b e k g h j s
  | .mmaF16Latch c l x_s w b e k g h => Sys2Proof.Machine.execMmaF16Latch c l x_s w b e k g h s
  | .mmaF16Bank c x_s w b e k g h j => Sys2Proof.Machine.execMmaF16Bank c x_s w b e k g h j s
  | .mmaE4m3Latch c l x_s w b e k g h => Sys2Proof.Machine.execMmaE4m3Latch c l x_s w b e k g h s
  | .mmaE4m3Bank c x_s w b e k g h j => Sys2Proof.Machine.execMmaE4m3Bank c x_s w b e k g h j s
  | .mmaE5m2Latch c l x_s w b e k g h => Sys2Proof.Machine.execMmaE5m2Latch c l x_s w b e k g h s
  | .mmaE5m2Bank c x_s w b e k g h j => Sys2Proof.Machine.execMmaE5m2Bank c x_s w b e k g h j s
  | .mmaC4Latch c l x_s w b e k g h => Sys2Proof.Machine.execMmaC4Latch c l x_s w b e k g h s
  | .mmaC4Bank c x_s w b e k g h j => Sys2Proof.Machine.execMmaC4Bank c x_s w b e k g h j s
  | .latch l x_s w g => Sys2Proof.Machine.execLatch l x_s w g s
  | .latchreed l x_s w => Sys2Proof.Machine.execLatchreed l x_s w s
  | .drain c x_s w t a z g => Sys2Proof.Machine.execDrain c x_s w t a z g s
  | .draint c x_s w t a z g => Sys2Proof.Machine.execDraint c x_s w t a z g s
  | .zero c => Sys2Proof.Machine.execZero c s
  | .ldcbk l x_s w g => Sys2Proof.Machine.execLdcbk l x_s w g s
  | .ldfmt x_s w g => Sys2Proof.Machine.execLdfmt x_s w g s
  | .lds x_s x y w z => Sys2Proof.Machine.execLds x_s x y w z s
  | .ldsk x_s x y w z => Sys2Proof.Machine.execLdsk x_s x y w z s
  | .sts x_s x y w z => Sys2Proof.Machine.execSts x_s x y w z s
  | .ldsx x_s x y w z => Sys2Proof.Machine.execLdsx x_s x y w z s
  | .stsx x_s x y w z => Sys2Proof.Machine.execStsx x_s x y w z s
  | .ldr x_s q x y w z => Sys2Proof.Machine.execLdr x_s q x y w z s
  | .str x_s q x y w z => Sys2Proof.Machine.execStr x_s q x y w z s
  | .ldg x_s q x y w z => Sys2Proof.Machine.execLdg x_s q x y w z s
  | .ldgk x_s q x y w z => Sys2Proof.Machine.execLdgk x_s q x y w z s
  | .stg x_s q x y w z => Sys2Proof.Machine.execStg x_s q x y w z s
  | .ldgx x_s q x y w z => Sys2Proof.Machine.execLdgx x_s q x y w z s
  | .stgx x_s q x y w z => Sys2Proof.Machine.execStgx x_s q x y w z s
  | .atadd x_s t x y w z => Sys2Proof.Machine.execAtadd x_s t x y w z s
  | .atand x_s t x y w z => Sys2Proof.Machine.execAtand x_s t x y w z s
  | .ator x_s t x y w z => Sys2Proof.Machine.execAtor x_s t x y w z s
  | .atxchg x_s t x y w z => Sys2Proof.Machine.execAtxchg x_s t x y w z s
  | .atcas x_s t x y w z => Sys2Proof.Machine.execAtcas x_s t x y w z s
  | .atfadd x_s t x y w z => Sys2Proof.Machine.execAtfadd x_s t x y w z s
  | .atfmax x_s t x y w z => Sys2Proof.Machine.execAtfmax x_s t x y w z s
  | .fence t m o => Sys2Proof.Machine.execFence t m o s
  | .stk x_s t x y w z => Sys2Proof.Machine.execStk x_s t x y w z s
  | .kcopy x_s t x y w z => Sys2Proof.Machine.execKcopy x_s t x y w z s
  | .cp x_s t x y w z => Sys2Proof.Machine.execCp x_s t x y w z s
  | .cpq x_s t x y w z => Sys2Proof.Machine.execCpq x_s t x y w z s
  | .cpblk x_s t x y w z => Sys2Proof.Machine.execCpblk x_s t x y w z s
  | .prefr x_s t x y w z => Sys2Proof.Machine.execPrefr x_s t x y w z s
  | .bankm t b m c => Sys2Proof.Machine.execBankm t b m c s
  | .reedinv x_s t x y w z => Sys2Proof.Machine.execReedinv x_s t x y w z s
  | .coll x_s t x y w z => Sys2Proof.Machine.execColl x_s t x y w z s
  | .dpost x_s t x y w z => Sys2Proof.Machine.execDpost x_s t x y w z s
  | .gwait x_s t x y w z => Sys2Proof.Machine.execGwait x_s t x y w z s
  | .lease x_s t x y w z => Sys2Proof.Machine.execLease x_s t x y w z s
  | .lrel x_s t x y w z => Sys2Proof.Machine.execLrel x_s t x y w z s
  | .mbpost x_s x y w z => Sys2Proof.Machine.execMbpost x_s x y w z s
  | .b g o => Sys2Proof.Machine.execB g o s
  | .call g o => Sys2Proof.Machine.execCall g o s
  | .brmz v o => Sys2Proof.Machine.execBrmz v o s
  | .jmpi g r => Sys2Proof.Machine.execJmpi g r s
  | .calli g r => Sys2Proof.Machine.execCalli g r s
  | .ret g r => Sys2Proof.Machine.execRet g r s
  | .guard m a b c d => Sys2Proof.Machine.execGuard m a b c d s
  | .loop l r n => Sys2Proof.Machine.execLoop l r n s
  | .loopp x_s r n => Sys2Proof.Machine.execLoopp x_s r n s
  | .mpush v => Sys2Proof.Machine.execMpush v s
  | .minv v => Sys2Proof.Machine.execMinv v s
  | .mpop v => Sys2Proof.Machine.execMpop v s
  | .waitt t => Sys2Proof.Machine.execWaitt t s
  | .waitc c r => Sys2Proof.Machine.execWaitc c r s
  | .waitr => Sys2Proof.Machine.execWaitr s
  | .bara b x_s q => Sys2Proof.Machine.execBara b x_s q s
  | .barw b => Sys2Proof.Machine.execBarw b s
  | .mbtake r => Sys2Proof.Machine.execMbtake r s
  | .mbreply r x_s => Sys2Proof.Machine.execMbreply r x_s s
  | .launch r => Sys2Proof.Machine.execLaunch r s
  | .trap c => Sys2Proof.Machine.execTrap c s
  | .tret => Sys2Proof.Machine.execTret s
  | .done => Sys2Proof.Machine.execDone s
  | .k f l v k => Sys2Proof.Machine.execK f l v k s
  | .kctl f l v b => Sys2Proof.Machine.execKctl f l v b s
  | .contextStart n => Sys2Proof.Machine.execContextStart n s
  | .contextTeardown n => Sys2Proof.Machine.execContextTeardown n s
  | .contextFree n => Sys2Proof.Machine.execContextFree n s
  | .tlbinv v => Sys2Proof.Machine.execTlbinv v s
  | .tlbinvDone => Sys2Proof.Machine.execTlbinvDone s
  | .attn nonce => Sys2Proof.Machine.execAttn nonce s
  | .attestationReady err => Sys2Proof.Machine.execAttestationReady err s
  | .resumeReplay seq => Sys2Proof.Machine.execResumeReplay seq s
  | .resumeIgnoreBkpt seq => Sys2Proof.Machine.execResumeIgnoreBkpt seq s
  | .preemptSave n => Sys2Proof.Machine.execPreemptSave n s
  | .saveRelease n => Sys2Proof.Machine.execSaveRelease n s
  | .preemptRestore n => Sys2Proof.Machine.execPreemptRestore n s
  | .restoreComplete n => Sys2Proof.Machine.execRestoreComplete n s
  | .debugRawRead die cmd => Sys2Proof.Machine.execDebugRawRead die cmd s
  | .debugDecodeRead die cmd => Sys2Proof.Machine.execDebugDecodeRead die cmd s
  | .debugRawWrite die cmd => Sys2Proof.Machine.execDebugRawWrite die cmd s
  | .lrevoke v => Sys2Proof.Machine.execLrevoke v s
  | .ovp v => Sys2Proof.Machine.execOvp v s
  | .retstAck die => Sys2Proof.Machine.execRetstAck die s
  | .recov => Sys2Proof.Machine.execRecov s
  | .recoveryFlashWrite off bytes => Sys2Proof.Machine.execRecoveryFlashWrite off bytes s
  | .getEventRecords => Sys2Proof.Machine.execGetEventRecords s
  | .clearEventRecords n => Sys2Proof.Machine.execClearEventRecords n s
  | .hostMemRead pa len => Sys2Proof.Machine.execHostMemRead pa len s
  | .hostMemWrite pa bytes => Sys2Proof.Machine.execHostMemWrite pa bytes s
  | .hostRegisterWrite off v => Sys2Proof.Machine.execHostRegisterWrite off v s
  | .boot r => Sys2Proof.Machine.execBoot r s
  | .launchTake n => Sys2Proof.Machine.execLaunchTake n s
  | .groupInstantiate launch => Sys2Proof.Machine.execGroupInstantiate launch s
  | .dispatch fen => Sys2Proof.Machine.execDispatch fen s
  | .nodeAging fen idx => Sys2Proof.Machine.execNodeAging fen idx s
  | .coreTaskFinish key => Sys2Proof.Machine.execCoreTaskFinish key s
  | .nodeFinish fen idx => Sys2Proof.Machine.execNodeFinish fen idx s
  | .launchComplete launch => Sys2Proof.Machine.execLaunchComplete launch s
  | .conductorChange fen => Sys2Proof.Machine.execConductorChange fen s
  | .resultLand key => Sys2Proof.Machine.execResultLand key s
  | .freeze key => Sys2Proof.Machine.execFreeze key s
  | .globalLoadArrive key id => Sys2Proof.Machine.execGlobalLoadArrive key id s
  | .directFormFault key => Sys2Proof.Machine.execDirectFormFault key s
  | .engineCommandStart key id => Sys2Proof.Machine.execEngineCommandStart key id s
  | .engineCommandComplete key id => Sys2Proof.Machine.execEngineCommandComplete key id s
  | .barrierComplete key bar => Sys2Proof.Machine.execBarrierComplete key bar s
  | .agFetch key g => Sys2Proof.Machine.execAgFetch key g s
  | .bankSwitchDone key bank => Sys2Proof.Machine.execBankSwitchDone key bank s
  | .fifoHeldWrite key bank => Sys2Proof.Machine.execFifoHeldWrite key bank s
  | .networkWriteLand key idx => Sys2Proof.Machine.execNetworkWriteLand key idx s
  | .mmaStepLand key id => Sys2Proof.Machine.execMmaStepLand key id s
  | .latchreedRowLand key lt => Sys2Proof.Machine.execLatchreedRowLand key lt s
  | .codebookTableReady key cb => Sys2Proof.Machine.execCodebookTableReady key cb s
  | .mailboxPlace fen => Sys2Proof.Machine.execMailboxPlace fen s
  | .mailboxTake fen => Sys2Proof.Machine.execMailboxTake fen s
  | .mailboxServiceStart fen => Sys2Proof.Machine.execMailboxServiceStart fen s
  | .mailboxReplyLand key => Sys2Proof.Machine.execMailboxReplyLand key s
  | .leaseResponse fen idx r => Sys2Proof.Machine.execLeaseResponse fen idx r s
  | .collTransferEmit fen idx => Sys2Proof.Machine.execCollTransferEmit fen idx s
  | .transferArrive fen idx => Sys2Proof.Machine.execTransferArrive fen idx s
  | .heldTransferDeliver fen idx => Sys2Proof.Machine.execHeldTransferDeliver fen idx s
  | .xhold fen idx => Sys2Proof.Machine.execXhold fen idx s
  | .exchangeStart idx => Sys2Proof.Machine.execExchangeStart idx s
  | .phaseStart idx => Sys2Proof.Machine.execPhaseStart idx s
  | .closeFlitReceive idx rank bytes => Sys2Proof.Machine.execCloseFlitReceive idx rank bytes s
  | .xtmo idx => Sys2Proof.Machine.execXtmo idx s
  | .skinkAnnounce dev epoch => Sys2Proof.Machine.execSkinkAnnounce dev epoch s
  | .skinkTakeover => Sys2Proof.Machine.execSkinkTakeover s
  | .leaseNoticeReceive lease t => Sys2Proof.Machine.execLeaseNoticeReceive lease t s
  | .leaseExpiry lid => Sys2Proof.Machine.execLeaseExpiry lid s
  | .lenderUnreachable dev => Sys2Proof.Machine.execLenderUnreachable dev s
  | .borrowerUnreachable dev => Sys2Proof.Machine.execBorrowerUnreachable dev s
  | .flitReceive port f => Sys2Proof.Machine.execFlitReceive port f s
  | .ackTimeout port vc => Sys2Proof.Machine.execAckTimeout port vc s
  | .portRetrain port => Sys2Proof.Machine.execPortRetrain port s
  | .retrainDone port lanes => Sys2Proof.Machine.execRetrainDone port lanes s
  | .ploss dev => Sys2Proof.Machine.execPloss dev s
  | .ucieModuleOut pair mod => Sys2Proof.Machine.execUcieModuleOut pair mod s
  | .dieLoss die => Sys2Proof.Machine.execDieLoss die s
  | .newtFailover fen core => Sys2Proof.Machine.execNewtFailover fen core s
  | .faultRecordPost => Sys2Proof.Machine.execFaultRecordPost s
  | .waitTimeout key => Sys2Proof.Machine.execWaitTimeout key s
  | .telemUpdate die v => Sys2Proof.Machine.execTelemUpdate die v s
  | .energyUpdate n uj => Sys2Proof.Machine.execEnergyUpdate n uj s
  | .clockThrottle die => Sys2Proof.Machine.execClockThrottle die s
  | .heatSweep die => Sys2Proof.Machine.execHeatSweep die s
  | .scrub pa symbols => Sys2Proof.Machine.execScrub pa symbols s
  | .stripeRebuild pa bad => Sys2Proof.Machine.execStripeRebuild pa bad s
  | .channelRetire die ch reason => Sys2Proof.Machine.execChannelRetire die ch reason s
  | .restripeStripe die => Sys2Proof.Machine.execRestripeStripe die s
  | .mireTimeout pa => Sys2Proof.Machine.execMireTimeout pa s
  | .mirePortDown port => Sys2Proof.Machine.execMirePortDown port s
  | .mirePortUp port => Sys2Proof.Machine.execMirePortUp port s
  | .portUp port lanes peer => Sys2Proof.Machine.execPortUp port lanes peer s
  | .leaseRequestReceive dev size grant => Sys2Proof.Machine.execLeaseRequestReceive dev size grant s
  | .msiXVector0 => Sys2Proof.Machine.execMsiXVector0 s

end Sys2Proof.Machine
end

