-- ==== Sys2Proof/Machine/Issue.lean ====
section
/-! DEFINITION. One schedule cycle of a core (R45, R46, R164, R189 to R193, R333, R334): fetch, decode, the slots
of one bundle, and how the bundle commits, holds, freezes or stops. -/

namespace Sys2Proof.Machine

/-! ### Fetch (R189, R190, R225) -/

/-- The bundle of 24 bytes (R189). -/
def bundleOf (bs : List Byte) : Bundle := BitVec.ofNat 192 (bytesToNat bs)

/-- The bundle at the pc: from the loop buffer on a body's later passes, from memory otherwise; a bundle of an active
body fetched from memory enters the buffer. -/
def State.fetch (s : State) : Tried (Bundle × State) :=
  let c := s.core
  let inLoop := c.loop.inBody c.pc && c.held.isNone
  match (if inLoop then c.loop.buf.find? fun x => decide (x.1 = c.pc) else none) with
  | some x => .ok (x.2, s)
  | none =>
    match s.readPlain c.fen (some c.key) c.ctx.toNat (c.pc.setWidth 64) 24 with
    | .error f => .error f
    | .ok (bs, s) =>
      let b := bundleOf bs
      if inLoop then
        let c := s.core
        .ok (b, { s with core := { c with loop := { c.loop with buf := c.loop.buf ++ [(c.pc, b)] } } })
      else .ok (b, s)

/-! ### The slots of a bundle -/

/-- The C ops a newt may hold (R212). -/
def newtCOps : List Nat :=
  [0x04, 0x05, 0x0B, 0x0C, 0x10, 0x11, 0x12, 0x13, 0x14, 0x15, 0x16, 0x18, 0x1B, 0x1E, 0x21, 0x22, 0x23, 0x24, 0x25,
    0x26]

/-- A slot value that a newt takes as ILLEGAL (R71, R212). -/
def newtIllegal (i : Nat) (w : SlotWord) : Bool :=
  decide (w ≠ 0) &&
    match slotClass i with
    | .v => true
    | .m => true
    | .c => !setHas (w.toNat / 2 ^ 18) newtCOps
    | .s => false
    | .l => false
    | .k => false

/-- A slot value that a newt takes as ILLEGAL, whatever else it would be (R71, R212). -/
def State.illegalHere (s : State) (i : Nat) (w : SlotWord) : Bool := s.core.newt && newtIllegal i w

/-- A slot value with a reserved field has an ILLEGAL cause besides, which comes first (R193, R251): the instruction its other
fields make is one that this slot, core or mode does not allow. -/
def State.illegalToo (s : State) (cl : SlotClass) (w : SlotWord) : Bool :=
  match opRow cl w with
  | none => false
  | some r =>
    match exec (r.build w) { s with iss := { s.iss with fault := none } } with
    | .next t => t.iss.fault.elim false fun f => decide (f.rank = 1)
    | .fault _ => false
    | .refused _ => false

/-- The scalar registers that an instruction reads, under the predicate of its S slot; other slots read none in this way. -/
def sources : Instr → BitVec 2 × List (BitVec 5)
  | .add _ a b p => (p, [a, b])
  | .sub _ a b p => (p, [a, b])
  | .mul _ a b p => (p, [a, b])
  | .mulh _ a b p => (p, [a, b])
  | .mulhu _ a b p => (p, [a, b])
  | .min _ a b p => (p, [a, b])
  | .max _ a b p => (p, [a, b])
  | .minu _ a b p => (p, [a, b])
  | .maxu _ a b p => (p, [a, b])
  | .and _ a b p => (p, [a, b])
  | .or _ a b p => (p, [a, b])
  | .xor _ a b p => (p, [a, b])
  | .andn _ a b p => (p, [a, b])
  | .clz _ a p => (p, [a])
  | .popc _ a p => (p, [a])
  | .shl _ a b p => (p, [a, b])
  | .shr _ a b p => (p, [a, b])
  | .sar _ a b p => (p, [a, b])
  | .addi _ a _ p => (p, [a])
  | .shli _ a _ p => (p, [a])
  | .shri _ a _ p => (p, [a])
  | .sari _ a _ p => (p, [a])
  | .addb _ a p => (p, [a])
  | .andb _ a p => (p, [a])
  | .orb _ a p => (p, [a])
  | .xorb _ a p => (p, [a])
  | .div _ a b p => (p, [a, b])
  | .divu _ a b p => (p, [a, b])
  | .rem _ a b p => (p, [a, b])
  | .remu _ a b p => (p, [a, b])
  | .cmpeq _ a b p => (p, [a, b])
  | .cmpne _ a b p => (p, [a, b])
  | .cmplt _ a b p => (p, [a, b])
  | .cmpltu _ a b p => (p, [a, b])
  | .cmple _ a b p => (p, [a, b])
  | .cmpleu _ a b p => (p, [a, b])
  | .cmpeqi _ a _ p => (p, [a])
  | .cmplti _ a _ p => (p, [a])
  | .shw _ a _ p => (p, [a])
  | .agw _ _ a _ p => (p, [a])
  | .crw _ a _ p => (p, [a])
  | .jmpi _ r => (0, [r])
  | .calli _ r => (0, [r])
  | .ret _ r => (0, [r])
  | .loop _ r _ => (0, [r])
  | .loopp _ r _ => (0, [r])
  | .waitc _ r => (0, [r])
  | .mbtake r => (0, [r])
  | .mbreply r s => (0, [r, s])
  | .launch r => (0, [r])
  | _ => (0, [])

/-- The registers that an instruction which runs reads: FLT_CORE for one in error (R360, R363). Every bundle reads the core's other
state. -/
def State.readsCore (s : State) (i : Instr) : State :=
  if s.core.errs.isEmpty then s
  else
    let x := sources i
    let s := if s.active && s.activeS x.1 then x.2.foldl (fun s r => if r = 0 then s else s.coreRead 1 r.toNat) s else s
    if s.iss.slot = 0 then (s.core.errs.filter fun e => decide (e.1 = 4)).foldl (fun s e => s.coreRead 4 e.2) s else s

/-- One slot executes: its instruction's meaning, or its fate (R192). -/
def State.runSlot (s : State) (i : Nat) (w : SlotWord) : Out :=
  let s := { s with iss := { s.iss with slot := i, word := w } }
  if s.illegalHere i w then .next s.illegal
  else
    match decode (slotClass i) w with
    | .instr ins => exec ins (s.readsCore ins)
    | .illegal => .next s.illegal
    | .enc => .next (if s.illegalToo (slotClass i) w then s.illegal else s.encFault)

/-- An outcome continued. -/
def andThen (o : Out) (f : State → Out) : Out :=
  match o with
  | .next s => f s
  | .fault r => .fault r
  | .refused r => .refused r

/-- The L slot holds GUARD. -/
def isGuard (w : SlotWord) : Bool := decide (w.toNat / 2 ^ 18 = 7)

/-- The order in which the model works through the slots: K and a GUARD first, because they say which slots run,
then S to C1, then any other L instruction. What slots read does not depend on it (R191). -/
def slotOrder (b : Bundle) : List Nat := if isGuard (slotWord b 6) then [7, 6, 0, 1, 2, 3, 4, 5] else [7, 0, 1, 2, 3, 4, 5, 6]

/-- Every slot of the bundle. -/
def State.runSlots (s : State) (b : Bundle) : Out :=
  (slotOrder b).foldl (fun o i => andThen o fun s => s.runSlot i (slotWord b i)) (.next s)

/-- The record of a bundle about to be issued. -/
def State.beginIssue (s : State) : State :=
  let c := s.core
  { s with iss := { Issue.reset with
      occ := Vector.ofFn fun q : Fin 16 => (c.queue q.val).length + c.inflightPushes q.val
      lfs := c.regs.lfs
      uses := c.pipes.uses
      cmdWait := c.cmdWait } }

/-! ### End of the issue cycle -/

/-- A shape register's shadow field written (R63, R218): 0 to 3 mx, 4 to 7 ka, 8 to 11 kb. -/
def Core.shw (c : Core) (r f : Nat) (v : BitVec 32) : Core :=
  let w (x : ShapeReg) : ShapeReg := { x with shadow := setBits x.shadow (32 * f + 31) (32 * f) v.toNat }
  if r < 4 then { c with mxr := vset c.mxr r (w (vget c.mxr r)) }
  else if r < 8 then { c with kar := vset c.kar (r - 4) (w (vget c.kar (r - 4))) }
  else { c with kbr := vset c.kbr (r - 8) (w (vget c.kbr (r - 8))) }

/-- BANKM issues: SW is set and PEND holds the target (R103). -/
def Core.beginSwitch (c : Core) (x : Cmd) : Core :=
  if x.op = .bankm then
    let k := x.arg1.toNat
    let b := vget c.sp.bank k
    { c with sp := { c.sp with bank := vset c.sp.bank k { b with pend := x.arg2.setWidth 2, sw := true } } }
  else c

/-- One write that lands at the end of the issue cycle. -/
def State.applyEoc (s : State) (e : Eoc) : State :=
  let c := s.core
  match e with
  | .shw r f v => { s with core := c.shw r f v }
  | .agw g l f v =>
    { s with core := c.putAg g.toNat ((vget c.vs.ag g.toNat).write l f v) ((vget c.vs.ag g.toNat).writeStarts f v && decide (g.toNat < 2)) }
  | .crw n v => (s.creg n).elim s fun r => s.cregWrite r v
  | .cbk n v =>
    { s with core := { c with mx := { c.mx with
        cbk := vset c.mx.cbk n.toNat v, cbkBusy := vset c.mx.cbkBusy n.toNat (some 18) } } }
  | .cmd x => { s with core := (({ c with
      posts := if x.op = CmdOp.mbpost then c.posts + 1 else c.posts
      pipes := { c.pipes with cmds := c.pipes.cmds ++ [x] } }).setTok x.tok.toNat true).beginSwitch x }
  | .reed r => { s with core := { c with mx := { c.mx with reeds := c.mx.reeds ++ [r] } } }

/-- Results, flags and LFSR states of a committing bundle (R69, R220, R249). -/
def State.applyResults (s : State) : State :=
  let s := s.iss.eoc.foldl State.applyEoc s
  let c := s.core
  { s with core := { c with
      regs := { c.regs with
        flg := c.regs.flg ||| s.iss.flg
        mxc := mxcAdd c.regs.mxc 0 s.iss.satd
        lfs := s.iss.lfs }
      pipes := { c.pipes with
        inflight := c.pipes.inflight ++ s.iss.newInfl
        uses := s.iss.uses
        bundleNo := c.pipes.bundleNo + 1 } } }

/-- One schedule cycle passes in the core's pipelines (R46, R164): windows read a row, results in flight come one
cycle nearer, and so do codebooks to the end of their busy state, unless handler mode holds the matrix unit (R291, R293). In
handler mode the cycle is not counted for the interrupted program (R241). -/
def Core.tick (c : Core) : Core :=
  let c := c.winTick
  { c with
    scyc := if c.held.isSome then c.scyc else c.scyc + 1
    ran := c.ran + 1
    mx := if c.held.isSome then c.mx else { c.mx with cbkBusy := c.mx.cbkBusy.map fun b => b.map (· - 1) }
    pipes := { c.pipes with
      inflight := c.pipes.inflight.map fun i => { i with rem := i.rem - 1 }
      now := c.pipes.uses.filter fun u => decide (u.inCycles = 0)
      uses := (c.pipes.uses.filter fun u => decide (u.inCycles ≠ 0)).map fun u =>
        { u with inCycles := u.inCycles - 1 } } }

/-- The next pc and the loop sequencer after a committed bundle (R190, R221 to R227); held in handler mode (R240). -/
def Core.advance (c : Core) (i : Issue) : Core :=
  if c.held.isSome then { c with pc := i.next.getD (bundleAt c.pc 1) }
  else
    match i.next with
    | some t => { c with pc := t, loop := (c.loop.transfer t).prune }
    | none =>
      match i.loopReq with
      | some q =>
        if q.skip then
          let (ls, n) := c.loop.endStep (bundleAt c.pc q.len)
          { c with pc := n.getD (bundleAt c.pc (q.len + 1)), loop := ls.prune }
        else { c with pc := bundleAt c.pc 1, loop := c.loop.begin q c.pc }
      | none =>
        let (ls, n) := c.loop.endStep c.pc
        { c with pc := n.getD (bundleAt c.pc 1), loop := ls.prune }

/-- DONE has committed (R40, R167, R242): issue ends; on a newt that runs a conductor, the conductor has ended. -/
def State.endIssue (s : State) : State :=
  let c := s.core
  let f := c.fen
  let s := { s with core := { c with status := .finishing } }
  if !c.newt || !s.runsConductor then s
  else
    let n := c.ctx
    ((s.onFen f fun x => { x with
        conductors := x.conductors.map fun d => if d.ctx = n then { d with state := .ended } else d }).onCtx n.toNat
      fun x => { x with ended := true }).postCend n.toNat

/-- The bundle commits. What is due in the next cycle has landed when a handler's first bundle issues there (R213, R239, R240). -/
def State.commit (s : State) : State :=
  let i := s.iss
  let s := s.applyResults
  let c := { s.core with
    skipBkpt := false, waitcVal := none, wait := none, waits := [], freeze := none, frozen := false,
    cmdWait := Vector.replicate 2 none, fetched := none }
  let s := { s with core := (c.advance i).tick }
  let s := if i.synced then s.syncClocks else s
  let s := if i.done then s.endIssue else s
  let s := match i.trap with
    | some code => ({ s with core := s.core.landDue } : State).takeTrap code
    | none => s
  let s := if i.tret then { s with core := s.core.leaveHandler } else s
  ({ s with iss := Issue.reset } : State).notePosts s.core.key

/-! ### Holds, freezes and stops -/

/-- What a bundle that does not issue leaves in the core for its next cycle: the bundle itself (R334), the value its WAITC
read (R232), and the commands that a seventeenth waits for (R296). -/
def Core.keepBundle (c : Core) (b : Bundle) (i : Issue) : Core :=
  { c with fetched := some b, waitcVal := i.waitc.or c.waitcVal, cmdWait := i.cmdWait }

/-- The bundle holds: no slot of it runs, and the schedule cycle passes (R164, R231). -/
def State.holdCycle (s : State) (w : Wait) (slot : Nat) : State :=
  { s with core := ({ s.core with frozen := false, freeze := none }.noteWait w slot).tick, iss := Issue.reset }

/-- Queue q would hold more than four entries (R58). -/
def Issue.over (i : Issue) (q : Nat) : Bool := decide (vget i.pops q + 4 < vget i.occ q + vget i.pushes q)

/-- The FLT_QOF of the bundle (R58, R193): of the queues that would overflow, the one whose lowest pushing slot comes first. -/
def Issue.overflow (i : Issue) : Option SlotFault :=
  let qs := (List.range 16).filter i.over
  (qs.find? fun q => qs.all fun r => decide (vget i.pushSlot q ≤ vget i.pushSlot r)).map fun q =>
    ⟨3, vget i.pushSlot q, 0x04, 0, false, BitVec.ofNat 64 q, 0⟩

/-- The earlier of two faults in the order of R193. Of two issue faults of one slot the one met first stays, and an overflow
comes last (DESIGN CHOICE, log entry 92). -/
def firstFault : Option SlotFault → Option SlotFault → Option SlotFault
  | none, b => b
  | a, none => a
  | some a, some b => if b.rank < a.rank ∨ (b.rank = a.rank ∧ b.slot < a.slot) then some b else some a

/-- INFO1 of a queue fault: o, k and w of R58. -/
def Issue.qInfo (i : Issue) (f : SlotFault) : Word :=
  if f.code = 0x04 ∨ f.code = 0x05 then
    let q := f.info0.toNat
    BitVec.ofNat 64 (vget i.occ q % 256 + vget i.pops q % 256 * 256 + vget i.pushes q % 256 * 65536)
  else f.info1

/-- The stop at a bundle's fault (R333): nothing of the bundle commits. `base` is the state before it. -/
def State.stopAt (base : State) (i : Issue) (f : SlotFault) : State :=
  let base := { base with iss := Issue.reset }
  base.stopCore (base.core.record 0 f.code.toNat f.cause.toNat f.repl f.slot f.info0 (i.qInfo f))

/-- What becomes of the bundle whose slots have run: `base` is the state before it (R50, R193, R334). Where one pop would freeze on an
empty port that walks and another claims a push in flight, the claim's hold comes first: R58 gives the two for each queue alone
(DESIGN CHOICE, log entry 114). -/
def State.finishIssue (base s : State) : State :=
  let i := s.iss
  match i.hold with
  | some w => ({ base with core := base.core.noteOthers w i.others } : State).holdCycle w i.holdSlot
  | none =>
    let late := i.overflow
    if i.claim && late.isNone then base.holdCycle .claim 0
    else
      match firstFault i.fault late with
      | some f => base.stopAt i f
      | none =>
        match i.freeze with
        | some q => { base with core := { base.core with wait := none, waits := [] } }.freezeCycle q
        | none => s.commit

/-! ### One schedule cycle -/

/-- The bundle to issue: one that a hold or a freeze has kept is not fetched again (R334). -/
def State.nextBundle (s : State) : Tried (Bundle × State) :=
  match s.core.fetched with
  | some b => .ok (b, s)
  | none => s.fetch

/-- A bundle issues, from its fetch to its end. -/
def State.issueBundle (s : State) : Out :=
  match s.nextBundle with
  | .error e =>
    let f := e.1
    .next ((e.2.met f).stopCore { s.core.record 0 f.code f.cause f.repl 0 f.i0 f.i1 with ext := BitVec.ofNat 160 f.ext })
  | .ok (b, s) =>
    andThen (s.beginIssue.runSlots b) fun s' => .next (({ s with core := s.core.keepBundle b s'.iss }).finishIssue s')

/-- A save or a restore holds the focus core (R350, R357). -/
def State.saveHolds (s : State) : Bool := s.saveHeld s.core

/-- The focus core is stopped while its context is resident: its cycles count for the waits of its commands (R30, R390). -/
def State.stillResident (s : State) : Bool := s.core.stop.isSome && decide (s.ctx.pst = 0)

/-- The begin of a cycle on a core that does not run on: its cycles count for the waits of its commands while its context is resident,
and a fault of a direct form that has reached it came in an earlier cycle than any that follows (R335). -/
def State.idleCycle (s : State) : State :=
  let c := s.core
  { s with core := { c with ran := if s.stillResident then c.ran + 1 else c.ran, dfPast := c.dfFault.isSome } }

/-- What falls due at the begin of a schedule cycle: the faults of stores, and results (R46, R57, R299). -/
def State.dueNow (s : State) : State :=
  let s := s.dueStores
  { s with core := s.core.landDue.tablesReady }

/-- One schedule cycle of core k (R45, R46): due results land; then the core freezes, stops, or issues. -/
def State.issueTurn (s : State) (k : CoreKey) : Out :=
  let s := s.focus k
  let c := s.core
  if c.stop.isSome || s.saveHolds then .next s.idleCycle
  else
    match c.status with
    | .idle => .next s
    | .finishing =>
      let s := s.dueNow
      match s.core.dfFault with
      | some r => .next (s.stopDirect r)
      | none =>
        if s.core.lateLoad then .next (s.freezeCycle 0xFF)
        else .next { s with core := { s.core with frozen := false, freeze := none }.tick }
    | .running =>
      let s := s.dueNow
      match s.core.dfFault with
      | some r => .next (s.stopDirect r)
      | none => if s.core.lateLoad then .next (s.freezeCycle 0xFF) else s.issueBundle

end Sys2Proof.Machine
end

