-- ==== Sys2Proof/Machine/Turns.lean ====
section
/-! DEFINITION. What one turn does (log entry 4): a schedule cycle of a core, a step of another agent, one piece or
element of an access in progress, or the passing of time; and how a bundle is placed to be fetched next. -/

namespace Sys2Proof.Machine

/-! ### Errors of a store (R360, R363, R374, R375) -/

/-- State of a core is in error: the bundle that reads it takes FLT_CORE (R360, R363). A communication master's is NEWT_FAILOVER
(R387). -/
def State.coreError (s : State) (k : CoreKey) (cause number : Nat) : State :=
  if (s.focus k).isMaster then s else s.onCore k fun c => { c with errs := setAddErr (cause, number) c.errs }

/-- A compute site fails: a task that runs on it is not moved (R20). A master newt's failure is NEWT_FAILOVER (R387); the spec does not
say what the failure of a standby newt does while the master lives, and the model lets it do nothing: the site is not counted among the
failed ones (DESIGN CHOICE, log entry 121). -/
def State.siteFails (s : State) (fen site : Nat) : State :=
  if site < 132 then s.onFen fen fun f => { f with failed := setAdd site f.failed } else s

/-- Sectors become poisoned, and each that was not before is counted on its home die (R106, R369). -/
def State.poisonCounted (s : State) (l : List Nat) : State :=
  l.foldl (fun s k => if setHas k s.poison then s else (s.poisonAll [k]).onDie (s.homeDie (128 * k)) fun d => d.count 0 1) s

/-- A sector of existing memory that is not poisoned yet. -/
def State.sound (s : State) (pa : Nat) : Bool := (s.reachable 0 pa).isNone && !s.poisoned pa

/-- One error of a store (R360). -/
def State.upsetTurn (s : State) : Upset → State
  | .coreState k cause number => s.coreError k (cause.val + 1) number.toNat
  | .site f n => s.siteFails f.val n.toNat
  | .scratchpad k sector =>
    if sector.toNat * 128 < (s.getCore k).spSize && !setHas sector.toNat (s.getCore k).sp.poison then
      (s.onCore k fun c => { c with sp := { c.sp with poison := setAdd sector.toNat c.sp.poison } }).onDie
        ((s.getCore k).fen / 5) fun d => d.count 0 1
    else s
  | .l2Data pa met =>
    if s.sound pa.toNat then
      let k := pa.toNat / 128
      let s' := if met then s.poisonCounted [k] else s.poisonDie (s.homeDie pa.toNat) [k]
      { s' with flaws := s'.flaws ++ [(k, .l2)] }
    else s
  | .l2Line pa =>
    let k := pa.toNat / 256 * 2
    if s.sound (k * 128) && s.sound ((k + 1) * 128) then s.poisonDie (s.homeDie pa.toNat) [k, k + 1] else s
  | .l2Evict pa =>
    { s with flaws := s.flaws.filter fun x => decide (x.1 ≠ pa.toNat / 128) || decide (x.2 = .expansion) }
  | .expansion pa =>
    if s.sound pa.toNat then
      let s' := s.poisonCounted [pa.toNat / 128]
      { s' with flaws := s'.flaws ++ [(pa.toNat / 128, .expansion)] }
    else s
  | .sideEntry pa =>
    let page := (List.range 32).map fun i => pa.toNat / 4096 * 32 + i
    match s.tier pa.toNat with
    | .mire _ => s.poisonCounted page
    | .lease _ => s.poisonCounted page
    | .hbm _ => s
    | .absent => s
  | .corrected d => s.onDie d.val fun x => x.count 16 1

/-- One turn. An event that carries a slot instruction, or whose condition does not hold, changes nothing. -/
def State.turn (s : State) : Turn → Out
  | .issue k => s.issueTurn k
  | .event i => if (classOf i).isNone then exec i s else .next s
  | .perform k a p => .next (s.performPiece k a p)
  | .element k id how => .next (s.elementTurn k id how)
  | .nodeElement d e how => .next (s.copyTurn d e how)
  | .scales k id => .next (s.scalesTurn k id)
  | .array k id => .next (s.arrayTurn k id)
  | .l2Miss pa => .next (s.missTurn pa.toNat)
  | .wire p => .next (s.wireTurn p.val)
  | .upset u => .next (s.upsetTurn u)
  | .clock ns => .next (State.outCycles { s with time := s.time + ns } ns)

/-- The next turn: the agenda's head, or the free choice (R137, R141). -/
def State.nextTurn (s : State) : Turn × State :=
  match s.agenda with
  | t :: r => (t, { s with agenda := r })
  | [] => (Config.turn s.tick, s.fresh)

/-- Bytes planted in physical memory, untagged and unpoisoned. -/
def State.plant (s : State) (pa : Nat) (bs : List Byte) : State :=
  { s with
    mem := s.mem.writeBytes pa bs
    tags := (partsOf pa bs.length).foldl (fun t p => t.write (p.1 / 128) 0) s.tags
    poison := (partsOf pa bs.length).foldl (fun t p => setDel (p.1 / 128) t) s.poison
    flaws := (partsOf pa bs.length).foldl (fun t p => flawsWithout (p.1 / 128) t) s.flaws }

/-- A page table that maps the first GiB of context 0's addresses onto itself: three entries (R116, R117). -/
def State.plantTables (s : State) : State :=
  ((s.plant 0x1000 (natToBytes 8 0x2001)).plant 0x2000 (natToBytes 8 0x3001)).plant 0x3000 (natToBytes 8 0x83)

/-- The slot of a class that a placed word goes to. -/
def placeSlot : SlotClass → Nat
  | .s => 0
  | .v => 1
  | .m => 3
  | .c => 4
  | .l => 6
  | .k => 7

/-- The core that runs a placed instruction: LAUNCH runs only on a newt, MBTAKE and MBREPLY only on the master. -/
def placeCore : Instr → CoreKey
  | .launch _ => newtKey 0 133
  | .mbtake _ => newtKey 0 132
  | .mbreply _ _ => newtKey 0 132
  | _ => 0

/-- A core ready to issue at address 0 in context 0, with nothing in flight. -/
def Core.ready (c : Core) : Core :=
  { c with
    ctx := 0, status := .running, pc := 0, loop := LoopSeq.reset, pipes := Pipes.reset, held := none, stop := none,
    errs := [], dfFault := none, dfPast := false, frozen := false, wait := none, waits := [], freeze := none, waitcVal := none, cmdWait := Vector.replicate 2 none,
    fetched := none, tlb := [] }

/-- A bundle whose one instruction is the word stands at address 0 of context 0, context 0 runs there on core k, and
the next turn is a schedule cycle of that core (log entry 5). -/
def State.placeBundle (s : State) (k : CoreKey) (slot : Nat) (w : SlotWord) : State :=
  let s := (s.plantTables.plant 0 (natToBytes 24 (w.toNat * 2 ^ (24 * slot)))).focus k
  let s := s.onCtx 0 fun x => { x with root := 1, state := 2 }
  let s := s.onFen s.core.fen fun f => { f with tlb := [] }
  let s := { s with pkg := { s.pkg with ctxbSet := false, side := [], mgst := s.pkg.mgst &&& 0xFFFFFFFFFFFFFFFD } }
  { s with core := s.core.ready, iss := Issue.reset, agenda := [.issue k] }

end Sys2Proof.Machine
end

