-- ==== Sys2Proof/Machine/Step.lean ====
section
/-! DEFINITION. The step: the next turn, and what it does; and a state whose next step runs a given word. -/

namespace Sys2Proof.Machine

/-- One step of the package. -/
def step (s : State) : Host.Outcome State Fault Refusal := s.nextTurn.2.turn s.nextTurn.1

/-- The opcode-table word w stored where the next step fetches, on a core that may run it. -/
def State.withFetchWord (s : State) (nbits w : Nat) : State :=
  let x := BitVec.ofNat 24 w
  let k := (decodeTableWord nbits w).elim 0 placeCore
  s.placeBundle k ((tableClass x).elim 0 placeSlot) x

end Sys2Proof.Machine
end

