-- ==== Sys2Proof/Safety.lean ====
section
/-! DEFINITION. The terms claims use: an outcome that completes, the canonical form of every memory, and the tables
that say, instruction by instruction, what the rules of each slot give. -/

namespace Sys2Proof.Machine

/-- A scratchpad's memory and tags in canonical form. -/
def Scratch.wf (sp : Scratch) : Bool := sp.mem.wf && sp.tags.wf

/-- Every memory of the package in canonical form. -/
def State.memWf (s : State) : Bool :=
  s.mem.wf && s.tags.wf && s.hostMem.wf && s.core.sp.wf && s.cores.all fun c => c.sp.wf

/-! ### Stops (R333, R337) -/

/-- The record of a stop: it is ready to post, or waits until its die has room among the 256 records it holds (R337). -/
def State.recorded (s : State) (r : FaultRec) : State :=
  { s with
    ready := if s.dieFull r.die then s.ready else s.ready ++ [(s.seq, r)]
    late := if s.dieFull r.die then s.late ++ [(s.seq, r)] else s.late
    seq := s.seq + 1
    flaws := if r.code = 0x31 then flawsWithout (r.info1.toNat / 128) s.flaws else s.flaws }

/-- A core stopped before its next bundle, until the record of this number is resumed. -/
def Core.stoppedAt (c : Core) (q : BitVec 32) : Core :=
  { c with
    stop := some ⟨q⟩, skipBkpt := false, frozen := false, wait := none, waits := [], freeze := none
    cmdWait := Vector.replicate 2 none, fetched := none }

/-! ### Results that land (R46, R57) -/

/-- A core-port write of n bytes at a touches a bank in FIFO mode, whose ring may be full when it lands. -/
def Core.mayFill (c : Core) (a n : Nat) : Bool :=
  (partsOf (a % c.spSize) n).any fun p => decide ((vget c.sp.bank (bankOf p.1)).mode = 2)

/-- A load that is due has not got its data, or a core-port write that is due meets a FIFO bank: the freeze line may rise in this
cycle (R46, R105). -/
def Core.lateNow (c : Core) : Bool :=
  c.pipes.inflight.any fun i => decide (i.rem = 0) && match i.what with
    | .loadQ _ id => !c.arrived id
    | .loadX d id => !c.arrived id || (c.access id).elim false fun a => c.mayFill d a.bytes.length
    | .push _ _ => false
    | .sreg _ _ => false
    | .pred _ _ => false
    | .maskPush _ _ => false
    | .spWrite a bs => c.mayFill a bs.length
    | .stored _ => false

/-- The accesses whose loads are due. -/
def Core.dueLoads (c : Core) : List Nat :=
  (c.pipes.inflight.filter fun i => decide (i.rem = 0)).filterMap fun i => match i.what with
    | .loadQ _ id => some id
    | .loadX _ id => some id
    | .push _ _ => none
    | .sreg _ _ => none
    | .pred _ _ => none
    | .maskPush _ _ => none
    | .spWrite _ _ => none
    | .stored _ => none

/-- What a landing pushes on a queue. -/
def Core.entriesTo (c : Core) (q : Nat) (w : Landing) : List QEntry :=
  match w with
  | .push p es => if p.toNat = q then es else []
  | .loadQ p id => if p.toNat = q then (c.access id).elim [] fun a => [⟨vecOfBytes a.bytes, a.tag, none⟩] else []
  | .loadX _ _ => []
  | .sreg _ _ => []
  | .pred _ _ => []
  | .maskPush _ _ => []
  | .spWrite _ _ => []
  | .stored _ => []

/-- A due push waits for a load's data. -/
def Core.lateFor (c : Core) (w : Landing) : Bool :=
  match w with
  | .loadQ _ id => !c.arrived id
  | .loadX _ _ => false
  | .push _ _ => false
  | .sreg _ _ => false
  | .pred _ _ => false
  | .maskPush _ _ => false
  | .spWrite _ _ => false
  | .stored _ => false

/-- A landing pushes on the queue. -/
def pushesTo (q : Nat) (w : Landing) : Bool :=
  match w with
  | .push p _ => decide (p.toNat = q)
  | .loadQ p _ => decide (p.toNat = q)
  | .loadX _ _ => false
  | .sreg _ _ => false
  | .pred _ _ => false
  | .maskPush _ _ => false
  | .spWrite _ _ => false
  | .stored _ => false

/-- The pushes due on a queue in slot order, within a slot in the order of issue. -/
def Core.pushesDue (c : Core) (q : Nat) : List Landing :=
  (List.range 8).flatMap fun n =>
    (c.pipes.inflight.filter fun i => decide (i.rem = 0) && decide (i.slot = n) && pushesTo q i.what).map (·.what)

/-! ### The S slot (R213 to R217) -/

/-- The signed comparison of two words. -/
def sLe (a b : Word) : Bool := decide (a.toInt ≤ b.toInt)

/-- The leading zero bits of a number of 64 bits, counted from the top. -/
def zerosFrom : Nat → Nat → Nat
  | 0, _ => 0
  | n + 1, x => if x / 2 ^ n % 2 = 1 then 0 else 1 + zerosFrom n x

/-- The one bits among the low n. -/
def onesBelow : Nat → Nat → Nat
  | 0, _ => 0
  | n + 1, x => x / 2 ^ n % 2 + onesBelow n x

/-- R215, R216 and R217: for an S instruction that writes a scalar register or a predicate, its guarding predicate,
its latency and the write. Register operands are read as integers. -/
def sWrites (s : State) : Instr → Option (BitVec 2 × Nat × Landing)
  | .add d a b p => some (p, 1, .sreg d (BitVec.ofNat 64 ((s.core.rs a).toNat + (s.core.rs b).toNat)))
  | .sub d a b p => some (p, 1, .sreg d (BitVec.ofInt 64 ((s.core.rs a).toNat - (s.core.rs b).toNat)))
  | .mul d a b p => some (p, 3, .sreg d (BitVec.ofNat 64 ((s.core.rs a).toNat * (s.core.rs b).toNat)))
  | .mulh d a b p => some (p, 3, .sreg d (BitVec.ofInt 64 ((s.core.rs a).toInt * (s.core.rs b).toInt / 2 ^ 64)))
  | .mulhu d a b p => some (p, 3, .sreg d (BitVec.ofNat 64 ((s.core.rs a).toNat * (s.core.rs b).toNat / 2 ^ 64)))
  | .min d a b p => some (p, 1, .sreg d (if sLe (s.core.rs a) (s.core.rs b) then s.core.rs a else s.core.rs b))
  | .max d a b p => some (p, 1, .sreg d (if sLe (s.core.rs a) (s.core.rs b) then s.core.rs b else s.core.rs a))
  | .minu d a b p => some (p, 1, .sreg d (BitVec.ofNat 64 (min (s.core.rs a).toNat (s.core.rs b).toNat)))
  | .maxu d a b p => some (p, 1, .sreg d (BitVec.ofNat 64 (max (s.core.rs a).toNat (s.core.rs b).toNat)))
  | .and d a b p => some (p, 1, .sreg d (BitVec.ofNat 64 ((s.core.rs a).toNat &&& (s.core.rs b).toNat)))
  | .or d a b p => some (p, 1, .sreg d (BitVec.ofNat 64 ((s.core.rs a).toNat ||| (s.core.rs b).toNat)))
  | .xor d a b p => some (p, 1, .sreg d (BitVec.ofNat 64 ((s.core.rs a).toNat ^^^ (s.core.rs b).toNat)))
  | .andn d a b p => some (p, 1, .sreg d (BitVec.ofNat 64 ((s.core.rs a).toNat &&& (2 ^ 64 - 1 - (s.core.rs b).toNat))))
  | .clz d a p => some (p, 1, .sreg d (BitVec.ofNat 64 (zerosFrom 64 (s.core.rs a).toNat)))
  | .popc d a p => some (p, 1, .sreg d (BitVec.ofNat 64 (onesBelow 64 (s.core.rs a).toNat)))
  | .shl d a b p => some (p, 1, .sreg d (BitVec.ofNat 64 ((s.core.rs a).toNat * 2 ^ ((s.core.rs b).toNat % 64))))
  | .shr d a b p => some (p, 1, .sreg d (BitVec.ofNat 64 ((s.core.rs a).toNat / 2 ^ ((s.core.rs b).toNat % 64))))
  | .sar d a b p => some (p, 1, .sreg d (BitVec.ofInt 64 ((s.core.rs a).toInt / (2 ^ ((s.core.rs b).toNat % 64) : Nat))))
  | .addi d a i p => some (p, 1, .sreg d (BitVec.ofInt 64 ((s.core.rs a).toNat + i.toInt)))
  | .shli d a n p => some (p, 1, .sreg d (BitVec.ofNat 64 ((s.core.rs a).toNat * 2 ^ n.toNat)))
  | .shri d a n p => some (p, 1, .sreg d (BitVec.ofNat 64 ((s.core.rs a).toNat / 2 ^ n.toNat)))
  | .sari d a n p => some (p, 1, .sreg d (BitVec.ofInt 64 ((s.core.rs a).toInt / (2 ^ n.toNat : Nat))))
  | .pca d i p => some (p, 1, .sreg d (BitVec.ofInt 64 (s.core.pc.toNat + 24 * i.toInt)))
  | .addb d a p => some (p, 1, .sreg d (BitVec.ofInt 64 ((s.core.rs a).toNat + s.iss.bc.toInt)))
  | .andb d a p => some (p, 1, .sreg d (s.core.rs a &&& BitVec.ofInt 64 s.iss.bc.toInt))
  | .orb d a p => some (p, 1, .sreg d (s.core.rs a ||| BitVec.ofInt 64 s.iss.bc.toInt))
  | .xorb d a p => some (p, 1, .sreg d (s.core.rs a ^^^ BitVec.ofInt 64 s.iss.bc.toInt))
  | .div d a b p => some (p, 24, .sreg d (if s.core.rs b = 0 then BitVec.allOnes 64
      else BitVec.ofInt 64 ((s.core.rs a).toInt.tdiv (s.core.rs b).toInt)))
  | .divu d a b p => some (p, 24, .sreg d (if s.core.rs b = 0 then BitVec.allOnes 64
      else BitVec.ofNat 64 ((s.core.rs a).toNat / (s.core.rs b).toNat)))
  | .rem d a b p => some (p, 24, .sreg d (if s.core.rs b = 0 then s.core.rs a
      else BitVec.ofInt 64 ((s.core.rs a).toInt.tmod (s.core.rs b).toInt)))
  | .remu d a b p => some (p, 24, .sreg d (if s.core.rs b = 0 then s.core.rs a
      else BitVec.ofNat 64 ((s.core.rs a).toNat % (s.core.rs b).toNat)))
  | .cmpeq d a b p => some (p, 1, .pred d (decide ((s.core.rs a).toNat = (s.core.rs b).toNat)))
  | .cmpne d a b p => some (p, 1, .pred d (decide ((s.core.rs a).toNat ≠ (s.core.rs b).toNat)))
  | .cmplt d a b p => some (p, 1, .pred d (decide ((s.core.rs a).toInt < (s.core.rs b).toInt)))
  | .cmpltu d a b p => some (p, 1, .pred d (decide ((s.core.rs a).toNat < (s.core.rs b).toNat)))
  | .cmple d a b p => some (p, 1, .pred d (sLe (s.core.rs a) (s.core.rs b)))
  | .cmpleu d a b p => some (p, 1, .pred d (decide ((s.core.rs a).toNat ≤ (s.core.rs b).toNat)))
  | .cmpeqi d a i p => some (p, 1, .pred d (decide ((s.core.rs a).toInt = i.toInt)))
  | .cmplti d a i p => some (p, 1, .pred d (decide ((s.core.rs a).toInt < i.toInt)))
  | .pand d a b p => some (p, 1, .pred d (s.core.rp a && s.core.rp b))
  | .por d a b p => some (p, 1, .pred d (s.core.rp a || s.core.rp b))
  | .pnot d a p => some (p, 1, .pred d (!s.core.rp a))
  | _ => none

/-- The copies of the shape register that SHW's number names: 0 to 3 mx, 4 to 7 ka, 8 to 11 kb (R63, R218). -/
def Core.shapeReg (c : Core) (r : Nat) : ShapeReg :=
  if r < 4 then vget c.mxr r else if r < 8 then vget c.kar (r - 4) else vget c.kbr (r - 8)

/-! ### The V slot: reads that meet nothing to stop them (R56, R245, R250) -/

/-- n reads of queue q of the queues given, the last a peek if `peek`: the entries and the queues after them. None where
an entry is not there or is poisoned. -/
def qReads (qs : Vector (List QEntry) 16) (q : Nat) (peek : Bool) : Nat → Option (List QEntry × Vector (List QEntry) 16)
  | 0 => some ([], qs)
  | n + 1 =>
    match vget qs q with
    | [] => none
    | e :: r =>
      if e.poison.isSome then none
      else (qReads (if peek && decide (n = 0) then qs else vset qs q r) q peek n).map fun x => (e :: x.1, x.2)

/-- n pops noted for R58. -/
def Issue.popped (i : Issue) (q n : Nat) : Issue :=
  if n = 0 then i else { i with pops := vset i.pops q (vget i.pops q + n) }

/-- The queues and the bundle's counts replaced. -/
def State.withReads (s : State) (qs : Vector (List QEntry) 16) (i : Issue) : State :=
  { s with core := { s.core with vs := { s.core.vs with q := qs } }, iss := i }

/-- n reads of queue q: the entries and the state after them, which differs in the queues and the pops noted. None where a
read meets a fault, a freeze or a claim, the queue is an input port in handler mode (R240), or it holds an error (R360). -/
def State.afterReads (s : State) (q : BitVec 4) (peek : Bool) (n : Nat) : Option (List QEntry × State) :=
  if inPort q && s.core.held.isSome || s.core.errs.any (fun e => decide (e = (2, q.toNat))) then none
  else (qReads s.core.vs.q q.toNat peek n).map fun x => (x.1, s.withReads x.2 (s.iss.popped q.toNat (n - b2n peek)))

/-- n reads of queue q whose entries are untagged. -/
def State.plainReads (s : State) (q : BitVec 4) (peek : Bool) (n : Nat) : Option (List Vec × State) :=
  (s.afterReads q peek n).bind fun x => if x.1.any (fun e => tagV e.tag) then none else some (x.1.map (·.v), x.2)

/-- Operand b: the broadcast value of the type, or one read (R60, R245). -/
def State.plainB (s : State) (t : ElTy) (b : BitVec 4) (y c : BitVec 1) : Option (Vec × State) :=
  if c = 1 then some (splat t.w (t.bc s.iss.bc), s)
  else (s.plainReads b (decide (y = 1)) 1).map fun x => (x.1.headD 0, x.2)

/-! ### The V slot: element-wise results (R246 to R249) -/

/-- An element-wise V instruction once its operands are read: the state then, the enabled lanes and what the other lanes
keep, the width of its elements, how many entries it pushes, after how many cycles, onto which queue, whether it rounds
stochastically, and the value and flags of element e under a draw. -/
structure VRun where
  st : State
  en : BitVec 64
  old : Vec
  w : Nat
  k : Nat
  lat : Nat
  d : BitVec 4
  sr : Bool
  f : Nat → BitVec 32 → Nat × BitVec 7

/-- Elements of one entry. -/
def VRun.per (r : VRun) : Nat := 2048 / r.w

/-- The lane of element j of the result (R77). -/
def VRun.lane (r : VRun) (j : Nat) : Nat := j % r.per * r.w / 32

/-- Element j is enabled (R247). -/
def VRun.on (r : VRun) (j : Nat) : Bool := r.en.getLsbD (r.lane j)

/-- The enabled elements of a lane below element j: each has stepped the lane's LFSR once (R83, R249). -/
def VRun.steps (r : VRun) (lane j : Nat) : Nat := (List.range j).countP fun i => r.on i && decide (r.lane i = lane)

/-- An LFSR after n steps. -/
def lfsSteps : Nat → BitVec 32 → BitVec 32
  | 0, x => x
  | n + 1, x => lfsNext (lfsSteps n x)

/-- The draw of element j: its lane's LFSR after its own step; 0 without stochastic rounding. -/
def VRun.draw (r : VRun) (j : Nat) : BitVec 32 :=
  if r.sr then lfsSteps (r.steps (r.lane j) j + 1) (vget r.st.iss.lfs (r.lane j)) else 0

/-- The LFSRs after the instruction. -/
def VRun.lfs (r : VRun) : Vector (BitVec 32) 64 :=
  if r.sr then Vector.ofFn fun l : Fin 64 => lfsSteps (r.steps l.val (r.k * r.per)) (vget r.st.iss.lfs l.val)
  else r.st.iss.lfs

/-- The output port that the instruction pushes is walking (R59). -/
def VRun.portOpen (r : VRun) : Bool := !outPort r.d || (vget r.st.core.vs.ag (r.d.toNat - 12)).walking

/-- The instruction completes: `lat` cycles later its k entries are pushed, element by element the computed value where the
lane is enabled and the old bits elsewhere; its flags are those of the enabled elements; nothing else changes. -/
def VRun.completes (r : VRun) (i : Instr) (s : State) : Prop :=
  ∃ (vs : List Vec) (fl : BitVec 7),
    exec i s = .next (({ r.st with iss := { r.st.iss with flg := r.st.iss.flg ||| fl, lfs := r.lfs } }).pushQ r.lat
      r.d.toNat (vs.map fun v => ⟨v, 0, none⟩))
    ∧ vs.length = r.k
    ∧ (∀ j, j < r.k * r.per → elem r.w (vs.getD (j / r.per) 0) (j % r.per)
        = if r.on j then (r.f j (r.draw j)).1 % 2 ^ r.w else elem r.w r.old (j % r.per))
    ∧ ∀ b, b < 7 → (fl.getLsbD b = true ↔ ∃ j, j < r.k * r.per ∧ r.on j = true ∧ (r.f j (r.draw j)).2.getLsbD b = true)

/-- The run of an instruction with one read of a and of b. -/
def State.runBin (s : State) (t : ElTy) (lat : Nat) (f : Nat → Nat → Nat × BitVec 7) (d a b : BitVec 4)
    (x y m c : BitVec 1) : Option VRun :=
  if s.vIn a && (decide (c = 1) || s.vIn b) && s.vOut d then
    (s.plainReads a (decide (x = 1)) 1).bind fun p =>
      (p.2.plainB t b y c).map fun q =>
        ⟨q.2, s.vLanes m, p.1.headD 0, t.w, 1, lat, d, false, fun e _ =>
          f (elem t.w (p.1.headD 0) e) (elem t.w q.1 e)⟩
  else none

/-- The run of an instruction with one read of a. -/
def State.runUn (s : State) (w lat : Nat) (f : Nat → Nat × BitVec 7) (d a : BitVec 4) (x m : BitVec 1) : Option VRun :=
  if s.vIn a && s.vOut d then
    (s.plainReads a (decide (x = 1)) 1).map fun p =>
      ⟨p.2, s.vLanes m, p.1.headD 0, w, 1, lat, d, false, fun e _ => f (elem w (p.1.headD 0) e)⟩
  else none

/-- An integer result of w bits (R253): computed exactly, kept modulo 2^w; no flag. -/
def wrapInt (w : Nat) (g : Int → Int → Int) (x y : Nat) : Nat × BitVec 7 := ((g (sgn w x) (sgn w y) % 2 ^ w).toNat, 0)

/-- R252 and R253: the two-operand arithmetic of the V slot. -/
def vBinary (s : State) : Instr → Option VRun
  | .vaddF32 d a b x y m c => s.runBin (.float .f32) 4 (fAdd .f32) d a b x y m c
  | .vsubF32 d a b x y m c => s.runBin (.float .f32) 4 (fSub .f32) d a b x y m c
  | .vmulF32 d a b x y m c => s.runBin (.float .f32) 4 (fMul .f32) d a b x y m c
  | .vminF32 d a b x y m c => s.runBin (.float .f32) 2 (minMax .f32 false) d a b x y m c
  | .vmaxF32 d a b x y m c => s.runBin (.float .f32) 2 (minMax .f32 true) d a b x y m c
  | .vaddBf16 d a b x y m c => s.runBin (.float .bf16) 4 (fAdd .bf16) d a b x y m c
  | .vsubBf16 d a b x y m c => s.runBin (.float .bf16) 4 (fSub .bf16) d a b x y m c
  | .vmulBf16 d a b x y m c => s.runBin (.float .bf16) 4 (fMul .bf16) d a b x y m c
  | .vminBf16 d a b x y m c => s.runBin (.float .bf16) 2 (minMax .bf16 false) d a b x y m c
  | .vmaxBf16 d a b x y m c => s.runBin (.float .bf16) 2 (minMax .bf16 true) d a b x y m c
  | .vaddF16 d a b x y m c => s.runBin (.float .f16) 4 (fAdd .f16) d a b x y m c
  | .vsubF16 d a b x y m c => s.runBin (.float .f16) 4 (fSub .f16) d a b x y m c
  | .vmulF16 d a b x y m c => s.runBin (.float .f16) 4 (fMul .f16) d a b x y m c
  | .vminF16 d a b x y m c => s.runBin (.float .f16) 2 (minMax .f16 false) d a b x y m c
  | .vmaxF16 d a b x y m c => s.runBin (.float .f16) 2 (minMax .f16 true) d a b x y m c
  | .vdivF32 d a b x y m c => s.runBin (.float .f32) 14 divF32 d a b x y m c
  | .vaddI32 d a b x y m c => s.runBin (.int 32) 2 (wrapInt 32 (· + ·)) d a b x y m c
  | .vsubI32 d a b x y m c => s.runBin (.int 32) 2 (wrapInt 32 (· - ·)) d a b x y m c
  | .vmulI32 d a b x y m c => s.runBin (.int 32) 4 (wrapInt 32 (· * ·)) d a b x y m c
  | .vminI32 d a b x y m c => s.runBin (.int 32) 2 (wrapInt 32 min) d a b x y m c
  | .vmaxI32 d a b x y m c => s.runBin (.int 32) 2 (wrapInt 32 max) d a b x y m c
  | .vaddI16 d a b x y m c => s.runBin (.int 16) 2 (wrapInt 16 (· + ·)) d a b x y m c
  | .vsubI16 d a b x y m c => s.runBin (.int 16) 2 (wrapInt 16 (· - ·)) d a b x y m c
  | .vaddI8 d a b x y m c => s.runBin (.int 8) 2 (wrapInt 8 (· + ·)) d a b x y m c
  | .vsubI8 d a b x y m c => s.runBin (.int 8) 2 (wrapInt 8 (· - ·)) d a b x y m c
  | .vaddsI16 d a b x y m c => s.runBin (.int 16) 2 (addSat 16) d a b x y m c
  | .vaddsI8 d a b x y m c => s.runBin (.int 8) 2 (addSat 8) d a b x y m c
  | .vand d a b x y m c => s.runBin (.int 32) 2 (fun u v => (u &&& v, 0)) d a b x y m c
  | .vor d a b x y m c => s.runBin (.int 32) 2 (fun u v => (u ||| v, 0)) d a b x y m c
  | .vxor d a b x y m c => s.runBin (.int 32) 2 (fun u v => (u ^^^ v, 0)) d a b x y m c
  | .vshl d a b x y m c => s.runBin (.int 32) 2 (fun u v => (u * 2 ^ (v % 32), 0)) d a b x y m c
  | .vshr d a b x y m c => s.runBin (.int 32) 2 (fun u v => (u / 2 ^ (v % 32), 0)) d a b x y m c
  | .vsar d a b x y m c => s.runBin (.int 32) 2 (wrapInt 32 fun u v => u / (2 ^ (v % 32).toNat : Nat)) d a b x y m c
  | _ => none

/-- R256, R257, R262 and R267: the one-operand operations, and VFMA and VSEL with their own operand rules (R252, R255). -/
def vUnary (s : State) : Instr → Option VRun
  | .vsqrtF32 d a x m => s.runUn 32 14 sqrtF32 d a x m
  | .vrsqrtF32 d a x m => s.runUn 32 14 rsqrtF32 d a x m
  | .vexp2F32 d a x m => s.runUn 32 8 exp2F32 d a x m
  | .vlog2F32 d a x m => s.runUn 32 8 log2F32 d a x m
  | .vreluF32 d a x m => s.runUn 32 2 (relu .f32) d a x m
  | .vreluBf16 d a x m => s.runUn 16 2 (relu .bf16) d a x m
  | .vmov d a x m => s.runUn 32 1 (fun u => (u, 0)) d a x m
  | .vlfrd d m =>
    if s.vOut d then some ⟨s, s.vLanes m, 0, 32, 1, 1, d, false, fun e _ => ((vget s.core.regs.lfs e).toNat, 0)⟩ else none
  | _ => none

/-- VFMA's run: the addend is popped from d, and disabled lanes keep it (R252). -/
def State.runFma (s : State) (f : Fmt) (d a b : BitVec 4) (x y m c : BitVec 1) : Option VRun :=
  if s.vIn a && (decide (c = 1) || s.vIn b) && ownQ s.v1 d then
    (s.plainReads a (decide (x = 1)) 1).bind fun p =>
      (p.2.plainB (.float f) b y c).bind fun q =>
        (q.2.plainReads d false 1).map fun r =>
          ⟨r.2, s.vLanes m, r.1.headD 0, f.w, 1, 4, d, false, fun e _ =>
            let u := f.dec (elem f.w (p.1.headD 0) e)
            let v := f.dec (elem f.w q.1 e)
            let z := f.dec (elem f.w (r.1.headD 0) e)
            floatResult f ((u.mul v).add z) [u, v, z]⟩
  else none

/-- VFMA, VSEL and the movements of lanes (R252, R255, R267). -/
def vLanewise (s : State) : Instr → Option VRun
  | .vfmaF32 d a b x y m c => s.runFma .f32 d a b x y m c
  | .vfmaBf16 d a b x y m c => s.runFma .bf16 d a b x y m c
  | .vfmaF16 d a b x y m c => s.runFma .f16 d a b x y m c
  | .vsel d a b x y c =>
    if s.vIn a && (decide (c = 1) || s.vIn b) && s.vOut d then
      (s.plainReads a (decide (x = 1)) 1).bind fun p =>
        (p.2.plainB (.int 32) b y c).map fun q =>
          ⟨q.2, s.vTop, q.1, 32, 1, 2, d, false, fun e _ => (elem 32 (p.1.headD 0) e, 0)⟩
    else none
  | .vshuf d a b x y m c => runLanes 1 (fun u v j => elem 32 u (elem 32 v j % 64)) d a b x y m c
  | .vrot d a b x y m c => runLanes 1 (fun u v j => elem 32 u ((j + elem 32 v 0) % 64)) d a b x y m c
  | .vzip d a b x y m c =>
    runLanes 2 (fun u v j => elem 32 (if j % 2 = 0 then u else v) (32 * (j / 64) + j % 64 / 2)) d a b x y m c
  | .vunzip d a b x y m c =>
    runLanes 2 (fun u v j =>
      let l := 2 * (j % 64) + j / 64
      if l < 64 then elem 32 u l else elem 32 v (l - 64)) d a b x y m c
  | _ => none
where
  runLanes (k : Nat) (g : Vec → Vec → Nat → Nat) (d a b : BitVec 4) (x y m c : BitVec 1) : Option VRun :=
    if s.vIn a && (decide (c = 1) || s.vIn b) && s.vOut d then
      (s.plainReads a (decide (x = 1)) 1).bind fun p =>
        (p.2.plainB (.int 32) b y c).map fun q =>
          ⟨q.2, s.vLanes m, p.1.headD 0, 32, k, 2, d, false, fun j _ => (g (p.1.headD 0) q.1 j, 0)⟩
    else none

/-- A conversion's run (R260): ra entries of a in elements of ws bits, rd entries of wd bits. -/
def State.runCvt (s : State) (ws ra wd rd : Nat) (r : BitVec 3) (f : Nat → BitVec 32 → Nat × BitVec 7) (d a : BitVec 4)
    (x m : BitVec 1) : Option VRun :=
  if s.vIn a && s.vOut d then
    (s.plainReads a (decide (x = 1)) ra).map fun p =>
      ⟨p.2, s.vLanes m, p.1.headD 0, wd, rd, 3, d, decide (rndOf r.toNat = .sr), fun j draw =>
        f (elem ws (p.1.getD (j / (2048 / ws)) 0) (j % (2048 / ws))) draw⟩
  else none

/-- R81, R82, R88 and R260: the conversions. -/
def vConversion (s : State) : Instr → Option VRun
  | .vcvtBf16F32 d a r x m => s.runCvt 32 2 16 1 r (fun e => narrow .bf16 (rndOf r.toNat) .ieee (Fmt.f32.dec e)) d a x m
  | .vcvtF16F32 d a r x m => s.runCvt 32 2 16 1 r (fun e => narrow .f16 (rndOf r.toNat) .ieee (Fmt.f32.dec e)) d a x m
  | .vcvtE4m3F32 d a r t x m =>
    s.runCvt 32 4 8 1 r (fun e => narrow .e4m3 (rndOf r.toNat) (if t = 1 then .nan else .sat) (Fmt.f32.dec e)) d a x m
  | .vcvtE5m2F32 d a r t x m =>
    s.runCvt 32 4 8 1 r (fun e => narrow .e5m2 (rndOf r.toNat) (if t = 1 then .sat else .ieee) (Fmt.f32.dec e)) d a x m
  | .vcvtF32Bf16 d a x m => s.runCvt 16 1 32 2 0 (fun e => narrow .f32 .rn .ieee (Fmt.bf16.dec e)) d a x m
  | .vcvtF32F16 d a x m => s.runCvt 16 1 32 2 0 (fun e => narrow .f32 .rn .ieee (Fmt.f16.dec e)) d a x m
  | .vcvtF32E4m3 d a x m => s.runCvt 8 1 32 4 0 (fun e => narrow .f32 .rn .ieee (Fmt.e4m3.dec e)) d a x m
  | .vcvtF32E5m2 d a x m => s.runCvt 8 1 32 4 0 (fun e => narrow .f32 .rn .ieee (Fmt.e5m2.dec e)) d a x m
  | .vcvtI32F32 d a r x m => s.runCvt 32 1 32 1 r (fun e => convertToInt 32 (rndOf r.toNat) (Fmt.f32.dec e)) d a x m
  | .vcvtF32I32 d a r x m =>
    s.runCvt 32 1 32 1 r (fun e => narrow .f32 (rndOf r.toNat) .ieee (Val.ofInt (sgn 32 e))) d a x m
  | .vcvtI8F32 d a r x m => s.runCvt 32 4 8 1 r (fun e => convertToInt 8 (rndOf r.toNat) (Fmt.f32.dec e)) d a x m
  | .vcvtE4m3Bf16 d a r t x m =>
    s.runCvt 16 2 8 1 r (fun e => narrow .e4m3 (rndOf r.toNat) (if t = 1 then .nan else .sat) (Fmt.bf16.dec e)) d a x m
  | _ => none

/-- VQNT's run (R261): four entries of a, one scale a lane of b. -/
def State.runQnt (s : State) (dst : Option Fmt) (sr : Bool) (d a b : BitVec 4) (x y m c : BitVec 1) : Option VRun :=
  if s.vIn a && (decide (c = 1) || s.vIn b) && s.vOut d then
    (s.plainReads a (decide (x = 1)) 4).bind fun p =>
      (p.2.plainB (.float .f32) b y c).map fun q =>
        ⟨q.2, s.vLanes m, p.1.headD 0, 8, 1, 4, d, sr, fun j draw =>
          quantize dst (if sr then .sr else .rn) (elem 32 (p.1.getD (j / 64) 0) (j % 64)) (elem 32 q.1 (j / 64)) draw⟩
  else none

/-- VDQNT's run (R261): one entry of codes, four entries of FP32. -/
def State.runDqnt (s : State) (src : Nat → Val) (d a b : BitVec 4) (x y m c : BitVec 1) : Option VRun :=
  if s.vIn a && (decide (c = 1) || s.vIn b) && s.vOut d then
    (s.plainReads a (decide (x = 1)) 1).bind fun p =>
      (p.2.plainB (.float .f32) b y c).map fun q =>
        ⟨q.2, s.vLanes m, p.1.headD 0, 32, 4, 4, d, false, fun j _ =>
          let u := src (elem 8 (p.1.headD 0) j)
          let v := Fmt.f32.dec (elem 32 q.1 (j / 64))
          floatResult .f32 (u.mul v) [u, v]⟩
  else none

/-- R261: quantization. -/
def vQuant (s : State) : Instr → Option VRun
  | .vqntE4m3 d a b x y m c => s.runQnt (some .e4m3) false d a b x y m c
  | .vqntE4m3Sr d a b x y m c => s.runQnt (some .e4m3) true d a b x y m c
  | .vqntE5m2 d a b x y m c => s.runQnt (some .e5m2) false d a b x y m c
  | .vqntE5m2Sr d a b x y m c => s.runQnt (some .e5m2) true d a b x y m c
  | .vqntI8 d a b x y m c => s.runQnt none false d a b x y m c
  | .vqntI8Sr d a b x y m c => s.runQnt none true d a b x y m c
  | .vdqntE4m3 d a b x y m c => s.runDqnt Fmt.e4m3.dec d a b x y m c
  | .vdqntE5m2 d a b x y m c => s.runDqnt Fmt.e5m2.dec d a b x y m c
  | .vdqntI8 d a b x y m c => s.runDqnt (fun e => Val.ofInt (sgn 8 e)) d a b x y m c
  | _ => none

/-- R258, R259 and R263: VAMAX, VRSUM and VMPOOL. -/
def vReduction (s : State) : Instr → Option VRun
  | .vamaxF32 d a x m => runOver 1 6 (fun vs => fun _ => (amaxOf .f32 (s.vLanes m) (vs.headD 0), 0)) d a x m
  | .vamaxBf16 d a x m => runOver 1 6 (fun vs => fun _ => (amaxOf .bf16 (s.vLanes m) (vs.headD 0), 0)) d a x m
  | .vrsumF32 d a x m =>
    runOver 1 8 (fun vs =>
      let t := sumTree 6 ((List.range 64).map fun l =>
        if bit (s.vLanes m) l then elem 32 (vs.headD 0) l else 2 ^ 31)
      fun _ => (t.1.headD 0, t.2)) d a x m
  | .vmpoolF32 d a x m => runOver 2 4 (fun vs e => (elem 32 (poolEntry .f32 (vs.headD 0) (vs.getD 1 0)) e, 0)) d a x m
  | .vmpoolBf16 d a x m => runOver 2 4 (fun vs e => (elem 32 (poolEntry .bf16 (vs.headD 0) (vs.getD 1 0)) e, 0)) d a x m
  | _ => none
where
  runOver (n lat : Nat) (g : List Vec → Nat → Nat × BitVec 7) (d a : BitVec 4) (x m : BitVec 1) : Option VRun :=
    if s.vIn a && s.vOut d then
      (s.plainReads a (decide (x = 1)) n).map fun p =>
        ⟨p.2, s.vLanes m, p.1.headD 0, 32, 1, lat, d, false, fun e _ => g p.1 e⟩
    else none

/-! ### The backward readers (R264 to R266) -/

/-- A check that lets its instruction go on. -/
def KeptResult.passes : KeptResult → Bool
  | .untagged => true
  | .carried _ => true
  | .served _ _ => true
  | .fault _ _ => false

/-- The entries that a reader reads of its kept operand: its form's count by the head entry's tag (R265). -/
def State.keptCount (s : State) (f : Fmt) (win : Option (Nat × Nat)) (op : Nat) (a : BitVec 4) : Nat :=
  let full := (win.map (·.1)).getD 1
  match s.core.queue a.toNat with
  | [] => full
  | e :: _ =>
    match (keptCheck s.ctx.kt ⟨vReader op, false, readerOk f win⟩ [e.tag]).form with
    | 6 => full
    | 4 => 2
    | _ => 1

/-- The kept operand read under the form that serves it: the form and the entries. None where the check refuses. -/
def State.keptReads (s : State) (f : Fmt) (win : Option (Nat × Nat)) (op : Nat) (a : BitVec 4) (x : BitVec 1) :
    Option ((Nat × List Vec) × State) :=
  (s.afterReads a (decide (x = 1)) (s.keptCount f win op a)).bind fun p =>
    if inPort a && p.1.any (fun e => decide (e.tag = mixedTag)) then none
    else
      match keptCheck s.ctx.kt ⟨vReader op, false, readerOk f win⟩ (p.1.map (·.tag)) with
      | .fault _ _ => none
      | .untagged => some ((6, p.1.map (·.v)), p.2)
      | .carried _ => some ((6, p.1.map (·.v)), p.2)
      | .served e _ => some ((ktForm e, p.1.map (·.v)), p.2)

/-- Operand b of a reader: n entries, each of which passes the check under the reader's own code (R133, R250). -/
def State.checkedReads (s : State) (pres : Presented) (b : BitVec 4) (y : BitVec 1) (n : Nat) : Option (List Vec × State) :=
  (s.afterReads b (decide (y = 1)) n).bind fun r =>
    if r.1.all fun e => (s.queueCheck pres (inPort b) [e.tag]).passes then some (r.1.map (·.v), r.2) else none

/-- The run of a reader that reads a and nb entries of b. -/
def State.runReader (s : State) (f : Fmt) (op lat nb : Nat) (g : State → Nat × List Vec → List Vec → Nat → Nat × BitVec 7)
    (d a b : BitVec 4) (x y m : BitVec 1) : Option VRun :=
  if s.vIn a && s.vIn b && s.vOut d then
    (s.keptReads f none op a x).bind fun p =>
      (p.2.checkedReads ⟨vReader op, false, readerOk f none⟩ b y nb).map fun q =>
        ⟨q.2, s.vLanes m, p.1.2.headD 0, f.w, 1, lat, d, false, fun e _ => g q.2 p.1 q.1 e⟩
  else none

/-- The run of VMPOOLB: one entry for each row of its window, dy at the kept position and +0 elsewhere (R266). -/
def State.runPoolB (s : State) (f : Fmt) (op : Nat) (d a b : BitVec 4) (x y m : BitVec 1) : Option VRun :=
  let h := s.poolWin.1
  let v := s.poolWin.2
  let n := 2048 / f.w
  if s.vIn a && s.vIn b && s.vOut d && decide (v ≠ 3) then
    (s.keptReads f (some (h, v)) op a x).bind fun p =>
      (p.2.checkedReads ⟨vReader op, false, readerOk f (some (h, v))⟩ b y 1).map fun q =>
        ⟨q.2, s.vLanes m, p.1.2.headD 0, f.w, h, 4, d, false, fun j _ =>
          if q.2.keptPos f p.1 (j % n / v) = j / n * v + j % n % v then
            let dy := f.dec (elem f.w (q.1.headD 0) (j % n / v))
            floatResult f dy [dy]
          else (0, 0)⟩
  else none

/-- R266: the readers, each with its op and latency (R202, R265). -/
def vBackward (s : State) : Instr → Option VRun
  | .vrelubF32 d a b x y m => s.runReader .f32 0xBD 4 1 (gatedGrad .f32) d a b x y m
  | .vrelubBf16 d a b x y m => s.runReader .bf16 0xBE 4 1 (gatedGrad .bf16) d a b x y m
  | .vmpoolbF32 d a b x y m => s.runPoolB .f32 0xBF d a b x y m
  | .vmpoolbBf16 d a b x y m => s.runPoolB .bf16 0xC0 d a b x y m
  | .vgelubF32 d a b x y m => s.runReader .f32 0xC1 6 1 (geluGrad .f32) d a b x y m
  | .vgelubBf16 d a b x y m => s.runReader .bf16 0xC2 6 1 (geluGrad .bf16) d a b x y m
  | .vdropbF32 d a b x y m => s.runReader .f32 0xC3 4 1 (gatedGrad .f32) d a b x y m
  | .vdropbBf16 d a b x y m => s.runReader .bf16 0xC4 4 1 (gatedGrad .bf16) d a b x y m
  | .vsmaxbF32 d a b x y m => s.runReader .f32 0xC5 6 2 (softmaxGrad .f32) d a b x y m
  | .vsmaxbBf16 d a b x y m => s.runReader .bf16 0xC6 6 2 (softmaxGrad .bf16) d a b x y m
  | .vlnormbF32 d a b x y m => s.runReader .f32 0xC7 6 2 (normGrad .f32) d a b x y m
  | .vlnormbBf16 d a b x y m => s.runReader .bf16 0xC8 6 2 (normGrad .bf16) d a b x y m
  | _ => none

/-! ### Compares (R254) and the other V instructions (R267 to R269) -/

/-- The comparison of a V compare, its element type and its operands. -/
def vCompare : Instr → Option (ElTy × (Nat → Nat → Bool) × (BitVec 4 × BitVec 4) × (BitVec 1 × BitVec 1 × BitVec 1 × BitVec 1))
  | .vcmpltF32 a b x y m c => some (.float .f32, fLt .f32, (a, b), (x, y, m, c))
  | .vcmpleF32 a b x y m c => some (.float .f32, fLe .f32, (a, b), (x, y, m, c))
  | .vcmpltBf16 a b x y m c => some (.float .bf16, fLt .bf16, (a, b), (x, y, m, c))
  | .vcmpleBf16 a b x y m c => some (.float .bf16, fLe .bf16, (a, b), (x, y, m, c))
  | .vcmpeqF32 a b x y m c => some (.float .f32, fEq .f32, (a, b), (x, y, m, c))
  | .vcmpeqBf16 a b x y m c => some (.float .bf16, fEq .bf16, (a, b), (x, y, m, c))
  | .vcmpeqI32 a b x y m c => some (.int 32, fun u v => decide (u = v), (a, b), (x, y, m, c))
  | .vcmpltI32 a b x y m c => some (.int 32, fun u v => decide (sgn 32 u < sgn 32 v), (a, b), (x, y, m, c))
  | _ => none

/-- The queue roles of a V instruction hold (R55, R251); none for other instructions. -/
def vRoles (s : State) : Instr → Option Bool
  | .vaddF32 d a b _ _ _ c | .vsubF32 d a b _ _ _ c | .vmulF32 d a b _ _ _ c | .vminF32 d a b _ _ _ c
  | .vmaxF32 d a b _ _ _ c | .vaddBf16 d a b _ _ _ c | .vsubBf16 d a b _ _ _ c | .vmulBf16 d a b _ _ _ c
  | .vminBf16 d a b _ _ _ c | .vmaxBf16 d a b _ _ _ c | .vaddF16 d a b _ _ _ c | .vsubF16 d a b _ _ _ c
  | .vmulF16 d a b _ _ _ c | .vminF16 d a b _ _ _ c | .vmaxF16 d a b _ _ _ c | .vdivF32 d a b _ _ _ c
  | .vaddI32 d a b _ _ _ c | .vsubI32 d a b _ _ _ c | .vmulI32 d a b _ _ _ c | .vminI32 d a b _ _ _ c
  | .vmaxI32 d a b _ _ _ c | .vaddI16 d a b _ _ _ c | .vsubI16 d a b _ _ _ c | .vaddI8 d a b _ _ _ c
  | .vsubI8 d a b _ _ _ c | .vaddsI16 d a b _ _ _ c | .vaddsI8 d a b _ _ _ c | .vand d a b _ _ _ c
  | .vor d a b _ _ _ c | .vxor d a b _ _ _ c | .vshl d a b _ _ _ c | .vshr d a b _ _ _ c | .vsar d a b _ _ _ c
  | .vshuf d a b _ _ _ c | .vrot d a b _ _ _ c | .vzip d a b _ _ _ c | .vunzip d a b _ _ _ c
  | .vqntE4m3 d a b _ _ _ c | .vqntE4m3Sr d a b _ _ _ c | .vqntE5m2 d a b _ _ _ c | .vqntE5m2Sr d a b _ _ _ c
  | .vqntI8 d a b _ _ _ c | .vqntI8Sr d a b _ _ _ c | .vdqntE4m3 d a b _ _ _ c | .vdqntE5m2 d a b _ _ _ c
  | .vdqntI8 d a b _ _ _ c | .vsel d a b _ _ c => some (s.vIn a && (decide (c = 1) || s.vIn b) && s.vOut d)
  | .vfmaF32 d a b _ _ _ c | .vfmaBf16 d a b _ _ _ c | .vfmaF16 d a b _ _ _ c =>
    some (s.vIn a && (decide (c = 1) || s.vIn b) && ownQ s.v1 d)
  | .vcmpltF32 a b _ _ _ c | .vcmpleF32 a b _ _ _ c | .vcmpltBf16 a b _ _ _ c | .vcmpleBf16 a b _ _ _ c
  | .vcmpeqF32 a b _ _ _ c | .vcmpeqBf16 a b _ _ _ c | .vcmpeqI32 a b _ _ _ c | .vcmpltI32 a b _ _ _ c =>
    some (s.vIn a && (decide (c = 1) || s.vIn b))
  | .vsqrtF32 d a _ _ | .vrsqrtF32 d a _ _ | .vexp2F32 d a _ _ | .vlog2F32 d a _ _ | .vreluF32 d a _ _
  | .vreluBf16 d a _ _ | .vmov d a _ _ | .vamaxF32 d a _ _ | .vamaxBf16 d a _ _ | .vrsumF32 d a _ _
  | .vmpoolF32 d a _ _ | .vmpoolBf16 d a _ _ | .vcvtF32Bf16 d a _ _ | .vcvtF32F16 d a _ _ | .vcvtF32E4m3 d a _ _
  | .vcvtF32E5m2 d a _ _ | .vcvtBf16F32 d a _ _ _ | .vcvtF16F32 d a _ _ _ | .vcvtI32F32 d a _ _ _
  | .vcvtF32I32 d a _ _ _ | .vcvtI8F32 d a _ _ _ | .vcvtE4m3F32 d a _ _ _ _ | .vcvtE5m2F32 d a _ _ _ _
  | .vcvtE4m3Bf16 d a _ _ _ _ => some (s.vIn a && s.vOut d)
  | .vrelubF32 d a b _ _ _ | .vrelubBf16 d a b _ _ _ | .vmpoolbF32 d a b _ _ _ | .vmpoolbBf16 d a b _ _ _
  | .vgelubF32 d a b _ _ _ | .vgelubBf16 d a b _ _ _ | .vdropbF32 d a b _ _ _ | .vdropbBf16 d a b _ _ _
  | .vsmaxbF32 d a b _ _ _ | .vsmaxbBf16 d a b _ _ _ | .vlnormbF32 d a b _ _ _ | .vlnormbBf16 d a b _ _ _ =>
    some (s.vIn a && s.vIn b && s.vOut d)
  | .vxmov d a _ _ => some (ownQ s.v1 a && ownQ (!s.v1) d)
  | .vdec d a _ _ => some (inPort a && s.vOut d)
  | .vlfrd d _ => some (s.vOut d)
  | .vlfwr a _ _ => some (s.vIn a)
  | _ => none

/-! ### The C slots: conditions under which nothing stops a form (R206, R294 to R301) -/

/-- No token that the slot consumes is PENDING (R64, R205). -/
def State.tokensDone (s : State) (x y : BitVec 4) (z : BitVec 3) : Bool := (consumed x y z).all fun t => !s.core.pending t

/-- The scratchpad of the focus core replaced. -/
def State.withSp (s : State) (sp : Scratch) : State := { s with core := { s.core with sp := sp } }

/-- The core port serves an access of n bytes at a in a coming cycle: no bank it touches is switching or a cache way
(R103), and none is used in that cycle for another row or by a window (R298). -/
def State.portsFree (s : State) (inCycles a n : Nat) : Bool :=
  (portRows a n).all fun p =>
    !(vget s.core.sp.bank p.1).sw && decide ((vget s.core.sp.bank p.1).mode ≠ 1)
      && !s.iss.uses.any fun u => portMeets u inCycles p.1 p.2

/-- The port cycles of the access claimed. -/
def State.claimPorts (s : State) (inCycles a n : Nat) : State :=
  { s with iss := { s.iss with
    uses := s.iss.uses ++ (portRows a n).map fun p => ⟨inCycles, BitVec.ofNat 3 p.1, BitVec.ofNat 10 p.2, false⟩ } }

/-- No bank of a read is an empty FIFO (R105). -/
def State.fifoFilled (s : State) (a n : Nat) : Bool :=
  (portRows a n).all fun p => decide ((vget s.core.sp.bank p.1).mode ≠ 2) || decide ((vget s.core.sp.fifo p.1).count ≠ 0)

/-- The state a direct form's access starts from: it follows the commands of its tokens (R139). -/
def State.follows (s : State) (x y : BitVec 4) (z : BitVec 3) : State :=
  if (consumed x y z).all fun t => decide (t = 0) then s else s.synced

/-- State that an instruction reads is not in error (R360): `cause` and `n` as FLT_CORE names them. -/
def State.intact (s : State) (cause n : Nat) : Bool := !s.core.errs.any fun e => decide (e = (cause, n))

/-- No sector that the store writes in part is poisoned (R362); a bank in FIFO mode takes an entry instead (R105). -/
def State.storeClean (s : State) (a n : Nat) : Bool :=
  (partsOf a n).all fun p => decide (p.2 = 128) || s.core.sp.isFifo p.1 || !setHas (p.1 / 128) s.core.sp.poison

/-- A local read meets nothing to stop it: the port, the FIFO, poison and tags. -/
def State.mayRead (s : State) (carry : Bool) (a n : Nat) : Bool :=
  s.portsFree 0 a n && s.fifoFilled a n && (s.core.sp.read a n).1.poison.isNone
    && (((s.core.sp.read a n).1.tags.all fun t => !tagV t)
      || (carry && (s.core.sp.read a n).1.tags.all fun t => decide (t = agreedTag (s.core.sp.read a n).1.tags)))

/-- The state after a local read: its port cycles claimed, and what a FIFO bank popped. -/
def State.afterLoad (s : State) (a n : Nat) : State := (s.claimPorts 0 a n).withSp (s.core.sp.read a n).2

/-- The local offset that address A names (R99, R295). -/
def State.localA (s : State) (sh : Shape) : Nat := (s.core.addrA sh).toNat % s.core.spSize

/-- A local store meets nothing to stop it. -/
def State.mayStore (s : State) (inCycles a n : Nat) : Bool := s.portsFree inCycles a n && s.storeClean a n

/-- Address A of a form that leaves the core: the window's, or the global one. -/
def State.farA (s : State) (space : Space) (sh : Shape) : Word :=
  if space = .window then windowAddr sh (s.core.addrA sh) else s.core.addrA sh

/-- A queue form that leaves the core meets nothing to stop it: a queue 0 to 11, its alignment, and a canonical address. -/
def State.farOk (s : State) (space : Space) (sh : Shape) : Bool :=
  decide (qOf sh ≤ 11) && !lvBad sh
    && (if space = .window then decide ((s.farA space sh).toNat % 256 = 0)
      else decide ((s.farA space sh).toNat % 128 = 0) && decide ((s.farA space sh).toNat < 2 ^ 57))

/-- The loads to queue that leave the core: space, tags carried, shape register, queue, tokens and swap (R300). -/
def farLoad : Instr → Option (Space × Bool × BitVec 2 × BitVec 2 × (BitVec 4 × BitVec 4 × BitVec 3) × BitVec 1)
  | .ldr sh q x y w z => some (.window, false, sh, q, (x, y, z), w)
  | .ldg sh q x y w z => some (.global, false, sh, q, (x, y, z), w)
  | .ldgk sh q x y w z => some (.global, true, sh, q, (x, y, z), w)
  | _ => none

/-- The stores of an entry that leave the core (R300). -/
def farStore : Instr → Option (Space × BitVec 2 × BitVec 2 × (BitVec 4 × BitVec 4 × BitVec 3) × BitVec 1)
  | .str sh q x y w z => some (.window, sh, q, (x, y, z), w)
  | .stg sh q x y w z => some (.global, sh, q, (x, y, z), w)
  | _ => none

/-! ### The command forms (R206, R296, R302 to R312) -/

/-- A command form at issue: its produced token, its shape register and swap bit, the state once its operands are read,
and the command it sends. -/
structure Sends where
  tok : BitVec 4
  sh : BitVec 2
  swap : BitVec 1
  st : State
  cmd : Cmd

/-- The command of a form that captures its shape register and two addresses. -/
def State.command (s : State) (op : CmdOp) (sh : Shape) (a b : Word) (t : BitVec 4) (x y : BitVec 4) (z : BitVec 3) : Cmd :=
  Cmd.fresh s.core.pipes.nextId op s.iss.slot sh a b t ((consumed x y z).flatMap s.core.tokenCmds) s.core.pipes.bundleNo

/-- Every value is a multiple of its alignment. -/
def aligned (l : List (Nat × Nat)) : Bool := l.all fun p => decide (p.1 % p.2 = 0)

/-- An atomic: its checks, then the command with address A (R302). -/
def State.sendsAtomic (s : State) (k : Nat) (n : BitVec 2) (t x y : BitVec 4) (w : BitVec 1) (z : BitVec 3) : Option Sends :=
  let sh := s.ksh n
  let a := s.core.addrAS sh
  let width := if bit sh 156 then 8 else 4
  if lvBad sh || (bit sh 156 && decide (5 ≤ k)) || !aligned [(a.toNat, width), (fld sh 179 160, width), (fld sh 211 192, width)]
  then none
  else some ⟨t, n, w, s, s.command (.atomic k) sh a 0 t x y z⟩

/-- n entries popped by an STK in queue mode: none is tagged, unless its tag's form is FULL (R304). -/
def State.stkReads (s : State) (q : Nat) (n : Nat) : Option (List QEntry × State) :=
  (s.afterReads (BitVec.ofNat 4 q) false n).bind fun r =>
    if r.1.any (fun e => tagV e.tag && decide (tagForm e.tag ≠ 6)) then none else some r

/-- STK: the reader-table entry that it names is enabled, serves its reader, and is well formed; in queue mode the entries
hold the elements (R304). -/
def State.sendsStk (s : State) (n : BitVec 2) (t x y : BitVec 4) (w : BitVec 1) (z : BitVec 3) : Option Sends :=
  let sh := s.ksh n
  let kt := fld sh 152 149
  let e := vget s.ctx.kt kt
  let a := s.core.addrAS sh
  let pops := fld sh 154 153 + 1
  if lvBad sh || !aligned [(a.toNat, 128)] || (stkCause kt e).isSome then none
  else
    let cmd (st : State) (src : List QEntry) : Sends :=
      ⟨t, n, w, st, { st.command .stk sh a 0 t x y z with entry := e, cbk := vget s.core.mx.cbk (ktCb e), src := src }⟩
    if bit sh 155 then
      if decide (11 < qOf sh) || decide (pops * 2048 / etypeBits (ktEtype e) < stkN sh) then none
      else (s.stkReads (qOf sh) pops).map fun r => cmd r.2 r.1
    else some (cmd s [])

/-- The command forms with a shape register, and what each sends (R302 to R312). -/
def sends (s : State) : Instr → Option Sends
  | .atadd n t x y w z => s.sendsAtomic 0 n t x y w z
  | .atand n t x y w z => s.sendsAtomic 1 n t x y w z
  | .ator n t x y w z => s.sendsAtomic 2 n t x y w z
  | .atxchg n t x y w z => s.sendsAtomic 3 n t x y w z
  | .atcas n t x y w z => s.sendsAtomic 4 n t x y w z
  | .atfadd n t x y w z => s.sendsAtomic 5 n t x y w z
  | .atfmax n t x y w z => s.sendsAtomic 6 n t x y w z
  | .stk n t x y w z => s.sendsStk n t x y w z
  | .kcopy n t x y w z =>
    let sh := s.ksh n
    let a := plainAddr (bit sh 63) (BitVec.ofNat 64 (fld sh 56 0))
    let b := plainAddr (bit sh 223) (BitVec.ofNat 64 (fld sh 216 160))
    if aligned [(a.toNat, 128), (b.toNat, 128), (fld sh 95 64, 128)] then some ⟨t, n, w, s, s.command .kcopy sh a b t x y z⟩
    else none
  | .cp n t x y w z => sendsCp .cp n t x y w z
  | .cpq n t x y w z => sendsCp .cpq n t x y w z
  | .cpblk n t x y w z =>
    let sh := s.ksh n
    let a : Word := BitVec.ofNat 64 (fld sh 56 0)
    let b : Word := BitVec.ofNat 64 (fld sh 216 160)
    if !bit sh 63 && !bit sh 223 && !cpblkOverlap sh
      && aligned [(a.toNat, 128), (b.toNat, 128), (fld sh 95 64, 128), (fld sh 243 224, 8)] then
      some ⟨t, n, w, s, s.command .cpblk sh a b t x y z⟩
    else none
  | .prefr n t x y w z => sendsPlain .prefr n t x y w z
  | .reedinv n t x y w z => sendsPlain .reedinv n t x y w z
  | .coll n t x y w z => sendsPlain .coll n t x y w z
  | .dpost n t x y w z => sendsPlain .dpost n t x y w z
  | .gwait n t x y w z => sendsPlain .gwait n t x y w z
  | .lease n t x y w z => sendsPlain .lease n t x y w z
  | .lrel n t x y w z => sendsPlain .lrel n t x y w z
  | .mbpost n x y w z =>
    some ⟨0, n, w, s, s.command .mbpost (s.ksh n) (BitVec.ofNat 64 (fld (s.ksh n) 63 0)) 0 0 x y z⟩
  | _ => none
where
  /-- Address A as written. -/
  sendsPlain (op : CmdOp) (n : BitVec 2) (t x y : BitVec 4) (w : BitVec 1) (z : BitVec 3) : Option Sends :=
    some ⟨t, n, w, s, s.command op (s.ksh n) (BitVec.ofNat 64 (fld (s.ksh n) 56 0)) 0 t x y z⟩
  /-- The descriptor's address, in local scratchpad or global (R307). -/
  sendsCp (op : CmdOp) (n : BitVec 2) (t x y : BitVec 4) (w : BitVec 1) (z : BitVec 3) : Option Sends :=
    let sh := s.ksh n
    let a : Word := if bit sh 63 then BitVec.ofNat 64 (fld sh 19 0) else BitVec.ofNat 64 (fld sh 56 0)
    if aligned [(a.toNat, 128)] then some ⟨t, n, w, s, s.command op sh a 0 t x y z⟩ else none

/-- The next identifier taken. -/
def State.nextCmd (s : State) : State :=
  { s with core := { s.core with pipes := { s.core.pipes with nextId := s.core.pipes.nextId + 1 } } }

/-- The consumed tokens of a direct form (R205, R206). -/
def directTokens : Instr → Option (List Nat)
  | .lds _ x y _ z => some (consumed x y z)
  | .ldsk _ x y _ z => some (consumed x y z)
  | .sts _ x y _ z => some (consumed x y z)
  | .ldsx _ x y _ z => some (consumed x y z)
  | .stsx _ x y _ z => some (consumed x y z)
  | .ldr _ _ x y _ z => some (consumed x y z)
  | .str _ _ x y _ z => some (consumed x y z)
  | .ldg _ _ x y _ z => some (consumed x y z)
  | .ldgk _ _ x y _ z => some (consumed x y z)
  | .stg _ _ x y _ z => some (consumed x y z)
  | .ldgx _ _ x y _ z => some (consumed x y z)
  | .stgx _ _ x y _ z => some (consumed x y z)
  | _ => none

/-- The produced token of a command form; MBPOST has none, which is 0 (R206). -/
def commandToken : Instr → Option (BitVec 4)
  | .atadd _ t _ _ _ _ => some t
  | .atand _ t _ _ _ _ => some t
  | .ator _ t _ _ _ _ => some t
  | .atxchg _ t _ _ _ _ => some t
  | .atcas _ t _ _ _ _ => some t
  | .atfadd _ t _ _ _ _ => some t
  | .atfmax _ t _ _ _ _ => some t
  | .fence t _ _ => some t
  | .stk _ t _ _ _ _ => some t
  | .kcopy _ t _ _ _ _ => some t
  | .cp _ t _ _ _ _ => some t
  | .cpq _ t _ _ _ _ => some t
  | .cpblk _ t _ _ _ _ => some t
  | .prefr _ t _ _ _ _ => some t
  | .bankm t _ _ _ => some t
  | .reedinv _ t _ _ _ _ => some t
  | .coll _ t _ _ _ _ => some t
  | .dpost _ t _ _ _ _ => some t
  | .gwait _ t _ _ _ _ => some t
  | .lease _ t _ _ _ _ => some t
  | .lrel _ t _ _ _ _ => some t
  | .mbpost _ _ _ _ _ => some 0
  | _ => none

/-! ### The M slot (R272 to R292) -/

/-- An M window over these rows and sectors of a group is served: no bank it touches is closed (R278), and none of its
cycles is used on the group. -/
def State.windowFree (s : State) (g first : Nat) (rows : List (BitVec 10)) (secs : List Nat) : Bool :=
  (secs.all fun k => !(vget s.core.sp.bank (bankOf (k * 128))).closed)
    && (rows.zipIdx first).all fun x =>
      !s.iss.uses.any fun u => decide (u.inCycles = x.2) && decide (u.bank.toNat / 2 = g)

/-- The port cycles of a window. -/
def windowUses (g first : Nat) (rows : List (BitVec 10)) : List PortUse :=
  (rows.zipIdx first).flatMap fun x =>
    [⟨x.2, BitVec.ofNat 3 (2 * g), x.1, true⟩, ⟨x.2, BitVec.ofNat 3 (2 * g + 1), x.1, true⟩]

/-- The window's cycles claimed. -/
def State.withWindow (s : State) (g first : Nat) (rows : List (BitVec 10)) : State :=
  { s with iss := { s.iss with uses := s.iss.uses ++ windowUses g first rows } }

/-- No sector is poisoned or tagged. -/
def State.plainSecs (s : State) (secs : List Nat) : Bool :=
  secs.all fun k => !setHas k s.core.sp.poison && !tagV (s.core.sp.tags.read k)

/-- Base and stride are multiples of the row length (R272). -/
def tileAligned (base stride len : Nat) : Bool := decide (base % len = 0) && decide (stride % len = 0)

/-- The slot of an MMA: R280. -/
def mmaSlot : Instr → Option MmaSlot
  | .mmaBf16Latch c l sh w b e k g h => some ⟨1, c, l, sh, w, b, e, k, g, h, false, 0⟩
  | .mmaBf16Bank c sh w b e k g h j => some ⟨1, c, 0, sh, w, b, e, k, g, h, true, j⟩
  | .mmaF16Latch c l sh w b e k g h => some ⟨2, c, l, sh, w, b, e, k, g, h, false, 0⟩
  | .mmaF16Bank c sh w b e k g h j => some ⟨2, c, 0, sh, w, b, e, k, g, h, true, j⟩
  | .mmaE4m3Latch c l sh w b e k g h => some ⟨3, c, l, sh, w, b, e, k, g, h, false, 0⟩
  | .mmaE4m3Bank c sh w b e k g h j => some ⟨3, c, 0, sh, w, b, e, k, g, h, true, j⟩
  | .mmaE5m2Latch c l sh w b e k g h => some ⟨4, c, l, sh, w, b, e, k, g, h, false, 0⟩
  | .mmaE5m2Bank c sh w b e k g h j => some ⟨4, c, 0, sh, w, b, e, k, g, h, true, j⟩
  | .mmaC4Latch c l sh w b e k g h => some ⟨5, c, l, sh, w, b, e, k, g, h, false, 0⟩
  | .mmaC4Bank c sh w b e k g h j => some ⟨5, c, 0, sh, w, b, e, k, g, h, true, j⟩
  | _ => none

/-- The format entry fits the instruction: its A type is the one named, and its B type has the same width (R62, R280). -/
def MmaSlot.fits (m : MmaSlot) (f : BitVec 16) : Bool :=
  decide (fmtA f = m.ty) && decide (widthClass (fmtB f) = widthClass m.ty)

/-- How the tags of the B sectors of a bank group are served: the form and all sectors read; none where the check refuses or
a sector is poisoned (R131, R283). -/
def State.servedB (s : State) (f : BitVec 16) (m : MmaSlot) (sh : Shape) (secs : List Nat) : Option (Nat × List Nat) :=
  let p : Presented := ⟨mReader m.op m.variant, false, mmaOk f m sh⟩
  let tags (l : List Nat) : List Byte := l.map fun k => s.core.sp.tags.read k
  let clean (l : List Nat) : Bool := l.all fun k => !setHas k s.core.sp.poison
  if !clean secs then none
  else
    match keptCheck s.ctx.kt p (tags secs) with
    | .fault _ _ => none
    | .untagged => some (6, secs)
    | .carried _ => some (6, secs)
    | .served e _ =>
      if ktForm e = 4 then
        let all := setAdd ((m.groupB.toNat * 2 ^ 18 + shAt sh 465 448) / 128) secs
        match keptCheck s.ctx.kt p (tags all) with
        | .fault _ _ => none
        | .untagged => if clean all then some (4, all) else none
        | .carried _ => if clean all then some (4, all) else none
        | .served _ _ => if clean all then some (4, all) else none
      else some (ktForm e, secs)

/-- Conditions of an MMA: no hold, the format fits, accumulator and latch intact, the tiles aligned, the windows served, the A
sectors plain. -/
def State.mmaMay (s : State) (m : MmaSlot) : Bool :=
  let f := s.core.fmtEntry
  let sh := s.mx m.shape
  let ta := aShape m.ty
  let tb := bShape (fmtB f)
  let secsA := tileSectors m.groupA.toNat (shAt sh 17 0) (shAt sh 49 32) ta
  s.core.held.isNone && s.active && (s.mmaHold f m).isNone && m.fits f
    && s.intact 3 m.acc.toNat && (m.bank || s.intact 3 (4 + m.latch.toNat))
    && tileAligned (shAt sh 17 0) (shAt sh 49 32) ta.width
    && (!m.bank || tileAligned (shAt sh 81 64) (shAt sh 113 96) tb.width)
    && s.windowFree m.groupA.toNat 0 (groupRows (shAt sh 17 0) (shAt sh 49 32) ta) secsA
    && s.plainSecs secsA

/-- The group rows of A that an MMA's window reads. -/
def State.mmaRowsA (s : State) (m : MmaSlot) : List (BitVec 10) :=
  groupRows (shAt (s.mx m.shape) 17 0) (shAt (s.mx m.shape) 49 32) (aShape m.ty)

/-- The group rows of B: the tile's, and under CODE8 the row of its scale sector (R283). -/
def State.mmaRowsB (s : State) (m : MmaSlot) (form : Nat) : List (BitVec 10) :=
  let sh := s.mx m.shape
  let base := groupRows (shAt sh 81 64) (shAt sh 113 96) (bShape (fmtB s.core.fmtEntry))
  let row : BitVec 10 := BitVec.ofNat 10 (shAt sh 465 448 / 256)
  if form = 4 && !base.any (fun r => decide (r = row)) then base ++ [row] else base

end Sys2Proof.Machine
end

