-- ==== Sys2Proof/Certificates/Slice0/Obligations.lean ====
section
/-! DEFINITION. The statements for the provers. Each docstring names the rule of spec/ that the statement formalises. -/

open Sys2Proof Sys2Proof.Machine

/-! ### The machine as a whole -/

/-- The memories of the state after reset are in canonical form (log entry 1, the model's own representation). -/
def Obligations.ResetMemoryCanonical : Prop := State.reset.memWf = true

/-- The values given for reset (R52, R54, R64, R65, R68, R69, R161, R39): registers zero but for p0 and lfs, tokens DONE,
queues and mask stacks empty, and last[p] at 63. That the scratchpad is zero before its first task is the model's choice
(log entry 2). -/
def Obligations.ResetRegisters : Prop :=
  (∀ k : CoreKey,
    let c := State.reset.getCore k
    (∀ r, c.rs r = 0) ∧ (∀ p, c.rp p = decide (p = 0)) ∧ (∀ n, n < 32 → vget c.regs.ac n = 0) ∧ (∀ t, c.pending t = false)
      ∧ c.regs.flg = 0 ∧ c.regs.mxc = 0 ∧ (∀ l, l < 64 → vget c.regs.lfs l = BitVec.ofNat 32 (l + 1))
      ∧ (∀ q, q < 16 → c.queue q = []) ∧ (∀ b, c.mask b = []) ∧ (∀ a, a < 4 → vget c.mx.acc a = 0)
      ∧ (∀ a, c.sp.mem.read a = 0) ∧ c.held = none ∧ c.stop = none)
  ∧ ∀ f p, f < 30 → p < 4 → vget (vget State.reset.fens f).last p = 63

/-- Every step keeps every memory of the package in canonical form. -/
def Obligations.StepKeepsMemoryCanonical : Prop :=
  ∀ s t : State, s.memWf = true → step s = .next t → t.memWf = true

/-- Every well-formed slot instruction has a word, and decoding it in a slot of its class gives the instruction back, with
every operand (R192 to R211). -/
def Obligations.DecodeOfEncode : Prop :=
  ∀ (i : Instr) (cls : SlotClass), wellFormed i = true → classOf i = some cls →
    ∃ w : SlotWord, encode i = some w ∧ decode cls w = .instr i

/-- Words written out from the encodings of R198 to R211, each read in a slot of its class. -/
def Obligations.DecodeWords : Prop :=
  decode .s 0x263278 = .instr (.addi 3 4 0x1E 0) ∧ decode .s 0x443214 = .instr (.cmplt 3 4 5 0)
    ∧ decode .v 0x883010 = .instr (.vaddBf16 3 0 1 0 0 0 0) ∧ decode .m 0x081800 = .instr (.mmaBf16Latch 0 0 0 1 1 0 0 0 0)
    ∧ decode .c 0x040000 = .instr (.lds 0 0 0 0 0) ∧ decode .c 0x218000 = .instr (.ldg 1 2 0 0 0 0)
    ∧ decode .l 0x04BFFD = .instr (.b 2 0x3FFD) ∧ decode .l 0x740000 = .instr .done
    ∧ decode .k 0x060000 = .instr (.kctl 0 0 0 1) ∧ decode .k 0 = .instr .nop

/-- A cycle of a core that runs, has nothing late and is not stopped takes the faults of the stores that are due, where there are any;
with none it fetches the bundle at its pc, or takes up the one that a hold
kept, and runs its slots; a slot whose word decodes to an instruction runs that instruction's meaning, once the errors of the
state it reads are noted; the bundle then commits, holds, freezes or stops (R45, R46, R189, R191, R192, R299, R334). -/
def Obligations.StepRunsBundle : Prop :=
  (∀ (s u : State) (k : CoreKey) (rest : List Turn) (b : Bundle),
    s.agenda = .issue k :: rest →
    let z := ({ s with agenda := rest } : State).focus k
    let v := z.dueStores
    z.core.status = .running → z.core.stop = none → z.saveHolds = false →
    v.core.landDue.dfFault = none → v.core.landDue.lateLoad = false →
    ({ v with core := v.core.landDue.tablesReady } : State).nextBundle = .ok (b, u) →
    step s = andThen ((slotOrder b).foldl (fun o n => andThen o fun x => x.runSlot n (slotWord b n)) (.next u.beginIssue))
      fun x => .next (({ u with core := u.core.keepBundle b x.iss } : State).finishIssue x))
  ∧ (∀ s : State, (∀ j ∈ s.core.pipes.inflight, j.rem = 0 → ∀ id, j.what ≠ .stored id) → s.dueStores = s)
  ∧ ∀ (s : State) (n : Nat) (w : SlotWord) (i : Instr),
    let u : State := { s with iss := { s.iss with slot := n, word := w } }
    (s.core.newt && newtIllegal n w) = false → decode (slotClass n) w = .instr i →
    s.runSlot n w = exec i (u.readsCore i) ∧ (s.core.errs = [] → s.runSlot n w = exec i u)

/-- A bundle whose only nonzero slot holds one instruction: its cycle is that instruction's meaning on the fetched state,
followed by the end of the bundle (R189, R191, R192: a zero slot is NOP). No state of the core is in error. -/
def Obligations.StepRunsOneInstruction : Prop :=
  ∀ (s u : State) (k : CoreKey) (rest : List Turn) (b : Bundle) (n : Nat) (i : Instr),
    s.agenda = .issue k :: rest →
    let z := ({ s with agenda := rest } : State).focus k
    let v := z.dueStores
    z.core.status = .running → z.core.stop = none → z.saveHolds = false →
    v.core.landDue.dfFault = none → v.core.landDue.lateLoad = false →
    ({ v with core := v.core.landDue.tablesReady } : State).nextBundle = .ok (b, u) → u.core.errs = [] →
    n < 8 → (∀ m, m < 8 → m ≠ n → slotWord b m = 0) →
    (u.core.newt && newtIllegal n (slotWord b n)) = false → decode (slotClass n) (slotWord b n) = .instr i →
    step s = andThen (exec i { u.beginIssue with iss := { u.beginIssue.iss with slot := n, word := slotWord b n } })
      fun x => .next (({ u with core := u.core.keepBundle b x.iss } : State).finishIssue x)

/-- A reserved slot value takes ILLEGAL and a reserved operand FLT_ENC, unless its other fields are ILLEGAL here besides, which
comes first; and nothing else happens in the slot; on a newt every nonzero V or M slot is ILLEGAL (R71, R192, R193, R212,
R251). -/
def Obligations.ReservedSlotFaults : Prop :=
  ∀ (s : State) (n : Nat) (w : SlotWord),
    let u : State := { s with iss := { s.iss with slot := n, word := w } }
    ((s.core.newt && newtIllegal n w) = false →
      (decode (slotClass n) w = .illegal → s.runSlot n w = .next u.illegal)
        ∧ (decode (slotClass n) w = .enc →
          s.runSlot n w = .next (if u.illegalToo (slotClass n) w then u.illegal else u.encFault)))
    ∧ (s.core.newt = true → w ≠ 0 → (n = 1 ∨ n = 2 ∨ n = 3) → s.runSlot n w = .next u.illegal)

/-- Before its bundle commits, no slot instruction changes memory, tags, poison, a page of host memory, a register, a
predicate, a counter, the pc, the loop sequencer, the status of a core, or a byte of its scratchpad (R191, R193). -/
def Obligations.SlotInstructionFrame : Prop :=
  ∀ (i : Instr) (s t : State), (classOf i).isSome = true → exec i s = .next t →
    t.mem = s.mem ∧ t.tags = s.tags ∧ t.poison = s.poison ∧ t.flaws = s.flaws ∧ t.hostMem = s.hostMem
      ∧ t.core.regs = s.core.regs
      ∧ t.core.pc = s.core.pc ∧ t.core.scyc = s.core.scyc ∧ t.core.loop = s.core.loop ∧ t.core.status = s.core.status
      ∧ t.core.sp.mem = s.core.sp.mem ∧ t.core.sp.tags = s.core.sp.tags ∧ t.core.sp.poison = s.core.sp.poison
      ∧ t.core.held = s.core.held ∧ t.core.stop = s.core.stop ∧ t.dies = s.dies ∧ t.pkg = s.pkg ∧ t.ports = s.ports
      ∧ t.ready = s.ready ∧ t.seq = s.seq

/-- The first fault of a bundle stops the core before it: nothing of the bundle commits, and one record of the stop
becomes ready, or waits for room on its die. A bundle that would raise the count of a queue above four entries takes FLT_QOF; of
several such queues, naming the one whose lowest pushing slot comes first. Of that fault and another the lower rank comes first,
then the lower slot (R58, R193, R333, R337, R338). -/
def Obligations.FaultStopsBeforeBundle : Prop :=
  (∀ (base s : State) (f : SlotFault),
    s.iss.hold = none → s.iss.claim = false → s.iss.overflow = none → s.iss.fault = some f →
    let r := base.core.record 0 f.code.toNat f.cause.toNat f.repl f.slot f.info0 (s.iss.qInfo f)
    base.finishIssue s = { base.recorded r with
      core := base.core.stoppedAt base.seq
      iss := Issue.reset
      await := base.await ++ [⟨base.seq, base.core.ctx, .core base.core.key, r⟩] })
  ∧ ∀ (base s : State) (q : Nat),
    let full (r : Nat) : Prop := vget s.iss.pops r + 4 < vget s.iss.occ r + vget s.iss.pushes r
    q < 16 → s.iss.hold = none → full q →
    (∀ r, r < 16 → full r → vget s.iss.pushSlot q ≤ vget s.iss.pushSlot r
      ∧ (r < q → vget s.iss.pushSlot q < vget s.iss.pushSlot r)) →
    ∃ f : SlotFault, f.code = 0x04 ∧ f.cause = 0 ∧ f.slot = vget s.iss.pushSlot q ∧ f.info0 = BitVec.ofNat 64 q
      ∧ (s.iss.fault = none → base.finishIssue s = State.stopAt base s.iss f)
      ∧ ∀ g : SlotFault, s.iss.fault = some g →
        (3 < g.rank ∨ (g.rank = 3 ∧ f.slot < g.slot) → base.finishIssue s = State.stopAt base s.iss f)
        ∧ (g.rank < 3 ∨ (g.rank = 3 ∧ g.slot < f.slot) → base.finishIssue s = State.stopAt base s.iss g)

/-- A bundle that holds on a wait changes no register, queue or byte of memory: the schedule cycle passes and the same
bundle, as it was fetched, issues again (R44, R231, R334). -/
def Obligations.HeldBundleReissues : Prop :=
  ∀ (base s : State) (w : Wait) (b : Bundle), s.iss.hold = some w →
    let k : State := { base with core := base.core.keepBundle b s.iss }
    let t := k.finishIssue s
    t.core.pc = base.core.pc ∧ t.core.regs = base.core.regs ∧ t.core.vs = base.core.vs ∧ t.core.sp = base.core.sp
      ∧ t.core.loop = base.core.loop ∧ t.core.stop = base.core.stop ∧ t.mem = base.mem ∧ t.tags = base.tags
      ∧ t.ready = base.ready ∧ t.iss = Issue.reset ∧ t.nextBundle = .ok (b, t)

/-- A bundle that commits without transfer, loop or trap is followed by the bundle 24 bytes on (R190). One whose transfer is taken is
followed by its target; outside handler mode the levels whose body does not hold the target end, and those of a LOOPP with their stage
predicates and pass counts; the others stand as they were, and in handler mode all of them do (R190, R225, R240). Past the top of the
space the 24 bytes are taken modulo 2^57, and a body holds every address from its first bundle to its last (log entries 138 and 140, the
model's choices). -/
def Obligations.NextBundleFollows : Prop :=
  ∀ (base s : State),
    s.iss.hold = none → s.iss.claim = false → s.iss.overflow = none → s.iss.fault = none → s.iss.freeze = none →
    s.iss.trap = none → s.iss.tret = false → s.iss.done = false →
    let d := (base.finishIssue s).core
    (s.iss.next = none → s.iss.loopReq = none → s.core.anyLevel = false → d.pc = s.core.pc + 24)
    ∧ ∀ t, s.iss.next = some t →
      d.pc = t ∧ (s.core.held.isSome = true → d.loop = s.core.loop)
        ∧ (s.core.held = none →
          (∀ l, l < 6 → let v := vget s.core.loop.lv l
            (vget d.loop.lv l).active = (v.active && decide (v.first ≤ t) && decide (t ≤ v.last))
              ∧ ((vget d.loop.lv l).active = true → vget d.loop.lv l = v))
          ∧ ((∀ l, l < 6 → let v := vget s.core.loop.lv l
              v.active = true → v.piped = true → v.first ≤ t ∧ t ≤ v.last) →
            d.loop.sg = s.core.loop.sg ∧ d.loop.plc = s.core.loop.plc ∧ d.loop.pec = s.core.loop.pec)
          ∧ ∀ l, l < 6 → let v := vget s.core.loop.lv l
            v.active = true → v.piped = true → ¬(v.first ≤ t ∧ t ≤ v.last) →
            d.loop.sg = 0 ∧ d.loop.plc = 0 ∧ d.loop.pec = 0)

/-- A register write lands in its register alone, and to s0 it is discarded; p0 likewise (R53, R54, R57). A compare's mask is pushed on
its slot's stack (R229). A store lands at its local offset: its bytes there, no tag in the sectors it touches and no poison in those it
covers, and every other byte, tag and poisoned sector as before; so far as no bank it writes is a FIFO (R99, R132, R147, R300, R362). -/
def Obligations.RegisterWriteLands : Prop :=
  ∀ (c : Core),
    (∀ (d r : BitVec 5) (v : Word), (c.land (.sreg d v)).rs r = if r = d ∧ r ≠ 0 then v else c.rs r)
      ∧ (∀ (d r : BitVec 3) (v : Bool), (c.land (.pred d v)).rp r = if r = d ∧ r ≠ 0 then v else c.rp r)
      ∧ (∀ v, c.land (.sreg 0 v) = c) ∧ (∀ v, c.land (.pred 0 v) = c) ∧ c.rs 0 = 0 ∧ c.rp 0 = true
      ∧ (∀ (v : Bool) (m : BitVec 64), (c.land (.maskPush v m)).mask v = m :: c.mask v
        ∧ (c.land (.maskPush v m)).mask (!v) = c.mask (!v) ∧ (c.land (.maskPush v m)).regs = c.regs
        ∧ (c.land (.maskPush v m)).sp = c.sp)
      ∧ ∀ (a : Nat) (bs : List Byte),
        let o := a % c.spSize
        let d := c.land (.spWrite a bs)
        c.sp.wf = true → (∀ x, o ≤ x → x < o + bs.length → c.sp.isFifo x = false) →
        (∀ x, d.sp.mem.read x = if o ≤ x ∧ x < o + bs.length then bs.getD (x - o) 0 else c.sp.mem.read x)
          ∧ (∀ k, d.sp.tags.read k
            = if bs ≠ [] ∧ o < 128 * (k + 1) ∧ 128 * k < o + bs.length then 0 else c.sp.tags.read k)
          ∧ (∀ k, setHas k d.sp.poison
            = (setHas k c.sp.poison && !decide (o ≤ 128 * k ∧ 128 * (k + 1) ≤ o + bs.length)))
          ∧ d.sp.bank = c.sp.bank ∧ d.sp.fifo = c.sp.fifo ∧ d.regs = c.regs ∧ d.vs = c.vs ∧ d.pc = c.pc

/-- A result whose cycles are over lands when the core's cycle begins, and one with cycles left waits (R57, R213): a scalar register, a
predicate, a mask, a store, which waits while a FIFO bank that it writes is full (R105), and pushes, of which two of one slot land in the
order of issue (log entry 133, the model's choice). A schedule cycle brings every result one
cycle nearer and counts the cycle, except in handler mode (R46, R164, R241). -/
def Obligations.ResultLandsWhenDue : Prop :=
  (∀ (c : Core) (d : BitVec 5) (v : Word) (slot n : Nat) (l : List Inflight),
    c.pipes.inflight = ⟨0, slot, n, .sreg d v⟩ :: l → slot < 8 → (∀ i ∈ l, i.rem ≠ 0) →
    c.landDue = { c.ws d v with pipes := { c.pipes with inflight := l } })
  ∧ (∀ (c : Core) (w : Landing) (slot n : Nat) (l : List Inflight),
    c.pipes.inflight = ⟨0, slot, n, w⟩ :: l → slot < 8 → (∀ i ∈ l, i.rem ≠ 0) →
    (∀ d v, w = .pred d v → c.landDue = { c.wp d v with pipes := { c.pipes with inflight := l } })
    ∧ (∀ v m, w = .maskPush v m → c.landDue = { c.setMask v (m :: c.mask v) with pipes := { c.pipes with inflight := l } })
    ∧ ∀ a bs, w = .spWrite a bs →
      (c.storeWaits a bs.length = false → c.landDue.sp = (c.land (.spWrite a bs)).sp ∧ c.landDue.pipes.inflight = l
        ∧ c.landDue.regs = c.regs ∧ c.landDue.vs = c.vs ∧ c.landDue.pc = c.pc)
      ∧ (c.storeWaits a bs.length = true → c.landDue = c ∧ c.lateLoad = true))
  ∧ (∀ (c : Core), c.tick.scyc = (if c.held.isSome then c.scyc else c.scyc + 1)
    ∧ c.tick.pipes.inflight = c.pipes.inflight.map (fun i => { i with rem := i.rem - 1 })
    ∧ c.tick.regs = c.regs ∧ c.tick.pc = c.pc ∧ c.tick.vs = c.vs ∧ c.tick.sp = c.sp)
  ∧ ∀ (c : Core) (q : Nat), q < 16 → (∀ i ∈ c.pipes.inflight, i.slot < 8) → c.dueLoads.Nodup →
    c.landDue.queue q = c.queue q ++ (((c.pushesDue q).takeWhile fun w => !c.lateFor w).flatMap fun w => c.entriesTo q w)

/-- R57: a push enters its queue when its result lands, and not before; pushes of one queue that land in one cycle enter in
slot order, behind those of earlier cycles, whatever their slot order. A due load whose data has not arrived has not landed
(R46), and holds the pushes behind it. -/
def Obligations.PushesEnterInOrder : Prop :=
  ∀ (c : Core) (q : Nat), q < 16 → (∀ i ∈ c.pipes.inflight, i.slot < 8) → c.dueLoads.Nodup →
    (∃ l : List Inflight, l.Perm (c.pipes.inflight.filter fun i => decide (i.rem = 0) && pushesTo q i.what)
      ∧ l.Pairwise (fun i j => i.slot ≤ j.slot)
      ∧ c.landDue.queue q = c.queue q ++ (((l.map (·.what)).takeWhile fun w => !c.lateFor w).flatMap fun w => c.entriesTo q w))
    ∧ (c.landDue.pipes.inflight.filter fun i => decide (i.rem ≠ 0)) = c.pipes.inflight.filter fun i => decide (i.rem ≠ 0)
    ∧ (c.lateNow = false → (c.landDue.pipes.inflight.filter fun i => decide (i.rem = 0) && i.what.isResult) = [])

/-- A TRAP with a handler enters handler mode at THND + 192 · code, holding the results in flight; TRET releases them as they
were and the bundle after the TRAP issues. With no handler, or in handler mode, it stops the core with a TRAP record that
holds the code (R239, R240, R241, R333). THND's bits [56:0] are taken as they stand (log entry 103, the model's choice). -/
def Obligations.TrapEntryAndReturn : Prop :=
  ∀ (s : State) (code : Byte),
    let thnd : Addr := s.ctx.thnd.extractLsb' 0 57
    (s.core.held = none → thnd ≠ 0 →
      (s.takeTrap code).core.pc = thnd + BitVec.ofNat 57 (192 * code.toNat)
        ∧ (s.takeTrap code).core.pipes.inflight = []
        ∧ (s.takeTrap code).core.held = some ⟨s.core.pipes.inflight, s.core.pipes.uses, s.core.pipes.wins, s.core.pc⟩
        ∧ (s.takeTrap code).core.regs = s.core.regs ∧ (s.takeTrap code).core.vs = s.core.vs
        ∧ (s.takeTrap code).mem = s.mem
        ∧ (s.takeTrap code).core.leaveHandler = s.core)
    ∧ ((thnd = 0 ∨ s.core.held.isSome = true) →
      let r := s.core.record 0 0x20 0 false 6 (code.setWidth 64) 0
      s.takeTrap code = { s.recorded r with
        core := s.core.stoppedAt s.seq
        await := s.await ++ [⟨s.seq, s.core.ctx, .core s.core.key, r⟩] })

/-! ### The S slot -/

/-- R215 to R217: an S instruction whose predicate is true and whose bundle is not gated off has one result in flight,
the value of its rule, which lands after its latency; otherwise it does nothing. -/
def Obligations.ScalarResults : Prop :=
  ∀ (s : State) (i : Instr) (p : BitVec 2) (lat : Nat) (w : Landing), sWrites s i = some (p, lat, w) →
    (s.activeS p = true → exec i s = .next { s with iss := { s.iss with newInfl := s.iss.newInfl ++ [⟨lat, s.iss.slot, s.core.pipes.bundleNo, w⟩] } })
    ∧ (s.activeS p = false → exec i s = .next s)

/-- SHW and AGW: the write lands at the end of the issue cycle (R218, R219), where the predicate is true. An SHW then replaces one
field of the shadow copy of its register, and nothing else of any copy (R63). An AGW writes the current set of an idle generator and the
pending set of one that walks; LEVELS from 1 to 6 starts the walk of an idle one, whose pending set becomes a copy of the current one, and
arms one that walks. A walk without a level that counts has ended as it starts, and a LEVELS of 0 or 7 leaves an armed set armed (log
entries 127 and 139, the model's choices). -/
def Obligations.FieldWrites : Prop :=
  (∀ (s : State) (p : BitVec 2),
    (∀ r a f : BitVec 5, (s.core.newt = true → 4 ≤ r) →
      (s.activeS p = true → exec (.shw r a f p) s = .next { s with iss := { s.iss with
        eoc := s.iss.eoc ++ [.shw r.toNat f.toNat ((s.core.rs a).setWidth 32)] } })
      ∧ (s.activeS p = false → exec (.shw r a f p) s = .next s))
      ∧ (∀ (g : BitVec 2) (l : BitVec 3) (a f : BitVec 5), s.core.newt = false →
        (s.activeS p = true → exec (.agw g l a f p) s = .next { s with iss := { s.iss with
          eoc := s.iss.eoc ++ [.agw g l.toNat f.toNat (s.core.rs a)] } })
        ∧ (s.activeS p = false → exec (.agw g l a f p) s = .next s))
      ∧ (∀ r a f : BitVec 5, s.core.newt = true → r < 4 → exec (.shw r a f p) s = .next s.illegal)
      ∧ (∀ (g : BitVec 2) (l : BitVec 3) (a f : BitVec 5), s.core.newt = true → exec (.agw g l a f p) s = .next s.illegal))
  ∧ (∀ (s : State) (r f : Nat) (v : BitVec 32), r < 12 → f < 16 →
    let c := (s.applyEoc (.shw r f v)).core
    (∀ q, q < 12 → (c.shapeReg q).active = (s.core.shapeReg q).active)
      ∧ (∀ q, q < 12 → q ≠ r → (c.shapeReg q).shadow = (s.core.shapeReg q).shadow)
      ∧ (c.shapeReg r).shadow.extractLsb' (32 * f) 32 = v
      ∧ (∀ g, g < 16 → g ≠ f →
        (c.shapeReg r).shadow.extractLsb' (32 * g) 32 = (s.core.shapeReg r).shadow.extractLsb' (32 * g) 32)
      ∧ c.regs = s.core.regs ∧ c.vs = s.core.vs ∧ c.sp = s.core.sp ∧ c.mx = s.core.mx ∧ c.pipes = s.core.pipes)
  ∧ ∀ (s : State) (g : BitVec 2) (l f : Nat) (v : Word), l < 6 → f < 5 →
    let a := vget s.core.vs.ag g.toNat
    let c := (s.applyEoc (.agw g l f v)).core
    let x := vget c.vs.ag g.toNat
    let n := v.toNat % 8
    let y (p : AgParams) : AgLevel := vget p.lv l
    let put (p : AgParams) : AgParams :=
      if f = 0 then { p with base := v.setWidth 20 } else if f = 1 then { p with levels := v.setWidth 3 }
      else { p with lv := vset p.lv l (if f = 2 then { y p with count := v.setWidth 16 }
        else if f = 3 then { y p with stride := v.setWidth 20 } else { y p with pos := v.setWidth 16 }) }
    (a.walking = true → x = { a with pend := put a.pend, armed := a.armed || decide (f = 1 ∧ 1 ≤ n ∧ n ≤ 6) })
      ∧ (a.walking = false → ¬(f = 1 ∧ 1 ≤ n ∧ n ≤ 6) → x = { a with cur := put a.cur })
      ∧ (a.walking = false → f = 1 → 1 ≤ n → n ≤ 6 →
        ((∃ k, k < n ∧ (vget a.cur.lv k).count ≠ 0) → x = ⟨put a.cur, put a.cur, false, true⟩)
        ∧ ((∀ k, k < n → (vget a.cur.lv k).count = 0) → x.walking = false ∧ x.armed = false
          ∧ ∀ k, k < 6 → vget x.cur.lv k = { vget a.cur.lv k with pos := 0 }))
      ∧ (∀ h, h < 4 → h ≠ g.toNat → vget c.vs.ag h = vget s.core.vs.ag h)
      ∧ c.regs = s.core.regs ∧ c.vs.q = s.core.vs.q ∧ c.sp = s.core.sp ∧ c.mx = s.core.mx ∧ c.pipes = s.core.pipes

/-- CRR and CRW: a control register of this core is read into a scalar register after one cycle, or written at the end of the
cycle; where the predicate is false nothing happens, and the number of no register of this kind of core is ILLEGAL (R200, R220). Writes
follow the fields' access codes: FLG bits clear where ones are written, MXC is replaced, FE and FL of CST are written, RERR bits of BKM
clear where ones are written and its other fields stay, p0 stays true, DISC and ZERO of LNCHST are written and its OVF clears where a one
is, of WLKST XDEC alone is written, and of an entry of the reader table all but its reserved bits (R7, R36, R69, R70, R102, R124, R160). -/
def Obligations.ControlRegisters : Prop :=
  (∀ (s : State) (p : BitVec 2),
    (∀ (d : BitVec 5) (n : BitVec 10) (r : CReg), s.creg n = some r →
      (s.activeS p = true → exec (.crr d n p) s = .next { s with iss := { s.iss with
        newInfl := s.iss.newInfl ++ [⟨1, s.iss.slot, s.core.pipes.bundleNo, .sreg d (s.cregRead r)⟩] } })
      ∧ (s.activeS p = false → exec (.crr d n p) s = .next s))
      ∧ (∀ (c a e : BitVec 5) (r : CReg), s.creg (c ++ e) = some r →
        (s.activeS p = true →
          exec (.crw c a e p) s = .next { s with iss := { s.iss with eoc := s.iss.eoc ++ [.crw (c ++ e) (s.core.rs a)] } })
        ∧ (s.activeS p = false → exec (.crw c a e p) s = .next s))
      ∧ (∀ (d : BitVec 5) (n : BitVec 10), s.creg n = none → exec (.crr d n p) s = .next s.illegal)
      ∧ (∀ c a e : BitVec 5, s.creg (c ++ e) = none → exec (.crw c a e p) s = .next s.illegal)
      ∧ ∀ (n : BitVec 10) (r : CReg) (v : Word), s.creg n = some r → s.applyEoc (.crw n v) = s.cregWrite r v)
  ∧ ∀ (s : State) (v : Word),
    (s.cregWrite .flg v).core.regs.flg = s.core.regs.flg &&& ~~~(v.setWidth 7)
      ∧ (s.cregWrite .mxc v).core.regs.mxc = v
      ∧ (s.cregWrite .cst v).core.regs.fe = v.getLsbD 4 ∧ (s.cregWrite .cst v).core.regs.fl = v.extractLsb' 1 3
      ∧ (∀ k, k < 8 → vget (s.cregWrite .bkm v).core.sp.bank k
        = { vget s.core.sp.bank k with rerr := (vget s.core.sp.bank k).rerr && !v.getLsbD (8 * k + 7) })
      ∧ (∀ k, k < 8 → (s.cregWrite .prd v).core.rp (BitVec.ofNat 3 k) = (decide (k = 0) || v.getLsbD k))
      ∧ ((s.cregWrite .lnchst v).ctx.lnchst).extractLsb' 16 48 = v.extractLsb' 16 48
      ∧ ((s.cregWrite .lnchst v).ctx.lnchst).extractLsb' 1 15 = 0
      ∧ ((s.cregWrite .lnchst v).ctx.lnchst).getLsbD 0 = (s.ctx.lnchst.getLsbD 0 && !v.getLsbD 0)
      ∧ ((s.cregWrite .wlkst v).ctx.wlkst).extractLsb' 32 32 = v.extractLsb' 32 32
      ∧ ((s.cregWrite .wlkst v).ctx.wlkst).extractLsb' 0 32 = s.ctx.wlkst.extractLsb' 0 32
      ∧ ∀ k j, k < 16 → j < 16 → vget (s.cregWrite (.kt k) v).ctx.kt j
        = if j = k then v.setWidth 32 &&& 0xFFFFFF01 else vget s.ctx.kt j

/-! ### The V slots -/

/-- R252 and R253: two-operand arithmetic completes with the value and flags of each enabled element. -/
def Obligations.VectorArithmetic : Prop :=
  ∀ (s : State) (i : Instr) (r : VRun), vBinary s i = some r → s.active = true → r.portOpen = true → r.completes i s

/-- R252, R255, R256, R257, R262, R267 and R268: one-operand operations, VMOV, VLFRD, VFMA, VSEL and the movements of lanes. -/
def Obligations.VectorLanewise : Prop :=
  ∀ (s : State) (i : Instr) (r : VRun), (vUnary s i = some r ∨ vLanewise s i = some r) → s.active = true →
    r.portOpen = true → r.completes i s

/-- R83, R88, R260 and R261: conversions and quantization, with one LFSR step of its lane for each enabled element under
stochastic rounding. -/
def Obligations.VectorConversions : Prop :=
  ∀ (s : State) (i : Instr) (r : VRun), (vConversion s i = some r ∨ vQuant s i = some r) → s.active = true →
    r.portOpen = true → r.completes i s

/-- R258, R259, R263 and R264 to R266: VAMAX, VRSUM and VMPOOL, and the backward readers under each form that serves them. -/
def Obligations.VectorReductionsAndReaders : Prop :=
  ∀ (s : State) (i : Instr) (r : VRun), (vReduction s i = some r ∨ vBackward s i = some r) → s.active = true →
    r.portOpen = true → r.completes i s

/-- R229 and R254: a compare pushes one mask, bit L set where lane L is enabled and the comparison holds of all its elements,
two cycles later; the bundle counts it toward the stack's depth. -/
def Obligations.VectorCompares : Prop :=
  ∀ (s s1 s2 : State) (i : Instr) (ty : ElTy) (cond : Nat → Nat → Bool) (a b : BitVec 4) (x y m c : BitVec 1) (as : List Vec)
    (bv : Vec),
    vCompare i = some (ty, cond, (a, b), (x, y, m, c)) → s.active = true → s.vIn a = true → (c = 1 ∨ s.vIn b = true) →
    s.plainReads a (decide (x = 1)) 1 = some (as, s1) → s1.plainB ty b y c = some (bv, s2) →
    (s.core.mask s.v1).length + s.core.inflightMasks s.v1 + s.iss.compares s.v1 < 8 →
    ∃ mask : BitVec 64,
      exec i s = .next (({ s2 with iss := if s.v1 then { s2.iss with compares1 := s2.iss.compares1 + 1 }
        else { s2.iss with compares0 := s2.iss.compares0 + 1 } }).result 2 (.maskPush s.v1 mask))
      ∧ ∀ l, l < 64 → mask.getLsbD l = ((s.vLanes m).getLsbD l
          && (List.range (32 / ty.w)).all fun j =>
            cond (elem ty.w (as.headD 0) (32 / ty.w * l + j)) (elem ty.w bv (32 / ty.w * l + j)))

/-- A V instruction that names a queue its slot may not use takes ILLEGAL whatever its guard, and one whose guard is false
does nothing (R54, R55, R193, R251). -/
def Obligations.VectorRolesAndGuards : Prop :=
  ∀ (s : State) (i : Instr), (vRoles s i = some false → exec i s = .next s.illegal)
    ∧ (vRoles s i = some true → s.active = false → exec i s = .next s)

/-- VXMOV carries an entry with its tag to the other cluster, VLFWR writes the LFSRs of the enabled lanes, and VDEC pushes one
decoded symbol a lane of the port's buffers (R267 to R269). -/
def Obligations.VectorMovesAndDecode : Prop :=
  ∀ (s s1 : State) (a d : BitVec 4) (x m : BitVec 1), s.active = true →
    (∀ e : QEntry, ownQ s.v1 a = true → ownQ (!s.v1) d = true → s.afterReads a (decide (x = 1)) 1 = some ([e], s1) →
      exec (.vxmov d a x m) s = .next (s1.pushQ 2 d.toNat [⟨e.v, e.tag, none⟩]))
    ∧ (∀ v : Vec, s.vIn a = true → s.plainReads a (decide (x = 1)) 1 = some ([v], s1) →
      ∃ l : Vector (BitVec 32) 64, exec (.vlfwr a x m) s = .next { s1 with iss := { s1.iss with lfs := l } }
        ∧ ∀ k, k < 64 → vget l k = if (s.vLanes m).getLsbD k then BitVec.ofNat 32 (elem 32 v k) else vget s.iss.lfs k)
    ∧ (inPort a = true → s.vOut d = true → (outPort d = true → (vget s.core.vs.ag (d.toNat - 12)).walking = true) →
      (∀ k, k < 64 → (s.vLanes m).getLsbD k = true → 32 ≤ (vget (vget s.core.vs.vdec (a.toNat - 12)).bufs k).len) →
      ∃ (v : Vec) (fl : BitVec 7) (bs : Vector VBuf 64),
        exec (.vdec d a x m) s = .next (({ s with
          core := { s.core with vs := { s.core.vs with
            vdec := vset s.core.vs.vdec (a.toNat - 12) ⟨bs, (vget s.core.vs.vdec (a.toNat - 12)).next⟩ } }
          iss := { s.iss with flg := s.iss.flg ||| fl } } : State).pushQ 6 d.toNat [⟨v, 0, none⟩])
        ∧ ∀ k, k < 64 →
          let b := vget (vget s.core.vs.vdec (a.toNat - 12)).bufs k
          (elem 32 v k = if (s.vLanes m).getLsbD k then b.symbol.1 % 2 ^ 32 else 0)
            ∧ vget bs k = if (s.vLanes m).getLsbD k then b.symbol.2.2 else b)

/-! ### The C slots -/

/-- R298 to R301: the local loads read the scratchpad at issue and push, or copy, after their fixed latency. -/
def Obligations.LocalLoads : Prop :=
  ∀ (s : State) (n : BitVec 2) (x y : BitVec 4) (w : BitVec 1) (z : BitVec 3),
    let sh := s.ksh n
    let a := s.localA sh
    let u := s.follows x y z
    s.active = true → s.tokensDone x y z = true → lvBad sh = false →
    (qOf sh ≤ 11 → a % 256 = 0 → s.mayRead false a 256 = true →
      exec (.lds n x y w z) s = .next (((u.afterLoad a 256).pushQ 6 (qOf sh)
        [⟨vecOfBytes (s.core.sp.read a 256).1.bytes, 0, none⟩]).swapK n w))
    ∧ (qOf sh ≤ 11 → a % 256 = 0 → s.mayRead true a 256 = true →
      exec (.ldsk n x y w z) s = .next (((u.afterLoad a 256).pushQ 6 (qOf sh)
        [⟨vecOfBytes (s.core.sp.read a 256).1.bytes, agreedTag (s.core.sp.read a 256).1.tags, none⟩]).swapK n w))
    ∧ (fld sh 143 141 ≤ 5 →
      let len := 8 * 2 ^ fld sh 143 141
      let d := fld sh 179 160 % s.core.spSize
      a % len = 0 → d % len = 0 → s.mayRead false a len = true → (s.afterLoad a len).mayStore 5 d len = true →
      exec (.ldsx n x y w z) s = .next ((((u.afterLoad a len).claimPorts 5 d len).result 6
        (.spWrite d (s.core.sp.read a len).1.bytes)).swapK n w))

/-- R147, R298, R300 and R301: the local stores write the bank at the end of the cycle after next. -/
def Obligations.LocalStores : Prop :=
  ∀ (s s1 : State) (n : BitVec 2) (x y : BitVec 4) (w : BitVec 1) (z : BitVec 3) (v : Vec),
    let sh := s.ksh n
    let a := s.localA sh
    let u := s.follows x y z
    s.active = true → s.tokensDone x y z = true → lvBad sh = false →
    (qOf sh ≤ 11 → a % 256 = 0 → u.plainReads (BitVec.ofNat 4 (qOf sh)) false 1 = some ([v], s1) → s1.mayStore 2 a 256 = true →
      exec (.sts n x y w z) s = .next (((s1.claimPorts 2 a 256).result 3 (.spWrite a (bvBytes v))).swapK n w))
    ∧ (fld sh 143 141 = 0 → a % 8 = 0 → s.mayStore 2 a 8 = true → s.intact 1 (fld sh 148 144) = true →
      exec (.stsx n x y w z) s = .next (((u.claimPorts 2 a 8).result 3
        (.spWrite a (bvBytes (s.core.rs (BitVec.ofNat 5 (fld sh 148 144)))))).swapK n w))

/-- R299 and R300: a load to queue that leaves the core sends an access of 256 bytes, whose entry is due after D cycles; a store
of an entry pops it and sends its 256 bytes, and has its due cycle after D cycles too. -/
def Obligations.FarQueueForms : Prop :=
  (∀ (s : State) (i : Instr) (sp : Space) (carry : Bool) (n q : BitVec 2) (x y : BitVec 4) (z : BitVec 3) (w : BitVec 1),
    farLoad i = some (sp, carry, n, q, (x, y, z), w) → s.active = true → s.tokensDone x y z = true →
    s.farOk sp (s.ksh n) = true →
    exec i s = .next (((((s.follows x y z).sendAccess q sp false carry (s.farA sp (s.ksh n)) 256 []).2.notePush (qOf (s.ksh n)) 1).result
      (16 * 2 ^ fld (s.ksh n) 140 138) (.loadQ (BitVec.ofNat 4 (qOf (s.ksh n))) s.core.pipes.nextId)).swapK n w))
  ∧ ∀ (s s1 : State) (i : Instr) (sp : Space) (n q : BitVec 2) (x y : BitVec 4) (z : BitVec 3) (w : BitVec 1) (v : Vec),
    farStore i = some (sp, n, q, (x, y, z), w) → s.active = true → s.tokensDone x y z = true →
    s.farOk sp (s.ksh n) = true →
    (s.follows x y z).plainReads (BitVec.ofNat 4 (qOf (s.ksh n))) false 1 = some ([v], s1) →
    exec i s = .next (((s1.sendAccess q sp true false (s.farA sp (s.ksh n)) 256 (bvBytes v)).2.result
      (16 * 2 ^ fld (s.ksh n) 140 138) (.stored s1.core.pipes.nextId)).swapK n w)

/-- R301: LDGX sends a load that is copied to scratchpad when due, and STGX a store of a register's eight bytes with its due cycle. What every direct form
that leaves the core has sent takes its place piece by piece (R137, R138): a global store's piece writes its bytes at its physical address
and clears the sector's tag, a global load's piece returns the bytes that stand there, a window write's piece lands in its bank, and a
window read's piece returns what stands in its bank; every other byte, tag and poisoned sector stays (R99, R132, R300, R362). -/
def Obligations.FarCopies : Prop :=
  (∀ (s : State) (n q : BitVec 2) (x y : BitVec 4) (w : BitVec 1) (z : BitVec 3),
    let sh := s.ksh n
    let a := s.core.addrA sh
    let u := s.follows x y z
    s.active = true → s.tokensDone x y z = true → lvBad sh = false → a.toNat < 2 ^ 57 →
    (fld sh 143 141 ≤ 5 →
      let len := 8 * 2 ^ fld sh 143 141
      let d := fld sh 179 160 % s.core.spSize
      let due := 16 * 2 ^ fld sh 140 138
      a.toNat % len = 0 → d % len = 0 → s.mayStore (due - 1) d len = true →
      exec (.ldgx n q x y w z) s = .next ((((u.claimPorts (due - 1) d len).sendAccess q .global false false a len []).2.result
        due (.loadX d s.core.pipes.nextId)).swapK n w))
    ∧ (fld sh 143 141 = 0 → a.toNat % 8 = 0 → s.intact 1 (fld sh 148 144) = true →
      exec (.stgx n q x y w z) s = .next (((u.sendAccess q .global true false a 8
        (bvBytes (s.core.rs (BitVec.ofNat 5 (fld sh 148 144))))).2.result (16 * 2 ^ fld sh 140 138)
          (.stored s.core.pipes.nextId)).swapK n w)))
  ∧ (∀ (s v : State) (va : Word) (pa cmp : Nat) (bs : List Byte) (tag : Byte) (bad : Bool),
    s.memWf = true → s.plainMem = true → pa % 128 + bs.length ≤ 128 → s.writeBad va pa cmp bs tag bad = .ok v →
    (∀ x, v.mem.read x = if pa ≤ x ∧ x < pa + bs.length then bs.getD (x - pa) 0 else s.mem.read x)
      ∧ (∀ k, v.tags.read k = if k = pa / 128 then tag else s.tags.read k)
      ∧ (∀ k, k ≠ pa / 128 → setHas k v.poison = setHas k s.poison)
      ∧ v.core = s.core ∧ v.cores = s.cores ∧ v.hostMem = s.hostMem)
  ∧ (∀ (s : State) (key : CoreKey) (id i : Nat) (a : Access) (p : Piece),
    let u := s.settle key
    let c := u.getCore key
    c.access id = some a → a.pieces[i]? = some p → a.space = .global → u.pieceMay c a p = true → u.pieceAway key id i = false →
    (∀ q ∈ a.pieces, u.pieceFault c a q = none) →
    (a.store = true → ∀ v pa, u.writeAt c.fen (some key) c.ctx.toNat p.addr p.bytes 0 = .ok (v, pa) →
      ∃ t, s.turn (.perform key id i) = .next t ∧ t.mem = v.mem ∧ t.tags = v.tags ∧ t.poison = v.poison ∧ t.hostMem = v.hostMem
        ∧ (t.getCore key).regs = c.regs ∧ (t.getCore key).vs = c.vs ∧ (t.getCore key).sp.mem = c.sp.mem)
    ∧ (a.store = false → ∀ x bs tag, u.translate c.fen (some key) c.ctx.toNat p.addr false = .ok x →
      x.st.readPhys p.addr x.pa p.len = .ok (bs, tag) → c.wayHit p.addr x.pa (c.clockOf a.queue a.bundle) = none →
      (∀ q ∈ a.pieces, tagV q.tag = false) → tagV tag = false →
      (x.st.plainMem = true → bs = x.st.mem.readBytes x.pa p.len)
        ∧ ∃ t, s.turn (.perform key id i) = .next t ∧ t.mem = x.st.mem ∧ t.tags = x.st.tags ∧ t.poison = x.st.poison
          ∧ (t.getCore key).regs = c.regs ∧ (t.getCore key).vs = c.vs ∧ (t.getCore key).sp.mem = c.sp.mem
          ∧ ∃ b, (t.getCore key).access id = some b ∧ b.pieces[i]? = some { p with done := true, bytes := bs, tag := tag }))
  ∧ (∀ (c d : Core) (off : Nat) (bs : List Byte) (tag : Byte),
    let e := c.landDue
    let o := off % e.spSize
    let b := vget e.sp.bank (bankOf o)
    e.sp.wf = true → o % 128 + bs.length ≤ 128 → b.sw = false → b.mode = 0 → c.netWrite off bs tag = .done d →
    (∀ x, d.sp.mem.read x = if o ≤ x ∧ x < o + bs.length then bs.getD (x - o) 0 else e.sp.mem.read x)
      ∧ (∀ k, d.sp.tags.read k = if k = o / 128 then tag else e.sp.tags.read k)
      ∧ (∀ k, k ≠ o / 128 → setHas k d.sp.poison = setHas k e.sp.poison)
      ∧ d.regs = e.regs ∧ d.vs = e.vs ∧ d.sp.bank = e.sp.bank ∧ d.sp.fifo = e.sp.fifo)
  ∧ ∀ (s : State) (key : CoreKey) (off n : Nat),
    let e := (s.getCore key).landDue
    let o := off % e.spSize
    let b := vget e.sp.bank (bankOf o)
    b.sw = false → b.mode = 0 → setHas (o / 128) e.sp.poison = false →
    s.netRead key off n = (.ok (e.sp.mem.readBytes o n, e.sp.tags.read (o / 128)), s.putCore e)

/-- R64, R103, R144, R296 and R302 to R312: a command form whose token is DONE and whose sequencer has room sends its command,
with the captured shape register, at the end of the issue cycle; FENCE and BANKM send theirs with their operands. -/
def Obligations.CommandForms : Prop :=
  (∀ (s : State) (i : Instr) (f : Sends), sends s i = some f → s.active = true → s.cmdHolds f.tok = [] →
    exec i s = .next ((f.st.nextCmd.endOfCycle (.cmd f.cmd)).swapK f.sh f.swap))
  ∧ ∀ (s : State) (t : BitVec 4), s.active = true → s.cmdHolds t = [] →
    (∀ (m : BitVec 4) (o : BitVec 3), m ≠ 0 → exec (.fence t m o) s = .next (s.nextCmd.endOfCycle (.cmd
      { Cmd.fresh s.core.pipes.nextId .fence s.iss.slot 0 0 0 t [] s.core.pipes.bundleNo with arg1 := m, arg2 := o })))
    ∧ (∀ o : BitVec 3, exec (.fence t 0 o) s = .next s)
    ∧ ∀ (b : BitVec 3) (m : BitVec 2) (w : BitVec 4), exec (.bankm t b m w) s = .next (s.nextCmd.endOfCycle (.cmd
      { Cmd.fresh s.core.pipes.nextId .bankm s.iss.slot 0 0 0 t (s.core.tokenCmds w.toNat) s.core.pipes.bundleNo with
        arg1 := b.setWidth 4, arg2 := m.setWidth 3 }))

/-- A direct form with a PENDING consumed token, a command form while its produced token is PENDING, and a seventeenth command of a
sequencer until the command that was oldest there has ended, hold their bundle: every direct form and every command form (R64, R206, R232,
R296). A command that enters at the end of the cycle makes its token PENDING and joins its sequencer; BANKM also sets SW and PEND of
its bank, and an MBPOST counts as an open post (R64, R103, R206, R232). A command that has started does its elements: an atomic reads its
operands and its location and writes the result there, and the old value at RES; an STK writes a sector of its payload with its tag; KCOPY
and CPBLK copy a sector, and a CPBLK fill writes its pattern; CP and CPQ copy, or quantize, one element; each at the places that its form
gives, of which a write changes what FarCopies says of it (R302 to R310). -/
def Obligations.CommandEnters : Prop :=
  (∀ (s : State) (i : Instr), s.active = true → s.iss.hold = none →
    (∀ (l : List Nat) (t : Nat) (r : List Nat), directTokens i = some l → (l.filter fun t => s.core.pending t) = t :: r →
      exec i s = .next (s.holdTokens ((t :: r).map (BitVec.ofNat 4))))
    ∧ (∀ (t : BitVec 4) (r : List (BitVec 4)),
      let v := s.holdTokens (t :: r)
      v = { s with iss := { s.iss with hold := some (.token t), holdSlot := s.iss.slot, others := v.iss.others } }
        ∧ ∀ u ∈ r, u = t ∨ ∃ n, (Wait.token u, n) ∈ v.iss.others)
    ∧ ∀ t : BitVec 4, commandToken i = some t →
      let older := s.core.pipes.cmds.filter fun x => decide (x.slot = s.iss.slot)
      let waiting := vget s.iss.cmdWait (s.iss.slot - 4)
      let holds (w : Option Nat) (u : List (BitVec 4)) : State :=
        State.holdTokens { s with iss := { s.iss with cmdWait := vset s.iss.cmdWait (s.iss.slot - 4) w } } u
      (s.core.pending t.toNat = true → exec i s = .next (holds s.oldestCmd (t :: (s.oldestCmd.map fun id =>
        (older.find? fun y => decide (y.id = id)).elim 0 (·.tok)).toList)))
      ∧ (s.core.pending t.toNat = false →
        (∀ x rest, older = x :: rest → 15 ≤ rest.length → waiting = none → exec i s = .next (holds (some x.id) [x.tok]))
        ∧ ∀ id x, waiting = some id → (older.find? fun y => decide (y.id = id)) = some x →
          exec i s = .next (holds (some id) [x.tok])))
  ∧ (∀ (s : State) (x : Cmd),
    let c := (s.applyEoc (.cmd x)).core
    c.pipes.cmds = s.core.pipes.cmds ++ [x]
      ∧ (∀ t, t < 16 → c.pending t = (decide (t ≠ 0) && (decide (t = x.tok.toNat) || s.core.pending t)))
      ∧ (x.op = .bankm → x.arg1.toNat < 8 → (vget c.sp.bank x.arg1.toNat).sw = true
        ∧ (vget c.sp.bank x.arg1.toNat).pend = x.arg2.setWidth 2
        ∧ (vget c.sp.bank x.arg1.toNat).mode = (vget s.core.sp.bank x.arg1.toNat).mode)
      ∧ c.posts = s.core.posts + (if x.op = .mbpost then 1 else 0))
  ∧ ∀ (s u v : State) (key : CoreKey) (id : Nat) (x : Cmd) (y : Sect),
    let c := s.getCore key
    let ag : Agent := ⟨c.fen, some key, c.ctx, some (.cmd key id), none, false⟩
    let sh := x.shape
    let i := x.pos
    let goes (z : Cmd) (w : State) : Prop := s.turn (.element key id .next) = .next (w.onCore key fun d => d.putCmd z)
    let a := placeAt (bit sh 63) x.addrA (128 * i)
    let b := placeAt (bit sh 223) x.addrB (128 * i)
    c.cmd id = some x → x.started = true → x.stop = none → c.seqStopped x = false → x.finished = false → s.enginesHeld c = false →
    s.heldAny (·.readOf (.cmd key id)) = false → x.posted = [] → x.ahead = [] → x.early = [] →
    (∀ k (u1 u2 : State) (o1 o2 : Sect), x.op = .atomic k → x.placed = false →
      let n := if bit sh 156 then 8 else 4
      let at_ := placeAt (bit sh 63) x.addrA 0
      let z : Cmd := { x with placed := true, snap := y.bytes, finished := bit sh 157 }
      s.engPlain ag (.own (fld sh 179 160)) n = .ok o1 u1 →
      (k = 4 → u1.engPlain ag (.own (fld sh 179 160 + n)) n = .ok o2 u2) → (k ≠ 4 → o2 = o1 ∧ u2 = u1) →
      u2.engPlain ag at_ n = .ok y u →
      (k = 4 → bytesToNat y.bytes ≠ bytesToNat o1.bytes → goes z u)
      ∧ ∀ new, atomicNew k (8 * n) (bytesToNat y.bytes) (bytesToNat o1.bytes) (bytesToNat o2.bytes) = some new →
        u.engWrite ag (x.write at_ (natToBytes n new) 0 false) = .ok () v → goes z v)
    ∧ (∀ k, x.op = .atomic k → x.placed = true → s.engWrite ag (x.write (.own (fld sh 211 192)) x.snap 0 false) = .ok () v →
      goes { x with finished := true } v)
    ∧ (x.op = .stk → x.placed = true →
      s.engWrite ag (x.write a ((x.snap.drop (128 * i)).take 128) (mkTag (ktForm x.entry) (fld sh 152 149)) false) = .ok () v →
      goes { x with pos := i + 1, finished := decide (x.snap.length ≤ 128 * (i + 1)) } v)
    ∧ (x.op = .kcopy → 128 * i < fld sh 95 64 → s.engRead ag true a 128 = .ok y u →
      u.engWrite ag (x.write b y.bytes (kcopyTag sh y.tag) y.bad) = .ok () v →
      goes { x with pos := i + 1, finished := decide (fld sh 95 64 ≤ 128 * (i + 1)) } v)
    ∧ (x.op = .cpblk → 128 * i < fld sh 95 64 →
      let z := s.notePath ag x i
      let after (w : State) : State := w.afterSector (s.pathAt ag z i)
      (bit sh 158 = false → s.engRead ag true (.glob (x.addrA + BitVec.ofNat 64 (128 * i))) 128 = .ok y u →
        u.engWrite ag (z.write (.glob (x.addrB + BitVec.ofNat 64 (128 * i))) y.bytes y.tag y.bad) = .ok () v →
        goes { z with pos := i + 1 } (after v))
      ∧ (bit sh 158 = true → s.engWrite ag (z.write (.glob (x.addrB + BitVec.ofNat 64 (128 * i)))
          (List.replicate 16 (natToBytes 8 (fld sh 319 256))).flatten 0 false) = .ok () v →
        goes { z with pos := i + 1 } (after v)))
    ∧ ∀ d : BitVec 1024, x.desc = some d → i < dTotal d →
      (x.op = .cp → dQuant d = false → s.engPlain ag (copySource d i) (2 ^ bits d 129 128) = .ok y u →
        u.engWrite ag (x.write (copyTarget d i) (natToBytes (2 ^ bits d 129 128) (bytesToNat y.bytes)) 0 false) = .ok () v →
        goes { x with pos := i + 1, amax := 0, finished := decide (i + 1 = dTotal d) } v)
      ∧ (x.op = .cpq → dQuant d = true → x.placed = true →
        let n := if dQtype d = 3 then 2 else 1
        let m := bytesToNat y.bytes
        s.engPlain ag (copySource d i) (2 ^ bits d 129 128) = .ok y u →
        u.engWrite ag (x.write (copyTarget d i) (natToBytes n (copyQuant d m x.scale.toNat (lfsNext x.lfsr))) 0 false) = .ok () v →
        goes { x with
          pos := i + 1
          lfsr := if dRnd d = 4 then lfsNext x.lfsr else x.lfsr
          amax := BitVec.ofNat 32 (if (Fmt.f32.dec m).isFin then max x.amax.toNat (m % 2 ^ 31) else x.amax.toNat)
          finished := decide (i + 1 = dTotal d) && decide (dAmx d = 0) } v)

/-! ### The M slot -/

/-- R61, R273, R275, R277, R280, R283: an MMA whose B operand is a latch joins the unit's queue with its captured operands, and
its window on A starts; one whose B operand is a bank group also starts a window on B, under the kept form that serves it. A window reads
the next row of its group in each schedule cycle, from the scratchpad as it stands; with its last row the rows read are the captured
operand of its MMA (R277, R280). -/
def Obligations.MmaIssues : Prop :=
  ((∀ (s : State) (i : Instr) (m : MmaSlot), mmaSlot i = some m → m.bank = false → s.mmaMay m = true →
    exec i s = .next ((((s.withWindow m.groupA.toNat 0 (s.mmaRowsA m)).queueMma s.core.fmtEntry m (s.mx m.shape) 6).startWin
      ⟨.mmaA s.core.pipes.nextId, m.groupA, s.mmaRowsA m, [], s.mx m.shape, 0⟩).swapMx m.shape m.swap))
  ∧ ∀ (s : State) (i : Instr) (m : MmaSlot) (form : Nat) (secs : List Nat), mmaSlot i = some m → m.bank = true →
    s.mmaMay m = true →
    let sh := s.mx m.shape
    let s1 := s.withWindow m.groupA.toNat 0 (s.mmaRowsA m)
    s.servedB s.core.fmtEntry m sh (tileSectors m.groupB.toNat (shAt sh 81 64) (shAt sh 113 96) (bShape (fmtB s.core.fmtEntry)))
      = some (form, secs) →
    s1.windowFree m.groupB.toNat 0 (s.mmaRowsB m form) secs = true →
    exec i s = .next (((((s1.withWindow m.groupB.toNat 0 (s.mmaRowsB m form)).queueMma s.core.fmtEntry m sh form).startWin
      ⟨.mmaA s.core.pipes.nextId, m.groupA, s.mmaRowsA m, [], sh, 0⟩).startWin
      ⟨.mmaB s.core.pipes.nextId, m.groupB, s.mmaRowsB m form, [], sh, 0⟩).swapMx m.shape m.swap))
  ∧ ∀ (c : Core) (w : Win) (r : BitVec 10) (rest : List (BitVec 10)), w ∈ c.pipes.wins → w.rows = r :: rest →
    let got := w.got ++ [(r, vecOfBytes (c.sp.mem.readBytes (w.group.toNat * 2 ^ 18 + r.toNat * 256) 256))]
    (rest ≠ [] → { w with rows := rest, got := got } ∈ c.winTick.pipes.wins)
    ∧ ∀ id : Nat, rest = [] → (∀ v ∈ c.pipes.wins, v.dest = w.dest → v = w) →
      (w.dest = .mmaA id → ∀ m ∈ c.winTick.mx.mmas, m.id = id → m.rowsA = some got)
      ∧ (w.dest = .mmaB id → ∀ m ∈ c.winTick.mx.mmas, m.id = id → m.rowsB = some got)

/-- R286, R287: LATCH starts a window that loads the latch; LATCHREED starts the reed path once its tokens are done. A window reads the
next row of its group in each schedule cycle, from the scratchpad as it stands; in the cycle after its last row the latch holds the tile,
its rows packed one after the other, and an error that it held is gone (R277, R286; log entry 111). -/
def Obligations.LatchLoads : Prop :=
  (∀ (s : State) (l sh : BitVec 2) (w : BitVec 1),
    let f := s.core.fmtEntry
    let x := s.mx sh
    let t := bShape (fmtB f)
    s.core.held = none → s.active = true → s.core.latchLoading l.toNat = false → s.core.latchUsed l.toNat = false →
    fmtB f ≤ 4 →
    (∀ g : BitVec 2,
      let rows := groupRows (shAt x 17 0) (shAt x 49 32) t
      let secs := tileSectors g.toNat (shAt x 17 0) (shAt x 49 32) t
      tileAligned (shAt x 17 0) (shAt x 49 32) t.width = true → s.windowFree g.toNat 0 rows secs = true →
      s.plainSecs secs = true →
      exec (.latch l sh w g) s = .next (((s.withWindow g.toNat 0 rows).startWin
        ⟨.latch l, g, rows, [], x, BitVec.ofNat 3 (fmtB f)⟩).swapMx sh w))
    ∧ (tileAligned (shAt x 248 192) (shAt x 287 256) t.width = true →
      exec (.latchreed l sh w) s = .next ((s.endOfCycle (.reed ⟨l, BitVec.ofNat 64 (shAt x 248 192),
        BitVec.ofNat 32 (shAt x 287 256), BitVec.ofNat 3 (fmtB f), s.core.tokenCmds (shAt x 255 252), 0, [], none⟩)).swapMx sh w)))
  ∧ ∀ (c : Core) (w : Win) (l : BitVec 2), w ∈ c.pipes.wins → w.dest = .latch l →
    (∀ (r : BitVec 10) (rest : List (BitVec 10)), w.rows = r :: rest →
      { w with rows := rest, got := w.got ++ [(r, vecOfBytes (c.sp.mem.readBytes (w.group.toNat * 2 ^ 18 + r.toNat * 256) 256))] }
        ∈ c.winTick.pipes.wins)
    ∧ (w.rows = [] → (∀ v ∈ c.pipes.wins, v.dest = .latch l → v = w) →
      let t := bShape w.btype.toNat
      vget c.winTick.mx.lt l.toNat = tileImage t (tileOf w.got (shAt w.shape 17 0) (shAt w.shape 49 32) t)
        ∧ (∀ v ∈ c.winTick.pipes.wins, v.dest ≠ .latch l) ∧ (3, 4 + l.toNat) ∉ c.winTick.errs)
    ∧ c.winTick.sp = c.sp ∧ c.winTick.regs = c.regs ∧ c.winTick.vs = c.vs ∧ c.winTick.mx.acc = c.mx.acc

/-- R288, R289: DRAIN and DRAINT write the accumulator's elements, converted, to the tile two cycles on and later; ZAC zeroes
the accumulator, and an element replaced by the largest finite number counts in SATD. -/
def Obligations.Drains : Prop :=
  ∀ (s : State) (tr : Bool) (a sh : BitVec 2) (w : BitVec 1) (t : BitVec 3) (alt zac : BitVec 1) (g : BitVec 2),
    let x := s.mx sh
    let ts : TileShape := ⟨32, 4 * (drainFmt t.toNat).w⟩
    let acc := accList (vget s.core.mx.acc a.toNat)
    let el (i j : Nat) : Nat × Bool :=
      drainEl t.toNat (decide (alt = 1)) (acc.getD (if tr then 32 * j + i else 32 * i + j) 0)
    let row (i : Nat) : List Byte := natToBytes ts.width ((List.range 32).foldr
      (fun j b => b * 2 ^ (drainFmt t.toNat).w + (el i j).1 % 2 ^ (drainFmt t.toNat).w) 0)
    let writes := drainWrites g.toNat (shAt x 145 128) (shAt x 177 160) ts ((List.range 32).map row)
    s.core.held = none → s.active = true → s.core.accBusy a.toNat = false → s.intact 3 a.toNat = true →
    tileAligned (shAt x 145 128) (shAt x 177 160) ts.width = true →
    s.windowFree g.toNat 2 (groupRows (shAt x 145 128) (shAt x 177 160) ts)
      (tileSectors g.toNat (shAt x 145 128) (shAt x 177 160) ts) = true →
    (writes.all fun y => s.storeClean y.addr y.bytes.length) = true →
    exec (if tr then .draint a sh w t alt zac g else .drain a sh w t alt zac g) s
      = .next (({ s with
        iss := { s.iss with
          uses := s.iss.uses ++ windowUses g.toNat 2 (groupRows (shAt x 145 128) (shAt x 177 160) ts)
          newInfl := s.iss.newInfl ++ writes.map fun y => ⟨3 + y.row, s.iss.slot, s.core.pipes.bundleNo, .spWrite y.addr y.bytes⟩
          satd := s.iss.satd + ((List.range 32).map fun i => (List.range 32).countP fun j => (el i j).2).sum }
        core := { s.core with mx := { s.core.mx with
          chain := vset s.core.mx.chain a.toNat none
          acc := if zac = 1 then vset s.core.mx.acc a.toNat 0 else s.core.mx.acc } } } : State).swapMx sh w)

/-- R290 to R292: ZERO clears an accumulator; LDCBK and LDFMT read 32 bytes of a group in their own cycle. -/
def Obligations.MatrixTables : Prop :=
  ∀ (s : State), s.core.held = none → s.active = true →
    (∀ a : BitVec 2, s.core.accBusy a.toNat = false → exec (.zero a) s = .next { s with core := { s.core with
      mx := { s.core.mx with acc := vset s.core.mx.acc a.toNat 0, chain := vset s.core.mx.chain a.toNat none }
      errs := errsWithout (3, a.toNat) s.core.errs } })
    ∧ (∀ (sh g : BitVec 2) (w : BitVec 1),
      let o := shAt (s.mx sh) 17 0
      let at_ := g.toNat * 2 ^ 18 + o
      let rows : List (BitVec 10) := [BitVec.ofNat 10 (o / 256)]
      let v : BitVec 256 := BitVec.ofNat 256 (bytesToNat (s.core.sp.mem.readBytes at_ 32))
      o % 32 = 0 → s.windowFree g.toNat 0 rows [at_ / 128] = true → s.plainSecs [at_ / 128] = true →
      (∀ l : BitVec 2, vget s.core.mx.cbkBusy l.toNat = none → s.core.cbkUsed l.toNat = false →
        exec (.ldcbk l sh w g) s = .next (((s.withWindow g.toNat 0 rows).endOfCycle (.cbk l v)).swapMx sh w))
      ∧ ∃ fmt : Vector (BitVec 16) 16,
        exec (.ldfmt sh w g) s = .next ((({ s.withWindow g.toNat 0 rows with core := { s.core with mx :=
          { s.core.mx with fmt := fmt } } } : State)).swapMx sh w)
        ∧ ∀ n, n < 16 → vget fmt n = v.extractLsb' (16 * n) 16 &&& 0xFFE0)

/-- In handler mode every M instruction is ILLEGAL (R293), and one whose guard is false does nothing. The scoreboard holds the bundle
otherwise (R61, R273, R274): DRAIN, DRAINT and ZERO while an MMA to their accumulator has not landed; LATCH and LATCHREED while a load of
their latch goes on, or an MMA that names it has not ended its array work; LDCBK while its codebook is busy, or an MMA whose format entry
names it has not ended its array work; an MMA while four are outstanding, then while its latch is loading, then while a codebook that its
format entry names is busy, and for nothing else. -/
def Obligations.MatrixHolds : Prop :=
  (∀ (s : State) (i : Instr), classOf i = some .m →
    (s.core.held.isSome = true → exec i s = .next s.illegal)
    ∧ (s.core.held = none → s.active = false → exec i s = .next s))
  ∧ ∀ (s : State), s.core.held = none → s.active = true → s.iss.hold = none →
    let holds (n k : BitVec 2) : State := { s with iss := { s.iss with hold := some (.scoreboard n k), holdSlot := s.iss.slot } }
    let mmas := s.core.mx.mmas
    let loading (l : BitVec 2) : Prop :=
      (∃ w ∈ s.core.pipes.wins, w.dest = .latch l) ∨ (∃ r ∈ s.core.mx.reeds, r.lt = l)
    (∀ a : BitVec 2, (∃ m ∈ mmas, m.acc = a) → exec (.zero a) s = .next (holds a 0)
      ∧ ∀ sh w t alt z g, exec (.drain a sh w t alt z g) s = .next (holds a 0)
        ∧ exec (.draint a sh w t alt z g) s = .next (holds a 0))
    ∧ (∀ l : BitVec 2, (loading l ∨ ∃ m ∈ mmas, m.arrayDone = false ∧ m.bank = false ∧ m.latch = l) →
      ∀ sh w, exec (.latchreed l sh w) s = .next (holds l 1) ∧ ∀ g, exec (.latch l sh w g) s = .next (holds l 1))
    ∧ (∀ n : BitVec 2, ((vget s.core.mx.cbkBusy n.toNat ≠ none) ∨ ∃ m ∈ mmas, m.arrayDone = false ∧ namesCbk m.fmt n.toNat = true) →
      ∀ sh w g, exec (.ldcbk n sh w g) s = .next (holds n 2))
    ∧ ∀ (i : Instr) (m : MmaSlot), mmaSlot i = some m →
      (4 ≤ mmas.length → exec i s = .next (holds m.acc 0))
      ∧ (mmas.length < 4 → m.bank = false → loading m.latch → exec i s = .next (holds m.latch 1))
      ∧ (mmas.length < 4 → (m.bank = false → ¬loading m.latch) → ∀ n : BitVec 2,
        namesCbk s.core.fmtEntry n.toNat = true → vget s.core.mx.cbkBusy n.toNat ≠ none →
        (∀ k, k < n.toNat → namesCbk s.core.fmtEntry k = true → vget s.core.mx.cbkBusy k = none) →
        exec i s = .next (holds n 2))
      ∧ (s.mmaHold s.core.fmtEntry m = none ↔ mmas.length < 4 ∧ (m.bank = false → ¬loading m.latch)
        ∧ ∀ n, n < 4 → namesCbk s.core.fmtEntry n = true → vget s.core.mx.cbkBusy n = none)

/-! ### The L and K slots -/

/-- The target becomes the next bundle. -/
def Sys2Proof.Machine.State.goTo (s : State) (t : Word) : State := { s with iss := { s.iss with next := some (t.setWidth 57) } }

/-- R190, R221, R226: transfers taken, to an aligned canonical target. -/
def Obligations.TransfersTaken : Prop :=
  ∀ (s : State), s.active = true →
    (∀ (g : BitVec 4) (o : BitVec 14),
      let t : Word := BitVec.ofInt 64 (s.core.pc.toNat + 24 * o.toInt)
      s.core.sel g = true → t.toNat % 8 = 0 → t.toNat < 2 ^ 57 →
      exec (.b g o) s = .next (s.goTo t)
        ∧ (s.core.held = none → s.core.anyLevel = false → exec (.call g o) s = .next (s.goTo t)))
    ∧ (∀ (g : BitVec 4) (r : BitVec 5),
      s.core.sel g = true → (s.core.rs r).toNat % 8 = 0 → (s.core.rs r).toNat < 2 ^ 57 →
      exec (.jmpi g r) s = .next (s.goTo (s.core.rs r)) ∧ exec (.ret g r) s = .next (s.goTo (s.core.rs r))
        ∧ (s.core.held = none → s.core.anyLevel = false → exec (.calli g r) s = .next (s.goTo (s.core.rs r))))

/-- R230: BRMZ is taken when the active mask of the slot it names, as it stood before the bundle, is all zero, and not
otherwise; an empty stack enables every lane, so it is then not taken. BRMZ has no guard: the L slot's is true in every bundle,
with GUARD or without. A compare in flight is not on the stack the condition reads. -/
def Obligations.BranchOnEmptyMask : Prop :=
  (∀ (s : State) (v : BitVec 1) (o : BitVec 14),
    let t : Word := BitVec.ofInt 64 (s.core.pc.toNat + 24 * o.toInt)
    let m := s.core.mask (decide (v = 1))
    s.core.newt = false → s.active = true →
    (activeMask m = 0 → t.toNat % 8 = 0 → t.toNat < 2 ^ 57 → exec (.brmz v o) s = .next (s.goTo t))
      ∧ (activeMask m ≠ 0 → exec (.brmz v o) s = .next s) ∧ (m = [] → exec (.brmz v o) s = .next s)
      ∧ ∀ l, activeMask ((s.core.setMask (decide (v = 1)) l).mask (decide (v = 1))) = l.headD (BitVec.allOnes 64))
  ∧ (∀ s : State, vget s.beginIssue.iss.guards 6 = true)
  ∧ ∀ (s t : State) (m : BitVec 2) (a b c d : BitVec 4), vget s.iss.guards 6 = true → exec (.guard m a b c d) s = .next t →
    vget t.iss.guards 6 = true

/-- R190, R221, R226, R240: a transfer not taken does nothing; a misaligned target is FLT_ALIGN and a non-canonical one FLT_PAGE cause 6,
of a register (JMPI, RET, CALLI) and of the program counter (B, CALL); a call inside an active loop is FLT_LOOP cause 8, and one in handler
mode FLT_LOOP cause 9. -/
def Obligations.TransfersRefused : Prop :=
  ∀ (s : State) (g : BitVec 4) (r : BitVec 5) (o : BitVec 14),
    let t := s.core.rs r
    let u : Word := BitVec.ofInt 64 (s.core.pc.toNat + 24 * o.toInt)
    (s.core.sel g = false ∨ s.active = false →
      exec (.jmpi g r) s = .next s ∧ exec (.ret g r) s = .next s ∧ exec (.calli g r) s = .next s
        ∧ exec (.b g o) s = .next s ∧ exec (.call g o) s = .next s)
    ∧ (s.active = true → s.core.sel g = true →
      let may : Prop := s.core.held = none ∧ s.core.anyLevel = false
      (t.toNat % 8 ≠ 0 → exec (.jmpi g r) s = .next (s.raise 3 0x03 0 false t 0)
        ∧ exec (.ret g r) s = .next (s.raise 3 0x03 0 false t 0)
        ∧ (may → exec (.calli g r) s = .next (s.raise 3 0x03 0 false t 0)))
      ∧ (t.toNat % 8 = 0 → 2 ^ 57 ≤ t.toNat → exec (.jmpi g r) s = .next (s.raise 3 0x0A 6 false t 0)
        ∧ exec (.ret g r) s = .next (s.raise 3 0x0A 6 false t 0)
        ∧ (may → exec (.calli g r) s = .next (s.raise 3 0x0A 6 false t 0)))
      ∧ (u.toNat % 8 ≠ 0 → exec (.b g o) s = .next (s.raise 3 0x03 0 false u 0)
        ∧ (may → exec (.call g o) s = .next (s.raise 3 0x03 0 false u 0)))
      ∧ (u.toNat % 8 = 0 → 2 ^ 57 ≤ u.toNat → exec (.b g o) s = .next (s.raise 3 0x0A 6 false u 0)
        ∧ (may → exec (.call g o) s = .next (s.raise 3 0x0A 6 false u 0)))
      ∧ (s.core.held = none → s.core.anyLevel = true → exec (.calli g r) s = .next (s.raise 3 0x08 8 false 0 0)
        ∧ exec (.call g o) s = .next (s.raise 3 0x08 8 false 0 0))
      ∧ (s.core.held.isSome = true → exec (.calli g r) s = .next (s.raise 3 0x08 9 false 0 0)
        ∧ exec (.call g o) s = .next (s.raise 3 0x08 9 false 0 0)))

/-- R195, R196, R211, R223, R334: GUARD gives the guards, K the broadcast value and the gating; KCTL's BKPT takes the debug
trap unless it is ignored once, and NOP does nothing. -/
def Obligations.GuardsAndGating : Prop :=
  ∀ (s : State),
    (∀ (m : BitVec 2) (a b c d : BitVec 4), s.core.newt = false → exec (.guard m a b c d) s
      = .next { s with iss := { s.iss with guards := #v[true, s.core.sel a, s.core.sel b,
        (if m = 0 then true else if m = 1 then s.core.sel a else if m = 2 then s.core.sel b else s.core.sel c),
        s.core.sel c, s.core.sel d, true, true] } })
    ∧ (∀ (f l : BitVec 1) (v : BitVec 3) (k : BitVec 18) (b : BitVec 1),
      let lv := vget s.core.loop.lv v.toNat
      let off := lv.active && ((decide (f = 1) && decide (lv.lidx ≠ 0))
        || (decide (l = 1) && decide (lv.lidx.toNat + 1 ≠ lv.lcnt.toNat)))
      exec (.k f l v k) s = .next { s with iss := { s.iss with bc := k, gated := off } }
        ∧ (b = 0 ∨ s.core.skipBkpt = true →
          exec (.kctl f l v b) s = .next { s with iss := { s.iss with bc := 0, gated := off } })
        ∧ (b = 1 → s.core.skipBkpt = false → exec (.kctl f l v b) s
          = .next (({ s with iss := { s.iss with bc := 0, gated := off } } : State).raise 0 0x21 0 false 0 0)))
    ∧ exec .nop s = .next s

/-- R209, R224, R227: LOOP and LOOPP ask for their loop, with the body length 0 meaning 64. At the end of the bundle the level begins at
the next bundle, with its count, its index 0 and its body, a LOOPP's also with its pass counts and sg0; where the count is zero no level
begins, the body is skipped, and the end of its last bundle is applied to the levels that enclose it (R224, R225, R227). -/
def Obligations.LoopsStart : Prop :=
  (∀ (s : State) (l : BitVec 3) (st : BitVec 3) (r : BitVec 5) (n : BitVec 6),
    let len := if n = 0 then 64 else n.toNat
    s.active = true → s.core.held = none →
    (∀ k, k < 6 → (vget s.core.loop.lv k).active = true → s.core.pc.toNat + 24 * len ≤ (vget s.core.loop.lv k).last.toNat) →
    (l ≤ 5 → (∀ k, k ≤ l.toNat → (vget s.core.loop.lv k).active = false) → (s.core.rs r).toNat ≤ 65535 →
      exec (.loop l r n) s = .next { s with iss := { s.iss with
        loopReq := some ⟨l.toNat, false, (s.core.rs r).setWidth 16, 0, len, decide (s.core.rs r = 0)⟩ } })
    ∧ ((vget s.core.loop.lv 0).active = false → (s.core.rs r).toNat ≤ 65528 →
      exec (.loopp st r n) s = .next { s with iss := { s.iss with
        loopReq := some ⟨0, true, (s.core.rs r).setWidth 16, st.toNat + 1, len, decide (s.core.rs r = 0)⟩ } }))
  ∧ ∀ (base s : State) (q : LoopReq),
    s.iss.hold = none → s.iss.claim = false → s.iss.overflow = none → s.iss.fault = none → s.iss.freeze = none →
    s.iss.next = none → s.iss.trap = none → s.iss.tret = false → s.iss.done = false → s.core.held = none →
    s.iss.loopReq = some q → q.level < 6 →
    let d := (base.finishIssue s).core
    let ls := s.core.loop
    let at_ (k : Nat) : Addr := s.core.pc + BitVec.ofNat 57 (24 * k)
    (q.skip = false →
      let v := vget d.loop.lv q.level
      d.pc = at_ 1 ∧ v.active = true ∧ v.piped = q.piped ∧ v.lidx = 0 ∧ v.first = at_ 1 ∧ v.last = at_ q.len
        ∧ v.lcnt = (if q.piped then BitVec.ofNat 16 (q.count.toNat + q.stages - 1) else q.count)
        ∧ (∀ l, l < 6 → l ≠ q.level → vget d.loop.lv l = vget ls.lv l)
        ∧ (q.piped = true → d.loop.plc = BitVec.ofNat 16 (q.count.toNat - 1) ∧ d.loop.pec = BitVec.ofNat 4 (q.stages - 1)
          ∧ d.loop.sg = 1 ∧ d.loop.stages = q.stages)
        ∧ (q.piped = false → d.loop.plc = ls.plc ∧ d.loop.pec = ls.pec ∧ d.loop.sg = ls.sg))
    ∧ (q.skip = true →
      d.pc = (ls.endStep (at_ q.len)).2.getD (at_ (q.len + 1)) ∧ d.loop.lv = (ls.endStep (at_ q.len)).1.lv
        ∧ ((∀ l, l < 6 → (vget ls.lv l).active = true → (vget ls.lv l).last ≠ at_ q.len) →
          d.pc = at_ (q.len + 1) ∧ d.loop.lv = ls.lv))

/-- R225: the last bundle of a counted body goes back to its first until the count is reached, and then falls through. R227: that of a
LOOPP's body goes back while PLC or PEC is left, one of them lower by one, with the stage predicates shifted and sg0 true while PLC was
left; then the level ends, and the stage predicates are cleared. -/
def Obligations.LoopGoesRound : Prop :=
  (∀ (ls : LoopSeq) (l : Nat) (x : Addr), l < 6 →
    (vget ls.lv l).active = true → (vget ls.lv l).piped = false → (vget ls.lv l).last = x →
    (∀ k, k < l → (vget ls.lv k).active = true → (vget ls.lv k).last ≠ x) →
    ((vget ls.lv l).lidx.toNat + 1 < (vget ls.lv l).lcnt.toNat →
      (ls.endStep x).2 = some (vget ls.lv l).first
        ∧ (vget (ls.endStep x).1.lv l).lidx = (vget ls.lv l).lidx + 1 ∧ (vget (ls.endStep x).1.lv l).active = true)
    ∧ ((vget ls.lv l).lcnt.toNat ≤ (vget ls.lv l).lidx.toNat + 1 → (vget (ls.endStep x).1.lv l).active = false))
  ∧ ∀ (ls : LoopSeq) (x : Addr),
    (vget ls.lv 0).active = true → (vget ls.lv 0).piped = true → (vget ls.lv 0).last = x →
    let e := (ls.endStep x).1
    let lanes : BitVec 8 := BitVec.ofNat 8 (2 ^ ls.stages - 1)
    let again : Prop := (ls.endStep x).2 = some (vget ls.lv 0).first
      ∧ vget e.lv 0 = { vget ls.lv 0 with lidx := (vget ls.lv 0).lidx + 1 } ∧ ∀ k, 0 < k → k < 6 → vget e.lv k = vget ls.lv k
    (ls.plc ≠ 0 → again ∧ e.plc = ls.plc - 1 ∧ e.pec = ls.pec ∧ e.sg = ((ls.sg <<< 1) ||| 1) &&& lanes)
    ∧ (ls.plc = 0 → ls.pec ≠ 0 → again ∧ e.plc = 0 ∧ e.pec = ls.pec - 1 ∧ e.sg = (ls.sg <<< 1) &&& lanes)
    ∧ (ls.plc = 0 → ls.pec = 0 →
      (∀ k, 0 < k → k < 6 → (vget ls.lv k).active = true → (vget ls.lv k).last ≠ x) →
      (ls.endStep x).2 = none ∧ (vget e.lv 0).active = false ∧ e.sg = 0 ∧ ∀ k, 0 < k → k < 6 → vget e.lv k = vget ls.lv k)

/-- R66, R229: MPUSH copies the active mask, MINV inverts the top within the entry below, MPOP removes the top; an empty or a
full stack takes FLT_MSTK. -/
def Obligations.MaskStacks : Prop :=
  ∀ (s : State) (v : BitVec 1), s.core.newt = false → s.active = true →
    let b := decide (v = 1)
    let m := s.core.mask b
    let depth := m.length + s.core.inflightMasks b
    let put (l : List (BitVec 64)) : State := { s with core := s.core.setMask b l }
    (depth + s.iss.compares b + 1 ≤ 8 → exec (.mpush v) s = .next (put (m.headD (BitVec.allOnes 64) :: m)))
    ∧ (8 < depth + s.iss.compares b + 1 →
      exec (.mpush v) s = .next (s.raise 3 0x06 0 false (BitVec.ofNat 64 (b2n b)) (BitVec.ofNat 64 depth)))
    ∧ (∀ t r, m = t :: r → exec (.mpop v) s = .next (put r)
      ∧ exec (.minv v) s = .next (put ((~~~t &&& r.headD (BitVec.allOnes 64)) :: r)))
    ∧ (m = [] →
      exec (.mpop v) s = .next (s.raise 3 0x06 0 false (BitVec.ofNat 64 (b2n b)) (BitVec.ofNat 64 depth))
        ∧ exec (.minv v) s = .next (s.raise 3 0x06 0 false (BitVec.ofNat 64 (b2n b)) (BitVec.ofNat 64 depth)))

/-- R231, R232, R235: a wait whose condition is met lets its bundle go on, and holds it otherwise; the accesses of a bundle that
goes on follow what it waited for (R149 to R151). The value register of WAITC is read when the bundle first reaches issue, and
kept. -/
def Obligations.Waits : Prop :=
  ∀ (s : State), s.active = true → s.iss.hold = none →
    let u := s.synced
    let holds (x : State) (w : Wait) : State := { x with iss := { x.iss with hold := some w, holdSlot := s.iss.slot } }
    (∀ t : BitVec 4, exec (.waitt t) s = .next (if s.core.pending t.toNat then holds u (.token t) else u))
    ∧ (∀ c r : BitVec 5, (s.core.newt = true ∨ c ≤ 15) →
      let v := s.core.waitcVal.getD ((s.core.rs r).setWidth 32)
      let x : State := { u with iss := { u.iss with waitc := some v } }
      exec (.waitc c r) s = .next (if (vget s.core.regs.ac c.toNat - v).toNat < 2 ^ 31 then x else holds x (.counter c v))
        ∧ ∀ b : Bundle, (s.core.keepBundle b x.iss).waitcVal = some v)
    ∧ exec .waitr s = .next (if s.core.posts = 0 then u else holds u .mailbox)
    ∧ (∀ b : BitVec 5, s.core.newt = false →
      exec (.barw b) s = .next (if s.arrivalOpen s.core.key b.toNat then holds u (.barrier b) else u))

/-- R233, R234: BARA records the core's arrival at its task's barrier, unless the core's last arrival there is open; on a newt
BARA and BARW are ILLEGAL. -/
def Obligations.BarrierArrival : Prop :=
  ∀ (s : State) (b : BitVec 5) (sc : BitVec 3) (q : BitVec 2),
    (s.core.newt = true → exec (.bara b sc q) s = .next s.illegal ∧ exec (.barw b) s = .next s.illegal)
    ∧ (s.core.newt = false → s.active = true → s.arrivalOpen s.core.key b.toNat = false →
      ∃ t, exec (.bara b sc q) s = .next t ∧ t.core = s.core ∧ t.iss = s.iss ∧ t.mem = s.mem
        ∧ ∀ k, s.taskOf s.core.key = some k → ∃ k', t.taskOf s.core.key = some k'
          ∧ (vget k'.bars b.toNat).arrived = (vget k.bars b.toNat).arrived ++ [⟨s.core.key, sc, q, s.core.pipes.bundleNo⟩]
          ∧ (vget k'.bars b.toNat).phase = (vget k.bars b.toNat).phase)

/-- R35, R236, R237, R238: MBTAKE, MBREPLY and LAUNCH on the newts that may run them, and their refusal elsewhere. -/
def Obligations.NewtPrograms : Prop :=
  ∀ (s : State) (r q : BitVec 5), s.core.fen < 30 →
    (s.isMaster = false → exec (.mbtake r) s = .next s.illegal ∧ exec (.mbreply r q) s = .next s.illegal)
    ∧ (s.core.newt = false → exec (.launch r) s = .next s.illegal)
    ∧ (s.isMaster = true → s.active = true → (s.core.rs r).toNat % 16 = 0 → s.core.sp.poison = [] →
      (((vget s.fens s.core.fen).mailbox.find? fun e => e.open s.core.ctx.toNat) = none →
        exec (.mbtake r) s = .next (s.result 3 (.spWrite ((s.core.rs r).toNat % 2 ^ 18) (List.replicate 16 0))))
      ∧ ∀ e, ((vget s.fens s.core.fen).mailbox.find? fun e => e.open s.core.ctx.toNat) = some e →
        exec (.mbtake r) s = .next ((s.onFen s.core.fen fun x => { x with
          mailbox := firstMap (fun e => e.open s.core.ctx.toNat) (fun e => { e with taken := true }) x.mailbox }).result 3
          (.spWrite ((s.core.rs r).toNat % 2 ^ 18) (bvBytes (e.bits ||| BitVec.ofNat 128 (2 ^ 42))))))
    ∧ (s.isMaster = true → s.active = true → bit (s.core.rs q) 43 = false →
      let reply : Reply :=
        ⟨s.core.rs r, BitVec.ofNat 6 (bits (s.core.rs q) 63 58), some (s.core.key, s.core.pipes.bundleNo)⟩
      let mine (e : MbEntry) : Bool :=
        e.taken && decide (mbKind e.bits = 0) && decide (mbPoster e.bits = mbPoster ((s.core.rs q).setWidth 128))
      exec (.mbreply r q) s = .next ((s.onFen s.core.fen fun x => { x with mailbox := firstDrop mine x.mailbox }).onCore
        (128 * s.core.fen + bits (s.core.rs q) 57 51) fun c => { c with replies := c.replies ++ [reply] }))
    ∧ (s.core.newt = true → s.active = true →
      (s.outstanding s.core.ctx.toNat < 64 → exec (.launch r) s = .next (s.onCtx s.core.ctx.toNat fun x => { x with
        pending := x.pending ++ [⟨s.core.ctx, s.core.key, s.core.rs r, s.core.pipes.bundleNo, [], none⟩] }))
      ∧ (64 ≤ s.outstanding s.core.ctx.toNat → s.iss.hold = none → exec (.launch r) s
        = .next { s with iss := { s.iss with hold := some .launchSlot, holdSlot := s.iss.slot } }))

/-- R239 to R242: TRAP, TRET and DONE act when their bundle commits; TRET outside handler mode and DONE within it are
ILLEGAL. -/
def Obligations.TrapReturnDone : Prop :=
  ∀ (s : State),
    (s.active = true → (∀ c : BitVec 8, exec (.trap c) s = .next { s with iss := { s.iss with trap := some c } })
      ∧ (s.core.held.isSome = true → exec .tret s = .next { s with iss := { s.iss with tret := true } })
      ∧ (s.core.held = none → exec .done s = .next { s with iss := { s.iss with done := true } }))
    ∧ (s.core.held = none → exec .tret s = .next s.illegal) ∧ (s.core.held.isSome = true → exec .done s = .next s.illegal)

/-! ### The walkers (R33 to R43, R155 to R163) -/

/-- R33, R34, R41 to R43, R157 to R159, R161, R162, R342: a launch taken, refused, or stopped at a read that faults, with what has
been read kept; a group instantiated, a node dispatched, a node aged, a core's task finished, a node's decrements, and a launch
complete. -/
def Obligations.WalkerEvents : Prop :=
  (∀ (s u : State) (n : BitVec 6) (q : LaunchReq) (rest : List LaunchReq) (got : List (List Byte)) (e : Option FaultInfo),
    let x := vget s.ctxs n.toNat
    let fen := x.home.toNat
    x.pending = q :: rest → x.live = true → s.dieLost 0 = false → q.stop = none → q.ctx = n → s.launchOrdered q = true →
    s.readOn fen n.toNat (launchNext q.addr) launchReads q.got = (got, e, u) →
    (∀ f, e = some f → exec (.launchTake n) s = .next ((u.onCtx n.toNat fun y => { y with
      pending := { q with got := got, stop := some u.seq } :: rest }).postStop (.launch n) (walkerRec fen n.toNat f)))
    ∧ (∀ c, e = none → launchOf q.addr u.fenClosed got = .error c →
      exec (.launchTake n) s = .next (((u.onCtx n.toNat fun y => { y with pending := rest }).post
        (walkerRec fen n.toNat ⟨0x10, c.1, true, q.addr, BitVec.ofNat 64 c.2, 0⟩)).postCend n.toNat))
    ∧ ∀ y carea nodes, e = none → launchOf q.addr u.fenClosed got = .ok (y, carea, nodes) →
      let l := q.launch u.nextLaunch y carea nodes
      l.groups ≠ 0 → exec (.launchTake n) s = .next { u.onCtx n.toNat fun z => { z with
          pending := rest, lnchst := lnchstAdd z.lnchst (bytesToNat (y.cnt.getD []) - l.groups) false } with
        nextLaunch := u.nextLaunch + 1, launches := u.launches ++ [l] })
  ∧ (∀ (s : State) (id k : Nat) (l : Launch),
    s.launch id = some l → l.slots.toList.findIdx? (·.isNone) = some k → l.nextGroup < l.groups →
    (vget s.ctxs l.ctx.toNat).live = true →
    let y : Launch := { l with
      nextGroup := l.nextGroup + 1
      slots := vset l.slots k (some ⟨l.nextGroup, l.nodes.map (·.pred), l.nodes.map fun _ => false⟩) }
    exec (.groupInstantiate id) s = .next ((List.range l.nodes.length).foldl
      (fun u i => if (l.nodes[i]?).elim false (fun n => decide (n.pred = 0)) then u.makeReady y k i else u)
      (s.onLaunch id fun _ => y)).nextOrder)
  ∧ (∀ (s : State) (fen : FenNo) (p : Nat) (r : ReadyNode),
    let f := vget s.fens fen.val
    s.dieLost 0 = false → (∀ y ∈ f.ready, s.agingDue f y = false ∧ s.refusable y = false) → s.reservedGo fen.val = none →
    s.choose fen.val = some (p, r) →
    exec (.dispatch fen) s
      = .next ((s.dispatchNode fen.val r).onFen fen.val fun f => { f with last := vset f.last p r.ctx }))
  ∧ (∀ (s : State) (fen : FenNo) (idx : Nat) (r : ReadyNode),
    let f := vget s.fens fen.val
    f.ready[idx]? = some r → s.agingDue f r = true →
    ((r.eff < 3 ∨ r.aged = false) → exec (.nodeAging fen idx) s = .next (s.onFen fen.val fun f => { f with
      ready := mapIf (·.same r) (fun x => { x with eff := min 3 (x.eff + 1), aged := true, passed := 0 }) f.ready }))
    ∧ (3 ≤ r.eff → r.aged = true →
      (∀ x ∈ f.ready, x.same r = false → x.eff < 3 ∨ x.aged = false ∨ s.agingDue f x = false ∨ r.before x = true) →
      (f.ready.filter (·.same r)) = [r] →
      exec (.nodeAging fen idx) s = .next (s.onFen fen.val fun f => { f with resv := some (r.launch, r.gslot, r.node) })))
  ∧ (∀ (s : State) (key : CoreKey),
    let c := (s.getCore key).landDue
    let u := s.putCore { c with status := .idle }
    c.status = .finishing → c.quiet = true → (vget s.ctxs c.ctx.toNat).pst = 0 →
    exec (.coreTaskFinish key) s = .next (if !c.newt then u.memberDone key
      else if s.serving key then u.onFen c.fen fun f => { f with service := none } else u))
  ∧ (∀ (s : State) (fen : FenNo) (idx : Nat) (d : DoneNode) (l : Launch) (n : GNode),
    let u := s.onFen fen.val fun f => { f with doneNodes := f.doneNodes.eraseIdx idx }
    (vget s.fens fen.val).doneNodes[idx]? = some d → s.launch d.launch = some l → l.nodes[d.node]? = some n →
    exec (.nodeFinish fen idx) s = .next ((n.succ.foldl (fun v k => v.decrement d.launch d.gslot k) u).onLaunch d.launch
      fun l => l.mark d.gslot d.node).nextOrder)
  ∧ ∀ (s : State) (id : Nat) (l : Launch),
    s.launch id = some l → l.groups ≤ l.nextGroup → (∀ x ∈ l.slots.toList, x = none) →
    exec (.launchComplete id) s = .next (({ s with
      launches := s.launches.filter fun x => decide (x.id ≠ id) }.launchDone l).postCend l.ctx.toNat)

/-! ### A core between its bundles (R46, R57, R59, R103, R105, R148, R335) -/

/-- R46, R57, R59, R103, R105, R148 and R335: results land, the freeze line rises and falls, a late fault stops the core, writes
from the network land in their bank, a bank switch ends, and a generator moves one vector. -/
def Obligations.CoreEvents : Prop :=
  (∀ (s : State) (key : CoreKey), exec (.resultLand key) s = .next (s.onCore key Core.landDue))
  ∧ (∀ (s : State) (key : CoreKey),
    let c := (s.getCore key).landDue
    s.issues c = true → c.lateLoad = true →
    exec (.freeze key) s = .next (((s.putCore c).focus key).freezeCycle 0xFF))
  ∧ (∀ (s : State) (key : CoreKey) (id : Nat) (a : Access),
    let c := s.getCore key
    let d := (c.onAccess id fun a => { a with arrived := true }).landDue
    c.access id = some a → a.store = false → a.complete = true → a.faulted = false →
    exec (.globalLoadArrive key id) s
      = .next (s.putCore { d with frozen := d.frozen && !(c.lateLoad && !d.lateLoad) }))
  ∧ (∀ (s : State) (key : CoreKey) (r : FaultRec),
    (s.getCore key).dfFault = some r → s.issues (s.getCore key) = true →
    exec (.directFormFault key) s = .next ((s.focus key).stopDirect r))
  ∧ (∀ (s : State) (key : CoreKey) (idx : Nat) (w : NetWrite) (d : Core),
    let u := s.onCore key fun x => { x with sp := { x.sp with net := (s.getCore key).sp.net.eraseIdx idx } }
    (s.getCore key).sp.net[idx]? = some w → (s.getCore key).netFirst idx w = true →
    u.windowAt (fenOfKey key) key w.srcKey w.ctx = true →
    (u.getCore key).netWrite w.addr w.bytes 0 = .done d →
    exec (.networkWriteLand key idx) s = .next ((u.putCore d).onCore w.srcKey fun x => x.storeDone w.access w.piece))
  ∧ (∀ (s : State) (key : CoreKey) (bank : BitVec 3) (i : Nat) (d : Core),
    let c := s.getCore key
    let u := s.onCore key fun x => { x with sp := { x.sp with fifoHeld := x.sp.fifoHeld.eraseIdx i } }
    let w := c.sp.fifoHeld.getD i default
    (c.sp.fifoHeld.findIdx? fun w => decide (bankOf (w.addr % c.spSize) = bank.toNat)) = some i →
    s.windowOpen key w.srcKey w.ctx = true → (u.getCore key).netWrite w.addr w.bytes 0 = .done d →
    exec (.fifoHeldWrite key bank) s = .next ((u.putCore d).onCore w.srcKey fun x => x.storeDone w.access w.piece))
  ∧ (∀ (s : State) (key : CoreKey) (bank : BitVec 3) (x : Cmd),
    let c := (s.getCore key).landDue
    s.enginesHeld c = false → (c.switches bank.toNat).find? (·.started) = some x → c.bankInUse bank.toNat = false →
    ∃ d : Core, exec (.bankSwitchDone key bank) s = .next (s.putCore d)
      ∧ (vget d.sp.bank bank.toNat).mode = (vget c.sp.bank bank.toNat).pend
      ∧ (vget d.sp.bank bank.toNat).sw = decide (1 < (c.switches bank.toNat).length)
      ∧ (∀ a, bankOf a = bank.toNat → d.sp.mem.read a = 0)
      ∧ (∀ a, bankOf a ≠ bank.toNat → d.sp.mem.read a = c.sp.mem.read a)
      ∧ d.regs = c.regs ∧ d.vs = c.vs)
  ∧ ∀ (s : State) (key : CoreKey) (g : BitVec 2),
    s.agMoves (s.getCore key) g.toNat = true →
    exec (.agFetch key g) s = .next (s.putCore ((s.getCore key).landDue.agFetch g.toNat))

/-! ### The matrix unit, the sequencers and barriers after issue (R64, R151, R273 to R291, R296, R297) -/

/-- R64, R151, R274, R276, R282, R284, R287, R291, R296, R297: an MMA's scale bytes are read, its array work ends and its step
lands; a latch row lands, a codebook is ready, a command starts and completes, and a barrier goes to its next phase. -/
def Obligations.UnitEvents : Prop :=
  (∀ (s : State) (key : CoreKey) (id : Nat) (m : Mma),
    let c := s.getCore key
    (c.mx.mmas.find? fun m => decide (m.id = id)) = some m →
    (∀ u v ga gb,
      let base : Word := BitVec.ofNat 64 (shAt m.shape 440 384)
      m.unread = true → c.unitStopped = false → s.issues c = true → s.scalesMay c m = true →
      s.readScales key m.bundle base m.blocksA.flatten = .ok (ga, u) →
      u.readScales key m.bundle base m.blocksB.flatten = .ok (gb, v) →
      s.turn (.scales key id) = .next (v.onCore key fun c => c.onMma id fun m => { m with scales := some (ga, gb) }))
    ∧ (s.unitMoves c = true → c.arrayMay m = true →
      s.turn (.array key id) = .next (s.onCore key fun c => c.onMma id fun m => { m with arrayDone := true })
      ∧ exec (.mmaStepLand key id) s
        = .next (s.onCore key fun c => c.landMma m (m.scales.getD ([], [])).1 (m.scales.getD ([], [])).2)))
  ∧ (∀ (s u : State) (key : CoreKey) (lt : BitVec 2) (r : Reed) (bs : List Byte),
    let c := s.getCore key
    (c.mx.reeds.find? fun r => decide (r.lt = lt)) = some r → s.unitMoves c = true → c.unitStopped = false →
    (∀ i ∈ r.waits, c.cmd i = none) → s.reedRow c r = .ok (bs, u) → (bShape r.btype.toNat).rows ≤ r.row + 1 →
    exec (.latchreedRowLand key lt) s = .next (u.onCore key fun c => { c with errs := errsWithout (3, 4 + lt.toNat) c.errs, mx := { c.mx with
      lt := vset c.mx.lt lt.toNat (latchImage (r.got ++ bs))
      reeds := c.mx.reeds.filter fun x => decide (x.lt ≠ lt) } }))
  ∧ (∀ (s : State) (key : CoreKey) (cb : BitVec 2),
    let c := s.getCore key
    s.unitMoves c = true → vget c.mx.cbkBusy cb.toNat = some 0 →
    exec (.codebookTableReady key cb) s = .next (s.onCore key fun c => { c with mx := { c.mx with
      cbkBusy := vset c.mx.cbkBusy cb.toNat none } }))
  ∧ (∀ (s : State) (key : CoreKey) (id : Nat) (x : Cmd),
    let c := s.getCore key
    c.cmd id = some x → x.started = false → c.seqStopped x = false → c.frozen = false → (∀ i ∈ x.waits, c.cmd i = none) →
    s.saveStops c = false →
    exec (.engineCommandStart key id) s = .next (match kindOf x.op with
      | some kind => s.startPost c x kind
      | none =>
        if x.op = .gwait then (if (vget s.fens c.fen).master.isNone then s.noMaster key x 8 else s.startGwait key x)
        else s.onCore key fun c => c.putCmd { x with started := true }))
  ∧ (∀ (s : State) (key : CoreKey) (id : Nat) (x : Cmd),
    let c := s.getCore key
    c.cmd id = some x → x.finished = true → x.posted = [] → s.enginesHeld c = false → s.writesDone (.cmd key id) = true →
    exec (.engineCommandComplete key id) s = .next ((s.onCore key fun c => c.completeCmd id).commandEnded key id))
  ∧ (∀ (c : Core) (id : Nat) (x : Cmd), c.cmd id = some x → x.tok ≠ 0 →
    (c.completeCmd id).cmd id = none
      ∧ ((∀ y ∈ c.pipes.cmds, y.id ≠ id → y.tok ≠ x.tok) → (c.completeCmd id).pending x.tok.toNat = false))
  ∧ ∀ (s : State) (key : CoreKey) (bar : BitVec 5) (t : Task),
    s.taskOf key = some t → s.phaseOver t (vget t.bars bar.toNat) = true →
    exec (.barrierComplete key bar) s = .next (s.onTask key fun u => { u with
      bars := vset u.bars bar.toNat { vget t.bars bar.toNat with phase := (vget t.bars bar.toNat).phase + 1, arrived := [] } })

/-! ### Mailbox and collectives (R53, R165 to R171, R237, R330, R390 to R393) -/

/-- R53, R165 to R167, R237, R389, R390: an entry placed, or stopped where the fen has no master any more; an entry taken to be served, the service program started or the hardware's
answer in its place, and a reply landing in s31. -/
def Obligations.MailboxEvents : Prop :=
  (∀ (s : State) (fen : FenNo) (w : MbWait) (x : Cmd),
    let f := vget s.fens fen.val
    f.mbWait.find? s.postMay = some w → (s.getCore w.key).cmd w.cmd = some x →
    let u := s.onFen fen.val fun f => { f with
      mbWait := f.mbWait.filter fun y => !(decide (y.key = w.key) && decide (y.cmd = w.cmd)) }
    (f.master.isSome = true → f.mailbox.length < 32 → s.postAhead fen.val w.order = false →
      exec (.mailboxPlace fen) s = .next (u.placeEntry (s.getCore w.key) x ((kindOf x.op).getD 0)))
    ∧ (f.master = none → exec (.mailboxPlace fen) s = .next (u.noMaster w.key x ((kindOf x.op).getD 0))))
  ∧ (∀ (s : State) (fen : FenNo) (i : Nat),
    let f := vget s.fens fen.val
    f.master.isSome = true →
    ((f.reading.findIdx? fun e => e.stop.isNone && s.mayServe fen.val e) = some i →
      exec (.mailboxTake fen) s
        = .next ((s.onFen fen.val fun x => { x with reading := x.reading.eraseIdx i }).serve fen (f.reading.getD i default)))
    ∧ ((∀ e ∈ f.reading, e.stop = none → s.mayServe fen.val e = false) →
      (f.mailbox.findIdx? fun e => decide (mbKind e.bits ≠ 0) && !s.dpostHeld fen.val e) = some i →
      s.mayServe fen.val (f.mailbox.getD i default) = true →
      exec (.mailboxTake fen) s
        = .next ((s.onFen fen.val fun x => { x with mailbox := x.mailbox.eraseIdx i }).serve fen (f.mailbox.getD i default))))
  ∧ (∀ (s : State) (fen : FenNo) (site : Nat) (e : MbEntry),
    let f := vget s.fens fen.val
    let none_ (e : MbEntry) : Bool := decide (mbKind e.bits = 0) && !e.taken && (vget s.ctxs (mbCtx e.bits)).noProgram
    f.master = some site →
    (f.mailbox.find? none_ = some e →
      exec (.mailboxServiceStart fen) s = .next ((s.onFen fen.val fun f => { f with
        mailbox := firstDrop none_ f.mailbox }).replyTo e 0xFFFFFFFFFFFFFFFF))
    ∧ ((∀ y ∈ f.mailbox, none_ y = false) → (f.mailbox.find? fun e => decide (mbKind e.bits = 0) && !e.taken) = some e →
      f.service = none → (s.getCore (newtKey fen.val site)).status = .idle → s.newtTaken fen.val = false →
      exec (.mailboxServiceStart fen) s
        = .next (s.startService fen.val (newtKey fen.val site) (BitVec.ofNat 6 (mbCtx e.bits)))))
  ∧ (∀ (s : State) (key : CoreKey) (r : Reply) (rest : List Reply),
    (s.getCore key).replies = r :: rest → s.replyOrdered r = true →
    exec (.mailboxReplyLand key) s = .next ((s.onCore key fun c => { c with replies := rest }).onPoster key r.ctx
      fun c => c.landReply r.payload))
  ∧ ∀ (c : Core) (v : Word), (c.posts = 0 → c.landReply v = c)
    ∧ (c.posts ≠ 0 → (c.landReply v).rs 31 = v ∧ (c.landReply v).posts = c.landDue.posts - 1)

/-- R170, R171, R330, R352, R388, R392 and R393: a part of a transfer's source is read and the transfer emitted, or refused for
its peer; a transfer arrives, is discarded, refused, held or lands a piece; a held one is delivered, and a long hold posts XHOLD
once. -/
def Obligations.CollectiveEvents : Prop :=
  (∀ (s : State) (fen : FenNo) (idx : Nat) (c : CollRec),
    let f := vget s.fens fen.val
    f.colls[idx]? = some c → f.master.isSome = true → c.stop = none → c.pos < c.total → f.unacked < 1024 →
    (∀ k, s.peerCause c.member = some k → exec (.collTransferEmit fen idx) s = .next (s.stopPeer fen c c.pos k))
    ∧ ∀ u p bs,
      s.peerCause c.member = none →
      c.nextPart fen = some p → s.collPart fen c p = .ok bs u →
      exec (.collTransferEmit fen idx) s
        = .next (if cBytes c.record ≤ (c.data ++ bs).length then u.emit fen c (c.gather fen (c.data ++ bs))
          else u.onColl fen.val c.serial fun y => { y with data := c.data ++ bs }))
  ∧ (∀ (s : State) (fen : FenNo) (idx : Nat) (t : Transfer) (n : Nat),
    let f := vget s.fens fen.val
    let drop (u : State) : State := u.onFen fen.val fun x => { x with arriving := x.arriving.eraseIdx idx }
    let keep (u : State) : State := u.onFen fen.val fun x => { x with arriving := x.arriving.set idx ⟨t, n + 1⟩ }
    f.arriving[idx]? = some ⟨t, n⟩ →
    (f.seen.contains t.key = true → exec (.transferArrive fen idx) s = .next ((drop s).collCounted t.key))
    ∧ (f.seen.contains t.key = false → n ≠ 0 → s.memberClosed fen.val t.member t.ctx = true → f.partBehind fen.val idx t = false →
      exec (.transferArrive fen idx) s = .next ((drop s).onFen fen.val fun x => { x with held := (.transfer t n, false) :: x.held }))
    ∧ (f.seen.contains t.key = false → s.transferStopped t.key = false →
      (∀ k, n = 0 → s.arrivalCause fen.val t.member = some k →
        exec (.transferArrive fen idx) s = .next ((drop s).transferRefused t.key k))
      ∧ ((n ≠ 0 ∨ s.arrivalCause fen.val t.member = none) →
        (n = 0 → (s.memberClosed fen.val t.member t.ctx = true ∨ s.memberHeld fen.val t.member t.ctx = true) →
          exec (.transferArrive fen idx) s = .next ((drop s).holdAt fen.val (.transfer t n)))
        ∧ (s.memberClosed fen.val t.member t.ctx = false → (n ≠ 0 ∨ s.memberHeld fen.val t.member t.ctx = false) →
          exec (.transferArrive fen idx) s = .next (s.landTransfer fen.val t n keep drop)))))
  ∧ (∀ (s : State) (fen : FenNo) (idx : Nat) (t : Transfer) (n : Nat) (noted : Bool),
    let f := vget s.fens fen.val
    let drop (u : State) : State := u.onFen fen.val fun x => { x with held := x.held.eraseIdx idx }
    f.held[idx]? = some (.transfer t n, noted) → s.heldOpen fen.val (.transfer t n) = true →
    (f.firstHeld fen.val idx (.transfer t n) = true ∨ (s.arrivalCause fen.val t.member).isSome = true) →
    (f.seen.contains t.key = true → exec (.heldTransferDeliver fen idx) s = .next ((drop s).collCounted t.key))
    ∧ (∀ k, f.seen.contains t.key = false → s.arrivalCause fen.val t.member = some k →
      exec (.heldTransferDeliver fen idx) s = .next ((drop s).transferRefused t.key k))
    ∧ (f.seen.contains t.key = false → exec (.heldTransferDeliver fen idx) s = .next (s.landTransfer fen.val t n
      (fun u => u.onFen fen.val fun x => { x with held := x.held.set idx (.transfer t (n + 1), noted) }) drop)))
  ∧ ∀ (s : State) (fen : FenNo) (idx : Nat) (t : Transfer) (n : Nat),
    let f := vget s.fens fen.val
    let h : HeldItem := .transfer t n
    f.held[idx]? = some (h, false) →
    exec (.xhold fen idx) s = .next ((s.onFen fen.val fun x => { x with held := x.held.set idx (h, true) }).post
      (eventRec 0x4D 0 t.ctx.toNat (fen.val / 5) (BitVec.ofNat 64 (if mNewt t.member then 0xFFF else 128 * fen.val + mCore t.member)) (t.ctx.setWidth 64)))

/-! ### Contexts, preemption and records (R30, R180 to R188, R336 to R358, R385 to R389) -/

/-- R30, R119, R182, R183, R185, R186, R242, R343: a context started, torn down and freed; translations invalidated; an
attestation asked for and answered. -/
def Obligations.ContextEvents : Prop :=
  (∀ (s : State) (n : BitVec 6) (k : CoreKey),
    let x := vget s.ctxs n.toNat
    s.mayStart n = true → s.idleNewt x.home.toNat = some k →
    exec (.contextStart n) s = .next (((s.started n).onCore k fun c => c.startConductor n x.entry).onConductor x.home.toNat n
      fun d => { d with state := .running }))
  ∧ (∀ (s : State) (n : BitVec 6),
    (s.visible = true → (vget s.ctxs n.toNat).state = 2 → exec (.contextTeardown n) s = .next (s.hostState n 3))
    ∧ (s.visible = true → (vget s.ctxs n.toNat).state = 3 → exec (.contextFree n) s = .next (s.hostState n 0))
    ∧ (s.visible = false → exec (.contextTeardown n) s = .next s ∧ exec (.contextFree n) s = .next s))
  ∧ (∀ (s : State) (v : Word), s.visible = true → bit s.pkg.tlbinv 63 = true →
    exec (.tlbinv v) s = .next { s with pkg := { s.pkg with tlbinv := v &&& 0x7FFFFFFFFFFF003F } })
  ∧ (∀ (s : State), bit s.pkg.tlbinv 63 = false → ∃ t, exec .tlbinvDone s = .next t
      ∧ t.pkg = { s.pkg with tlbinv := s.pkg.tlbinv ||| 0x8000000000000000 }
      ∧ (∀ e ∈ t.core.tlb, e ∈ s.core.tlb ∧ e.invalidated s.pkg.tlbinv = false)
      ∧ (∀ f, f < 30 → ∀ e ∈ (vget t.fens f).tlb, e.invalidated s.pkg.tlbinv = false)
      ∧ (∀ c ∈ t.cores, ∀ e ∈ c.tlb, e.invalidated s.pkg.tlbinv = false)
      ∧ t.core = { s.core with tlb := t.core.tlb } ∧ t.mem = s.mem)
  ∧ (∀ (s : State) (nonce : BitVec 256), s.visible = true → s.pkg.nonce = none →
    exec (.attn nonce) s = .next { s with pkg := { s.pkg with nonce := some nonce, attst := 0, attlen := 0, attr := [] } })
  ∧ ∀ (s : State) (n : BitVec 256), s.pkg.nonce = some n →
    exec (.attestationReady 0) s = .next { s.fresh with pkg := { s.pkg with
      nonce := none, attst := 1, attlen := BitVec.ofNat 64 (s.report n).length, attr := s.report n } }

/-- R21, R336, R337, R339, R346 to R350, R355 to R358, R387, R389: a record written to the ring and its vector, RESUME, a wait's
timeout, save and restore, a conductor's change, and the failover of a master. -/
def Obligations.RecordAndPreemptionEvents : Prop :=
  (∀ (s : State) (q : BitVec 32) (r : FaultRec) (rest : List (BitVec 32 × FaultRec)),
    s.ready = (q, r) :: rest → s.pkg.ringFull = false → s.dieLost 0 = false →
    exec .faultRecordPost s = .next (State.admitLate (State.noteTdown { s with
      ready := rest
      hostMem := s.hostMem.writeBytes
        (bits s.pkg.fqbase 47 12 * 4096 + 64 * (bits s.pkg.fqhead 31 0 % s.pkg.ringSize))
        (bvBytes (r.encode q (bit s.pkg.fqhead 32)))
      msixDue := true
      pkg := { s.pkg with fqhead := s.pkg.headNext } } r)))
  ∧ (∀ (s : State) (r : FaultRec),
    (s.dieFull r.die = false → (s.postStop (.core s.core.key) r).ready = s.ready ++ [(s.seq, r)])
    ∧ (s.dieFull r.die = true → (s.postStop (.core s.core.key) r).ready = s.ready
      ∧ (s.postStop (.core s.core.key) r).late = s.late ++ [(s.seq, r)]))
  ∧ (∀ (s : State),
    (s.msixDue = true → s.visible = true → exec .msiXVector0 s = .next { s with msix := s.msix ++ [0], msixDue := false })
    ∧ (s.visible = false → exec .msiXVector0 s = .next s))
  ∧ (∀ (s : State) (q : BitVec 32),
    (s.visible = true → exec (.resumeReplay q) s = .next (s.resume q false)
      ∧ exec (.resumeIgnoreBkpt q) s = .next (s.resume q true))
    ∧ (s.visible = false → exec (.resumeReplay q) s = .next s ∧ exec (.resumeIgnoreBkpt q) s = .next s))
  ∧ (∀ (s : State) (key : CoreKey) (r : FaultRec), (s.getCore key).status ≠ .idle →
    (s.getCore key).tmoDue (vget s.ctxs (s.getCore key).ctx.toNat) = some r →
    exec (.waitTimeout key) s
      = .next ((s.onCore key fun d => d.tmoPosted (vget s.ctxs (s.getCore key).ctx.toNat)).post r))
  ∧ (∀ (s : State) (n : BitVec 6),
    let x := vget s.ctxs n.toNat
    (s.visible = false → exec (.preemptSave n) s = .next s ∧ exec (.preemptRestore n) s = .next s)
    ∧ (s.visible = true → s.pkg.preemptBusy = none → x.state = 2 →
    (x.pst = 0 → x.savbBad = false → (s.taskCores n).length + 1 ≤ x.nslot →
      exec (.preemptSave n) s = .next { s.onCtx n.toNat fun y => { y.setCsts 1 false with
          saved := [], saveWait := (s.servers n).head?.map (·.ran) } with
        pkg := { s.pkg with preemptBusy := some n } })
    ∧ (x.pst = 2 → exec (.preemptRestore n) s = .next { s.onCtx n.toNat fun y => y.setCsts 3 (bit y.csts 2) with
        pkg := { s.pkg with preemptBusy := some n } })))
  ∧ (∀ (s : State) (n : BitVec 6),
    let u := (s.saveSlots n).foldl (fun v x => v.saveOut n x) s
    let v := if (vget u.ctxs n.toNat).saved.any (fun y => decide (y.slot = 0)) then u else u.saveConductor n
    (vget s.ctxs n.toNat).pst = 1 → (vget s.ctxs n.toNat).state = 2 → s.contextDrained n = true →
    v.taskCores n = [] → v.conductorCore n = none → v.emergAny n = false →
    (∀ a ∈ v.await, a.who ≠ .save n 4095) →
    exec (.saveRelease n) s = .next (v.savedNow n))
  ∧ (∀ (s u : State) (n : BitVec 6) (got : List (List Byte)),
    let x := vget s.ctxs n.toNat
    x.pst = 3 → (∀ a ∈ s.await, ∀ k, a.who ≠ .save n k) → s.restoreFree x = true →
    (∀ cs, s.readArea n (s.restoreParts n) x.readBack = (got, none, u) → x.loadAll got.flatten = some cs →
      exec (.restoreComplete n) s
        = .next (u.restoredNow n cs))
    ∧ ∀ f, s.readArea n (s.restoreParts n) x.readBack = (got, some f, u) →
      ∃ slot lcore, exec (.restoreComplete n) s
        = .next ((u.onCtx n.toNat fun y => { y with readBack := got }).postStop (.save n slot)
          (saveRec n x.home.toNat lcore f 2)))
  ∧ (∀ (s : State) (fen : FenNo) (k : CoreKey) (d : Conductor),
    let ready := (vget s.fens fen.val).conductors.filter s.conductorReady
    let count (x : Conductor) : Conductor := { x with passed := if x.ctx = d.ctx then 0 else x.passed + 1 }
    let u := s.fresh.onFen fen.val fun f => { f with
      conductors := mapIf (fun x => ready.any fun y => decide (y.ctx = x.ctx)) count f.conductors }
    s.conductorKey fen.val = some k → s.serving k = false → (s.getCore k).landDue.status = .idle →
    s.newtTaken fen.val = false → s.conductorPick ready = some d → d.image = none →
    exec (.conductorChange fen) s = .next ((u.onCore k fun c =>
      c.startConductor d.ctx (vget u.ctxs d.ctx.toNat).entry).onConductor fen.val d.ctx fun d => { d with state := .running }))
  ∧ ∀ (s : State) (fen : FenNo) (m b : Nat),
    let f := vget s.fens fen.val
    let was := if (s.getCore (newtKey fen.val m)).status = .running then f.service else none
    f.master = some m → f.standby = some b → (s.getCore (newtKey fen.val b)).status = .idle →
    exec (.newtFailover fen false) s = .next (((s.deadNewt fen.val m).newMaster fen m b was).nfail fen.val 1 m)

/-! ### The host (R7, R132, R180, R362, R366, R371, R373, R399, R400, R404) -/

/-- R132, R180, R362, R366, R371, R373, R399, R400 and R404: what the host reads and writes, the debug path, the event log, the
overflow window, a re-striping acknowledged, reboot, recovery and boot. -/
def Obligations.HostEvents : Prop :=
  (∀ (s : State) (die : DieNo) (cmd : Word),
    (s.dbgStarts die cmd 0 = true → exec (.debugRawRead die cmd) s = .next (s.dbgBegin die cmd))
    ∧ (s.dbgStarts die cmd 1 = true → exec (.debugDecodeRead die cmd) s = .next (s.dbgBegin die cmd))
    ∧ (s.dbgStarts die cmd 2 = true → s.dbgWriteOk die cmd = true →
      exec (.debugRawWrite die cmd) s = .next (s.dbgBegin die cmd))
    ∧ (s.dbgStarts die cmd 2 = true → s.dbgRecordOk die cmd = false →
      exec (.debugRawWrite die cmd) s = .next ((s.dbgTake die cmd).dbgFail die 2))
    ∧ (s.dbgStarts die cmd 2 = true → s.dbgRecordOk die cmd = true → s.runsTask (dbgCore cmd) (dbgCtx cmd) = false →
      exec (.debugRawWrite die cmd) s = .next ((s.dbgTake die cmd).dbgFail die 4))
    ∧ (bit (vget s.dies die.val).dbgst 0 = false → ∀ op, s.dbgStarts die cmd op = false))
  ∧   (∀ (s u : State) (die : DieNo) (cmd : Word) (bs : List Byte) (t : Byte),
    s.dbgStarts die cmd 0 = false → s.dbgMay die cmd 0 = true → (s.dbgTake die cmd).dbgRead die (dbgCtx cmd) (dbgSector cmd) = .ok bs t u →
    exec (.debugRawRead die cmd) s = .next ((u.dbgTagged die false t).onDie die.val fun d => { d with
      dbgst := dbgStatus 0 0, dbgraw := BitVec.ofNat 1024 (bytesToNat bs) }))
  ∧ (∀ (s u : State) (die : DieNo) (cmd : Word) (bs : List Byte) (t : Byte),
    s.dbgStarts die cmd 1 = false → s.dbgMay die cmd 1 = true → (s.dbgTake die cmd).dbgRead die (dbgCtx cmd) (dbgSector cmd) = .ok bs t u →
    exec (.debugDecodeRead die cmd) s = .next ((u.dbgTagged die false t).dbgDecode die cmd bs t))
  ∧ (∀ (s : State) (die : DieNo) (cmd : Word) (d : Core),
    s.dbgStarts die cmd 2 = false → s.dbgMay die cmd 2 = true → s.runsTask (dbgCore cmd) (dbgCtx cmd) = true →
    (s.getCore (dbgCore cmd)).netWrite (128 * (dbgAddr cmd % 8192)) (bvBytes (vget s.dies die.val).dbgraw)
      ((vget s.dies die.val).dbgtag.setWidth 8) = .done d →
    exec (.debugRawWrite die cmd) s = .next (((s.dbgTake die cmd).putCore d).onDie die.val fun x => { x with dbgst := dbgStatus 0 0 }))
  ∧ (∀ (s : State), s.visible = true →
    (∀ (pa : BitVec 48) (len : Nat),
      let ps := (partsOf pa.toNat len).map fun p => s.hostReadPart p.1 p.2
      exec (.hostMemRead pa len) s = .next ((partsOf pa.toNat len).foldl (fun u p => (u.request p.1).readNow p.1)
        { s.fresh with pkg := { s.pkg with hostRead := ps.flatMap (·.1), hostPoison := ps.any (·.2) } }))
    ∧ (∀ (pa : BitVec 48) (bs : List Byte), exec (.hostMemWrite pa bs) s = .next ((partsOf pa.toNat bs.length).foldl
      (fun (st : State × List Byte) p => (st.1.hostWritePart p.1 (st.2.take p.2), st.2.drop p.2)) (s, bs)).1)
    ∧ (∀ v : Word, s.dieLost 0 = false →
      exec (.hostRegisterWrite 0x08 v) s = .next (s.setCtxb v)
        ∧ exec (.hostRegisterWrite 0x40 v) s = .next { s with pkg := { s.pkg with fqbase := v &&& 0x0000FFFFFFFFF00F } }
        ∧ exec (.hostRegisterWrite 0x50 v) s = .next { s with pkg := { s.pkg with fqtail := v &&& 0x00000000FFFFFFFF } })
    ∧ (∀ (v : Word) (die : DieNo), s.dieLost die.val = false →
      exec (.hostRegisterWrite (BitVec.ofNat 32 (0x10000 * die.val + 0x1008)) v) s
        = .next (s.onDie die.val fun d => { d with heatb := v }))
    ∧ (s.pkg.recovery = false → s.dieLost 0 = false →
      s.registerRead 0x00 = s.pkg.mgst ∧ s.registerRead 0x08 = s.pkg.ctxb ∧ s.registerRead 0x40 = s.pkg.fqbase
        ∧ s.registerRead 0x48 = s.pkg.fqhead ∧ s.registerRead 0x50 = s.pkg.fqtail ∧ s.registerRead 0x78 = s.pkg.bootst
        ∧ s.registerRead 0x28 = 0)
    ∧ exec .getEventRecords s = .next { s with pkg := { s.pkg with
      hostRead := s.pkg.eventLog.flatMap (fun r => bvBytes (r.encode 0 false)), hostPoison := false } }
    ∧ (∀ n, exec (.clearEventRecords n) s = .next { s with pkg := { s.pkg with eventLog := s.pkg.eventLog.drop n } })
    ∧ (∀ v : Word, bits s.pkg.ovp 38 28 ≤ bits v 38 28 → (bits v 27 0 = bits s.pkg.ovp 27 0 ∨ s.pkg.ovpUsed = []) →
      exec (.ovp v) s = .next { s with pkg := { s.pkg with ovp := v &&& 0x0000007FFFFFFFFF } })
    ∧ (∀ die : DieNo, s.dieLost die.val = false → (vget s.dies die.val).phase = 1 →
      exec (.retstAck die) s = .next (s.onDie die.val fun d => { d with
        retst := setBits (setBits d.retst 63 62 2) 29 7 0 }))
    ∧ exec .recov s = .next { State.reset with
      mem := s.mem, tags := s.tags, poison := s.poison, flaws := s.flaws.filter fun x => decide (x.2 = .expansion)
      hostMem := s.hostMem, time := s.time, agenda := s.agenda, tick := s.tick
      pkg := { Pkg.reset with flashA := s.pkg.flashA, flashB := s.pkg.flashB, rollback := s.pkg.rollback } })
  ∧ (∀ (s : State) (off : BitVec 16) (bs : List Byte), s.pkg.recovery = true → off.toNat + bs.length ≤ 65536 →
    exec (.recoveryFlashWrite off bs) s
      = .next { s with pkg := { s.pkg with flashA := FlashSlot.of (putAtOff s.pkg.flashA.bytes off.toNat bs) } })
  ∧ ∀ (s : State) (r : BootInput),
    s.pkg.recovery = false → r.hostLink = true →
    (s.dieLost 0 = true → exec (.boot r) s = .next s)
    ∧ (s.dieLost 0 = false →
    (s.pkg.bootStep = 5 → exec (.boot r) s = .next (s.bootPorts r).bootReady)
    ∧ (s.pkg.bootStep ≠ 0 → s.pkg.bootStep ≠ 5 → s.pkg.bootSlot = none →
      exec (.boot r) s = .next (s.recoveryMode 1 ((s.pkg.stageCause 1).getD 0) 0))
    ∧ ∀ slot, s.pkg.bootStep ≠ 0 → s.pkg.bootStep ≠ 5 → s.pkg.bootSlot = some slot →
      (∀ c, s.pkg.dieCause slot r ⟨0, by decide⟩ = some c → exec (.boot r) s = .next (s.recoveryMode 2 c slot))
      ∧ (s.pkg.dieCause slot r ⟨0, by decide⟩ = none →
        exec (.boot r) s = .next (((s.bootDies slot r).bootTests r).bootLink slot)))

/-! ### Exchanges, leases, links (R114, R153, R176 to R179, R313, R375 to R386, R394 to R398) -/

/-- R176, R177, R179, R394, R395, R396, R397: an exchange decomposed, its calendars written to every member once the first
standby has its data, its phases begun, a close flit arriving and counted, its RCV word written, a source lost, XTMO, and the skink's
announcement and takeover. -/
def Obligations.ExchangeEvents : Prop :=
  (∀ (s : State) (idx : Nat) (p : XPend),
    let devs := maskDevs p.mask
    let n := devs.length
    let d := quanta n (devs.map fun x => (p.posts.find? fun y => decide (y.1 = x)).elim [] (·.2))
    s.skink.pending[idx]? = some p → s.skinkOn = true → s.skink.active = Config.deviceNo →
    (s.unmanned p = true → exec (.exchangeStart idx) s = .next s)
    ∧ (s.unmanned p = false → (p.first = true ∨ ∀ y ∈ s.skink.pending, y.first = false ∨ s.unmanned y = true) →
    (p.issue = none → p.full = true → exec (.exchangeStart idx) s = .next
      (State.announceIssue { s.fresh with skink := { s.skink with gen := s.skink.gen + 1 } } p
        ⟨d, s.skink.gen + 1, Config.startTime s.tick, Config.slotNs⟩))
    ∧ (∀ x, p.issue = some x → p.acked = true →
      exec (.exchangeStart idx) s = .next (devs.zipIdx.foldl
        (fun u y => if y.1 = Config.deviceNo then u.takeCalendar p.ctx p.xid (calendarOf s.skink.epoch n x y.2)
          else u.sendTo y.1 7 0 (.calendar p.ctx p.xid (calendarOf s.skink.epoch n x y.2)))
        { s with skink := { s.skink with
          pending := s.skink.pending.eraseIdx idx
          done := s.skink.done.filter (fun y => !(decide (y.1 = p.ctx) && decide (y.2.1 = p.xid)))
            ++ [(p.ctx, p.xid, p.mask, x.gen)] } }))
    ∧ (∀ x, p.issue = some x → p.acked = false → exec (.exchangeStart idx) s = .next s)))
  ∧ (∀ (s : State) (idx : Nat) (e : Exch) (c : Calendar) (p : Phase),
    s.exchs[idx]? = some e → e.cal = some c → c.phases[e.next]? = some p → s.exchStopped e = false →
    c.t0.toNat + c.slot.toNat * startSlot c e.next ≤ s.time →
    (e.phaseSends p = false →
      exec (.phaseStart idx) s = .next ((s.onExch e fun x => { x with next := x.next + 1 }).exchEnd e))
    ∧ (∀ u, e.phaseSends p = true → s.sendPhase e c p = .ok u →
      exec (.phaseStart idx) s = .next (u.exchEnd e))
    ∧ (∀ f u, e.phaseSends p = true → s.sendPhase e c p = .error (f, u) →
      exec (.phaseStart idx) s = .next (u.stopExch e f)))
  ∧ (∀ (s : State) (idx : Nat) (rank : BitVec 6) (bytes : BitVec 32) (e : Exch) (key : XferKey),
    let this (d : BitVec 6 × BitVec 32 × XferKey) : Bool := decide (d.1 = rank) && decide (d.2.1 = bytes)
    s.exchs[idx]? = some e → e.due.find? this = some (rank, bytes, key) → e.cal.isSome = true → e.todo = [] →
    s.exchStopped e = false → bytes.toNat ≤ e.got rank.toNat →
    exec (.closeFlitReceive idx rank bytes) s = .next (((s.onExch e fun x => { x with
      due := x.due.filter fun y => !this y, closed := rank.toNat :: x.closed }).onFen e.fen.val
        fun f => { f with seenClose := seenAdd f.seenClose key }).countOwner e (some key)))
  ∧ (∀ (s : State) (key : XferKey) (ctx : BitVec 6) (xid : BitVec 16) (gen bytes : BitVec 32) (e : Exch),
    let r := BitVec.ofNat 6 (rankOf (vMask e.vector) key.dev)
    (∀ f ∈ s.fens.toList, f.seenClose.contains key = false) → s.exchGen ctx xid gen = some e →
    (∀ d ∈ e.due, d.2.2 ≠ key) → setHas r.toNat e.closed = false →
    s.closeArrives key ctx xid gen bytes = (s.onExch e fun x => { x with
      due := x.due ++ [(r, bytes, key)], todo := x.todo ++ [.rcv r.toNat bytes] }).exchGo e)
  ∧ (∀ (s t : State) (e : Exch) (c : Calendar) (rank : Nat) (v : BitVec 32),
    s.writeVirt e.fen.val none e.ctx.toNat (BitVec.ofNat 64 (vCal e.vector + 64 + 4 * rank)) (bvBytes v) 0 = .ok t →
    s.exchWork e c (.rcv rank v) = .ok t
    ∧ (v = 0xFFFFFFFF → s.exchWork e c (.lost rank)
        = .ok ((t.onExch e fun x => { x with closed := rank :: x.closed }).countOwner e none)))
  ∧ (∀ (s : State) (idx : Nat) (p : XPend),
    let absent := BitVec.ofNat 64 p.missing
    s.skink.pending[idx]? = some p → ((p.full = false ∧ p.issue = none) ∨ s.unmanned p = true) → p.xtmo = false → s.skinkOn = true →
    s.skink.active = Config.deviceNo →
    exec (.xtmo idx) s = .next (p.posts.foldl
      (fun u x => if x.1 = Config.deviceNo then u.post (eventRec 0x4C 0 p.ctx.toNat 0 (p.xid.setWidth 64) absent)
        else u.sendTo x.1 7 0 (.xtmo p.ctx p.xid absent))
      { s with skink := { s.skink with pending := s.skink.pending.set idx { p with xtmo := true } } }))
  ∧ (∀ (s : State) (dev : DevNo) (epoch : BitVec 32),
    (dev = Config.deviceNo → s.skink.active = dev → s.skink.epoch = epoch → s.skinkOn = true →
      exec (.skinkAnnounce dev epoch) s = .next s.announce)
    ∧ (dev ≠ Config.deviceNo → (epoch < s.skink.epoch ∨ (epoch = s.skink.epoch ∧ dev ≠ s.skink.active)) →
      exec (.skinkAnnounce dev epoch) s = .next s)
    ∧ (dev ≠ Config.deviceNo → s.skink.epoch < epoch → s.skink.active ≠ Config.deviceNo →
      exec (.skinkAnnounce dev epoch) s
        = .next (State.postAgain { s with skink := { s.skink with active := dev, epoch := epoch } }))
    ∧ (dev ≠ Config.deviceNo → s.skink.epoch < epoch → s.skink.active = Config.deviceNo →
      exec (.skinkAnnounce dev epoch) s = .next (State.postAgain { s with skink := { s.skink with
        active := dev, epoch := epoch, pending := [], issued := [], done := [] } })))
  ∧ ∀ (s : State),
    let u : State := ({ s with skink := { s.skink with
      active := Config.deviceNo, epoch := s.skink.epoch + 1, pending := s.skink.inherit, issued := [] } } : State).post
        (eventRec 0x4A 0 0 0 (Config.deviceNo.setWidth 64) ((s.skink.epoch + 1).setWidth 64))
    s.skink.active ≠ Config.deviceNo → s.skinkOn = true → s.standbyOf s.skink.active = some Config.deviceNo →
    exec .skinkTakeover s = .next
      (u.skink.pending.foldl (fun v p => p.issue.elim v fun x => v.announceIssue p x) u.announce).postAgain

/-- R114, R153, R313, R376 to R378, R398: a lease asked for, granted, revoked, noticed, expired, and lost with its peer. -/
def Obligations.LeaseEvents : Prop :=
  (∀ (s u v : State) (fen : FenNo) (idx : Nat) (q : LeaseReq) (bs : List Byte) (r : LeaseReply),
    let w := v.onFen fen.val fun x => { x with leaseReqs := x.leaseReqs.filter fun y => !y.same q }
    (vget s.fens fen.val).leaseReqs[idx]? = some q → q.reply = none →
    s.readPlain fen.val none q.ctx.toNat q.addr 32 = .ok (bs, u) →
    u.writeVirt fen.val none q.ctx.toNat q.addr (bvBytes (grantFields (bitsOf 256 bs) r)) 0 = .ok v →
    exec (.leaseResponse fen idx r) s = .next ((match r with
      | .granted win lid => { w with leases := ⟨lid, true, q.lender, win, q.size, q.ctx, fen, q.addr, none, false⟩ :: w.leases }
      | .noCapacity => w
      | .badLender => w).endRequest q.poster q.ctx q.cmd))
  ∧ (∀ (s : State) (dev : DevNo) (size : BitVec 24),
    exec (.leaseRequestReceive dev size none) s = .next (s.sendTo dev 6 0 (.leaseReply .noCapacity))
    ∧ ∀ win : BitVec 48, s.grantable win size = true →
      exec (.leaseRequestReceive dev size (some win)) s = .next (State.sendTo
        { s with leases := s.leases ++ [Lease.mk s.freshLid false dev win size 0 ⟨0, by decide⟩ 0 none false] } dev 6 0
        (.leaseReply (.granted win s.freshLid))))
  ∧ (∀ (s : State) (v : Word) (l : Lease),
    let t : Word := BitVec.ofNat 64 (s.time + max (bits v 47 32) 2 * 1000000)
    s.leases.find? (·.lent (v.extractLsb' 0 32)) = some l → s.visible = true →
    exec (.lrevoke v) s = .next ((s.onLease (·.lent (v.extractLsb' 0 32)) (Lease.noticeBy · t)).sendTo l.peer 6 0
      (.leaseNotice (v.extractLsb' 0 32) t)))
  ∧ (∀ (s : State) (lender : DevNo) (lid : BitVec 32) (t : Word) (l : Lease),
    s.leases.find? (·.borrowed lender lid) = some l → l.expired = false →
    exec (.leaseNoticeReceive ⟨lender, lid⟩ t) s
      = .next ((s.onLease (·.borrowed lender lid) (Lease.noticeBy · t)).post (leaseRec 0x39 0 l t)))
  ∧ (∀ (s : State) (lid : BitVec 32) (l : Lease),
    (s.leases.find? fun l => decide (l.lid = lid) && !l.expired && s.noticeOver l) = some l →
    exec (.leaseExpiry lid) s = .next (if l.mine then s.borrowerX l 1 else s.lenderX l))
  ∧ ∀ (s : State) (dev : DevNo), s.unreachable dev = true →
    exec (.lenderUnreachable dev) s
      = .next ((s.leases.filter fun l => l.mine && decide (l.peer = dev) && !l.expired).foldl (fun u l => u.borrowerX l 2) s)
    ∧ exec (.borrowerUnreachable dev) s
      = .next ((s.leases.filter fun l => !l.mine && decide (l.peer = dev)).foldl (fun u l => u.lenderX l) s)

/-- R375, R379 to R386: a flit accepted in order or dropped, resent, a port retrained, up and down, a module and a peer lost,
and a die lost. -/
def Obligations.LinkEvents : Prop :=
  (∀ (s : State) (port : PortNo) (f : Flit),
    let p := vget s.ports port.val
    p.state = 2 → p.training = false →
    let q := p.acked s.time f
    (f.crc ≠ flitCrc f → exec (.flitReceive port f) s = .next (s.putPort port.val (p.crcError.drop f)))
    ∧ (f.crc = flitCrc f → flitSequenced f = false → exec (.flitReceive port f) s = .next (s.putPort port.val q).pump)
    ∧ (f.crc = flitCrc f → flitSequenced f = true → q.inOrder f = false →
      exec (.flitReceive port f) s = .next (s.putPort port.val (q.drop f)).pump)
    ∧ (f.crc = flitCrc f → flitSequenced f = true → q.inOrder f = true → f.dst ≠ Config.deviceNo →
      exec (.flitReceive port f) s = .next ((s.putPort port.val (q.accept f)).pump.forward f))
    ∧ (f.crc = flitCrc f → flitSequenced f = true → q.inOrder f = true → f.dst = Config.deviceNo →
      exec (.flitReceive port f) s = (s.putPort port.val (q.accept f)).pump.deliver f.src f.body))
  ∧ (∀ (s : State) (port : PortNo) (vc : BitVec 3),
    let p := vget s.ports port.val
    p.state = 2 → p.training = false →
    exec (.ackTimeout port vc) s = .next (s.putPort port.val (p.resend s.time vc.toNat))
      ∧ (((∃ v : Fin 8, 16 ≤ p.tries[v]) ∨ (p.resent.length = 64 ∧ ∀ t ∈ p.resent, s.time < t + 1000000)) →
        exec (.portRetrain port) s
        = .next (s.putPort port.val { p.setLink 1 p.width p.lanes with training := true })))
  ∧ (∀ (s : State) (port : PortNo) (lanes : BitVec 8),
    let p := vget s.ports port.val
    p.training = true →
    (widest lanes = none →
      exec (.retrainDone port lanes) s = .next ((s.portDown port).link (port.val / 6) 2 port.val 0))
    ∧ ∀ w l, widest lanes = some (w, l) →
      let t := (s.putPort port.val { p.setLink 2 w l with
        training := false, tries := Vector.replicate 8 0, resent := [] }).pump
      exec (.retrainDone port lanes) s = .next (if w = p.width then t else t.link (port.val / 6) 1 port.val l))
  ∧ (∀ (s : State) (port : PortNo) (lanes : BitVec 8) (peer : DevNo) (w l : Nat),
    (vget s.ports port.val).state = 0 → s.dieLost (port.val / 6) = false → widest lanes = some (w, l) →
    exec (.portUp port lanes peer) s = .next ((State.reroute
      { s.putPort port.val (Port.setLink { Port.reset with
          status := setBits (vget s.ports port.val).status 5 0 peer.toNat } 2 w l) with
        routes := vset s.routes peer.toNat (some ((vget s.routes peer.toNat).getD port)) }
      (fun d r => decide (d ≠ Config.deviceNo) && r.isNone) [port]).peersBack.pump.link (port.val / 6) 3 port.val l))
  ∧ (∀ (s : State) (dev : DevNo),
    let t := ({ s with
      lostPeers := s.lostPeers ++ [dev]
      exchs := s.exchs.map fun e =>
        if bit (vMask e.vector) dev.toNat && !e.lost.contains dev then { e with lost := e.lost ++ [dev] } else e
      skink := { s.skink with
        pending := s.skink.pending.map fun p =>
          if bit p.mask dev.toNat && !(p.inherited && p.issue.isSome) then { p with lost := true } else p } } : State).post
          (eventRec 0x4E 0 0 0 (dev.setWidth 64) 0)
    let u := (t.skink.pending.filter fun p => !p.acked).foldl (fun v p => p.issue.elim v fun x => v.announceIssue p x) t
    s.lostPeers.contains dev = false → s.unreachable dev = true →
    exec (.ploss dev) s = .next
      (((s.exchs.filter fun e => !e.lost.contains dev).foldl (fun v e => v.exchLoss dev e) u).recordsLost dev))
  ∧ (∀ (s : State) (pair : BitVec 3) (m : BitVec 2) (d : Nat × Nat),
    diePairs[pair.toNat]? = some d → bit (vget s.ucie pair.toNat) m.toNat = true →
    let t := ({ s with ucie := vset s.ucie pair.toNat (setBits (vget s.ucie pair.toNat) m.toNat m.toNat 0) } : State).link d.1 4
      (4 * pair.toNat + m.toNat) 0
    exec (.ucieModuleOut pair m) s = .next (if vget t.ucie pair.toNat = 0 then t.routeDies else t))
  ∧ (∀ (s : State) (port : BitVec 2),
    (vget s.mireUp port.toNat = true → exec (.mirePortDown port) s
      = .next (State.mce { s with mireUp := vset s.mireUp port.toNat false } (port.toNat + 1) 6 port.toNat 0))
    ∧ (vget s.mireUp port.toNat = false → s.dieLost (port.toNat + 1) = false → exec (.mirePortUp port) s
      = .next (State.mce { s with mireUp := vset s.mireUp port.toNat true } (port.toNat + 1) 7 port.toNat 0)))
  ∧ (∀ (s : State) (a b : Fin 6) (c : BitVec 3), s.dieRoute a.val b.val = some c →
    a ≠ b ∧ c.toNat ∈ diesBeside a.val ∧ s.pairUp a.val c.toNat = true)
  ∧ ∀ (s : State) (die : DieNo), s.dieLost die.val = false → s.visible = true →
    exec (.dieLoss die) s = .next ((s.doomed die.val).foldl State.teardown ((s.dloss die.val).withoutDie die.val))

/-! ### Memory repair and monitoring (R121, R122, R184, R187, R188, R365 to R371, R375) -/

/-- R122, R184, R187, R188, R360, R363, R365 to R371, R374 and R375: telemetry, energy, throttling, the heat sweep, scrubbing, a
stripe rebuilt, a channel retired, a stripe moved, a mire access without a response, an expansion that fails, and state in
error that a core's bundle reads. -/
def Obligations.RepairEvents : Prop :=
  (∀ (s : State) (die : DieNo) (v : Word), s.dieLost die.val = false →
    exec (.telemUpdate die v) s = .next (s.onDie die.val fun d => { d with telem := v })
      ∧ exec (.clockThrottle die) s = .next (s.onDie die.val fun d => { d with
        clock := if 1275 ≤ d.clock then d.clock - 75 else d.clock }))
  ∧ (∀ (s : State) (n : BitVec 6) (uj : Word),
    exec (.energyUpdate n uj) s = .next (s.onCtx n.toNat fun x => { x with energy := x.energy + uj }))
  ∧ (∀ (s : State) (die : DieNo),
    let d := vget s.dies die.val
    let n := d.sweepRun (Config.pick s.tick)
    d.sweep ≠ 0 →
    let u := s.halveHeat (d.heatb.toNat + d.sweepPos) n
    u.mem = s.mem.halve (d.heatb.toNat + d.sweepPos) n ∧ u.tags = s.tags ∧ u.core = s.core
    ∧ (d.sweepPos + n = heatBytes → exec (.heatSweep die) s = .next ((u.onDie die.val fun d => { d with
      sweepPos := 0, sweep := d.sweep - 1 }).fresh))
    ∧ (d.sweepPos + n ≠ heatBytes → exec (.heatSweep die) s = .next ((u.onDie die.val fun x => { x with
      sweepPos := d.sweepPos + n }).fresh)))
  ∧ (∀ (s : State) (pa : BitVec 48) (n die : Nat), s.tier pa.toNat = .hbm die →
    ∃ t, exec (.scrub pa n) s = .next t ∧ t.mem = s.mem ∧ t.poison = s.poison ∧ t.core = s.core
      ∧ ((n = 0 ∨ 3 < n) → t = s.onDie die fun d => d.passStart (pa.toNat % 2 ^ 37)))
  ∧ (∀ (s : State) (pa : BitVec 48) (die : Nat),
    let d := vget s.dies die
    let p := d.place (pa.toNat % 2 ^ 37)
    s.tier pa.toNat = .hbm die → setHas (pa.toNat / 128) s.poison = false → d.lostChannel p = none →
    (∀ i, i < p.chans.length → i ≠ p.pos → ∀ k, stripeSector die p pa.toNat i = some k → setHas k s.poison = false) →
    exec (.stripeRebuild pa []) s = .next ((s.onDie die fun d => { d.count 32 1 with
      rebuilds := countSet d.rebuilds p.channel (countOf d.rebuilds p.channel + 1) }).remapRow die p.channel p.row))
  ∧ (∀ (s : State) (die : DieNo) (ch : BitVec 6),
    let d := vget s.dies die.val
    s.dieLost die.val = false → d.retired = [] → d.retireDue ch .training = true →
    exec (.channelRetire die ch .training) s = .next (((s.onDie die.val fun d => { d with
      retired := d.retired ++ [ch] }).mce die.val 2 (ch.toNat + groupOf ch * 64) (retireCode .training)).nextGroup die.val))
  ∧ (∀ (s : State) (die : DieNo),
    let d := vget s.dies die.val
    d.phase = 2 → s.dieLost die.val = false →
    (d.wmark + 1 < newStripes → exec (.restripeStripe die) s = .next ((s.moveLost die.val).onDie die.val fun x =>
      { x with retst := setBits x.retst 29 7 (d.wmark + 1) }))
    ∧ (newStripes ≤ d.wmark + 1 → exec (.restripeStripe die) s = .next ((((s.moveLost die.val).onDie die.val fun x => { x with
        retst := setBits (setBits x.retst 29 7 newStripes) 63 62 3
        restriped := x.restriped ++ [d.retChan] }).mce die.val 8 (d.retGroup * 64) 0).nextGroup die.val)))
  ∧ (∀ (s : State) (pa : BitVec 48) (p : Nat), s.tier pa.toNat = .mire p →
    exec (.mireTimeout pa) s = .next ((s.poisonAll [pa.toNat / 128]).onDie (p + 1) fun d => d.count 0 1))
  ∧ (∀ (s : State) (pa : BitVec 48), s.sound pa.toNat = true → s.flaws = [] →
    ∃ t, s.turn (.upset (.expansion pa)) = .next t ∧ t.mem = s.mem ∧ setHas (pa.toNat / 128) t.poison = true
      ∧ (∀ va, t.sectorFault va pa.toNat = ⟨0x31, 1, true, va, BitVec.ofNat 64 pa.toNat, pa.toNat / 128 * 128⟩)
      ∧ ∀ r : FaultRec, r.code = 0x31 → r.info1.toNat = pa.toNat → (t.post r).flaws = [])
  ∧ (∀ (s : State) (key : CoreKey) (cause : Fin 4) (n : Byte), (s.focus key).isMaster = false →
    s.turn (.upset (.coreState key cause n)) = .next (s.onCore key fun c => { c with
      errs := setAddErr (cause.val + 1, n.toNat) c.errs }))
  ∧ ∀ (s : State) (cause n : Nat),
    ((cause, n) ∈ s.core.errs → s.coreRead cause n
      = s.issueFault 0x32 cause false (BitVec.ofNat 64 (if cause = 3 then n % 4 else n)) 0)
    ∧ ((cause, n) ∉ s.core.errs → s.coreRead cause n = s)
end

