-- ==== Sys2Proof/Laws/Memory.lean ====
section
/-! SUPPORT. The byte memories: a byte written is the byte read, every other byte stays, and every operation keeps the canonical
form. -/

namespace Sys2Proof.Machine

/-! ### Reading after writing -/

/-- In canonical form the first address is below all others. -/
theorem Memory.wf_cons (k : Nat) (v : Byte) (r : Memory) :
    Memory.wf ((k, v) :: r) = true ↔ v ≠ 0 ∧ (∀ c ∈ r, k < c.1) ∧ Memory.wf r = true := by
  induction r generalizing k v with
  | nil => simp [Memory.wf]
  | cons d r ih =>
    obtain ⟨k', v'⟩ := d
    rw [Memory.wf, Bool.and_eq_true, Bool.and_eq_true, decide_eq_true_eq, decide_eq_true_eq, ih]
    constructor
    · rintro ⟨⟨hv, hk⟩, hv', hr, hw⟩
      refine ⟨hv, ?_, hv', hr, hw⟩
      intro c hc
      rcases List.mem_cons.mp hc with rfl | hc
      · exact hk
      · exact Nat.lt_trans hk (hr c hc)
    · rintro ⟨hv, hk, hv', hr, hw⟩
      exact ⟨⟨hv, hk _ (List.mem_cons_self ..)⟩, hv', hr, hw⟩

/-- An address below all listed ones reads zero. -/
theorem Memory.read_below (m : Memory) (a : Nat) (h : ∀ c ∈ m, a < c.1) : m.read a = 0 := by
  induction m with
  | nil => rfl
  | cons c r ih =>
    have hc := h c (List.mem_cons_self ..)
    rw [Memory.read, if_neg (by omega), ih fun d hd => h d (List.mem_cons_of_mem _ hd)]

/-- A byte written is the byte read. -/
theorem Memory.read_write_same (m : Memory) (a : Nat) (b : Byte) (h : m.wf = true) : (m.write a b).read a = b := by
  induction m with
  | nil =>
    rw [Memory.write]
    split
    · rename_i hb
      rw [hb, Memory.read]
    · rw [Memory.read, if_pos rfl]
  | cons c r ih =>
    obtain ⟨k, v⟩ := c
    obtain ⟨-, hk, hr⟩ := (Memory.wf_cons k v r).mp h
    rw [Memory.write]
    by_cases h1 : a < k
    · by_cases hb : b = 0
      · rw [if_pos h1, if_pos hb, hb, Memory.read, if_neg (by omega)]
        exact Memory.read_below r a fun c hc => Nat.lt_trans h1 (hk c hc)
      · rw [if_pos h1, if_neg hb, Memory.read, if_pos rfl]
    · by_cases h2 : a = k
      · by_cases hb : b = 0
        · rw [if_neg h1, if_pos h2, if_pos hb, hb, h2]
          exact Memory.read_below r k hk
        · rw [if_neg h1, if_pos h2, if_neg hb, Memory.read, if_pos rfl]
      · rw [if_neg h1, if_neg h2, Memory.read, if_neg (Ne.symm h2), ih hr]

/-- Every other byte reads as before. -/
theorem Memory.read_write_other (m : Memory) (a x : Nat) (b : Byte) (hx : x ≠ a) : (m.write a b).read x = m.read x := by
  induction m with
  | nil =>
    rw [Memory.write]
    split
    · rfl
    · exact if_neg (Ne.symm hx)
  | cons c r ih =>
    obtain ⟨k, v⟩ := c
    rw [Memory.write]
    by_cases h1 : a < k
    · by_cases hb : b = 0
      · rw [if_pos h1, if_pos hb]
      · rw [if_pos h1, if_neg hb, Memory.read, if_neg (Ne.symm hx)]
    · by_cases h2 : a = k
      · by_cases hb : b = 0
        · rw [if_neg h1, if_pos h2, if_pos hb, Memory.read, if_neg (by rw [← h2]; exact Ne.symm hx)]
        · rw [if_neg h1, if_pos h2, if_neg hb, Memory.read, Memory.read, if_neg (Ne.symm hx),
            if_neg (by rw [← h2]; exact Ne.symm hx)]
      · rw [if_neg h1, if_neg h2, Memory.read, Memory.read, ih]

/-- Bytes written leave every byte outside them as it was. -/
theorem Memory.read_writeBytes_other (bs : List Byte) (m : Memory) (a x : Nat) (h : x < a ∨ a + bs.length ≤ x) :
    (m.writeBytes a bs).read x = m.read x := by
  induction bs generalizing m a with
  | nil => rfl
  | cons b bs ih =>
    rw [List.length_cons] at h
    rw [Memory.writeBytes, ih _ _ (by omega), Memory.read_write_other _ _ _ _ (by omega)]

/-- A byte cleared by a range of zeros reads zero. -/
theorem Memory.read_clear (m : Memory) (a n x : Nat) (h : a ≤ x ∧ x < a + n) : (m.clear a n).read x = 0 := by
  induction m with
  | nil => rfl
  | cons c r ih =>
    rw [Memory.clear, List.filter_cons]
    by_cases hc : a ≤ c.1 ∧ c.1 < a + n
    · simpa [hc.1, hc.2, Memory.clear] using ih
    · rw [if_pos (by simp; omega), Memory.read, if_neg (by omega)]
      exact ih

/-! ### Every operation keeps the canonical form -/

theorem Memory.mem_write (m : Memory) (a : Nat) (b : Byte) (c : Host.Cell) (h : c ∈ m.write a b) : c ∈ m ∨ c = (a, b) := by
  induction m with
  | nil =>
    rw [Memory.write] at h
    split at h
    · cases h
    · exact .inr (List.mem_singleton.mp h)
  | cons d r ih =>
    obtain ⟨k, v⟩ := d
    rw [Memory.write] at h
    split at h
    · split at h
      · exact .inl h
      · rcases List.mem_cons.mp h with h | h
        · exact .inr h
        · exact .inl h
    · split at h
      · split at h
        · exact .inl (List.mem_cons_of_mem _ h)
        · rcases List.mem_cons.mp h with h | h
          · exact .inr h
          · exact .inl (List.mem_cons_of_mem _ h)
      · rcases List.mem_cons.mp h with h | h
        · exact .inl (h ▸ List.mem_cons_self ..)
        · rcases ih h with h | h
          · exact .inl (List.mem_cons_of_mem _ h)
          · exact .inr h

theorem Memory.write_wf (m : Memory) (a : Nat) (b : Byte) (h : m.wf = true) : (m.write a b).wf = true := by
  induction m with
  | nil =>
    rw [Memory.write]
    split
    · rfl
    · rename_i hb
      exact decide_eq_true hb
  | cons c r ih =>
    obtain ⟨k, v⟩ := c
    obtain ⟨hv, hk, hr⟩ := (Memory.wf_cons k v r).mp h
    rw [Memory.write]
    split
    · split
      · exact h
      · rename_i h1 hb
        refine (Memory.wf_cons a b _).mpr ⟨hb, ?_, h⟩
        intro c hc
        rcases List.mem_cons.mp hc with rfl | hc
        · exact h1
        · exact Nat.lt_trans h1 (hk c hc)
    · split
      · split
        · exact hr
        · rename_i _ h2 hb
          exact (Memory.wf_cons a b r).mpr ⟨hb, h2 ▸ hk, hr⟩
      · rename_i h1 h2
        refine (Memory.wf_cons k v _).mpr ⟨hv, ?_, ih hr⟩
        intro c hc
        rcases Memory.mem_write r a b c hc with hc | hc
        · exact hk c hc
        · rw [hc]
          show k < a
          omega

theorem Memory.writeBytes_wf (bs : List Byte) (m : Memory) (a : Nat) (h : m.wf = true) : (m.writeBytes a bs).wf = true := by
  induction bs generalizing m a with
  | nil => exact h
  | cons b bs ih => exact ih _ _ (Memory.write_wf m a b h)

theorem Memory.filter_wf (m : Memory) (p : Host.Cell → Bool) (h : m.wf = true) : Memory.wf (m.filter p) = true := by
  induction m with
  | nil => rfl
  | cons c r ih =>
    obtain ⟨hv, hk, hr⟩ := (Memory.wf_cons c.1 c.2 r).mp h
    rw [List.filter_cons]
    split
    · exact (Memory.wf_cons c.1 c.2 _).mpr ⟨hv, fun d hd => hk d (List.mem_filter.mp hd).1, ih hr⟩
    · exact ih hr

theorem Memory.clear_wf (m : Memory) (a n : Nat) (h : m.wf = true) : (m.clear a n).wf = true := Memory.filter_wf m _ h

theorem Memory.halve_wf (m : Memory) (a n : Nat) (h : m.wf = true) : (m.halve a n).wf = true := by
  have keys : ∀ (l : Memory) (d : Host.Cell), d ∈ l.halve a n → ∃ c ∈ l, c.1 = d.1 := by
    intro l d hd
    obtain ⟨c, hc, he⟩ := List.mem_filterMap.mp hd
    refine ⟨c, hc, ?_⟩
    split at he
    · dsimp only at he
      split at he
      · cases he
      · cases he
        rfl
    · cases he
      rfl
  induction m with
  | nil => rfl
  | cons c r ih =>
    obtain ⟨hv, hk, hr⟩ := (Memory.wf_cons c.1 c.2 r).mp h
    have hlt : ∀ d ∈ Memory.halve r a n, c.1 < d.1 := by
      intro d hd
      obtain ⟨e, he, hx⟩ := keys r d hd
      exact hx ▸ hk e he
    by_cases hc : a ≤ c.1 ∧ c.1 < a + n
    · by_cases hz : (BitVec.ofNat 8 (c.2.toNat / 2) : Byte) = 0
      · have : Memory.halve (c :: r) a n = Memory.halve r a n := by
          unfold Memory.halve
          rw [List.filterMap_cons, if_pos hc, if_pos hz]
        exact this ▸ ih hr
      · have : Memory.halve (c :: r) a n = (c.1, BitVec.ofNat 8 (c.2.toNat / 2)) :: Memory.halve r a n := by
          unfold Memory.halve
          rw [List.filterMap_cons, if_pos hc, if_neg hz]
        exact this ▸ (Memory.wf_cons _ _ _).mpr ⟨hz, hlt, ih hr⟩
    · have : Memory.halve (c :: r) a n = c :: Memory.halve r a n := by
        unfold Memory.halve
        rw [List.filterMap_cons, if_neg hc]
      exact this ▸ (Memory.wf_cons _ _ _).mpr ⟨hv, hlt, ih hr⟩

theorem memoryOf_wf (bs : List Byte) : (memoryOf bs).wf = true := Memory.writeBytes_wf bs [] 0 rfl

/-! ### Scratchpads -/

theorem Scratch.wf_iff (sp : Scratch) : sp.wf = true ↔ sp.mem.wf = true ∧ sp.tags.wf = true := by
  rw [Scratch.wf, Bool.and_eq_true]

theorem Scratch.put_wf (sp : Scratch) (a : Nat) (bs : List Byte) (tag : Byte) (h : sp.wf = true) : (sp.put a bs tag).wf = true := by
  obtain ⟨hm, ht⟩ := sp.wf_iff.mp h
  exact (Scratch.wf_iff _).mpr ⟨Memory.writeBytes_wf bs _ a hm, Memory.write_wf _ _ _ ht⟩

theorem Scratch.storePart_wf (sp : Scratch) (a : Nat) (bs : List Byte) (tag : Byte) (h : sp.wf = true) :
    (sp.storePart a bs tag).wf = true := by
  unfold Scratch.storePart
  split
  · exact Scratch.put_wf sp _ bs tag h
  · exact Scratch.put_wf sp a bs tag h

theorem Scratch.store_wf (sp : Scratch) (a : Nat) (bs : List Byte) (tag : Byte) (h : sp.wf = true) :
    (sp.store a bs tag).wf = true := by
  unfold Scratch.store
  generalize partsOf a bs.length = ps
  suffices ∀ (ps : List (Nat × Nat)) (st : Scratch × List Byte), st.1.wf = true → (ps.foldl
      (fun (st : Scratch × List Byte) p => (st.1.storePart p.1 (st.2.take p.2) tag, st.2.drop p.2)) st).1.wf = true from
    this ps (sp, bs) h
  intro ps
  induction ps with
  | nil => exact fun _ h => h
  | cons p ps ih => exact fun st h => ih _ (Scratch.storePart_wf st.1 p.1 _ tag h)

/-- Reading pops FIFO banks and changes no byte and no tag. -/
theorem Scratch.read_bytes (sp : Scratch) (a n : Nat) : (sp.read a n).2.mem = sp.mem ∧ (sp.read a n).2.tags = sp.tags := by
  unfold Scratch.read
  suffices ∀ (ps : List (Nat × Nat)) (st : SpRead × Scratch), (ps.foldl (fun (st : SpRead × Scratch) p =>
      let r := st.2.readPart p
      (⟨st.1.bytes ++ r.1.bytes, st.1.tags ++ r.1.tags, st.1.poison.or r.1.poison⟩, r.2)) st).2.mem = st.2.mem
      ∧ (ps.foldl (fun (st : SpRead × Scratch) p =>
      let r := st.2.readPart p
      (⟨st.1.bytes ++ r.1.bytes, st.1.tags ++ r.1.tags, st.1.poison.or r.1.poison⟩, r.2)) st).2.tags = st.2.tags from
    this _ (⟨[], [], none⟩, sp)
  intro ps
  induction ps with
  | nil => exact fun _ => ⟨rfl, rfl⟩
  | cons p ps ih =>
    intro st
    have hp : (st.2.readPart p).2.mem = st.2.mem ∧ (st.2.readPart p).2.tags = st.2.tags := by
      unfold Scratch.readPart
      split <;> exact ⟨rfl, rfl⟩
    exact ⟨(ih _).1.trans hp.1, (ih _).2.trans hp.2⟩

theorem Scratch.zeroBank_wf (sp : Scratch) (bank t : Nat) (h : sp.wf = true) : (sp.zeroBank bank t).wf = true := by
  obtain ⟨hm, ht⟩ := sp.wf_iff.mp h
  exact (Scratch.wf_iff _).mpr ⟨Memory.filter_wf _ _ hm, Memory.filter_wf _ _ ht⟩

end Sys2Proof.Machine
end

