-- ==== Sys2Proof/Laws/Queues.lean ====
section
/-! SUPPORT. What the reads of a vector queue and the element-wise results do: one lemma for each shared operation. -/

namespace Sys2Proof.Machine

/-! ### Vectors by number -/

@[simp] theorem vset_vset {α : Type} {n : Nat} (v : Vector α n) (i : Nat) (x y : α) :
    vset (vset v i x) i y = vset v i y := by
  apply Vector.ext
  intro j hj
  simp only [vset, Vector.getElem_setIfInBounds]
  split <;> rfl

theorem vget_vset_self {α : Type} [Inhabited α] {n : Nat} (v : Vector α n) (i : Nat) (x : α) (h : i < n) :
    vget (vset v i x) i = x := by
  simp [vget, vset, h]

theorem vget_vset_ne {α : Type} [Inhabited α] {n : Nat} (v : Vector α n) (i j : Nat) (x : α) (h : i ≠ j) :
    vget (vset v i x) j = vget v j := by
  simp [vget, vset, h]

theorem vset_vget {α : Type} [Inhabited α] {n : Nat} (v : Vector α n) (i : Nat) : vset v i (vget v i) = v := by
  apply Vector.ext
  intro j hj
  simp only [vset, Vector.getElem_setIfInBounds]
  split
  · subst i; simp [vget, hj]
  · rfl

/-! ### Queue reads (R56) -/

@[simp] theorem State.withReads_queues (s : State) (qs : Vector (List QEntry) 16) (i : Issue) :
    (s.withReads qs i).core.vs.q = qs := rfl

@[simp] theorem State.withReads_held (s : State) (qs : Vector (List QEntry) 16) (i : Issue) :
    (s.withReads qs i).core.held = s.core.held := rfl

@[simp] theorem State.withReads_iss (s : State) (qs : Vector (List QEntry) 16) (i : Issue) :
    (s.withReads qs i).iss = i := rfl

@[simp] theorem State.withReads_withReads (s : State) (qs rs : Vector (List QEntry) 16) (i j : Issue) :
    (s.withReads qs i).withReads rs j = s.withReads rs j := rfl

@[simp] theorem State.withReads_errs (s : State) (qs : Vector (List QEntry) 16) (i : Issue) :
    (s.withReads qs i).core.errs = s.core.errs := rfl

/-- State that holds no error is read without a fault. -/
theorem State.coreRead_sound (s : State) (cause n : Nat) (h : (s.core.errs.any fun e => decide (e = (cause, n))) = false) :
    s.coreRead cause n = s := by
  rw [State.coreRead, h]; rfl

/-- A read of an entry that is there: the entry, the queue without it unless the read is a peek, and the pop noted. -/
theorem State.takeQ_entry (s : State) (q : Nat) (peek : Bool) (e : QEntry) (r : List QEntry)
    (hq : s.core.queue q = e :: r) (hp : e.poison = none)
    (hh : ¬((decide (q = 12) || decide (q = 13)) = true ∧ s.core.held.isSome = true))
    (he : (s.core.errs.any fun e => decide (e = (2, q))) = false) :
    s.takeQ q peek = (e, s.withReads (if peek then s.core.vs.q else vset s.core.vs.q q r) (s.iss.popped q (1 - b2n peek))) := by
  have hh' : ((decide (q = 12) || decide (q = 13)) && s.core.held.isSome) = false := by
    rw [Bool.eq_false_iff]; simpa using hh
  cases peek <;>
    simp only [State.takeQ, Bool.false_eq_true, if_false, if_true, hh', hq, hp, Core.setQueue, Issue.popped, b2n] <;>
    rw [State.coreRead_sound] <;> first | exact he | rfl

theorem inPort_iff (q : BitVec 4) : inPort q = (decide (q.toNat = 12) || decide (q.toNat = 13)) := by
  simp only [inPort]
  congr 1 <;> exact decide_eq_decide.mpr ⟨fun h => by subst h; rfl, fun h => BitVec.eq_of_toNat_eq h⟩

theorem Issue.popped_popped (i : Issue) (q m n : Nat) (hq : q < 16) :
    (i.popped q m).popped q n = i.popped q (m + n) := by
  unfold Issue.popped
  by_cases hm : m = 0
  · subst hm; simp
  · by_cases hn : n = 0
    · subst hn; simp [hm]
    · simp [hm, hn, vget_vset_self _ _ _ hq, Nat.add_assoc]

/-- n reads that find their entries. -/
theorem State.readN_of_afterReads (n : Nat) : ∀ (s t : State) (q : BitVec 4) (peek : Bool) (es : List QEntry),
    s.afterReads q peek n = some (es, t) → s.readN q.toNat peek n = (es, t) := by
  induction n with
  | zero =>
    intro s t q peek es h
    unfold State.afterReads at h
    split at h
    · cases h
    · simp [qReads, Issue.popped] at h
      obtain ⟨rfl, rfl⟩ := h
      rfl
  | succ n ih =>
    intro s t q peek es h
    unfold State.afterReads at h
    split at h
    · cases h
    · rename_i hh
      rw [Bool.or_eq_true, not_or] at hh
      obtain ⟨hh, he⟩ := hh
      have he : (s.core.errs.any fun e => decide (e = (2, q.toNat))) = false := Bool.eq_false_iff.mpr he
      have hh' : ¬((decide (q.toNat = 12) || decide (q.toNat = 13)) = true ∧ s.core.held.isSome = true) := by
        rw [← inPort_iff]; simpa using hh
      simp only [qReads] at h
      split at h
      · cases h
      · rename_i e r hq
        split at h
        · cases h
        · rename_i hp
          have hp' : e.poison = none := by simpa using hp
          simp only [Option.map_map, Option.map_eq_some_iff, Function.comp] at h
          obtain ⟨x, hx, hxe⟩ := h
          cases n with
          | zero =>
            simp only [qReads, Option.some.injEq] at hx
            subst hx
            simp only [Prod.mk.injEq] at hxe
            obtain ⟨rfl, rfl⟩ := hxe
            rw [State.readN, State.takeQ_entry s q.toNat peek e r hq hp' hh' he]
            cases peek <;> rfl
          | succ n =>
            rw [State.readN, State.takeQ_entry s q.toNat false e r hq hp' hh' he]
            simp only [Prod.mk.injEq] at hxe
            obtain ⟨rfl, rfl⟩ := hxe
            simp only [Nat.succ_ne_zero, decide_false, Bool.and_false, Bool.false_eq_true, if_false] at hx
            have hk : 1 + (n + 1 - b2n peek) = n + 1 + 1 - b2n peek := by
              cases peek <;> simp [b2n] <;> omega
            refine congrArg (fun y : List QEntry × State => (e :: y.1, y.2)) (ih _ _ q peek x.1 ?_)
            simp only [State.afterReads, State.withReads_held, State.withReads_queues, State.withReads_iss,
              State.withReads_withReads, State.withReads_errs, hh, he, Bool.or_self, if_false, Bool.false_eq_true, hx,
              Option.map_some,
              Issue.popped_popped _ _ _ _ q.isLt]
            rw [show n + 1 + 1 - b2n peek = 1 + (n + 1 - b2n peek) from hk.symm]
            rfl

/-- n reads whose entries are untagged pass the tag check of an instruction that is no reader. -/
theorem State.tagPlain_untagged (s : State) (q : Nat) (opB : Bool) (es : List QEntry)
    (h : (es.any fun e => tagV e.tag) = false) : s.tagPlain q opB es = s := by
  have : (es.find? fun e => tagV e.tag) = none := by
    rw [List.find?_eq_none]
    intro e he
    simpa using List.any_eq_false.mp h e he
  simp [State.tagPlain, this]

theorem State.plainReads_eq (s t : State) (q : BitVec 4) (peek : Bool) (n : Nat) (vs : List Vec)
    (h : s.plainReads q peek n = some (vs, t)) :
    ∃ es : List QEntry, s.readN q.toNat peek n = (es, t) ∧ es.map (·.v) = vs ∧ (es.any fun e => tagV e.tag) = false := by
  unfold State.plainReads at h
  rw [Option.bind_eq_some_iff] at h
  obtain ⟨⟨es, u⟩, hr, h⟩ := h
  split at h
  · cases h
  · rename_i hu
    simp only [Option.some.injEq, Prod.mk.injEq] at h
    obtain ⟨rfl, rfl⟩ := h
    exact ⟨es, State.readN_of_afterReads n s u q peek es hr, rfl, by simpa using hu⟩

/-- Operand a. -/
theorem State.opA_of_plainReads (s t : State) (a : BitVec 4) (x : BitVec 1) (n : Nat) (vs : List Vec)
    (h : s.plainReads a (decide (x = 1)) n = some (vs, t)) : s.opA a x n = (vs, t) := by
  obtain ⟨es, hr, hv, hu⟩ := State.plainReads_eq s t a _ n vs h
  simp only [State.opA, hr, hv, State.tagPlain_untagged _ _ _ _ hu]

/-- A check that passes raises nothing. -/
theorem State.raiseKept_passes (s : State) (r : KeptResult) (code q : Nat) (opB : Bool) (h : r.passes = true) :
    s.raiseKept r code q opB = s := by
  cases r <;> first | rfl | cases h

/-- Operand b of a reader, read n times. -/
theorem State.opBN_of_checkedReads (s t : State) (pres : Presented) (b : BitVec 4) (y : BitVec 1) (n : Nat) (vs : List Vec)
    (h : s.checkedReads pres b y n = some (vs, t)) : s.opBN pres b y n = (vs, t) := by
  unfold State.checkedReads at h
  rw [Option.bind_eq_some_iff] at h
  obtain ⟨⟨es, u⟩, hr, h⟩ := h
  have hn := State.readN_of_afterReads n s u b _ es hr
  have hk : u.ctx.kt = s.ctx.kt := by
    unfold State.afterReads at hr
    split at hr
    · cases hr
    · rw [Option.map_eq_some_iff] at hr
      obtain ⟨x, -, hx⟩ := hr
      simp only [Prod.mk.injEq] at hx
      rw [← hx.2]; rfl
  split at h
  · rename_i hp
    simp only [Option.some.injEq, Prod.mk.injEq] at h
    obtain ⟨rfl, rfl⟩ := h
    have hfold : ∀ l : List QEntry, (∀ e ∈ l, (s.queueCheck pres (inPort b) [e.tag]).passes = true) →
        l.foldl (fun s e => s.raiseKept (s.queueCheck pres (inPort b) [e.tag]) pres.code b.toNat true) u = u := by
      intro l
      induction l with
      | nil => exact fun _ => rfl
      | cons e l ih =>
        intro hl
        have h1 : u.queueCheck pres (inPort b) [e.tag] = s.queueCheck pres (inPort b) [e.tag] := by
          unfold State.queueCheck; rw [hk]
        rw [List.foldl_cons, State.raiseKept_passes u _ _ _ _ (h1 ▸ hl e List.mem_cons_self)]
        exact ih fun e he => hl e (List.mem_cons_of_mem _ he)
    have hm : mixedIn (inPort b) ((es.take (s.core.queue b.toNat).length).map (·.tag)) = false := by
      refine Bool.eq_false_iff.mpr fun hx => ?_
      simp only [mixedIn, Bool.and_eq_true, List.any_map, List.any_eq_true] at hx
      obtain ⟨hb, e, he, ht⟩ := hx
      have := List.all_eq_true.mp hp e (List.mem_of_mem_take he)
      simp only [Function.comp_apply, decide_eq_true_eq] at ht
      simp [State.queueCheck, mixedIn, hb, ht, KeptResult.passes] at this
    simp only [State.opBN, hn, hm, if_false, Bool.false_eq_true]
    rw [hfold _ fun e he => List.all_eq_true.mp hp e (List.mem_of_mem_take he)]
  · cases h

/-- One read gives one entry. -/
theorem State.readN_one (s t : State) (q : Nat) (peek : Bool) (es : List QEntry) (h : s.readN q peek 1 = (es, t)) :
    ∃ e, es = [e] := by
  simp only [State.readN, Prod.mk.injEq] at h
  exact ⟨_, h.1.symm⟩

/-- Operand b or the broadcast value. -/
theorem State.opB_of_plainB (s t : State) (ty : ElTy) (b : BitVec 4) (y c : BitVec 1) (v : Vec)
    (h : s.plainB ty b y c = some (v, t)) : s.opB ty b y c = (v, t) := by
  unfold State.plainB at h
  unfold State.opB
  split at h
  · rename_i hc
    simp only [hc, if_true]
    simpa using h
  · rename_i hc
    simp only [hc, if_false]
    rw [Option.map_eq_some_iff] at h
    obtain ⟨⟨vs, u⟩, hr, h⟩ := h
    simp only [Prod.mk.injEq] at h
    obtain ⟨rfl, rfl⟩ := h
    obtain ⟨es, hr, hv, hu⟩ := State.plainReads_eq s u b _ 1 vs hr
    obtain ⟨e, rfl⟩ := State.readN_one _ _ _ _ _ hr
    simp only [hr, State.tagPlain_untagged _ _ _ _ hu, ← hv, List.map_cons, List.headD_cons]

/-- The addend of VFMA. -/
theorem State.opC_of_plainReads (s t : State) (d : BitVec 4) (vs : List Vec)
    (h : s.plainReads d false 1 = some (vs, t)) : s.opC d = (vs.headD 0, t) := by
  obtain ⟨es, hr, hv, hu⟩ := State.plainReads_eq s t d _ 1 vs h
  obtain ⟨e, rfl⟩ := State.readN_one _ _ _ _ _ hr
  simp only [State.opC, hr, State.tagPlain_untagged _ _ _ _ hu, ← hv, List.map_cons, List.headD_cons]

/-! ### Element-wise results (R246, R249) -/

/-- The accumulator after the first n elements. -/
theorem elements_fold (r : VRun) (hw : r.w = 8 ∨ r.w = 16 ∨ r.w = 32) (n : Nat) :
    (List.range n).foldl (elemStep r.w r.en r.old r.sr r.f) ⟨[], 0, r.st.iss.lfs⟩
      = ⟨((List.range n).map fun j => if r.on j then (r.f j (r.draw j)).1 else elem r.w r.old (j % r.per)).reverse,
         (List.range n).foldl (fun a j => if r.on j then a ||| (r.f j (r.draw j)).2 else a) 0,
         if r.sr then Vector.ofFn fun l : Fin 64 => lfsSteps (r.steps l.val n) (vget r.st.iss.lfs l.val)
         else r.st.iss.lfs⟩ := by
  have hlane : ∀ j, r.lane j < 64 := by
    intro j
    have hp : j % (2048 / r.w) < 2048 / r.w := Nat.mod_lt _ (by rcases hw with h | h | h <;> simp [h])
    unfold VRun.lane VRun.per
    rcases hw with h | h | h <;> rw [h] at hp ⊢ <;> omega
  have hdraw : ∀ n, (if r.sr = true then lfsNext (vget (if r.sr = true then
      Vector.ofFn fun l : Fin 64 => lfsSteps (r.steps l.val n) (vget r.st.iss.lfs l.val)
      else r.st.iss.lfs) (r.lane n)) else 0) = r.draw n := by
    intro n
    unfold VRun.draw
    by_cases hs : r.sr = true
    · simp only [hs, if_true, lfsSteps, vget, Vector.getElem?_ofFn, hlane n, dif_pos, Option.getD_some]
    · simp only [hs, if_false, Bool.false_eq_true]
  have hsteps : ∀ n l, r.steps l (n + 1) = r.steps l n + (if r.on n = true ∧ r.lane n = l then 1 else 0) := by
    intro n l
    simp only [VRun.steps, List.range_succ, List.countP_append, List.countP_cons, List.countP_nil, Bool.and_eq_true,
      decide_eq_true_eq, Nat.zero_add]
  induction n with
  | zero =>
    rw [List.range_zero, List.foldl_nil, List.foldl_nil, ElemAcc.mk.injEq]
    refine ⟨rfl, rfl, ?_⟩
    by_cases hs : r.sr = true
    · rw [if_pos hs]
      apply Vector.ext
      intro i hi
      rw [Vector.getElem_ofFn]
      simp only [VRun.steps, List.range_zero, List.countP_nil, lfsSteps, vget, Vector.getElem?_eq_getElem hi,
        Option.getD_some]
    · rw [if_neg hs]
  | succ n ih =>
    rw [List.range_succ, List.foldl_append, ih, List.foldl_append, List.map_append, List.reverse_append, List.foldl_cons,
      List.foldl_nil, List.foldl_cons, List.foldl_nil]
    have hon : bit r.en (n % (2048 / r.w) * r.w / 32) = r.on n := rfl
    have hl : n % (2048 / r.w) * r.w / 32 = r.lane n := rfl
    simp only [elemStep]
    rw [hon, hl, hdraw n]
    by_cases h : r.on n = true
    · rw [if_pos h, if_pos h, ElemAcc.mk.injEq]
      refine ⟨?_, rfl, ?_⟩
      · simp only [List.map_cons, List.map_nil, List.reverse_cons, List.reverse_nil, List.nil_append,
          List.singleton_append, h, if_true]
      · by_cases hs : r.sr = true
        · rw [if_pos hs, if_pos hs, if_pos hs]
          apply Vector.ext
          intro i hi
          rw [Vector.getElem_ofFn]
          simp only [vset, Vector.getElem_setIfInBounds, Vector.getElem_ofFn, hsteps, h, true_and]
          by_cases hi' : r.lane n = i
          · simp only [hi', if_true, VRun.draw, hs, lfsSteps]
          · simp only [hi', if_false, Nat.add_zero]
        · rw [if_neg hs, if_neg hs, if_neg hs]
    · rw [if_neg h, if_neg h, ElemAcc.mk.injEq]
      refine ⟨?_, rfl, ?_⟩
      · simp only [List.map_cons, List.map_nil, List.reverse_cons, List.reverse_nil, List.nil_append,
          List.singleton_append, h, if_false, Bool.false_eq_true]
        rfl
      · by_cases hs : r.sr = true
        · rw [if_pos hs, if_pos hs]
          apply Vector.ext
          intro i hi
          rw [Vector.getElem_ofFn, Vector.getElem_ofFn, hsteps, if_neg (fun hh => h hh.1), Nat.add_zero]
        · rw [if_neg hs, if_neg hs]

/-! ### Elements of a packed vector (R77) -/

theorem packNat_lt (w : Nat) (l : List Nat) : packNat w l < 2 ^ (w * l.length) := by
  induction l with
  | nil => exact Nat.one_pos
  | cons x l ih =>
    have h1 : x % 2 ^ w < 2 ^ w := Nat.mod_lt _ (Nat.two_pow_pos w)
    have h2 : packNat w (x :: l) = packNat w l * 2 ^ w + x % 2 ^ w := rfl
    have h3 : packNat w l * 2 ^ w + 2 ^ w ≤ 2 ^ (w * l.length) * 2 ^ w := by
      rw [← Nat.succ_mul]
      exact Nat.mul_le_mul_right _ ih
    rw [h2, List.length_cons, Nat.mul_succ, Nat.pow_add]
    omega

theorem packNat_get (w : Nat) : ∀ (l : List Nat) (e : Nat), packNat w l >>> (w * e) % 2 ^ w = l.getD e 0 % 2 ^ w
  | [], e => by
    show 0 >>> (w * e) % 2 ^ w = _
    rw [Nat.zero_shiftRight]
    rfl
  | x :: l, 0 => by
    show (packNat w l * 2 ^ w + x % 2 ^ w) >>> (w * 0) % 2 ^ w = x % 2 ^ w
    rw [Nat.mul_zero, Nat.shiftRight_zero, Nat.mul_comm, Nat.mul_add_mod, Nat.mod_mod]
  | x :: l, e + 1 => by
    have h1 : x % 2 ^ w < 2 ^ w := Nat.mod_lt _ (Nat.two_pow_pos w)
    show (packNat w l * 2 ^ w + x % 2 ^ w) >>> (w * (e + 1)) % 2 ^ w = (l.getD e 0) % 2 ^ w
    rw [← packNat_get w l e, Nat.mul_succ, Nat.add_comm (w * e), Nat.shiftRight_add, Nat.shiftRight_eq_div_pow _ w,
      Nat.mul_comm, Nat.mul_add_div (Nat.two_pow_pos w), Nat.div_eq_of_lt h1, Nat.add_zero]

theorem elem_packVec (w : Nat) (l : List Nat) (e : Nat) (h : w * l.length ≤ 2048) :
    elem w (packVec w l) e = l.getD e 0 % 2 ^ w := by
  unfold elem packVec
  rw [BitVec.toNat_ofNat, Nat.mod_eq_of_lt (Nat.lt_of_lt_of_le (packNat_lt w l) (Nat.pow_le_pow_right (by omega) h)),
    packNat_get]

theorem entriesOf_length (w k : Nat) : ∀ l, (entriesOf w k l).length = k := by
  induction k with
  | zero => intro l; rfl
  | succ k ih => intro l; simp only [entriesOf, List.length_cons, ih]

theorem entriesOf_elem (w : Nat) (hw : w * (2048 / w) ≤ 2048) (k : Nat) : ∀ (l : List Nat) (i e : Nat), i < k →
    e < 2048 / w → elem w ((entriesOf w k l).getD i 0) e = l.getD (i * (2048 / w) + e) 0 % 2 ^ w := by
  induction k with
  | zero => intro l i e hi; omega
  | succ k ih =>
    intro l i e hi he
    cases i with
    | zero =>
      simp only [entriesOf, List.getD_cons_zero]
      rw [elem_packVec w _ e (Nat.le_trans (Nat.mul_le_mul_left w (by simp only [List.length_take]; omega)) hw)]
      simp only [List.getD_eq_getElem?_getD, List.getElem?_take, he, if_true, Nat.zero_mul, Nat.zero_add]
    | succ i =>
      simp only [entriesOf, List.getD_cons_succ]
      rw [ih _ i e (by omega) he]
      simp only [List.getD_eq_getElem?_getD, List.getElem?_drop]
      congr 3
      rw [Nat.succ_mul]; omega

/-- The flags of a fold: a bit is set where it was, or by an enabled element. -/
theorem flags_fold (on : Nat → Bool) (g : Nat → BitVec 7) (b n : Nat) :
    ((List.range n).foldl (fun a j => if on j then a ||| g j else a) (0 : BitVec 7)).getLsbD b = true
      ↔ ∃ j, j < n ∧ on j = true ∧ (g j).getLsbD b = true := by
  induction n with
  | zero => simp
  | succ n ih =>
    rw [List.range_succ, List.foldl_append, List.foldl_cons, List.foldl_nil]
    split
    · rename_i h
      rw [BitVec.getLsbD_or, Bool.or_eq_true, ih]
      constructor
      · rintro (⟨j, hj, h1, h2⟩ | h2)
        · exact ⟨j, by omega, h1, h2⟩
        · exact ⟨n, by omega, h, h2⟩
      · rintro ⟨j, hj, h1, h2⟩
        by_cases hjn : j = n
        · subst hjn; exact Or.inr h2
        · exact Or.inl ⟨j, by omega, h1, h2⟩
    · rename_i h
      rw [ih]
      constructor
      · rintro ⟨j, hj, h1, h2⟩
        exact ⟨j, by omega, h1, h2⟩
      · rintro ⟨j, hj, h1, h2⟩
        have : j ≠ n := by rintro rfl; exact h h1
        exact ⟨j, by omega, h1, h2⟩

/-- The elements of a run: the values of the enabled elements and the old bits of the others, the flags of the enabled
elements, and the LFSRs stepped. -/
theorem State.elements_run (r : VRun) (hw : r.w = 8 ∨ r.w = 16 ∨ r.w = 32) :
    ∃ (vs : List Vec) (fl : BitVec 7),
      r.st.elements r.w r.k r.en r.old r.sr r.f
        = (vs, { r.st with iss := { r.st.iss with flg := r.st.iss.flg ||| fl, lfs := r.lfs } })
      ∧ vs.length = r.k
      ∧ (∀ j, j < r.k * r.per → elem r.w (vs.getD (j / r.per) 0) (j % r.per)
          = if r.on j then (r.f j (r.draw j)).1 % 2 ^ r.w else elem r.w r.old (j % r.per))
      ∧ ∀ b, b < 7 → (fl.getLsbD b = true ↔ ∃ j, j < r.k * r.per ∧ r.on j = true ∧ (r.f j (r.draw j)).2.getLsbD b = true) := by
  have hper : 0 < r.per := by
    unfold VRun.per
    rcases hw with h | h | h <;> rw [h] <;> decide
  have hper' : r.w * (2048 / r.w) ≤ 2048 := Nat.mul_div_le 2048 r.w
  refine ⟨entriesOf r.w r.k ((List.range (r.k * r.per)).map fun j =>
      if r.on j then (r.f j (r.draw j)).1 else elem r.w r.old (j % r.per)),
    (List.range (r.k * r.per)).foldl (fun a j => if r.on j then a ||| (r.f j (r.draw j)).2 else a) 0, ?_, ?_, ?_, ?_⟩
  · unfold State.elements
    have := elements_fold r hw (r.k * r.per)
    unfold VRun.per at this ⊢
    simp only [this, List.reverse_reverse]
    rfl
  · exact entriesOf_length _ _ _
  · intro j hj
    have h1 : j / r.per < r.k := Nat.div_lt_of_lt_mul (by rw [Nat.mul_comm]; exact hj)
    have h2 : j % r.per < r.per := Nat.mod_lt _ hper
    rw [entriesOf_elem r.w hper' r.k _ _ _ h1 h2]
    have h3 : j / r.per * (2048 / r.w) + j % r.per = j := by
      rw [Nat.mul_comm]; exact Nat.div_add_mod j r.per
    rw [h3]
    simp only [List.getD_eq_getElem?_getD, List.getElem?_map, List.getElem?_range hj, Option.map_some, Option.getD_some]
    split
    · rfl
    · exact Nat.mod_eq_of_lt (Nat.mod_lt _ (Nat.two_pow_pos _))
  · intro b _
    exact flags_fold r.on (fun j => (r.f j (r.draw j)).2) b (r.k * r.per)

/-- A push of untagged entries onto a queue whose port is open. -/
theorem State.vPush_open (s : State) (lat : Nat) (d : BitVec 4) (vs : List Vec)
    (h : (!outPort d || (vget s.core.vs.ag (d.toNat - 12)).walking) = true) :
    s.vPush lat d vs = s.pushQ lat d.toNat (vs.map fun v => ⟨v, 0, none⟩) := by
  have : (outPort d && !(vget s.core.vs.ag (d.toNat - 12)).walking) = false := by
    cases h1 : outPort d <;> simp_all
  unfold State.vPush State.vPushTagged
  have hag : (s.pushQ lat d.toNat (vs.map fun v => ⟨v, 0, none⟩)).core.vs.ag = s.core.vs.ag := rfl
  simp only [hag, this, Bool.false_eq_true, if_false]

end Sys2Proof.Machine
end

