-- ==== Sys2Proof/Laws/State.lean ====
section
/-! SUPPORT. What the state's updates leave: field by field for each update, cores by their keys, registers by their numbers, and
the canonical form of every memory. -/

namespace Sys2Proof.Machine

/-! ### Fields after an update -/

@[simp] theorem State.onCtx_core (s : State) (n : Nat) (f : Ctx → Ctx) : (s.onCtx n f).core = s.core := rfl
@[simp] theorem State.onCtx_cores (s : State) (n : Nat) (f : Ctx → Ctx) : (s.onCtx n f).cores = s.cores := rfl
@[simp] theorem State.onCtx_iss (s : State) (n : Nat) (f : Ctx → Ctx) : (s.onCtx n f).iss = s.iss := rfl
@[simp] theorem State.onCtx_mem (s : State) (n : Nat) (f : Ctx → Ctx) : (s.onCtx n f).mem = s.mem := rfl
@[simp] theorem State.onCtx_tags (s : State) (n : Nat) (f : Ctx → Ctx) : (s.onCtx n f).tags = s.tags := rfl
@[simp] theorem State.onCtx_poison (s : State) (n : Nat) (f : Ctx → Ctx) : (s.onCtx n f).poison = s.poison := rfl
@[simp] theorem State.onCtx_flaws (s : State) (n : Nat) (f : Ctx → Ctx) : (s.onCtx n f).flaws = s.flaws := rfl
@[simp] theorem State.onCtx_stamps (s : State) (n : Nat) (f : Ctx → Ctx) : (s.onCtx n f).stamps = s.stamps := rfl
@[simp] theorem State.onCtx_latest (s : State) (n : Nat) (f : Ctx → Ctx) : (s.onCtx n f).latest = s.latest := rfl
@[simp] theorem State.onCtx_hostMem (s : State) (n : Nat) (f : Ctx → Ctx) : (s.onCtx n f).hostMem = s.hostMem := rfl
@[simp] theorem State.onCtx_hostClock (s : State) (n : Nat) (f : Ctx → Ctx) : (s.onCtx n f).hostClock = s.hostClock := rfl
@[simp] theorem State.onCtx_tasks (s : State) (n : Nat) (f : Ctx → Ctx) : (s.onCtx n f).tasks = s.tasks := rfl
@[simp] theorem State.onCtx_launches (s : State) (n : Nat) (f : Ctx → Ctx) : (s.onCtx n f).launches = s.launches := rfl
@[simp] theorem State.onCtx_nextLaunch (s : State) (n : Nat) (f : Ctx → Ctx) : (s.onCtx n f).nextLaunch = s.nextLaunch := rfl
@[simp] theorem State.onCtx_fens (s : State) (n : Nat) (f : Ctx → Ctx) : (s.onCtx n f).fens = s.fens := rfl
@[simp] theorem State.onCtx_dies (s : State) (n : Nat) (f : Ctx → Ctx) : (s.onCtx n f).dies = s.dies := rfl
@[simp] theorem State.onCtx_pkg (s : State) (n : Nat) (f : Ctx → Ctx) : (s.onCtx n f).pkg = s.pkg := rfl
@[simp] theorem State.onCtx_ports (s : State) (n : Nat) (f : Ctx → Ctx) : (s.onCtx n f).ports = s.ports := rfl
@[simp] theorem State.onCtx_ucie (s : State) (n : Nat) (f : Ctx → Ctx) : (s.onCtx n f).ucie = s.ucie := rfl
@[simp] theorem State.onCtx_mireUp (s : State) (n : Nat) (f : Ctx → Ctx) : (s.onCtx n f).mireUp = s.mireUp := rfl
@[simp] theorem State.onCtx_lostPeers (s : State) (n : Nat) (f : Ctx → Ctx) : (s.onCtx n f).lostPeers = s.lostPeers := rfl
@[simp] theorem State.onCtx_leases (s : State) (n : Nat) (f : Ctx → Ctx) : (s.onCtx n f).leases = s.leases := rfl
@[simp] theorem State.onCtx_skink (s : State) (n : Nat) (f : Ctx → Ctx) : (s.onCtx n f).skink = s.skink := rfl
@[simp] theorem State.onCtx_exchs (s : State) (n : Nat) (f : Ctx → Ctx) : (s.onCtx n f).exchs = s.exchs := rfl
@[simp] theorem State.onCtx_time (s : State) (n : Nat) (f : Ctx → Ctx) : (s.onCtx n f).time = s.time := rfl
@[simp] theorem State.onCtx_routes (s : State) (n : Nat) (f : Ctx → Ctx) : (s.onCtx n f).routes = s.routes := rfl
@[simp] theorem State.onCtx_ready (s : State) (n : Nat) (f : Ctx → Ctx) : (s.onCtx n f).ready = s.ready := rfl
@[simp] theorem State.onCtx_late (s : State) (n : Nat) (f : Ctx → Ctx) : (s.onCtx n f).late = s.late := rfl
@[simp] theorem State.onCtx_seq (s : State) (n : Nat) (f : Ctx → Ctx) : (s.onCtx n f).seq = s.seq := rfl
@[simp] theorem State.onCtx_await (s : State) (n : Nat) (f : Ctx → Ctx) : (s.onCtx n f).await = s.await := rfl
@[simp] theorem State.onCtx_msix (s : State) (n : Nat) (f : Ctx → Ctx) : (s.onCtx n f).msix = s.msix := rfl
@[simp] theorem State.onCtx_msixDue (s : State) (n : Nat) (f : Ctx → Ctx) : (s.onCtx n f).msixDue = s.msixDue := rfl
@[simp] theorem State.onCtx_out (s : State) (n : Nat) (f : Ctx → Ctx) : (s.onCtx n f).out = s.out := rfl
@[simp] theorem State.onCtx_agenda (s : State) (n : Nat) (f : Ctx → Ctx) : (s.onCtx n f).agenda = s.agenda := rfl
@[simp] theorem State.onCtx_tick (s : State) (n : Nat) (f : Ctx → Ctx) : (s.onCtx n f).tick = s.tick := rfl

@[simp] theorem State.onFen_core (s : State) (n : Nat) (f : Fen → Fen) : (s.onFen n f).core = s.core := rfl
@[simp] theorem State.onFen_cores (s : State) (n : Nat) (f : Fen → Fen) : (s.onFen n f).cores = s.cores := rfl
@[simp] theorem State.onFen_iss (s : State) (n : Nat) (f : Fen → Fen) : (s.onFen n f).iss = s.iss := rfl
@[simp] theorem State.onFen_mem (s : State) (n : Nat) (f : Fen → Fen) : (s.onFen n f).mem = s.mem := rfl
@[simp] theorem State.onFen_tags (s : State) (n : Nat) (f : Fen → Fen) : (s.onFen n f).tags = s.tags := rfl
@[simp] theorem State.onFen_poison (s : State) (n : Nat) (f : Fen → Fen) : (s.onFen n f).poison = s.poison := rfl
@[simp] theorem State.onFen_flaws (s : State) (n : Nat) (f : Fen → Fen) : (s.onFen n f).flaws = s.flaws := rfl
@[simp] theorem State.onFen_stamps (s : State) (n : Nat) (f : Fen → Fen) : (s.onFen n f).stamps = s.stamps := rfl
@[simp] theorem State.onFen_latest (s : State) (n : Nat) (f : Fen → Fen) : (s.onFen n f).latest = s.latest := rfl
@[simp] theorem State.onFen_hostMem (s : State) (n : Nat) (f : Fen → Fen) : (s.onFen n f).hostMem = s.hostMem := rfl
@[simp] theorem State.onFen_hostClock (s : State) (n : Nat) (f : Fen → Fen) : (s.onFen n f).hostClock = s.hostClock := rfl
@[simp] theorem State.onFen_ctxs (s : State) (n : Nat) (f : Fen → Fen) : (s.onFen n f).ctxs = s.ctxs := rfl
@[simp] theorem State.onFen_tasks (s : State) (n : Nat) (f : Fen → Fen) : (s.onFen n f).tasks = s.tasks := rfl
@[simp] theorem State.onFen_launches (s : State) (n : Nat) (f : Fen → Fen) : (s.onFen n f).launches = s.launches := rfl
@[simp] theorem State.onFen_nextLaunch (s : State) (n : Nat) (f : Fen → Fen) : (s.onFen n f).nextLaunch = s.nextLaunch := rfl
@[simp] theorem State.onFen_dies (s : State) (n : Nat) (f : Fen → Fen) : (s.onFen n f).dies = s.dies := rfl
@[simp] theorem State.onFen_pkg (s : State) (n : Nat) (f : Fen → Fen) : (s.onFen n f).pkg = s.pkg := rfl
@[simp] theorem State.onFen_ports (s : State) (n : Nat) (f : Fen → Fen) : (s.onFen n f).ports = s.ports := rfl
@[simp] theorem State.onFen_ucie (s : State) (n : Nat) (f : Fen → Fen) : (s.onFen n f).ucie = s.ucie := rfl
@[simp] theorem State.onFen_mireUp (s : State) (n : Nat) (f : Fen → Fen) : (s.onFen n f).mireUp = s.mireUp := rfl
@[simp] theorem State.onFen_lostPeers (s : State) (n : Nat) (f : Fen → Fen) : (s.onFen n f).lostPeers = s.lostPeers := rfl
@[simp] theorem State.onFen_leases (s : State) (n : Nat) (f : Fen → Fen) : (s.onFen n f).leases = s.leases := rfl
@[simp] theorem State.onFen_skink (s : State) (n : Nat) (f : Fen → Fen) : (s.onFen n f).skink = s.skink := rfl
@[simp] theorem State.onFen_exchs (s : State) (n : Nat) (f : Fen → Fen) : (s.onFen n f).exchs = s.exchs := rfl
@[simp] theorem State.onFen_time (s : State) (n : Nat) (f : Fen → Fen) : (s.onFen n f).time = s.time := rfl
@[simp] theorem State.onFen_routes (s : State) (n : Nat) (f : Fen → Fen) : (s.onFen n f).routes = s.routes := rfl
@[simp] theorem State.onFen_ready (s : State) (n : Nat) (f : Fen → Fen) : (s.onFen n f).ready = s.ready := rfl
@[simp] theorem State.onFen_late (s : State) (n : Nat) (f : Fen → Fen) : (s.onFen n f).late = s.late := rfl
@[simp] theorem State.onFen_seq (s : State) (n : Nat) (f : Fen → Fen) : (s.onFen n f).seq = s.seq := rfl
@[simp] theorem State.onFen_await (s : State) (n : Nat) (f : Fen → Fen) : (s.onFen n f).await = s.await := rfl
@[simp] theorem State.onFen_msix (s : State) (n : Nat) (f : Fen → Fen) : (s.onFen n f).msix = s.msix := rfl
@[simp] theorem State.onFen_msixDue (s : State) (n : Nat) (f : Fen → Fen) : (s.onFen n f).msixDue = s.msixDue := rfl
@[simp] theorem State.onFen_out (s : State) (n : Nat) (f : Fen → Fen) : (s.onFen n f).out = s.out := rfl
@[simp] theorem State.onFen_agenda (s : State) (n : Nat) (f : Fen → Fen) : (s.onFen n f).agenda = s.agenda := rfl
@[simp] theorem State.onFen_tick (s : State) (n : Nat) (f : Fen → Fen) : (s.onFen n f).tick = s.tick := rfl

@[simp] theorem State.onDie_core (s : State) (n : Nat) (f : Die → Die) : (s.onDie n f).core = s.core := rfl
@[simp] theorem State.onDie_cores (s : State) (n : Nat) (f : Die → Die) : (s.onDie n f).cores = s.cores := rfl
@[simp] theorem State.onDie_iss (s : State) (n : Nat) (f : Die → Die) : (s.onDie n f).iss = s.iss := rfl
@[simp] theorem State.onDie_mem (s : State) (n : Nat) (f : Die → Die) : (s.onDie n f).mem = s.mem := rfl
@[simp] theorem State.onDie_tags (s : State) (n : Nat) (f : Die → Die) : (s.onDie n f).tags = s.tags := rfl
@[simp] theorem State.onDie_poison (s : State) (n : Nat) (f : Die → Die) : (s.onDie n f).poison = s.poison := rfl
@[simp] theorem State.onDie_flaws (s : State) (n : Nat) (f : Die → Die) : (s.onDie n f).flaws = s.flaws := rfl
@[simp] theorem State.onDie_stamps (s : State) (n : Nat) (f : Die → Die) : (s.onDie n f).stamps = s.stamps := rfl
@[simp] theorem State.onDie_latest (s : State) (n : Nat) (f : Die → Die) : (s.onDie n f).latest = s.latest := rfl
@[simp] theorem State.onDie_hostMem (s : State) (n : Nat) (f : Die → Die) : (s.onDie n f).hostMem = s.hostMem := rfl
@[simp] theorem State.onDie_hostClock (s : State) (n : Nat) (f : Die → Die) : (s.onDie n f).hostClock = s.hostClock := rfl
@[simp] theorem State.onDie_ctxs (s : State) (n : Nat) (f : Die → Die) : (s.onDie n f).ctxs = s.ctxs := rfl
@[simp] theorem State.onDie_tasks (s : State) (n : Nat) (f : Die → Die) : (s.onDie n f).tasks = s.tasks := rfl
@[simp] theorem State.onDie_launches (s : State) (n : Nat) (f : Die → Die) : (s.onDie n f).launches = s.launches := rfl
@[simp] theorem State.onDie_nextLaunch (s : State) (n : Nat) (f : Die → Die) : (s.onDie n f).nextLaunch = s.nextLaunch := rfl
@[simp] theorem State.onDie_fens (s : State) (n : Nat) (f : Die → Die) : (s.onDie n f).fens = s.fens := rfl
@[simp] theorem State.onDie_pkg (s : State) (n : Nat) (f : Die → Die) : (s.onDie n f).pkg = s.pkg := rfl
@[simp] theorem State.onDie_ports (s : State) (n : Nat) (f : Die → Die) : (s.onDie n f).ports = s.ports := rfl
@[simp] theorem State.onDie_ucie (s : State) (n : Nat) (f : Die → Die) : (s.onDie n f).ucie = s.ucie := rfl
@[simp] theorem State.onDie_mireUp (s : State) (n : Nat) (f : Die → Die) : (s.onDie n f).mireUp = s.mireUp := rfl
@[simp] theorem State.onDie_lostPeers (s : State) (n : Nat) (f : Die → Die) : (s.onDie n f).lostPeers = s.lostPeers := rfl
@[simp] theorem State.onDie_leases (s : State) (n : Nat) (f : Die → Die) : (s.onDie n f).leases = s.leases := rfl
@[simp] theorem State.onDie_skink (s : State) (n : Nat) (f : Die → Die) : (s.onDie n f).skink = s.skink := rfl
@[simp] theorem State.onDie_exchs (s : State) (n : Nat) (f : Die → Die) : (s.onDie n f).exchs = s.exchs := rfl
@[simp] theorem State.onDie_time (s : State) (n : Nat) (f : Die → Die) : (s.onDie n f).time = s.time := rfl
@[simp] theorem State.onDie_routes (s : State) (n : Nat) (f : Die → Die) : (s.onDie n f).routes = s.routes := rfl
@[simp] theorem State.onDie_ready (s : State) (n : Nat) (f : Die → Die) : (s.onDie n f).ready = s.ready := rfl
@[simp] theorem State.onDie_late (s : State) (n : Nat) (f : Die → Die) : (s.onDie n f).late = s.late := rfl
@[simp] theorem State.onDie_seq (s : State) (n : Nat) (f : Die → Die) : (s.onDie n f).seq = s.seq := rfl
@[simp] theorem State.onDie_await (s : State) (n : Nat) (f : Die → Die) : (s.onDie n f).await = s.await := rfl
@[simp] theorem State.onDie_msix (s : State) (n : Nat) (f : Die → Die) : (s.onDie n f).msix = s.msix := rfl
@[simp] theorem State.onDie_msixDue (s : State) (n : Nat) (f : Die → Die) : (s.onDie n f).msixDue = s.msixDue := rfl
@[simp] theorem State.onDie_out (s : State) (n : Nat) (f : Die → Die) : (s.onDie n f).out = s.out := rfl
@[simp] theorem State.onDie_agenda (s : State) (n : Nat) (f : Die → Die) : (s.onDie n f).agenda = s.agenda := rfl
@[simp] theorem State.onDie_tick (s : State) (n : Nat) (f : Die → Die) : (s.onDie n f).tick = s.tick := rfl

@[simp] theorem State.post_core (s : State) (r : FaultRec) : (s.post r).core = s.core := rfl
@[simp] theorem State.post_cores (s : State) (r : FaultRec) : (s.post r).cores = s.cores := rfl
@[simp] theorem State.post_iss (s : State) (r : FaultRec) : (s.post r).iss = s.iss := rfl
@[simp] theorem State.post_mem (s : State) (r : FaultRec) : (s.post r).mem = s.mem := rfl
@[simp] theorem State.post_tags (s : State) (r : FaultRec) : (s.post r).tags = s.tags := rfl
@[simp] theorem State.post_poison (s : State) (r : FaultRec) : (s.post r).poison = s.poison := rfl
@[simp] theorem State.post_stamps (s : State) (r : FaultRec) : (s.post r).stamps = s.stamps := rfl
@[simp] theorem State.post_latest (s : State) (r : FaultRec) : (s.post r).latest = s.latest := rfl
@[simp] theorem State.post_hostMem (s : State) (r : FaultRec) : (s.post r).hostMem = s.hostMem := rfl
@[simp] theorem State.post_hostClock (s : State) (r : FaultRec) : (s.post r).hostClock = s.hostClock := rfl
@[simp] theorem State.post_ctxs (s : State) (r : FaultRec) : (s.post r).ctxs = s.ctxs := rfl
@[simp] theorem State.post_tasks (s : State) (r : FaultRec) : (s.post r).tasks = s.tasks := rfl
@[simp] theorem State.post_launches (s : State) (r : FaultRec) : (s.post r).launches = s.launches := rfl
@[simp] theorem State.post_nextLaunch (s : State) (r : FaultRec) : (s.post r).nextLaunch = s.nextLaunch := rfl
@[simp] theorem State.post_fens (s : State) (r : FaultRec) : (s.post r).fens = s.fens := rfl
@[simp] theorem State.post_dies (s : State) (r : FaultRec) : (s.post r).dies = s.dies := rfl
@[simp] theorem State.post_pkg (s : State) (r : FaultRec) : (s.post r).pkg = s.pkg := rfl
@[simp] theorem State.post_ports (s : State) (r : FaultRec) : (s.post r).ports = s.ports := rfl
@[simp] theorem State.post_ucie (s : State) (r : FaultRec) : (s.post r).ucie = s.ucie := rfl
@[simp] theorem State.post_mireUp (s : State) (r : FaultRec) : (s.post r).mireUp = s.mireUp := rfl
@[simp] theorem State.post_lostPeers (s : State) (r : FaultRec) : (s.post r).lostPeers = s.lostPeers := rfl
@[simp] theorem State.post_leases (s : State) (r : FaultRec) : (s.post r).leases = s.leases := rfl
@[simp] theorem State.post_skink (s : State) (r : FaultRec) : (s.post r).skink = s.skink := rfl
@[simp] theorem State.post_exchs (s : State) (r : FaultRec) : (s.post r).exchs = s.exchs := rfl
@[simp] theorem State.post_time (s : State) (r : FaultRec) : (s.post r).time = s.time := rfl
@[simp] theorem State.post_routes (s : State) (r : FaultRec) : (s.post r).routes = s.routes := rfl
@[simp] theorem State.post_late (s : State) (r : FaultRec) : (s.post r).late = s.late := rfl
@[simp] theorem State.post_await (s : State) (r : FaultRec) : (s.post r).await = s.await := rfl
@[simp] theorem State.post_msix (s : State) (r : FaultRec) : (s.post r).msix = s.msix := rfl
@[simp] theorem State.post_msixDue (s : State) (r : FaultRec) : (s.post r).msixDue = s.msixDue := rfl
@[simp] theorem State.post_out (s : State) (r : FaultRec) : (s.post r).out = s.out := rfl
@[simp] theorem State.post_agenda (s : State) (r : FaultRec) : (s.post r).agenda = s.agenda := rfl
@[simp] theorem State.post_tick (s : State) (r : FaultRec) : (s.post r).tick = s.tick := rfl

@[simp] theorem State.result_core (s : State) (rem : Nat) (w : Landing) : (s.result rem w).core = s.core := rfl
@[simp] theorem State.result_cores (s : State) (rem : Nat) (w : Landing) : (s.result rem w).cores = s.cores := rfl
@[simp] theorem State.result_mem (s : State) (rem : Nat) (w : Landing) : (s.result rem w).mem = s.mem := rfl
@[simp] theorem State.result_tags (s : State) (rem : Nat) (w : Landing) : (s.result rem w).tags = s.tags := rfl
@[simp] theorem State.result_poison (s : State) (rem : Nat) (w : Landing) : (s.result rem w).poison = s.poison := rfl
@[simp] theorem State.result_flaws (s : State) (rem : Nat) (w : Landing) : (s.result rem w).flaws = s.flaws := rfl
@[simp] theorem State.result_stamps (s : State) (rem : Nat) (w : Landing) : (s.result rem w).stamps = s.stamps := rfl
@[simp] theorem State.result_latest (s : State) (rem : Nat) (w : Landing) : (s.result rem w).latest = s.latest := rfl
@[simp] theorem State.result_hostMem (s : State) (rem : Nat) (w : Landing) : (s.result rem w).hostMem = s.hostMem := rfl
@[simp] theorem State.result_hostClock (s : State) (rem : Nat) (w : Landing) : (s.result rem w).hostClock = s.hostClock := rfl
@[simp] theorem State.result_ctxs (s : State) (rem : Nat) (w : Landing) : (s.result rem w).ctxs = s.ctxs := rfl
@[simp] theorem State.result_tasks (s : State) (rem : Nat) (w : Landing) : (s.result rem w).tasks = s.tasks := rfl
@[simp] theorem State.result_launches (s : State) (rem : Nat) (w : Landing) : (s.result rem w).launches = s.launches := rfl
@[simp] theorem State.result_nextLaunch (s : State) (rem : Nat) (w : Landing) : (s.result rem w).nextLaunch = s.nextLaunch := rfl
@[simp] theorem State.result_fens (s : State) (rem : Nat) (w : Landing) : (s.result rem w).fens = s.fens := rfl
@[simp] theorem State.result_dies (s : State) (rem : Nat) (w : Landing) : (s.result rem w).dies = s.dies := rfl
@[simp] theorem State.result_pkg (s : State) (rem : Nat) (w : Landing) : (s.result rem w).pkg = s.pkg := rfl
@[simp] theorem State.result_ports (s : State) (rem : Nat) (w : Landing) : (s.result rem w).ports = s.ports := rfl
@[simp] theorem State.result_ucie (s : State) (rem : Nat) (w : Landing) : (s.result rem w).ucie = s.ucie := rfl
@[simp] theorem State.result_mireUp (s : State) (rem : Nat) (w : Landing) : (s.result rem w).mireUp = s.mireUp := rfl
@[simp] theorem State.result_lostPeers (s : State) (rem : Nat) (w : Landing) : (s.result rem w).lostPeers = s.lostPeers := rfl
@[simp] theorem State.result_leases (s : State) (rem : Nat) (w : Landing) : (s.result rem w).leases = s.leases := rfl
@[simp] theorem State.result_skink (s : State) (rem : Nat) (w : Landing) : (s.result rem w).skink = s.skink := rfl
@[simp] theorem State.result_exchs (s : State) (rem : Nat) (w : Landing) : (s.result rem w).exchs = s.exchs := rfl
@[simp] theorem State.result_time (s : State) (rem : Nat) (w : Landing) : (s.result rem w).time = s.time := rfl
@[simp] theorem State.result_routes (s : State) (rem : Nat) (w : Landing) : (s.result rem w).routes = s.routes := rfl
@[simp] theorem State.result_ready (s : State) (rem : Nat) (w : Landing) : (s.result rem w).ready = s.ready := rfl
@[simp] theorem State.result_late (s : State) (rem : Nat) (w : Landing) : (s.result rem w).late = s.late := rfl
@[simp] theorem State.result_seq (s : State) (rem : Nat) (w : Landing) : (s.result rem w).seq = s.seq := rfl
@[simp] theorem State.result_await (s : State) (rem : Nat) (w : Landing) : (s.result rem w).await = s.await := rfl
@[simp] theorem State.result_msix (s : State) (rem : Nat) (w : Landing) : (s.result rem w).msix = s.msix := rfl
@[simp] theorem State.result_msixDue (s : State) (rem : Nat) (w : Landing) : (s.result rem w).msixDue = s.msixDue := rfl
@[simp] theorem State.result_out (s : State) (rem : Nat) (w : Landing) : (s.result rem w).out = s.out := rfl
@[simp] theorem State.result_agenda (s : State) (rem : Nat) (w : Landing) : (s.result rem w).agenda = s.agenda := rfl
@[simp] theorem State.result_tick (s : State) (rem : Nat) (w : Landing) : (s.result rem w).tick = s.tick := rfl

@[simp] theorem State.endOfCycle_core (s : State) (e : Eoc) : (s.endOfCycle e).core = s.core := rfl
@[simp] theorem State.endOfCycle_cores (s : State) (e : Eoc) : (s.endOfCycle e).cores = s.cores := rfl
@[simp] theorem State.endOfCycle_mem (s : State) (e : Eoc) : (s.endOfCycle e).mem = s.mem := rfl
@[simp] theorem State.endOfCycle_tags (s : State) (e : Eoc) : (s.endOfCycle e).tags = s.tags := rfl
@[simp] theorem State.endOfCycle_poison (s : State) (e : Eoc) : (s.endOfCycle e).poison = s.poison := rfl
@[simp] theorem State.endOfCycle_flaws (s : State) (e : Eoc) : (s.endOfCycle e).flaws = s.flaws := rfl
@[simp] theorem State.endOfCycle_stamps (s : State) (e : Eoc) : (s.endOfCycle e).stamps = s.stamps := rfl
@[simp] theorem State.endOfCycle_latest (s : State) (e : Eoc) : (s.endOfCycle e).latest = s.latest := rfl
@[simp] theorem State.endOfCycle_hostMem (s : State) (e : Eoc) : (s.endOfCycle e).hostMem = s.hostMem := rfl
@[simp] theorem State.endOfCycle_hostClock (s : State) (e : Eoc) : (s.endOfCycle e).hostClock = s.hostClock := rfl
@[simp] theorem State.endOfCycle_ctxs (s : State) (e : Eoc) : (s.endOfCycle e).ctxs = s.ctxs := rfl
@[simp] theorem State.endOfCycle_tasks (s : State) (e : Eoc) : (s.endOfCycle e).tasks = s.tasks := rfl
@[simp] theorem State.endOfCycle_launches (s : State) (e : Eoc) : (s.endOfCycle e).launches = s.launches := rfl
@[simp] theorem State.endOfCycle_nextLaunch (s : State) (e : Eoc) : (s.endOfCycle e).nextLaunch = s.nextLaunch := rfl
@[simp] theorem State.endOfCycle_fens (s : State) (e : Eoc) : (s.endOfCycle e).fens = s.fens := rfl
@[simp] theorem State.endOfCycle_dies (s : State) (e : Eoc) : (s.endOfCycle e).dies = s.dies := rfl
@[simp] theorem State.endOfCycle_pkg (s : State) (e : Eoc) : (s.endOfCycle e).pkg = s.pkg := rfl
@[simp] theorem State.endOfCycle_ports (s : State) (e : Eoc) : (s.endOfCycle e).ports = s.ports := rfl
@[simp] theorem State.endOfCycle_ucie (s : State) (e : Eoc) : (s.endOfCycle e).ucie = s.ucie := rfl
@[simp] theorem State.endOfCycle_mireUp (s : State) (e : Eoc) : (s.endOfCycle e).mireUp = s.mireUp := rfl
@[simp] theorem State.endOfCycle_lostPeers (s : State) (e : Eoc) : (s.endOfCycle e).lostPeers = s.lostPeers := rfl
@[simp] theorem State.endOfCycle_leases (s : State) (e : Eoc) : (s.endOfCycle e).leases = s.leases := rfl
@[simp] theorem State.endOfCycle_skink (s : State) (e : Eoc) : (s.endOfCycle e).skink = s.skink := rfl
@[simp] theorem State.endOfCycle_exchs (s : State) (e : Eoc) : (s.endOfCycle e).exchs = s.exchs := rfl
@[simp] theorem State.endOfCycle_time (s : State) (e : Eoc) : (s.endOfCycle e).time = s.time := rfl
@[simp] theorem State.endOfCycle_routes (s : State) (e : Eoc) : (s.endOfCycle e).routes = s.routes := rfl
@[simp] theorem State.endOfCycle_ready (s : State) (e : Eoc) : (s.endOfCycle e).ready = s.ready := rfl
@[simp] theorem State.endOfCycle_late (s : State) (e : Eoc) : (s.endOfCycle e).late = s.late := rfl
@[simp] theorem State.endOfCycle_seq (s : State) (e : Eoc) : (s.endOfCycle e).seq = s.seq := rfl
@[simp] theorem State.endOfCycle_await (s : State) (e : Eoc) : (s.endOfCycle e).await = s.await := rfl
@[simp] theorem State.endOfCycle_msix (s : State) (e : Eoc) : (s.endOfCycle e).msix = s.msix := rfl
@[simp] theorem State.endOfCycle_msixDue (s : State) (e : Eoc) : (s.endOfCycle e).msixDue = s.msixDue := rfl
@[simp] theorem State.endOfCycle_out (s : State) (e : Eoc) : (s.endOfCycle e).out = s.out := rfl
@[simp] theorem State.endOfCycle_agenda (s : State) (e : Eoc) : (s.endOfCycle e).agenda = s.agenda := rfl
@[simp] theorem State.endOfCycle_tick (s : State) (e : Eoc) : (s.endOfCycle e).tick = s.tick := rfl

@[simp] theorem State.flag_core (s : State) (f : BitVec 7) : (s.flag f).core = s.core := rfl
@[simp] theorem State.flag_cores (s : State) (f : BitVec 7) : (s.flag f).cores = s.cores := rfl
@[simp] theorem State.flag_mem (s : State) (f : BitVec 7) : (s.flag f).mem = s.mem := rfl
@[simp] theorem State.flag_tags (s : State) (f : BitVec 7) : (s.flag f).tags = s.tags := rfl
@[simp] theorem State.flag_poison (s : State) (f : BitVec 7) : (s.flag f).poison = s.poison := rfl
@[simp] theorem State.flag_flaws (s : State) (f : BitVec 7) : (s.flag f).flaws = s.flaws := rfl
@[simp] theorem State.flag_stamps (s : State) (f : BitVec 7) : (s.flag f).stamps = s.stamps := rfl
@[simp] theorem State.flag_latest (s : State) (f : BitVec 7) : (s.flag f).latest = s.latest := rfl
@[simp] theorem State.flag_hostMem (s : State) (f : BitVec 7) : (s.flag f).hostMem = s.hostMem := rfl
@[simp] theorem State.flag_hostClock (s : State) (f : BitVec 7) : (s.flag f).hostClock = s.hostClock := rfl
@[simp] theorem State.flag_ctxs (s : State) (f : BitVec 7) : (s.flag f).ctxs = s.ctxs := rfl
@[simp] theorem State.flag_tasks (s : State) (f : BitVec 7) : (s.flag f).tasks = s.tasks := rfl
@[simp] theorem State.flag_launches (s : State) (f : BitVec 7) : (s.flag f).launches = s.launches := rfl
@[simp] theorem State.flag_nextLaunch (s : State) (f : BitVec 7) : (s.flag f).nextLaunch = s.nextLaunch := rfl
@[simp] theorem State.flag_fens (s : State) (f : BitVec 7) : (s.flag f).fens = s.fens := rfl
@[simp] theorem State.flag_dies (s : State) (f : BitVec 7) : (s.flag f).dies = s.dies := rfl
@[simp] theorem State.flag_pkg (s : State) (f : BitVec 7) : (s.flag f).pkg = s.pkg := rfl
@[simp] theorem State.flag_ports (s : State) (f : BitVec 7) : (s.flag f).ports = s.ports := rfl
@[simp] theorem State.flag_ucie (s : State) (f : BitVec 7) : (s.flag f).ucie = s.ucie := rfl
@[simp] theorem State.flag_mireUp (s : State) (f : BitVec 7) : (s.flag f).mireUp = s.mireUp := rfl
@[simp] theorem State.flag_lostPeers (s : State) (f : BitVec 7) : (s.flag f).lostPeers = s.lostPeers := rfl
@[simp] theorem State.flag_leases (s : State) (f : BitVec 7) : (s.flag f).leases = s.leases := rfl
@[simp] theorem State.flag_skink (s : State) (f : BitVec 7) : (s.flag f).skink = s.skink := rfl
@[simp] theorem State.flag_exchs (s : State) (f : BitVec 7) : (s.flag f).exchs = s.exchs := rfl
@[simp] theorem State.flag_time (s : State) (f : BitVec 7) : (s.flag f).time = s.time := rfl
@[simp] theorem State.flag_routes (s : State) (f : BitVec 7) : (s.flag f).routes = s.routes := rfl
@[simp] theorem State.flag_ready (s : State) (f : BitVec 7) : (s.flag f).ready = s.ready := rfl
@[simp] theorem State.flag_late (s : State) (f : BitVec 7) : (s.flag f).late = s.late := rfl
@[simp] theorem State.flag_seq (s : State) (f : BitVec 7) : (s.flag f).seq = s.seq := rfl
@[simp] theorem State.flag_await (s : State) (f : BitVec 7) : (s.flag f).await = s.await := rfl
@[simp] theorem State.flag_msix (s : State) (f : BitVec 7) : (s.flag f).msix = s.msix := rfl
@[simp] theorem State.flag_msixDue (s : State) (f : BitVec 7) : (s.flag f).msixDue = s.msixDue := rfl
@[simp] theorem State.flag_out (s : State) (f : BitVec 7) : (s.flag f).out = s.out := rfl
@[simp] theorem State.flag_agenda (s : State) (f : BitVec 7) : (s.flag f).agenda = s.agenda := rfl
@[simp] theorem State.flag_tick (s : State) (f : BitVec 7) : (s.flag f).tick = s.tick := rfl

@[simp] theorem State.fresh_core (s : State) : (s.fresh).core = s.core := rfl
@[simp] theorem State.fresh_cores (s : State) : (s.fresh).cores = s.cores := rfl
@[simp] theorem State.fresh_iss (s : State) : (s.fresh).iss = s.iss := rfl
@[simp] theorem State.fresh_mem (s : State) : (s.fresh).mem = s.mem := rfl
@[simp] theorem State.fresh_tags (s : State) : (s.fresh).tags = s.tags := rfl
@[simp] theorem State.fresh_poison (s : State) : (s.fresh).poison = s.poison := rfl
@[simp] theorem State.fresh_flaws (s : State) : (s.fresh).flaws = s.flaws := rfl
@[simp] theorem State.fresh_stamps (s : State) : (s.fresh).stamps = s.stamps := rfl
@[simp] theorem State.fresh_latest (s : State) : (s.fresh).latest = s.latest := rfl
@[simp] theorem State.fresh_hostMem (s : State) : (s.fresh).hostMem = s.hostMem := rfl
@[simp] theorem State.fresh_hostClock (s : State) : (s.fresh).hostClock = s.hostClock := rfl
@[simp] theorem State.fresh_ctxs (s : State) : (s.fresh).ctxs = s.ctxs := rfl
@[simp] theorem State.fresh_tasks (s : State) : (s.fresh).tasks = s.tasks := rfl
@[simp] theorem State.fresh_launches (s : State) : (s.fresh).launches = s.launches := rfl
@[simp] theorem State.fresh_nextLaunch (s : State) : (s.fresh).nextLaunch = s.nextLaunch := rfl
@[simp] theorem State.fresh_fens (s : State) : (s.fresh).fens = s.fens := rfl
@[simp] theorem State.fresh_dies (s : State) : (s.fresh).dies = s.dies := rfl
@[simp] theorem State.fresh_pkg (s : State) : (s.fresh).pkg = s.pkg := rfl
@[simp] theorem State.fresh_ports (s : State) : (s.fresh).ports = s.ports := rfl
@[simp] theorem State.fresh_ucie (s : State) : (s.fresh).ucie = s.ucie := rfl
@[simp] theorem State.fresh_mireUp (s : State) : (s.fresh).mireUp = s.mireUp := rfl
@[simp] theorem State.fresh_lostPeers (s : State) : (s.fresh).lostPeers = s.lostPeers := rfl
@[simp] theorem State.fresh_leases (s : State) : (s.fresh).leases = s.leases := rfl
@[simp] theorem State.fresh_skink (s : State) : (s.fresh).skink = s.skink := rfl
@[simp] theorem State.fresh_exchs (s : State) : (s.fresh).exchs = s.exchs := rfl
@[simp] theorem State.fresh_time (s : State) : (s.fresh).time = s.time := rfl
@[simp] theorem State.fresh_routes (s : State) : (s.fresh).routes = s.routes := rfl
@[simp] theorem State.fresh_ready (s : State) : (s.fresh).ready = s.ready := rfl
@[simp] theorem State.fresh_late (s : State) : (s.fresh).late = s.late := rfl
@[simp] theorem State.fresh_seq (s : State) : (s.fresh).seq = s.seq := rfl
@[simp] theorem State.fresh_await (s : State) : (s.fresh).await = s.await := rfl
@[simp] theorem State.fresh_msix (s : State) : (s.fresh).msix = s.msix := rfl
@[simp] theorem State.fresh_msixDue (s : State) : (s.fresh).msixDue = s.msixDue := rfl
@[simp] theorem State.fresh_out (s : State) : (s.fresh).out = s.out := rfl
@[simp] theorem State.fresh_agenda (s : State) : (s.fresh).agenda = s.agenda := rfl

@[simp] theorem State.putPort_core (s : State) (k : Nat) (p : Port) : (s.putPort k p).core = s.core := rfl
@[simp] theorem State.putPort_cores (s : State) (k : Nat) (p : Port) : (s.putPort k p).cores = s.cores := rfl
@[simp] theorem State.putPort_iss (s : State) (k : Nat) (p : Port) : (s.putPort k p).iss = s.iss := rfl
@[simp] theorem State.putPort_mem (s : State) (k : Nat) (p : Port) : (s.putPort k p).mem = s.mem := rfl
@[simp] theorem State.putPort_tags (s : State) (k : Nat) (p : Port) : (s.putPort k p).tags = s.tags := rfl
@[simp] theorem State.putPort_poison (s : State) (k : Nat) (p : Port) : (s.putPort k p).poison = s.poison := rfl
@[simp] theorem State.putPort_flaws (s : State) (k : Nat) (p : Port) : (s.putPort k p).flaws = s.flaws := rfl
@[simp] theorem State.putPort_stamps (s : State) (k : Nat) (p : Port) : (s.putPort k p).stamps = s.stamps := rfl
@[simp] theorem State.putPort_latest (s : State) (k : Nat) (p : Port) : (s.putPort k p).latest = s.latest := rfl
@[simp] theorem State.putPort_hostMem (s : State) (k : Nat) (p : Port) : (s.putPort k p).hostMem = s.hostMem := rfl
@[simp] theorem State.putPort_hostClock (s : State) (k : Nat) (p : Port) : (s.putPort k p).hostClock = s.hostClock := rfl
@[simp] theorem State.putPort_ctxs (s : State) (k : Nat) (p : Port) : (s.putPort k p).ctxs = s.ctxs := rfl
@[simp] theorem State.putPort_tasks (s : State) (k : Nat) (p : Port) : (s.putPort k p).tasks = s.tasks := rfl
@[simp] theorem State.putPort_launches (s : State) (k : Nat) (p : Port) : (s.putPort k p).launches = s.launches := rfl
@[simp] theorem State.putPort_nextLaunch (s : State) (k : Nat) (p : Port) : (s.putPort k p).nextLaunch = s.nextLaunch := rfl
@[simp] theorem State.putPort_fens (s : State) (k : Nat) (p : Port) : (s.putPort k p).fens = s.fens := rfl
@[simp] theorem State.putPort_dies (s : State) (k : Nat) (p : Port) : (s.putPort k p).dies = s.dies := rfl
@[simp] theorem State.putPort_pkg (s : State) (k : Nat) (p : Port) : (s.putPort k p).pkg = s.pkg := rfl
@[simp] theorem State.putPort_ucie (s : State) (k : Nat) (p : Port) : (s.putPort k p).ucie = s.ucie := rfl
@[simp] theorem State.putPort_mireUp (s : State) (k : Nat) (p : Port) : (s.putPort k p).mireUp = s.mireUp := rfl
@[simp] theorem State.putPort_lostPeers (s : State) (k : Nat) (p : Port) : (s.putPort k p).lostPeers = s.lostPeers := rfl
@[simp] theorem State.putPort_leases (s : State) (k : Nat) (p : Port) : (s.putPort k p).leases = s.leases := rfl
@[simp] theorem State.putPort_skink (s : State) (k : Nat) (p : Port) : (s.putPort k p).skink = s.skink := rfl
@[simp] theorem State.putPort_exchs (s : State) (k : Nat) (p : Port) : (s.putPort k p).exchs = s.exchs := rfl
@[simp] theorem State.putPort_time (s : State) (k : Nat) (p : Port) : (s.putPort k p).time = s.time := rfl
@[simp] theorem State.putPort_routes (s : State) (k : Nat) (p : Port) : (s.putPort k p).routes = s.routes := rfl
@[simp] theorem State.putPort_ready (s : State) (k : Nat) (p : Port) : (s.putPort k p).ready = s.ready := rfl
@[simp] theorem State.putPort_late (s : State) (k : Nat) (p : Port) : (s.putPort k p).late = s.late := rfl
@[simp] theorem State.putPort_seq (s : State) (k : Nat) (p : Port) : (s.putPort k p).seq = s.seq := rfl
@[simp] theorem State.putPort_await (s : State) (k : Nat) (p : Port) : (s.putPort k p).await = s.await := rfl
@[simp] theorem State.putPort_msix (s : State) (k : Nat) (p : Port) : (s.putPort k p).msix = s.msix := rfl
@[simp] theorem State.putPort_msixDue (s : State) (k : Nat) (p : Port) : (s.putPort k p).msixDue = s.msixDue := rfl
@[simp] theorem State.putPort_out (s : State) (k : Nat) (p : Port) : (s.putPort k p).out = s.out := rfl
@[simp] theorem State.putPort_agenda (s : State) (k : Nat) (p : Port) : (s.putPort k p).agenda = s.agenda := rfl
@[simp] theorem State.putPort_tick (s : State) (k : Nat) (p : Port) : (s.putPort k p).tick = s.tick := rfl

@[simp] theorem State.setStamp_core (s : State) (pa w l t : Nat) : (s.setStamp pa w l t).core = s.core := rfl
@[simp] theorem State.setStamp_cores (s : State) (pa w l t : Nat) : (s.setStamp pa w l t).cores = s.cores := rfl
@[simp] theorem State.setStamp_iss (s : State) (pa w l t : Nat) : (s.setStamp pa w l t).iss = s.iss := rfl
@[simp] theorem State.setStamp_mem (s : State) (pa w l t : Nat) : (s.setStamp pa w l t).mem = s.mem := rfl
@[simp] theorem State.setStamp_tags (s : State) (pa w l t : Nat) : (s.setStamp pa w l t).tags = s.tags := rfl
@[simp] theorem State.setStamp_poison (s : State) (pa w l t : Nat) : (s.setStamp pa w l t).poison = s.poison := rfl
@[simp] theorem State.setStamp_flaws (s : State) (pa w l t : Nat) : (s.setStamp pa w l t).flaws = s.flaws := rfl
@[simp] theorem State.setStamp_hostMem (s : State) (pa w l t : Nat) : (s.setStamp pa w l t).hostMem = s.hostMem := rfl
@[simp] theorem State.setStamp_hostClock (s : State) (pa w l t : Nat) : (s.setStamp pa w l t).hostClock = s.hostClock := rfl
@[simp] theorem State.setStamp_ctxs (s : State) (pa w l t : Nat) : (s.setStamp pa w l t).ctxs = s.ctxs := rfl
@[simp] theorem State.setStamp_tasks (s : State) (pa w l t : Nat) : (s.setStamp pa w l t).tasks = s.tasks := rfl
@[simp] theorem State.setStamp_launches (s : State) (pa w l t : Nat) : (s.setStamp pa w l t).launches = s.launches := rfl
@[simp] theorem State.setStamp_nextLaunch (s : State) (pa w l t : Nat) : (s.setStamp pa w l t).nextLaunch = s.nextLaunch := rfl
@[simp] theorem State.setStamp_fens (s : State) (pa w l t : Nat) : (s.setStamp pa w l t).fens = s.fens := rfl
@[simp] theorem State.setStamp_dies (s : State) (pa w l t : Nat) : (s.setStamp pa w l t).dies = s.dies := rfl
@[simp] theorem State.setStamp_pkg (s : State) (pa w l t : Nat) : (s.setStamp pa w l t).pkg = s.pkg := rfl
@[simp] theorem State.setStamp_ports (s : State) (pa w l t : Nat) : (s.setStamp pa w l t).ports = s.ports := rfl
@[simp] theorem State.setStamp_ucie (s : State) (pa w l t : Nat) : (s.setStamp pa w l t).ucie = s.ucie := rfl
@[simp] theorem State.setStamp_mireUp (s : State) (pa w l t : Nat) : (s.setStamp pa w l t).mireUp = s.mireUp := rfl
@[simp] theorem State.setStamp_lostPeers (s : State) (pa w l t : Nat) : (s.setStamp pa w l t).lostPeers = s.lostPeers := rfl
@[simp] theorem State.setStamp_leases (s : State) (pa w l t : Nat) : (s.setStamp pa w l t).leases = s.leases := rfl
@[simp] theorem State.setStamp_skink (s : State) (pa w l t : Nat) : (s.setStamp pa w l t).skink = s.skink := rfl
@[simp] theorem State.setStamp_exchs (s : State) (pa w l t : Nat) : (s.setStamp pa w l t).exchs = s.exchs := rfl
@[simp] theorem State.setStamp_time (s : State) (pa w l t : Nat) : (s.setStamp pa w l t).time = s.time := rfl
@[simp] theorem State.setStamp_routes (s : State) (pa w l t : Nat) : (s.setStamp pa w l t).routes = s.routes := rfl
@[simp] theorem State.setStamp_ready (s : State) (pa w l t : Nat) : (s.setStamp pa w l t).ready = s.ready := rfl
@[simp] theorem State.setStamp_late (s : State) (pa w l t : Nat) : (s.setStamp pa w l t).late = s.late := rfl
@[simp] theorem State.setStamp_seq (s : State) (pa w l t : Nat) : (s.setStamp pa w l t).seq = s.seq := rfl
@[simp] theorem State.setStamp_await (s : State) (pa w l t : Nat) : (s.setStamp pa w l t).await = s.await := rfl
@[simp] theorem State.setStamp_msix (s : State) (pa w l t : Nat) : (s.setStamp pa w l t).msix = s.msix := rfl
@[simp] theorem State.setStamp_msixDue (s : State) (pa w l t : Nat) : (s.setStamp pa w l t).msixDue = s.msixDue := rfl
@[simp] theorem State.setStamp_out (s : State) (pa w l t : Nat) : (s.setStamp pa w l t).out = s.out := rfl
@[simp] theorem State.setStamp_agenda (s : State) (pa w l t : Nat) : (s.setStamp pa w l t).agenda = s.agenda := rfl
@[simp] theorem State.setStamp_tick (s : State) (pa w l t : Nat) : (s.setStamp pa w l t).tick = s.tick := rfl

@[simp] theorem State.wroteNow_core (s : State) (pa : Nat) : (s.wroteNow pa).core = s.core := rfl
@[simp] theorem State.wroteNow_cores (s : State) (pa : Nat) : (s.wroteNow pa).cores = s.cores := rfl
@[simp] theorem State.wroteNow_iss (s : State) (pa : Nat) : (s.wroteNow pa).iss = s.iss := rfl
@[simp] theorem State.wroteNow_mem (s : State) (pa : Nat) : (s.wroteNow pa).mem = s.mem := rfl
@[simp] theorem State.wroteNow_tags (s : State) (pa : Nat) : (s.wroteNow pa).tags = s.tags := rfl
@[simp] theorem State.wroteNow_poison (s : State) (pa : Nat) : (s.wroteNow pa).poison = s.poison := rfl
@[simp] theorem State.wroteNow_flaws (s : State) (pa : Nat) : (s.wroteNow pa).flaws = s.flaws := rfl
@[simp] theorem State.wroteNow_hostMem (s : State) (pa : Nat) : (s.wroteNow pa).hostMem = s.hostMem := rfl
@[simp] theorem State.wroteNow_ctxs (s : State) (pa : Nat) : (s.wroteNow pa).ctxs = s.ctxs := rfl
@[simp] theorem State.wroteNow_tasks (s : State) (pa : Nat) : (s.wroteNow pa).tasks = s.tasks := rfl
@[simp] theorem State.wroteNow_launches (s : State) (pa : Nat) : (s.wroteNow pa).launches = s.launches := rfl
@[simp] theorem State.wroteNow_nextLaunch (s : State) (pa : Nat) : (s.wroteNow pa).nextLaunch = s.nextLaunch := rfl
@[simp] theorem State.wroteNow_fens (s : State) (pa : Nat) : (s.wroteNow pa).fens = s.fens := rfl
@[simp] theorem State.wroteNow_dies (s : State) (pa : Nat) : (s.wroteNow pa).dies = s.dies := rfl
@[simp] theorem State.wroteNow_pkg (s : State) (pa : Nat) : (s.wroteNow pa).pkg = s.pkg := rfl
@[simp] theorem State.wroteNow_ports (s : State) (pa : Nat) : (s.wroteNow pa).ports = s.ports := rfl
@[simp] theorem State.wroteNow_ucie (s : State) (pa : Nat) : (s.wroteNow pa).ucie = s.ucie := rfl
@[simp] theorem State.wroteNow_mireUp (s : State) (pa : Nat) : (s.wroteNow pa).mireUp = s.mireUp := rfl
@[simp] theorem State.wroteNow_lostPeers (s : State) (pa : Nat) : (s.wroteNow pa).lostPeers = s.lostPeers := rfl
@[simp] theorem State.wroteNow_leases (s : State) (pa : Nat) : (s.wroteNow pa).leases = s.leases := rfl
@[simp] theorem State.wroteNow_skink (s : State) (pa : Nat) : (s.wroteNow pa).skink = s.skink := rfl
@[simp] theorem State.wroteNow_exchs (s : State) (pa : Nat) : (s.wroteNow pa).exchs = s.exchs := rfl
@[simp] theorem State.wroteNow_time (s : State) (pa : Nat) : (s.wroteNow pa).time = s.time := rfl
@[simp] theorem State.wroteNow_routes (s : State) (pa : Nat) : (s.wroteNow pa).routes = s.routes := rfl
@[simp] theorem State.wroteNow_ready (s : State) (pa : Nat) : (s.wroteNow pa).ready = s.ready := rfl
@[simp] theorem State.wroteNow_late (s : State) (pa : Nat) : (s.wroteNow pa).late = s.late := rfl
@[simp] theorem State.wroteNow_seq (s : State) (pa : Nat) : (s.wroteNow pa).seq = s.seq := rfl
@[simp] theorem State.wroteNow_await (s : State) (pa : Nat) : (s.wroteNow pa).await = s.await := rfl
@[simp] theorem State.wroteNow_msix (s : State) (pa : Nat) : (s.wroteNow pa).msix = s.msix := rfl
@[simp] theorem State.wroteNow_msixDue (s : State) (pa : Nat) : (s.wroteNow pa).msixDue = s.msixDue := rfl
@[simp] theorem State.wroteNow_out (s : State) (pa : Nat) : (s.wroteNow pa).out = s.out := rfl
@[simp] theorem State.wroteNow_agenda (s : State) (pa : Nat) : (s.wroteNow pa).agenda = s.agenda := rfl
@[simp] theorem State.wroteNow_tick (s : State) (pa : Nat) : (s.wroteNow pa).tick = s.tick := rfl

@[simp] theorem State.result_iss (s : State) (rem : Nat) (w : Landing) :
    (s.result rem w).iss = { s.iss with newInfl := s.iss.newInfl ++ [⟨rem, s.iss.slot, s.core.pipes.bundleNo, w⟩] } := rfl
@[simp] theorem State.endOfCycle_iss (s : State) (e : Eoc) :
    (s.endOfCycle e).iss = { s.iss with eoc := s.iss.eoc ++ [e] } := rfl
@[simp] theorem State.flag_iss (s : State) (f : BitVec 7) : (s.flag f).iss = { s.iss with flg := s.iss.flg ||| f } := rfl
@[simp] theorem State.post_ready (s : State) (r : FaultRec) : (s.post r).ready = s.ready ++ [(s.seq, r)] := rfl
@[simp] theorem State.post_seq (s : State) (r : FaultRec) : (s.post r).seq = s.seq + 1 := rfl
@[simp] theorem State.fresh_tick (s : State) : s.fresh.tick = s.tick + 1 := rfl

/-- A context, a fen or a die that is changed is the changed one; the others stay. -/
theorem State.onCtx_get (s : State) (n k : Nat) (f : Ctx → Ctx) (h : n < 64) :
    vget (s.onCtx n f).ctxs k = if k = n then f (vget s.ctxs n) else vget s.ctxs k := by
  split
  · rename_i e
    rw [e]
    exact vget_vset_self _ _ _ h
  · rename_i e
    exact vget_vset_ne _ _ _ _ (Ne.symm e)

theorem State.onFen_get (s : State) (n k : Nat) (f : Fen → Fen) (h : n < 30) :
    vget (s.onFen n f).fens k = if k = n then f (vget s.fens n) else vget s.fens k := by
  split
  · rename_i e
    rw [e]
    exact vget_vset_self _ _ _ h
  · rename_i e
    exact vget_vset_ne _ _ _ _ (Ne.symm e)

theorem State.onDie_get (s : State) (n k : Nat) (f : Die → Die) (h : n < 6) :
    vget (s.onDie n f).dies k = if k = n then f (vget s.dies n) else vget s.dies k := by
  split
  · rename_i e
    rw [e]
    exact vget_vset_self _ _ _ h
  · rename_i e
    exact vget_vset_ne _ _ _ _ (Ne.symm e)

/-! ### Cores by key -/

@[simp] theorem State.putCore_iss (s : State) (c : Core) : (s.putCore c).iss = s.iss := by unfold State.putCore; split <;> rfl
@[simp] theorem State.putCore_mem (s : State) (c : Core) : (s.putCore c).mem = s.mem := by unfold State.putCore; split <;> rfl
@[simp] theorem State.putCore_tags (s : State) (c : Core) : (s.putCore c).tags = s.tags := by unfold State.putCore; split <;> rfl
@[simp] theorem State.putCore_poison (s : State) (c : Core) : (s.putCore c).poison = s.poison := by unfold State.putCore; split <;> rfl
@[simp] theorem State.putCore_flaws (s : State) (c : Core) : (s.putCore c).flaws = s.flaws := by unfold State.putCore; split <;> rfl
@[simp] theorem State.putCore_stamps (s : State) (c : Core) : (s.putCore c).stamps = s.stamps := by unfold State.putCore; split <;> rfl
@[simp] theorem State.putCore_latest (s : State) (c : Core) : (s.putCore c).latest = s.latest := by unfold State.putCore; split <;> rfl
@[simp] theorem State.putCore_hostMem (s : State) (c : Core) : (s.putCore c).hostMem = s.hostMem := by unfold State.putCore; split <;> rfl
@[simp] theorem State.putCore_hostClock (s : State) (c : Core) : (s.putCore c).hostClock = s.hostClock := by unfold State.putCore; split <;> rfl
@[simp] theorem State.putCore_ctxs (s : State) (c : Core) : (s.putCore c).ctxs = s.ctxs := by unfold State.putCore; split <;> rfl
@[simp] theorem State.putCore_tasks (s : State) (c : Core) : (s.putCore c).tasks = s.tasks := by unfold State.putCore; split <;> rfl
@[simp] theorem State.putCore_launches (s : State) (c : Core) : (s.putCore c).launches = s.launches := by unfold State.putCore; split <;> rfl
@[simp] theorem State.putCore_nextLaunch (s : State) (c : Core) : (s.putCore c).nextLaunch = s.nextLaunch := by unfold State.putCore; split <;> rfl
@[simp] theorem State.putCore_fens (s : State) (c : Core) : (s.putCore c).fens = s.fens := by unfold State.putCore; split <;> rfl
@[simp] theorem State.putCore_dies (s : State) (c : Core) : (s.putCore c).dies = s.dies := by unfold State.putCore; split <;> rfl
@[simp] theorem State.putCore_pkg (s : State) (c : Core) : (s.putCore c).pkg = s.pkg := by unfold State.putCore; split <;> rfl
@[simp] theorem State.putCore_ports (s : State) (c : Core) : (s.putCore c).ports = s.ports := by unfold State.putCore; split <;> rfl
@[simp] theorem State.putCore_ucie (s : State) (c : Core) : (s.putCore c).ucie = s.ucie := by unfold State.putCore; split <;> rfl
@[simp] theorem State.putCore_mireUp (s : State) (c : Core) : (s.putCore c).mireUp = s.mireUp := by unfold State.putCore; split <;> rfl
@[simp] theorem State.putCore_lostPeers (s : State) (c : Core) : (s.putCore c).lostPeers = s.lostPeers := by unfold State.putCore; split <;> rfl
@[simp] theorem State.putCore_leases (s : State) (c : Core) : (s.putCore c).leases = s.leases := by unfold State.putCore; split <;> rfl
@[simp] theorem State.putCore_skink (s : State) (c : Core) : (s.putCore c).skink = s.skink := by unfold State.putCore; split <;> rfl
@[simp] theorem State.putCore_exchs (s : State) (c : Core) : (s.putCore c).exchs = s.exchs := by unfold State.putCore; split <;> rfl
@[simp] theorem State.putCore_time (s : State) (c : Core) : (s.putCore c).time = s.time := by unfold State.putCore; split <;> rfl
@[simp] theorem State.putCore_routes (s : State) (c : Core) : (s.putCore c).routes = s.routes := by unfold State.putCore; split <;> rfl
@[simp] theorem State.putCore_ready (s : State) (c : Core) : (s.putCore c).ready = s.ready := by unfold State.putCore; split <;> rfl
@[simp] theorem State.putCore_late (s : State) (c : Core) : (s.putCore c).late = s.late := by unfold State.putCore; split <;> rfl
@[simp] theorem State.putCore_seq (s : State) (c : Core) : (s.putCore c).seq = s.seq := by unfold State.putCore; split <;> rfl
@[simp] theorem State.putCore_await (s : State) (c : Core) : (s.putCore c).await = s.await := by unfold State.putCore; split <;> rfl
@[simp] theorem State.putCore_msix (s : State) (c : Core) : (s.putCore c).msix = s.msix := by unfold State.putCore; split <;> rfl
@[simp] theorem State.putCore_msixDue (s : State) (c : Core) : (s.putCore c).msixDue = s.msixDue := by unfold State.putCore; split <;> rfl
@[simp] theorem State.putCore_out (s : State) (c : Core) : (s.putCore c).out = s.out := by unfold State.putCore; split <;> rfl
@[simp] theorem State.putCore_agenda (s : State) (c : Core) : (s.putCore c).agenda = s.agenda := by unfold State.putCore; split <;> rfl
@[simp] theorem State.putCore_tick (s : State) (c : Core) : (s.putCore c).tick = s.tick := by unfold State.putCore; split <;> rfl

@[simp] theorem State.onCore_iss (s : State) (k : CoreKey) (f : Core → Core) : (s.onCore k f).iss = s.iss := s.putCore_iss _
@[simp] theorem State.onCore_mem (s : State) (k : CoreKey) (f : Core → Core) : (s.onCore k f).mem = s.mem := s.putCore_mem _
@[simp] theorem State.onCore_tags (s : State) (k : CoreKey) (f : Core → Core) : (s.onCore k f).tags = s.tags := s.putCore_tags _
@[simp] theorem State.onCore_poison (s : State) (k : CoreKey) (f : Core → Core) : (s.onCore k f).poison = s.poison := s.putCore_poison _
@[simp] theorem State.onCore_flaws (s : State) (k : CoreKey) (f : Core → Core) : (s.onCore k f).flaws = s.flaws := s.putCore_flaws _
@[simp] theorem State.onCore_stamps (s : State) (k : CoreKey) (f : Core → Core) : (s.onCore k f).stamps = s.stamps := s.putCore_stamps _
@[simp] theorem State.onCore_latest (s : State) (k : CoreKey) (f : Core → Core) : (s.onCore k f).latest = s.latest := s.putCore_latest _
@[simp] theorem State.onCore_hostMem (s : State) (k : CoreKey) (f : Core → Core) : (s.onCore k f).hostMem = s.hostMem := s.putCore_hostMem _
@[simp] theorem State.onCore_hostClock (s : State) (k : CoreKey) (f : Core → Core) : (s.onCore k f).hostClock = s.hostClock := s.putCore_hostClock _
@[simp] theorem State.onCore_ctxs (s : State) (k : CoreKey) (f : Core → Core) : (s.onCore k f).ctxs = s.ctxs := s.putCore_ctxs _
@[simp] theorem State.onCore_tasks (s : State) (k : CoreKey) (f : Core → Core) : (s.onCore k f).tasks = s.tasks := s.putCore_tasks _
@[simp] theorem State.onCore_launches (s : State) (k : CoreKey) (f : Core → Core) : (s.onCore k f).launches = s.launches := s.putCore_launches _
@[simp] theorem State.onCore_nextLaunch (s : State) (k : CoreKey) (f : Core → Core) : (s.onCore k f).nextLaunch = s.nextLaunch := s.putCore_nextLaunch _
@[simp] theorem State.onCore_fens (s : State) (k : CoreKey) (f : Core → Core) : (s.onCore k f).fens = s.fens := s.putCore_fens _
@[simp] theorem State.onCore_dies (s : State) (k : CoreKey) (f : Core → Core) : (s.onCore k f).dies = s.dies := s.putCore_dies _
@[simp] theorem State.onCore_pkg (s : State) (k : CoreKey) (f : Core → Core) : (s.onCore k f).pkg = s.pkg := s.putCore_pkg _
@[simp] theorem State.onCore_ports (s : State) (k : CoreKey) (f : Core → Core) : (s.onCore k f).ports = s.ports := s.putCore_ports _
@[simp] theorem State.onCore_ucie (s : State) (k : CoreKey) (f : Core → Core) : (s.onCore k f).ucie = s.ucie := s.putCore_ucie _
@[simp] theorem State.onCore_mireUp (s : State) (k : CoreKey) (f : Core → Core) : (s.onCore k f).mireUp = s.mireUp := s.putCore_mireUp _
@[simp] theorem State.onCore_lostPeers (s : State) (k : CoreKey) (f : Core → Core) : (s.onCore k f).lostPeers = s.lostPeers := s.putCore_lostPeers _
@[simp] theorem State.onCore_leases (s : State) (k : CoreKey) (f : Core → Core) : (s.onCore k f).leases = s.leases := s.putCore_leases _
@[simp] theorem State.onCore_skink (s : State) (k : CoreKey) (f : Core → Core) : (s.onCore k f).skink = s.skink := s.putCore_skink _
@[simp] theorem State.onCore_exchs (s : State) (k : CoreKey) (f : Core → Core) : (s.onCore k f).exchs = s.exchs := s.putCore_exchs _
@[simp] theorem State.onCore_time (s : State) (k : CoreKey) (f : Core → Core) : (s.onCore k f).time = s.time := s.putCore_time _
@[simp] theorem State.onCore_routes (s : State) (k : CoreKey) (f : Core → Core) : (s.onCore k f).routes = s.routes := s.putCore_routes _
@[simp] theorem State.onCore_ready (s : State) (k : CoreKey) (f : Core → Core) : (s.onCore k f).ready = s.ready := s.putCore_ready _
@[simp] theorem State.onCore_late (s : State) (k : CoreKey) (f : Core → Core) : (s.onCore k f).late = s.late := s.putCore_late _
@[simp] theorem State.onCore_seq (s : State) (k : CoreKey) (f : Core → Core) : (s.onCore k f).seq = s.seq := s.putCore_seq _
@[simp] theorem State.onCore_await (s : State) (k : CoreKey) (f : Core → Core) : (s.onCore k f).await = s.await := s.putCore_await _
@[simp] theorem State.onCore_msix (s : State) (k : CoreKey) (f : Core → Core) : (s.onCore k f).msix = s.msix := s.putCore_msix _
@[simp] theorem State.onCore_msixDue (s : State) (k : CoreKey) (f : Core → Core) : (s.onCore k f).msixDue = s.msixDue := s.putCore_msixDue _
@[simp] theorem State.onCore_out (s : State) (k : CoreKey) (f : Core → Core) : (s.onCore k f).out = s.out := s.putCore_out _
@[simp] theorem State.onCore_agenda (s : State) (k : CoreKey) (f : Core → Core) : (s.onCore k f).agenda = s.agenda := s.putCore_agenda _
@[simp] theorem State.onCore_tick (s : State) (k : CoreKey) (f : Core → Core) : (s.onCore k f).tick = s.tick := s.putCore_tick _

@[simp] theorem State.focus_iss (s : State) (k : CoreKey) : (s.focus k).iss = s.iss := by unfold State.focus; split <;> rfl
@[simp] theorem State.focus_mem (s : State) (k : CoreKey) : (s.focus k).mem = s.mem := by unfold State.focus; split <;> rfl
@[simp] theorem State.focus_tags (s : State) (k : CoreKey) : (s.focus k).tags = s.tags := by unfold State.focus; split <;> rfl
@[simp] theorem State.focus_poison (s : State) (k : CoreKey) : (s.focus k).poison = s.poison := by unfold State.focus; split <;> rfl
@[simp] theorem State.focus_flaws (s : State) (k : CoreKey) : (s.focus k).flaws = s.flaws := by unfold State.focus; split <;> rfl
@[simp] theorem State.focus_stamps (s : State) (k : CoreKey) : (s.focus k).stamps = s.stamps := by unfold State.focus; split <;> rfl
@[simp] theorem State.focus_latest (s : State) (k : CoreKey) : (s.focus k).latest = s.latest := by unfold State.focus; split <;> rfl
@[simp] theorem State.focus_hostMem (s : State) (k : CoreKey) : (s.focus k).hostMem = s.hostMem := by unfold State.focus; split <;> rfl
@[simp] theorem State.focus_hostClock (s : State) (k : CoreKey) : (s.focus k).hostClock = s.hostClock := by unfold State.focus; split <;> rfl
@[simp] theorem State.focus_ctxs (s : State) (k : CoreKey) : (s.focus k).ctxs = s.ctxs := by unfold State.focus; split <;> rfl
@[simp] theorem State.focus_tasks (s : State) (k : CoreKey) : (s.focus k).tasks = s.tasks := by unfold State.focus; split <;> rfl
@[simp] theorem State.focus_launches (s : State) (k : CoreKey) : (s.focus k).launches = s.launches := by unfold State.focus; split <;> rfl
@[simp] theorem State.focus_nextLaunch (s : State) (k : CoreKey) : (s.focus k).nextLaunch = s.nextLaunch := by unfold State.focus; split <;> rfl
@[simp] theorem State.focus_fens (s : State) (k : CoreKey) : (s.focus k).fens = s.fens := by unfold State.focus; split <;> rfl
@[simp] theorem State.focus_dies (s : State) (k : CoreKey) : (s.focus k).dies = s.dies := by unfold State.focus; split <;> rfl
@[simp] theorem State.focus_pkg (s : State) (k : CoreKey) : (s.focus k).pkg = s.pkg := by unfold State.focus; split <;> rfl
@[simp] theorem State.focus_ports (s : State) (k : CoreKey) : (s.focus k).ports = s.ports := by unfold State.focus; split <;> rfl
@[simp] theorem State.focus_ucie (s : State) (k : CoreKey) : (s.focus k).ucie = s.ucie := by unfold State.focus; split <;> rfl
@[simp] theorem State.focus_mireUp (s : State) (k : CoreKey) : (s.focus k).mireUp = s.mireUp := by unfold State.focus; split <;> rfl
@[simp] theorem State.focus_lostPeers (s : State) (k : CoreKey) : (s.focus k).lostPeers = s.lostPeers := by unfold State.focus; split <;> rfl
@[simp] theorem State.focus_leases (s : State) (k : CoreKey) : (s.focus k).leases = s.leases := by unfold State.focus; split <;> rfl
@[simp] theorem State.focus_skink (s : State) (k : CoreKey) : (s.focus k).skink = s.skink := by unfold State.focus; split <;> rfl
@[simp] theorem State.focus_exchs (s : State) (k : CoreKey) : (s.focus k).exchs = s.exchs := by unfold State.focus; split <;> rfl
@[simp] theorem State.focus_time (s : State) (k : CoreKey) : (s.focus k).time = s.time := by unfold State.focus; split <;> rfl
@[simp] theorem State.focus_routes (s : State) (k : CoreKey) : (s.focus k).routes = s.routes := by unfold State.focus; split <;> rfl
@[simp] theorem State.focus_ready (s : State) (k : CoreKey) : (s.focus k).ready = s.ready := by unfold State.focus; split <;> rfl
@[simp] theorem State.focus_late (s : State) (k : CoreKey) : (s.focus k).late = s.late := by unfold State.focus; split <;> rfl
@[simp] theorem State.focus_seq (s : State) (k : CoreKey) : (s.focus k).seq = s.seq := by unfold State.focus; split <;> rfl
@[simp] theorem State.focus_await (s : State) (k : CoreKey) : (s.focus k).await = s.await := by unfold State.focus; split <;> rfl
@[simp] theorem State.focus_msix (s : State) (k : CoreKey) : (s.focus k).msix = s.msix := by unfold State.focus; split <;> rfl
@[simp] theorem State.focus_msixDue (s : State) (k : CoreKey) : (s.focus k).msixDue = s.msixDue := by unfold State.focus; split <;> rfl
@[simp] theorem State.focus_out (s : State) (k : CoreKey) : (s.focus k).out = s.out := by unfold State.focus; split <;> rfl
@[simp] theorem State.focus_agenda (s : State) (k : CoreKey) : (s.focus k).agenda = s.agenda := by unfold State.focus; split <;> rfl
@[simp] theorem State.focus_tick (s : State) (k : CoreKey) : (s.focus k).tick = s.tick := by unfold State.focus; split <;> rfl

theorem coreInsert_find (c : Core) (k : CoreKey) (l : List Core) :
    (coreInsert c l).find? (fun d => decide (d.key = k))
      = if c.key = k then some c else l.find? fun d => decide (d.key = k) := by
  induction l with
  | nil => by_cases h : c.key = k <;> simp [coreInsert, h]
  | cons d r ih =>
    rw [coreInsert]
    split
    · by_cases h : c.key = k <;> simp [h]
    · split
      · rename_i h1 h2
        by_cases h : c.key = k
        · simp [h]
        · have : d.key ≠ k := fun e => h (h2.trans e)
          simp [h, this]
      · rename_i h1 h2
        by_cases h : c.key = k
        · have : d.key ≠ k := fun e => h2 (h.trans e.symm)
          simp [h, this, ih]
        · by_cases hd : d.key = k <;> simp [h, hd, ih]

/-- A core put in place is the core of its key; every other core stays. -/
theorem State.getCore_putCore (s : State) (c : Core) (k : CoreKey) :
    (s.putCore c).getCore k = if c.key = k then c else s.getCore k := by
  unfold State.putCore State.getCore
  by_cases h : s.core.key = c.key
  · by_cases hk : c.key = k
    · simp [h, hk]
    · have : s.core.key ≠ k := fun e => hk (h.symm.trans e)
      simp [h, hk]
  · rw [if_neg h]
    by_cases hk : s.core.key = k
    · have : c.key ≠ k := fun e => h (hk.trans e.symm)
      simp [hk, this]
    · rw [if_neg hk, if_neg hk, coreInsert_find]
      split <;> simp

/-- A listed core has the key it is listed under. -/
theorem State.getCore_key (s : State) (k : CoreKey) : (s.getCore k).key = k := by
  unfold State.getCore
  split
  · assumption
  · cases h : s.cores.find? fun c => decide (c.key = k) with
    | none => rfl
    | some c => simpa using List.find?_some h

/-- A core changed by a function that keeps its key. -/
theorem State.getCore_onCore (s : State) (j k : CoreKey) (f : Core → Core) (h : (f (s.getCore j)).key = j) :
    (s.onCore j f).getCore k = if j = k then f (s.getCore j) else s.getCore k := by
  rw [State.onCore, State.getCore_putCore, h]

/-! ### Registers by number (R53, R54, R55, R64) -/

/-- A scalar register written holds the value, and every other keeps its own; s0 discards. -/
theorem Core.rs_ws (c : Core) (r x : BitVec 5) (v : Word) : (c.ws r v).rs x = if x = r ∧ r ≠ 0 then v else c.rs x := by
  unfold Core.ws
  by_cases hr : r = 0
  · simp [hr]
  · rw [if_neg hr]
    by_cases hx : x = r
    · subst hx
      unfold Core.rs
      rw [if_neg hr, if_pos ⟨rfl, hr⟩]
      exact vget_vset_self _ _ _ x.isLt
    · have hne : r.toNat ≠ x.toNat := fun e => hx (BitVec.eq_of_toNat_eq e.symm)
      rw [if_neg fun h : _ ∧ _ => hx h.1]
      unfold Core.rs
      split
      · rfl
      · exact vget_vset_ne _ _ _ _ hne

/-- A predicate written holds the value, and every other keeps its own; p0 discards. -/
theorem Core.rp_wp (c : Core) (p x : BitVec 3) (v : Bool) : (c.wp p v).rp x = if x = p ∧ p ≠ 0 then v else c.rp x := by
  unfold Core.wp
  by_cases hr : p = 0
  · simp [hr]
  · rw [if_neg hr]
    by_cases hx : x = p
    · subst hx
      unfold Core.rp
      rw [if_neg hr, if_pos ⟨rfl, hr⟩]
      exact vget_vset_self _ _ _ x.isLt
    · have hne : p.toNat ≠ x.toNat := fun e => hx (BitVec.eq_of_toNat_eq e.symm)
      rw [if_neg fun h : _ ∧ _ => hx h.1]
      unfold Core.rp
      split
      · rfl
      · exact vget_vset_ne _ _ _ _ hne

/-- A token set is what it was set to, and every other stays; token 0 names none. -/
theorem Core.pending_setTok (c : Core) (t x : Nat) (p : Bool) (h : t < 16) :
    (c.setTok t p).pending x = if x = t ∧ t ≠ 0 then p else c.pending x := by
  unfold Core.setTok
  by_cases ht : t = 0
  · simp [ht]
  · rw [if_neg ht]
    unfold Core.pending
    by_cases hx : x = t
    · subst hx
      rw [if_pos ⟨rfl, ht⟩, vget_vset_self _ _ _ h]
      simp [ht]
    · rw [if_neg (fun e => hx e.1), vget_vset_ne _ _ _ _ (Ne.symm hx)]

theorem Core.queue_setQueue (c : Core) (q x : Nat) (l : List QEntry) (h : q < 16) :
    (c.setQueue q l).queue x = if x = q then l else c.queue x := by
  split
  · rename_i e
    rw [e]
    exact vget_vset_self _ _ _ h
  · rename_i e
    exact vget_vset_ne _ _ _ _ (Ne.symm e)

@[simp] theorem Core.ws_key (c : Core) (r : BitVec 5) (v : Word) : (c.ws r v).key = c.key := by unfold Core.ws; split <;> rfl
@[simp] theorem Core.ws_site (c : Core) (r : BitVec 5) (v : Word) : (c.ws r v).site = c.site := by unfold Core.ws; split <;> rfl
@[simp] theorem Core.ws_ctx (c : Core) (r : BitVec 5) (v : Word) : (c.ws r v).ctx = c.ctx := by unfold Core.ws; split <;> rfl
@[simp] theorem Core.ws_status (c : Core) (r : BitVec 5) (v : Word) : (c.ws r v).status = c.status := by unfold Core.ws; split <;> rfl
@[simp] theorem Core.ws_pc (c : Core) (r : BitVec 5) (v : Word) : (c.ws r v).pc = c.pc := by unfold Core.ws; split <;> rfl
@[simp] theorem Core.ws_scyc (c : Core) (r : BitVec 5) (v : Word) : (c.ws r v).scyc = c.scyc := by unfold Core.ws; split <;> rfl
@[simp] theorem Core.ws_retain (c : Core) (r : BitVec 5) (v : Word) : (c.ws r v).retain = c.retain := by unfold Core.ws; split <;> rfl
@[simp] theorem Core.ws_vs (c : Core) (r : BitVec 5) (v : Word) : (c.ws r v).vs = c.vs := by unfold Core.ws; split <;> rfl
@[simp] theorem Core.ws_loop (c : Core) (r : BitVec 5) (v : Word) : (c.ws r v).loop = c.loop := by unfold Core.ws; split <;> rfl
@[simp] theorem Core.ws_mx (c : Core) (r : BitVec 5) (v : Word) : (c.ws r v).mx = c.mx := by unfold Core.ws; split <;> rfl
@[simp] theorem Core.ws_mxr (c : Core) (r : BitVec 5) (v : Word) : (c.ws r v).mxr = c.mxr := by unfold Core.ws; split <;> rfl
@[simp] theorem Core.ws_kar (c : Core) (r : BitVec 5) (v : Word) : (c.ws r v).kar = c.kar := by unfold Core.ws; split <;> rfl
@[simp] theorem Core.ws_kbr (c : Core) (r : BitVec 5) (v : Word) : (c.ws r v).kbr = c.kbr := by unfold Core.ws; split <;> rfl
@[simp] theorem Core.ws_sp (c : Core) (r : BitVec 5) (v : Word) : (c.ws r v).sp = c.sp := by unfold Core.ws; split <;> rfl
@[simp] theorem Core.ws_pipes (c : Core) (r : BitVec 5) (v : Word) : (c.ws r v).pipes = c.pipes := by unfold Core.ws; split <;> rfl
@[simp] theorem Core.ws_held (c : Core) (r : BitVec 5) (v : Word) : (c.ws r v).held = c.held := by unfold Core.ws; split <;> rfl
@[simp] theorem Core.ws_stop (c : Core) (r : BitVec 5) (v : Word) : (c.ws r v).stop = c.stop := by unfold Core.ws; split <;> rfl
@[simp] theorem Core.ws_skipBkpt (c : Core) (r : BitVec 5) (v : Word) : (c.ws r v).skipBkpt = c.skipBkpt := by unfold Core.ws; split <;> rfl
@[simp] theorem Core.ws_dfFault (c : Core) (r : BitVec 5) (v : Word) : (c.ws r v).dfFault = c.dfFault := by unfold Core.ws; split <;> rfl
@[simp] theorem Core.ws_frozen (c : Core) (r : BitVec 5) (v : Word) : (c.ws r v).frozen = c.frozen := by unfold Core.ws; split <;> rfl
@[simp] theorem Core.ws_wait (c : Core) (r : BitVec 5) (v : Word) : (c.ws r v).wait = c.wait := by unfold Core.ws; split <;> rfl
@[simp] theorem Core.ws_freeze (c : Core) (r : BitVec 5) (v : Word) : (c.ws r v).freeze = c.freeze := by unfold Core.ws; split <;> rfl
@[simp] theorem Core.ws_waits (c : Core) (r : BitVec 5) (v : Word) : (c.ws r v).waits = c.waits := by unfold Core.ws; split <;> rfl
@[simp] theorem Core.ws_waitcVal (c : Core) (r : BitVec 5) (v : Word) : (c.ws r v).waitcVal = c.waitcVal := by unfold Core.ws; split <;> rfl
@[simp] theorem Core.ws_cmdWait (c : Core) (r : BitVec 5) (v : Word) : (c.ws r v).cmdWait = c.cmdWait := by unfold Core.ws; split <;> rfl
@[simp] theorem Core.ws_fetched (c : Core) (r : BitVec 5) (v : Word) : (c.ws r v).fetched = c.fetched := by unfold Core.ws; split <;> rfl
@[simp] theorem Core.ws_lcoreReg (c : Core) (r : BitVec 5) (v : Word) : (c.ws r v).lcoreReg = c.lcoreReg := by unfold Core.ws; split <;> rfl
@[simp] theorem Core.ws_posts (c : Core) (r : BitVec 5) (v : Word) : (c.ws r v).posts = c.posts := by unfold Core.ws; split <;> rfl
@[simp] theorem Core.ws_replies (c : Core) (r : BitVec 5) (v : Word) : (c.ws r v).replies = c.replies := by unfold Core.ws; split <;> rfl
@[simp] theorem Core.ws_lastCtx (c : Core) (r : BitVec 5) (v : Word) : (c.ws r v).lastCtx = c.lastCtx := by unfold Core.ws; split <;> rfl
@[simp] theorem Core.ws_lastSite (c : Core) (r : BitVec 5) (v : Word) : (c.ws r v).lastSite = c.lastSite := by unfold Core.ws; split <;> rfl
@[simp] theorem Core.ws_ran (c : Core) (r : BitVec 5) (v : Word) : (c.ws r v).ran = c.ran := by unfold Core.ws; split <;> rfl
@[simp] theorem Core.ws_resumed (c : Core) (r : BitVec 5) (v : Word) : (c.ws r v).resumed = c.resumed := by unfold Core.ws; split <;> rfl
@[simp] theorem Core.ws_tlb (c : Core) (r : BitVec 5) (v : Word) : (c.ws r v).tlb = c.tlb := by unfold Core.ws; split <;> rfl

@[simp] theorem Core.wp_key (c : Core) (p : BitVec 3) (v : Bool) : (c.wp p v).key = c.key := by unfold Core.wp; split <;> rfl
@[simp] theorem Core.wp_site (c : Core) (p : BitVec 3) (v : Bool) : (c.wp p v).site = c.site := by unfold Core.wp; split <;> rfl
@[simp] theorem Core.wp_ctx (c : Core) (p : BitVec 3) (v : Bool) : (c.wp p v).ctx = c.ctx := by unfold Core.wp; split <;> rfl
@[simp] theorem Core.wp_status (c : Core) (p : BitVec 3) (v : Bool) : (c.wp p v).status = c.status := by unfold Core.wp; split <;> rfl
@[simp] theorem Core.wp_pc (c : Core) (p : BitVec 3) (v : Bool) : (c.wp p v).pc = c.pc := by unfold Core.wp; split <;> rfl
@[simp] theorem Core.wp_scyc (c : Core) (p : BitVec 3) (v : Bool) : (c.wp p v).scyc = c.scyc := by unfold Core.wp; split <;> rfl
@[simp] theorem Core.wp_retain (c : Core) (p : BitVec 3) (v : Bool) : (c.wp p v).retain = c.retain := by unfold Core.wp; split <;> rfl
@[simp] theorem Core.wp_vs (c : Core) (p : BitVec 3) (v : Bool) : (c.wp p v).vs = c.vs := by unfold Core.wp; split <;> rfl
@[simp] theorem Core.wp_loop (c : Core) (p : BitVec 3) (v : Bool) : (c.wp p v).loop = c.loop := by unfold Core.wp; split <;> rfl
@[simp] theorem Core.wp_mx (c : Core) (p : BitVec 3) (v : Bool) : (c.wp p v).mx = c.mx := by unfold Core.wp; split <;> rfl
@[simp] theorem Core.wp_mxr (c : Core) (p : BitVec 3) (v : Bool) : (c.wp p v).mxr = c.mxr := by unfold Core.wp; split <;> rfl
@[simp] theorem Core.wp_kar (c : Core) (p : BitVec 3) (v : Bool) : (c.wp p v).kar = c.kar := by unfold Core.wp; split <;> rfl
@[simp] theorem Core.wp_kbr (c : Core) (p : BitVec 3) (v : Bool) : (c.wp p v).kbr = c.kbr := by unfold Core.wp; split <;> rfl
@[simp] theorem Core.wp_sp (c : Core) (p : BitVec 3) (v : Bool) : (c.wp p v).sp = c.sp := by unfold Core.wp; split <;> rfl
@[simp] theorem Core.wp_pipes (c : Core) (p : BitVec 3) (v : Bool) : (c.wp p v).pipes = c.pipes := by unfold Core.wp; split <;> rfl
@[simp] theorem Core.wp_held (c : Core) (p : BitVec 3) (v : Bool) : (c.wp p v).held = c.held := by unfold Core.wp; split <;> rfl
@[simp] theorem Core.wp_stop (c : Core) (p : BitVec 3) (v : Bool) : (c.wp p v).stop = c.stop := by unfold Core.wp; split <;> rfl
@[simp] theorem Core.wp_skipBkpt (c : Core) (p : BitVec 3) (v : Bool) : (c.wp p v).skipBkpt = c.skipBkpt := by unfold Core.wp; split <;> rfl
@[simp] theorem Core.wp_dfFault (c : Core) (p : BitVec 3) (v : Bool) : (c.wp p v).dfFault = c.dfFault := by unfold Core.wp; split <;> rfl
@[simp] theorem Core.wp_frozen (c : Core) (p : BitVec 3) (v : Bool) : (c.wp p v).frozen = c.frozen := by unfold Core.wp; split <;> rfl
@[simp] theorem Core.wp_wait (c : Core) (p : BitVec 3) (v : Bool) : (c.wp p v).wait = c.wait := by unfold Core.wp; split <;> rfl
@[simp] theorem Core.wp_freeze (c : Core) (p : BitVec 3) (v : Bool) : (c.wp p v).freeze = c.freeze := by unfold Core.wp; split <;> rfl
@[simp] theorem Core.wp_waits (c : Core) (p : BitVec 3) (v : Bool) : (c.wp p v).waits = c.waits := by unfold Core.wp; split <;> rfl
@[simp] theorem Core.wp_waitcVal (c : Core) (p : BitVec 3) (v : Bool) : (c.wp p v).waitcVal = c.waitcVal := by unfold Core.wp; split <;> rfl
@[simp] theorem Core.wp_cmdWait (c : Core) (p : BitVec 3) (v : Bool) : (c.wp p v).cmdWait = c.cmdWait := by unfold Core.wp; split <;> rfl
@[simp] theorem Core.wp_fetched (c : Core) (p : BitVec 3) (v : Bool) : (c.wp p v).fetched = c.fetched := by unfold Core.wp; split <;> rfl
@[simp] theorem Core.wp_lcoreReg (c : Core) (p : BitVec 3) (v : Bool) : (c.wp p v).lcoreReg = c.lcoreReg := by unfold Core.wp; split <;> rfl
@[simp] theorem Core.wp_posts (c : Core) (p : BitVec 3) (v : Bool) : (c.wp p v).posts = c.posts := by unfold Core.wp; split <;> rfl
@[simp] theorem Core.wp_replies (c : Core) (p : BitVec 3) (v : Bool) : (c.wp p v).replies = c.replies := by unfold Core.wp; split <;> rfl
@[simp] theorem Core.wp_lastCtx (c : Core) (p : BitVec 3) (v : Bool) : (c.wp p v).lastCtx = c.lastCtx := by unfold Core.wp; split <;> rfl
@[simp] theorem Core.wp_lastSite (c : Core) (p : BitVec 3) (v : Bool) : (c.wp p v).lastSite = c.lastSite := by unfold Core.wp; split <;> rfl
@[simp] theorem Core.wp_ran (c : Core) (p : BitVec 3) (v : Bool) : (c.wp p v).ran = c.ran := by unfold Core.wp; split <;> rfl
@[simp] theorem Core.wp_resumed (c : Core) (p : BitVec 3) (v : Bool) : (c.wp p v).resumed = c.resumed := by unfold Core.wp; split <;> rfl
@[simp] theorem Core.wp_tlb (c : Core) (p : BitVec 3) (v : Bool) : (c.wp p v).tlb = c.tlb := by unfold Core.wp; split <;> rfl
@[simp] theorem Core.wp_errs (c : Core) (p : BitVec 3) (v : Bool) : (c.wp p v).errs = c.errs := by unfold Core.wp; split <;> rfl

@[simp] theorem Core.setTok_key (c : Core) (t : Nat) (p : Bool) : (c.setTok t p).key = c.key := by unfold Core.setTok; split <;> rfl
@[simp] theorem Core.setTok_site (c : Core) (t : Nat) (p : Bool) : (c.setTok t p).site = c.site := by unfold Core.setTok; split <;> rfl
@[simp] theorem Core.setTok_ctx (c : Core) (t : Nat) (p : Bool) : (c.setTok t p).ctx = c.ctx := by unfold Core.setTok; split <;> rfl
@[simp] theorem Core.setTok_status (c : Core) (t : Nat) (p : Bool) : (c.setTok t p).status = c.status := by unfold Core.setTok; split <;> rfl
@[simp] theorem Core.setTok_pc (c : Core) (t : Nat) (p : Bool) : (c.setTok t p).pc = c.pc := by unfold Core.setTok; split <;> rfl
@[simp] theorem Core.setTok_scyc (c : Core) (t : Nat) (p : Bool) : (c.setTok t p).scyc = c.scyc := by unfold Core.setTok; split <;> rfl
@[simp] theorem Core.setTok_retain (c : Core) (t : Nat) (p : Bool) : (c.setTok t p).retain = c.retain := by unfold Core.setTok; split <;> rfl
@[simp] theorem Core.setTok_vs (c : Core) (t : Nat) (p : Bool) : (c.setTok t p).vs = c.vs := by unfold Core.setTok; split <;> rfl
@[simp] theorem Core.setTok_loop (c : Core) (t : Nat) (p : Bool) : (c.setTok t p).loop = c.loop := by unfold Core.setTok; split <;> rfl
@[simp] theorem Core.setTok_mx (c : Core) (t : Nat) (p : Bool) : (c.setTok t p).mx = c.mx := by unfold Core.setTok; split <;> rfl
@[simp] theorem Core.setTok_mxr (c : Core) (t : Nat) (p : Bool) : (c.setTok t p).mxr = c.mxr := by unfold Core.setTok; split <;> rfl
@[simp] theorem Core.setTok_kar (c : Core) (t : Nat) (p : Bool) : (c.setTok t p).kar = c.kar := by unfold Core.setTok; split <;> rfl
@[simp] theorem Core.setTok_kbr (c : Core) (t : Nat) (p : Bool) : (c.setTok t p).kbr = c.kbr := by unfold Core.setTok; split <;> rfl
@[simp] theorem Core.setTok_sp (c : Core) (t : Nat) (p : Bool) : (c.setTok t p).sp = c.sp := by unfold Core.setTok; split <;> rfl
@[simp] theorem Core.setTok_pipes (c : Core) (t : Nat) (p : Bool) : (c.setTok t p).pipes = c.pipes := by unfold Core.setTok; split <;> rfl
@[simp] theorem Core.setTok_held (c : Core) (t : Nat) (p : Bool) : (c.setTok t p).held = c.held := by unfold Core.setTok; split <;> rfl
@[simp] theorem Core.setTok_stop (c : Core) (t : Nat) (p : Bool) : (c.setTok t p).stop = c.stop := by unfold Core.setTok; split <;> rfl
@[simp] theorem Core.setTok_skipBkpt (c : Core) (t : Nat) (p : Bool) : (c.setTok t p).skipBkpt = c.skipBkpt := by unfold Core.setTok; split <;> rfl
@[simp] theorem Core.setTok_dfFault (c : Core) (t : Nat) (p : Bool) : (c.setTok t p).dfFault = c.dfFault := by unfold Core.setTok; split <;> rfl
@[simp] theorem Core.setTok_frozen (c : Core) (t : Nat) (p : Bool) : (c.setTok t p).frozen = c.frozen := by unfold Core.setTok; split <;> rfl
@[simp] theorem Core.setTok_wait (c : Core) (t : Nat) (p : Bool) : (c.setTok t p).wait = c.wait := by unfold Core.setTok; split <;> rfl
@[simp] theorem Core.setTok_freeze (c : Core) (t : Nat) (p : Bool) : (c.setTok t p).freeze = c.freeze := by unfold Core.setTok; split <;> rfl
@[simp] theorem Core.setTok_waits (c : Core) (t : Nat) (p : Bool) : (c.setTok t p).waits = c.waits := by unfold Core.setTok; split <;> rfl
@[simp] theorem Core.setTok_waitcVal (c : Core) (t : Nat) (p : Bool) : (c.setTok t p).waitcVal = c.waitcVal := by unfold Core.setTok; split <;> rfl
@[simp] theorem Core.setTok_cmdWait (c : Core) (t : Nat) (p : Bool) : (c.setTok t p).cmdWait = c.cmdWait := by unfold Core.setTok; split <;> rfl
@[simp] theorem Core.setTok_fetched (c : Core) (t : Nat) (p : Bool) : (c.setTok t p).fetched = c.fetched := by unfold Core.setTok; split <;> rfl
@[simp] theorem Core.setTok_lcoreReg (c : Core) (t : Nat) (p : Bool) : (c.setTok t p).lcoreReg = c.lcoreReg := by unfold Core.setTok; split <;> rfl
@[simp] theorem Core.setTok_posts (c : Core) (t : Nat) (p : Bool) : (c.setTok t p).posts = c.posts := by unfold Core.setTok; split <;> rfl
@[simp] theorem Core.setTok_replies (c : Core) (t : Nat) (p : Bool) : (c.setTok t p).replies = c.replies := by unfold Core.setTok; split <;> rfl
@[simp] theorem Core.setTok_lastCtx (c : Core) (t : Nat) (p : Bool) : (c.setTok t p).lastCtx = c.lastCtx := by unfold Core.setTok; split <;> rfl
@[simp] theorem Core.setTok_lastSite (c : Core) (t : Nat) (p : Bool) : (c.setTok t p).lastSite = c.lastSite := by unfold Core.setTok; split <;> rfl
@[simp] theorem Core.setTok_ran (c : Core) (t : Nat) (p : Bool) : (c.setTok t p).ran = c.ran := by unfold Core.setTok; split <;> rfl
@[simp] theorem Core.setTok_resumed (c : Core) (t : Nat) (p : Bool) : (c.setTok t p).resumed = c.resumed := by unfold Core.setTok; split <;> rfl
@[simp] theorem Core.setTok_tlb (c : Core) (t : Nat) (p : Bool) : (c.setTok t p).tlb = c.tlb := by unfold Core.setTok; split <;> rfl
@[simp] theorem Core.setTok_errs (c : Core) (t : Nat) (p : Bool) : (c.setTok t p).errs = c.errs := by unfold Core.setTok; split <;> rfl

@[simp] theorem Core.setQueue_regs (c : Core) (q : Nat) (l : List QEntry) : (c.setQueue q l).regs = c.regs := rfl
@[simp] theorem Core.setQueue_key (c : Core) (q : Nat) (l : List QEntry) : (c.setQueue q l).key = c.key := rfl
@[simp] theorem Core.setQueue_site (c : Core) (q : Nat) (l : List QEntry) : (c.setQueue q l).site = c.site := rfl
@[simp] theorem Core.setQueue_ctx (c : Core) (q : Nat) (l : List QEntry) : (c.setQueue q l).ctx = c.ctx := rfl
@[simp] theorem Core.setQueue_status (c : Core) (q : Nat) (l : List QEntry) : (c.setQueue q l).status = c.status := rfl
@[simp] theorem Core.setQueue_pc (c : Core) (q : Nat) (l : List QEntry) : (c.setQueue q l).pc = c.pc := rfl
@[simp] theorem Core.setQueue_scyc (c : Core) (q : Nat) (l : List QEntry) : (c.setQueue q l).scyc = c.scyc := rfl
@[simp] theorem Core.setQueue_retain (c : Core) (q : Nat) (l : List QEntry) : (c.setQueue q l).retain = c.retain := rfl
@[simp] theorem Core.setQueue_loop (c : Core) (q : Nat) (l : List QEntry) : (c.setQueue q l).loop = c.loop := rfl
@[simp] theorem Core.setQueue_mx (c : Core) (q : Nat) (l : List QEntry) : (c.setQueue q l).mx = c.mx := rfl
@[simp] theorem Core.setQueue_mxr (c : Core) (q : Nat) (l : List QEntry) : (c.setQueue q l).mxr = c.mxr := rfl
@[simp] theorem Core.setQueue_kar (c : Core) (q : Nat) (l : List QEntry) : (c.setQueue q l).kar = c.kar := rfl
@[simp] theorem Core.setQueue_kbr (c : Core) (q : Nat) (l : List QEntry) : (c.setQueue q l).kbr = c.kbr := rfl
@[simp] theorem Core.setQueue_sp (c : Core) (q : Nat) (l : List QEntry) : (c.setQueue q l).sp = c.sp := rfl
@[simp] theorem Core.setQueue_pipes (c : Core) (q : Nat) (l : List QEntry) : (c.setQueue q l).pipes = c.pipes := rfl
@[simp] theorem Core.setQueue_held (c : Core) (q : Nat) (l : List QEntry) : (c.setQueue q l).held = c.held := rfl
@[simp] theorem Core.setQueue_stop (c : Core) (q : Nat) (l : List QEntry) : (c.setQueue q l).stop = c.stop := rfl
@[simp] theorem Core.setQueue_skipBkpt (c : Core) (q : Nat) (l : List QEntry) : (c.setQueue q l).skipBkpt = c.skipBkpt := rfl
@[simp] theorem Core.setQueue_dfFault (c : Core) (q : Nat) (l : List QEntry) : (c.setQueue q l).dfFault = c.dfFault := rfl
@[simp] theorem Core.setQueue_frozen (c : Core) (q : Nat) (l : List QEntry) : (c.setQueue q l).frozen = c.frozen := rfl
@[simp] theorem Core.setQueue_wait (c : Core) (q : Nat) (l : List QEntry) : (c.setQueue q l).wait = c.wait := rfl
@[simp] theorem Core.setQueue_freeze (c : Core) (q : Nat) (l : List QEntry) : (c.setQueue q l).freeze = c.freeze := rfl
@[simp] theorem Core.setQueue_waits (c : Core) (q : Nat) (l : List QEntry) : (c.setQueue q l).waits = c.waits := rfl
@[simp] theorem Core.setQueue_waitcVal (c : Core) (q : Nat) (l : List QEntry) : (c.setQueue q l).waitcVal = c.waitcVal := rfl
@[simp] theorem Core.setQueue_cmdWait (c : Core) (q : Nat) (l : List QEntry) : (c.setQueue q l).cmdWait = c.cmdWait := rfl
@[simp] theorem Core.setQueue_fetched (c : Core) (q : Nat) (l : List QEntry) : (c.setQueue q l).fetched = c.fetched := rfl
@[simp] theorem Core.setQueue_lcoreReg (c : Core) (q : Nat) (l : List QEntry) : (c.setQueue q l).lcoreReg = c.lcoreReg := rfl
@[simp] theorem Core.setQueue_posts (c : Core) (q : Nat) (l : List QEntry) : (c.setQueue q l).posts = c.posts := rfl
@[simp] theorem Core.setQueue_replies (c : Core) (q : Nat) (l : List QEntry) : (c.setQueue q l).replies = c.replies := rfl
@[simp] theorem Core.setQueue_lastCtx (c : Core) (q : Nat) (l : List QEntry) : (c.setQueue q l).lastCtx = c.lastCtx := rfl
@[simp] theorem Core.setQueue_lastSite (c : Core) (q : Nat) (l : List QEntry) : (c.setQueue q l).lastSite = c.lastSite := rfl
@[simp] theorem Core.setQueue_ran (c : Core) (q : Nat) (l : List QEntry) : (c.setQueue q l).ran = c.ran := rfl
@[simp] theorem Core.setQueue_resumed (c : Core) (q : Nat) (l : List QEntry) : (c.setQueue q l).resumed = c.resumed := rfl
@[simp] theorem Core.setQueue_tlb (c : Core) (q : Nat) (l : List QEntry) : (c.setQueue q l).tlb = c.tlb := rfl
@[simp] theorem Core.setQueue_errs (c : Core) (q : Nat) (l : List QEntry) : (c.setQueue q l).errs = c.errs := rfl

@[simp] theorem Core.setMask_regs (c : Core) (v1 : Bool) (m : List (BitVec 64)) : (c.setMask v1 m).regs = c.regs := rfl
@[simp] theorem Core.setMask_key (c : Core) (v1 : Bool) (m : List (BitVec 64)) : (c.setMask v1 m).key = c.key := rfl
@[simp] theorem Core.setMask_site (c : Core) (v1 : Bool) (m : List (BitVec 64)) : (c.setMask v1 m).site = c.site := rfl
@[simp] theorem Core.setMask_ctx (c : Core) (v1 : Bool) (m : List (BitVec 64)) : (c.setMask v1 m).ctx = c.ctx := rfl
@[simp] theorem Core.setMask_status (c : Core) (v1 : Bool) (m : List (BitVec 64)) : (c.setMask v1 m).status = c.status := rfl
@[simp] theorem Core.setMask_pc (c : Core) (v1 : Bool) (m : List (BitVec 64)) : (c.setMask v1 m).pc = c.pc := rfl
@[simp] theorem Core.setMask_scyc (c : Core) (v1 : Bool) (m : List (BitVec 64)) : (c.setMask v1 m).scyc = c.scyc := rfl
@[simp] theorem Core.setMask_retain (c : Core) (v1 : Bool) (m : List (BitVec 64)) : (c.setMask v1 m).retain = c.retain := rfl
@[simp] theorem Core.setMask_loop (c : Core) (v1 : Bool) (m : List (BitVec 64)) : (c.setMask v1 m).loop = c.loop := rfl
@[simp] theorem Core.setMask_mx (c : Core) (v1 : Bool) (m : List (BitVec 64)) : (c.setMask v1 m).mx = c.mx := rfl
@[simp] theorem Core.setMask_mxr (c : Core) (v1 : Bool) (m : List (BitVec 64)) : (c.setMask v1 m).mxr = c.mxr := rfl
@[simp] theorem Core.setMask_kar (c : Core) (v1 : Bool) (m : List (BitVec 64)) : (c.setMask v1 m).kar = c.kar := rfl
@[simp] theorem Core.setMask_kbr (c : Core) (v1 : Bool) (m : List (BitVec 64)) : (c.setMask v1 m).kbr = c.kbr := rfl
@[simp] theorem Core.setMask_sp (c : Core) (v1 : Bool) (m : List (BitVec 64)) : (c.setMask v1 m).sp = c.sp := rfl
@[simp] theorem Core.setMask_pipes (c : Core) (v1 : Bool) (m : List (BitVec 64)) : (c.setMask v1 m).pipes = c.pipes := rfl
@[simp] theorem Core.setMask_held (c : Core) (v1 : Bool) (m : List (BitVec 64)) : (c.setMask v1 m).held = c.held := rfl
@[simp] theorem Core.setMask_stop (c : Core) (v1 : Bool) (m : List (BitVec 64)) : (c.setMask v1 m).stop = c.stop := rfl
@[simp] theorem Core.setMask_skipBkpt (c : Core) (v1 : Bool) (m : List (BitVec 64)) : (c.setMask v1 m).skipBkpt = c.skipBkpt := rfl
@[simp] theorem Core.setMask_dfFault (c : Core) (v1 : Bool) (m : List (BitVec 64)) : (c.setMask v1 m).dfFault = c.dfFault := rfl
@[simp] theorem Core.setMask_frozen (c : Core) (v1 : Bool) (m : List (BitVec 64)) : (c.setMask v1 m).frozen = c.frozen := rfl
@[simp] theorem Core.setMask_wait (c : Core) (v1 : Bool) (m : List (BitVec 64)) : (c.setMask v1 m).wait = c.wait := rfl
@[simp] theorem Core.setMask_freeze (c : Core) (v1 : Bool) (m : List (BitVec 64)) : (c.setMask v1 m).freeze = c.freeze := rfl
@[simp] theorem Core.setMask_waits (c : Core) (v1 : Bool) (m : List (BitVec 64)) : (c.setMask v1 m).waits = c.waits := rfl
@[simp] theorem Core.setMask_waitcVal (c : Core) (v1 : Bool) (m : List (BitVec 64)) : (c.setMask v1 m).waitcVal = c.waitcVal := rfl
@[simp] theorem Core.setMask_cmdWait (c : Core) (v1 : Bool) (m : List (BitVec 64)) : (c.setMask v1 m).cmdWait = c.cmdWait := rfl
@[simp] theorem Core.setMask_fetched (c : Core) (v1 : Bool) (m : List (BitVec 64)) : (c.setMask v1 m).fetched = c.fetched := rfl
@[simp] theorem Core.setMask_lcoreReg (c : Core) (v1 : Bool) (m : List (BitVec 64)) : (c.setMask v1 m).lcoreReg = c.lcoreReg := rfl
@[simp] theorem Core.setMask_posts (c : Core) (v1 : Bool) (m : List (BitVec 64)) : (c.setMask v1 m).posts = c.posts := rfl
@[simp] theorem Core.setMask_replies (c : Core) (v1 : Bool) (m : List (BitVec 64)) : (c.setMask v1 m).replies = c.replies := rfl
@[simp] theorem Core.setMask_lastCtx (c : Core) (v1 : Bool) (m : List (BitVec 64)) : (c.setMask v1 m).lastCtx = c.lastCtx := rfl
@[simp] theorem Core.setMask_lastSite (c : Core) (v1 : Bool) (m : List (BitVec 64)) : (c.setMask v1 m).lastSite = c.lastSite := rfl
@[simp] theorem Core.setMask_ran (c : Core) (v1 : Bool) (m : List (BitVec 64)) : (c.setMask v1 m).ran = c.ran := rfl
@[simp] theorem Core.setMask_resumed (c : Core) (v1 : Bool) (m : List (BitVec 64)) : (c.setMask v1 m).resumed = c.resumed := rfl
@[simp] theorem Core.setMask_tlb (c : Core) (v1 : Bool) (m : List (BitVec 64)) : (c.setMask v1 m).tlb = c.tlb := rfl
@[simp] theorem Core.setMask_errs (c : Core) (v1 : Bool) (m : List (BitVec 64)) : (c.setMask v1 m).errs = c.errs := rfl

/-! ### The canonical form of every memory -/

theorem State.memWf_iff (s : State) : s.memWf = true
    ↔ s.mem.wf = true ∧ s.tags.wf = true ∧ s.hostMem.wf = true ∧ s.core.sp.wf = true ∧ ∀ c ∈ s.cores, c.sp.wf = true := by
  simp only [State.memWf, Bool.and_eq_true, List.all_eq_true, and_assoc]

@[simp] theorem State.onCtx_memWf (s : State) (n : Nat) (f : Ctx → Ctx) : (s.onCtx n f).memWf = s.memWf := rfl
@[simp] theorem State.onFen_memWf (s : State) (n : Nat) (f : Fen → Fen) : (s.onFen n f).memWf = s.memWf := rfl
@[simp] theorem State.onDie_memWf (s : State) (n : Nat) (f : Die → Die) : (s.onDie n f).memWf = s.memWf := rfl
@[simp] theorem State.post_memWf (s : State) (r : FaultRec) : (s.post r).memWf = s.memWf := rfl
@[simp] theorem State.result_memWf (s : State) (rem : Nat) (w : Landing) : (s.result rem w).memWf = s.memWf := rfl
@[simp] theorem State.endOfCycle_memWf (s : State) (e : Eoc) : (s.endOfCycle e).memWf = s.memWf := rfl
@[simp] theorem State.flag_memWf (s : State) (f : BitVec 7) : (s.flag f).memWf = s.memWf := rfl
@[simp] theorem State.fresh_memWf (s : State) : (s.fresh).memWf = s.memWf := rfl
@[simp] theorem State.putPort_memWf (s : State) (k : Nat) (p : Port) : (s.putPort k p).memWf = s.memWf := rfl
@[simp] theorem State.setStamp_memWf (s : State) (pa w l t : Nat) : (s.setStamp pa w l t).memWf = s.memWf := rfl
@[simp] theorem State.wroteNow_memWf (s : State) (pa : Nat) : (s.wroteNow pa).memWf = s.memWf := rfl

/-- Every core of the package, listed or not, has its scratchpad in canonical form. -/
theorem State.getCore_wf (s : State) (k : CoreKey) (h : s.memWf = true) : (s.getCore k).sp.wf = true := by
  obtain ⟨-, -, -, hc, hl⟩ := s.memWf_iff.mp h
  unfold State.getCore
  split
  · exact hc
  · cases hf : s.cores.find? fun c => decide (c.key = k) with
    | none => rfl
    | some c => exact hl c (List.mem_of_find?_eq_some hf)

theorem coreInsert_mem (c d : Core) (l : List Core) (h : d ∈ coreInsert c l) : d = c ∨ d ∈ l := by
  induction l with
  | nil => exact .inl (List.mem_singleton.mp h)
  | cons e r ih =>
    rw [coreInsert] at h
    split at h
    · exact List.mem_cons.mp h
    · split at h
      · exact (List.mem_cons.mp h).imp id (List.mem_cons_of_mem _)
      · rcases List.mem_cons.mp h with h | h
        · exact .inr (h ▸ List.mem_cons_self ..)
        · exact (ih h).imp id (List.mem_cons_of_mem _)

/-- A core whose scratchpad is canonical may be put in place. -/
theorem State.putCore_memWf (s : State) (c : Core) (h : s.memWf = true) (hc : c.sp.wf = true) : (s.putCore c).memWf = true := by
  obtain ⟨h1, h2, h3, h4, h5⟩ := s.memWf_iff.mp h
  unfold State.putCore
  split
  · exact (State.memWf_iff _).mpr ⟨h1, h2, h3, hc, h5⟩
  · refine (State.memWf_iff _).mpr ⟨h1, h2, h3, h4, fun d hd => ?_⟩
    rcases coreInsert_mem c d s.cores hd with e | hd
    · exact e ▸ hc
    · exact h5 d hd

/-- A change of a core that keeps its scratchpad canonical keeps every memory canonical. -/
theorem State.onCore_memWf (s : State) (k : CoreKey) (f : Core → Core) (h : s.memWf = true)
    (hf : ∀ c : Core, c.sp.wf = true → (f c).sp.wf = true) : (s.onCore k f).memWf = true :=
  s.putCore_memWf _ h (hf _ (s.getCore_wf k h))

theorem State.focus_memWf (s : State) (k : CoreKey) (h : s.memWf = true) : (s.focus k).memWf = true := by
  obtain ⟨h1, h2, h3, h4, h5⟩ := s.memWf_iff.mp h
  unfold State.focus
  split
  · exact h
  · refine (State.memWf_iff _).mpr ⟨h1, h2, h3, s.getCore_wf k h, fun d hd => ?_⟩
    rcases coreInsert_mem s.core d _ hd with e | hd
    · exact e ▸ h4
    · exact h5 d (List.mem_filter.mp hd).1

/-- What a slot does to the bundle being issued touches no memory. -/
theorem State.iss_memWf (s : State) (i : Issue) : ({ s with iss := i } : State).memWf = s.memWf := rfl

@[simp] theorem State.raise_memWf (s : State) (rank code cause : Nat) (repl : Bool) (i0 i1 : Word) :
    (s.raise rank code cause repl i0 i1).memWf = s.memWf := by
  unfold State.raise
  dsimp only
  split
  · rfl
  · split <;> rfl

/-- The times of sectors are no part of what a scratchpad holds. -/
@[simp] theorem Scratch.portWrote_wf (sp : Scratch) (t a n : Nat) : (sp.portWrote t a n).wf = sp.wf := by
  have h : ∀ (l : List (Nat × Nat)) (x : Scratch), (l.foldl (fun x p => x.wroteAfter t (p.1 / 128)) x).wf = x.wf := by
    intro l
    induction l with
    | nil => exact fun _ => rfl
    | cons p l ih => exact fun x => ih _
  exact h ..

theorem Core.spStoreAt_wf (c : Core) (t a : Nat) (bs : List Byte) (h : c.sp.wf = true) : (c.spStoreAt t a bs).sp.wf = true :=
  (Scratch.portWrote_wf ..).trans (Scratch.store_wf c.sp _ bs 0 h)

theorem Core.spStore_wf (c : Core) (a : Nat) (bs : List Byte) (h : c.sp.wf = true) : (c.spStore a bs).sp.wf = true :=
  c.spStoreAt_wf _ a bs h

@[simp] theorem Core.dropAccess_sp (c : Core) (id : Nat) : (c.dropAccess id).sp = c.sp := rfl

/-- A result that lands keeps the scratchpad canonical. -/
theorem Core.land_wf (c : Core) (w : Landing) (h : c.sp.wf = true) : (c.land w).sp.wf = true := by
  cases w with
  | sreg d v => rw [Core.land, Core.ws_sp]; exact h
  | pred d v => rw [Core.land, Core.wp_sp]; exact h
  | push q es => exact h
  | maskPush v1 m => exact h
  | spWrite a bs => exact c.spStore_wf a bs h
  | stored id => exact h
  | loadQ q id =>
    rw [Core.land]
    split <;> exact h
  | loadX dst id =>
    rw [Core.land]
    split
    · exact c.spStoreAt_wf _ dst _ h
    · exact h

/-- Messages that wait touch no memory when they leave. -/
theorem State.pumpOne_memWf (st : State × List OutMsg) (m : OutMsg) : (State.pumpOne st m).1.memWf = st.1.memWf := by
  unfold State.pumpOne
  dsimp only
  split
  · rfl
  · split <;> rfl

@[simp] theorem State.pump_memWf (s : State) : s.pump.memWf = s.memWf := by
  have h : ∀ (l : List OutMsg) (st : State × List OutMsg), (l.foldl State.pumpOne st).1.memWf = st.1.memWf := by
    intro l
    induction l with
    | nil => exact fun _ => rfl
    | cons m l ih => exact fun st => (ih _).trans (State.pumpOne_memWf st m)
  exact h s.out ({ s with out := [] }, [])

@[simp] theorem State.sendTo_memWf (s : State) (dev : DevNo) (vc kind : Nat) (body : FlitBody) :
    (s.sendTo dev vc kind body).memWf = s.memWf := State.pump_memWf _

@[simp] theorem State.toLender_memWf (s : State) (pa : Nat) (body : FlitBody) : (s.toLender pa body).memWf = s.memWf := by
  unfold State.toLender
  cases s.lender pa with
  | none => rfl
  | some d => exact State.sendTo_memWf ..

@[simp] theorem State.reedKeep_memWf (s : State) (pa : Nat) : (s.reedKeep pa).memWf = s.memWf := by
  unfold State.reedKeep
  split <;> rfl

@[simp] theorem State.request_memWf (s : State) (pa : Nat) : (s.request pa).memWf = s.memWf := by
  unfold State.request State.requestAs
  split <;> rfl

@[simp] theorem State.raiseMsix_memWf (s : State) (v : Nat) : (s.raiseMsix v).memWf = s.memWf := by
  unfold State.raiseMsix
  split <;> rfl

@[simp] theorem State.mce_memWf (s : State) (die cause i0 i1 : Nat) : (s.mce die cause i0 i1).memWf = s.memWf :=
  State.raiseMsix_memWf ..

@[simp] theorem State.poisonDie_memWf (s : State) (die : Nat) (l : List Nat) : (s.poisonDie die l).memWf = s.memWf := by
  unfold State.poisonDie
  exact State.mce_memWf ..

@[simp] theorem State.lostLine_memWf (s : State) (pa : Nat) : (s.lostLine pa).memWf = s.memWf := by
  unfold State.lostLine
  split
  · exact State.poisonDie_memWf ..
  · rfl

/-- Logical time touches no memory. -/
@[simp] theorem State.readLast_memWf (s : State) (pa : Nat) : (s.readLast pa).memWf = s.memWf := rfl
@[simp] theorem State.wroteLast_memWf (s : State) (pa : Nat) : (s.wroteLast pa).memWf = s.memWf := rfl
@[simp] theorem State.readFen_memWf (s : State) (fen pa : Nat) : (s.readFen fen pa).memWf = s.memWf := rfl
@[simp] theorem State.wroteFen_memWf (s : State) (fen pa : Nat) : (s.wroteFen fen pa).memWf = s.memWf := rfl
@[simp] theorem State.readNow_memWf (s : State) (pa : Nat) : (s.readNow pa).memWf = s.memWf := s.lostLine_memWf pa

@[simp] theorem State.walkTaken_memWf (s : State) (ctx : Nat) (va : Word) : (s.walkTaken ctx va).memWf = s.memWf := by
  have h : ∀ (l : List Nat) (t : State), (l.foldl (fun s a => (s.request a).readLast a) t).memWf = t.memWf := by
    intro l
    induction l with
    | nil => exact fun _ => rfl
    | cons a l ih => exact fun t => (ih _).trans (t.request_memWf a)
  exact h _ s

/-- A byte of physical memory written, be it of memory, of a context-table entry or of a side table. -/
theorem State.putByte_memWf (s : State) (pa : Nat) (b : Byte) (h : s.memWf = true) : (s.putByte pa b).memWf = true := by
  obtain ⟨h1, h2, h3, h4, h5⟩ := s.memWf_iff.mp h
  unfold State.putByte
  split
  · exact h
  · split
    · unfold State.sidePut
      split
      · exact (State.memWf_iff _).mpr ⟨h1, Memory.write_wf _ _ _ h2, h3, h4, h5⟩
      · split <;> exact h
    · exact (State.memWf_iff _).mpr ⟨Memory.write_wf _ _ _ h1, h2, h3, h4, h5⟩

/-- Bytes of physical memory written. -/
theorem State.poke_memWf (s : State) (pa : Nat) (bs : List Byte) (h : s.memWf = true) : (s.poke pa bs).memWf = true := by
  unfold State.poke
  split
  · obtain ⟨h1, h2, h3, h4, h5⟩ := s.memWf_iff.mp h
    exact (State.memWf_iff _).mpr ⟨Memory.writeBytes_wf bs _ pa h1, h2, h3, h4, h5⟩
  · have hf : ∀ (l : List (Byte × Nat)) (t : State), t.memWf = true →
        (l.foldl (fun s x => s.putByte (pa + x.2) x.1) t).memWf = true := by
      intro l
      induction l with
      | nil => exact fun _ ht => ht
      | cons x l ih => exact fun t ht => ih _ (t.putByte_memWf _ _ ht)
    exact hf _ s h

/-- A sector part put to memory keeps every memory canonical. -/
theorem State.putHere_memWf (s : State) (pa : Nat) (bs : List Byte) (tag : Byte) (h : s.memWf = true) :
    (s.putHere pa bs tag).memWf = true := by
  obtain ⟨h1, h2, h3, h4, h5⟩ := (State.memWf_iff _).mp ((s.reedKeep pa).poke_memWf pa bs (by simpa using h))
  exact (State.memWf_iff _).mpr ⟨h1, Memory.write_wf _ _ _ h2, h3, h4, h5⟩

@[simp] theorem State.taint_memWf (s : State) (pa : Nat) (bad : Bool) : (s.taint pa bad).memWf = s.memWf := by
  cases bad <;> rfl

theorem State.putBad_memWf (s : State) (pa : Nat) (bs : List Byte) (tag : Byte) (bad : Bool) (h : s.memWf = true) :
    (s.putBad pa bs tag bad).memWf = true :=
  (State.toLender_memWf _ _ _).trans ((State.taint_memWf _ _ _).trans (s.putHere_memWf pa bs tag h))

theorem State.putPhys_memWf (s : State) (pa : Nat) (bs : List Byte) (tag : Byte) (h : s.memWf = true) :
    (s.putPhys pa bs tag).memWf = true := s.putBad_memWf pa bs tag false h

@[simp] theorem State.compress_memWf (s : State) (pa cmp : Nat) : (s.compress pa cmp).memWf = s.memWf := by
  unfold State.compress
  split
  · split
    · rfl
    · dsimp only
      split <;> rfl
  all_goals rfl

/-- A translation sets A and D bits and fills TLBs, and keeps every memory canonical. -/
theorem State.translate_memWf (s : State) (fen : Nat) (key : Option CoreKey) (ctx : Nat) (va : Word) (w : Bool) (x : Xlate)
    (h : s.memWf = true) (ht : s.translate fen key ctx va w = .ok x) : x.st.memWf = true := by
  have fill : ∀ (t : State) (e : TlbEntry), t.memWf = true → (t.tlbFill fen key e).memWf = true := by
    intro t e hm
    unfold State.tlbFill
    cases key with
    | none => exact hm
    | some k => exact State.onCore_memWf _ k _ hm fun c hc => hc
  have walked : ∀ l, (s.walked fen key ctx va w l).st.memWf = true := by
    intro l
    have hw : (s.walkTaken ctx va).memWf = true := by simpa using h
    unfold State.walked
    refine fill _ _ ?_
    split
    · exact hw
    · obtain ⟨_, h2, h3, h4, h5⟩ := (State.memWf_iff _).mp ((State.reedKeep_memWf _ l.at_).trans hw)
      have h1 := ((State.memWf_iff _).mp hw).1
      exact (State.memWf_iff _).mpr ⟨Memory.writeBytes_wf _ _ _ h1, h2, h3, h4, h5⟩
  unfold State.translate at ht
  split at ht
  · cases ht
  · dsimp only at ht
    split at ht
    · split at ht
      · cases ht
      · cases ht
        exact h
    · split at ht
      · cases ht
      · cases ht
        exact walked _

theorem State.readPiece_memWf (s : State) (fen : Nat) (key : Option CoreKey) (ctx : Nat) (va : Word) (n : Nat) (g : GRead)
    (h : s.memWf = true) (hr : s.readPiece fen key ctx va n = .ok g) : g.st.memWf = true := by
  unfold State.readPiece at hr
  split at hr
  · cases hr
  · rename_i x hx
    split at hr
    · cases hr
    · cases hr
      have hm := s.translate_memWf fen key ctx va false x h hx
      cases key <;> simpa using hm

theorem State.writePhys_memWf (s t : State) (va : Word) (pa cmp : Nat) (bs : List Byte) (tag : Byte) (h : s.memWf = true)
    (hw : s.writePhys va pa cmp bs tag = .ok t) : t.memWf = true := by
  unfold State.writePhys State.writeBad at hw
  split at hw
  · cases hw
  · split at hw
    · cases hw
    · split at hw
      · cases hw
      · cases hw
        rw [State.compress_memWf]
        exact s.putBad_memWf pa bs tag false h

theorem State.writeAt_memWf (s : State) (fen : Nat) (key : Option CoreKey) (ctx : Nat) (va : Word) (bs : List Byte)
    (tag : Byte) (r : State × Nat) (h : s.memWf = true) (hw : s.writeAt fen key ctx va bs tag = .ok r) : r.1.memWf = true := by
  unfold State.writeAt at hw
  split at hw
  · cases hw
  · rename_i x hx
    split at hw
    · cases hw
    · rename_i u hu
      cases hw
      rw [State.request_memWf]
      exact x.st.writePhys_memWf u va x.pa x.cmp bs tag (s.translate_memWf fen key ctx va true x h hx) hu

theorem State.writePiece_memWf (s t : State) (fen : Nat) (key : Option CoreKey) (ctx : Nat) (va : Word) (bs : List Byte)
    (tag : Byte) (h : s.memWf = true) (hw : s.writePiece fen key ctx va bs tag = .ok t) : t.memWf = true := by
  unfold State.writePiece at hw
  split at hw
  · cases hw
  · rename_i r hr
    cases hw
    have hm := s.writeAt_memWf fen key ctx va bs tag r h hr
    cases key <;> simpa using hm

theorem GRead.more_memWf (fen : Nat) (key : Option CoreKey) (ctx : Nat) (ps : List (Nat × Nat)) (a g : GRead)
    (h : a.st.memWf = true) (hr : GRead.more fen key ctx ps a = .ok g) : g.st.memWf = true := by
  induction ps generalizing a with
  | nil => cases hr; exact h
  | cons p ps ih =>
    unfold GRead.more at hr
    split at hr
    · cases hr
    · rename_i r hp
      exact ih ⟨a.bytes ++ r.bytes, a.tags ++ r.tags, r.st⟩ (State.readPiece_memWf _ fen key ctx _ _ r h hp) hr

/-- A read of any length through translation keeps every memory canonical. -/
theorem State.readVirt_memWf (s : State) (fen : Nat) (key : Option CoreKey) (ctx : Nat) (va : Word) (n : Nat) (g : GRead)
    (h : s.memWf = true) (hr : s.readVirt fen key ctx va n = .ok g) : g.st.memWf = true :=
  GRead.more_memWf fen key ctx _ _ g h hr

theorem State.readPlain_memWf (s t : State) (fen : Nat) (key : Option CoreKey) (ctx : Nat) (va : Word) (n : Nat)
    (bs : List Byte) (h : s.memWf = true) (hr : s.readPlain fen key ctx va n = .ok (bs, t)) : t.memWf = true := by
  unfold State.readPlain at hr
  split at hr
  · cases hr
  · rename_i g hg
    split at hr
    · cases hr
    · cases hr
      exact s.readVirt_memWf fen key ctx va n g h hg

theorem State.writeMore_memWf (fen : Nat) (key : Option CoreKey) (ctx : Nat) (tag : Byte) (ps : List (Nat × Nat)) (bs : List Byte)
    (u s t : State) (h : s.memWf = true) (hw : State.writeMore fen key ctx tag ps bs u s = .ok t) : t.memWf = true := by
  induction ps generalizing bs u s with
  | nil => cases hw; exact h
  | cons p ps ih =>
    unfold State.writeMore at hw
    dsimp only at hw
    split at hw
    · cases hw
    · rename_i y hy
      exact ih _ _ _ (State.writePiece_memWf s y fen key ctx _ _ tag h hy) hw

/-- A write of any length through translation keeps every memory canonical. -/
theorem State.writeVirt_memWf (s t : State) (fen : Nat) (key : Option CoreKey) (ctx : Nat) (va : Word) (bs : List Byte)
    (tag : Byte) (h : s.memWf = true) (hw : s.writeVirt fen key ctx va bs tag = .ok t) : t.memWf = true :=
  State.writeMore_memWf fen key ctx tag _ bs s s t h hw

end Sys2Proof.Machine
end

