-- ==== Sys2Proof/Laws/Slots.lean ====
section
/-! SUPPORT. What the slots' shared operations leave alone before a bundle commits (R191, R193): memory, tags, registers, the pc,
the loop sequencer, the status of the core, its scratchpad's bytes, and the records of the package. -/

namespace Sys2Proof.Machine

/-! ### The relation -/

/-- What no slot changes in its core. -/
structure CoreKeeps (c d : Core) : Prop where
  regs : d.regs = c.regs
  pc : d.pc = c.pc
  scyc : d.scyc = c.scyc
  loop : d.loop = c.loop
  status : d.status = c.status
  spMem : d.sp.mem = c.sp.mem
  spTags : d.sp.tags = c.sp.tags
  spPoison : d.sp.poison = c.sp.poison
  held : d.held = c.held
  stop : d.stop = c.stop

/-- What no slot changes in the package, and that the memories stay canonical. -/
structure SlotKeeps (s t : State) : Prop where
  mem : t.mem = s.mem
  tags : t.tags = s.tags
  poison : t.poison = s.poison
  flaws : t.flaws = s.flaws
  hostMem : t.hostMem = s.hostMem
  core : CoreKeeps s.core t.core
  dies : t.dies = s.dies
  pkg : t.pkg = s.pkg
  ports : t.ports = s.ports
  ready : t.ready = s.ready
  seq : t.seq = s.seq
  wf : s.memWf = true → t.memWf = true

theorem CoreKeeps.refl (c : Core) : CoreKeeps c c := ⟨rfl, rfl, rfl, rfl, rfl, rfl, rfl, rfl, rfl, rfl⟩

theorem CoreKeeps.trans {a b c : Core} (h : CoreKeeps a b) (g : CoreKeeps b c) : CoreKeeps a c :=
  ⟨g.regs.trans h.regs, g.pc.trans h.pc, g.scyc.trans h.scyc, g.loop.trans h.loop, g.status.trans h.status,
    g.spMem.trans h.spMem, g.spTags.trans h.spTags, g.spPoison.trans h.spPoison, g.held.trans h.held, g.stop.trans h.stop⟩

theorem CoreKeeps.spWf {c d : Core} (h : CoreKeeps c d) (w : c.sp.wf = true) : d.sp.wf = true := by
  unfold Scratch.wf at *
  rw [h.spMem, h.spTags]
  exact w

theorem SlotKeeps.refl (s : State) : SlotKeeps s s :=
  ⟨rfl, rfl, rfl, rfl, rfl, .refl _, rfl, rfl, rfl, rfl, rfl, id⟩

theorem SlotKeeps.trans {s t u : State} (h : SlotKeeps s t) (g : SlotKeeps t u) : SlotKeeps s u :=
  ⟨g.mem.trans h.mem, g.tags.trans h.tags, g.poison.trans h.poison, g.flaws.trans h.flaws, g.hostMem.trans h.hostMem,
    h.core.trans g.core, g.dies.trans h.dies, g.pkg.trans h.pkg, g.ports.trans h.ports, g.ready.trans h.ready,
    g.seq.trans h.seq, fun w => g.wf (h.wf w)⟩

/-- A change of the focus core and of what is no memory, record or register. -/
theorem SlotKeeps.record {s u : State} (h : SlotKeeps s u) {c : Core} (hc : CoreKeeps u.core c) (i : Issue)
    (ctxs : Vector Ctx 64) (tasks : List Task) (fens : Vector Fen 30) (tick : Nat) :
    SlotKeeps s { u with core := c, iss := i, ctxs := ctxs, tasks := tasks, fens := fens, tick := tick } :=
  h.trans ⟨rfl, rfl, rfl, rfl, rfl, hc, rfl, rfl, rfl, rfl, rfl, fun w => by
    obtain ⟨h1, h2, h3, h4, h5⟩ := u.memWf_iff.mp w
    exact (State.memWf_iff _).mpr ⟨h1, h2, h3, hc.spWf h4, h5⟩⟩

/-- A next state that keeps them. -/
def OutKeeps (s : State) (o : Out) : Prop := ∀ t, o = .next t → SlotKeeps s t

theorem OutKeeps.next {s t : State} (h : SlotKeeps s t) : OutKeeps s (.next t) := fun u e => by
  cases e
  exact h

/-- A fold keeps what each of its steps keeps. -/
theorem SlotKeeps.foldl {α : Type} (f : State → α → State) (hf : ∀ s x, SlotKeeps s (f s x)) (l : List α) (s : State) :
    SlotKeeps s (l.foldl f s) := by
  induction l generalizing s with
  | nil => exact .refl _
  | cons x r ih => exact (hf s x).trans (ih _)

/-- Reading the scratchpad through the core port moves FIFO heads at most. -/
theorem Scratch.read_keeps (sp : Scratch) (a n : Nat) :
    (sp.read a n).2.mem = sp.mem ∧ (sp.read a n).2.tags = sp.tags ∧ (sp.read a n).2.poison = sp.poison := by
  unfold Scratch.read
  generalize partsOf a n = ps
  generalize hz : (⟨[], [], none⟩ : SpRead) = z
  clear hz
  induction ps generalizing sp z with
  | nil => exact ⟨rfl, rfl, rfl⟩
  | cons p r ih =>
    rw [List.foldl_cons]
    obtain ⟨h1, h2, h3⟩ := ih (sp.readPart p).2 _
    have : (sp.readPart p).2.mem = sp.mem ∧ (sp.readPart p).2.tags = sp.tags ∧ (sp.readPart p).2.poison = sp.poison := by
      unfold Scratch.readPart
      split <;> exact ⟨rfl, rfl, rfl⟩
    exact ⟨h1.trans this.1, h2.trans this.2.1, h3.trans this.2.2⟩

theorem State.onCtx_keeps (s : State) (n : Nat) (f : Ctx → Ctx) : SlotKeeps s (s.onCtx n f) := .record (.refl _) (.refl _) _ _ _ _ _

theorem State.onFen_keeps (s : State) (n : Nat) (f : Fen → Fen) : SlotKeeps s (s.onFen n f) := .record (.refl _) (.refl _) _ _ _ _ _

theorem State.raise_keeps (s : State) (rank code cause : Nat) (repl : Bool) (i0 i1 : Word) : SlotKeeps s (State.raise s rank code cause repl i0 i1) := by
  unfold State.raise
  iterate 16 all_goals try first
    | with_reducible exact SlotKeeps.refl _
    | exact CoreKeeps.mk rfl rfl rfl rfl rfl rfl rfl rfl rfl rfl
    | split
    | with_reducible refine SlotKeeps.record ?_ ?_ _ _ _ _ _

theorem State.illegal_keeps (s : State) : SlotKeeps s (State.illegal s) := by
  unfold State.illegal
  iterate 16 all_goals try first
    | with_reducible exact SlotKeeps.refl _
    | with_reducible refine SlotKeeps.trans ?_ (State.raise_keeps ..)

theorem State.encFault_keeps (s : State) : SlotKeeps s (State.encFault s) := by
  unfold State.encFault
  iterate 16 all_goals try first
    | with_reducible exact SlotKeeps.refl _
    | with_reducible refine SlotKeeps.trans ?_ (State.raise_keeps ..)

theorem State.issueFault_keeps (s : State) (code cause : Nat) (repl : Bool) (i0 i1 : Word) : SlotKeeps s (State.issueFault s code cause repl i0 i1) := by
  unfold State.issueFault
  iterate 16 all_goals try first
    | with_reducible exact SlotKeeps.refl _
    | with_reducible refine SlotKeeps.trans ?_ (State.raise_keeps ..)

theorem State.coreRead_keeps (s : State) (cause n : Nat) : SlotKeeps s (State.coreRead s cause n) := by
  unfold State.coreRead
  iterate 16 all_goals try first
    | with_reducible exact SlotKeeps.refl _
    | with_reducible refine SlotKeeps.trans ?_ (State.issueFault_keeps ..)
    | split

theorem State.alignFault_keeps (s : State) (a : Word) : SlotKeeps s (State.alignFault s a) := by
  unfold State.alignFault
  iterate 16 all_goals try first
    | with_reducible exact SlotKeeps.refl _
    | with_reducible refine SlotKeeps.trans ?_ (State.issueFault_keeps ..)

theorem State.canonFault_keeps (s : State) (a : Word) : SlotKeeps s (State.canonFault s a) := by
  unfold State.canonFault
  iterate 16 all_goals try first
    | with_reducible exact SlotKeeps.refl _
    | with_reducible refine SlotKeeps.trans ?_ (State.issueFault_keeps ..)

theorem State.holdOn_keeps (s : State) (w : Wait) : SlotKeeps s (State.holdOn s w) := by
  unfold State.holdOn
  iterate 16 all_goals try first
    | with_reducible exact SlotKeeps.refl _
    | exact CoreKeeps.mk rfl rfl rfl rfl rfl rfl rfl rfl rfl rfl
    | split
    | with_reducible refine SlotKeeps.record ?_ ?_ _ _ _ _ _

theorem State.synced_keeps (s : State) : SlotKeeps s (State.synced s) := by
  unfold State.synced
  iterate 16 all_goals try first
    | with_reducible exact SlotKeeps.refl _
    | exact CoreKeeps.mk rfl rfl rfl rfl rfl rfl rfl rfl rfl rfl
    | with_reducible refine SlotKeeps.record ?_ ?_ _ _ _ _ _

theorem State.result_keeps (s : State) (rem : Nat) (w : Landing) : SlotKeeps s (State.result s rem w) := by
  unfold State.result
  iterate 16 all_goals try first
    | with_reducible exact SlotKeeps.refl _
    | exact CoreKeeps.mk rfl rfl rfl rfl rfl rfl rfl rfl rfl rfl
    | with_reducible refine SlotKeeps.record ?_ ?_ _ _ _ _ _

theorem State.endOfCycle_keeps (s : State) (e : Eoc) : SlotKeeps s (State.endOfCycle s e) := by
  unfold State.endOfCycle
  iterate 16 all_goals try first
    | with_reducible exact SlotKeeps.refl _
    | exact CoreKeeps.mk rfl rfl rfl rfl rfl rfl rfl rfl rfl rfl
    | with_reducible refine SlotKeeps.record ?_ ?_ _ _ _ _ _

theorem State.qufFault_keeps (s : State) (q : Nat) : SlotKeeps s (State.qufFault s q) := by
  unfold State.qufFault
  iterate 16 all_goals try first
    | with_reducible exact SlotKeeps.refl _
    | with_reducible refine SlotKeeps.trans ?_ (State.issueFault_keeps ..)

theorem State.takeQ_keeps (s : State) (q : Nat) (peek : Bool) : SlotKeeps s (State.takeQ s q peek).2 := by
  unfold State.takeQ
  try dsimp only
  iterate 16 all_goals try first
    | with_reducible exact SlotKeeps.refl _
    | with_reducible refine SlotKeeps.trans ?_ (State.coreRead_keeps ..)
    | with_reducible refine SlotKeeps.trans ?_ (State.issueFault_keeps ..)
    | exact CoreKeeps.mk rfl rfl rfl rfl rfl rfl rfl rfl rfl rfl
    | split
    | with_reducible refine SlotKeeps.record ?_ ?_ _ _ _ _ _

theorem State.takeQ_keeps' (s : State) (q : Nat) (peek : Bool) {r} {t : State} (e : State.takeQ s q peek = (r, t)) : SlotKeeps s t := by
  have := State.takeQ_keeps s q peek
  rw [e] at this
  exact this

theorem State.notePush_keeps (s : State) (q n : Nat) : SlotKeeps s (State.notePush s q n) := by
  unfold State.notePush
  iterate 16 all_goals try first
    | with_reducible exact SlotKeeps.refl _
    | exact CoreKeeps.mk rfl rfl rfl rfl rfl rfl rfl rfl rfl rfl
    | with_reducible refine SlotKeeps.record ?_ ?_ _ _ _ _ _

theorem State.pushQ_keeps (s : State) (rem : Nat) (q : Nat) (es : List QEntry) : SlotKeeps s (State.pushQ s rem q es) := by
  unfold State.pushQ
  iterate 16 all_goals try first
    | with_reducible exact SlotKeeps.refl _
    | with_reducible refine SlotKeeps.trans ?_ (State.notePush_keeps ..)
    | with_reducible refine SlotKeeps.trans ?_ (State.result_keeps ..)

theorem State.raiseInfo_keeps (s : State) (f : FaultInfo) : SlotKeeps s (State.raiseInfo s f) := by
  unfold State.raiseInfo
  iterate 16 all_goals try first
    | with_reducible exact SlotKeeps.refl _
    | with_reducible refine SlotKeeps.trans ?_ (State.issueFault_keeps ..)

theorem State.storePoison_keeps (s : State) (a n : Nat) : SlotKeeps s (State.storePoison s a n) := by
  unfold State.storePoison
  iterate 16 all_goals try first
    | with_reducible exact SlotKeeps.refl _
    | with_reducible refine SlotKeeps.trans ?_ (State.raiseInfo_keeps ..)
    | split

theorem State.fresh_keeps (s : State) : SlotKeeps s (State.fresh s) := by
  unfold State.fresh
  iterate 16 all_goals try first
    | with_reducible exact SlotKeeps.refl _
    | exact CoreKeeps.mk rfl rfl rfl rfl rfl rfl rfl rfl rfl rfl
    | with_reducible refine SlotKeeps.record ?_ ?_ _ _ _ _ _

theorem State.bankFault_keeps (s : State) (bank row inCycles : Nat) : SlotKeeps s (State.bankFault s bank row inCycles) := by
  unfold State.bankFault
  iterate 16 all_goals try first
    | with_reducible exact SlotKeeps.refl _
    | with_reducible refine SlotKeeps.trans ?_ (State.issueFault_keeps ..)

theorem State.poisonSectors_keeps (s : State) (secs : List Nat) : SlotKeeps s (State.poisonSectors s secs) := by
  unfold State.poisonSectors
  iterate 16 all_goals try first
    | with_reducible exact SlotKeeps.refl _
    | with_reducible refine SlotKeeps.trans ?_ (State.raiseInfo_keeps ..)
    | split

theorem State.checkSectors_keeps (s : State) (p : Presented) (secs : List Nat) : SlotKeeps s (State.checkSectors s p secs).2 := by
  unfold State.checkSectors
  try dsimp only
  iterate 16 all_goals try first
    | with_reducible exact SlotKeeps.refl _
    | with_reducible refine SlotKeeps.trans ?_ (State.raiseInfo_keeps ..)
    | split

theorem State.checkSectors_keeps' (s : State) (p : Presented) (secs : List Nat) {r} {t : State} (e : State.checkSectors s p secs = (r, t)) : SlotKeeps s t := by
  have := State.checkSectors_keeps s p secs
  rw [e] at this
  exact this

theorem State.plainSectors_keeps (s : State) (secs : List Nat) : SlotKeeps s (State.plainSectors s secs) := by
  unfold State.plainSectors
  iterate 16 all_goals try first
    | with_reducible exact SlotKeeps.refl _
    | with_reducible refine SlotKeeps.trans ?_ (State.checkSectors_keeps ..)
    | with_reducible refine SlotKeeps.trans ?_ (State.poisonSectors_keeps ..)

theorem State.usePort_keeps (s : State) (inCycles bank row : Nat) : SlotKeeps s (State.usePort s inCycles bank row) := by
  unfold State.usePort
  iterate 16 all_goals try first
    | with_reducible exact SlotKeeps.refl _
    | with_reducible refine SlotKeeps.trans ?_ (State.bankFault_keeps ..)
    | exact CoreKeeps.mk rfl rfl rfl rfl rfl rfl rfl rfl rfl rfl
    | split
    | with_reducible refine SlotKeeps.record ?_ ?_ _ _ _ _ _

theorem State.usePorts_keeps (s : State) (inCycles a n : Nat) : SlotKeeps s (s.usePorts inCycles a n) :=
  SlotKeeps.foldl (fun s (p : Nat × Nat) => s.usePort inCycles p.1 p.2) (fun s p => s.usePort_keeps inCycles p.1 p.2) _ s

theorem sResult_keeps (s : State) (p : BitVec 2) (lat : Nat) (d : BitVec 5) (v : Word) : SlotKeeps s (sResult s p lat d v) := by
  unfold sResult
  iterate 16 all_goals try first
    | with_reducible exact SlotKeeps.refl _
    | with_reducible refine SlotKeeps.trans ?_ (State.result_keeps ..)
    | split

theorem sPred_keeps (s : State) (p : BitVec 2) (d : BitVec 3) (v : Bool) : SlotKeeps s (sPred s p d v) := by
  unfold sPred
  iterate 16 all_goals try first
    | with_reducible exact SlotKeeps.refl _
    | with_reducible refine SlotKeeps.trans ?_ (State.result_keeps ..)
    | split

theorem State.swapK_keeps (s : State) (n : BitVec 2) (w : BitVec 1) : SlotKeeps s (State.swapK s n w) := by
  unfold State.swapK
  iterate 16 all_goals try first
    | with_reducible exact SlotKeeps.refl _
    | exact CoreKeeps.mk rfl rfl rfl rfl rfl rfl rfl rfl rfl rfl
    | split
    | with_reducible refine SlotKeeps.record ?_ ?_ _ _ _ _ _

theorem State.holdTokens_keeps (s : State) (l : List (BitVec 4)) : SlotKeeps s (s.holdTokens l) := by
  unfold State.holdTokens
  induction l generalizing s with
  | nil => exact .refl _
  | cons t l ih => exact (State.holdOn_keeps s _).trans (ih _)

theorem directForm_keeps (n : BitVec 2) (x y : BitVec 4) (w : BitVec 1) (z : BitVec 3) (body : Shape → State → State) (s : State)
    (h : ∀ u : State, SlotKeeps u (body (u.ksh n) u)) : OutKeeps s (directForm n x y w z body s) := by
  unfold directForm
  split
  · split
    · exact .next (State.holdTokens_keeps ..)
    · have g (t : State) (k : SlotKeeps s t) : OutKeeps s (.next ((body (t.ksh n) t).swapK n w)) :=
        .next (k.trans ((h t).trans (State.swapK_keeps ..)))
      refine g _ ?_
      split
      · exact .refl _
      · exact State.synced_keeps _
  · exact .next (.refl _)

theorem State.cChecks_keeps (s : State) (illegal enc : Bool) (aligns : List (Nat × Nat)) : SlotKeeps s (State.cChecks s illegal enc aligns) := by
  unfold State.cChecks
  iterate 16 all_goals try first
    | with_reducible exact SlotKeeps.refl _
    | with_reducible refine SlotKeeps.trans ?_ (State.alignFault_keeps ..)
    | with_reducible refine SlotKeeps.trans ?_ (State.encFault_keeps ..)
    | with_reducible refine SlotKeeps.trans ?_ (State.illegal_keeps ..)
    | split

theorem State.canonCheck_keeps (s : State) (a : Word) : SlotKeeps s (State.canonCheck s a) := by
  unfold State.canonCheck
  iterate 16 all_goals try first
    | with_reducible exact SlotKeeps.refl _
    | with_reducible refine SlotKeeps.trans ?_ (State.canonFault_keeps ..)
    | split

theorem State.fifoFreeze_keeps (s : State) : SlotKeeps s (State.fifoFreeze s) := by
  unfold State.fifoFreeze
  exact SlotKeeps.record (SlotKeeps.refl _) (CoreKeeps.mk rfl rfl rfl rfl rfl rfl rfl rfl rfl rfl) _ _ _ _ _

theorem State.spChecks_keeps (s : State) (carry : Bool) (a n : Nat) (r : SpRead) : SlotKeeps s (s.spChecks carry a n r) := by
  unfold State.spChecks
  iterate 16 all_goals try first
    | with_reducible exact SlotKeeps.refl _
    | with_reducible refine SlotKeeps.trans ?_ (State.raiseInfo_keeps ..)
    | split

theorem State.spLoad_keeps (s : State) (carry : Bool) (a n : Nat) : SlotKeeps s (s.spLoad carry a n).2 := by
  have h := s.usePorts_keeps 0 a n
  unfold State.spLoad
  generalize s.usePorts 0 a n = u at h
  have r := u.core.sp.read_keeps a n
  have g : SlotKeeps s { u with core := { u.core with sp := (u.core.sp.read a n).2 } } :=
    h.record (c := { u.core with sp := (u.core.sp.read a n).2 }) ⟨rfl, rfl, rfl, rfl, rfl, r.1, r.2.1, r.2.2, rfl, rfl⟩ _ _ _ _ _
  dsimp only
  split
  · exact h.trans (State.fifoFreeze_keeps _)
  · exact g.trans (State.spChecks_keeps ..)

theorem State.spStoreIssue_keeps (s : State) (a : Nat) (bs : List Byte) : SlotKeeps s (State.spStoreIssue s a bs) := by
  unfold State.spStoreIssue
  iterate 16 all_goals try first
    | with_reducible exact SlotKeeps.refl _
    | with_reducible refine SlotKeeps.trans ?_ (State.result_keeps ..)
    | with_reducible refine SlotKeeps.trans ?_ (State.storePoison_keeps ..)
    | with_reducible refine SlotKeeps.trans ?_ (State.usePorts_keeps ..)

theorem ldsBody_keeps (carry : Bool) (sh : Shape) (s : State) : SlotKeeps s (ldsBody carry sh s) :=
  ((State.cChecks_keeps ..).trans (State.spLoad_keeps ..)).trans (State.pushQ_keeps ..)

theorem State.popStore_keeps (s : State) (q : Nat) : SlotKeeps s (s.popStore q).2 := by
  unfold State.popStore
  have h := s.takeQ_keeps q false
  dsimp only
  split
  · exact h.trans (State.raiseInfo_keeps ..)
  · exact h

theorem stsBody_keeps (sh : Shape) (s : State) : SlotKeeps s (stsBody sh s) :=
  ((State.cChecks_keeps ..).trans (State.popStore_keeps ..)).trans (State.spStoreIssue_keeps ..)

theorem ldsxBody_keeps (sh : Shape) (s : State) : SlotKeeps s (ldsxBody sh s) :=
  ((((State.cChecks_keeps ..).trans (State.spLoad_keeps ..)).trans (State.usePorts_keeps ..)).trans
    (State.storePoison_keeps ..)).trans (State.result_keeps ..)

theorem State.sregRead_keeps (s : State) (sh : Shape) : SlotKeeps s (State.sregRead s sh) := by
  unfold State.sregRead
  iterate 16 all_goals try first
    | with_reducible exact SlotKeeps.refl _
    | with_reducible refine SlotKeeps.trans ?_ (State.coreRead_keeps ..)

theorem stsxBody_keeps (sh : Shape) (s : State) : SlotKeeps s (stsxBody sh s) := by
  unfold stsxBody
  iterate 16 all_goals try first
    | with_reducible exact SlotKeeps.refl _
    | with_reducible refine SlotKeeps.trans ?_ (State.cChecks_keeps ..)
    | with_reducible refine SlotKeeps.trans ?_ (State.spStoreIssue_keeps ..)
    | with_reducible refine SlotKeeps.trans ?_ (State.sregRead_keeps ..)

theorem State.sendAccess_keeps (s : State) (q : BitVec 2) (space : Space) (store carry : Bool) (a : Word) (n : Nat) (bs : List Byte) : SlotKeeps s (State.sendAccess s q space store carry a n bs).2 := by
  unfold State.sendAccess
  iterate 16 all_goals try first
    | with_reducible exact SlotKeeps.refl _
    | exact CoreKeeps.mk rfl rfl rfl rfl rfl rfl rfl rfl rfl rfl
    | with_reducible refine SlotKeeps.record ?_ ?_ _ _ _ _ _

theorem State.sendAccess_keeps' (s : State) (q : BitVec 2) (space : Space) (store carry : Bool) (a : Word) (n : Nat) (bs : List Byte) {r} {t : State} (e : State.sendAccess s q space store carry a n bs = (r, t)) : SlotKeeps s t := by
  have := State.sendAccess_keeps s q space store carry a n bs
  rw [e] at this
  exact this

/-- The canonical check of a global form. -/
theorem State.canonCheckIf_keeps (s : State) (p : Prop) [Decidable p] (a : Word) :
    SlotKeeps s (if p then s else s.canonCheck a) := by
  split
  · exact .refl _
  · exact State.canonCheck_keeps ..

theorem loadQBody_keeps (space : Space) (carry : Bool) (q : BitVec 2) (sh : Shape) (s : State) :
    SlotKeeps s (loadQBody space carry q sh s) :=
  ((((State.cChecks_keeps ..).trans (State.canonCheckIf_keeps ..)).trans (State.sendAccess_keeps ..)).trans
    (State.notePush_keeps ..)).trans (State.result_keeps ..)

theorem storeQBody_keeps (space : Space) (q : BitVec 2) (sh : Shape) (s : State) : SlotKeeps s (storeQBody space q sh s) :=
  ((((State.cChecks_keeps ..).trans (State.canonCheckIf_keeps ..)).trans (State.popStore_keeps ..)).trans
    (State.sendAccess_keeps ..)).trans (State.result_keeps ..)

theorem ldgxBody_keeps (q : BitVec 2) (sh : Shape) (s : State) : SlotKeeps s (ldgxBody q sh s) :=
  (((((State.cChecks_keeps ..).trans (State.canonCheck_keeps ..)).trans (State.usePorts_keeps ..)).trans
    (State.storePoison_keeps ..)).trans (State.sendAccess_keeps ..)).trans (State.result_keeps ..)

theorem stgxBody_keeps (q : BitVec 2) (sh : Shape) (s : State) : SlotKeeps s (stgxBody q sh s) :=
  ((((State.cChecks_keeps ..).trans (State.canonCheck_keeps ..)).trans (State.sregRead_keeps ..)).trans
    (State.sendAccess_keeps ..)).trans (State.result_keeps ..)

theorem State.noteOldest_keeps (s : State) : SlotKeeps s (State.noteOldest s) := by
  unfold State.noteOldest
  iterate 16 all_goals try first
    | with_reducible exact SlotKeeps.refl _
    | exact CoreKeeps.mk rfl rfl rfl rfl rfl rfl rfl rfl rfl rfl
    | with_reducible refine SlotKeeps.record ?_ ?_ _ _ _ _ _

theorem State.sendCmd_keeps (s : State) (op : CmdOp) (sh : Shape) (a b : Word) (t : BitVec 4) (toks : List Nat) (f : Cmd → Cmd) : SlotKeeps s (State.sendCmd s op sh a b t toks f) := by
  unfold State.sendCmd
  iterate 16 all_goals try first
    | with_reducible exact SlotKeeps.refl _
    | with_reducible refine SlotKeeps.trans ?_ (State.endOfCycle_keeps ..)
    | exact CoreKeeps.mk rfl rfl rfl rfl rfl rfl rfl rfl rfl rfl
    | with_reducible refine SlotKeeps.record ?_ ?_ _ _ _ _ _

theorem commandForm_keeps (t : BitVec 4) (body : State → State) (s : State) (h : SlotKeeps s (body s)) :
    OutKeeps s (commandForm t body s) := by
  unfold commandForm
  split
  · split
    · exact .next ((State.noteOldest_keeps ..).trans (State.holdTokens_keeps ..))
    · exact .next h
  · exact .next (.refl _)

theorem shapeCmd_keeps (n : BitVec 2) (t : BitVec 4) (w : BitVec 1) (body : Shape → State → State) (s : State)
    (h : SlotKeeps s (body (s.ksh n) s)) : OutKeeps s (shapeCmd n t w body s) :=
  commandForm_keeps _ _ _ (h.trans (State.swapK_keeps ..))

theorem atomicBody_keeps (k : Nat) (t : BitVec 4) (toks : List Nat) (sh : Shape) (s : State) : SlotKeeps s (atomicBody k t toks sh s) := by
  unfold atomicBody
  iterate 16 all_goals try first
    | with_reducible exact SlotKeeps.refl _
    | with_reducible refine SlotKeeps.trans ?_ (State.cChecks_keeps ..)
    | with_reducible refine SlotKeeps.trans ?_ (State.sendCmd_keeps ..)

theorem State.stkPops_keeps (s : State) (q n : Nat) : SlotKeeps s (s.stkPops q n).2 := by
  induction n generalizing s with
  | zero => exact .refl _
  | succ n ih =>
    unfold State.stkPops
    have h := s.takeQ_keeps q false
    dsimp only
    split
    · exact (h.trans (State.raiseInfo_keeps ..)).trans (ih _)
    · exact h.trans (ih _)

theorem stkBody_keeps (t : BitVec 4) (toks : List Nat) (sh : Shape) (s : State) : SlotKeeps s (stkBody t toks sh s) := by
  unfold stkBody
  refine SlotKeeps.trans ?_ (State.sendCmd_keeps ..)
  have h : ∀ u : State, SlotKeeps u (match stkCause (fld sh 152 149) (vget s.ctx.kt (fld sh 152 149)) with
      | some c => u.issueFault 0x09 c true 0 (BitVec.ofNat 64 (fld sh 152 149))
      | none => u) := fun u => by
    split
    · exact State.issueFault_keeps ..
    · exact .refl _
  split
  · exact ((State.cChecks_keeps ..).trans (h _)).trans (State.stkPops_keeps ..)
  · exact (State.cChecks_keeps ..).trans (h _)

theorem kcopyBody_keeps (t : BitVec 4) (toks : List Nat) (sh : Shape) (s : State) : SlotKeeps s (kcopyBody t toks sh s) := by
  unfold kcopyBody
  iterate 16 all_goals try first
    | with_reducible exact SlotKeeps.refl _
    | with_reducible refine SlotKeeps.trans ?_ (State.cChecks_keeps ..)
    | with_reducible refine SlotKeeps.trans ?_ (State.sendCmd_keeps ..)

theorem cpBody_keeps (op : CmdOp) (t : BitVec 4) (toks : List Nat) (sh : Shape) (s : State) : SlotKeeps s (cpBody op t toks sh s) := by
  unfold cpBody
  iterate 16 all_goals try first
    | with_reducible exact SlotKeeps.refl _
    | with_reducible refine SlotKeeps.trans ?_ (State.cChecks_keeps ..)
    | with_reducible refine SlotKeeps.trans ?_ (State.sendCmd_keeps ..)

theorem cpblkBody_keeps (t : BitVec 4) (toks : List Nat) (sh : Shape) (s : State) : SlotKeeps s (cpblkBody t toks sh s) := by
  unfold cpblkBody
  iterate 16 all_goals try first
    | with_reducible exact SlotKeeps.refl _
    | with_reducible refine SlotKeeps.trans ?_ (State.cChecks_keeps ..)
    | with_reducible refine SlotKeeps.trans ?_ (State.issueFault_keeps ..)
    | with_reducible refine SlotKeeps.trans ?_ (State.sendCmd_keeps ..)
    | split

theorem plainBody_keeps (op : CmdOp) (t : BitVec 4) (toks : List Nat) (sh : Shape) (s : State) : SlotKeeps s (plainBody op t toks sh s) := by
  unfold plainBody
  iterate 16 all_goals try first
    | with_reducible exact SlotKeeps.refl _
    | with_reducible refine SlotKeeps.trans ?_ (State.sendCmd_keeps ..)

theorem mbpostBody_keeps (toks : List Nat) (sh : Shape) (s : State) : SlotKeeps s (mbpostBody toks sh s) := by
  unfold mbpostBody
  iterate 16 all_goals try first
    | with_reducible exact SlotKeeps.refl _
    | with_reducible refine SlotKeeps.trans ?_ (State.sendCmd_keeps ..)

theorem mRun_keeps (s : State) (body : State → State) (h : SlotKeeps s (body s)) : OutKeeps s (mRun s body) := by
  unfold mRun
  split
  · exact .next (State.illegal_keeps _)
  · split
    · exact .next h
    · exact .next (.refl _)

theorem State.swapMx_keeps (s : State) (n : BitVec 2) (w : BitVec 1) : SlotKeeps s (State.swapMx s n w) := by
  unfold State.swapMx
  iterate 16 all_goals try first
    | with_reducible exact SlotKeeps.refl _
    | exact CoreKeeps.mk rfl rfl rfl rfl rfl rfl rfl rfl rfl rfl
    | split
    | with_reducible refine SlotKeeps.record ?_ ?_ _ _ _ _ _

theorem State.scoreHold_keeps (s : State) (n kind : Nat) : SlotKeeps s (State.scoreHold s n kind) := by
  unfold State.scoreHold
  iterate 16 all_goals try first
    | with_reducible exact SlotKeeps.refl _
    | with_reducible refine SlotKeeps.trans ?_ (State.holdOn_keeps ..)

theorem State.alignTiles_keeps (s : State) (l : List (Nat × Nat × Nat)) : SlotKeeps s (State.alignTiles s l) := by
  unfold State.alignTiles
  iterate 16 all_goals try first
    | with_reducible exact SlotKeeps.refl _
    | with_reducible refine SlotKeeps.trans ?_ (State.alignFault_keeps ..)
    | split

theorem State.claimWindow_keeps (s : State) (g first : Nat) (rows : List (BitVec 10)) (secs : List Nat) : SlotKeeps s (State.claimWindow s g first rows secs) := by
  unfold State.claimWindow
  iterate 16 all_goals try first
    | with_reducible exact SlotKeeps.refl _
    | with_reducible refine SlotKeeps.trans ?_ (State.bankFault_keeps ..)
    | exact CoreKeeps.mk rfl rfl rfl rfl rfl rfl rfl rfl rfl rfl
    | split
    | with_reducible refine SlotKeeps.record ?_ ?_ _ _ _ _ _

theorem State.startWin_keeps (s : State) (w : Win) : SlotKeeps s (State.startWin s w) := by
  unfold State.startWin
  iterate 16 all_goals try first
    | with_reducible exact SlotKeeps.refl _
    | exact CoreKeeps.mk rfl rfl rfl rfl rfl rfl rfl rfl rfl rfl
    | with_reducible refine SlotKeeps.record ?_ ?_ _ _ _ _ _

theorem State.checkB_keeps (s : State) (f : BitVec 16) (m : MmaSlot) (sh : Shape) (secs : List Nat) : SlotKeeps s (State.checkB s f m sh secs).2 := by
  unfold State.checkB
  try dsimp only
  iterate 16 all_goals try first
    | with_reducible exact SlotKeeps.refl _
    | with_reducible refine SlotKeeps.trans ?_ (State.checkSectors_keeps ..)
    | with_reducible refine SlotKeeps.trans ?_ (State.poisonSectors_keeps ..)
    | split

theorem State.checkB_keeps' (s : State) (f : BitVec 16) (m : MmaSlot) (sh : Shape) (secs : List Nat) {r} {t : State} (e : State.checkB s f m sh secs = (r, t)) : SlotKeeps s t := by
  have := State.checkB_keeps s f m sh secs
  rw [e] at this
  exact this

theorem State.queueMma_keeps (s : State) (f : BitVec 16) (m : MmaSlot) (sh : Shape) (served : Nat) : SlotKeeps s (State.queueMma s f m sh served) := by
  unfold State.queueMma
  iterate 16 all_goals try first
    | with_reducible exact SlotKeeps.refl _
    | exact CoreKeeps.mk rfl rfl rfl rfl rfl rfl rfl rfl rfl rfl
    | with_reducible refine SlotKeeps.record ?_ ?_ _ _ _ _ _

theorem State.startMma_keeps (s : State) (f : BitVec 16) (m : MmaSlot) : SlotKeeps s (s.startMma f m) := by
  unfold State.startMma
  extract_lets
  split
  · refine SlotKeeps.trans ?_ (State.swapMx_keeps ..)
    refine SlotKeeps.trans ?_ (State.startWin_keeps ..)
    refine SlotKeeps.trans ?_ (State.startWin_keeps ..)
    refine SlotKeeps.trans ?_ (State.queueMma_keeps ..)
    refine SlotKeeps.trans ?_ (State.claimWindow_keeps ..)
    refine SlotKeeps.trans ?_ (State.checkB_keeps ..)
    exact ((State.alignTiles_keeps ..).trans (State.claimWindow_keeps ..)).trans (State.plainSectors_keeps ..)
  · refine SlotKeeps.trans ?_ (State.swapMx_keeps ..)
    refine SlotKeeps.trans ?_ (State.startWin_keeps ..)
    refine SlotKeeps.trans ?_ (State.queueMma_keeps ..)
    exact ((State.alignTiles_keeps ..).trans (State.claimWindow_keeps ..)).trans (State.plainSectors_keeps ..)

/-- A change of the matrix unit alone. -/
theorem CoreKeeps.mx (c : Core) (m : MatrixUnit) : CoreKeeps c { c with mx := m } :=
  ⟨rfl, rfl, rfl, rfl, rfl, rfl, rfl, rfl, rfl, rfl⟩

theorem mDrain_keeps (transpose : Bool) (a sh : BitVec 2) (w : BitVec 1) (t : BitVec 3) (alt zac : BitVec 1) (g : BitVec 2)
    (s : State) : OutKeeps s (mDrain transpose a sh w t alt zac g s) := by
  unfold mDrain
  refine mRun_keeps _ _ ?_
  have hw : ∀ (u : State) (l : List DrainWrite), SlotKeeps u (l.foldl
      (fun s y => (s.storePoison y.addr y.bytes.length).result (3 + y.row) (.spWrite y.addr y.bytes)) u) := fun u l =>
    SlotKeeps.foldl _ (fun s y => (State.storePoison_keeps s ..).trans (State.result_keeps ..)) l u
  extract_lets
  split
  · exact State.scoreHold_keeps ..
  · with_reducible refine SlotKeeps.trans ?_ (State.swapMx_keeps ..)
    refine SlotKeeps.record ?_ ?_ _ _ _ _ _
    · with_reducible refine SlotKeeps.trans ?_ (hw _ _)
      with_reducible refine SlotKeeps.trans ?_ (State.claimWindow_keeps ..)
      with_reducible refine SlotKeeps.trans ?_ (State.alignTiles_keeps ..)
      with_reducible exact State.coreRead_keeps ..
    · with_reducible exact CoreKeeps.mx _ _

theorem State.read32_keeps (s : State) (x : Shape) (g : BitVec 2) : SlotKeeps s (State.read32 s x g).2 := by
  unfold State.read32
  iterate 16 all_goals try first
    | with_reducible exact SlotKeeps.refl _
    | with_reducible refine SlotKeeps.trans ?_ (State.alignFault_keeps ..)
    | with_reducible refine SlotKeeps.trans ?_ (State.claimWindow_keeps ..)
    | with_reducible refine SlotKeeps.trans ?_ (State.plainSectors_keeps ..)
    | split

theorem State.read32_keeps' (s : State) (x : Shape) (g : BitVec 2) {r} {t : State} (e : State.read32 s x g = (r, t)) : SlotKeeps s t := by
  have := State.read32_keeps s x g
  rw [e] at this
  exact this

theorem mLdcbk_keeps (l sh : BitVec 2) (w : BitVec 1) (g : BitVec 2) (s : State) : OutKeeps s (mLdcbk l sh w g s) := by
  unfold mLdcbk
  refine mRun_keeps _ _ ?_
  dsimp only
  split
  · exact State.scoreHold_keeps ..
  · exact ((State.read32_keeps ..).trans (State.endOfCycle_keeps ..)).trans (State.swapMx_keeps ..)

theorem mLdfmt_keeps (sh : BitVec 2) (w : BitVec 1) (g : BitVec 2) (s : State) : OutKeeps s (mLdfmt sh w g s) := by
  unfold mLdfmt
  refine mRun_keeps _ _ ?_
  have h := s.read32_keeps (s.mx sh) g
  dsimp only
  generalize s.read32 (s.mx sh) g = r at h
  with_reducible refine SlotKeeps.trans ?_ (State.swapMx_keeps ..)
  refine h.record ?_ _ _ _ _ _
  exact ⟨rfl, rfl, rfl, rfl, rfl, rfl, rfl, rfl, rfl, rfl⟩

theorem State.jumpTo_keeps (s : State) (t : Word) : SlotKeeps s (State.jumpTo s t) := by
  unfold State.jumpTo
  iterate 16 all_goals try first
    | with_reducible exact SlotKeeps.refl _
    | with_reducible refine SlotKeeps.trans ?_ (State.alignFault_keeps ..)
    | with_reducible refine SlotKeeps.trans ?_ (State.canonFault_keeps ..)
    | exact CoreKeeps.mk rfl rfl rfl rfl rfl rfl rfl rfl rfl rfl
    | split
    | with_reducible refine SlotKeeps.record ?_ ?_ _ _ _ _ _

theorem State.jumpIf_keeps (s : State) (cond : Bool) (t : Word) : SlotKeeps s (State.jumpIf s cond t) := by
  unfold State.jumpIf
  iterate 16 all_goals try first
    | with_reducible exact SlotKeeps.refl _
    | with_reducible refine SlotKeeps.trans ?_ (State.jumpTo_keeps ..)
    | split

theorem State.loopFault_keeps (s : State) (cause : Nat) : SlotKeeps s (State.loopFault s cause) := by
  unfold State.loopFault
  iterate 16 all_goals try first
    | with_reducible exact SlotKeeps.refl _
    | with_reducible refine SlotKeeps.trans ?_ (State.issueFault_keeps ..)

theorem State.callIf_keeps (s : State) (cond : Bool) (t : Word) : SlotKeeps s (State.callIf s cond t) := by
  unfold State.callIf
  iterate 16 all_goals try first
    | with_reducible exact SlotKeeps.refl _
    | with_reducible refine SlotKeeps.trans ?_ (State.jumpTo_keeps ..)
    | with_reducible refine SlotKeeps.trans ?_ (State.loopFault_keeps ..)
    | split

theorem State.mstkFault_keeps (s : State) (v1 : Bool) : SlotKeeps s (State.mstkFault s v1) := by
  unfold State.mstkFault
  iterate 16 all_goals try first
    | with_reducible exact SlotKeeps.refl _
    | with_reducible refine SlotKeeps.trans ?_ (State.issueFault_keeps ..)

theorem State.maskOp_keeps (s : State) (v1 : Bool) (ok : Bool) (f : List (BitVec 64) → List (BitVec 64)) : SlotKeeps s (State.maskOp s v1 ok f) := by
  unfold State.maskOp
  iterate 16 all_goals try first
    | with_reducible exact SlotKeeps.refl _
    | with_reducible refine SlotKeeps.trans ?_ (State.illegal_keeps ..)
    | with_reducible refine SlotKeeps.trans ?_ (State.mstkFault_keeps ..)
    | exact CoreKeeps.mk rfl rfl rfl rfl rfl rfl rfl rfl rfl rfl
    | split
    | with_reducible refine SlotKeeps.record ?_ ?_ _ _ _ _ _

theorem State.holdIf_keeps (s : State) (cond : Bool) (w : Wait) : SlotKeeps s (State.holdIf s cond w) := by
  unfold State.holdIf
  iterate 16 all_goals try first
    | with_reducible exact SlotKeeps.refl _
    | with_reducible refine SlotKeeps.trans ?_ (State.holdOn_keeps ..)
    | split

theorem State.waitIf_keeps (s : State) (cond : Bool) (w : Wait) : SlotKeeps s (State.waitIf s cond w) := by
  unfold State.waitIf
  iterate 16 all_goals try first
    | with_reducible exact SlotKeeps.refl _
    | with_reducible refine SlotKeeps.trans ?_ (State.holdIf_keeps ..)
    | with_reducible refine SlotKeeps.trans ?_ (State.synced_keeps ..)
    | split

theorem State.onTask_keeps (s : State) (k : CoreKey) (f : Task → Task) : SlotKeeps s (State.onTask s k f) := by
  unfold State.onTask
  iterate 16 all_goals try first
    | with_reducible exact SlotKeeps.refl _
    | exact CoreKeeps.mk rfl rfl rfl rfl rfl rfl rfl rfl rfl rfl
    | with_reducible refine SlotKeeps.record ?_ ?_ _ _ _ _ _

theorem vRun_keeps (s : State) (roles : Bool) (body : State → State) (h : SlotKeeps s (body s)) : OutKeeps s (vRun s roles body) := by
  unfold vRun
  split
  · split
    · exact .next h
    · exact .next (.refl _)
  · exact .next (State.illegal_keeps _)

theorem State.readN_keeps (s : State) (q : Nat) (peek : Bool) (n : Nat) : SlotKeeps s (s.readN q peek n).2 := by
  induction n generalizing s with
  | zero => exact .refl _
  | succ n ih =>
    cases n with
    | zero => exact s.takeQ_keeps q peek
    | succ n => exact (s.takeQ_keeps q false).trans (ih _)

theorem State.tagPlain_keeps (s : State) (q : Nat) (opB : Bool) (es : List QEntry) : SlotKeeps s (State.tagPlain s q opB es) := by
  unfold State.tagPlain
  iterate 16 all_goals try first
    | with_reducible exact SlotKeeps.refl _
    | with_reducible refine SlotKeeps.trans ?_ (State.raiseInfo_keeps ..)
    | split

theorem State.opA_keeps (s : State) (a : BitVec 4) (x : BitVec 1) (n : Nat) : SlotKeeps s (s.opA a x n).2 :=
  (State.readN_keeps ..).trans (State.tagPlain_keeps ..)

theorem State.opB_keeps (s : State) (t : ElTy) (b : BitVec 4) (y c : BitVec 1) : SlotKeeps s (s.opB t b y c).2 := by
  unfold State.opB
  split
  · exact .refl _
  · exact (State.readN_keeps ..).trans (State.tagPlain_keeps ..)

theorem State.opC_keeps (s : State) (d : BitVec 4) : SlotKeeps s (s.opC d).2 :=
  (State.readN_keeps s d.toNat false 1).trans (State.tagPlain_keeps ..)

theorem State.elements_keeps (s : State) (w k : Nat) (en : BitVec 64) (old : Vec) (sr : Bool) (f : Nat → BitVec 32 → Nat × BitVec 7) : SlotKeeps s (State.elements s w k en old sr f).2 := by
  unfold State.elements
  iterate 16 all_goals try first
    | with_reducible exact SlotKeeps.refl _
    | exact CoreKeeps.mk rfl rfl rfl rfl rfl rfl rfl rfl rfl rfl
    | with_reducible refine SlotKeeps.record ?_ ?_ _ _ _ _ _

theorem State.elements_keeps' (s : State) (w k : Nat) (en : BitVec 64) (old : Vec) (sr : Bool) (f : Nat → BitVec 32 → Nat × BitVec 7) {r} {t : State} (e : State.elements s w k en old sr f = (r, t)) : SlotKeeps s t := by
  have := State.elements_keeps s w k en old sr f
  rw [e] at this
  exact this

theorem State.vPushTagged_keeps (s : State) (lat : Nat) (d : BitVec 4) (es : List QEntry) : SlotKeeps s (State.vPushTagged s lat d es) := by
  unfold State.vPushTagged
  iterate 16 all_goals try first
    | with_reducible exact SlotKeeps.refl _
    | with_reducible refine SlotKeeps.trans ?_ (State.issueFault_keeps ..)
    | with_reducible refine SlotKeeps.trans ?_ (State.pushQ_keeps ..)
    | exact CoreKeeps.mk rfl rfl rfl rfl rfl rfl rfl rfl rfl rfl
    | split
    | with_reducible refine SlotKeeps.record ?_ ?_ _ _ _ _ _

theorem State.vPush_keeps (s : State) (lat : Nat) (d : BitVec 4) (vs : List Vec) : SlotKeeps s (State.vPush s lat d vs) := by
  unfold State.vPush
  iterate 16 all_goals try first
    | with_reducible exact SlotKeeps.refl _
    | with_reducible refine SlotKeeps.trans ?_ (State.vPushTagged_keeps ..)

theorem vdecClaim_keeps (q : Nat) (st : Vdec × State) (l : Nat) : SlotKeeps st.2 (vdecClaim q st l).2 := by
  unfold vdecClaim
  dsimp only
  split
  · exact .refl _
  · have h : SlotKeeps st.2 ((st.2.takeQ q true).2.tagPlain q false [(st.2.takeQ q true).1]) :=
      (State.takeQ_keeps ..).trans (State.tagPlain_keeps ..)
    split
    · exact h.trans (State.takeQ_keeps ..)
    · exact h

theorem vDec_keeps (d a : BitVec 4) (m : BitVec 1) (s : State) : OutKeeps s (vDec d a m s) := by
  unfold vDec
  refine vRun_keeps _ _ _ ?_
  dsimp only
  with_reducible refine SlotKeeps.trans ?_ (State.vPush_keeps ..)
  with_reducible refine SlotKeeps.trans ?_ (State.elements_keeps ..)
  have h : ∀ (l : List Nat) (p : Vdec × State), SlotKeeps p.2 (l.foldl (vdecClaim a.toNat) p).2 := by
    intro l
    induction l with
    | nil => exact fun p => .refl _
    | cons x r ih => exact fun p => (vdecClaim_keeps _ p x).trans (ih _)
  have g : SlotKeeps s _ := h ((List.range 64).filter fun l => bit (s.vLanes m) l) (vget s.core.vs.vdec (a.toNat - 12), s)
  refine g.record ?_ _ _ _ _ _
  exact ⟨rfl, rfl, rfl, rfl, rfl, rfl, rfl, rfl, rfl, rfl⟩

theorem State.raiseKept_keeps (s : State) (r : KeptResult) (code q : Nat) (opB : Bool) : SlotKeeps s (State.raiseKept s r code q opB) := by
  unfold State.raiseKept
  iterate 16 all_goals try first
    | with_reducible exact SlotKeeps.refl _
    | with_reducible refine SlotKeeps.trans ?_ (State.raiseInfo_keeps ..)
    | split

theorem State.opBN_keeps (s : State) (pres : Presented) (b : BitVec 4) (y : BitVec 1) (n : Nat) :
    SlotKeeps s (s.opBN pres b y n).2 :=
  (State.readN_keeps ..).trans (SlotKeeps.foldl _ (fun s _ => s.raiseKept_keeps ..) _ _)

theorem State.opKept_keeps (s : State) (pres : Presented) (win : Option (Nat × Nat)) (a : BitVec 4) (x : BitVec 1) :
    SlotKeeps s (s.opKept pres win a x).2 :=
  (State.readN_keeps ..).trans (State.raiseKept_keeps ..)

/-! ### Forms -/

theorem mMma_keeps (m : MmaSlot) (s : State) : OutKeeps s (mMma m s) := by
  unfold mMma
  iterate 16 all_goals try first
    | with_reducible exact SlotKeeps.refl _
    | (refine mRun_keeps _ _ ?_; try dsimp only)
    | with_reducible refine SlotKeeps.trans ?_ (State.coreRead_keeps ..)
    | with_reducible refine SlotKeeps.trans ?_ (State.encFault_keeps ..)
    | with_reducible refine SlotKeeps.trans ?_ (State.scoreHold_keeps ..)
    | with_reducible refine SlotKeeps.trans ?_ (State.startMma_keeps ..)
    | split

theorem mLatch_keeps (l sh : BitVec 2) (w : BitVec 1) (g : BitVec 2) (s : State) : OutKeeps s (mLatch l sh w g s) := by
  unfold mLatch
  iterate 16 all_goals try first
    | with_reducible exact SlotKeeps.refl _
    | (refine mRun_keeps _ _ ?_; try dsimp only)
    | with_reducible refine SlotKeeps.trans ?_ (State.alignTiles_keeps ..)
    | with_reducible refine SlotKeeps.trans ?_ (State.claimWindow_keeps ..)
    | with_reducible refine SlotKeeps.trans ?_ (State.encFault_keeps ..)
    | with_reducible refine SlotKeeps.trans ?_ (State.plainSectors_keeps ..)
    | with_reducible refine SlotKeeps.trans ?_ (State.scoreHold_keeps ..)
    | with_reducible refine SlotKeeps.trans ?_ (State.startWin_keeps ..)
    | with_reducible refine SlotKeeps.trans ?_ (State.swapMx_keeps ..)
    | split

theorem mLatchreed_keeps (l sh : BitVec 2) (w : BitVec 1) (s : State) : OutKeeps s (mLatchreed l sh w s) := by
  unfold mLatchreed
  iterate 16 all_goals try first
    | with_reducible exact SlotKeeps.refl _
    | (refine mRun_keeps _ _ ?_; try dsimp only)
    | with_reducible refine SlotKeeps.trans ?_ (State.alignTiles_keeps ..)
    | with_reducible refine SlotKeeps.trans ?_ (State.encFault_keeps ..)
    | with_reducible refine SlotKeeps.trans ?_ (State.endOfCycle_keeps ..)
    | with_reducible refine SlotKeeps.trans ?_ (State.scoreHold_keeps ..)
    | with_reducible refine SlotKeeps.trans ?_ (State.swapMx_keeps ..)
    | split

theorem mZero_keeps (a : BitVec 2) (s : State) : OutKeeps s (mZero a s) := by
  unfold mZero
  iterate 16 all_goals try first
    | with_reducible exact SlotKeeps.refl _
    | (refine mRun_keeps _ _ ?_; try dsimp only)
    | with_reducible refine SlotKeeps.trans ?_ (State.scoreHold_keeps ..)
    | exact CoreKeeps.mk rfl rfl rfl rfl rfl rfl rfl rfl rfl rfl
    | split
    | with_reducible refine SlotKeeps.record ?_ ?_ _ _ _ _ _

theorem vBin_keeps (t : ElTy) (lat : Nat) (f : Nat → Nat → Nat × BitVec 7) (d a b : BitVec 4) (x y m c : BitVec 1) (s : State) : OutKeeps s (vBin t lat f d a b x y m c s) := by
  unfold vBin
  refine vRun_keeps _ _ _ ?_
  dsimp only
  with_reducible refine SlotKeeps.trans ?_ (State.vPush_keeps ..)
  with_reducible refine SlotKeeps.trans ?_ (State.elements_keeps ..)
  with_reducible refine SlotKeeps.trans ?_ (State.opB_keeps ..)
  with_reducible exact State.opA_keeps ..

theorem vUn_keeps (w lat : Nat) (f : Nat → Nat × BitVec 7) (d a : BitVec 4) (x m : BitVec 1) (s : State) : OutKeeps s (vUn w lat f d a x m s) := by
  unfold vUn
  refine vRun_keeps _ _ _ ?_
  dsimp only
  with_reducible refine SlotKeeps.trans ?_ (State.vPush_keeps ..)
  with_reducible refine SlotKeeps.trans ?_ (State.elements_keeps ..)
  with_reducible exact State.opA_keeps ..

theorem vWhole_keeps (f : Vec → Vec → List Vec) (d a b : BitVec 4) (x y m c : BitVec 1) (s : State) : OutKeeps s (vWhole f d a b x y m c s) := by
  unfold vWhole
  refine vRun_keeps _ _ _ ?_
  dsimp only
  with_reducible refine SlotKeeps.trans ?_ (State.vPush_keeps ..)
  with_reducible refine SlotKeeps.trans ?_ (State.elements_keeps ..)
  with_reducible refine SlotKeeps.trans ?_ (State.opB_keeps ..)
  with_reducible exact State.opA_keeps ..

theorem vCmp_keeps (t : ElTy) (cond : Nat → Nat → Bool) (a b : BitVec 4) (x y m c : BitVec 1) (s : State) : OutKeeps s (vCmp t cond a b x y m c s) := by
  unfold vCmp
  iterate 16 all_goals try first
    | with_reducible exact SlotKeeps.refl _
    | (refine vRun_keeps _ _ _ ?_; try dsimp only)
    | with_reducible refine SlotKeeps.trans ?_ (State.issueFault_keeps ..)
    | with_reducible refine SlotKeeps.trans ?_ (State.opA_keeps ..)
    | with_reducible refine SlotKeeps.trans ?_ (State.opB_keeps ..)
    | with_reducible refine SlotKeeps.trans ?_ (State.result_keeps ..)
    | exact CoreKeeps.mk rfl rfl rfl rfl rfl rfl rfl rfl rfl rfl
    | split
    | with_reducible refine SlotKeeps.record ?_ ?_ _ _ _ _ _

theorem vCvt_keeps (ws ra wd rd : Nat) (sr : Bool) (f : Nat → BitVec 32 → Nat × BitVec 7) (d a : BitVec 4) (x m : BitVec 1) (s : State) : OutKeeps s (vCvt ws ra wd rd sr f d a x m s) := by
  unfold vCvt
  refine vRun_keeps _ _ _ ?_
  dsimp only
  with_reducible refine SlotKeeps.trans ?_ (State.vPush_keeps ..)
  with_reducible refine SlotKeeps.trans ?_ (State.elements_keeps ..)
  with_reducible exact State.opA_keeps ..

theorem vCvtF_keeps (src dst : Fmt) (r : BitVec 3) (o : Ovf) (d a : BitVec 4) (x m : BitVec 1) (s : State) : OutKeeps s (vCvtF src dst r o d a x m s) := by
  unfold vCvtF
  with_reducible apply vCvt_keeps

theorem vCvtToInt_keeps (w : Nat) (r : BitVec 3) (d a : BitVec 4) (x m : BitVec 1) (s : State) : OutKeeps s (vCvtToInt w r d a x m s) := by
  unfold vCvtToInt
  with_reducible apply vCvt_keeps

theorem vCvtOfInt_keeps (r : BitVec 3) (d a : BitVec 4) (x m : BitVec 1) (s : State) : OutKeeps s (vCvtOfInt r d a x m s) := by
  unfold vCvtOfInt
  with_reducible apply vCvt_keeps

theorem vQnt_keeps (dst : Option Fmt) (sr : Bool) (d a b : BitVec 4) (x y m c : BitVec 1) (s : State) : OutKeeps s (vQnt dst sr d a b x y m c s) := by
  unfold vQnt
  refine vRun_keeps _ _ _ ?_
  dsimp only
  with_reducible refine SlotKeeps.trans ?_ (State.vPush_keeps ..)
  with_reducible refine SlotKeeps.trans ?_ (State.elements_keeps ..)
  with_reducible refine SlotKeeps.trans ?_ (State.opB_keeps ..)
  with_reducible exact State.opA_keeps ..

theorem vDqnt_keeps (src : Option Fmt) (d a b : BitVec 4) (x y m c : BitVec 1) (s : State) : OutKeeps s (vDqnt src d a b x y m c s) := by
  unfold vDqnt
  refine vRun_keeps _ _ _ ?_
  dsimp only
  with_reducible refine SlotKeeps.trans ?_ (State.vPush_keeps ..)
  with_reducible refine SlotKeeps.trans ?_ (State.elements_keeps ..)
  with_reducible refine SlotKeeps.trans ?_ (State.opB_keeps ..)
  with_reducible exact State.opA_keeps ..

theorem vAmax_keeps (f : Fmt) (d a : BitVec 4) (x m : BitVec 1) (s : State) : OutKeeps s (vAmax f d a x m s) := by
  unfold vAmax
  refine vRun_keeps _ _ _ ?_
  dsimp only
  with_reducible refine SlotKeeps.trans ?_ (State.vPush_keeps ..)
  with_reducible refine SlotKeeps.trans ?_ (State.elements_keeps ..)
  with_reducible exact State.opA_keeps ..

theorem vRsum_keeps (d a : BitVec 4) (x m : BitVec 1) (s : State) : OutKeeps s (vRsum d a x m s) := by
  unfold vRsum
  refine vRun_keeps _ _ _ ?_
  dsimp only
  with_reducible refine SlotKeeps.trans ?_ (State.vPush_keeps ..)
  with_reducible refine SlotKeeps.trans ?_ (State.elements_keeps ..)
  with_reducible exact State.opA_keeps ..

theorem vMpool_keeps (f : Fmt) (d a : BitVec 4) (x m : BitVec 1) (s : State) : OutKeeps s (vMpool f d a x m s) := by
  unfold vMpool
  refine vRun_keeps _ _ _ ?_
  dsimp only
  with_reducible refine SlotKeeps.trans ?_ (State.vPush_keeps ..)
  with_reducible refine SlotKeeps.trans ?_ (State.elements_keeps ..)
  with_reducible exact State.opA_keeps ..

theorem vFma_keeps (f : Fmt) (d a b : BitVec 4) (x y m c : BitVec 1) (s : State) : OutKeeps s (vFma f d a b x y m c s) := by
  unfold vFma
  refine vRun_keeps _ _ _ ?_
  dsimp only
  with_reducible refine SlotKeeps.trans ?_ (State.vPush_keeps ..)
  with_reducible refine SlotKeeps.trans ?_ (State.elements_keeps ..)
  with_reducible refine SlotKeeps.trans ?_ (State.opC_keeps ..)
  with_reducible refine SlotKeeps.trans ?_ (State.opB_keeps ..)
  with_reducible exact State.opA_keeps ..

theorem vSel_keeps (d a b : BitVec 4) (x y c : BitVec 1) (s : State) : OutKeeps s (vSel d a b x y c s) := by
  unfold vSel
  refine vRun_keeps _ _ _ ?_
  dsimp only
  with_reducible refine SlotKeeps.trans ?_ (State.vPush_keeps ..)
  with_reducible refine SlotKeeps.trans ?_ (State.elements_keeps ..)
  with_reducible refine SlotKeeps.trans ?_ (State.opB_keeps ..)
  with_reducible exact State.opA_keeps ..

theorem vXmov_keeps (d a : BitVec 4) (x : BitVec 1) (s : State) : OutKeeps s (vXmov d a x s) := by
  unfold vXmov
  refine vRun_keeps _ _ _ ?_
  dsimp only
  with_reducible refine SlotKeeps.trans ?_ (State.vPushTagged_keeps ..)
  with_reducible exact State.readN_keeps ..

theorem vLfrd_keeps (d : BitVec 4) (m : BitVec 1) (s : State) : OutKeeps s (vLfrd d m s) := by
  unfold vLfrd
  refine vRun_keeps _ _ _ ?_
  dsimp only
  with_reducible refine SlotKeeps.trans ?_ (State.vPush_keeps ..)
  with_reducible exact State.elements_keeps ..

theorem vLfwr_keeps (a : BitVec 4) (x m : BitVec 1) (s : State) : OutKeeps s (vLfwr a x m s) := by
  unfold vLfwr
  iterate 16 all_goals try first
    | with_reducible exact SlotKeeps.refl _
    | (refine vRun_keeps _ _ _ ?_; try dsimp only)
    | with_reducible refine SlotKeeps.trans ?_ (State.opA_keeps ..)
    | exact CoreKeeps.mk rfl rfl rfl rfl rfl rfl rfl rfl rfl rfl
    | with_reducible refine SlotKeeps.record ?_ ?_ _ _ _ _ _

theorem vRead_keeps (f : Fmt) (op lat nb : Nat) (g : State → Nat × List Vec → List Vec → Nat → Nat × BitVec 7) (d a b : BitVec 4) (x y m : BitVec 1) (s : State) : OutKeeps s (vRead f op lat nb g d a b x y m s) := by
  unfold vRead
  refine vRun_keeps _ _ _ ?_
  dsimp only
  with_reducible refine SlotKeeps.trans ?_ (State.vPush_keeps ..)
  with_reducible refine SlotKeeps.trans ?_ (State.elements_keeps ..)
  with_reducible refine SlotKeeps.trans ?_ (State.opBN_keeps ..)
  with_reducible exact State.opKept_keeps ..

theorem vPoolB_keeps (f : Fmt) (op : Nat) (d a b : BitVec 4) (x y m : BitVec 1) (s : State) : OutKeeps s (vPoolB f op d a b x y m s) := by
  unfold vPoolB
  iterate 16 all_goals try first
    | with_reducible exact SlotKeeps.refl _
    | (refine vRun_keeps _ _ _ ?_; try dsimp only)
    | with_reducible refine SlotKeeps.trans ?_ (State.elements_keeps ..)
    | with_reducible refine SlotKeeps.trans ?_ (State.encFault_keeps ..)
    | with_reducible refine SlotKeeps.trans ?_ (State.opBN_keeps ..)
    | with_reducible refine SlotKeeps.trans ?_ (State.opKept_keeps ..)
    | with_reducible refine SlotKeeps.trans ?_ (State.vPush_keeps ..)
    | split

end Sys2Proof.Machine
end

