-- ==== Sys2Proof/Laws/SlotInstrs.lean ====
section
/-! SUPPORT. What each slot instruction leaves alone before its bundle commits (R191, R193): one lemma per instruction. -/

namespace Sys2Proof.Machine

theorem execAdd_keeps (d a b : BitVec 5) (p : BitVec 2) (s : State) : OutKeeps s (execAdd d a b p s) := by
  unfold execAdd
  iterate 16 all_goals try first
    | with_reducible exact SlotKeeps.refl _
    | with_reducible apply OutKeeps.next
    | with_reducible refine SlotKeeps.trans ?_ (sResult_keeps ..)

theorem execSub_keeps (d a b : BitVec 5) (p : BitVec 2) (s : State) : OutKeeps s (execSub d a b p s) := by
  unfold execSub
  iterate 16 all_goals try first
    | with_reducible exact SlotKeeps.refl _
    | with_reducible apply OutKeeps.next
    | with_reducible refine SlotKeeps.trans ?_ (sResult_keeps ..)

theorem execMul_keeps (d a b : BitVec 5) (p : BitVec 2) (s : State) : OutKeeps s (execMul d a b p s) := by
  unfold execMul
  iterate 16 all_goals try first
    | with_reducible exact SlotKeeps.refl _
    | with_reducible apply OutKeeps.next
    | with_reducible refine SlotKeeps.trans ?_ (sResult_keeps ..)

theorem execMulh_keeps (d a b : BitVec 5) (p : BitVec 2) (s : State) : OutKeeps s (execMulh d a b p s) := by
  unfold execMulh
  iterate 16 all_goals try first
    | with_reducible exact SlotKeeps.refl _
    | with_reducible apply OutKeeps.next
    | with_reducible refine SlotKeeps.trans ?_ (sResult_keeps ..)

theorem execMulhu_keeps (d a b : BitVec 5) (p : BitVec 2) (s : State) : OutKeeps s (execMulhu d a b p s) := by
  unfold execMulhu
  iterate 16 all_goals try first
    | with_reducible exact SlotKeeps.refl _
    | with_reducible apply OutKeeps.next
    | with_reducible refine SlotKeeps.trans ?_ (sResult_keeps ..)

theorem execMin_keeps (d a b : BitVec 5) (p : BitVec 2) (s : State) : OutKeeps s (execMin d a b p s) := by
  unfold execMin
  iterate 16 all_goals try first
    | with_reducible exact SlotKeeps.refl _
    | with_reducible apply OutKeeps.next
    | with_reducible refine SlotKeeps.trans ?_ (sResult_keeps ..)

theorem execMax_keeps (d a b : BitVec 5) (p : BitVec 2) (s : State) : OutKeeps s (execMax d a b p s) := by
  unfold execMax
  iterate 16 all_goals try first
    | with_reducible exact SlotKeeps.refl _
    | with_reducible apply OutKeeps.next
    | with_reducible refine SlotKeeps.trans ?_ (sResult_keeps ..)

theorem execMinu_keeps (d a b : BitVec 5) (p : BitVec 2) (s : State) : OutKeeps s (execMinu d a b p s) := by
  unfold execMinu
  iterate 16 all_goals try first
    | with_reducible exact SlotKeeps.refl _
    | with_reducible apply OutKeeps.next
    | with_reducible refine SlotKeeps.trans ?_ (sResult_keeps ..)

theorem execMaxu_keeps (d a b : BitVec 5) (p : BitVec 2) (s : State) : OutKeeps s (execMaxu d a b p s) := by
  unfold execMaxu
  iterate 16 all_goals try first
    | with_reducible exact SlotKeeps.refl _
    | with_reducible apply OutKeeps.next
    | with_reducible refine SlotKeeps.trans ?_ (sResult_keeps ..)

theorem execAnd_keeps (d a b : BitVec 5) (p : BitVec 2) (s : State) : OutKeeps s (execAnd d a b p s) := by
  unfold execAnd
  iterate 16 all_goals try first
    | with_reducible exact SlotKeeps.refl _
    | with_reducible apply OutKeeps.next
    | with_reducible refine SlotKeeps.trans ?_ (sResult_keeps ..)

theorem execOr_keeps (d a b : BitVec 5) (p : BitVec 2) (s : State) : OutKeeps s (execOr d a b p s) := by
  unfold execOr
  iterate 16 all_goals try first
    | with_reducible exact SlotKeeps.refl _
    | with_reducible apply OutKeeps.next
    | with_reducible refine SlotKeeps.trans ?_ (sResult_keeps ..)

theorem execXor_keeps (d a b : BitVec 5) (p : BitVec 2) (s : State) : OutKeeps s (execXor d a b p s) := by
  unfold execXor
  iterate 16 all_goals try first
    | with_reducible exact SlotKeeps.refl _
    | with_reducible apply OutKeeps.next
    | with_reducible refine SlotKeeps.trans ?_ (sResult_keeps ..)

theorem execAndn_keeps (d a b : BitVec 5) (p : BitVec 2) (s : State) : OutKeeps s (execAndn d a b p s) := by
  unfold execAndn
  iterate 16 all_goals try first
    | with_reducible exact SlotKeeps.refl _
    | with_reducible apply OutKeeps.next
    | with_reducible refine SlotKeeps.trans ?_ (sResult_keeps ..)

theorem execClz_keeps (d a : BitVec 5) (p : BitVec 2) (s : State) : OutKeeps s (execClz d a p s) := by
  unfold execClz
  iterate 16 all_goals try first
    | with_reducible exact SlotKeeps.refl _
    | with_reducible apply OutKeeps.next
    | with_reducible refine SlotKeeps.trans ?_ (sResult_keeps ..)

theorem execPopc_keeps (d a : BitVec 5) (p : BitVec 2) (s : State) : OutKeeps s (execPopc d a p s) := by
  unfold execPopc
  iterate 16 all_goals try first
    | with_reducible exact SlotKeeps.refl _
    | with_reducible apply OutKeeps.next
    | with_reducible refine SlotKeeps.trans ?_ (sResult_keeps ..)

theorem execShl_keeps (d a b : BitVec 5) (p : BitVec 2) (s : State) : OutKeeps s (execShl d a b p s) := by
  unfold execShl
  iterate 16 all_goals try first
    | with_reducible exact SlotKeeps.refl _
    | with_reducible apply OutKeeps.next
    | with_reducible refine SlotKeeps.trans ?_ (sResult_keeps ..)

theorem execShr_keeps (d a b : BitVec 5) (p : BitVec 2) (s : State) : OutKeeps s (execShr d a b p s) := by
  unfold execShr
  iterate 16 all_goals try first
    | with_reducible exact SlotKeeps.refl _
    | with_reducible apply OutKeeps.next
    | with_reducible refine SlotKeeps.trans ?_ (sResult_keeps ..)

theorem execSar_keeps (d a b : BitVec 5) (p : BitVec 2) (s : State) : OutKeeps s (execSar d a b p s) := by
  unfold execSar
  iterate 16 all_goals try first
    | with_reducible exact SlotKeeps.refl _
    | with_reducible apply OutKeeps.next
    | with_reducible refine SlotKeeps.trans ?_ (sResult_keeps ..)

theorem execAddi_keeps (d a i : BitVec 5) (p : BitVec 2) (s : State) : OutKeeps s (execAddi d a i p s) := by
  unfold execAddi
  iterate 16 all_goals try first
    | with_reducible exact SlotKeeps.refl _
    | with_reducible apply OutKeeps.next
    | with_reducible refine SlotKeeps.trans ?_ (sResult_keeps ..)

theorem execShli_keeps (d a n : BitVec 5) (p : BitVec 2) (s : State) : OutKeeps s (execShli d a n p s) := by
  unfold execShli
  iterate 16 all_goals try first
    | with_reducible exact SlotKeeps.refl _
    | with_reducible apply OutKeeps.next
    | with_reducible refine SlotKeeps.trans ?_ (sResult_keeps ..)

theorem execShri_keeps (d a n : BitVec 5) (p : BitVec 2) (s : State) : OutKeeps s (execShri d a n p s) := by
  unfold execShri
  iterate 16 all_goals try first
    | with_reducible exact SlotKeeps.refl _
    | with_reducible apply OutKeeps.next
    | with_reducible refine SlotKeeps.trans ?_ (sResult_keeps ..)

theorem execSari_keeps (d a n : BitVec 5) (p : BitVec 2) (s : State) : OutKeeps s (execSari d a n p s) := by
  unfold execSari
  iterate 16 all_goals try first
    | with_reducible exact SlotKeeps.refl _
    | with_reducible apply OutKeeps.next
    | with_reducible refine SlotKeeps.trans ?_ (sResult_keeps ..)

theorem execPca_keeps (d i : BitVec 5) (p : BitVec 2) (s : State) : OutKeeps s (execPca d i p s) := by
  unfold execPca
  iterate 16 all_goals try first
    | with_reducible exact SlotKeeps.refl _
    | with_reducible apply OutKeeps.next
    | with_reducible refine SlotKeeps.trans ?_ (sResult_keeps ..)

theorem execAddb_keeps (d a : BitVec 5) (p : BitVec 2) (s : State) : OutKeeps s (execAddb d a p s) := by
  unfold execAddb
  iterate 16 all_goals try first
    | with_reducible exact SlotKeeps.refl _
    | with_reducible apply OutKeeps.next
    | with_reducible refine SlotKeeps.trans ?_ (sResult_keeps ..)

theorem execAndb_keeps (d a : BitVec 5) (p : BitVec 2) (s : State) : OutKeeps s (execAndb d a p s) := by
  unfold execAndb
  iterate 16 all_goals try first
    | with_reducible exact SlotKeeps.refl _
    | with_reducible apply OutKeeps.next
    | with_reducible refine SlotKeeps.trans ?_ (sResult_keeps ..)

theorem execOrb_keeps (d a : BitVec 5) (p : BitVec 2) (s : State) : OutKeeps s (execOrb d a p s) := by
  unfold execOrb
  iterate 16 all_goals try first
    | with_reducible exact SlotKeeps.refl _
    | with_reducible apply OutKeeps.next
    | with_reducible refine SlotKeeps.trans ?_ (sResult_keeps ..)

theorem execXorb_keeps (d a : BitVec 5) (p : BitVec 2) (s : State) : OutKeeps s (execXorb d a p s) := by
  unfold execXorb
  iterate 16 all_goals try first
    | with_reducible exact SlotKeeps.refl _
    | with_reducible apply OutKeeps.next
    | with_reducible refine SlotKeeps.trans ?_ (sResult_keeps ..)

theorem execDiv_keeps (d a b : BitVec 5) (p : BitVec 2) (s : State) : OutKeeps s (execDiv d a b p s) := by
  unfold execDiv
  iterate 16 all_goals try first
    | with_reducible exact SlotKeeps.refl _
    | with_reducible apply OutKeeps.next
    | with_reducible refine SlotKeeps.trans ?_ (sResult_keeps ..)

theorem execDivu_keeps (d a b : BitVec 5) (p : BitVec 2) (s : State) : OutKeeps s (execDivu d a b p s) := by
  unfold execDivu
  iterate 16 all_goals try first
    | with_reducible exact SlotKeeps.refl _
    | with_reducible apply OutKeeps.next
    | with_reducible refine SlotKeeps.trans ?_ (sResult_keeps ..)

theorem execRem_keeps (d a b : BitVec 5) (p : BitVec 2) (s : State) : OutKeeps s (execRem d a b p s) := by
  unfold execRem
  iterate 16 all_goals try first
    | with_reducible exact SlotKeeps.refl _
    | with_reducible apply OutKeeps.next
    | with_reducible refine SlotKeeps.trans ?_ (sResult_keeps ..)

theorem execRemu_keeps (d a b : BitVec 5) (p : BitVec 2) (s : State) : OutKeeps s (execRemu d a b p s) := by
  unfold execRemu
  iterate 16 all_goals try first
    | with_reducible exact SlotKeeps.refl _
    | with_reducible apply OutKeeps.next
    | with_reducible refine SlotKeeps.trans ?_ (sResult_keeps ..)

theorem execCmpeq_keeps (d : BitVec 3) (a b : BitVec 5) (p : BitVec 2) (s : State) : OutKeeps s (execCmpeq d a b p s) := by
  unfold execCmpeq
  iterate 16 all_goals try first
    | with_reducible exact SlotKeeps.refl _
    | with_reducible apply OutKeeps.next
    | with_reducible refine SlotKeeps.trans ?_ (sPred_keeps ..)

theorem execCmpne_keeps (d : BitVec 3) (a b : BitVec 5) (p : BitVec 2) (s : State) : OutKeeps s (execCmpne d a b p s) := by
  unfold execCmpne
  iterate 16 all_goals try first
    | with_reducible exact SlotKeeps.refl _
    | with_reducible apply OutKeeps.next
    | with_reducible refine SlotKeeps.trans ?_ (sPred_keeps ..)

theorem execCmplt_keeps (d : BitVec 3) (a b : BitVec 5) (p : BitVec 2) (s : State) : OutKeeps s (execCmplt d a b p s) := by
  unfold execCmplt
  iterate 16 all_goals try first
    | with_reducible exact SlotKeeps.refl _
    | with_reducible apply OutKeeps.next
    | with_reducible refine SlotKeeps.trans ?_ (sPred_keeps ..)

theorem execCmpltu_keeps (d : BitVec 3) (a b : BitVec 5) (p : BitVec 2) (s : State) : OutKeeps s (execCmpltu d a b p s) := by
  unfold execCmpltu
  iterate 16 all_goals try first
    | with_reducible exact SlotKeeps.refl _
    | with_reducible apply OutKeeps.next
    | with_reducible refine SlotKeeps.trans ?_ (sPred_keeps ..)

theorem execCmple_keeps (d : BitVec 3) (a b : BitVec 5) (p : BitVec 2) (s : State) : OutKeeps s (execCmple d a b p s) := by
  unfold execCmple
  iterate 16 all_goals try first
    | with_reducible exact SlotKeeps.refl _
    | with_reducible apply OutKeeps.next
    | with_reducible refine SlotKeeps.trans ?_ (sPred_keeps ..)

theorem execCmpleu_keeps (d : BitVec 3) (a b : BitVec 5) (p : BitVec 2) (s : State) : OutKeeps s (execCmpleu d a b p s) := by
  unfold execCmpleu
  iterate 16 all_goals try first
    | with_reducible exact SlotKeeps.refl _
    | with_reducible apply OutKeeps.next
    | with_reducible refine SlotKeeps.trans ?_ (sPred_keeps ..)

theorem execCmpeqi_keeps (d : BitVec 3) (a i : BitVec 5) (p : BitVec 2) (s : State) : OutKeeps s (execCmpeqi d a i p s) := by
  unfold execCmpeqi
  iterate 16 all_goals try first
    | with_reducible exact SlotKeeps.refl _
    | with_reducible apply OutKeeps.next
    | with_reducible refine SlotKeeps.trans ?_ (sPred_keeps ..)

theorem execCmplti_keeps (d : BitVec 3) (a i : BitVec 5) (p : BitVec 2) (s : State) : OutKeeps s (execCmplti d a i p s) := by
  unfold execCmplti
  iterate 16 all_goals try first
    | with_reducible exact SlotKeeps.refl _
    | with_reducible apply OutKeeps.next
    | with_reducible refine SlotKeeps.trans ?_ (sPred_keeps ..)

theorem execPand_keeps (d a b : BitVec 3) (p : BitVec 2) (s : State) : OutKeeps s (execPand d a b p s) := by
  unfold execPand
  iterate 16 all_goals try first
    | with_reducible exact SlotKeeps.refl _
    | with_reducible apply OutKeeps.next
    | with_reducible refine SlotKeeps.trans ?_ (sPred_keeps ..)

theorem execPor_keeps (d a b : BitVec 3) (p : BitVec 2) (s : State) : OutKeeps s (execPor d a b p s) := by
  unfold execPor
  iterate 16 all_goals try first
    | with_reducible exact SlotKeeps.refl _
    | with_reducible apply OutKeeps.next
    | with_reducible refine SlotKeeps.trans ?_ (sPred_keeps ..)

theorem execPnot_keeps (d a : BitVec 3) (p : BitVec 2) (s : State) : OutKeeps s (execPnot d a p s) := by
  unfold execPnot
  iterate 16 all_goals try first
    | with_reducible exact SlotKeeps.refl _
    | with_reducible apply OutKeeps.next
    | with_reducible refine SlotKeeps.trans ?_ (sPred_keeps ..)

theorem execShw_keeps (r a f : BitVec 5) (p : BitVec 2) (s : State) : OutKeeps s (execShw r a f p s) := by
  unfold execShw
  iterate 16 all_goals try first
    | with_reducible exact SlotKeeps.refl _
    | with_reducible apply OutKeeps.next
    | with_reducible refine SlotKeeps.trans ?_ (State.endOfCycle_keeps ..)
    | with_reducible refine SlotKeeps.trans ?_ (State.illegal_keeps ..)
    | split

theorem execAgw_keeps (g : BitVec 2) (l : BitVec 3) (a f : BitVec 5) (p : BitVec 2) (s : State) : OutKeeps s (execAgw g l a f p s) := by
  unfold execAgw
  iterate 16 all_goals try first
    | with_reducible exact SlotKeeps.refl _
    | with_reducible apply OutKeeps.next
    | with_reducible refine SlotKeeps.trans ?_ (State.endOfCycle_keeps ..)
    | with_reducible refine SlotKeeps.trans ?_ (State.illegal_keeps ..)
    | split

theorem execCrr_keeps (d : BitVec 5) (c : BitVec 10) (p : BitVec 2) (s : State) : OutKeeps s (execCrr d c p s) := by
  unfold execCrr
  iterate 16 all_goals try first
    | with_reducible exact SlotKeeps.refl _
    | with_reducible apply OutKeeps.next
    | with_reducible refine SlotKeeps.trans ?_ (State.illegal_keeps ..)
    | with_reducible refine SlotKeeps.trans ?_ (sResult_keeps ..)
    | split

theorem execCrw_keeps (c a e : BitVec 5) (p : BitVec 2) (s : State) : OutKeeps s (execCrw c a e p s) := by
  unfold execCrw
  iterate 16 all_goals try first
    | with_reducible exact SlotKeeps.refl _
    | with_reducible apply OutKeeps.next
    | with_reducible refine SlotKeeps.trans ?_ (State.endOfCycle_keeps ..)
    | with_reducible refine SlotKeeps.trans ?_ (State.illegal_keeps ..)
    | split

theorem execLds_keeps (sh : BitVec 2) (x y : BitVec 4) (w : BitVec 1) (z : BitVec 3) (s : State) : OutKeeps s (execLds sh x y w z s) := by
  unfold execLds
  iterate 16 all_goals try first
    | with_reducible exact SlotKeeps.refl _
    | refine directForm_keeps _ _ _ _ _ _ _ fun _ => ?_
    | with_reducible refine SlotKeeps.trans ?_ (ldsBody_keeps ..)

theorem execLdsk_keeps (sh : BitVec 2) (x y : BitVec 4) (w : BitVec 1) (z : BitVec 3) (s : State) : OutKeeps s (execLdsk sh x y w z s) := by
  unfold execLdsk
  iterate 16 all_goals try first
    | with_reducible exact SlotKeeps.refl _
    | refine directForm_keeps _ _ _ _ _ _ _ fun _ => ?_
    | with_reducible refine SlotKeeps.trans ?_ (ldsBody_keeps ..)

theorem execSts_keeps (sh : BitVec 2) (x y : BitVec 4) (w : BitVec 1) (z : BitVec 3) (s : State) : OutKeeps s (execSts sh x y w z s) := by
  unfold execSts
  iterate 16 all_goals try first
    | with_reducible exact SlotKeeps.refl _
    | refine directForm_keeps _ _ _ _ _ _ _ fun _ => ?_
    | with_reducible refine SlotKeeps.trans ?_ (stsBody_keeps ..)

theorem execLdsx_keeps (sh : BitVec 2) (x y : BitVec 4) (w : BitVec 1) (z : BitVec 3) (s : State) : OutKeeps s (execLdsx sh x y w z s) := by
  unfold execLdsx
  iterate 16 all_goals try first
    | with_reducible exact SlotKeeps.refl _
    | refine directForm_keeps _ _ _ _ _ _ _ fun _ => ?_
    | with_reducible refine SlotKeeps.trans ?_ (ldsxBody_keeps ..)

theorem execStsx_keeps (sh : BitVec 2) (x y : BitVec 4) (w : BitVec 1) (z : BitVec 3) (s : State) : OutKeeps s (execStsx sh x y w z s) := by
  unfold execStsx
  iterate 16 all_goals try first
    | with_reducible exact SlotKeeps.refl _
    | refine directForm_keeps _ _ _ _ _ _ _ fun _ => ?_
    | with_reducible refine SlotKeeps.trans ?_ (stsxBody_keeps ..)

theorem execLdr_keeps (sh q : BitVec 2) (x y : BitVec 4) (w : BitVec 1) (z : BitVec 3) (s : State) : OutKeeps s (execLdr sh q x y w z s) := by
  unfold execLdr
  iterate 16 all_goals try first
    | with_reducible exact SlotKeeps.refl _
    | refine directForm_keeps _ _ _ _ _ _ _ fun _ => ?_
    | with_reducible refine SlotKeeps.trans ?_ (loadQBody_keeps ..)

theorem execStr_keeps (sh q : BitVec 2) (x y : BitVec 4) (w : BitVec 1) (z : BitVec 3) (s : State) : OutKeeps s (execStr sh q x y w z s) := by
  unfold execStr
  iterate 16 all_goals try first
    | with_reducible exact SlotKeeps.refl _
    | refine directForm_keeps _ _ _ _ _ _ _ fun _ => ?_
    | with_reducible refine SlotKeeps.trans ?_ (storeQBody_keeps ..)

theorem execLdg_keeps (sh q : BitVec 2) (x y : BitVec 4) (w : BitVec 1) (z : BitVec 3) (s : State) : OutKeeps s (execLdg sh q x y w z s) := by
  unfold execLdg
  iterate 16 all_goals try first
    | with_reducible exact SlotKeeps.refl _
    | refine directForm_keeps _ _ _ _ _ _ _ fun _ => ?_
    | with_reducible refine SlotKeeps.trans ?_ (loadQBody_keeps ..)

theorem execLdgk_keeps (sh q : BitVec 2) (x y : BitVec 4) (w : BitVec 1) (z : BitVec 3) (s : State) : OutKeeps s (execLdgk sh q x y w z s) := by
  unfold execLdgk
  iterate 16 all_goals try first
    | with_reducible exact SlotKeeps.refl _
    | refine directForm_keeps _ _ _ _ _ _ _ fun _ => ?_
    | with_reducible refine SlotKeeps.trans ?_ (loadQBody_keeps ..)

theorem execStg_keeps (sh q : BitVec 2) (x y : BitVec 4) (w : BitVec 1) (z : BitVec 3) (s : State) : OutKeeps s (execStg sh q x y w z s) := by
  unfold execStg
  iterate 16 all_goals try first
    | with_reducible exact SlotKeeps.refl _
    | refine directForm_keeps _ _ _ _ _ _ _ fun _ => ?_
    | with_reducible refine SlotKeeps.trans ?_ (storeQBody_keeps ..)

theorem execLdgx_keeps (sh q : BitVec 2) (x y : BitVec 4) (w : BitVec 1) (z : BitVec 3) (s : State) : OutKeeps s (execLdgx sh q x y w z s) := by
  unfold execLdgx
  iterate 16 all_goals try first
    | with_reducible exact SlotKeeps.refl _
    | refine directForm_keeps _ _ _ _ _ _ _ fun _ => ?_
    | with_reducible refine SlotKeeps.trans ?_ (ldgxBody_keeps ..)

theorem execStgx_keeps (sh q : BitVec 2) (x y : BitVec 4) (w : BitVec 1) (z : BitVec 3) (s : State) : OutKeeps s (execStgx sh q x y w z s) := by
  unfold execStgx
  iterate 16 all_goals try first
    | with_reducible exact SlotKeeps.refl _
    | refine directForm_keeps _ _ _ _ _ _ _ fun _ => ?_
    | with_reducible refine SlotKeeps.trans ?_ (stgxBody_keeps ..)

theorem execAtadd_keeps (sh : BitVec 2) (t x y : BitVec 4) (w : BitVec 1) (z : BitVec 3) (s : State) : OutKeeps s (execAtadd sh t x y w z s) := by
  unfold execAtadd
  iterate 16 all_goals try first
    | with_reducible exact SlotKeeps.refl _
    | refine shapeCmd_keeps _ _ _ _ _ ?_
    | with_reducible refine SlotKeeps.trans ?_ (atomicBody_keeps ..)

theorem execAtand_keeps (sh : BitVec 2) (t x y : BitVec 4) (w : BitVec 1) (z : BitVec 3) (s : State) : OutKeeps s (execAtand sh t x y w z s) := by
  unfold execAtand
  iterate 16 all_goals try first
    | with_reducible exact SlotKeeps.refl _
    | refine shapeCmd_keeps _ _ _ _ _ ?_
    | with_reducible refine SlotKeeps.trans ?_ (atomicBody_keeps ..)

theorem execAtor_keeps (sh : BitVec 2) (t x y : BitVec 4) (w : BitVec 1) (z : BitVec 3) (s : State) : OutKeeps s (execAtor sh t x y w z s) := by
  unfold execAtor
  iterate 16 all_goals try first
    | with_reducible exact SlotKeeps.refl _
    | refine shapeCmd_keeps _ _ _ _ _ ?_
    | with_reducible refine SlotKeeps.trans ?_ (atomicBody_keeps ..)

theorem execAtxchg_keeps (sh : BitVec 2) (t x y : BitVec 4) (w : BitVec 1) (z : BitVec 3) (s : State) : OutKeeps s (execAtxchg sh t x y w z s) := by
  unfold execAtxchg
  iterate 16 all_goals try first
    | with_reducible exact SlotKeeps.refl _
    | refine shapeCmd_keeps _ _ _ _ _ ?_
    | with_reducible refine SlotKeeps.trans ?_ (atomicBody_keeps ..)

theorem execAtcas_keeps (sh : BitVec 2) (t x y : BitVec 4) (w : BitVec 1) (z : BitVec 3) (s : State) : OutKeeps s (execAtcas sh t x y w z s) := by
  unfold execAtcas
  iterate 16 all_goals try first
    | with_reducible exact SlotKeeps.refl _
    | refine shapeCmd_keeps _ _ _ _ _ ?_
    | with_reducible refine SlotKeeps.trans ?_ (atomicBody_keeps ..)

theorem execAtfadd_keeps (sh : BitVec 2) (t x y : BitVec 4) (w : BitVec 1) (z : BitVec 3) (s : State) : OutKeeps s (execAtfadd sh t x y w z s) := by
  unfold execAtfadd
  iterate 16 all_goals try first
    | with_reducible exact SlotKeeps.refl _
    | refine shapeCmd_keeps _ _ _ _ _ ?_
    | with_reducible refine SlotKeeps.trans ?_ (atomicBody_keeps ..)

theorem execAtfmax_keeps (sh : BitVec 2) (t x y : BitVec 4) (w : BitVec 1) (z : BitVec 3) (s : State) : OutKeeps s (execAtfmax sh t x y w z s) := by
  unfold execAtfmax
  iterate 16 all_goals try first
    | with_reducible exact SlotKeeps.refl _
    | refine shapeCmd_keeps _ _ _ _ _ ?_
    | with_reducible refine SlotKeeps.trans ?_ (atomicBody_keeps ..)

theorem execFence_keeps (t m : BitVec 4) (o : BitVec 3) (s : State) : OutKeeps s (execFence t m o s) := by
  refine commandForm_keeps _ _ _ ?_
  split
  · exact .refl _
  · exact State.sendCmd_keeps ..

theorem execStk_keeps (sh : BitVec 2) (t x y : BitVec 4) (w : BitVec 1) (z : BitVec 3) (s : State) : OutKeeps s (execStk sh t x y w z s) := by
  unfold execStk
  iterate 16 all_goals try first
    | with_reducible exact SlotKeeps.refl _
    | refine shapeCmd_keeps _ _ _ _ _ ?_
    | with_reducible refine SlotKeeps.trans ?_ (stkBody_keeps ..)

theorem execKcopy_keeps (sh : BitVec 2) (t x y : BitVec 4) (w : BitVec 1) (z : BitVec 3) (s : State) : OutKeeps s (execKcopy sh t x y w z s) := by
  unfold execKcopy
  iterate 16 all_goals try first
    | with_reducible exact SlotKeeps.refl _
    | refine shapeCmd_keeps _ _ _ _ _ ?_
    | with_reducible refine SlotKeeps.trans ?_ (kcopyBody_keeps ..)

theorem execCp_keeps (sh : BitVec 2) (t x y : BitVec 4) (w : BitVec 1) (z : BitVec 3) (s : State) : OutKeeps s (execCp sh t x y w z s) := by
  unfold execCp
  iterate 16 all_goals try first
    | with_reducible exact SlotKeeps.refl _
    | refine shapeCmd_keeps _ _ _ _ _ ?_
    | with_reducible refine SlotKeeps.trans ?_ (cpBody_keeps ..)

theorem execCpq_keeps (sh : BitVec 2) (t x y : BitVec 4) (w : BitVec 1) (z : BitVec 3) (s : State) : OutKeeps s (execCpq sh t x y w z s) := by
  unfold execCpq
  iterate 16 all_goals try first
    | with_reducible exact SlotKeeps.refl _
    | refine shapeCmd_keeps _ _ _ _ _ ?_
    | with_reducible refine SlotKeeps.trans ?_ (cpBody_keeps ..)

theorem execCpblk_keeps (sh : BitVec 2) (t x y : BitVec 4) (w : BitVec 1) (z : BitVec 3) (s : State) : OutKeeps s (execCpblk sh t x y w z s) := by
  unfold execCpblk
  iterate 16 all_goals try first
    | with_reducible exact SlotKeeps.refl _
    | refine shapeCmd_keeps _ _ _ _ _ ?_
    | with_reducible refine SlotKeeps.trans ?_ (cpblkBody_keeps ..)

theorem execPrefr_keeps (sh : BitVec 2) (t x y : BitVec 4) (w : BitVec 1) (z : BitVec 3) (s : State) : OutKeeps s (execPrefr sh t x y w z s) := by
  unfold execPrefr
  iterate 16 all_goals try first
    | with_reducible exact SlotKeeps.refl _
    | refine shapeCmd_keeps _ _ _ _ _ ?_
    | with_reducible refine SlotKeeps.trans ?_ (plainBody_keeps ..)

theorem execBankm_keeps (t : BitVec 4) (b : BitVec 3) (m : BitVec 2) (c : BitVec 4) (s : State) : OutKeeps s (execBankm t b m c s) := by
  unfold execBankm
  iterate 16 all_goals try first
    | with_reducible exact SlotKeeps.refl _
    | refine commandForm_keeps _ _ _ ?_
    | with_reducible refine SlotKeeps.trans ?_ (State.sendCmd_keeps ..)

theorem execReedinv_keeps (sh : BitVec 2) (t x y : BitVec 4) (w : BitVec 1) (z : BitVec 3) (s : State) : OutKeeps s (execReedinv sh t x y w z s) := by
  unfold execReedinv
  iterate 16 all_goals try first
    | with_reducible exact SlotKeeps.refl _
    | refine shapeCmd_keeps _ _ _ _ _ ?_
    | with_reducible refine SlotKeeps.trans ?_ (plainBody_keeps ..)

theorem execColl_keeps (sh : BitVec 2) (t x y : BitVec 4) (w : BitVec 1) (z : BitVec 3) (s : State) : OutKeeps s (execColl sh t x y w z s) := by
  unfold execColl
  iterate 16 all_goals try first
    | with_reducible exact SlotKeeps.refl _
    | refine shapeCmd_keeps _ _ _ _ _ ?_
    | with_reducible refine SlotKeeps.trans ?_ (plainBody_keeps ..)

theorem execDpost_keeps (sh : BitVec 2) (t x y : BitVec 4) (w : BitVec 1) (z : BitVec 3) (s : State) : OutKeeps s (execDpost sh t x y w z s) := by
  unfold execDpost
  iterate 16 all_goals try first
    | with_reducible exact SlotKeeps.refl _
    | refine shapeCmd_keeps _ _ _ _ _ ?_
    | with_reducible refine SlotKeeps.trans ?_ (plainBody_keeps ..)

theorem execGwait_keeps (sh : BitVec 2) (t x y : BitVec 4) (w : BitVec 1) (z : BitVec 3) (s : State) : OutKeeps s (execGwait sh t x y w z s) := by
  unfold execGwait
  iterate 16 all_goals try first
    | with_reducible exact SlotKeeps.refl _
    | refine shapeCmd_keeps _ _ _ _ _ ?_
    | with_reducible refine SlotKeeps.trans ?_ (plainBody_keeps ..)

theorem execLease_keeps (sh : BitVec 2) (t x y : BitVec 4) (w : BitVec 1) (z : BitVec 3) (s : State) : OutKeeps s (execLease sh t x y w z s) := by
  unfold execLease
  iterate 16 all_goals try first
    | with_reducible exact SlotKeeps.refl _
    | refine shapeCmd_keeps _ _ _ _ _ ?_
    | with_reducible refine SlotKeeps.trans ?_ (plainBody_keeps ..)

theorem execLrel_keeps (sh : BitVec 2) (t x y : BitVec 4) (w : BitVec 1) (z : BitVec 3) (s : State) : OutKeeps s (execLrel sh t x y w z s) := by
  unfold execLrel
  iterate 16 all_goals try first
    | with_reducible exact SlotKeeps.refl _
    | refine shapeCmd_keeps _ _ _ _ _ ?_
    | with_reducible refine SlotKeeps.trans ?_ (plainBody_keeps ..)

theorem execMbpost_keeps (sh : BitVec 2) (x y : BitVec 4) (w : BitVec 1) (z : BitVec 3) (s : State) : OutKeeps s (execMbpost sh x y w z s) := by
  unfold execMbpost
  iterate 16 all_goals try first
    | with_reducible exact SlotKeeps.refl _
    | refine shapeCmd_keeps _ _ _ _ _ ?_
    | with_reducible refine SlotKeeps.trans ?_ (mbpostBody_keeps ..)

theorem execMmaBf16Latch_keeps (c l sh : BitVec 2) (w b e k : BitVec 1) (g : BitVec 2) (h : BitVec 1) (s : State) : OutKeeps s (execMmaBf16Latch c l sh w b e k g h s) := by
  unfold execMmaBf16Latch
  with_reducible apply mMma_keeps

theorem execMmaBf16Bank_keeps (c sh : BitVec 2) (w b e k : BitVec 1) (g : BitVec 2) (h : BitVec 1) (j : BitVec 2) (s : State) : OutKeeps s (execMmaBf16Bank c sh w b e k g h j s) := by
  unfold execMmaBf16Bank
  with_reducible apply mMma_keeps

theorem execMmaF16Latch_keeps (c l sh : BitVec 2) (w b e k : BitVec 1) (g : BitVec 2) (h : BitVec 1) (s : State) : OutKeeps s (execMmaF16Latch c l sh w b e k g h s) := by
  unfold execMmaF16Latch
  with_reducible apply mMma_keeps

theorem execMmaF16Bank_keeps (c sh : BitVec 2) (w b e k : BitVec 1) (g : BitVec 2) (h : BitVec 1) (j : BitVec 2) (s : State) : OutKeeps s (execMmaF16Bank c sh w b e k g h j s) := by
  unfold execMmaF16Bank
  with_reducible apply mMma_keeps

theorem execMmaE4m3Latch_keeps (c l sh : BitVec 2) (w b e k : BitVec 1) (g : BitVec 2) (h : BitVec 1) (s : State) : OutKeeps s (execMmaE4m3Latch c l sh w b e k g h s) := by
  unfold execMmaE4m3Latch
  with_reducible apply mMma_keeps

theorem execMmaE4m3Bank_keeps (c sh : BitVec 2) (w b e k : BitVec 1) (g : BitVec 2) (h : BitVec 1) (j : BitVec 2) (s : State) : OutKeeps s (execMmaE4m3Bank c sh w b e k g h j s) := by
  unfold execMmaE4m3Bank
  with_reducible apply mMma_keeps

theorem execMmaE5m2Latch_keeps (c l sh : BitVec 2) (w b e k : BitVec 1) (g : BitVec 2) (h : BitVec 1) (s : State) : OutKeeps s (execMmaE5m2Latch c l sh w b e k g h s) := by
  unfold execMmaE5m2Latch
  with_reducible apply mMma_keeps

theorem execMmaE5m2Bank_keeps (c sh : BitVec 2) (w b e k : BitVec 1) (g : BitVec 2) (h : BitVec 1) (j : BitVec 2) (s : State) : OutKeeps s (execMmaE5m2Bank c sh w b e k g h j s) := by
  unfold execMmaE5m2Bank
  with_reducible apply mMma_keeps

theorem execMmaC4Latch_keeps (c l sh : BitVec 2) (w b e k : BitVec 1) (g : BitVec 2) (h : BitVec 1) (s : State) : OutKeeps s (execMmaC4Latch c l sh w b e k g h s) := by
  unfold execMmaC4Latch
  with_reducible apply mMma_keeps

theorem execMmaC4Bank_keeps (c sh : BitVec 2) (w b e k : BitVec 1) (g : BitVec 2) (h : BitVec 1) (j : BitVec 2) (s : State) : OutKeeps s (execMmaC4Bank c sh w b e k g h j s) := by
  unfold execMmaC4Bank
  with_reducible apply mMma_keeps

theorem execLatch_keeps (l sh : BitVec 2) (w : BitVec 1) (g : BitVec 2) (s : State) : OutKeeps s (execLatch l sh w g s) := by
  unfold execLatch
  with_reducible apply mLatch_keeps

theorem execLatchreed_keeps (l sh : BitVec 2) (w : BitVec 1) (s : State) : OutKeeps s (execLatchreed l sh w s) := by
  unfold execLatchreed
  with_reducible apply mLatchreed_keeps

theorem execDrain_keeps (c sh : BitVec 2) (w : BitVec 1) (t : BitVec 3) (a z : BitVec 1) (g : BitVec 2) (s : State) : OutKeeps s (execDrain c sh w t a z g s) := by
  unfold execDrain
  with_reducible apply mDrain_keeps

theorem execDraint_keeps (c sh : BitVec 2) (w : BitVec 1) (t : BitVec 3) (a z : BitVec 1) (g : BitVec 2) (s : State) : OutKeeps s (execDraint c sh w t a z g s) := by
  unfold execDraint
  with_reducible apply mDrain_keeps

theorem execZero_keeps (c : BitVec 2) (s : State) : OutKeeps s (execZero c s) := by
  unfold execZero
  with_reducible apply mZero_keeps

theorem execLdcbk_keeps (l sh : BitVec 2) (w : BitVec 1) (g : BitVec 2) (s : State) : OutKeeps s (execLdcbk l sh w g s) := by
  unfold execLdcbk
  with_reducible apply mLdcbk_keeps

theorem execLdfmt_keeps (sh : BitVec 2) (w : BitVec 1) (g : BitVec 2) (s : State) : OutKeeps s (execLdfmt sh w g s) := by
  unfold execLdfmt
  with_reducible apply mLdfmt_keeps

theorem execB_keeps (g : BitVec 4) (o : BitVec 14) (s : State) : OutKeeps s (execB g o s) := by
  unfold execB
  iterate 16 all_goals try first
    | with_reducible exact SlotKeeps.refl _
    | with_reducible apply OutKeeps.next
    | with_reducible refine SlotKeeps.trans ?_ (State.jumpIf_keeps ..)

theorem execCall_keeps (g : BitVec 4) (o : BitVec 14) (s : State) : OutKeeps s (execCall g o s) := by
  unfold execCall
  iterate 16 all_goals try first
    | with_reducible exact SlotKeeps.refl _
    | with_reducible apply OutKeeps.next
    | with_reducible refine SlotKeeps.trans ?_ (State.callIf_keeps ..)

theorem execBrmz_keeps (v : BitVec 1) (o : BitVec 14) (s : State) : OutKeeps s (execBrmz v o s) := by
  unfold execBrmz
  iterate 16 all_goals try first
    | with_reducible exact SlotKeeps.refl _
    | with_reducible apply OutKeeps.next
    | with_reducible refine SlotKeeps.trans ?_ (State.illegal_keeps ..)
    | with_reducible refine SlotKeeps.trans ?_ (State.jumpIf_keeps ..)
    | split

theorem execJmpi_keeps (g : BitVec 4) (r : BitVec 5) (s : State) : OutKeeps s (execJmpi g r s) := by
  unfold execJmpi
  iterate 16 all_goals try first
    | with_reducible exact SlotKeeps.refl _
    | with_reducible apply OutKeeps.next
    | with_reducible refine SlotKeeps.trans ?_ (State.jumpIf_keeps ..)

theorem execCalli_keeps (g : BitVec 4) (r : BitVec 5) (s : State) : OutKeeps s (execCalli g r s) := by
  unfold execCalli
  iterate 16 all_goals try first
    | with_reducible exact SlotKeeps.refl _
    | with_reducible apply OutKeeps.next
    | with_reducible refine SlotKeeps.trans ?_ (State.callIf_keeps ..)

theorem execRet_keeps (g : BitVec 4) (r : BitVec 5) (s : State) : OutKeeps s (execRet g r s) := by
  unfold execRet
  iterate 16 all_goals try first
    | with_reducible exact SlotKeeps.refl _
    | with_reducible apply OutKeeps.next
    | with_reducible refine SlotKeeps.trans ?_ (State.jumpIf_keeps ..)

theorem execGuard_keeps (m : BitVec 2) (a b c d : BitVec 4) (s : State) : OutKeeps s (execGuard m a b c d s) := by
  unfold execGuard
  iterate 16 all_goals try first
    | with_reducible exact SlotKeeps.refl _
    | with_reducible apply OutKeeps.next
    | with_reducible refine SlotKeeps.trans ?_ (State.encFault_keeps ..)
    | exact CoreKeeps.mk rfl rfl rfl rfl rfl rfl rfl rfl rfl rfl
    | split
    | with_reducible refine SlotKeeps.record ?_ ?_ _ _ _ _ _

theorem execK_keeps (f l : BitVec 1) (v : BitVec 3) (k : BitVec 18) (s : State) : OutKeeps s (execK f l v k s) := by
  unfold execK
  iterate 16 all_goals try first
    | with_reducible exact SlotKeeps.refl _
    | with_reducible apply OutKeeps.next
    | exact CoreKeeps.mk rfl rfl rfl rfl rfl rfl rfl rfl rfl rfl
    | with_reducible refine SlotKeeps.record ?_ ?_ _ _ _ _ _

theorem execKctl_keeps (f l : BitVec 1) (v : BitVec 3) (b : BitVec 1) (s : State) : OutKeeps s (execKctl f l v b s) := by
  unfold execKctl
  iterate 16 all_goals try first
    | with_reducible exact SlotKeeps.refl _
    | with_reducible apply OutKeeps.next
    | with_reducible refine SlotKeeps.trans ?_ (State.raise_keeps ..)
    | exact CoreKeeps.mk rfl rfl rfl rfl rfl rfl rfl rfl rfl rfl
    | split
    | with_reducible refine SlotKeeps.record ?_ ?_ _ _ _ _ _

theorem execLoop_keeps (l : BitVec 3) (r : BitVec 5) (n : BitVec 6) (s : State) : OutKeeps s (execLoop l r n s) := by
  unfold execLoop
  iterate 16 all_goals try first
    | with_reducible exact SlotKeeps.refl _
    | with_reducible apply OutKeeps.next
    | with_reducible refine SlotKeeps.trans ?_ (State.loopFault_keeps ..)
    | exact CoreKeeps.mk rfl rfl rfl rfl rfl rfl rfl rfl rfl rfl
    | split
    | with_reducible refine SlotKeeps.record ?_ ?_ _ _ _ _ _

theorem execLoopp_keeps (s : BitVec 3) (r : BitVec 5) (n : BitVec 6) (st : State) : OutKeeps st (execLoopp s r n st) := by
  unfold execLoopp
  iterate 16 all_goals try first
    | with_reducible exact SlotKeeps.refl _
    | with_reducible apply OutKeeps.next
    | with_reducible refine SlotKeeps.trans ?_ (State.loopFault_keeps ..)
    | exact CoreKeeps.mk rfl rfl rfl rfl rfl rfl rfl rfl rfl rfl
    | split
    | with_reducible refine SlotKeeps.record ?_ ?_ _ _ _ _ _

theorem execMpush_keeps (v : BitVec 1) (s : State) : OutKeeps s (execMpush v s) := by
  unfold execMpush
  iterate 16 all_goals try first
    | with_reducible exact SlotKeeps.refl _
    | with_reducible apply OutKeeps.next
    | with_reducible refine SlotKeeps.trans ?_ (State.maskOp_keeps ..)

theorem execMinv_keeps (v : BitVec 1) (s : State) : OutKeeps s (execMinv v s) := by
  unfold execMinv
  iterate 16 all_goals try first
    | with_reducible exact SlotKeeps.refl _
    | with_reducible apply OutKeeps.next
    | with_reducible refine SlotKeeps.trans ?_ (State.maskOp_keeps ..)

theorem execMpop_keeps (v : BitVec 1) (s : State) : OutKeeps s (execMpop v s) := by
  unfold execMpop
  iterate 16 all_goals try first
    | with_reducible exact SlotKeeps.refl _
    | with_reducible apply OutKeeps.next
    | with_reducible refine SlotKeeps.trans ?_ (State.maskOp_keeps ..)

theorem execWaitt_keeps (t : BitVec 4) (s : State) : OutKeeps s (execWaitt t s) := by
  unfold execWaitt
  iterate 16 all_goals try first
    | with_reducible exact SlotKeeps.refl _
    | with_reducible apply OutKeeps.next
    | with_reducible refine SlotKeeps.trans ?_ (State.waitIf_keeps ..)

theorem execWaitc_keeps (c r : BitVec 5) (s : State) : OutKeeps s (execWaitc c r s) := by
  unfold execWaitc
  iterate 16 all_goals try first
    | with_reducible exact SlotKeeps.refl _
    | with_reducible apply OutKeeps.next
    | with_reducible refine SlotKeeps.trans ?_ (State.encFault_keeps ..)
    | with_reducible refine SlotKeeps.trans ?_ (State.waitIf_keeps ..)
    | exact CoreKeeps.mk rfl rfl rfl rfl rfl rfl rfl rfl rfl rfl
    | split
    | with_reducible refine SlotKeeps.record ?_ ?_ _ _ _ _ _

theorem execWaitr_keeps (s : State) : OutKeeps s (execWaitr s) := by
  unfold execWaitr
  iterate 16 all_goals try first
    | with_reducible exact SlotKeeps.refl _
    | with_reducible apply OutKeeps.next
    | with_reducible refine SlotKeeps.trans ?_ (State.waitIf_keeps ..)

theorem execBara_keeps (b : BitVec 5) (s : BitVec 3) (q : BitVec 2) (st : State) : OutKeeps st (execBara b s q st) := by
  unfold execBara
  iterate 16 all_goals try first
    | with_reducible exact SlotKeeps.refl _
    | with_reducible apply OutKeeps.next
    | with_reducible refine SlotKeeps.trans ?_ (State.holdOn_keeps ..)
    | with_reducible refine SlotKeeps.trans ?_ (State.illegal_keeps ..)
    | with_reducible refine SlotKeeps.trans ?_ (State.onTask_keeps ..)
    | split

theorem execBarw_keeps (b : BitVec 5) (s : State) : OutKeeps s (execBarw b s) := by
  unfold execBarw
  iterate 16 all_goals try first
    | with_reducible exact SlotKeeps.refl _
    | with_reducible apply OutKeeps.next
    | with_reducible refine SlotKeeps.trans ?_ (State.illegal_keeps ..)
    | with_reducible refine SlotKeeps.trans ?_ (State.waitIf_keeps ..)
    | split

theorem execMbtake_keeps (r : BitVec 5) (s : State) : OutKeeps s (execMbtake r s) := by
  unfold execMbtake
  iterate 16 all_goals try first
    | with_reducible exact SlotKeeps.refl _
    | with_reducible apply OutKeeps.next
    | with_reducible refine SlotKeeps.trans ?_ (State.alignFault_keeps ..)
    | with_reducible refine SlotKeeps.trans ?_ (State.illegal_keeps ..)
    | with_reducible refine SlotKeeps.trans ?_ (State.onFen_keeps ..)
    | with_reducible refine SlotKeeps.trans ?_ (State.result_keeps ..)
    | with_reducible refine SlotKeeps.trans ?_ (State.storePoison_keeps ..)
    | split

/-- A change of one core that keeps what slots keep. -/
theorem State.onCore_keeps (s : State) (k : CoreKey) (f : Core → Core) (hk : ∀ c, (f c).key = c.key)
    (hf : ∀ c, CoreKeeps c (f c)) : SlotKeeps s (s.onCore k f) := by
  have hw := fun w => s.onCore_memWf k f w fun c => (hf c).spWf
  unfold State.onCore State.putCore at *
  rw [hk, State.getCore_key] at *
  by_cases e : s.core.key = k
  · rw [if_pos e] at *
    have hc : s.getCore k = s.core := if_pos e
    exact ⟨rfl, rfl, rfl, rfl, rfl, by rw [hc]; exact hf _, rfl, rfl, rfl, rfl, rfl, hw⟩
  · rw [if_neg e] at *
    exact ⟨rfl, rfl, rfl, rfl, rfl, .refl _, rfl, rfl, rfl, rfl, rfl, hw⟩

theorem execMbreply_keeps (r s : BitVec 5) (st : State) : OutKeeps st (execMbreply r s st) := by
  unfold execMbreply
  apply OutKeeps.next
  split
  · exact State.illegal_keeps ..
  · split
    · exact .refl _
    · dsimp only
      split
      · exact State.onFen_keeps ..
      · exact (State.onFen_keeps ..).trans
          (State.onCore_keeps _ _ _ (fun _ => rfl) fun _ => ⟨rfl, rfl, rfl, rfl, rfl, rfl, rfl, rfl, rfl, rfl⟩)

theorem execLaunch_keeps (r : BitVec 5) (s : State) : OutKeeps s (execLaunch r s) := by
  unfold execLaunch
  iterate 16 all_goals try first
    | with_reducible exact SlotKeeps.refl _
    | with_reducible apply OutKeeps.next
    | with_reducible refine SlotKeeps.trans ?_ (State.holdOn_keeps ..)
    | with_reducible refine SlotKeeps.trans ?_ (State.illegal_keeps ..)
    | with_reducible refine SlotKeeps.trans ?_ (State.onCtx_keeps ..)
    | split

theorem execTrap_keeps (c : BitVec 8) (s : State) : OutKeeps s (execTrap c s) := by
  unfold execTrap
  iterate 16 all_goals try first
    | with_reducible exact SlotKeeps.refl _
    | with_reducible apply OutKeeps.next
    | exact CoreKeeps.mk rfl rfl rfl rfl rfl rfl rfl rfl rfl rfl
    | split
    | with_reducible refine SlotKeeps.record ?_ ?_ _ _ _ _ _

theorem execTret_keeps (s : State) : OutKeeps s (execTret s) := by
  unfold execTret
  iterate 16 all_goals try first
    | with_reducible exact SlotKeeps.refl _
    | with_reducible apply OutKeeps.next
    | with_reducible refine SlotKeeps.trans ?_ (State.illegal_keeps ..)
    | exact CoreKeeps.mk rfl rfl rfl rfl rfl rfl rfl rfl rfl rfl
    | split
    | with_reducible refine SlotKeeps.record ?_ ?_ _ _ _ _ _

theorem execDone_keeps (s : State) : OutKeeps s (execDone s) := by
  unfold execDone
  iterate 16 all_goals try first
    | with_reducible exact SlotKeeps.refl _
    | with_reducible apply OutKeeps.next
    | with_reducible refine SlotKeeps.trans ?_ (State.illegal_keeps ..)
    | exact CoreKeeps.mk rfl rfl rfl rfl rfl rfl rfl rfl rfl rfl
    | split
    | with_reducible refine SlotKeeps.record ?_ ?_ _ _ _ _ _

theorem execVaddF32_keeps (d a b : BitVec 4) (x y m c : BitVec 1) (s : State) : OutKeeps s (execVaddF32 d a b x y m c s) := by
  unfold execVaddF32
  with_reducible apply vBin_keeps

theorem execVsubF32_keeps (d a b : BitVec 4) (x y m c : BitVec 1) (s : State) : OutKeeps s (execVsubF32 d a b x y m c s) := by
  unfold execVsubF32
  with_reducible apply vBin_keeps

theorem execVmulF32_keeps (d a b : BitVec 4) (x y m c : BitVec 1) (s : State) : OutKeeps s (execVmulF32 d a b x y m c s) := by
  unfold execVmulF32
  with_reducible apply vBin_keeps

theorem execVfmaF32_keeps (d a b : BitVec 4) (x y m c : BitVec 1) (s : State) : OutKeeps s (execVfmaF32 d a b x y m c s) := by
  unfold execVfmaF32
  with_reducible apply vFma_keeps

theorem execVminF32_keeps (d a b : BitVec 4) (x y m c : BitVec 1) (s : State) : OutKeeps s (execVminF32 d a b x y m c s) := by
  unfold execVminF32
  with_reducible apply vBin_keeps

theorem execVmaxF32_keeps (d a b : BitVec 4) (x y m c : BitVec 1) (s : State) : OutKeeps s (execVmaxF32 d a b x y m c s) := by
  unfold execVmaxF32
  with_reducible apply vBin_keeps

theorem execVcmpltF32_keeps (a b : BitVec 4) (x y m c : BitVec 1) (s : State) : OutKeeps s (execVcmpltF32 a b x y m c s) := by
  unfold execVcmpltF32
  with_reducible apply vCmp_keeps

theorem execVcmpleF32_keeps (a b : BitVec 4) (x y m c : BitVec 1) (s : State) : OutKeeps s (execVcmpleF32 a b x y m c s) := by
  unfold execVcmpleF32
  with_reducible apply vCmp_keeps

theorem execVaddBf16_keeps (d a b : BitVec 4) (x y m c : BitVec 1) (s : State) : OutKeeps s (execVaddBf16 d a b x y m c s) := by
  unfold execVaddBf16
  with_reducible apply vBin_keeps

theorem execVsubBf16_keeps (d a b : BitVec 4) (x y m c : BitVec 1) (s : State) : OutKeeps s (execVsubBf16 d a b x y m c s) := by
  unfold execVsubBf16
  with_reducible apply vBin_keeps

theorem execVmulBf16_keeps (d a b : BitVec 4) (x y m c : BitVec 1) (s : State) : OutKeeps s (execVmulBf16 d a b x y m c s) := by
  unfold execVmulBf16
  with_reducible apply vBin_keeps

theorem execVfmaBf16_keeps (d a b : BitVec 4) (x y m c : BitVec 1) (s : State) : OutKeeps s (execVfmaBf16 d a b x y m c s) := by
  unfold execVfmaBf16
  with_reducible apply vFma_keeps

theorem execVminBf16_keeps (d a b : BitVec 4) (x y m c : BitVec 1) (s : State) : OutKeeps s (execVminBf16 d a b x y m c s) := by
  unfold execVminBf16
  with_reducible apply vBin_keeps

theorem execVmaxBf16_keeps (d a b : BitVec 4) (x y m c : BitVec 1) (s : State) : OutKeeps s (execVmaxBf16 d a b x y m c s) := by
  unfold execVmaxBf16
  with_reducible apply vBin_keeps

theorem execVcmpltBf16_keeps (a b : BitVec 4) (x y m c : BitVec 1) (s : State) : OutKeeps s (execVcmpltBf16 a b x y m c s) := by
  unfold execVcmpltBf16
  with_reducible apply vCmp_keeps

theorem execVcmpleBf16_keeps (a b : BitVec 4) (x y m c : BitVec 1) (s : State) : OutKeeps s (execVcmpleBf16 a b x y m c s) := by
  unfold execVcmpleBf16
  with_reducible apply vCmp_keeps

theorem execVaddF16_keeps (d a b : BitVec 4) (x y m c : BitVec 1) (s : State) : OutKeeps s (execVaddF16 d a b x y m c s) := by
  unfold execVaddF16
  with_reducible apply vBin_keeps

theorem execVsubF16_keeps (d a b : BitVec 4) (x y m c : BitVec 1) (s : State) : OutKeeps s (execVsubF16 d a b x y m c s) := by
  unfold execVsubF16
  with_reducible apply vBin_keeps

theorem execVmulF16_keeps (d a b : BitVec 4) (x y m c : BitVec 1) (s : State) : OutKeeps s (execVmulF16 d a b x y m c s) := by
  unfold execVmulF16
  with_reducible apply vBin_keeps

theorem execVfmaF16_keeps (d a b : BitVec 4) (x y m c : BitVec 1) (s : State) : OutKeeps s (execVfmaF16 d a b x y m c s) := by
  unfold execVfmaF16
  with_reducible apply vFma_keeps

theorem execVminF16_keeps (d a b : BitVec 4) (x y m c : BitVec 1) (s : State) : OutKeeps s (execVminF16 d a b x y m c s) := by
  unfold execVminF16
  with_reducible apply vBin_keeps

theorem execVmaxF16_keeps (d a b : BitVec 4) (x y m c : BitVec 1) (s : State) : OutKeeps s (execVmaxF16 d a b x y m c s) := by
  unfold execVmaxF16
  with_reducible apply vBin_keeps

theorem execVcmpeqF32_keeps (a b : BitVec 4) (x y m c : BitVec 1) (s : State) : OutKeeps s (execVcmpeqF32 a b x y m c s) := by
  unfold execVcmpeqF32
  with_reducible apply vCmp_keeps

theorem execVcmpeqBf16_keeps (a b : BitVec 4) (x y m c : BitVec 1) (s : State) : OutKeeps s (execVcmpeqBf16 a b x y m c s) := by
  unfold execVcmpeqBf16
  with_reducible apply vCmp_keeps

theorem execVdivF32_keeps (d a b : BitVec 4) (x y m c : BitVec 1) (s : State) : OutKeeps s (execVdivF32 d a b x y m c s) := by
  unfold execVdivF32
  with_reducible apply vBin_keeps

theorem execVsqrtF32_keeps (d a : BitVec 4) (x m : BitVec 1) (s : State) : OutKeeps s (execVsqrtF32 d a x m s) := by
  unfold execVsqrtF32
  with_reducible apply vUn_keeps

theorem execVrsqrtF32_keeps (d a : BitVec 4) (x m : BitVec 1) (s : State) : OutKeeps s (execVrsqrtF32 d a x m s) := by
  unfold execVrsqrtF32
  with_reducible apply vUn_keeps

theorem execVexp2F32_keeps (d a : BitVec 4) (x m : BitVec 1) (s : State) : OutKeeps s (execVexp2F32 d a x m s) := by
  unfold execVexp2F32
  with_reducible apply vUn_keeps

theorem execVlog2F32_keeps (d a : BitVec 4) (x m : BitVec 1) (s : State) : OutKeeps s (execVlog2F32 d a x m s) := by
  unfold execVlog2F32
  with_reducible apply vUn_keeps

theorem execVsel_keeps (d a b : BitVec 4) (x y c : BitVec 1) (s : State) : OutKeeps s (execVsel d a b x y c s) := by
  unfold execVsel
  with_reducible apply vSel_keeps

theorem execVamaxF32_keeps (d a : BitVec 4) (x m : BitVec 1) (s : State) : OutKeeps s (execVamaxF32 d a x m s) := by
  unfold execVamaxF32
  with_reducible apply vAmax_keeps

theorem execVamaxBf16_keeps (d a : BitVec 4) (x m : BitVec 1) (s : State) : OutKeeps s (execVamaxBf16 d a x m s) := by
  unfold execVamaxBf16
  with_reducible apply vAmax_keeps

theorem execVcvtBf16F32_keeps (d a : BitVec 4) (r : BitVec 3) (x m : BitVec 1) (s : State) : OutKeeps s (execVcvtBf16F32 d a r x m s) := by
  unfold execVcvtBf16F32
  with_reducible apply vCvtF_keeps

theorem execVcvtF16F32_keeps (d a : BitVec 4) (r : BitVec 3) (x m : BitVec 1) (s : State) : OutKeeps s (execVcvtF16F32 d a r x m s) := by
  unfold execVcvtF16F32
  with_reducible apply vCvtF_keeps

theorem execVcvtE4m3F32_keeps (d a : BitVec 4) (r : BitVec 3) (t x m : BitVec 1) (s : State) : OutKeeps s (execVcvtE4m3F32 d a r t x m s) := by
  unfold execVcvtE4m3F32
  with_reducible apply vCvtF_keeps

theorem execVcvtE5m2F32_keeps (d a : BitVec 4) (r : BitVec 3) (t x m : BitVec 1) (s : State) : OutKeeps s (execVcvtE5m2F32 d a r t x m s) := by
  unfold execVcvtE5m2F32
  with_reducible apply vCvtF_keeps

theorem execVcvtF32Bf16_keeps (d a : BitVec 4) (x m : BitVec 1) (s : State) : OutKeeps s (execVcvtF32Bf16 d a x m s) := by
  unfold execVcvtF32Bf16
  with_reducible apply vCvtF_keeps

theorem execVcvtF32F16_keeps (d a : BitVec 4) (x m : BitVec 1) (s : State) : OutKeeps s (execVcvtF32F16 d a x m s) := by
  unfold execVcvtF32F16
  with_reducible apply vCvtF_keeps

theorem execVcvtF32E4m3_keeps (d a : BitVec 4) (x m : BitVec 1) (s : State) : OutKeeps s (execVcvtF32E4m3 d a x m s) := by
  unfold execVcvtF32E4m3
  with_reducible apply vCvtF_keeps

theorem execVcvtF32E5m2_keeps (d a : BitVec 4) (x m : BitVec 1) (s : State) : OutKeeps s (execVcvtF32E5m2 d a x m s) := by
  unfold execVcvtF32E5m2
  with_reducible apply vCvtF_keeps

theorem execVcvtI32F32_keeps (d a : BitVec 4) (r : BitVec 3) (x m : BitVec 1) (s : State) : OutKeeps s (execVcvtI32F32 d a r x m s) := by
  unfold execVcvtI32F32
  with_reducible apply vCvtToInt_keeps

theorem execVcvtF32I32_keeps (d a : BitVec 4) (r : BitVec 3) (x m : BitVec 1) (s : State) : OutKeeps s (execVcvtF32I32 d a r x m s) := by
  unfold execVcvtF32I32
  with_reducible apply vCvtOfInt_keeps

theorem execVcvtI8F32_keeps (d a : BitVec 4) (r : BitVec 3) (x m : BitVec 1) (s : State) : OutKeeps s (execVcvtI8F32 d a r x m s) := by
  unfold execVcvtI8F32
  with_reducible apply vCvtToInt_keeps

theorem execVcvtE4m3Bf16_keeps (d a : BitVec 4) (r : BitVec 3) (t x m : BitVec 1) (s : State) : OutKeeps s (execVcvtE4m3Bf16 d a r t x m s) := by
  unfold execVcvtE4m3Bf16
  with_reducible apply vCvtF_keeps

theorem execVrsumF32_keeps (d a : BitVec 4) (x m : BitVec 1) (s : State) : OutKeeps s (execVrsumF32 d a x m s) := by
  unfold execVrsumF32
  with_reducible apply vRsum_keeps

theorem execVqntE4m3_keeps (d a b : BitVec 4) (x y m c : BitVec 1) (s : State) : OutKeeps s (execVqntE4m3 d a b x y m c s) := by
  unfold execVqntE4m3
  with_reducible apply vQnt_keeps

theorem execVqntE4m3Sr_keeps (d a b : BitVec 4) (x y m c : BitVec 1) (s : State) : OutKeeps s (execVqntE4m3Sr d a b x y m c s) := by
  unfold execVqntE4m3Sr
  with_reducible apply vQnt_keeps

theorem execVqntE5m2_keeps (d a b : BitVec 4) (x y m c : BitVec 1) (s : State) : OutKeeps s (execVqntE5m2 d a b x y m c s) := by
  unfold execVqntE5m2
  with_reducible apply vQnt_keeps

theorem execVqntE5m2Sr_keeps (d a b : BitVec 4) (x y m c : BitVec 1) (s : State) : OutKeeps s (execVqntE5m2Sr d a b x y m c s) := by
  unfold execVqntE5m2Sr
  with_reducible apply vQnt_keeps

theorem execVqntI8_keeps (d a b : BitVec 4) (x y m c : BitVec 1) (s : State) : OutKeeps s (execVqntI8 d a b x y m c s) := by
  unfold execVqntI8
  with_reducible apply vQnt_keeps

theorem execVqntI8Sr_keeps (d a b : BitVec 4) (x y m c : BitVec 1) (s : State) : OutKeeps s (execVqntI8Sr d a b x y m c s) := by
  unfold execVqntI8Sr
  with_reducible apply vQnt_keeps

theorem execVdqntE4m3_keeps (d a b : BitVec 4) (x y m c : BitVec 1) (s : State) : OutKeeps s (execVdqntE4m3 d a b x y m c s) := by
  unfold execVdqntE4m3
  with_reducible apply vDqnt_keeps

theorem execVdqntE5m2_keeps (d a b : BitVec 4) (x y m c : BitVec 1) (s : State) : OutKeeps s (execVdqntE5m2 d a b x y m c s) := by
  unfold execVdqntE5m2
  with_reducible apply vDqnt_keeps

theorem execVdqntI8_keeps (d a b : BitVec 4) (x y m c : BitVec 1) (s : State) : OutKeeps s (execVdqntI8 d a b x y m c s) := by
  unfold execVdqntI8
  with_reducible apply vDqnt_keeps

theorem execVreluF32_keeps (d a : BitVec 4) (x m : BitVec 1) (s : State) : OutKeeps s (execVreluF32 d a x m s) := by
  unfold execVreluF32
  with_reducible apply vUn_keeps

theorem execVreluBf16_keeps (d a : BitVec 4) (x m : BitVec 1) (s : State) : OutKeeps s (execVreluBf16 d a x m s) := by
  unfold execVreluBf16
  with_reducible apply vUn_keeps

theorem execVmpoolF32_keeps (d a : BitVec 4) (x m : BitVec 1) (s : State) : OutKeeps s (execVmpoolF32 d a x m s) := by
  unfold execVmpoolF32
  with_reducible apply vMpool_keeps

theorem execVmpoolBf16_keeps (d a : BitVec 4) (x m : BitVec 1) (s : State) : OutKeeps s (execVmpoolBf16 d a x m s) := by
  unfold execVmpoolBf16
  with_reducible apply vMpool_keeps

theorem execVrelubF32_keeps (d a b : BitVec 4) (x y m : BitVec 1) (s : State) : OutKeeps s (execVrelubF32 d a b x y m s) := by
  unfold execVrelubF32
  with_reducible apply vRead_keeps

theorem execVrelubBf16_keeps (d a b : BitVec 4) (x y m : BitVec 1) (s : State) : OutKeeps s (execVrelubBf16 d a b x y m s) := by
  unfold execVrelubBf16
  with_reducible apply vRead_keeps

theorem execVmpoolbF32_keeps (d a b : BitVec 4) (x y m : BitVec 1) (s : State) : OutKeeps s (execVmpoolbF32 d a b x y m s) := by
  unfold execVmpoolbF32
  with_reducible apply vPoolB_keeps

theorem execVmpoolbBf16_keeps (d a b : BitVec 4) (x y m : BitVec 1) (s : State) : OutKeeps s (execVmpoolbBf16 d a b x y m s) := by
  unfold execVmpoolbBf16
  with_reducible apply vPoolB_keeps

theorem execVgelubF32_keeps (d a b : BitVec 4) (x y m : BitVec 1) (s : State) : OutKeeps s (execVgelubF32 d a b x y m s) := by
  unfold execVgelubF32
  with_reducible apply vRead_keeps

theorem execVgelubBf16_keeps (d a b : BitVec 4) (x y m : BitVec 1) (s : State) : OutKeeps s (execVgelubBf16 d a b x y m s) := by
  unfold execVgelubBf16
  with_reducible apply vRead_keeps

theorem execVdropbF32_keeps (d a b : BitVec 4) (x y m : BitVec 1) (s : State) : OutKeeps s (execVdropbF32 d a b x y m s) := by
  unfold execVdropbF32
  with_reducible apply vRead_keeps

theorem execVdropbBf16_keeps (d a b : BitVec 4) (x y m : BitVec 1) (s : State) : OutKeeps s (execVdropbBf16 d a b x y m s) := by
  unfold execVdropbBf16
  with_reducible apply vRead_keeps

theorem execVsmaxbF32_keeps (d a b : BitVec 4) (x y m : BitVec 1) (s : State) : OutKeeps s (execVsmaxbF32 d a b x y m s) := by
  unfold execVsmaxbF32
  with_reducible apply vRead_keeps

theorem execVsmaxbBf16_keeps (d a b : BitVec 4) (x y m : BitVec 1) (s : State) : OutKeeps s (execVsmaxbBf16 d a b x y m s) := by
  unfold execVsmaxbBf16
  with_reducible apply vRead_keeps

theorem execVlnormbF32_keeps (d a b : BitVec 4) (x y m : BitVec 1) (s : State) : OutKeeps s (execVlnormbF32 d a b x y m s) := by
  unfold execVlnormbF32
  with_reducible apply vRead_keeps

theorem execVlnormbBf16_keeps (d a b : BitVec 4) (x y m : BitVec 1) (s : State) : OutKeeps s (execVlnormbBf16 d a b x y m s) := by
  unfold execVlnormbBf16
  with_reducible apply vRead_keeps

theorem execVaddI32_keeps (d a b : BitVec 4) (x y m c : BitVec 1) (s : State) : OutKeeps s (execVaddI32 d a b x y m c s) := by
  unfold execVaddI32
  with_reducible apply vBin_keeps

theorem execVsubI32_keeps (d a b : BitVec 4) (x y m c : BitVec 1) (s : State) : OutKeeps s (execVsubI32 d a b x y m c s) := by
  unfold execVsubI32
  with_reducible apply vBin_keeps

theorem execVmulI32_keeps (d a b : BitVec 4) (x y m c : BitVec 1) (s : State) : OutKeeps s (execVmulI32 d a b x y m c s) := by
  unfold execVmulI32
  with_reducible apply vBin_keeps

theorem execVminI32_keeps (d a b : BitVec 4) (x y m c : BitVec 1) (s : State) : OutKeeps s (execVminI32 d a b x y m c s) := by
  unfold execVminI32
  with_reducible apply vBin_keeps

theorem execVmaxI32_keeps (d a b : BitVec 4) (x y m c : BitVec 1) (s : State) : OutKeeps s (execVmaxI32 d a b x y m c s) := by
  unfold execVmaxI32
  with_reducible apply vBin_keeps

theorem execVcmpeqI32_keeps (a b : BitVec 4) (x y m c : BitVec 1) (s : State) : OutKeeps s (execVcmpeqI32 a b x y m c s) := by
  unfold execVcmpeqI32
  with_reducible apply vCmp_keeps

theorem execVcmpltI32_keeps (a b : BitVec 4) (x y m c : BitVec 1) (s : State) : OutKeeps s (execVcmpltI32 a b x y m c s) := by
  unfold execVcmpltI32
  with_reducible apply vCmp_keeps

theorem execVaddI16_keeps (d a b : BitVec 4) (x y m c : BitVec 1) (s : State) : OutKeeps s (execVaddI16 d a b x y m c s) := by
  unfold execVaddI16
  with_reducible apply vBin_keeps

theorem execVsubI16_keeps (d a b : BitVec 4) (x y m c : BitVec 1) (s : State) : OutKeeps s (execVsubI16 d a b x y m c s) := by
  unfold execVsubI16
  with_reducible apply vBin_keeps

theorem execVaddsI16_keeps (d a b : BitVec 4) (x y m c : BitVec 1) (s : State) : OutKeeps s (execVaddsI16 d a b x y m c s) := by
  unfold execVaddsI16
  with_reducible apply vBin_keeps

theorem execVaddI8_keeps (d a b : BitVec 4) (x y m c : BitVec 1) (s : State) : OutKeeps s (execVaddI8 d a b x y m c s) := by
  unfold execVaddI8
  with_reducible apply vBin_keeps

theorem execVsubI8_keeps (d a b : BitVec 4) (x y m c : BitVec 1) (s : State) : OutKeeps s (execVsubI8 d a b x y m c s) := by
  unfold execVsubI8
  with_reducible apply vBin_keeps

theorem execVaddsI8_keeps (d a b : BitVec 4) (x y m c : BitVec 1) (s : State) : OutKeeps s (execVaddsI8 d a b x y m c s) := by
  unfold execVaddsI8
  with_reducible apply vBin_keeps

theorem execVand_keeps (d a b : BitVec 4) (x y m c : BitVec 1) (s : State) : OutKeeps s (execVand d a b x y m c s) := by
  unfold execVand
  with_reducible apply vBin_keeps

theorem execVor_keeps (d a b : BitVec 4) (x y m c : BitVec 1) (s : State) : OutKeeps s (execVor d a b x y m c s) := by
  unfold execVor
  with_reducible apply vBin_keeps

theorem execVxor_keeps (d a b : BitVec 4) (x y m c : BitVec 1) (s : State) : OutKeeps s (execVxor d a b x y m c s) := by
  unfold execVxor
  with_reducible apply vBin_keeps

theorem execVshl_keeps (d a b : BitVec 4) (x y m c : BitVec 1) (s : State) : OutKeeps s (execVshl d a b x y m c s) := by
  unfold execVshl
  with_reducible apply vBin_keeps

theorem execVshr_keeps (d a b : BitVec 4) (x y m c : BitVec 1) (s : State) : OutKeeps s (execVshr d a b x y m c s) := by
  unfold execVshr
  with_reducible apply vBin_keeps

theorem execVsar_keeps (d a b : BitVec 4) (x y m c : BitVec 1) (s : State) : OutKeeps s (execVsar d a b x y m c s) := by
  unfold execVsar
  with_reducible apply vBin_keeps

theorem execVshuf_keeps (d a b : BitVec 4) (x y m c : BitVec 1) (s : State) : OutKeeps s (execVshuf d a b x y m c s) := by
  unfold execVshuf
  with_reducible apply vWhole_keeps

theorem execVrot_keeps (d a b : BitVec 4) (x y m c : BitVec 1) (s : State) : OutKeeps s (execVrot d a b x y m c s) := by
  unfold execVrot
  with_reducible apply vWhole_keeps

theorem execVzip_keeps (d a b : BitVec 4) (x y m c : BitVec 1) (s : State) : OutKeeps s (execVzip d a b x y m c s) := by
  unfold execVzip
  with_reducible apply vWhole_keeps

theorem execVunzip_keeps (d a b : BitVec 4) (x y m c : BitVec 1) (s : State) : OutKeeps s (execVunzip d a b x y m c s) := by
  unfold execVunzip
  with_reducible apply vWhole_keeps

theorem execVmov_keeps (d a : BitVec 4) (x m : BitVec 1) (s : State) : OutKeeps s (execVmov d a x m s) := by
  unfold execVmov
  with_reducible apply vUn_keeps

theorem execVxmov_keeps (d a : BitVec 4) (x _m : BitVec 1) (s : State) : OutKeeps s (execVxmov d a x _m s) := by
  unfold execVxmov
  with_reducible apply vXmov_keeps

theorem execVdec_keeps (d a : BitVec 4) (_x m : BitVec 1) (s : State) : OutKeeps s (execVdec d a _x m s) := by
  unfold execVdec
  with_reducible apply vDec_keeps

theorem execVlfrd_keeps (d : BitVec 4) (m : BitVec 1) (s : State) : OutKeeps s (execVlfrd d m s) := by
  unfold execVlfrd
  with_reducible apply vLfrd_keeps

theorem execVlfwr_keeps (a : BitVec 4) (x m : BitVec 1) (s : State) : OutKeeps s (execVlfwr a x m s) := by
  unfold execVlfwr
  with_reducible apply vLfwr_keeps

end Sys2Proof.Machine
end

