-- ==== Sys2Proof/Tests/Slice0.lean ====
section
/-! SUPPORT. Tests: the well-formedness checks, words decoded by the encodings of the manual, worked examples of the manual,
and for each statement that has hypotheses a state and operands that meet them. -/

namespace Sys2Proof.Tests

open Sys2Proof Sys2Proof.Machine

set_option maxRecDepth 100000
set_option exponentiation.threshold 65536

/-! ### Helpers -/

/-- The outcome is a next state with this property. -/
def nextWith (o : Host.Outcome State Fault Refusal) (p : State → Bool) : Bool :=
  match o with
  | .next t => p t
  | .fault _ => false
  | .refused _ => false

theorem next_of_nextWith {o : Host.Outcome State Fault Refusal} {p : State → Bool} (h : nextWith o p = true) :
    ∃ t, o = .next t ∧ p t = true := by
  cases o with
  | next t => exact ⟨t, rfl, h⟩
  | fault _ => cases h
  | refused _ => cases h

def okWith {ε α : Type} (e : Except ε α) (p : α → Bool) : Bool :=
  match e with
  | .ok a => p a
  | .error _ => false

theorem ok_of_okWith {ε α : Type} {e : Except ε α} {p : α → Bool} (h : okWith e p = true) : ∃ a, e = .ok a ∧ p a = true := by
  cases e with
  | ok a => exact ⟨a, rfl, h⟩
  | error _ => cases h

def someWith {α : Type} (o : Option α) (p : α → Bool) : Bool := o.elim false p

theorem some_of_someWith {α : Type} {o : Option α} {p : α → Bool} (h : someWith o p = true) : ∃ a, o = some a ∧ p a = true := by
  cases o with
  | some a => exact ⟨a, rfl, h⟩
  | none => cases h

/-- A compute core running at address 0. -/
def core0 : Core := { Core.reset 0 with status := .running }

/-- That core in focus. -/
def s0 : State := { State.reset with core := core0 }

/-- A newt running. -/
def sNewt : State := { State.reset with core := { Core.reset (newtKey 0 132) with status := .running } }

/-- V0 executing, with entries on q0 to q7, an entry whose lanes hold 1 to 64 on q0, and port q12 filled. -/
def sV : State :=
  let e (v : Vec) : QEntry := ⟨v, 0, none⟩
  let count : Vec := BitVec.ofNat 2048 ((List.range 64).foldl (fun n l => n + (l + 1) * 2 ^ (32 * l)) 0)
  let two := [e 0x3F802000_3F80C000, e 0x40000000, e 5, e 6]
  { s0 with
    iss := { Issue.reset with slot := 1 }
    core := { core0 with vs := { core0.vs with
      q := #v[e count :: two, two, two, two, [], [], [], [], [], [], [], [], two, [], [], []] } } }

/-! ### Well-formedness (R192): one ill-formed term for each check -/

theorem test_wf_bc : wellFormed (.vaddF32 0 0 1 0 0 0 1) = false := by decide

theorem test_wf_bc_peek : wellFormed (.vaddF32 0 0 0 0 1 0 1) = false := by decide

theorem test_wf_shw_register : wellFormed (.shw 12 0 0 0) = false := by decide

theorem test_wf_shw_field : wellFormed (.shw 0 0 16 0) = false := by decide

theorem test_wf_agw_base_level : wellFormed (.agw 0 1 0 0 0) = false := by decide

theorem test_wf_agw_field : wellFormed (.agw 0 0 0 5 0) = false := by decide

theorem test_wf_agw_level : wellFormed (.agw 0 6 0 2 0) = false := by decide

theorem test_wf_rounding : wellFormed (.vcvtBf16F32 0 0 5 0 0) = false := by decide

theorem test_wf_scaled : wellFormed (.mmaBf16Latch 0 0 0 0 0 0 0 0 1) = false := by decide

theorem test_wf_drain_type : wellFormed (.drain 0 0 0 5 0 0 0) = false := by decide

theorem test_wf_drain_alt : wellFormed (.drain 0 0 0 2 1 0 0) = false := by decide

theorem test_wf_fence_scope : wellFormed (.fence 0 0 6) = false := by decide

theorem test_wf_bankm_mode : wellFormed (.bankm 0 0 3 0) = false := by decide

theorem test_wf_loop_level : wellFormed (.loop 6 0 0) = false := by decide

theorem test_wf_waitt : wellFormed (.waitt 0) = false := by decide

theorem test_wf_bara_scope : wellFormed (.bara 0 0 0) = false ∧ wellFormed (.bara 0 6 0) = false := by decide

theorem test_wf_level : wellFormed (.k 1 0 6 0) = false ∧ wellFormed (.kctl 0 0 1 0) = false := by decide

theorem test_wf_k_zero : wellFormed (.k 0 0 0 0) = false := by decide

/-! ### Decoding: op values from the grids of R198, R202, R204, R208 and R210, fields placed as R197, R201, R203, R205 to R207,
R209 and R211 place them -/

theorem test_decode_s0 : ∀ p ∈ ([(0x02BF96, .add 0xB 0x1F 0x5 0x2), (0x05510F, .sub 0x15 0x2 0x3 0x3), (0x06464D, .mul 0x4 0xC 0x13 0x1),
    (0x09E89D, .mulh 0x1E 0x11 0x7 0x1), (0x0A3739, .mulhu 0x3 0xE 0xE 0x1), (0x0C81CA, .min 0x8 0x3 0x12 0x2),
    (0x0E2DCD, .max 0x2 0x1B 0x13 0x1), (0x11F457, .minu 0x1F 0x8 0x15 0x3), (0x133F8B, .maxu 0x13 0x1F 0x2 0x3),
    (0x153689, .and 0x13 0xD 0x2 0x1), (0x162971, .or 0x2 0x12 0x1C 0x1), (0x18A717, .xor 0xA 0xE 0x5 0x3),
    (0x1A49AB, .andn 0x4 0x13 0xA 0x3), (0x1DBB01, .clz 0x1B 0x16 0x1), (0x1E4983, .popc 0x4 0x13 0x3),
    (0x2153B1, .shl 0x15 0x7 0xC 0x1)] : List (SlotWord × Instr)), decode .s p.1 = .instr p.2 := by decide

theorem test_decode_s1 : ∀ p ∈ ([(0x232B8F, .shr 0x12 0x17 0x3 0x3), (0x242A1E, .sar 0x2 0x14 0x7 0x2), (0x27693A, .addi 0x16 0x12 0xE 0x2),
    (0x28F9FA, .shli 0xF 0x13 0x1E 0x2), (0x2AC521, .shri 0xC 0xA 0x8 0x1), (0x2D7CA1, .sari 0x17 0x19 0x8 0x1),
    (0x2F302B, .pca 0x13 0xA 0x3), (0x310E82, .addb 0x10 0x1D 0x2), (0x338782, .andb 0x18 0xF 0x2),
    (0x354181, .orb 0x14 0x3 0x1), (0x371701, .xorb 0x11 0xE 0x1), (0x399596, .div 0x19 0xB 0x5 0x2),
    (0x3AE17F, .divu 0xE 0x2 0x1F 0x3), (0x3C3CCB, .rem 0x3 0x19 0x12 0x3), (0x3FAEEE, .remu 0x1A 0x1D 0x1B 0x2),
    (0x403BB3, .cmpeq 0x3 0x17 0xC 0x3)] : List (SlotWord × Instr)), decode .s p.1 = .instr p.2 := by decide

theorem test_decode_s2 : ∀ p ∈ ([(0x4249EA, .cmpne 0x4 0x13 0x1A 0x2), (0x441D8E, .cmplt 0x1 0x1B 0x3 0x2), (0x464BD9, .cmpltu 0x4 0x17 0x16 0x1),
    (0x481C5E, .cmple 0x1 0x18 0x17 0x2), (0x4A69DA, .cmpleu 0x6 0x13 0x16 0x2), (0x4C3BB7, .cmpeqi 0x3 0x17 0xD 0x3),
    (0x4E30FE, .cmplti 0x3 0x1 0x1F 0x2), (0x503115, .pand 0x3 0x2 0x5 0x1), (0x52408A, .por 0x4 0x1 0x2 0x2),
    (0x542301, .pnot 0x2 0x6 0x1), (0x5896B6, .shw 0x9 0xD 0xD 0x2), (0x5AD78F, .agw 0x1 0x5 0xF 0x3 0x3),
    (0x5C9E25, .crr 0x9 0x389 0x1), (0x5FB773, .crw 0x1B 0xE 0x1C 0x3)] : List (SlotWord × Instr)), decode .s p.1 = .instr p.2 := by decide

theorem test_decode_v0 : ∀ p ∈ ([(0x805C7E, .vaddF32 0x5 0xC 0x7 0x1 0x1 0x1 0x0), (0x81233E, .vsubF32 0x2 0x3 0x3 0x1 0x1 0x1 0x0), (0x82EA3E, .vmulF32 0xE 0xA 0x3 0x1 0x1 0x1 0x0),
    (0x83796E, .vfmaF32 0x7 0x9 0x6 0x1 0x1 0x1 0x0), (0x84FEDE, .vminF32 0xF 0xE 0xD 0x1 0x1 0x1 0x0), (0x8528BE, .vmaxF32 0x2 0x8 0xB 0x1 0x1 0x1 0x0),
    (0x86048E, .vcmpltF32 0x4 0x8 0x1 0x1 0x1 0x0), (0x87021E, .vcmpleF32 0x2 0x1 0x1 0x1 0x1 0x0), (0x882E4E, .vaddBf16 0x2 0xE 0x4 0x1 0x1 0x1 0x0),
    (0x89A68E, .vsubBf16 0xA 0x6 0x8 0x1 0x1 0x1 0x0), (0x8A885E, .vmulBf16 0x8 0x8 0x5 0x1 0x1 0x1 0x0), (0x8BC58E, .vfmaBf16 0xC 0x5 0x8 0x1 0x1 0x1 0x0),
    (0x8C3C9E, .vminBf16 0x3 0xC 0x9 0x1 0x1 0x1 0x0), (0x8D96FE, .vmaxBf16 0x9 0x6 0xF 0x1 0x1 0x1 0x0), (0x8E0B4E, .vcmpltBf16 0xB 0x4 0x1 0x1 0x1 0x0),
    (0x8F049E, .vcmpleBf16 0x4 0x9 0x1 0x1 0x1 0x0)] : List (SlotWord × Instr)), decode .v p.1 = .instr p.2 := by decide

theorem test_decode_v1 : ∀ p ∈ ([(0x90D58E, .vaddF16 0xD 0x5 0x8 0x1 0x1 0x1 0x0), (0x91DFCE, .vsubF16 0xD 0xF 0xC 0x1 0x1 0x1 0x0), (0x92248E, .vmulF16 0x2 0x4 0x8 0x1 0x1 0x1 0x0),
    (0x93AFAE, .vfmaF16 0xA 0xF 0xA 0x1 0x1 0x1 0x0), (0x94EB2E, .vminF16 0xE 0xB 0x2 0x1 0x1 0x1 0x0), (0x957DBE, .vmaxF16 0x7 0xD 0xB 0x1 0x1 0x1 0x0),
    (0x9607CE, .vcmpeqF32 0x7 0xC 0x1 0x1 0x1 0x0), (0x97013E, .vcmpeqBf16 0x1 0x3 0x1 0x1 0x1 0x0), (0x98399E, .vdivF32 0x3 0x9 0x9 0x1 0x1 0x1 0x0),
    (0x999C0A, .vsqrtF32 0x9 0xC 0x1 0x1), (0x9AE40A, .vrsqrtF32 0xE 0x4 0x1 0x1), (0x9B540A, .vexp2F32 0x5 0x4 0x1 0x1),
    (0x9CDA0A, .vlog2F32 0xD 0xA 0x1 0x1), (0x9D97EC, .vsel 0x9 0x7 0xE 0x1 0x1 0x0), (0x9EF80A, .vamaxF32 0xF 0x8 0x1 0x1),
    (0x9F930A, .vamaxBf16 0x9 0x3 0x1 0x1)] : List (SlotWord × Instr)), decode .v p.1 = .instr p.2 := by decide

theorem test_decode_v2 : ∀ p ∈ ([(0xA0D30A, .vcvtBf16F32 0xD 0x3 0x0 0x1 0x1), (0xA1338A, .vcvtF16F32 0x3 0x3 0x4 0x1 0x1), (0xA26B1A, .vcvtE4m3F32 0x6 0xB 0x0 0x1 0x1 0x1),
    (0xA3447A, .vcvtE5m2F32 0x4 0x4 0x3 0x1 0x1 0x1), (0xA4910A, .vcvtF32Bf16 0x9 0x1 0x1 0x1), (0xA56A0A, .vcvtF32F16 0x6 0xA 0x1 0x1),
    (0xA6890A, .vcvtF32E4m3 0x8 0x9 0x1 0x1), (0xA7C90A, .vcvtF32E5m2 0xC 0x9 0x1 0x1), (0xA8E84A, .vcvtI32F32 0xE 0x8 0x2 0x1 0x1),
    (0xA9786A, .vcvtF32I32 0x7 0x8 0x3 0x1 0x1), (0xAA724A, .vcvtI8F32 0x7 0x2 0x2 0x1 0x1), (0xABFD5A, .vcvtE4m3Bf16 0xF 0xD 0x2 0x1 0x1 0x1),
    (0xACF30A, .vrsumF32 0xF 0x3 0x1 0x1), (0xB0C27E, .vqntE4m3 0xC 0x2 0x7 0x1 0x1 0x1 0x0), (0xB1C79E, .vqntE4m3Sr 0xC 0x7 0x9 0x1 0x1 0x1 0x0),
    (0xB2662E, .vqntE5m2 0x6 0x6 0x2 0x1 0x1 0x1 0x0)] : List (SlotWord × Instr)), decode .v p.1 = .instr p.2 := by decide

theorem test_decode_v3 : ∀ p ∈ ([(0xB38C1E, .vqntE5m2Sr 0x8 0xC 0x1 0x1 0x1 0x1 0x0), (0xB42FDE, .vqntI8 0x2 0xF 0xD 0x1 0x1 0x1 0x0), (0xB551FE, .vqntI8Sr 0x5 0x1 0xF 0x1 0x1 0x1 0x0),
    (0xB6EFBE, .vdqntE4m3 0xE 0xF 0xB 0x1 0x1 0x1 0x0), (0xB7C62E, .vdqntE5m2 0xC 0x6 0x2 0x1 0x1 0x1 0x0), (0xB8F25E, .vdqntI8 0xF 0x2 0x5 0x1 0x1 0x1 0x0),
    (0xB9AE0A, .vreluF32 0xA 0xE 0x1 0x1), (0xBA5E0A, .vreluBf16 0x5 0xE 0x1 0x1), (0xBB160A, .vmpoolF32 0x1 0x6 0x1 0x1),
    (0xBCA30A, .vmpoolBf16 0xA 0x3 0x1 0x1), (0xBD235E, .vrelubF32 0x2 0x3 0x5 0x1 0x1 0x1), (0xBEF5BE, .vrelubBf16 0xF 0x5 0xB 0x1 0x1 0x1),
    (0xBF89BE, .vmpoolbF32 0x8 0x9 0xB 0x1 0x1 0x1), (0xC0D15E, .vmpoolbBf16 0xD 0x1 0x5 0x1 0x1 0x1), (0xC1C99E, .vgelubF32 0xC 0x9 0x9 0x1 0x1 0x1),
    (0xC2F82E, .vgelubBf16 0xF 0x8 0x2 0x1 0x1 0x1)] : List (SlotWord × Instr)), decode .v p.1 = .instr p.2 := by decide

theorem test_decode_v4 : ∀ p ∈ ([(0xC395CE, .vdropbF32 0x9 0x5 0xC 0x1 0x1 0x1), (0xC44EFE, .vdropbBf16 0x4 0xE 0xF 0x1 0x1 0x1), (0xC51E3E, .vsmaxbF32 0x1 0xE 0x3 0x1 0x1 0x1),
    (0xC6731E, .vsmaxbBf16 0x7 0x3 0x1 0x1 0x1 0x1), (0xC7A4CE, .vlnormbF32 0xA 0x4 0xC 0x1 0x1 0x1), (0xC8335E, .vlnormbBf16 0x3 0x3 0x5 0x1 0x1 0x1),
    (0xD0669E, .vaddI32 0x6 0x6 0x9 0x1 0x1 0x1 0x0), (0xD1463E, .vsubI32 0x4 0x6 0x3 0x1 0x1 0x1 0x0), (0xD2859E, .vmulI32 0x8 0x5 0x9 0x1 0x1 0x1 0x0),
    (0xD35E2E, .vminI32 0x5 0xE 0x2 0x1 0x1 0x1 0x0), (0xD4155E, .vmaxI32 0x1 0x5 0x5 0x1 0x1 0x1 0x0), (0xD50D6E, .vcmpeqI32 0xD 0x6 0x1 0x1 0x1 0x0),
    (0xD601EE, .vcmpltI32 0x1 0xE 0x1 0x1 0x1 0x0), (0xD8211E, .vaddI16 0x2 0x1 0x1 0x1 0x1 0x1 0x0), (0xD9E89E, .vsubI16 0xE 0x8 0x9 0x1 0x1 0x1 0x0),
    (0xDA518E, .vaddsI16 0x5 0x1 0x8 0x1 0x1 0x1 0x0)] : List (SlotWord × Instr)), decode .v p.1 = .instr p.2 := by decide

theorem test_decode_v5 : ∀ p ∈ ([(0xDB5D2E, .vaddI8 0x5 0xD 0x2 0x1 0x1 0x1 0x0), (0xDCCB8E, .vsubI8 0xC 0xB 0x8 0x1 0x1 0x1 0x0), (0xDDFB5E, .vaddsI8 0xF 0xB 0x5 0x1 0x1 0x1 0x0),
    (0xE065BE, .vand 0x6 0x5 0xB 0x1 0x1 0x1 0x0), (0xE1185E, .vor 0x1 0x8 0x5 0x1 0x1 0x1 0x0), (0xE2C95E, .vxor 0xC 0x9 0x5 0x1 0x1 0x1 0x0),
    (0xE3F94E, .vshl 0xF 0x9 0x4 0x1 0x1 0x1 0x0), (0xE4582E, .vshr 0x5 0x8 0x2 0x1 0x1 0x1 0x0), (0xE5FF4E, .vsar 0xF 0xF 0x4 0x1 0x1 0x1 0x0),
    (0xE863AE, .vshuf 0x6 0x3 0xA 0x1 0x1 0x1 0x0), (0xE98FFE, .vrot 0x8 0xF 0xF 0x1 0x1 0x1 0x0), (0xEA18BE, .vzip 0x1 0x8 0xB 0x1 0x1 0x1 0x0),
    (0xEB767E, .vunzip 0x7 0x6 0x7 0x1 0x1 0x1 0x0), (0xEC6D0A, .vmov 0x6 0xD 0x1 0x1), (0xED2F0A, .vxmov 0x2 0xF 0x1 0x1),
    (0xEEFC0A, .vdec 0xF 0xC 0x1 0x1)] : List (SlotWord × Instr)), decode .v p.1 = .instr p.2 := by decide

theorem test_decode_v6 : ∀ p ∈ ([(0xF06002, .vlfrd 0x6 0x1), (0xF1070A, .vlfwr 0x7 0x1 0x1)] : List (SlotWord × Instr)), decode .v p.1 = .instr p.2 := by decide

theorem test_decode_m0 : ∀ p ∈ ([(0x0D5FC0, .mmaBf16Latch 0x2 0x2 0x2 0x1 0x1 0x1 0x1 0x3 0x1), (0x0E3EE2, .mmaBf16Bank 0x3 0x1 0x1 0x1 0x1 0x1 0x1 0x1 0x2), (0x13DF40, .mmaF16Latch 0x1 0x3 0x2 0x1 0x1 0x1 0x1 0x2 0x1),
    (0x165F62, .mmaF16Bank 0x3 0x2 0x1 0x1 0x1 0x1 0x2 0x1 0x2), (0x1D5F40, .mmaE4m3Latch 0x2 0x2 0x2 0x1 0x1 0x1 0x1 0x2 0x1), (0x1A3FE2, .mmaE4m3Bank 0x1 0x1 0x1 0x1 0x1 0x1 0x3 0x1 0x2),
    (0x255EC0, .mmaE5m2Latch 0x2 0x2 0x2 0x1 0x1 0x1 0x1 0x1 0x1), (0x263FE1, .mmaE5m2Bank 0x3 0x1 0x1 0x1 0x1 0x1 0x3 0x1 0x1), (0x2F5F40, .mmaC4Latch 0x3 0x2 0x2 0x1 0x1 0x1 0x1 0x2 0x1),
    (0x2C5F62, .mmaC4Bank 0x2 0x2 0x1 0x1 0x1 0x1 0x2 0x1 0x2), (0x317100, .latch 0x2 0x3 0x1 0x2), (0x393000, .latchreed 0x2 0x1 0x1),
    (0x42504D, .drain 0x1 0x2 0x1 0x4 0x1 0x1 0x1), (0x4C704D, .draint 0x2 0x3 0x1 0x4 0x1 0x1 0x1), (0x520000, .zero 0x1),
    (0x58F180, .ldcbk 0x1 0x3 0x1 0x3)] : List (SlotWord × Instr)), decode .m p.1 = .instr p.2 := by decide

theorem test_decode_m1 : ∀ p ∈ ([(0x607080, .ldfmt 0x3 0x1 0x1)] : List (SlotWord × Instr)), decode .m p.1 = .instr p.2 := by decide

theorem test_decode_c0 : ∀ p ∈ ([(0x070D1F, .lds 0x3 0xD 0x1 0x1 0x7), (0x0904AE, .ldsk 0x1 0x4 0xA 0x1 0x6), (0x0F053D, .sts 0x3 0x5 0x3 0x1 0x5),
    (0x1307C9, .ldsx 0x3 0x7 0xC 0x1 0x1), (0x15059C, .stsx 0x1 0x5 0x9 0x1 0x4), (0x1A4DA9, .ldr 0x2 0x1 0xD 0xA 0x1 0x1),
    (0x1F885E, .str 0x3 0x2 0x8 0x5 0x1 0x6), (0x218949, .ldg 0x1 0x2 0x9 0x4 0x1 0x1), (0x26CB59, .ldgk 0x2 0x3 0xB 0x5 0x1 0x1),
    (0x298FB9, .stg 0x1 0x2 0xF 0xB 0x1 0x1), (0x2E4B7A, .ldgx 0x2 0x1 0xB 0x7 0x1 0x2), (0x324C6B, .stgx 0x2 0x1 0xC 0x6 0x1 0x3),
    (0x43741E, .atadd 0x3 0x7 0x4 0x1 0x1 0x6), (0x47248B, .atand 0x3 0x2 0x4 0x8 0x1 0x3), (0x49484F, .ator 0x1 0x4 0x8 0x4 0x1 0x7),
    (0x4E2A8A, .atxchg 0x2 0x2 0xA 0x8 0x1 0x2)] : List (SlotWord × Instr)), decode .c p.1 = .instr p.2 := by decide

theorem test_decode_c1 : ∀ p ∈ ([(0x527FBD, .atcas 0x2 0x7 0xF 0xB 0x1 0x5), (0x55F719, .atfadd 0x1 0xF 0x7 0x1 0x1 0x1), (0x5B371A, .atfmax 0x3 0x3 0x7 0x1 0x1 0x2),
    (0x6078A0, .fence 0x7 0x8 0x5), (0x66C22B, .stk 0x2 0xC 0x2 0x2 0x1 0x3), (0x693BF9, .kcopy 0x1 0x3 0xB 0xF 0x1 0x1),
    (0x6EBC7B, .cp 0x2 0xB 0xC 0x7 0x1 0x3), (0x72321B, .cpq 0x2 0x3 0x2 0x1 0x1 0x3), (0x7567FD, .cpblk 0x1 0x6 0x7 0xF 0x1 0x5),
    (0x7976DF, .prefr 0x1 0x7 0x6 0xD 0x1 0x7), (0x7CD901, .bankm 0xD 0x4 0x2 0x1), (0x83846A, .reedinv 0x3 0x8 0x4 0x6 0x1 0x2),
    (0x866CF9, .coll 0x2 0x6 0xC 0xF 0x1 0x1), (0x8B74D9, .dpost 0x3 0x7 0x4 0xD 0x1 0x1), (0x8E182B, .gwait 0x2 0x1 0x8 0x2 0x1 0x3),
    (0x91C2FB, .lease 0x1 0xC 0x2 0xF 0x1 0x3)] : List (SlotWord × Instr)), decode .c p.1 = .instr p.2 := by decide

theorem test_decode_c2 : ∀ p ∈ ([(0x966A1E, .lrel 0x2 0x6 0xA 0x1 0x1 0x6), (0x9B0C6B, .mbpost 0x3 0xC 0x6 0x1 0x3)] : List (SlotWord × Instr)), decode .c p.1 = .instr p.2 := by decide

theorem test_decode_l0 : ∀ p ∈ ([(0x046E2F, .b 0x1 0x2E2F), (0x0B661E, .call 0xD 0x261E), (0x0E018E, .brmz 0x1 0x18E),
    (0x139000, .jmpi 0xE 0x8), (0x14A000, .calli 0x2 0x10), (0x1B3E00, .ret 0xC 0x1F),
    (0x1ED7D5, .guard 0x2 0xD 0x7 0xD 0x5), (0x22EE00, .loop 0x5 0x1B 0x20), (0x257A00, .loopp 0x2 0x1E 0x20),
    (0x2A0000, .mpush 0x1), (0x2E0000, .minv 0x1), (0x320000, .mpop 0x1),
    (0x438000, .waitt 0xE), (0x46F900, .waitc 0x17 0x19), (0x480000, .waitr),
    (0x4CB100, .bara 0x5 0x4 0x1)] : List (SlotWord × Instr)), decode .l p.1 = .instr p.2 := by decide

theorem test_decode_l1 : ∀ p ∈ ([(0x516000, .barw 0xB), (0x638000, .mbtake 0x1C), (0x656F00, .mbreply 0xB 0xF),
    (0x698000, .launch 0xC), (0x6F2400, .trap 0xC9), (0x700000, .tret),
    (0x740000, .done)] : List (SlotWord × Instr)), decode .l p.1 = .instr p.2 := by decide

theorem test_decode_k0 : ∀ p ∈ ([(0xAB02F5, .k 0x1 0x0 0x5 0x302F5), (0xAE0000, .kctl 0x1 0x0 0x5 0x1)] : List (SlotWord × Instr)), decode .k p.1 = .instr p.2 := by decide

/-! ### Words that the manual writes out (R212's example, R249, R292, R300 and their neighbours), and reserved values -/

theorem test_words_s : decode .s 0x263278 = .instr (.addi 3 4 0x1E 0) ∧ decode .s 0x443214 = .instr (.cmplt 3 4 5 0) := by decide

theorem test_words_v : decode .v 0x832C01 = .instr (.vfmaF32 2 12 0 0 0 0 1)
    ∧ decode .v 0xA01080 = .instr (.vcvtBf16F32 1 0 4 0 0) := by decide

theorem test_words_m : decode .m 0x088800 = .instr (.mmaBf16Latch 0 1 0 0 1 0 0 0 0)
    ∧ decode .m 0x404016 = .instr (.drain 0 2 0 1 0 1 2) ∧ decode .m 0x500000 = .instr (.zero 0)
    ∧ decode .m 0x1E2662 = .instr (.mmaE4m3Bank 3 1 0 0 1 1 0 1 2)
    ∧ decode .m 0x2A41C0 = .instr (.mmaC4Latch 1 0 2 0 0 0 0 3 1)
    ∧ decode .m 0x312180 = .instr (.latch 2 1 0 3) := by decide

theorem test_words_cl : decode .c 0x6D3200 = .instr (.cp 1 3 2 0 0 0) ∧ decode .c 0x218000 = .instr (.ldg 1 2 0 0 0 0)
    ∧ decode .l 0x1C1000 = .instr (.guard 0 1 0 0 0) ∧ decode .k 0x00FE00 = .instr (.k 0 0 0 0xFE00) := by decide

theorem test_words_reserved : decode .s 0x600000 = .illegal ∧ decode .v 0x020000 = .illegal ∧ decode .m 0x680000 = .illegal
    ∧ decode .c 0xA00000 = .illegal ∧ decode .l 0x800000 = .illegal ∧ decode .s 0x58C000 = .enc ∧ decode .l 0x400000 = .enc
    ∧ decode .m 0x080800 = .instr (.mmaBf16Latch 0 0 0 0 1 0 0 0 0) ∧ decode .m 0x080840 = .enc := by decide

/-- The bundle of R212's example, as its three little-endian words give it. -/
theorem test_bundle_slots :
    let b : Bundle := 0x00FE001C10000000#64 ++ 0x006D320008880000#64 ++ 0x0000832C01000000#64
    slotWord b 0 = 0 ∧ slotWord b 1 = 0x832C01 ∧ slotWord b 2 = 0 ∧ slotWord b 3 = 0x088800 ∧ slotWord b 4 = 0x6D3200
      ∧ slotWord b 5 = 0 ∧ slotWord b 6 = 0x1C1000 ∧ slotWord b 7 = 0x00FE00 := by decide

/-! ### Worked examples -/

/-- The last result that an instruction puts in flight. -/
def lastResult (i : Instr) (s : State) : Option (Nat × Landing) :=
  match exec i s with
  | .next t => t.iss.newInfl.getLast?.map fun x => (x.rem, x.what)
  | .fault _ => none
  | .refused _ => none

/-- s1 = −2^63, s2 = −1, s3 = 7. -/
def sDiv : State :=
  { s0 with core := ((core0.ws 1 0x8000000000000000).ws 2 0xFFFFFFFFFFFFFFFF).ws 3 7 }

/-- R216: a division by zero, and the one that overflows. -/
theorem test_div_corners : lastResult (.div 4 3 0 0) sDiv = some (24, .sreg 4 0xFFFFFFFFFFFFFFFF)
    ∧ lastResult (.rem 4 3 0 0) sDiv = some (24, .sreg 4 7) ∧ lastResult (.div 4 1 2 0) sDiv = some (24, .sreg 4 0x8000000000000000)
    ∧ lastResult (.rem 4 1 2 0) sDiv = some (24, .sreg 4 0) := by decide

theorem test_mulh_signed : lastResult (.mulh 4 1 2 0) sDiv = some (3, .sreg 4 0)
    ∧ lastResult (.mulhu 4 1 2 0) sDiv = some (3, .sreg 4 0x7FFFFFFFFFFFFFFF) := by decide

theorem test_sar_copies_sign : lastResult (.sari 4 1 4 0) sDiv = some (1, .sreg 4 0xF800000000000000) := by decide

theorem test_add_wraps : lastResult (.addi 4 2 1 0) sDiv = some (1, .sreg 4 0) := by decide

theorem test_cmp_signed : lastResult (.cmplt 1 1 3 0) sDiv = some (1, .pred 1 true)
    ∧ lastResult (.cmpltu 1 1 3 0) sDiv = some (1, .pred 1 false) := by decide

/-- R220: `crw flg, s5` with 1 clears NX and leaves the other flags. -/
theorem test_crw_flg : (({ s0 with core := { core0 with regs := { core0.regs with flg := 0x7F } } } : State).cregWrite .flg
    1).core.regs.flg = 0x7E := by decide

/-- The narrowing with stochastic rounding worked in the vector chapter: q0 holds the two entries, lane 0's LFSR is 1. -/
theorem test_cvt_stochastic :
    let s : State := { sV with core := { sV.core with vs := { sV.core.vs with
      q := vset sV.core.vs.q 0 (sV.core.queue 1) } } }
    nextWith (exec (.vcvtBf16F32 1 0 4 0 0) s) (fun t => decide (vget t.iss.lfs 0 = 0xC0300002)
      && decide ((t.iss.newInfl.map fun i => (i.rem, match i.what with
        | .push q es => (q.toNat, (es.map fun e => elem 32 e.v 0))
        | _ => (0, []))) = [(3, 1, [0x3F803F81])])
      && t.iss.flg.getLsbD 0) = true := by decide

/-- R60: the broadcast 0x0FE00 reads as FP32 1.0. -/
theorem test_broadcast_one : nextWith (exec (.vmulF32 1 0 0 0 0 0 1) { sV with iss := { sV.iss with bc := 0x0FE00 } })
    (fun t => decide ((t.iss.newInfl.map fun i => match i.what with
      | .push _ es => es.map fun e => elem 32 e.v 1
      | _ => []) = [[2]])) = true := by decide

/-- R68 and R267: VLFRD turns the reset state of lfs into a lane index. -/
theorem test_vlfrd : nextWith (exec (.vlfrd 1 0) sV) (fun t => decide ((t.iss.newInfl.map fun i => match i.what with
      | .push _ es => es.map fun e => elem 32 e.v 63
      | _ => []) = [[64]])) = true := by decide

/-- R239: code 0x21 enters at THND + 192 · 0x21. -/
theorem test_trap_entry : (({ s0 with ctxs := vset s0.ctxs 0 { Ctx.reset with thnd := 0x4000 } } : State).takeTrap
    0x21).core.pc = 0x58C0 := by decide

/-- R224: a LOOP whose count is zero skips its body. -/
theorem test_loop_zero : nextWith (step (State.reset.placeBundle 0 6 0x200080)) (fun t => decide (t.core.pc = 24 * 9)) = true := by decide

/-- R229: MINV with two entries keeps within the entry below. -/
theorem test_minv : nextWith (exec (.minv 0) { s0 with core := { core0 with vs := { core0.vs with mask0 := [0xF0, 0xFF] } } })
    (fun t => decide (t.core.vs.mask0 = [0x0F, 0xFF])) = true := by decide

/-- R232: a counter that has passed the value releases the wait; one behind it does not. -/
theorem test_waitc : (nextWith (exec (.waitc 0 1) { s0 with core := { core0.ws 1 0xFFFFFFFF with regs :=
      { (core0.ws 1 0xFFFFFFFF).regs with ac := vset core0.regs.ac 0 2 } } }) fun t => t.iss.hold.isNone) = true
    ∧ (nextWith (exec (.waitc 0 1) { s0 with core := core0.ws 1 3 }) fun t => t.iss.hold.isSome) = true := by decide

/-- R219: LEVELS written with 0 leaves a generator idle, with 1 it walks if the level's COUNT is not zero. -/
theorem test_agw_arms :
    let u := s0.applyEoc (.agw 0 0 2 3)
    (vget (u.applyEoc (.agw 0 0 1 0)).core.vs.ag 0).walking = false ∧ (vget (u.applyEoc (.agw 0 0 1 1)).core.vs.ag 0).walking = true
      ∧ (vget (s0.applyEoc (.agw 0 0 1 1)).core.vs.ag 0).walking = false := by decide

/-- R12: the Galois step of the example: 1 goes to 0x80200003, and that to 0xC0300002. -/
theorem test_lfsr : lfsNext 1 = 0x80200003 ∧ lfsNext 0x80200003 = 0xC0300002 := by decide

/-- R5: bytes of memory, least significant first, and the canonical form under a write of zero. -/
theorem test_memory : (Memory.writeBytes [] 8 [1, 0, 3]).readBytes 8 3 = [1, 0, 3]
    ∧ ((Memory.writeBytes [] 8 [1, 0, 3]).write 8 0) = [(10, 3)] := by decide

/-! ### Witnesses: states and operands that meet the hypotheses of each statement -/

/-- The next turn is a cycle of core 0, whose bundle at address 0 holds `add s3, s4, #-2` in slot S. -/
def sStep : State := State.reset.placeBundle 0 0 0x263278

def sStepIssue : State :=
  let v := (({ sStep with agenda := [] } : State).focus 0).dueStores
  { v with core := v.core.landDue.tablesReady }

theorem witness_StepKeepsMemoryCanonical :
    ∃ s t, s.memWf = true ∧ step s = .next t ∧ t.memWf = true :=
  ⟨{ State.reset with agenda := [.clock 5] }, { State.reset with time := 5 }, by decide, rfl, by decide⟩

theorem witness_StepKeepsMemoryCanonical_bundle : sStep.memWf = true ∧ ∃ t, step sStep = .next t ∧ t.memWf = true :=
  ⟨by decide, next_of_nextWith (p := State.memWf) (by decide)⟩

theorem witness_DecodeOfEncode : wellFormed (.addi 3 4 0x1E 0) = true ∧ classOf (.addi 3 4 0x1E 0) = some .s := by decide

theorem witness_StepRunsBundle :
    let z := ({ sStep with agenda := [] } : State).focus 0
    let v := z.dueStores
    sStep.agenda = [.issue 0] ∧ z.core.status = .running ∧ z.core.stop = none ∧ z.saveHolds = false
      ∧ (∀ j ∈ z.core.pipes.inflight, j.rem ≠ 0) ∧ v.core.landDue.dfFault = none ∧ v.core.landDue.lateLoad = false
      ∧ ∃ p, sStepIssue.nextBundle = .ok p ∧ (decide (slotWord p.1 0 = 0x263278)
        && (List.range 8).all fun m => m == 0 || decide (slotWord p.1 m = 0)) = true :=
  ⟨by decide, by decide, by decide, by decide, by decide, by decide, by decide, ok_of_okWith
    (p := fun p : Bundle × State => decide (slotWord p.1 0 = 0x263278) && (List.range 8).all fun m => m == 0 || decide (slotWord p.1 m = 0))
    (by decide)⟩

theorem witness_StepRunsBundle_slot : (s0.core.newt && newtIllegal 0 0x263278) = false
    ∧ decode (slotClass 0) 0x263278 = .instr (.addi 3 4 0x1E 0) ∧ s0.core.errs = [] := by decide

/-- The fetched state of StepRunsOneInstruction's bundle is of a compute core. -/
theorem witness_StepRunsOneInstruction : ∃ p, sStepIssue.nextBundle = .ok p ∧ p.2.core.newt = false ∧ p.2.core.errs = [] :=
  let ⟨p, h, e⟩ := ok_of_okWith (e := sStepIssue.nextBundle) (p := fun p => !p.2.core.newt && decide (p.2.core.errs = [])) (by decide)
  ⟨p, h, by simpa using e⟩

theorem witness_ReservedSlotFaults : (s0.core.newt && newtIllegal 0 0x600000) = false ∧ decode (slotClass 0) 0x600000 = .illegal
    ∧ decode (slotClass 0) 0x58C000 = .enc ∧ s0.illegalToo (slotClass 0) 0x58C000 = false ∧ sNewt.core.newt = true := by decide

/-- A V0 word with BC and b, whose destination is q12 besides (R251). -/
theorem witness_ReservedSlotFaults_both :
    decode (slotClass 1) 0x88C011 = .enc ∧ s0.illegalToo (slotClass 1) 0x88C011 = true := by decide

theorem witness_SlotInstructionFrame : (classOf (.mpush 0)).isSome = true ∧ ∃ t, exec (.mpush 0) s0 = .next t :=
  ⟨by decide, _, rfl⟩

theorem witness_FaultStopsBeforeBundle :
    let s : State := { s0 with iss := { Issue.reset with fault := some ⟨3, 0, 0x03, 0, false, 1, 0⟩ } }
    s.iss.hold = none ∧ s.iss.claim = false ∧ s.iss.overflow = none ∧ s.iss.fault = some ⟨3, 0, 0x03, 0, false, 1, 0⟩ := by decide

theorem witness_FaultStopsBeforeBundle_overflow :
    let i : Issue := { Issue.reset with
      occ := vset (vset Issue.reset.occ 0 4) 3 4, pushes := vset (vset Issue.reset.pushes 0 1) 3 1
      pushSlot := vset (vset Issue.reset.pushSlot 0 4) 3 1 }
    let full (r : Nat) : Prop := vget i.pops r + 4 < vget i.occ r + vget i.pushes r
    i.hold = none ∧ i.fault = none ∧ full 3 ∧ full 0
      ∧ (∀ r, r < 16 → full r → vget i.pushSlot 3 ≤ vget i.pushSlot r ∧ (r < 3 → vget i.pushSlot 3 < vget i.pushSlot r))
      ∧ vget i.pushSlot 3 = 1
      ∧ ({ i with fault := some ⟨3, 2, 0x03, 0, false, 1, 0⟩ } : Issue).fault = some ⟨3, 2, 0x03, 0, false, 1, 0⟩ ∧ 1 < 2
      ∧ ({ i with fault := some ⟨3, 0, 0x03, 0, false, 1, 0⟩ } : Issue).fault = some ⟨3, 0, 0x03, 0, false, 1, 0⟩ ∧ 0 < 1 := by
  decide

theorem witness_HeldBundleReissues :
    ∃ (s : State) (w : Wait), s.iss.hold = some w ∧ ∀ c v, w ≠ .counter c v :=
  ⟨{ s0 with iss := { Issue.reset with hold := some (.token 1) } }, .token 1, rfl, fun _ _ h => nomatch h⟩

theorem witness_NextBundleFollows : s0.iss.hold = none ∧ s0.iss.claim = false ∧ s0.iss.overflow = none ∧ s0.iss.fault = none
    ∧ s0.iss.freeze = none ∧ s0.iss.next = none ∧ s0.iss.loopReq = none ∧ s0.iss.trap = none ∧ s0.iss.tret = false
    ∧ s0.iss.done = false ∧ s0.core.anyLevel = false := by decide

/-- A write of s1 is due, and another has two cycles left. -/
def cDue : Core := { core0 with pipes := { core0.pipes with inflight := [⟨0, 0, 0, .sreg 1 5⟩, ⟨2, 0, 0, .sreg 2 6⟩] } }

theorem witness_ResultLandsWhenDue : cDue.pipes.inflight = ⟨0, 0, 0, .sreg 1 5⟩ :: [⟨2, 0, 0, .sreg 2 6⟩]
    ∧ (∀ i ∈ [(⟨2, 0, 0, .sreg 2 6⟩ : Inflight)], i.rem ≠ 0) := by decide

/-- Pushes of q3 by V1 and V0, and a load to q3 that has arrived. -/
def cPush : Core :=
  { core0 with pipes := { core0.pipes with
    inflight := [⟨0, 2, 1, .push 3 [⟨7, 0, none⟩]⟩, ⟨0, 1, 1, .push 3 [⟨6, 0, none⟩]⟩, ⟨0, 4, 1, .loadQ 3 9⟩,
      ⟨1, 1, 1, .push 3 [⟨8, 0, none⟩]⟩]
    acc := [⟨9, 4, 0, 0, .global, false, false, [⟨0, List.replicate 256 1, 256, 0, true⟩], true, false, [], false⟩] } }

theorem witness_PushesEnterInOrder : (∀ i ∈ cPush.pipes.inflight, i.slot < 8) ∧ cPush.lateNow = false ∧ cPush.dueLoads.Nodup
    ∧ (cPush.landDue.queue 3).length = 3 ∧ ((cPush.landDue.queue 3).map (·.v)).take 2 = [6, 7] := by decide

/-- The same with the load's data not there, and a push of C1's slot behind it. -/
def cLate : Core :=
  { core0 with pipes := { core0.pipes with
    inflight := ⟨0, 5, 1, .push 3 [⟨9, 0, none⟩]⟩ :: cPush.pipes.inflight
    acc := [⟨9, 4, 0, 0, .global, false, false, [⟨0, [], 256, 0, false⟩], false, false, [], false⟩] } }

theorem test_late_load_holds_what_is_behind : cLate.lateNow = true ∧ cLate.dueLoads.Nodup
    ∧ ((cLate.landDue.queue 3).map (·.v)) = [6, 7] ∧ ((cLate.pushesDue 3).takeWhile fun w => !cLate.lateFor w).length = 2
    ∧ cLate.landDue.pipes.inflight.length = 3 := by decide

theorem witness_TrapEntryAndReturn :
    let s : State := { s0 with ctxs := vset s0.ctxs 0 { Ctx.reset with thnd := 0x4000 } }
    s.core.held = none ∧ s.ctx.thnd.extractLsb' 0 57 ≠ 0 ∧ s0.ctx.thnd.extractLsb' 0 57 = 0 := by decide

theorem witness_ScalarResults : sWrites s0 (.add 1 2 3 0) = some (0, 1, .sreg 1 0) ∧ s0.activeS 0 = true
    ∧ sWrites s0 (.add 1 2 3 1) = some (1, 1, .sreg 1 0) ∧ s0.activeS 1 = false := by decide

theorem witness_FieldWrites : s0.activeS 0 = true ∧ s0.core.newt = false ∧ sNewt.activeS 0 = true ∧ sNewt.core.newt = true := by decide

theorem witness_ControlRegisters : s0.creg 0 = some .flg ∧ s0.creg ((0 : BitVec 5) ++ (1 : BitVec 5)) = some .mxc
    ∧ s0.activeS 0 = true ∧ s0.creg 0x3FF = none ∧ s0.creg ((31 : BitVec 5) ++ (31 : BitVec 5)) = none := by decide

/-! ### The V slots -/

theorem witness_VectorArithmetic : sV.active = true ∧ ∃ r, vBinary sV (.vaddBf16 0 0 1 0 0 0 0) = some r ∧ r.portOpen = true :=
  ⟨by decide, some_of_someWith (p := VRun.portOpen) (by decide)⟩

theorem witness_VectorLanewise : (∃ r, vUnary sV (.vreluF32 1 0 0 0) = some r ∧ r.portOpen = true)
    ∧ ∃ r, vLanewise sV (.vfmaF32 2 0 1 0 0 0 0) = some r ∧ r.portOpen = true :=
  ⟨some_of_someWith (p := VRun.portOpen) (by decide), some_of_someWith (p := VRun.portOpen) (by decide)⟩

theorem witness_VectorConversions : (∃ r, vConversion sV (.vcvtBf16F32 1 0 4 0 0) = some r ∧ r.portOpen = true)
    ∧ ∃ r, vQuant sV (.vqntI8Sr 4 0 1 0 0 0 0) = some r ∧ r.portOpen = true :=
  ⟨some_of_someWith (p := VRun.portOpen) (by decide), some_of_someWith (p := VRun.portOpen) (by decide)⟩

theorem witness_VectorReductionsAndReaders : (∃ r, vReduction sV (.vmpoolF32 1 0 0 0) = some r ∧ r.portOpen = true)
    ∧ ∃ r, vBackward sV (.vrelubF32 4 0 1 0 0 0) = some r ∧ r.portOpen = true :=
  ⟨some_of_someWith (p := VRun.portOpen) (by decide), some_of_someWith (p := VRun.portOpen) (by decide)⟩

theorem witness_VectorCompares : sV.active = true ∧ sV.vIn 0 = true ∧ sV.vIn 1 = true
    ∧ (∃ c, vCompare (.vcmpltI32 0 1 0 0 0 0) = some (.int 32, c, (0, 1), (0, 0, 0, 0)))
    ∧ (∃ p, sV.plainReads 0 false 1 = some p ∧ (p.1.length == 1 && (p.2.plainB (.int 32) 1 0 0).isSome) = true)
    ∧ (sV.core.mask sV.v1).length + sV.core.inflightMasks sV.v1 + sV.iss.compares sV.v1 < 8 :=
  ⟨by decide, by decide, by decide, ⟨_, rfl⟩,
    some_of_someWith (p := fun p : List Vec × State => p.1.length == 1 && (p.2.plainB (.int 32) 1 0 0).isSome) (by decide), by decide⟩

theorem witness_VectorRolesAndGuards : vRoles sV (.vxmov 0 0 0 0) = some false ∧ vRoles sV (.vmov 1 0 0 0) = some true
    ∧ ({ sV with iss := { sV.iss with gated := true } } : State).active = false := by decide

theorem witness_VectorMovesAndDecode : sV.active = true ∧ ownQ sV.v1 0 = true ∧ ownQ (!sV.v1) 6 = true
    ∧ (∃ p, sV.afterReads 0 false 1 = some p ∧ (p.1.length == 1) = true) ∧ sV.vIn 0 = true :=
  ⟨by decide, by decide, by decide, some_of_someWith (p := fun p : List QEntry × State => p.1.length == 1) (by decide), by decide⟩

/-- Port q12's buffers hold 32 bits each. -/
theorem witness_VectorMovesAndDecode_vdec :
    let s : State := { sV with core := { sV.core with vs := { sV.core.vs with
      vdec := vset sV.core.vs.vdec 0 ⟨Vector.replicate 64 ⟨32, 0xFFFFFFFF⟩, 0⟩ } } }
    inPort 12 = true ∧ s.vOut 1 = true ∧ outPort 1 = false
      ∧ ∀ k, k < 64 → (s.vLanes 0).getLsbD k = true → 32 ≤ (vget (vget s.core.vs.vdec 0).bufs k).len := by decide

/-! ### The C slots -/

/-- C0 executing. -/
def sC : State := { s0 with iss := { Issue.reset with slot := 4 } }

/-- q0 in use as a source: one entry. -/
def sC1 : State :=
  { sC with core := { core0 with vs := { core0.vs with q := vset core0.vs.q 0 [⟨5, 0, none⟩] } } }

theorem witness_LocalLoads : sC.active = true ∧ sC.tokensDone 0 0 0 = true ∧ lvBad (sC.ksh 0) = false ∧ qOf (sC.ksh 0) ≤ 11
    ∧ sC.localA (sC.ksh 0) % 256 = 0 ∧ sC.mayRead false 0 256 = true ∧ sC.mayRead true 0 256 = true
    ∧ fld (sC.ksh 0) 143 141 ≤ 5 ∧ sC.mayRead false 0 8 = true ∧ (sC.afterLoad 0 8).mayStore 5 0 8 = true := by decide

theorem witness_LocalStores : sC1.active = true ∧ sC1.tokensDone 0 0 0 = true ∧ lvBad (sC1.ksh 0) = false
    ∧ qOf (sC1.ksh 0) ≤ 11 ∧ sC1.localA (sC1.ksh 0) % 256 = 0
    ∧ (∃ p, sC1.plainReads (BitVec.ofNat 4 (qOf (sC1.ksh 0))) false 1 = some p
      ∧ (p.1.length == 1 && p.2.mayStore 2 0 256) = true)
    ∧ fld (sC1.ksh 0) 143 141 = 0 ∧ sC1.mayStore 2 0 8 = true ∧ sC1.intact 1 (fld (sC1.ksh 0) 148 144) = true :=
  ⟨by decide, by decide, by decide, by decide, by decide,
    some_of_someWith (p := fun p : List Vec × State => p.1.length == 1 && p.2.mayStore 2 0 256) (by decide), by decide, by decide,
    by decide⟩

theorem witness_FarQueueForms : farLoad (.ldg 0 0 0 0 0 0) = some (.global, false, 0, 0, (0, 0, 0), 0)
    ∧ farLoad (.ldr 0 0 0 0 0 0) = some (.window, false, 0, 0, (0, 0, 0), 0)
    ∧ farStore (.stg 0 0 0 0 0 0) = some (.global, 0, 0, (0, 0, 0), 0)
    ∧ sC1.active = true ∧ sC1.tokensDone 0 0 0 = true ∧ sC1.farOk .global (sC1.ksh 0) = true ∧ sC1.farOk .window (sC1.ksh 0) = true
    ∧ ∃ p, sC1.plainReads (BitVec.ofNat 4 (qOf (sC1.ksh 0))) false 1 = some p ∧ (p.1.length == 1) = true :=
  ⟨rfl, rfl, rfl, by decide, by decide, by decide, by decide,
    some_of_someWith (p := fun p : List Vec × State => p.1.length == 1) (by decide)⟩

theorem witness_FarCopies : sC.active = true ∧ sC.tokensDone 0 0 0 = true ∧ lvBad (sC.ksh 0) = false
    ∧ (sC.core.addrA (sC.ksh 0)).toNat < 2 ^ 57 ∧ fld (sC.ksh 0) 143 141 ≤ 5 ∧ (sC.core.addrA (sC.ksh 0)).toNat % 8 = 0
    ∧ sC.mayStore (16 * 2 ^ fld (sC.ksh 0) 140 138 - 1) 0 8 = true ∧ fld (sC.ksh 0) 143 141 = 0
    ∧ sC.intact 1 (fld (sC.ksh 0) 148 144) = true := by decide

theorem witness_CommandForms : sC.active = true ∧ sC.cmdHolds 3 = []
    ∧ (∃ f, sends sC (.atadd 0 3 0 0 0 0) = some f ∧ (sC.cmdHolds f.tok).isEmpty = true)
    ∧ (∃ f, sends sC (.coll 0 3 0 0 0 0) = some f ∧ (sC.cmdHolds f.tok).isEmpty = true) :=
  ⟨by decide, by decide, some_of_someWith (p := fun f : Sends => (sC.cmdHolds f.tok).isEmpty) (by decide),
    some_of_someWith (p := fun f : Sends => (sC.cmdHolds f.tok).isEmpty) (by decide)⟩

/-- STK's reader-table entry kt1 is enabled and well formed (R304). -/
theorem witness_CommandForms_stk :
    let s : State := { sC with
      ctxs := vset sC.ctxs 0 { Ctx.reset with kt := vset Ctx.reset.kt 1 0x4BE20001 }
      core := { sC.core with kar := vset sC.core.kar 0 ⟨BitVec.ofNat 512 (2 ^ 149), 0⟩ } }
    ∃ f, sends s (.stk 0 3 0 0 0 0) = some f ∧ (s.cmdHolds f.tok).isEmpty = true :=
  some_of_someWith (p := fun f : Sends => (sC.cmdHolds f.tok).isEmpty) (by decide)

theorem witness_CommandEnters :
    let s : State := { sC with core := { sC.core with regs := { sC.core.regs with tok := vset sC.core.regs.tok 2 true } } }
    s.active = true ∧ s.iss.hold = none ∧ s.core.pending 2 = true
      ∧ directTokens (.ldg 0 0 2 0 0 0) = some [2, 0, 0] ∧ ([2, 0, 0].filter fun t => s.core.pending t) = [2] := by decide

/-! ### The M slot -/

/-- The M slot executing. -/
def sM : State := { s0 with iss := { Issue.reset with slot := 3 } }

theorem witness_MmaIssues : ∃ m, mmaSlot (.mmaBf16Latch 0 1 0 0 1 0 0 0 0) = some m ∧ (!m.bank && sM.mmaMay m) = true :=
  some_of_someWith (p := fun m => !m.bank && sM.mmaMay m) (by decide)

theorem witness_MmaIssues_bank : ∃ m, mmaSlot (.mmaBf16Bank 0 0 0 0 0 0 0 0 1) = some m ∧ (m.bank && sM.mmaMay m
    && someWith (sM.servedB sM.core.fmtEntry m (sM.mx 0) (tileSectors 1 0 0 (bShape (fmtB sM.core.fmtEntry)))) fun p =>
      (sM.withWindow 0 0 (sM.mmaRowsA m)).windowFree 1 0 (sM.mmaRowsB m p.1) p.2) = true :=
  some_of_someWith (p := fun m => m.bank && sM.mmaMay m
    && someWith (sM.servedB sM.core.fmtEntry m (sM.mx 0) (tileSectors 1 0 0 (bShape (fmtB sM.core.fmtEntry)))) fun p =>
      (sM.withWindow 0 0 (sM.mmaRowsA m)).windowFree 1 0 (sM.mmaRowsB m p.1) p.2) (by decide)

theorem witness_LatchLoads :
    let t := bShape (fmtB sM.core.fmtEntry)
    sM.core.held = none ∧ sM.active = true ∧ sM.core.latchLoading 1 = false ∧ sM.core.latchUsed 1 = false
      ∧ fmtB sM.core.fmtEntry ≤ 4 ∧ tileAligned (shAt (sM.mx 0) 17 0) (shAt (sM.mx 0) 49 32) t.width = true
      ∧ sM.windowFree 0 0 (groupRows 0 0 t) (tileSectors 0 0 0 t) = true ∧ sM.plainSecs (tileSectors 0 0 0 t) = true
      ∧ tileAligned (shAt (sM.mx 0) 248 192) (shAt (sM.mx 0) 287 256) t.width = true := by decide

theorem witness_Drains :
    let ts : TileShape := ⟨32, 64⟩
    sM.core.held = none ∧ sM.active = true ∧ sM.core.accBusy 0 = false ∧ sM.intact 3 0 = true
      ∧ tileAligned (shAt (sM.mx 0) 145 128) (shAt (sM.mx 0) 177 160) ts.width = true
      ∧ sM.windowFree 2 2 (groupRows 0 0 ts) (tileSectors 2 0 0 ts) = true
      ∧ ((drainWrites 2 0 0 ts (List.replicate 32 (List.replicate 64 0))).all fun y => sM.storeClean y.addr y.bytes.length) = true :=
  by decide

theorem witness_MatrixTables : sM.core.held = none ∧ sM.active = true ∧ sM.core.accBusy 0 = false
    ∧ shAt (sM.mx 0) 17 0 % 32 = 0 ∧ sM.windowFree 1 0 [0] [2 ^ 18 / 128] = true ∧ sM.plainSecs [2 ^ 18 / 128] = true
    ∧ vget sM.core.mx.cbkBusy 1 = none ∧ sM.core.cbkUsed 1 = false := by decide

/-- lt1 is loading through a LATCHREED. -/
theorem witness_MatrixHolds : ∃ m, mmaSlot (.mmaBf16Latch 0 1 0 0 1 0 0 0 0) = some m
    ∧ ((({ sM with core := { sM.core with mx := { sM.core.mx with reeds := [⟨1, 0, 64, 0, [], 0, [], none⟩] } } } : State).mmaHold
      sM.core.fmtEntry m).isSome) = true :=
  some_of_someWith (p := fun m => (({ sM with core := { sM.core with mx := { sM.core.mx with
    reeds := [⟨1, 0, 64, 0, [], 0, [], none⟩] } } } : State).mmaHold sM.core.fmtEntry m).isSome) (by decide)

theorem witness_MatrixHolds_handler : ({ sM with core := { sM.core with held := some ⟨[], [], [], 0⟩ } } : State).core.held.isSome
    = true ∧ ({ sM with iss := { sM.iss with gated := true } } : State).active = false := by decide

/-! ### The L and K slots -/

/-- The L slot executing; s5 holds an aligned target, s6 a misaligned and s7 a non-canonical one. -/
def sL : State :=
  { s0 with iss := { Issue.reset with slot := 6 }, core := ((core0.ws 5 0x4000).ws 6 0x4001).ws 7 0x8000000000000000 }

theorem witness_TransfersTaken : sL.active = true ∧ sL.core.sel 0 = true ∧ (BitVec.ofInt 64 ((sL.core.pc.toNat : Int) + 24 * 3)).toNat % 8 = 0
    ∧ (BitVec.ofInt 64 ((sL.core.pc.toNat : Int) + 24 * 3)).toNat < 2 ^ 57 ∧ sL.core.held = none ∧ sL.core.anyLevel = false
    ∧ (sL.core.rs 5).toNat % 8 = 0 ∧ (sL.core.rs 5).toNat < 2 ^ 57 := by decide

/-- A level is active. -/
def sLoop : State :=
  { sL with core := { sL.core with loop := { sL.core.loop with
    lv := vset sL.core.loop.lv 0 ⟨true, false, 3, 0, 0, 24, 0, 1⟩ } } }

theorem witness_TransfersRefused : sL.core.sel 1 = false ∧ sL.active = true ∧ sL.core.sel 0 = true
    ∧ (sL.core.rs 6).toNat % 8 ≠ 0 ∧ (sL.core.rs 7).toNat % 8 = 0 ∧ 2 ^ 57 ≤ (sL.core.rs 7).toNat
    ∧ sLoop.active = true ∧ sLoop.core.held = none ∧ sLoop.core.anyLevel = true := by decide

theorem witness_BranchOnEmptyMask :
    let s : State := { sL with core := { sL.core with vs := { sL.core.vs with mask0 := [0], mask1 := [6] } } }
    s.core.newt = false ∧ s.active = true ∧ activeMask (s.core.mask false) = 0 ∧ activeMask (s.core.mask true) ≠ 0
      ∧ sL.core.mask false = [] ∧ vget s.iss.guards 6 = true ∧ ∃ t, exec (.guard 0 1 0 0 0) s = .next t :=
  ⟨by decide, by decide, by decide, by decide, by decide, by decide, _, rfl⟩

theorem witness_GuardsAndGating : s0.core.newt = false ∧ s0.core.skipBkpt = false
    ∧ ({ s0 with core := { core0 with skipBkpt := true } } : State).core.skipBkpt = true := by decide

theorem witness_LoopsStart : sL.active = true ∧ sL.core.held = none
    ∧ (∀ k, k < 6 → (vget sL.core.loop.lv k).active = true → sL.core.pc.toNat + 24 * 8 ≤ (vget sL.core.loop.lv k).last.toNat)
    ∧ (∀ k, k ≤ 1 → (vget sL.core.loop.lv k).active = false) ∧ (sL.core.rs 5).toNat ≤ 65528 := by decide

theorem witness_LoopGoesRound :
    let ls := sLoop.core.loop
    (vget ls.lv 0).active = true ∧ (vget ls.lv 0).piped = false ∧ (vget ls.lv 0).last = 24
      ∧ (vget ls.lv 0).lidx.toNat + 1 < (vget ls.lv 0).lcnt.toNat
      ∧ (let l2 : LoopSeq := { ls with lv := vset ls.lv 0 ⟨true, false, 3, 2, 0, 24, 0, 1⟩ }
        (vget l2.lv 0).lcnt.toNat ≤ (vget l2.lv 0).lidx.toNat + 1) := by decide

theorem witness_MaskStacks :
    let s : State := { sL with core := { sL.core with vs := { sL.core.vs with mask0 := List.replicate 8 1 } } }
    sL.core.newt = false ∧ sL.active = true ∧ sL.core.mask false = []
      ∧ (sL.core.mask false).length + sL.core.inflightMasks false + sL.iss.compares false + 1 ≤ 8
      ∧ 8 < (s.core.mask false).length + s.core.inflightMasks false + s.iss.compares false + 1
      ∧ s.core.mask false = 1 :: List.replicate 7 1 := by decide

theorem witness_Waits : sL.active = true ∧ sL.iss.hold = none ∧ sL.core.newt = false ∧ (3 : BitVec 5) ≤ 15 := by decide

/-- Core 0 is a member of a task. -/
def sTask : State :=
  { sL with tasks := [⟨0, 0, 0, 0, 0, [0], [], Vector.replicate 32 ⟨0, [], []⟩⟩] }

theorem witness_BarrierArrival : sTask.core.newt = false ∧ sTask.active = true ∧ sTask.arrivalOpen sTask.core.key 4 = false
    ∧ (sTask.taskOf sTask.core.key).isSome = true ∧ sNewt.core.newt = true := by decide

/-- A newt that is its fen's communication master, with an entry for its context. -/
def sMaster : State :=
  { sNewt.onFen 0 (fun f => { f with mailbox := [⟨0, 5, 1, false, [], none⟩] }) with iss := { Issue.reset with slot := 6 } }

theorem witness_NewtPrograms : sMaster.core.fen < 30 ∧ sMaster.isMaster = true ∧ sMaster.active = true
    ∧ (sMaster.core.rs 1).toNat % 16 = 0 ∧ sMaster.core.sp.poison = [] ∧ bit (sMaster.core.rs 2) 43 = false
    ∧ ((vget sMaster.fens 0).mailbox.find? fun e => e.open sMaster.core.ctx.toNat) = some ⟨0, 5, 1, false, [], none⟩
    ∧ sMaster.core.newt = true ∧ sMaster.outstanding 0 < 64 ∧ sL.isMaster = false ∧ sL.core.newt = false
    ∧ ((vget sNewt.fens 0).mailbox.find? fun e => e.open sNewt.core.ctx.toNat) = none := by decide

/-- 64 launches of the context are waiting. -/
theorem witness_NewtPrograms_full :
    let s := sMaster.onCtx 0 fun x => { x with pending := List.replicate 64 ⟨0, 4096, 0, 0, [], none⟩ }
    64 ≤ s.outstanding s.core.ctx.toNat ∧ s.iss.hold = none ∧ s.active = true := by decide

theorem witness_TrapReturnDone : sL.active = true ∧ sL.core.held = none
    ∧ ({ sL with core := { sL.core with held := some ⟨[], [], [], 0⟩ } } : State).core.held.isSome = true := by decide

/-! ### Events: walkers, cores, units -/

/-- Context 0 is running with its first GiB of addresses mapped onto itself, and core 0 runs it. -/
def sRun : State := { s0.plantTables.onCtx 0 fun x => { x with root := 1, state := 2 } with core := core0 }

/-- A launch record at 0x4000 (GRAPH 0x7FFFFFC0, COUNT 2, GMAX 8), its header and its one node (CMASK 1, ENTRY 0x6000) on pages
of their own. -/
def sGraph : State :=
  (((((sRun.plant 0x3008 (natToBytes 8 0x40000083)).plant 0x3010 (natToBytes 8 0x80000083)).plant 0x4000
    (natToBytes 32 (8 * 2 ^ 208 + 2 * 2 ^ 128 + 0x7FFFFFC0))).plant 0x7FFFFFC0 (natToBytes 64 1)).plant 0x80000000
    (natToBytes 64 (2 ^ 384 + 0x6000 * 2 ^ 327))).onCtx 0 fun x => { x with pending := [⟨0, 4096, 0x4000, 0, [], none⟩] }

def readAll (p : List (List Byte) × Option FaultInfo × State) (q : List (List Byte) → Bool) : Bool := p.2.1.isNone && q p.1

theorem all_of_readAll {p : List (List Byte) × Option FaultInfo × State} {q : List (List Byte) → Bool}
    (h : readAll p q = true) : ∃ got u, p = (got, none, u) ∧ q got = true := by
  obtain ⟨got, e, u⟩ := p
  cases e with
  | none => exact ⟨got, u, rfl, by simpa [readAll] using h⟩
  | some f => simp [readAll] at h

/-- The reads of that launch return a record that is taken, of two groups. -/
def tookLaunch (got : List (List Byte)) : Bool :=
  match launchOf 0x4000 sGraph.fenClosed got with
  | .ok (x, carea, nodes) => decide ((LaunchReq.launch ⟨0, 4096, 0x4000, 0, [], none⟩ 0 x carea nodes).groups = 2) && decide (nodes.length = 1)
  | .error _ => false

theorem witness_WalkerEvents_take : (vget sGraph.ctxs 0).pending = [⟨0, 4096, 0x4000, 0, [], none⟩]
    ∧ (vget sGraph.ctxs 0).live = true ∧ sGraph.dieLost 0 = false ∧ sGraph.launchOrdered ⟨0, 4096, 0x4000, 0, [], none⟩ = true
    ∧ ∃ got u, sGraph.readOn 0 0 (launchNext 0x4000) launchReads [] = (got, none, u) ∧ tookLaunch got = true :=
  ⟨by decide, by decide, by decide, by decide, all_of_readAll (by decide)⟩

/-- The count page is not mapped; and the record of another launch holds a reserved bit. -/
theorem witness_WalkerEvents_stopped :
    (∃ f u, sRun.readOn 0 0 (launchNext 0x40000000) launchReads [] = ([], some f, u))
    ∧ sRun.readOn 0 0 (launchNext 0x4000) launchReads [List.replicate 32 255] = ([List.replicate 32 255], none, sRun)
    ∧ (∃ c, launchOf 0x4000 sRun.fenClosed [List.replicate 32 255] = .error c) := by
  refine ⟨?_, by decide, (1, 0), rfl⟩
  have h : (sRun.readOn 0 0 (launchNext 0x40000000) launchReads []).1 = []
      ∧ (sRun.readOn 0 0 (launchNext 0x40000000) launchReads []).2.1.isSome = true := by decide
  obtain ⟨f, hf⟩ := Option.isSome_iff_exists.mp h.2
  exact ⟨f, _, Prod.ext h.1 (Prod.ext hf rfl)⟩

/-- A launch of two groups with one node, none instantiated. -/
def launch0 : Launch := ⟨0, 0, 4096, 0x4000, 0, 0, 0, 2, 0, [⟨1, 0x6000, [], 0, 0, 0, false⟩], Vector.replicate 16 none⟩

def ready0 : ReadyNode := ⟨0, 0, 0, 0, 0, 1, 0, 0, false, false⟩

/-- That launch is outstanding, and its node is ready in fen 0. -/
def sReady : State :=
  { State.reset.onCtx 0 (fun x => { x with state := 2 }) with launches := [launch0] }.onFen 0 fun f => { f with ready := [ready0] }

theorem witness_WalkerEvents_groups : sReady.launch 0 = some launch0 ∧ (launch0.slots.toList.findIdx? (·.isNone)) = some 0
    ∧ launch0.nextGroup < launch0.groups ∧ (vget sReady.ctxs 0).live = true := by decide

theorem witness_WalkerEvents_dispatch : sReady.dieLost 0 = false
    ∧ (∀ y ∈ (vget sReady.fens 0).ready, sReady.agingDue (vget sReady.fens 0) y = false ∧ sReady.refusable y = false)
    ∧ sReady.reservedGo 0 = none ∧ sReady.choose 0 = some (1, ready0) := by decide

theorem witness_WalkerEvents_rest :
    let s := sReady.onFen 0 fun f => { f with ready := [{ ready0 with passed := 4096 }], doneNodes := [⟨0, 0, 0⟩] }
    (vget s.fens 0).ready[0]? = some { ready0 with passed := 4096 } ∧ s.agingDue (vget s.fens 0) { ready0 with passed := 4096 } = true
      ∧ (vget s.fens 0).doneNodes[0]? = some ⟨0, 0, 0⟩ ∧ launch0.nodes[0]? = some ⟨1, 0x6000, [], 0, 0, 0, false⟩
      ∧ (let c := ({ s0 with core := { core0 with status := .finishing } } : State).core.landDue
        c.status = .finishing ∧ c.quiet = true ∧ (vget s0.ctxs c.ctx.toNat).pst = 0)
      ∧ ∀ x ∈ ({ launch0 with nextGroup := 2 } : Launch).slots.toList, x = none := by decide

/-- A node whose priority is 3 and whose count has reached 4,096 a second time reserves. -/
theorem witness_WalkerEvents_reserve :
    let r : ReadyNode := { ready0 with eff := 3, passed := 4096, aged := true }
    let s := sReady.onFen 0 fun f => { f with ready := [r] }
    (vget s.fens 0).ready[0]? = some r ∧ s.agingDue (vget s.fens 0) r = true ∧ 3 ≤ r.eff ∧ r.aged = true
      ∧ (∀ x ∈ (vget s.fens 0).ready, x.same r = false → x.eff < 3 ∨ x.aged = false ∨ s.agingDue (vget s.fens 0) x = false ∨ r.before x = true)
      ∧ ((vget s.fens 0).ready.filter (·.same r)) = [r] := by decide

/-- Core 0 waits for a load to q3 that has not arrived. -/
def acc0 : Access := ⟨9, 4, 0, 0, .global, false, false, [⟨0, List.replicate 256 1, 256, 0, true⟩], false, false, [], false⟩

def sLate : State :=
  { sRun with core := { core0 with pipes := { core0.pipes with inflight := [⟨0, 4, 0, .loadQ 3 9⟩], acc := [acc0] } } }

theorem witness_CoreEvents_loads : sLate.issues (sLate.getCore 0).landDue = true ∧ (sLate.getCore 0).landDue.lateLoad = true
    ∧ (sLate.getCore 0).access 9 = some acc0 ∧ acc0.store = false ∧ acc0.complete = true ∧ acc0.faulted = false := by decide

theorem witness_CoreEvents_fault :
    let s : State := { sRun with core := { core0 with dfFault := some default } }
    (s.getCore 0).dfFault = some default ∧ s.issues (s.getCore 0) = true := by decide

def wrote (o : NetOut) : Bool :=
  match o with
  | .done _ => true
  | .full => false
  | .fault _ => false

theorem done_of_wrote {o : NetOut} (h : wrote o = true) : ∃ d, o = .done d := by
  cases o with
  | done d => exact ⟨d, rfl⟩
  | full => cases h
  | fault _ => cases h

def netW : NetWrite := ⟨1, 0, 0, 0, 0x100, [1, 2, 3, 4]⟩

/-- A window write has arrived at core 0, and another is held at its FIFO bank 0. -/
def sNet : State :=
  { sRun with core := { core0 with sp := { core0.sp with
    net := [netW], fifoHeld := [netW], bank := vset core0.sp.bank 0 ⟨false, 0, false, 2⟩ } } }

theorem witness_CoreEvents_net :
    let u := sNet.onCore 0 fun x => { x with sp := { x.sp with net := (sNet.getCore 0).sp.net.eraseIdx 0 } }
    (sNet.getCore 0).sp.net[0]? = some netW ∧ (sNet.getCore 0).netFirst 0 netW = true ∧ u.windowAt (fenOfKey 0) 0 1 0 = true
      ∧ ∃ d, (u.getCore 0).netWrite netW.addr netW.bytes 0 = .done d :=
  ⟨by decide, by decide, by decide, done_of_wrote (by decide)⟩

theorem witness_CoreEvents_fifo :
    let u := sNet.onCore 0 fun x => { x with sp := { x.sp with fifoHeld := x.sp.fifoHeld.eraseIdx 0 } }
    ((sNet.getCore 0).sp.fifoHeld.findIdx? fun w => decide (bankOf (w.addr % (sNet.getCore 0).spSize) = 0)) = some 0
      ∧ sNet.windowOpen 0 1 0 = true ∧ ∃ d, (u.getCore 0).netWrite netW.addr netW.bytes 0 = .done d :=
  ⟨by decide, by decide, done_of_wrote (by decide)⟩

def switch0 : Cmd := { Cmd.fresh 5 .bankm 4 0 0 0 3 [] 0 with arg1 := 2, arg2 := 1, started := true }

/-- A bank switch of bank 2 has started, and generator 0 walks. -/
def sUnits : State :=
  { sRun with core := { core0 with
    pipes := { core0.pipes with cmds := [switch0] }
    vs := { core0.vs with ag := vset core0.vs.ag 0 { Ag.reset with walking := true } } } }

theorem witness_CoreEvents_switch : sUnits.enginesHeld (sUnits.getCore 0).landDue = false
    ∧ (((sUnits.getCore 0).landDue.switches 2).find? (·.started)) = some switch0
    ∧ (sUnits.getCore 0).landDue.bankInUse 2 = false ∧ sUnits.agMoves (sUnits.getCore 0) 0 = true := by decide

/-- A BF16 step whose operands are captured. -/
def mma0 : Mma := ⟨7, 0, 0, 0, false, 0, 0, false, false, 0, 0, 6, 0, some [], none, 0, 0, 0, 0, none, false, none⟩

/-- That step, a scaled one whose scale bytes are unread, and a latch whose last row is to come. -/
def mma1 : Mma := { mma0 with id := 8, scaled := true }

def reed0 : Reed := ⟨1, 0x8000, 64, 0, [], 31, [], none⟩

def sMma : State := { sRun with core := { core0 with mx := { core0.mx with
  mmas := [mma0], cbkBusy := vset core0.mx.cbkBusy 1 (some 0), reeds := [reed0] } } }

def sScale : State := sRun.onCore 0 fun c => { c with mx := { c.mx with mmas := [mma1] } }

theorem witness_UnitEvents_scales : ((sScale.getCore 0).mx.mmas.find? fun m => decide (m.id = 8)) = some mma1
    ∧ mma1.unread = true ∧ (sScale.getCore 0).unitStopped = false ∧ sScale.issues (sScale.getCore 0) = true ∧ sScale.scalesMay (sScale.getCore 0) mma1 = true
    ∧ (∃ p, sScale.readScales 0 0 0 mma1.blocksA.flatten = .ok p
      ∧ okWith (p.2.readScales 0 0 0 mma1.blocksB.flatten) (fun _ => true) = true) :=
  ⟨by decide, by decide, by decide, by decide, by decide, ok_of_okWith
    (p := fun p : ScaleBytes × State => okWith (p.2.readScales 0 0 0 mma1.blocksB.flatten) fun _ => true) (by decide)⟩

theorem witness_UnitEvents_mma : ((sMma.getCore 0).mx.mmas.find? fun m => decide (m.id = 7)) = some mma0
    ∧ sMma.unitMoves (sMma.getCore 0) = true ∧ (sMma.getCore 0).arrayMay mma0 = true := by decide

theorem witness_UnitEvents_reed : ((sMma.getCore 0).mx.reeds.find? fun r => decide (r.lt = 1)) = some reed0
    ∧ (sMma.getCore 0).unitStopped = false ∧ (bShape 0).rows ≤ 31 + 1 ∧ vget (sMma.getCore 0).mx.cbkBusy 1 = some 0
    ∧ ∃ p, sMma.reedRow (sMma.getCore 0) reed0 = .ok p ∧ (p.1.length == 64) = true :=
  ⟨by decide, by decide, by decide, by decide, ok_of_okWith (p := fun p : List Byte × State => p.1.length == 64) (by decide)⟩

theorem witness_UnitEvents_cmds :
    let x : Cmd := Cmd.fresh 5 .prefr 4 0 0 0 3 [] 0
    let s : State := { sRun with core := { core0 with pipes := { core0.pipes with cmds := [x] } } }
    let t : State := { sRun with core := { core0 with pipes := { core0.pipes with cmds := [{ x with finished := true }] } } }
    (s.getCore 0).cmd 5 = some x ∧ x.started = false ∧ (s.getCore 0).seqStopped x = false ∧ (s.getCore 0).frozen = false
      ∧ (∀ i ∈ x.waits, (s.getCore 0).cmd i = none) ∧ s.saveStops (s.getCore 0) = false ∧ x.tok ≠ 0
      ∧ (∀ y ∈ (s.getCore 0).pipes.cmds, y.id ≠ 5 → y.tok ≠ x.tok)
      ∧ (t.getCore 0).cmd 5 = some { x with finished := true } ∧ x.posted = [] ∧ t.enginesHeld (t.getCore 0) = false
      ∧ t.writesDone (.cmd 0 5) = true := by decide

theorem witness_UnitEvents_barrier :
    let b : Barrier := ⟨0, [⟨0, 1, 0, 0⟩], []⟩
    let t : Task := ⟨0, 0, 0, 0, 0, [0], [], vset (Vector.replicate 32 ⟨0, [], []⟩) 4 b⟩
    let s : State := { sRun with tasks := [t] }
    s.taskOf 0 = some t ∧ s.phaseOver t (vget t.bars 4) = true := by decide

/-! ### Events: mailbox, collectives -/

def post0 : Cmd := Cmd.fresh 5 .mbpost 4 0 0 0 0 [] 0

/-- A post of core 0 waits for its place, and the fen's mailbox holds a COLL entry and a service entry. -/
def sMail : State :=
  ({ sRun with core := { core0 with pipes := { core0.pipes with cmds := [post0] }, replies := [⟨7, 0, none⟩], posts := 1 } }).onFen 0
    fun f => { f with
      mbWait := [⟨0, 5, 0, 0, false⟩]
      mailbox := [⟨BitVec.ofNat 128 (2 ^ 48), 0, 6, false, [], none⟩, ⟨0, 0, 7, false, [], none⟩] }

theorem witness_MailboxEvents_place :
    (vget sMail.fens 0).mbWait.find? sMail.postMay = some ⟨0, 5, 0, 0, false⟩ ∧ (sMail.getCore 0).cmd 5 = some post0
    ∧ (vget sMail.fens 0).master.isSome = true ∧ (vget sMail.fens 0).mailbox.length < 32 ∧ sMail.postAhead 0 0 = false
    ∧ (let u := sMail.onFen 0 fun f => { f with master := none }
      (vget u.fens 0).master = none ∧ (vget u.fens 0).mbWait.find? u.postMay = some ⟨0, 5, 0, 0, false⟩
        ∧ (u.getCore 0).cmd 5 = some post0) := by decide

theorem witness_MailboxEvents_service :
    let none_ (u : State) (e : MbEntry) : Bool := decide (mbKind e.bits = 0) && !e.taken && (vget u.ctxs (mbCtx e.bits)).noProgram
    let e0 : MbEntry := ⟨0, 0, 7, false, [], none⟩
    (vget sMail.fens 0).master = some 132 ∧ ((vget sMail.fens 0).mailbox.find? (none_ sMail)) = some e0
      ∧ (let u := sMail.onCtx 0 fun x => { x with mbent := 0x4000 }
        (∀ y ∈ (vget u.fens 0).mailbox, none_ u y = false)
          ∧ ((vget u.fens 0).mailbox.find? fun e => decide (mbKind e.bits = 0) && !e.taken) = some e0
          ∧ (vget u.fens 0).service = none ∧ (u.getCore (newtKey 0 132)).status = .idle ∧ u.newtTaken 0 = false)
      ∧ (sMail.getCore 0).replies = [⟨7, 0, none⟩] ∧ sMail.replyOrdered ⟨7, 0, none⟩ = true ∧ (sMail.getCore 0).posts ≠ 0
      ∧ core0.posts = 0 := by decide

/-- No entry is being read, and the first to be served may be; then the same entry has a read behind it. -/
theorem witness_MailboxEvents_take : (vget sMail.fens 0).master.isSome = true ∧ (vget sMail.fens 0).reading = []
    ∧ ((vget sMail.fens 0).mailbox.findIdx? fun e => decide (mbKind e.bits ≠ 0) && !sMail.dpostHeld 0 e) = some 0
    ∧ sMail.mayServe 0 ((vget sMail.fens 0).mailbox.getD 0 default) = true
    ∧ (let u := sMail.onFen 0 fun f => { f with reading := [⟨BitVec.ofNat 128 (2 ^ 48), 0, 6, true, [], none⟩] }
      ((vget u.fens 0).reading.findIdx? fun e => e.stop.isNone && u.mayServe 0 e) = some 0) := by decide

/-- A record of one transfer of 128 bytes from the poster's scratchpad to fen 0's master. -/
def coll0 : CollRec :=
  ⟨0, 0, 0, 5, 0x4000, BitVec.ofNat 1024 (2 ^ 57 + 128 * 2 ^ 128 + 2 ^ 153 + 2 ^ 256), [0x40000], 0, 1, [], [], [], none⟩

def xfer0 : Transfer :=
  { key := ⟨3, 1, 0, 0⟩, ctx := 0, member := 0x40000, red := 0, etype := 0, rsp := false, dst := 0x8000, aci := 1, ncon := 0
    sexp := 0, bbase := 0, roff := 0, data := List.replicate 128 0 }

def sColl : State := sRun.onFen 0 fun f => { f with
  colls := [coll0], arriving := [⟨xfer0, 0⟩, ⟨xfer0, 1⟩], held := [(.transfer xfer0 0, false)] }

def gotWith {α : Type} (g : Got α) (p : α → Bool) : Bool :=
  match g with
  | .ok a _ => p a
  | .wait _ => false
  | .fault _ _ => false

theorem ok_of_gotWith {α : Type} {g : Got α} {p : α → Bool} (h : gotWith g p = true) : ∃ a s, g = .ok a s ∧ p a = true := by
  cases g with
  | ok a s => exact ⟨a, s, rfl, h⟩
  | wait _ => cases h
  | fault _ _ => cases h

theorem peerCause_none : sColl.peerCause coll0.member = none := by
  have h1 : sColl.lostPeers.contains (mDev coll0.member) = false := by decide
  have h2 : (vget sColl.fens (mFen coll0.member)).master.isNone = false := by decide
  have h3 : mNewt coll0.member = true := by decide
  rw [State.peerCause, h1]; simp [h2, h3]

theorem witness_CollectiveEvents_emit : (vget sColl.fens 0).colls[0]? = some coll0 ∧ (vget sColl.fens 0).master.isSome = true
    ∧ coll0.stop = none ∧ coll0.pos < coll0.total ∧ (vget sColl.fens 0).unacked < 1024 ∧ sColl.peerCause coll0.member = none
    ∧ coll0.nextPart 0 = some (coll0.parts.headD (0, 0))
    ∧ ({ sColl with lostPeers := [0] } : State).peerCause coll0.member = some 1
    ∧ ∃ bs u, sColl.collPart 0 coll0 (coll0.parts.headD (0, 0)) = .ok bs u ∧ (bs.length == 128) = true :=
  ⟨by decide, by decide, by decide, by decide, by decide, peerCause_none, by decide, by decide, ok_of_gotWith (by decide)⟩

theorem witness_CollectiveEvents_arrive : (vget sColl.fens 0).arriving[0]? = some ⟨xfer0, 0⟩
    ∧ (vget sColl.fens 0).arriving[1]? = some ⟨xfer0, 1⟩
    ∧ (vget sColl.fens 0).held[0]? = some (HeldItem.transfer xfer0 0, false) ∧ sColl.heldOpen 0 (.transfer xfer0 0) = true
    ∧ (vget sColl.fens 0).firstHeld 0 0 (.transfer xfer0 0) = true
    ∧ (vget sColl.fens 0).seen.contains xfer0.key = false ∧ sColl.transferStopped xfer0.key = false
    ∧ sColl.arrivalCause 0 xfer0.member = none ∧ sColl.memberClosed 0 xfer0.member 0 = false
    ∧ sColl.memberClosed 0 0x800 5 = true ∧ sColl.memberHeld 0 xfer0.member 0 = true
    ∧ ((sColl.onFen 0 fun f => { f with held := [] }).memberHeld 0 xfer0.member 0 = false)
    ∧ (let u := sColl.onFen 0 fun f => { f with seen := [xfer0.key] }
      (vget u.fens 0).seen.contains xfer0.key = true)
    ∧ (let u := sColl.onFen 0 fun f => { f with master := none }
      u.arrivalCause 0 xfer0.member = some 2 ∧ u.heldOpen 0 (.transfer xfer0 0) = true) := by decide

/-- A transfer of 256 bytes that has landed in part, for a member whose window has closed, with nothing behind it; and one held behind
another item whose fen has lost its master. -/
theorem witness_CollectiveEvents_part :
    let x : Transfer := { xfer0 with member := 0x800, ctx := 5 }
    let s := sColl.onFen 0 fun f => { f with arriving := [⟨x, 1⟩], held := [(.transfer xfer0 0, false), (.transfer xfer0 0, false)], master := none }
    (vget s.fens 0).arriving[0]? = some ⟨x, 1⟩ ∧ (vget s.fens 0).seen.contains x.key = false ∧ s.memberClosed 0 x.member x.ctx = true
      ∧ (vget s.fens 0).partBehind 0 0 x = false ∧ (s.arrivalCause 0 xfer0.member).isSome = true
      ∧ (vget s.fens 0).firstHeld 0 1 (.transfer xfer0 0) = false := by decide

/-! ### Events: contexts, records, preemption -/

/-- Context 0 is attached and may start at home fen 0; a nonce is taken; translations are being invalidated. -/
def sHost : State := { State.reset.onCtx 0 (fun x => { x with state := 1, savb := 4, home := 0, entry := 0x100 }) with
  pkg := { State.reset.pkg with mgst := 1, bootStep := 0, nonce := some 7, tlbinv := 0x8000000000000000 } }

theorem witness_ContextEvents : sHost.mayStart 0 = true ∧ sHost.idleNewt 0 = some (newtKey 0 133) ∧ sHost.visible = true
    ∧ bit sHost.pkg.tlbinv 63 = true ∧ sHost.pkg.nonce = some 7
    ∧ (let u : State := { sHost with pkg := { sHost.pkg with tlbinv := 5, nonce := none } }
      u.visible = true ∧ bit u.pkg.tlbinv 63 = false ∧ u.pkg.nonce = none)
    ∧ (vget (sHost.onCtx 0 fun x => { x with state := 2 }).ctxs 0).state = 2
    ∧ (vget (sHost.onCtx 0 fun x => { x with state := 3 }).ctxs 0).state = 3 ∧ State.reset.visible = false := by decide

/-- A record is ready and the ring has room, MSI-X vector 0 is due, and core 0 has waited longer than its context's WAITLIM. -/
def sPost : State := { sRun.onCtx 0 (fun x => { x with lim := 1, savb := 4 }) with
  ready := [(0, default)], msixDue := true, pkg := { sRun.pkg with fqbase := 0x100000, bootStep := 0 }
  core := { core0 with wait := some ⟨.token 1, 5, 0, 70000, false⟩, ran := 70000 } }

theorem witness_RecordAndPreemptionEvents_posts : sPost.ready = [(0, default)] ∧ sPost.pkg.ringFull = false ∧ sPost.dieLost 0 = false
    ∧ sPost.dieFull (default : FaultRec).die = false
    ∧ ({ sPost with ready := List.replicate 256 (0, default) } : State).dieFull (default : FaultRec).die = true
    ∧ sPost.msixDue = true ∧ sPost.visible = true ∧ sRun.visible = false ∧ (sPost.getCore 0).status ≠ .idle
    ∧ ∃ r, (sPost.getCore 0).tmoDue (vget sPost.ctxs (sPost.getCore 0).ctx.toNat) = some r ∧ r.code = 0x0D :=
  ⟨by decide, by decide, by decide, by decide, by decide, by decide, by decide, by decide, by decide,
    (some_of_someWith (p := fun r : FaultRec => decide (r.code = 0x0D)) (by decide)).imp fun _ h => ⟨h.1, of_decide_eq_true h.2⟩⟩

theorem witness_RecordAndPreemptionEvents_begin : sPost.visible = true ∧ sRun.visible = false ∧ sPost.pkg.preemptBusy = none ∧ (vget sPost.ctxs 0).state = 2
    ∧ (vget sPost.ctxs 0).pst = 0 ∧ (vget sPost.ctxs 0).savbBad = false
    ∧ (sPost.taskCores 0).length + 1 ≤ (vget sPost.ctxs 0).nslot
    ∧ (let s := sPost.onCtx 0 fun x => x.setCsts 2 false
      s.visible = true ∧ s.pkg.preemptBusy = none ∧ (vget s.ctxs 0).state = 2 ∧ (vget s.ctxs 0).pst = 2) := by decide

/-- Context 0 is being saved; its only core, the conductor, stands in slot 0 already. -/
def sSave : State := { State.reset.onCtx 0 (fun x => { x.setCsts 1 false with root := 1, state := 2, savb := 4, saved := [⟨0, Core.reset (newtKey 0 133), none, [], false⟩] }) with
  core := core0.vacated }.onFen 0 fun f => { f with
    conductors := [⟨0, .waiting, none, [], 0, false⟩] }

theorem witness_RecordAndPreemptionEvents_saved :
    let u := (sSave.saveSlots 0).foldl (fun v x => v.saveOut 0 x) sSave
    let v := if (vget u.ctxs 0).saved.any (fun y => decide (y.slot = 0)) then u else u.saveConductor 0
    (vget sSave.ctxs 0).pst = 1 ∧ (vget sSave.ctxs 0).state = 2 ∧ sSave.contextDrained 0 = true
      ∧ v.taskCores 0 = [] ∧ v.conductorCore 0 = none ∧ v.emergAny 0 = false ∧ (∀ a ∈ v.await, a.who ≠ .save 0 4095)
      ∧ (vget v.ctxs 0).saved.length = 1 := by decide

/-- A conductor is ready on fen 0, whose newts are idle. -/
def sReadyConductor : State := (State.reset.onCtx 0 fun x => { x with state := 2 }).onFen 0 fun f => { f with
  conductors := [⟨0, .ready, none, [], 0, false⟩] }

theorem witness_RecordAndPreemptionEvents_conductor :
    let ready := (vget sReadyConductor.fens 0).conductors.filter sReadyConductor.conductorReady
    sReadyConductor.conductorKey 0 = some (newtKey 0 133) ∧ sReadyConductor.serving (newtKey 0 133) = false
      ∧ (sReadyConductor.getCore (newtKey 0 133)).landDue.status = .idle
      ∧ sReadyConductor.newtTaken 0 = false ∧ sReadyConductor.conductorPick ready = some ⟨0, .ready, none, [], 0, false⟩ := by
  have h : (vget sReadyConductor.fens 0).conductors.filter sReadyConductor.conductorReady = [⟨0, .ready, none, [], 0, false⟩] := by decide
  refine ⟨by decide, by decide, by decide, by decide, ?_⟩
  rw [h]
  simp [State.conductorPick, Nat.mod_one, maxPassed]

theorem witness_RecordAndPreemptionEvents_failover : (vget State.reset.fens 0).master = some 132
    ∧ (vget State.reset.fens 0).standby = some 133 ∧ (State.reset.getCore (newtKey 0 133)).status = .idle := by decide

/-- Context 0 is being restored, from a save area that holds no core; the 512 reads of its header are made, and returned the
version and no further byte. -/
def sRestore : State := { State.reset with core := core0.vacated }.onCtx 0 fun x => { x.setCsts 3 false with
  root := 1, state := 2, savb := 4, readBack := [1] :: List.replicate 511 [] }

theorem witness_RecordAndPreemptionEvents_restore : (vget sRestore.ctxs 0).pst = 3
    ∧ (∀ a ∈ sRestore.await, ∀ k, a.who ≠ .save 0 k) ∧ sRestore.restoreFree (vget sRestore.ctxs 0) = true
    ∧ sRestore.readArea 0 (sRestore.restoreParts 0) (vget sRestore.ctxs 0).readBack = ((vget sRestore.ctxs 0).readBack, none, sRestore)
    ∧ (vget sRestore.ctxs 0).loadAll (vget sRestore.ctxs 0).readBack.flatten = some [] := by
  refine ⟨by decide, fun a h => absurd h List.not_mem_nil, by decide, ?_, by decide⟩
  have h : (sRestore.restoreParts 0).length = 512 := by decide
  have hb : (vget sRestore.ctxs 0).readBack.length = 512 := by decide
  rw [State.readArea, h]
  show State.readOn _ _ _ _ (511 + 1) _ = _
  rw [State.readOn, List.getElem?_eq_none (Nat.le_of_eq (h.trans hb.symm))]

/-- The first read of that restore, where it is not made yet, meets a page that is not mapped. -/
theorem witness_RecordAndPreemptionEvents_restoreStopped :
    let s := sRestore.onCtx 0 fun x => { x with readBack := [] }
    ∃ f u, s.readArea 0 (s.restoreParts 0) (vget s.ctxs 0).readBack = ([], some f, u) := by
  intro s
  have h : (s.readArea 0 (s.restoreParts 0) (vget s.ctxs 0).readBack).1 = []
      ∧ (s.readArea 0 (s.restoreParts 0) (vget s.ctxs 0).readBack).2.1.isSome = true := by decide
  obtain ⟨f, hf⟩ := Option.isSome_iff_exists.mp h.2
  exact ⟨f, _, Prod.ext h.1 (Prod.ext hf rfl)⟩

/-! ### Events: the host -/

/-- The device is ready, and core 0 runs a task of context 0 whose record awaits RESUME. -/
def sVis : State := { State.reset with
  core := core0, pkg := { State.reset.pkg with mgst := 1, bootStep := 0 }, await := [⟨0, 0, .core 0, default⟩] }

def dbgWith (r : DbgRead) (n : Nat) : Bool :=
  match r with
  | .ok bs _ _ => bs.length == n
  | .failed _ _ _ _ => false

theorem ok_of_dbgWith {r : DbgRead} {n : Nat} (h : dbgWith r n = true) : ∃ bs t u, r = .ok bs t u ∧ bs.length = n := by
  cases r with
  | ok bs t u => exact ⟨bs, t, u, rfl, beq_iff_eq.mp h⟩
  | failed _ _ _ _ => cases h

/-- An operation that this command has begun on die 0 runs. -/
def sDbg (cmd : Word) : State := sVis.dbgBegin 0 cmd

theorem witness_HostEvents_debugStarts : sVis.dbgStarts 0 0 0 = true ∧ sVis.dbgStarts 0 0x4000000000000000 1 = true
    ∧ sVis.dbgStarts 0 0xA000000000000000 2 = true ∧ sVis.dbgWriteOk 0 0xA000000000000000 = true
    ∧ ({ sVis with await := [] } : State).dbgStarts 0 0xA000000000000000 2 = true
    ∧ ({ sVis with await := [] } : State).dbgRecordOk 0 0xA000000000000000 = false
    ∧ (let u : State := { sVis with core := Core.reset 0 }
      u.dbgStarts 0 0xA000000000000000 2 = true ∧ u.dbgRecordOk 0 0xA000000000000000 = true ∧ u.runsTask (dbgCore 0xA000000000000000) 0 = false)
    ∧ bit (vget (sDbg 0).dies 0).dbgst 0 = false := by decide

theorem witness_HostEvents_debug : (sDbg 0).dbgStarts 0 0 0 = false ∧ (sDbg 0).dbgMay 0 0 0 = true
    ∧ (sDbg 0x4000000000000000).dbgStarts 0 0x4000000000000000 1 = false ∧ (sDbg 0x4000000000000000).dbgMay 0 0x4000000000000000 1 = true
    ∧ (∃ bs t u, ((sDbg 0).dbgTake 0 0).dbgRead 0 (dbgCtx 0) (dbgSector 0) = .ok bs t u ∧ bs.length = 128)
    ∧ (∃ bs t u, ((sDbg 0x4000000000000000).dbgTake 0 0x4000000000000000).dbgRead 0 (dbgCtx 0x4000000000000000) (dbgSector 0x4000000000000000) = .ok bs t u ∧ bs.length = 128)
    ∧ (sDbg 0xA000000000000000).dbgStarts 0 0xA000000000000000 2 = false ∧ (sDbg 0xA000000000000000).dbgMay 0 0xA000000000000000 2 = true
    ∧ (sDbg 0xA000000000000000).runsTask (dbgCore 0xA000000000000000) (dbgCtx 0xA000000000000000) = true
    ∧ ∃ d, ((sDbg 0xA000000000000000).getCore (dbgCore 0xA000000000000000)).netWrite (128 * (dbgAddr 0xA000000000000000 % 8192))
      (bvBytes (vget (sDbg 0xA000000000000000).dies 0).dbgraw) ((vget (sDbg 0xA000000000000000).dies 0).dbgtag.setWidth 8) = .done d :=
  ⟨by decide, by decide, by decide, by decide, ok_of_dbgWith (by decide), ok_of_dbgWith (by decide), by decide, by decide, by decide,
    done_of_wrote (by decide)⟩

def boot0 : BootInput := ⟨[], [], [], [], [], true, [], [], []⟩

/-- Flash whose slots hold no image that verifies. -/
def blankFlash : FlashSlot := ⟨[], Vector.replicate 7 ⟨false, false, false, 0, 0⟩⟩

theorem witness_HostEvents : sVis.visible = true ∧ sVis.dieLost 0 = false ∧ sVis.pkg.recovery = false
    ∧ bits sVis.pkg.ovp 38 28 ≤ bits (0x10000000 : Word) 38 28 ∧ sVis.pkg.ovpUsed = []
    ∧ (vget (sVis.onDie 0 fun d => { d with retst := 0x4000000000000000 }).dies 0).phase = 1
    ∧ (let s : State := { sVis with pkg := { sVis.pkg with recovery := true } }
      s.pkg.recovery = true ∧ (0xFFFE : BitVec 16).toNat + [(1 : Byte), 2].length ≤ 65536)
    ∧ State.reset.pkg.bootStep ≠ 0 ∧ State.reset.pkg.bootStep ≠ 5 ∧ State.reset.pkg.recovery = false ∧ boot0.hostLink = true
    ∧ State.reset.dieLost 0 = false
    ∧ (nextWith (exec (.boot boot0) State.reset) fun t => decide (t.pkg.bootStep = 5) && t.visible && !bit t.pkg.mgst 0) = true
    ∧ State.reset.pkg.bootSlot = some 0 ∧ State.reset.pkg.dieCause 0 boot0 0 = none
    ∧ State.reset.pkg.dieCause 0 { boot0 with badDies := [0] } 0 = some 5
    ∧ ({ Pkg.reset with flashA := blankFlash, flashB := blankFlash } : Pkg).bootSlot = none := by decide

/-! ### Events: exchanges. The number of this device is a constant of the configuration. -/

theorem dev_ne (d : DevNo) : d + 1 ≠ d := by
  revert d
  decide

def cal0 : Calendar := ⟨1, 1, 0, 0, 0, 2, [⟨1, 0, 0, 0xFF, 0xFF⟩, ⟨1, 0, 1, 0xFF, 1⟩, ⟨1, 1, 1, 1, 1⟩]⟩

/-- An exchange of devices 0 and 1 with its calendar. Of its three phases the first sends nothing, and the others send to rank 1,
which has 100 bytes to receive. -/
def exch0 : Exch :=
  { fen := 0, ctx := 0, xid := 3, poster := 0, cmd := 5, entry := ⟨BitVec.ofNat 128 (0x9000 * 2 ^ 64), 0, 5, true, [], none⟩
    prior := 0, serial := 0, vector := BitVec.ofNat 2560 3, cal := some cal0, calDue := none, next := 0, counts := [(1, 100)]
    unacked := [], again := [], closeAgain := [], closes := [], closed := [], received := [], lost := [], todo := [], due := [(1, 0, ⟨1, 0, 0, 0⟩)], finished := false }

def exch1 : Exch := { exch0 with next := 1 }

/-- An exchange with no member, hence complete; one that lacks a member; and one whose calendar data are fixed and held by the
first standby. -/
def xpend0 : XPend := ⟨0, 3, 0, [], false, none, false, false, false⟩
def xpend1 : XPend := ⟨0, 4, 1, [], false, none, false, false, false⟩
def xpend2 : XPend := ⟨0, 5, 0, [], false, some ⟨[], 1, 0, 0⟩, true, false, false⟩

def sExch : State := { sRun.plant 0x3000 (natToBytes 8 0x87) with
  exchs := [exch0, exch1]
  skink := ⟨Config.deviceNo, 1, 0, [xpend0, xpend1, xpend2, { xpend2 with acked := false }], [], []⟩ }

theorem witness_ExchangeEvents_start : sExch.skink.pending[0]? = some xpend0 ∧ xpend0.full = true ∧ xpend0.issue = none
    ∧ sExch.skinkOn = true ∧ sExch.skink.active = Config.deviceNo ∧ sExch.unmanned xpend0 = false
    ∧ ({ sExch with lostPeers := [0] } : State).unmanned xpend1 = true ∧ (∀ y ∈ sExch.skink.pending, y.first = false)
    ∧ ({ xpend2 with inherited := true } : XPend).first = true
    ∧ sExch.skink.pending[2]? = some xpend2 ∧ xpend2.issue = some ⟨[], 1, 0, 0⟩ ∧ xpend2.acked = true
    ∧ sExch.skink.pending[3]? = some { xpend2 with acked := false }
    ∧ sExch.skink.pending[1]? = some xpend1 ∧ xpend1.full = false ∧ xpend1.xtmo = false ∧ xpend1.issue = none :=
  ⟨by decide, by decide, rfl, by decide, rfl, by decide, by decide, by decide, by decide, by decide, rfl, rfl, by decide, by decide,
    by decide, rfl, rfl⟩

theorem witness_ExchangeEvents_phases : sExch.exchs[0]? = some exch0 ∧ exch0.cal = some cal0
    ∧ cal0.phases[exch0.next]? = some ⟨1, 0, 0, 0xFF, 0xFF⟩ ∧ sExch.exchStopped exch0 = false
    ∧ cal0.t0.toNat + cal0.slot.toNat * startSlot cal0 exch0.next ≤ sExch.time
    ∧ sExch.exchs[1]? = some exch1 ∧ cal0.phases[exch1.next]? = some ⟨1, 0, 1, 0xFF, 1⟩ ∧ sExch.exchStopped exch1 = false
    ∧ cal0.t0.toNat + cal0.slot.toNat * startSlot cal0 exch1.next ≤ sExch.time
    ∧ exch0.phaseSends ⟨1, 0, 0, 0xFF, 0xFF⟩ = false ∧ exch1.phaseSends ⟨1, 0, 1, 0xFF, 1⟩ = true
    ∧ ({ exch1 with lost := [1] } : Exch).phaseSends ⟨1, 0, 1, 0xFF, 1⟩ = false
    ∧ ∃ u, sExch.sendPhase exch1 cal0 ⟨1, 0, 1, 0xFF, 1⟩ = .ok u := by
  refine ⟨by decide, by decide, by decide, by decide, by decide, by decide, by decide, by decide, by decide, by decide, by decide,
    by decide, ?_⟩
  obtain ⟨u, hu, -⟩ := ok_of_okWith (e := sExch.sendPhase exch1 cal0 ⟨1, 0, 1, 0xFF, 1⟩) (p := fun _ => true) (by decide)
  exact ⟨u, hu⟩

def errWith {ε α : Type} (e : Except ε α) : Bool :=
  match e with
  | .ok _ => false
  | .error _ => true

theorem error_of_errWith {ε α : Type} {e : Except ε α} (h : errWith e = true) : ∃ f, e = .error f := by
  cases e with
  | ok _ => cases h
  | error f => exact ⟨f, rfl⟩

/-- The send buffer is not mapped. -/
theorem witness_ExchangeEvents_phaseFault :
    ∃ f u, (sExch.onCtx 0 fun x => { x with root := 0 }).sendPhase exch1 cal0 ⟨1, 0, 1, 0xFF, 1⟩ = .error (f, u) :=
  let ⟨f, h⟩ := error_of_errWith
    (e := (sExch.onCtx 0 fun x => { x with root := 0 }).sendPhase exch1 cal0 ⟨1, 0, 1, 0xFF, 1⟩) (by decide)
  ⟨f.1, f.2, h⟩

theorem witness_ExchangeEvents_close : sExch.exchs[0]? = some exch0
    ∧ (exch0.due.find? fun d => decide (d.1 = 1) && decide (d.2.1 = 0)) = some (1, 0, ⟨1, 0, 0, 0⟩)
    ∧ exch0.cal.isSome = true ∧ exch0.todo = [] ∧ sExch.exchStopped exch0 = false
    ∧ (0 : BitVec 32).toNat ≤ exch0.got (1 : BitVec 6).toNat
    ∧ (∃ t, sExch.writeVirt 0 none 0 (BitVec.ofNat 64 (vCal exch0.vector + 64 + 4 * 1)) (bvBytes (0 : BitVec 32)) 0 = .ok t)
    ∧ ∃ t, sExch.writeVirt 0 none 0 (BitVec.ofNat 64 (vCal exch0.vector + 64 + 4 * 1)) (bvBytes (0xFFFFFFFF : BitVec 32)) 0 = .ok t :=
  ⟨by decide, by decide, by decide, by decide, by decide, by decide,
    (ok_of_okWith (p := fun _ => true) (by decide)).imp fun _ h => h.1,
    (ok_of_okWith (p := fun _ => true) (by decide)).imp fun _ h => h.1⟩

/-- A close flit with a key not seen, and no other of its rank. -/
theorem witness_ExchangeEvents_arrives :
    let key : XferKey := ⟨1, 0, 1, 0⟩
    let r := BitVec.ofNat 6 (rankOf (vMask exch0.vector) key.dev)
    (∀ f ∈ sExch.fens.toList, f.seenClose.contains key = false) ∧ sExch.exchGen 0 3 cal0.gen = some exch0
      ∧ (∀ d ∈ exch0.due, d.2.2 ≠ key) ∧ setHas r.toNat exch0.closed = false := by decide

theorem standby_own (s : State) (h : s.lostPeers = []) : s.standbyOf (Config.deviceNo - 1) = some Config.deviceNo := by
  have e : Config.deviceNo - 1 + 1 = Config.deviceNo := by
    generalize Config.deviceNo = d
    revert d
    decide
  have l : (List.range 63) = 0 :: (List.range 62).map (· + 1) := by decide
  have o : Config.deviceNo - 1 + BitVec.ofNat 6 (0 + 1) = Config.deviceNo := e
  rw [State.standbyOf, l, List.map_cons, List.find?_cons_of_pos]
  · rw [o]
  · rw [o]
    simp [State.liveDev, inDomain, h]

theorem pred_ne (d : DevNo) : d - 1 ≠ d := by
  revert d
  decide

/-- The active skink; and a device whose skink is the first standby of another device's. -/
theorem witness_ExchangeEvents_skink :
    let u : State := { sExch with skink := ⟨Config.deviceNo - 1, 1, 0, [], [], []⟩ }
    sExch.skink.active = Config.deviceNo ∧ sExch.skink.epoch < 2 ∧ sExch.skinkOn = true
      ∧ Config.deviceNo + 1 ≠ Config.deviceNo
      ∧ u.skink.active ≠ Config.deviceNo ∧ u.skink.epoch < 2 ∧ u.skinkOn = true
      ∧ u.standbyOf u.skink.active = some Config.deviceNo :=
  ⟨rfl, by decide, by decide, dev_ne _, pred_ne _, by decide, by decide, standby_own _ (by decide)⟩

/-! ### Events: leases -/

/-- Fen 0's master waits for device 2's answer to a request of 4 units, described at 0x5000; one lease is lent and one borrowed,
both with a notice that has passed. -/
def lent0 : Lease := ⟨7, false, 2, 0x400000000000, 4, 0, 0, 0, some 0, false⟩
def borrowed0 : Lease := ⟨9, true, 2, 0x420000000000, 4, 0, 0, 0x5000, none, false⟩
def leaseReq0 : LeaseReq := ⟨0, 5, 0, 0x5000, 2, 4, none, none⟩

def sLease : State := State.onFen
  { sRun.plant 0x3000 (natToBytes 8 0x87) with leases := [lent0, borrowed0], pkg := { sRun.pkg with bootStep := 0 } } 0
  fun f => { f with leaseReqs := [leaseReq0] }

theorem witness_LeaseEvents_response : (vget sLease.fens 0).leaseReqs[0]? = some leaseReq0 ∧ leaseReq0.reply = none
    ∧ ∃ bs u v, sLease.readPlain 0 none 0 0x5000 32 = .ok (bs, u)
      ∧ u.writeVirt 0 none 0 0x5000 (bvBytes (grantFields (bitsOf 256 bs) .noCapacity)) 0 = .ok v := by
  refine ⟨by decide, by decide, ?_⟩
  have h : okWith (sLease.readPlain 0 none 0 0x5000 32) (fun p =>
      okWith (p.2.writeVirt 0 none 0 0x5000 (bvBytes (grantFields (bitsOf 256 p.1) .noCapacity)) 0) fun _ => true) = true := by
    decide
  obtain ⟨⟨bs, u⟩, hr, hw⟩ := ok_of_okWith h
  obtain ⟨v, hv, -⟩ := ok_of_okWith hw
  exact ⟨bs, u, v, hr, hv⟩

theorem witness_LeaseEvents_notices : sLease.leases.find? (·.lent ((7 : Word).extractLsb' 0 32)) = some lent0 ∧ sLease.visible = true
    ∧ sLease.leases.find? (·.borrowed 2 9) = some borrowed0 ∧ borrowed0.expired = false
    ∧ (sLease.leases.find? fun l => decide (l.lid = 7) && !l.expired && sLease.noticeOver l) = some lent0 := by decide

/-- No route leads to another device. -/
theorem witness_LeaseEvents_unreachable : sLease.unreachable (Config.deviceNo + 1) = true := by
  have h : (vget sLease.routes (Config.deviceNo + 1).toNat).isNone = true := by
    generalize (Config.deviceNo + 1).toNat = n
    show (vget (Vector.replicate 64 none) n : Option PortNo).isNone = true
    simp only [vget, Vector.getElem?_replicate]
    split <;> rfl
  rw [State.unreachable, h, decide_eq_true (dev_ne _)]
  rfl

theorem window_fits (n : Nat) (h : n < 64) :
    0x400000000000 + n * 2 ^ 40 < 2 ^ 48 ∧ (0x400000000000 + n * 2 ^ 40) % 2 ^ 21 = 0 := by
  have h1 : (2 : Nat) ^ 40 = 1099511627776 := by decide
  have h2 : (2 : Nat) ^ 48 = 281474976710656 := by decide
  have h3 : (2 : Nat) ^ 21 = 2097152 := by decide
  rw [h1, h2, h3]
  omega

theorem witness_LeaseEvents_grant :
    sRun.grantable (BitVec.ofNat 48 (0x400000000000 + Config.deviceNo.toNat * 2 ^ 40)) 4 = true := by
  obtain ⟨h1, h2⟩ := window_fits Config.deviceNo.toNat Config.deviceNo.isLt
  have hw : (BitVec.ofNat 48 (0x400000000000 + Config.deviceNo.toNat * 2 ^ 40)).toNat
      = 0x400000000000 + Config.deviceNo.toNat * 2 ^ 40 := by
    rw [BitVec.toNat_ofNat]
    exact Nat.mod_eq_of_lt h1
  have hs : (4 : BitVec 24).toNat * 2 ^ 21 ≤ 2 ^ 40 := by decide
  have hl : sRun.leases = [] := by decide
  simp only [State.grantable, hw, hl, List.all_nil, Bool.and_true, Bool.and_eq_true, decide_eq_true_eq]
  exact ⟨⟨⟨h2, by decide⟩, Nat.le_refl _⟩, Nat.add_le_add_left hs _⟩

/-! ### Events: links -/

/-- CRC-32C's customary check value, that of the digits 1 to 9. -/
theorem test_crc32c : crc32c [0x31, 0x32, 0x33, 0x34, 0x35, 0x36, 0x37, 0x38, 0x39] = 0xE3069283 := by decide

/-- The next flit of channel 0 to a device. -/
def flitTo (d : DevNo) : Flit := sealFlit ⟨0, 0, 0xFFF, 0, false, 0, 0, 0, 1, d, .empty⟩

theorem flitTo_crc (d : DevNo) : (flitTo d).crc = flitCrc (flitTo d) := rfl

theorem flit_wrong (f : Flit) : ({ f with crc := ~~~flitCrc f } : Flit).crc ≠ flitCrc { f with crc := ~~~flitCrc f } := by
  intro h
  have h : ~~~flitCrc f = flitCrc f := h
  have h0 := congrArg (fun x => x.getLsbD 0) h
  simp at h0

/-- Port 0 is up, has resent channel 2's oldest flit 16 times, and has resent 64 times; port 1 retrains. -/
def port0 : Port := { Port.reset.setLink 2 0 0xFF with tries := vset Port.reset.tries 2 16, resent := List.replicate 64 0 }
def sLink : State := { sVis with ports := vset (vset State.reset.ports 0 port0) 1 { port0 with training := true } }

theorem witness_LinkEvents_flits : (vget sLink.ports 0).state = 2 ∧ (vget sLink.ports 0).training = false
    ∧ (∃ f : Flit, f.crc ≠ flitCrc f) ∧ (flitTo 0).crc = flitCrc (flitTo 0)
    ∧ flitSequenced (sealFlit { flitTo 0 with kind := 1 }) = false ∧ flitSequenced (flitTo 0) = true
    ∧ ((vget sLink.ports 0).acked 0 (sealFlit { flitTo 0 with seq := 5 })).inOrder (sealFlit { flitTo 0 with seq := 5 }) = false
    ∧ ((vget sLink.ports 0).acked 0 (flitTo (Config.deviceNo + 1))).inOrder (flitTo (Config.deviceNo + 1)) = true
    ∧ (flitTo (Config.deviceNo + 1)).dst ≠ Config.deviceNo
    ∧ ((vget sLink.ports 0).acked 0 (flitTo Config.deviceNo)).inOrder (flitTo Config.deviceNo) = true
    ∧ (flitTo Config.deviceNo).dst = Config.deviceNo :=
  ⟨by decide, by decide, ⟨_, flit_wrong (flitTo 0)⟩, rfl, by decide, by decide, by decide, by decide, dev_ne _, by decide, rfl⟩

theorem witness_LinkEvents_ports :
    16 ≤ (vget sLink.ports 0).tries[(2 : Fin 8)] ∧ (vget sLink.ports 0).resent.length = 64
    ∧ (∀ t ∈ (vget sLink.ports 0).resent, sLink.time < t + 1000000)
    ∧ (vget sLink.ports 1).training = true ∧ widest 1 = none ∧ widest 0xFF = some (0, 0xFF)
    ∧ 0 = (vget sLink.ports 1).width ∧ (vget sLink.ports 2).state = 0 ∧ sLink.dieLost (2 / 6) = false
    ∧ diePairs[0]? = some (0, 1) ∧ bit (vget sLink.ucie 0) 3 = true ∧ vget sLink.mireUp 3 = true
    ∧ vget (vset sLink.mireUp 3 false) 3 = false ∧ sLink.dieLost (3 + 1) = false ∧ sLink.dieLost 5 = false
    ∧ sLink.visible = true := by decide

/-- R17: die 2 lies two dies from die 0 along the row, and die 5 beyond it; with die 1 gone the way leads over the other row. -/
theorem witness_LinkEvents_routes : sLink.dieRoute 0 2 = some 1 ∧ sLink.dieRoute 0 5 = some 1
    ∧ ({ sLink with pkg := { sLink.pkg with mgst := setBits sLink.pkg.mgst 9 9 1 } } : State).dieRoute 0 3 = some 3 := by decide

theorem witness_LinkEvents_ploss : sLink.lostPeers.contains (Config.deviceNo + 1) = false ∧ Config.deviceNo + 1 ≠ Config.deviceNo
    ∧ (vget sLink.routes 5).isNone = true :=
  ⟨by decide, dev_ne _, by decide⟩

/-! ### Events: memory repair -/

theorem witness_RepairEvents_hbm : sVis.dieLost 5 = false ∧ sVis.tier 0 = .hbm 0
    ∧ (vget (sVis.onDie 1 fun d => { d with sweep := 1 }).dies 1).sweep ≠ 0
    ∧ setHas (0 / 128) sVis.poison = false
    ∧ (let p := (vget sVis.dies 0).place (0 % 2 ^ 37)
      (vget sVis.dies 0).lostChannel p = none
        ∧ ∀ i, i < p.chans.length → i ≠ p.pos → ∀ k, stripeSector 0 p 0 i = some k → setHas k sVis.poison = false)
    ∧ (vget sVis.dies 5).retired = [] ∧ (vget sVis.dies 5).retireDue 63 .training = true :=
  ⟨by decide, by decide, by decide, by decide, ⟨by decide, fun _ _ _ _ _ => rfl⟩, by decide, by decide⟩

/-- A sweep whose last byte is left, which ends whatever the free choice is; and one that stands where none ends. -/
theorem witness_RepairEvents_sweep :
    (let d : Die := { Die.reset with sweep := 1, sweepPos := heatBytes - 1 };
      d.sweepPos + d.sweepRun (Config.pick 0) = heatBytes)
    ∧ (let d : Die := { Die.reset with sweep := 1, sweepPos := heatBytes };
      d.sweepPos + d.sweepRun (Config.pick 0) ≠ heatBytes) := by
  constructor
  · show heatBytes - 1 + (Config.pick 0 % (heatBytes - (heatBytes - 1)) + 1) = heatBytes
    have h : heatBytes - (heatBytes - 1) = 1 := by decide
    have g : heatBytes - 1 + 1 = heatBytes := by decide
    rw [h, Nat.mod_one, Nat.zero_add, g]
  · show heatBytes + (_ + 1) ≠ heatBytes
    omega

theorem witness_RepairEvents_restripe :
    (let s := sVis.onDie 5 fun d => { d with retst := setBits 0x8000000000000000 29 7 7812498 };
      (vget s.dies 5).phase = 2 ∧ s.dieLost 5 = false ∧ (vget s.dies 5).wmark + 1 < newStripes)
    ∧ (let s := sVis.onDie 5 fun d => { d with retst := setBits 0x8000000000000000 29 7 7812499 };
      (vget s.dies 5).phase = 2 ∧ newStripes ≤ (vget s.dies 5).wmark + 1)
    ∧ sVis.tier 0x100000000000 = .mire 0 := by decide

/-- Core 0 holds an error in s5, and not in s6; it is not a master. -/
theorem witness_RepairEvents_upset : sVis.sound 0 = true ∧ sVis.flaws = [] ∧ (s0.focus 0).isMaster = false
    ∧ (let s : State := { s0 with core := { core0 with errs := [(1, 5)] } }
      (1, 5) ∈ s.core.errs ∧ (1, 6) ∉ s.core.errs) := by decide

/-- R374: the reader takes FLT_CPRS, and once its record is posted the sector is plainly poisoned. -/
theorem test_failed_expansion :
    (let s := State.reset.upsetTurn (.expansion 0x1000);
    match s.readPhys 7 0x1010 4 with
    | .ok _ => false
    | .error f => decide (f.code = 0x31) && decide (f.cause = 1)
        && decide (((s.post { (default : FaultRec) with code := 0x31, info1 := 0x1010 }).sectorFault 7 0x1010).code = 0x30)
        && decide (((s.putPhys 0x1000 (List.replicate 128 1) 0).readPhys 7 0x1010 4).toOption.isSome)) = true := by decide

/-! ### Engine elements out of order (R137) -/

/-- A KCOPY of two sectors of core 0's scratchpad, from 0x1000 to 0x2000, through the window. -/
def kcopy0 : Cmd :=
  { Cmd.fresh 5 .kcopy 4 (setBits (setBits (setBits 0 95 64 256) 63 63 1) 223 223 1) 0x1000 0x2000 3 [] 0 with started := true }

def sCopy : State :=
  { sRun with core := { core0 with
      sp := { core0.sp with mem := [(0x1000, 7), (0x1080, 9)] }, pipes := { core0.pipes with cmds := [kcopy0] } } }

/-- R306: a KCOPY reads and writes sector after sector. -/
theorem test_kcopy_sectors_in_order :
    let s := sCopy.elementTurn 0 5 .next
    sCopy.elementTurn 0 5 .post = sCopy ∧ sCopy.elementTurn 0 5 (.ahead 1) = sCopy ∧ sCopy.elementTurn 0 5 (.jump 1) = sCopy
      ∧ s.core.sp.mem.read 0x2000 = 7 ∧ s.core.sp.mem.read 0x2080 = 0
      ∧ (s.elementTurn 0 5 .next).core.sp.mem.read 0x2080 = 9 := by decide

/-- A CP of two bytes, 128 bytes apart, from 0x1000 of core 0's window to the offset `dst` of it. -/
def cpTwo (dst : Nat) : Cmd :=
  { Cmd.fresh 5 .cp 4 0 0x5000 0 3 [] 0 with
    started := true
    desc := some (BitVec.ofNat 1024
      (0x1000 + 2 ^ 57 + dst * 2 ^ 64 + 2 ^ 121 + 2 ^ 133 + 2 * 2 ^ 192 + 0x80 * 2 ^ 224 + 0x80 * 2 ^ 256)) }

def sCp (dst : Nat) : State :=
  { sCopy with core := { sCopy.core with pipes := { sCopy.core.pipes with cmds := [cpTwo dst] } } }

/-- R137: the second element's write takes its place before the first one's. -/
theorem test_engine_writes_in_any_order :
    let s := ((sCp 0x2000).elementTurn 0 5 .post).elementTurn 0 5 .post
    let t := s.elementTurn 0 5 (.write 1)
    let u := (t.elementTurn 0 5 (.write 0)).elementTurn 0 5 .next
    s.core.sp.mem = sCopy.core.sp.mem ∧ s.core.cmd 5 ≠ none
      ∧ t.core.sp.mem.read 0x2080 = 9 ∧ t.core.sp.mem.read 0x2000 = 0
      ∧ u.core.sp.mem.read 0x2000 = 7 ∧ (u.core.cmd 5).elim false (fun x => x.finished && x.posted.isEmpty) = true := by decide

/-- R137: a source read ahead is the one that its element writes, whatever happens to it meanwhile. -/
theorem test_engine_reads_ahead :
    let s := (sCp 0x2000).elementTurn 0 5 (.ahead 1)
    let t := s.onCore 0 fun c => { c with sp := { c.sp with mem := c.sp.mem.write 0x1080 1 } }
    let u := (t.elementTurn 0 5 .next).elementTurn 0 5 .next
    u.core.sp.mem.read 0x2000 = 7 ∧ u.core.sp.mem.read 0x2080 = 9 ∧ u.core.sp.mem.read 0x1080 = 1 := by decide

/-- R137: two accesses of one command to one location keep element order; the second element reads what the first one writes. -/
theorem test_engine_same_location :
    let s := sCp 0x1080
    let t := s.elementTurn 0 5 .post
    s.elementTurn 0 5 (.ahead 1) = s ∧ t.elementTurn 0 5 .next = t ∧ t.elementTurn 0 5 .post = t
      ∧ ((t.elementTurn 0 5 (.write 0)).elementTurn 0 5 .next).core.sp.mem.read 0x1100 = 7 := by decide

/-! ### Further witnesses of the core's statements -/

/-- Level 0, a LOOPP, holds bundles 24 to 72, and level 1 bundles 0 to 240. -/
def sLevels : State :=
  { sL with core := { sL.core with loop := { sL.core.loop with
    plc := 2, pec := 1, stages := 2, sg := 3
    lv := vset (vset sL.core.loop.lv 0 ⟨true, true, 4, 1, 24, 72, 0, 1⟩) 1 ⟨true, false, 3, 0, 0, 240, 0, 1⟩ } } }

/-- A transfer to 48 leaves neither body, and one to 120 leaves that of the LOOPP. -/
theorem witness_NextBundleFollows_transfer :
    let s : State := { sLevels with iss := { sLevels.iss with next := some 48 } }
    let t : State := { sLevels with iss := { sLevels.iss with next := some 120 } }
    s.iss.hold = none ∧ s.iss.claim = false ∧ s.iss.overflow = none ∧ s.iss.fault = none ∧ s.iss.freeze = none
      ∧ s.iss.trap = none ∧ s.iss.tret = false ∧ s.iss.done = false ∧ s.iss.next = some 48 ∧ s.core.held = none
      ∧ (∀ l, l < 6 → let v := vget s.core.loop.lv l
        v.active = true → v.piped = true → v.first ≤ 48 ∧ 48 ≤ v.last)
      ∧ t.iss.next = some 120 ∧ (let v := vget t.core.loop.lv 0
        v.active = true ∧ v.piped = true ∧ ¬(v.first ≤ 120 ∧ 120 ≤ v.last))
      ∧ ({ t with core := { t.core with held := some ⟨[], [], [], 0⟩ } } : State).core.held.isSome = true := by decide

theorem witness_RegisterWriteLands : core0.sp.wf = true
    ∧ ∀ x, 0x100 % core0.spSize ≤ x → x < 0x100 % core0.spSize + [(1 : Byte), 2].length → core0.sp.isFifo x = false := by
  refine ⟨by decide, fun x _ _ => ?_⟩
  have h : ∀ n : Nat, (vget (Vector.replicate 8 (⟨false, 0, false, 0⟩ : BankReg)) n).mode = 0 := fun n => by
    simp only [vget, Vector.getElem?_replicate]
    split <;> rfl
  show decide ((vget (Vector.replicate 8 (⟨false, 0, false, 0⟩ : BankReg)) (bankOf x)).mode = 2) = false
  rw [h]
  rfl

/-- A store to bank 1 is due: the bank is ordinary, and then a FIFO that is full. -/
def cStore : Core := { core0 with pipes := { core0.pipes with inflight := [⟨0, 4, 0, .spWrite 0x80 [1, 2]⟩] } }

def cFull : Core :=
  { cStore with sp := { cStore.sp with
    bank := vset cStore.sp.bank 1 ⟨false, 0, false, 2⟩, fifo := vset cStore.sp.fifo 1 ⟨0, 1024⟩ } }

theorem witness_ResultLandsWhenDue_store : cStore.pipes.inflight = ⟨0, 4, 0, .spWrite 0x80 [1, 2]⟩ :: []
    ∧ (∀ i ∈ ([] : List Inflight), i.rem ≠ 0) ∧ cStore.storeWaits 0x80 2 = false
    ∧ cFull.pipes.inflight = cStore.pipes.inflight ∧ cFull.storeWaits 0x80 2 = true := by decide

theorem witness_FieldWrites_generators :
    let idle := vget s0.core.vs.ag 0
    let busy := vget sUnits.core.vs.ag 0
    idle.walking = false ∧ busy.walking = true ∧ ¬(0 = 1 ∧ 1 ≤ 3 ∧ 3 ≤ 6) ∧ s0.activeS 1 = false
      ∧ (∀ k, k < 2 → (vget idle.cur.lv k).count = 0)
      ∧ (let s := s0.applyEoc (.agw 0 1 2 3);
        (vget s.core.vs.ag 0).walking = false ∧ ∃ k, k < 2 ∧ (vget (vget s.core.vs.ag 0).cur.lv k).count ≠ 0) :=
  ⟨by decide, by decide, by decide, by decide, by decide, by decide, 1, by decide, by decide⟩

/-- R63 and R218: field 2 of ka1. -/
theorem test_shw_field : ((s0.applyEoc (.shw 5 2 0xABCD)).core.shapeReg 5).shadow = BitVec.ofNat 512 (0xABCD * 2 ^ 64) := by decide

theorem witness_ControlRegisters_off : s0.activeS 1 = false := by decide

/-! ### Direct forms and commands -/

def gotRuns {α : Type} (g : Got α) (p : α → State → Bool) : Bool :=
  match g with
  | .ok a s => p a s
  | .wait _ => false
  | .fault _ _ => false

theorem ok_of_gotRuns {α : Type} {g : Got α} {p : α → State → Bool} (h : gotRuns g p = true) : ∃ a s, g = .ok a s ∧ p a s = true := by
  cases g with
  | ok a s => exact ⟨a, s, rfl, h⟩
  | wait _ => cases h
  | fault _ _ => cases h

theorem unit_of_gotRuns {g : Got Unit} (h : gotRuns g (fun _ _ => true) = true) : ∃ v, g = .ok () v := by
  obtain ⟨_, v, h, -⟩ := ok_of_gotRuns h
  exact ⟨v, h⟩

theorem witness_FarCopies_write : sRun.memWf = true ∧ sRun.plainMem = true ∧ 0x5010 % 128 + [(1 : Byte), 2].length ≤ 128
    ∧ ∃ v, sRun.writeBad 0x5010 0x5010 0 [1, 2] 0 false = .ok v :=
  ⟨by decide, by decide, by decide, (ok_of_okWith (p := fun _ => true) (by decide)).imp fun _ h => h.1⟩

/-- A store and a load of eight bytes, in queues of their own. -/
def stg0 : Access := ⟨3, 4, 1, 0, .global, true, false, [⟨0x5000, [1, 2, 3, 4, 5, 6, 7, 8], 8, 0, false⟩], false, false, [], false⟩
def ldg0 : Access := ⟨4, 4, 2, 0, .global, false, false, [⟨0x6000, [], 8, 0, false⟩], false, false, [], false⟩

def sAcc : State :=
  { sRun.plant 0x3000 (natToBytes 8 0x87) with core := { core0 with pipes := { core0.pipes with acc := [stg0, ldg0] } } }

theorem witness_FarCopies_store :
    let u := sAcc.settle 0
    let c := u.getCore 0
    c.access 3 = some stg0 ∧ stg0.pieces[0]? = some ⟨0x5000, [1, 2, 3, 4, 5, 6, 7, 8], 8, 0, false⟩ ∧ stg0.space = .global
      ∧ u.pieceMay c stg0 ⟨0x5000, [1, 2, 3, 4, 5, 6, 7, 8], 8, 0, false⟩ = true ∧ u.pieceAway 0 3 0 = false
      ∧ (∀ q ∈ stg0.pieces, u.pieceFault c stg0 q = none) ∧ stg0.store = true
      ∧ ∃ v, u.writeAt c.fen (some 0) c.ctx.toNat 0x5000 [1, 2, 3, 4, 5, 6, 7, 8] 0 = .ok v :=
  ⟨by decide, by decide, by decide, by decide, by decide, by decide, by decide,
    (ok_of_okWith (p := fun _ => true) (by decide)).imp fun _ h => h.1⟩

theorem witness_FarCopies_load :
    let u := sAcc.settle 0
    let c := u.getCore 0
    c.access 4 = some ldg0 ∧ ldg0.pieces[0]? = some ⟨0x6000, [], 8, 0, false⟩ ∧ ldg0.space = .global
      ∧ u.pieceMay c ldg0 ⟨0x6000, [], 8, 0, false⟩ = true ∧ u.pieceAway 0 4 0 = false
      ∧ (∀ q ∈ ldg0.pieces, u.pieceFault c ldg0 q = none) ∧ ldg0.store = false ∧ (∀ q ∈ ldg0.pieces, tagV q.tag = false)
      ∧ ∃ x, u.translate c.fen (some 0) c.ctx.toNat 0x6000 false = .ok x
        ∧ (okWith (x.st.readPhys 0x6000 x.pa 8) (fun r => !tagV r.2) && decide (c.wayHit 0x6000 x.pa (c.clockOf 2 0) = none)
          && x.st.plainMem) = true :=
  ⟨by decide, by decide, by decide, by decide, by decide, by decide, by decide, by decide, ok_of_okWith (by decide)⟩

theorem witness_FarCopies_window :
    let e := core0.landDue
    let b := vget e.sp.bank (bankOf (0x100 % e.spSize))
    e.sp.wf = true ∧ 0x100 % e.spSize % 128 + [(1 : Byte), 2, 3, 4].length ≤ 128 ∧ b.sw = false ∧ b.mode = 0
      ∧ setHas (0x100 % e.spSize / 128) e.sp.poison = false ∧ ∃ d, core0.netWrite 0x100 [1, 2, 3, 4] 0 = .done d :=
  ⟨by decide, by decide, by decide, by decide, by decide, done_of_wrote (by decide)⟩

/-- Sixteen commands stand in sequencer C0, of which the oldest has token 7. -/
def sFull : State :=
  { sC with core := { sC.core with pipes := { sC.core.pipes with
    cmds := Cmd.fresh 20 .prefr 4 0 0 0 7 [] 0 :: (List.range 15).map fun i => Cmd.fresh (21 + i) .prefr 4 0 0 0 0 [] 0 } } }

theorem witness_CommandEnters_holds :
    let s : State := { sC with core := { sC.core with regs := { sC.core.regs with tok := vset sC.core.regs.tok 2 true } } }
    let older := sFull.core.pipes.cmds.filter fun x => decide (x.slot = sFull.iss.slot)
    (∃ l, directTokens (.stgx 0 0 0 2 0 0) = some l ∧ (l.find? fun t => s.core.pending t) = some 2)
      ∧ commandToken (.fence 2 0 1) = some 2 ∧ commandToken (.mbpost 0 0 0 0 0) = some 0 ∧ sFull.core.pending 2 = false
      ∧ older = Cmd.fresh 20 .prefr 4 0 0 0 7 [] 0 :: older.tail ∧ 15 ≤ older.tail.length
      ∧ vget sFull.iss.cmdWait (sFull.iss.slot - 4) = none
      ∧ (let t : State := { sFull with iss := { sFull.iss with cmdWait := vset sFull.iss.cmdWait 0 (some 20) } }
        vget t.iss.cmdWait (t.iss.slot - 4) = some 20 ∧ (older.find? fun y => decide (y.id = 20)) = older.head?) := by
  refine ⟨⟨_, rfl, by decide⟩, rfl, rfl, by decide, by decide, by decide, by decide, by decide, by decide⟩

theorem witness_CommandEnters_enters : (Cmd.fresh 5 .bankm 4 0 0 0 3 [] 0).op = .bankm ∧ (Cmd.fresh 5 .bankm 4 0 0 0 3 [] 0).arg1.toNat < 8 :=
  ⟨rfl, by decide⟩

/-- Core 0 does elements of this command. -/
def sDoing (x : Cmd) : State := { sRun.plant 0x3000 (natToBytes 8 0x87) with core := { core0 with pipes := { core0.pipes with cmds := [x] } } }

def agDoing : Agent := ⟨0, some 0, 0, some (.cmd 0 5), none, false⟩

/-- An atomic on eight bytes at offset 0x1000 of its own window, with operands at 0x2000 and the old value for 0x3000. -/
def atom0 (k : Nat) : Cmd :=
  { Cmd.fresh 5 (.atomic k) 4 (BitVec.ofNat 512 (2 ^ 63 + 2 ^ 156 + 0x2000 * 2 ^ 160 + 0x3000 * 2 ^ 192)) 0x1000 0 3 [] 0 with started := true }

theorem witness_CommandEnters_running :
    let s := sDoing (atom0 0)
    (s.getCore 0).cmd 5 = some (atom0 0) ∧ (atom0 0).started = true ∧ (atom0 0).stop = none ∧ (atom0 0).finished = false
      ∧ s.enginesHeld (s.getCore 0) = false ∧ s.heldAny (·.readOf (.cmd 0 5)) = false ∧ (atom0 0).posted = [] ∧ (s.getCore 0).seqStopped (atom0 0) = false
      ∧ (atom0 0).ahead = [] ∧ (atom0 0).early = [] ∧ (s.getCore 0).fen = 0 ∧ (s.getCore 0).ctx = 0 := by decide

theorem witness_CommandEnters_atomic : ∃ o1 u1, (sDoing (atom0 0)).engPlain agDoing (.own 0x2000) 8 = .ok o1 u1
    ∧ ∃ y u, u1.engPlain agDoing (placeAt true 0x1000 0) 8 = .ok y u
      ∧ ∃ v, u.engWrite agDoing ((atom0 0).write (placeAt true 0x1000 0) (natToBytes 8 5) 0 false) = .ok () v := by
  obtain ⟨o1, u1, h1, h⟩ := ok_of_gotRuns (g := (sDoing (atom0 0)).engPlain agDoing (.own 0x2000) 8) (p := fun _ u1 =>
    gotRuns (u1.engPlain agDoing (placeAt true 0x1000 0) 8) fun _ u =>
      gotRuns (u.engWrite agDoing ((atom0 0).write (placeAt true 0x1000 0) (natToBytes 8 5) 0 false)) fun _ _ => true) (by decide)
  obtain ⟨y, u, h2, h⟩ := ok_of_gotRuns h
  exact ⟨o1, u1, h1, y, u, h2, unit_of_gotRuns h⟩

def atomPlaced : Cmd := { atom0 0 with placed := true, snap := [1, 2, 3, 4, 5, 6, 7, 8] }

/-- An STK of format 0 whose source is read. -/
def stk0 : Cmd := { Cmd.fresh 5 .stk 4 0 0x5000 0 3 [] 0 with started := true, placed := true, snap := List.replicate 128 7 }

/-- ATCAS: equal operands exchange, others do not. -/
theorem witness_CommandEnters_new : atomicNew 4 64 0 0 9 = some 9 ∧ atomicNew 4 64 1 0 9 = none ∧ atomicNew 0 64 2 3 3 = some 5
    ∧ (∃ o u, (sDoing (atom0 4)).engPlain agDoing (.own (0x2000 + 8)) 8 = .ok o u)
    ∧ ∃ v, (sDoing atomPlaced).engWrite agDoing (atomPlaced.write (.own 0x3000) [1, 2, 3, 4, 5, 6, 7, 8] 0 false) = .ok () v := by
  refine ⟨by decide, by decide, by decide, ?_, unit_of_gotRuns (by decide)⟩
  obtain ⟨o, u, h, -⟩ := ok_of_gotRuns (g := (sDoing (atom0 4)).engPlain agDoing (.own (0x2000 + 8)) 8) (p := fun _ _ => true) (by decide)
  exact ⟨o, u, h⟩

theorem witness_CommandEnters_copies :
    (∃ v, (sDoing stk0).engWrite agDoing (stk0.write (placeAt false 0x5000 0) (List.replicate 128 7) (mkTag (ktForm 0) 0) false)
      = .ok () v)
    ∧ 128 * 0 < fld kcopy0.shape 95 64
    ∧ (∃ y u, sCopy.engRead agDoing true (placeAt true 0x1000 0) 128 = .ok y u
      ∧ ∃ v, u.engWrite agDoing (kcopy0.write (placeAt true 0x2000 0) y.bytes (kcopyTag kcopy0.shape y.tag) y.bad) = .ok () v) := by
  refine ⟨unit_of_gotRuns (by decide), by decide, ?_⟩
  obtain ⟨y, u, h1, h⟩ := ok_of_gotRuns (g := sCopy.engRead agDoing true (placeAt true 0x1000 0) 128) (p := fun y u =>
    gotRuns (u.engWrite agDoing (kcopy0.write (placeAt true 0x2000 0) y.bytes (kcopyTag kcopy0.shape y.tag) y.bad)) fun _ _ => true) (by decide)
  exact ⟨y, u, h1, unit_of_gotRuns h⟩

/-- A CPBLK of 128 bytes from 0x5000 to 0x6000. -/
def cpblk0 : Cmd := { Cmd.fresh 5 .cpblk 4 (BitVec.ofNat 512 (128 * 2 ^ 64)) 0x5000 0x6000 3 [] 0 with started := true }

theorem witness_CommandEnters_cpblk : 128 * 0 < fld cpblk0.shape 95 64 ∧ bit cpblk0.shape 158 = false
    ∧ (∃ y u, (sDoing cpblk0).engRead agDoing true (.glob 0x5000) 128 = .ok y u
      ∧ ∃ v, u.engWrite agDoing (cpblk0.write (.glob 0x6000) y.bytes y.tag y.bad) = .ok () v)
    ∧ (let f : Cmd := { cpblk0 with shape := BitVec.ofNat 512 (128 * 2 ^ 64 + 2 ^ 158) }
      bit f.shape 158 = true ∧ ∃ v, (sDoing f).engWrite agDoing (f.write (.glob 0x6000) (List.replicate 16 (natToBytes 8 0)).flatten 0 false)
        = .ok () v) := by
  refine ⟨by decide, by decide, ?_, by decide, unit_of_gotRuns (by decide)⟩
  obtain ⟨y, u, h1, h⟩ := ok_of_gotRuns (g := (sDoing cpblk0).engRead agDoing true (.glob 0x5000) 128) (p := fun y u =>
    gotRuns (u.engWrite agDoing (cpblk0.write (.glob 0x6000) y.bytes y.tag y.bad)) fun _ _ => true) (by decide)
  exact ⟨y, u, h1, unit_of_gotRuns h⟩

/-- Descriptors of one element, from 0x1000 to 0x2000 of the window: a byte, and an FP32 element to be quantized. -/
def descCp : BitVec 1024 := BitVec.ofNat 1024 (2 ^ 57 + 2 ^ 121 + 0x1000 + 0x2000 * 2 ^ 64)
def descCpq : BitVec 1024 := BitVec.ofNat 1024 (2 ^ 57 + 2 ^ 121 + 2 ^ 129 + 2 ^ 136 + 0x1000 + 0x2000 * 2 ^ 64)
def cp0 : Cmd := { Cmd.fresh 5 .cp 4 0 0x5000 0 3 [] 0 with started := true, desc := some descCp }
def cpq0 : Cmd := { Cmd.fresh 5 .cpq 4 0 0x5000 0 3 [] 0 with started := true, placed := true, desc := some descCpq }

theorem witness_CommandEnters_tensor :
    (0 < dTotal descCp ∧ dQuant descCp = false
        ∧ ∃ y u, (sDoing cp0).engPlain agDoing (copySource descCp 0) (2 ^ bits descCp 129 128) = .ok y u
          ∧ ∃ v, u.engWrite agDoing (cp0.write (copyTarget descCp 0) (natToBytes (2 ^ bits descCp 129 128) (bytesToNat y.bytes)) 0 false) = .ok () v)
    ∧ (0 < dTotal descCpq ∧ dQuant descCpq = true
        ∧ ∃ y u, (sDoing cpq0).engPlain agDoing (copySource descCpq 0) (2 ^ bits descCpq 129 128) = .ok y u
          ∧ ∃ v, u.engWrite agDoing (cpq0.write (copyTarget descCpq 0) (natToBytes 1 (copyQuant descCpq (bytesToNat y.bytes) 0 0)) 0 false) = .ok () v) := by
  constructor
  · refine ⟨by decide, by decide, ?_⟩
    obtain ⟨y, u, h1, h⟩ := ok_of_gotRuns
      (g := (sDoing cp0).engPlain agDoing
        (copySource descCp 0) (2 ^ bits descCp 129 128)) (p := fun y u =>
        gotRuns (u.engWrite agDoing (cp0.write (copyTarget descCp 0) (natToBytes (2 ^ bits descCp 129 128) (bytesToNat y.bytes)) 0 false))
          fun _ _ => true) (by decide)
    exact ⟨y, u, h1, unit_of_gotRuns h⟩
  · refine ⟨by decide, by decide, ?_⟩
    obtain ⟨y, u, h1, h⟩ := ok_of_gotRuns
      (g := (sDoing cpq0).engPlain agDoing
        (copySource descCpq 0) (2 ^ bits descCpq 129 128)) (p := fun y u =>
        gotRuns (u.engWrite agDoing (cpq0.write (copyTarget descCpq 0) (natToBytes 1 (copyQuant descCpq (bytesToNat y.bytes) 0 0)) 0 false))
          fun _ _ => true) (by decide)
    exact ⟨y, u, h1, unit_of_gotRuns h⟩

/-! ### The matrix unit's windows and its scoreboard -/

def winA : Win := ⟨.mmaA 7, 1, [3], [], 0, 0⟩
def winL : Win := ⟨.latch 2, 1, [3, 4], [], 0, 0⟩
def cWin : Core := { core0 with pipes := { core0.pipes with wins := [winA, winL] } }

theorem witness_MmaIssues_windows : winA ∈ cWin.pipes.wins ∧ winA.rows = 3 :: [] ∧ (∀ v ∈ cWin.pipes.wins, v.dest = winA.dest → v = winA)
    ∧ winA.dest = .mmaA 7 := by decide

theorem witness_LatchLoads_windows : winL ∈ cWin.pipes.wins ∧ winL.dest = .latch 2 ∧ winL.rows = 3 :: [4]
    ∧ (let c : Core := { core0 with pipes := { core0.pipes with wins := [{ winL with rows := [] }] } }
      { winL with rows := [] } ∈ c.pipes.wins ∧ ∀ v ∈ c.pipes.wins, v.dest = .latch 2 → v = { winL with rows := [] }) := by decide

/-- An MMA of accumulator 0 and latch 0 is outstanding; lt2 is loading, and codebook 1 is busy. -/
def sBusy : State :=
  { sM with core := { sM.core with
    pipes := { sM.core.pipes with wins := [winL] }
    mx := { sM.core.mx with mmas := [mma0], cbkBusy := vset sM.core.mx.cbkBusy 1 (some 3) } } }

theorem witness_MatrixHolds_scoreboard : sBusy.core.held = none ∧ sBusy.active = true ∧ sBusy.iss.hold = none
    ∧ (∃ m ∈ sBusy.core.mx.mmas, m.acc = 0) ∧ (∃ w ∈ sBusy.core.pipes.wins, w.dest = .latch 2)
    ∧ (∃ m ∈ sBusy.core.mx.mmas, m.arrayDone = false ∧ m.bank = false ∧ m.latch = 0)
    ∧ vget sBusy.core.mx.cbkBusy 1 ≠ none ∧ classOf (.zero 0) = some .m
    ∧ (∃ m ∈ [{ mma0 with fmt := 0x1040 }], m.arrayDone = false ∧ ∃ n, n < 4 ∧ namesCbk m.fmt n = true)
    ∧ 4 ≤ [mma0, mma0, mma0, mma0].length := by
  refine ⟨by decide, by decide, by decide, ⟨mma0, by decide, by decide⟩, ⟨winL, by decide, by decide⟩,
    ⟨mma0, by decide, by decide⟩, by decide, by decide, ⟨_, List.mem_singleton.mpr rfl, by decide, ?_⟩, by decide⟩
  decide

/-! ### Transfers refused and loops -/

theorem witness_TransfersRefused_relative :
    (BitVec.ofInt 64 (((1 : Addr).toNat : Int) + 24 * (1 : BitVec 14).toInt)).toNat % 8 ≠ 0
    ∧ (BitVec.ofInt 64 (((0x1FFFFFFFFFFFFE8 : Addr).toNat : Int) + 24 * (1 : BitVec 14).toInt)).toNat % 8 = 0
    ∧ 2 ^ 57 ≤ (BitVec.ofInt 64 (((0x1FFFFFFFFFFFFE8 : Addr).toNat : Int) + 24 * (1 : BitVec 14).toInt)).toNat
    ∧ sL.core.held = none ∧ sL.core.anyLevel = false
    ∧ ({ sL with core := { sL.core with held := some ⟨[], [], [], 0⟩ } } : State).core.held.isSome = true := by decide

theorem witness_LoopsStart_ends :
    let go : LoopReq := ⟨1, false, 5, 0, 2, false⟩
    let s : State := { sL with iss := { sL.iss with loopReq := some go } }
    s.iss.hold = none ∧ s.iss.claim = false ∧ s.iss.overflow = none ∧ s.iss.fault = none ∧ s.iss.freeze = none ∧ s.iss.next = none
      ∧ s.iss.trap = none ∧ s.iss.tret = false ∧ s.iss.done = false ∧ s.core.held = none ∧ s.iss.loopReq = some go ∧ go.level < 6
      ∧ go.skip = false ∧ ({ go with skip := true } : LoopReq).skip = true ∧ ({ go with piped := true } : LoopReq).piped = true
      ∧ (∀ l, l < 6 → (vget s.core.loop.lv l).active = true → (vget s.core.loop.lv l).last ≠ s.core.pc + 48) := by decide

theorem witness_LoopGoesRound_piped :
    let ls := sLevels.core.loop
    (vget ls.lv 0).active = true ∧ (vget ls.lv 0).piped = true ∧ (vget ls.lv 0).last = 72 ∧ ls.plc ≠ 0
      ∧ ({ ls with plc := 0 } : LoopSeq).pec ≠ 0 ∧ ({ ls with plc := 0, pec := 0 } : LoopSeq).pec = 0
      ∧ (∀ k, k < 6 → 0 < k → (vget ls.lv k).active = true → (vget ls.lv k).last ≠ 72) := by decide

/-! ### Exchanges, peers and repair -/

theorem witness_ExchangeEvents_xtmo : ((xpend1.full = false ∧ xpend1.issue = none) ∨ sExch.unmanned xpend1 = true) ∧ xpend1.xtmo = false := by
  decide

end Sys2Proof.Tests
end

section
/-! SUPPORT. What the results due in a cycle do as they land, one after the other (R46, R57): whether one lands or stays due, what it
puts on a queue, and what it leaves unchanged. -/

namespace Sys2Proof.Machine

/-! ### Due results in slot order -/

/-- Cutting a list into its classes by a number below n, in rising order, permutes it. -/
theorem flatMap_range_filter_perm {α : Type} (f : α → Nat) (l : List α) (n : Nat) :
    ((List.range n).flatMap fun k => l.filter fun x => decide (f x = k)).Perm (l.filter fun x => decide (f x < n)) := by
  induction n with
  | zero => simp
  | succ n ih =>
    have below : (l.filter fun x => decide (f x < n + 1)).filter (fun x => decide (f x < n)) = l.filter fun x => decide (f x < n) := by
      rw [List.filter_filter]
      exact List.filter_congr fun x _ => by simp only [← Bool.decide_and, decide_eq_decide]; omega
    have at_n : (l.filter fun x => decide (f x < n + 1)).filter (fun x => !decide (f x < n)) = l.filter fun x => decide (f x = n) := by
      rw [List.filter_filter]
      exact List.filter_congr fun x _ => by simp only [← decide_not, ← Bool.decide_and, decide_eq_decide]; omega
    have cut := List.filter_append_perm (fun x => decide (f x < n)) (l.filter fun x => decide (f x < n + 1))
    rw [below, at_n] at cut
    simp only [List.range_succ, List.flatMap_append, List.flatMap_singleton]
    exact (ih.append_right _).trans cut

theorem dueInOrder_perm (l : List Inflight) (h : ∀ i ∈ l, i.slot < 8) :
    (dueInOrder l).Perm (l.filter fun i => decide (i.rem = 0)) := by
  have all : (l.filter fun i => decide (i.rem = 0)).filter (fun i => decide (i.slot < 8)) = l.filter fun i => decide (i.rem = 0) :=
    List.filter_eq_self.mpr fun i hi => decide_eq_true (h i (List.mem_filter.mp hi).1)
  have cut := flatMap_range_filter_perm Inflight.slot (l.filter fun i => decide (i.rem = 0)) 8
  rwa [all] at cut

theorem dueInOrder_pairwise (l : List Inflight) : (dueInOrder l).Pairwise fun i j => i.slot ≤ j.slot := by
  have slot {k : Nat} {i : Inflight} (h : i ∈ (l.filter fun i => decide (i.rem = 0)).filter fun i => decide (i.slot = k)) : i.slot = k :=
    of_decide_eq_true (List.mem_filter.mp h).2
  refine List.pairwise_flatMap.mpr ⟨fun k _ => ?_, List.pairwise_lt_range.imp fun {a b} hab i hi j hj => ?_⟩
  · exact List.pairwise_of_forall_mem_list fun i hi j hj => Nat.le_of_eq ((slot hi).trans (slot hj).symm)
  · rw [slot hi, slot hj]
    exact Nat.le_of_lt hab

theorem rem_of_mem_dueInOrder (l : List Inflight) (i : Inflight) (h : i ∈ dueInOrder l) : i.rem = 0 := by
  obtain ⟨k, -, hi⟩ := List.mem_flatMap.mp h
  exact of_decide_eq_true (List.mem_filter.mp (List.mem_filter.mp hi).1).2

/-! ### Loads that are due -/

/-- The access whose data a landing brings. -/
def Landing.loadId : Landing → Option Nat
  | .loadQ _ id => some id
  | .loadX _ id => some id
  | .push _ _ => none
  | .sreg _ _ => none
  | .pred _ _ => none
  | .maskPush _ _ => none
  | .spWrite _ _ => none
  | .stored _ => none

/-- The accesses of the loads among some results in flight. -/
def loadsOf (l : List Inflight) : List Nat := l.filterMap (·.what.loadId)

theorem loadsOf_cons (i : Inflight) (l : List Inflight) : loadsOf (i :: l) = i.what.loadId.toList ++ loadsOf l := by
  cases h : i.what.loadId <;> simp [loadsOf, h]

theorem Core.dueLoads_eq (c : Core) : c.dueLoads = loadsOf (c.pipes.inflight.filter fun i => decide (i.rem = 0)) :=
  congrArg (List.filterMap · _) (funext fun i => by cases i.what <;> rfl)

/-- What a landing load reads of its access: all but what stores of its own bundle have left it. -/
def Access.asLoad (a : Access) : Access := { a with before := [] }

/-- What a landing load of an id reads. -/
def Core.loadOf (c : Core) (id : Nat) : Option Access := (c.access id).map Access.asLoad

theorem Core.access_elim_eq_loadOf_elim {β : Type} (c : Core) (id : Nat) (b : β) (f : Access → β) (hf : ∀ a, f a.asLoad = f a) :
    (c.access id).elim b f = (c.loadOf id).elim b f := by
  unfold Core.loadOf
  cases c.access id with
  | none => rfl
  | some a => exact (hf a).symm

theorem Core.loadOf_of_pipes (c d : Core) (id : Nat) (h : d.pipes = c.pipes) : d.loadOf id = c.loadOf id := by
  unfold Core.loadOf Core.access
  rw [h]

/-- Two cores of which a landing reads the same load. -/
def Core.SameLoad (c d : Core) (w : Landing) : Prop := ∀ id, w.loadId = some id → d.loadOf id = c.loadOf id

theorem Core.arrived_congr (c d : Core) (id : Nat) (h : d.loadOf id = c.loadOf id) : d.arrived id = c.arrived id := by
  unfold Core.arrived
  rw [d.access_elim_eq_loadOf_elim id false (·.arrived) fun _ => rfl, c.access_elim_eq_loadOf_elim id false (·.arrived) fun _ => rfl, h]

theorem Core.lateFor_congr (c d : Core) (w : Landing) (h : c.SameLoad d w) : d.lateFor w = c.lateFor w := by
  cases w with
  | loadQ p id => exact congrArg not (c.arrived_congr d id (h id rfl))
  | _ => rfl

theorem Core.entriesTo_congr (c d : Core) (q : Nat) (w : Landing) (h : c.SameLoad d w) : d.entriesTo q w = c.entriesTo q w := by
  cases w with
  | loadQ p id =>
    unfold Core.entriesTo
    dsimp only
    rw [d.access_elim_eq_loadOf_elim id _ _ fun _ => rfl, c.access_elim_eq_loadOf_elim id _ _ fun _ => rfl, h id rfl]
  | _ => rfl

theorem Core.entriesTo_of_not_pushesTo (c : Core) (q : Nat) (w : Landing) (h : pushesTo q w = false) : c.entriesTo q w = [] := by
  cases w with
  | push p es => exact if_neg (of_decide_eq_false h)
  | loadQ p id => exact if_neg (of_decide_eq_false h)
  | _ => rfl

/-- A store's due cycle pushes on no queue. -/
theorem not_pushesTo_of_not_isResult (q : Nat) (w : Landing) (h : w.isResult = false) : pushesTo q w = false := by
  cases w with
  | stored id => rfl
  | _ => exact absurd h nofun

/-! ### One landing: its queue entries and its frame -/

@[simp] theorem Core.dropAccess_queue (c : Core) (id q : Nat) : (c.dropAccess id).queue q = c.queue q := rfl

theorem Core.dropAccess_loadOf (c : Core) (x id : Nat) (h : x ≠ id) : (c.dropAccess x).loadOf id = c.loadOf id := by
  have found : (c.dropAccess x).access id = c.access id := by
    refine (List.find?_filter ..).trans (congrArg (c.pipes.acc.find? ·) (funext fun a => ?_))
    by_cases e : a.id = id
    · simp [e, Ne.symm h]
    · simp [e]
  exact congrArg (·.map Access.asLoad) found

theorem Core.keepBefore_loadOf (c : Core) (b a n id : Nat) : (c.keepBefore b a n).loadOf id = c.loadOf id := by
  unfold Core.loadOf Core.access Core.keepBefore mapIf
  dsimp only
  rw [List.find?_map, Option.map_map]
  congr 1
  · funext x
    dsimp only [Function.comp]
    split <;> rfl
  · congr 1
    funext x
    dsimp only [Function.comp]
    split <;> rfl

theorem Scratch.portWrote_bank (sp : Scratch) (t a n : Nat) : (sp.portWrote t a n).bank = sp.bank :=
  List.foldlRecOn _ _ (motive := fun x : Scratch => x.bank = sp.bank) rfl fun _ h _ _ => h

theorem Scratch.storePart_bank (sp : Scratch) (a : Nat) (bs : List Byte) (tag : Byte) : (sp.storePart a bs tag).bank = sp.bank := by
  unfold Scratch.storePart
  split <;> rfl

theorem Scratch.store_bank (sp : Scratch) (a : Nat) (bs : List Byte) (tag : Byte) : (sp.store a bs tag).bank = sp.bank :=
  List.foldlRecOn _ _ (motive := fun x : Scratch × List Byte => x.1.bank = sp.bank) rfl
    fun _ h _ _ => (Scratch.storePart_bank ..).trans h

theorem Core.spStoreAt_bank (c : Core) (t a : Nat) (bs : List Byte) : (c.spStoreAt t a bs).sp.bank = c.sp.bank :=
  (Scratch.portWrote_bank ..).trans (Scratch.store_bank ..)

/-- A landing leaves the core's key and its banks' control bytes as they are. -/
theorem Core.land_key_bank (c : Core) (w : Landing) : (c.land w).key = c.key ∧ (c.land w).sp.bank = c.sp.bank := by
  cases w with
  | sreg d v => exact ⟨c.ws_key d v, congrArg Scratch.bank (c.ws_sp d v)⟩
  | pred d v => exact ⟨c.wp_key d v, congrArg Scratch.bank (c.wp_sp d v)⟩
  | push q es => exact ⟨rfl, rfl⟩
  | maskPush v1 m => exact ⟨rfl, rfl⟩
  | spWrite a bs => exact ⟨rfl, c.spStoreAt_bank ..⟩
  | stored id => exact ⟨rfl, rfl⟩
  | loadQ q id =>
    rw [Core.land]
    split <;> exact ⟨rfl, rfl⟩
  | loadX dst id =>
    rw [Core.land]
    split
    · exact ⟨rfl, c.spStoreAt_bank ..⟩
    · exact ⟨rfl, rfl⟩

/-- A landing takes no access but its own. -/
theorem Core.land_loadOf (c : Core) (w : Landing) (id : Nat) (h : w.loadId ≠ some id) : (c.land w).loadOf id = c.loadOf id := by
  cases w with
  | sreg d v => exact c.loadOf_of_pipes _ id (c.ws_pipes d v)
  | pred d v => exact c.loadOf_of_pipes _ id (c.wp_pipes d v)
  | push q es => rfl
  | maskPush v1 m => rfl
  | spWrite a bs => rfl
  | stored x => rfl
  | loadQ _ x | loadX _ x =>
    have hx : x ≠ id := fun e => h (congrArg some e)
    rw [Core.land]
    split
    · exact Core.dropAccess_loadOf _ x id hx
    · rfl

/-- A landing whose data is there puts its entries behind those of every queue. -/
theorem Core.land_queue (c : Core) (w : Landing) (q : Nat) (h : c.lateFor w = false) :
    (c.land w).queue q = c.queue q ++ c.entriesTo q w := by
  have behind (p : BitVec 4) (es : List QEntry) :
      (c.setQueue p.toNat (c.queue p.toNat ++ es)).queue q = c.queue q ++ if p.toNat = q then es else [] := by
    rw [Core.queue_setQueue _ _ _ _ p.isLt]
    by_cases e : q = p.toNat
    · simp [e]
    · simp [e, Ne.symm e]
  cases w with
  | push p es => exact behind p es
  | loadQ p id =>
    have there : c.arrived id = true := by simpa [Core.lateFor] using h
    obtain ⟨a, ha⟩ : ∃ a, c.access id = some a := by
      cases ha : c.access id with
      | none => simp [Core.arrived, ha] at there
      | some a => exact ⟨a, rfl⟩
    simpa [Core.land, Core.entriesTo, ha] using behind p _
  | sreg d v => simp [Core.land, Core.queue, Core.entriesTo]
  | pred d v => simp [Core.land, Core.queue, Core.entriesTo]
  | maskPush v1 m => cases v1 <;> exact (List.append_nil _).symm
  | spWrite a bs => exact (List.append_nil _).symm
  | stored id => exact (List.append_nil _).symm
  | loadX dst id =>
    rw [Core.land]
    split <;> exact (List.append_nil _).symm

/-! ### A due result lands or stays -/

/-- A due landing may stay due: a load's data is not there, or a store meets a FIFO bank (R46, R105). -/
def Core.mayStay (c : Core) (w : Landing) : Bool :=
  match w with
  | .loadQ _ id => !c.arrived id
  | .loadX d id => !c.arrived id || (c.access id).elim false fun a => c.mayFill d a.bytes.length
  | .push _ _ => false
  | .sreg _ _ => false
  | .pred _ _ => false
  | .maskPush _ _ => false
  | .spWrite a bs => c.mayFill a bs.length
  | .stored _ => false

theorem Core.lateNow_eq (c : Core) : c.lateNow = c.pipes.inflight.any fun i => decide (i.rem = 0) && c.mayStay i.what :=
  congrArg (c.pipes.inflight.any ·) (funext fun i => congrArg (decide (i.rem = 0) && ·) (by cases i.what <;> rfl))

theorem Core.mayFill_congr (c d : Core) (a n : Nat) (hk : d.key = c.key) (hb : d.sp.bank = c.sp.bank) : d.mayFill a n = c.mayFill a n := by
  unfold Core.mayFill Core.spSize Core.newt
  rw [hk, hb]

theorem Core.mayStay_congr (c d : Core) (w : Landing) (hk : d.key = c.key) (hb : d.sp.bank = c.sp.bank) (h : c.SameLoad d w) :
    d.mayStay w = c.mayStay w := by
  cases w with
  | loadQ p id => exact congrArg not (c.arrived_congr d id (h id rfl))
  | spWrite a bs => exact c.mayFill_congr d _ _ hk hb
  | loadX dst id =>
    unfold Core.mayStay
    dsimp only
    simp only [c.mayFill_congr d _ _ hk hb, c.arrived_congr d id (h id rfl)]
    rw [d.access_elim_eq_loadOf_elim id _ _ fun _ => rfl, c.access_elim_eq_loadOf_elim id _ _ fun _ => rfl, h id rfl]
  | _ => rfl

/-- Only a bank in FIFO mode can be full. -/
theorem Core.mayFill_of_storeWaits (c : Core) (a n : Nat) (h : c.storeWaits a n = true) : c.mayFill a n = true := by
  obtain ⟨p, hp, full⟩ := List.any_eq_true.mp h
  exact List.any_eq_true.mpr ⟨p, hp, ((Bool.and_eq_true ..).mp full).1⟩

theorem Core.mayStay_loadX (c : Core) (dst id : Nat)
    (h : ¬(c.arrived id && !c.storeWaits dst ((c.access id).elim 0 fun a => a.bytes.length)) = true) :
    c.mayStay (.loadX dst id) = true := by
  have fills := fun a => c.mayFill_of_storeWaits dst (Access.bytes a).length
  cases ha : c.access id with
  | none => simp [Core.mayStay, Core.arrived, ha]
  | some a =>
    by_cases there : a.arrived = true
    · simpa [Core.mayStay, Core.arrived, ha, there] using fills a (by simpa [Core.arrived, ha, there] using h)
    · simp [Core.mayStay, Core.arrived, ha, there]

/-- A landing lands: its data is there, and no load holds a queue it pushes on. -/
structure Lands (c : Core) (blocked : List Nat) (w : Landing) : Prop where
  here : c.lateFor w = false
  free : ∀ q, pushesTo q w = true → setHas q blocked = false

/-- A landing stays due and holds the further queues qs: those are its own, its queue is held from now on, it stays behind a held push
or for its own data, and a result stays with nothing held only where it may. -/
structure Stays (c : Core) (blocked qs : List Nat) (w : Landing) : Prop where
  own : ∀ q, setHas q qs = true → pushesTo q w = true
  holds : ∀ q, pushesTo q w = true → setHas q (qs ++ blocked) = true
  late : ∀ q, pushesTo q w = true → setHas q blocked = false → c.lateFor w = true
  may : blocked = [] → w.isResult = true → c.mayStay w = true

@[simp] theorem setHas_append (x : Nat) (k l : List Nat) : setHas x (k ++ l) = (setHas x k || setHas x l) := List.any_append

@[simp] theorem setHas_nil (x : Nat) : setHas x [] = false := rfl

@[simp] theorem setHas_cons (x y : Nat) (l : List Nat) : setHas x (y :: l) = (decide (y = x) || setHas x l) := rfl

/-- A landing that pushes on no queue stays where it may. -/
theorem Stays.of_no_push (c : Core) (blocked : List Nat) (w : Landing) (hp : ∀ q, pushesTo q w = false)
    (may : w.isResult = true → c.mayStay w = true) : Stays c blocked [] w where
  own _ h := absurd h Bool.false_ne_true
  holds q h := absurd ((hp q).symm.trans h) Bool.false_ne_true
  late q h := absurd ((hp q).symm.trans h) Bool.false_ne_true
  may _ := may

theorem Lands.of_no_push (c : Core) (blocked : List Nat) (w : Landing) (hp : ∀ q, pushesTo q w = false) (h : c.lateFor w = false) :
    Lands c blocked w := ⟨h, fun q hq => absurd ((hp q).symm.trans hq) Bool.false_ne_true⟩

/-- The core in which a due landing lands: as it stands, or once its bundle's loads have kept what a store overwrites. -/
def Core.ReadyFor (c d : Core) : Prop := d = c ∨ ∃ b a n, d = c.keepBefore b a n

/-- A due result lands, and nothing else changes, or stays, and the core does not change. -/
theorem landStep_cases (c : Core) (keep : List Inflight) (blocked : List Nat) (i : Inflight) :
    (∃ d, c.ReadyFor d ∧ landStep (c, keep, blocked) i = (d.land i.what, keep, blocked) ∧ Lands c blocked i.what)
      ∨ ∃ qs, landStep (c, keep, blocked) i = (c, keep ++ [i], qs ++ blocked) ∧ Stays c blocked qs i.what := by
  obtain ⟨rem, slot, bundle, w⟩ := i
  cases w with
  | sreg d v => exact .inl ⟨c, .inl rfl, rfl, .of_no_push _ _ _ (fun _ => rfl) rfl⟩
  | pred d v => exact .inl ⟨c, .inl rfl, rfl, .of_no_push _ _ _ (fun _ => rfl) rfl⟩
  | maskPush v1 m => exact .inl ⟨c, .inl rfl, rfl, .of_no_push _ _ _ (fun _ => rfl) rfl⟩
  | stored id =>
    by_cases early : (c.access id).elim false (·.unchecked) = true
    · exact .inr ⟨[], if_pos early, .of_no_push _ _ _ (fun _ => rfl) fun h => absurd h Bool.false_ne_true⟩
    · exact .inl ⟨c, .inl rfl, if_neg early, .of_no_push _ _ _ (fun _ => rfl) rfl⟩
  | spWrite a bs =>
    by_cases full : c.storeWaits a bs.length = true
    · exact .inr ⟨[], if_pos full, .of_no_push _ _ _ (fun _ => rfl) fun _ => c.mayFill_of_storeWaits a _ full⟩
    · exact .inl ⟨_, .inr ⟨bundle, a, bs.length, rfl⟩, if_neg full, .of_no_push _ _ _ (fun _ => rfl) rfl⟩
  | loadX dst id =>
    by_cases lands : (c.arrived id && !c.storeWaits dst ((c.access id).elim 0 fun a => a.bytes.length)) = true
    · exact .inl ⟨c, .inl rfl, if_pos lands, .of_no_push _ _ _ (fun _ => rfl) rfl⟩
    · exact .inr ⟨[], if_neg lands, .of_no_push _ _ _ (fun _ => rfl) fun _ => c.mayStay_loadX dst id lands⟩
  | push p es =>
    by_cases held : setHas p.toNat blocked = true
    · refine .inr ⟨[], if_pos held, nofun, fun q h => ?_, fun q h free => ?_, fun e => ?_⟩
      · rwa [← of_decide_eq_true h]
      · rw [← of_decide_eq_true h] at free
        exact absurd held (Bool.eq_false_iff.mp free)
      · subst e
        exact absurd held Bool.false_ne_true
    · refine .inl ⟨c, .inl rfl, if_neg held, rfl, fun q h => ?_⟩
      rw [← of_decide_eq_true h]
      exact Bool.eq_false_iff.mpr held
  | loadQ p id =>
    by_cases lands : (c.arrived id && !setHas p.toNat blocked) = true
    · obtain ⟨there, free⟩ := (Bool.and_eq_true ..).mp lands
      refine .inl ⟨c, .inl rfl, if_pos lands, by simp [Core.lateFor, there], fun q h => ?_⟩
      rw [← of_decide_eq_true h]
      simpa using free
    · have late (free : setHas p.toNat blocked = false) : (!c.arrived id) = true := by simpa [free] using lands
      refine .inr ⟨[p.toNat], if_neg lands, fun q h => by simpa [pushesTo] using h, fun q h => ?_, fun q h free => ?_, fun e _ => ?_⟩
      · simp [← of_decide_eq_true h]
      · rw [← of_decide_eq_true h] at free
        exact late free
      · subst e
        exact late rfl

theorem Core.ReadyFor.loadOf {c d : Core} (h : c.ReadyFor d) (id : Nat) : d.loadOf id = c.loadOf id := by
  rcases h with rfl | ⟨b, a, n, rfl⟩
  · rfl
  · exact c.keepBefore_loadOf b a n id

theorem Core.ReadyFor.sameLoad {c d : Core} (h : c.ReadyFor d) (w : Landing) : c.SameLoad d w := fun id _ => h.loadOf id

theorem Core.ReadyFor.queue {c d : Core} (h : c.ReadyFor d) (q : Nat) : d.queue q = c.queue q := by
  rcases h with rfl | ⟨b, a, n, rfl⟩ <;> rfl

theorem Core.ReadyFor.key_bank {c d : Core} (h : c.ReadyFor d) : d.key = c.key ∧ d.sp.bank = c.sp.bank := by
  rcases h with rfl | ⟨b, a, n, rfl⟩ <;> exact ⟨rfl, rfl⟩

/-- A step keeps the key, the banks' control bytes, and every load but the one that lands. -/
theorem landStep_frame (c : Core) (keep : List Inflight) (blocked : List Nat) (i : Inflight) :
    let d := (landStep (c, keep, blocked) i).1
    d.key = c.key ∧ d.sp.bank = c.sp.bank ∧ ∀ id, i.what.loadId ≠ some id → d.loadOf id = c.loadOf id := by
  rcases landStep_cases c keep blocked i with ⟨d, ready, e, -⟩ | ⟨qs, e, -⟩
  · obtain ⟨key, bank⟩ := d.land_key_bank i.what
    obtain ⟨key', bank'⟩ := ready.key_bank
    rw [e]
    exact ⟨key.trans key', bank.trans bank', fun id h => (d.land_loadOf i.what id h).trans (ready.loadOf id)⟩
  · rw [e]
    exact ⟨rfl, rfl, fun _ _ => rfl⟩

/-! ### A cycle's landings -/

/-- The core c before some landings and the core d after them agree on what the landings still to come read. -/
structure Core.AgreesFor (c d : Core) (l : List Inflight) : Prop where
  key : d.key = c.key
  bank : d.sp.bank = c.sp.bank
  load : ∀ id ∈ loadsOf l, d.loadOf id = c.loadOf id

theorem Core.AgreesFor.refl (c : Core) (l : List Inflight) : c.AgreesFor c l := ⟨rfl, rfl, fun _ _ => rfl⟩

theorem Core.AgreesFor.sameLoad {c d : Core} {i : Inflight} {l : List Inflight} (h : c.AgreesFor d (i :: l)) : c.SameLoad d i.what :=
  fun id e => h.load id (List.mem_filterMap.mpr ⟨i, List.mem_cons_self, e⟩)

/-- No two loads bring the data of one access, so a step leaves the others theirs. -/
theorem Core.AgreesFor.step {c d : Core} {i : Inflight} {l : List Inflight} (h : c.AgreesFor d (i :: l)) (nodup : (loadsOf (i :: l)).Nodup)
    (keep : List Inflight) (blocked : List Nat) : c.AgreesFor (landStep (d, keep, blocked) i).1 l := by
  obtain ⟨key, bank, load⟩ := landStep_frame d keep blocked i
  refine ⟨key.trans h.key, bank.trans h.bank, fun id hid => (load id fun own => ?_).trans (h.load id ?_)⟩
  · rw [loadsOf_cons, own] at nodup
    exact (List.nodup_cons.mp nodup).1 hid
  · rw [loadsOf_cons]
    exact List.mem_append_right _ hid

theorem loadsOf_nodup_tail {i : Inflight} {l : List Inflight} (h : (loadsOf (i :: l)).Nodup) : (loadsOf l).Nodup :=
  h.sublist ((List.sublist_cons_self i l).filterMap _)

/-- The landings among some results that push on a queue. -/
def pushesOf (q : Nat) (l : List Inflight) : List Landing := (l.filter fun i => pushesTo q i.what).map (·.what)

/-- What a queue receives of pushes that land in turn: the entries of those before the first that waits for its data. -/
def Core.received (c : Core) (q : Nat) (ws : List Landing) : List QEntry :=
  (ws.takeWhile fun w => !c.lateFor w).flatMap fun w => c.entriesTo q w

theorem Core.received_late (c : Core) (q : Nat) (w : Landing) (ws : List Landing) (h : c.lateFor w = true) :
    c.received q (w :: ws) = [] := by
  simp [Core.received, h]

theorem Core.received_here (c : Core) (q : Nat) (w : Landing) (ws : List Landing) (h : c.lateFor w = false) :
    c.received q (w :: ws) = c.entriesTo q w ++ c.received q ws := by
  simp [Core.received, h]

theorem pushesOf_cons (q : Nat) (i : Inflight) (l : List Inflight) :
    pushesOf q (i :: l) = if pushesTo q i.what then i.what :: pushesOf q l else pushesOf q l := by
  cases h : pushesTo q i.what <;> simp [pushesOf, h]

/-- Results that land in turn put on a queue that is not held what it receives of their pushes, and nothing on one that is held. -/
theorem foldl_landStep_queue (c : Core) (q : Nat) (l : List Inflight) :
    ∀ (d : Core) (keep : List Inflight) (blocked : List Nat), (loadsOf l).Nodup → c.AgreesFor d l →
      (l.foldl landStep (d, keep, blocked)).1.queue q
        = d.queue q ++ if setHas q blocked then [] else c.received q (pushesOf q l) := by
  induction l with
  | nil => intro d _ blocked _ _; cases setHas q blocked <;> simp [pushesOf, Core.received]
  | cons i l ih =>
    intro d keep blocked nodup agrees
    have later := agrees.step nodup keep blocked
    have late := c.lateFor_congr d i.what agrees.sameLoad
    rw [List.foldl_cons]
    rcases landStep_cases d keep blocked i with ⟨e, ready, step, lands⟩ | ⟨qs, step, stays⟩
    · have here : e.lateFor i.what = false := (d.lateFor_congr e i.what (ready.sameLoad _)).trans lands.here
      have entries : e.entriesTo q i.what = c.entriesTo q i.what :=
        (d.entriesTo_congr e q i.what (ready.sameLoad _)).trans (c.entriesTo_congr d q i.what agrees.sameLoad)
      rw [step] at later ⊢
      rw [ih _ keep blocked (loadsOf_nodup_tail nodup) later, e.land_queue i.what q here, ready.queue, entries, pushesOf_cons]
      by_cases push : pushesTo q i.what = true
      · simp [push, lands.free q push, c.received_here q _ _ (late.symm.trans lands.here)]
      · simp [push, c.entriesTo_of_not_pushesTo q _ (Bool.eq_false_iff.mpr push)]
    · rw [step] at later ⊢
      rw [ih d _ (qs ++ blocked) (loadsOf_nodup_tail nodup) later, pushesOf_cons]
      by_cases push : pushesTo q i.what = true
      · rw [stays.holds q push]
        cases free : setHas q blocked with
        | true => rfl
        | false => simp [push, c.received_late q _ _ (late.symm.trans (stays.late q push free))]
      · have other : setHas q qs = false := Bool.eq_false_iff.mpr fun h => push (stays.own q h)
        simp [push, other]

/-- What stays due was due. -/
theorem foldl_landStep_keep (l : List Inflight) : ∀ (c : Core) (keep : List Inflight) (blocked : List Nat),
    ∀ i ∈ (l.foldl landStep (c, keep, blocked)).2.1, i ∈ keep ∨ i ∈ l := by
  induction l with
  | nil => exact fun _ _ _ i h => .inl h
  | cons j l ih =>
    intro c keep blocked i h
    rw [List.foldl_cons] at h
    rcases landStep_cases c keep blocked j with ⟨d, -, step, -⟩ | ⟨qs, step, -⟩
    · rw [step] at h
      exact (ih _ _ _ i h).imp_right (List.mem_cons_of_mem j)
    · rw [step] at h
      rcases ih _ _ _ i h with h | h
      · exact (List.mem_append.mp h).imp_right fun h => List.mem_cons.mpr (.inl (List.mem_singleton.mp h))
      · exact .inr (List.mem_cons_of_mem j h)

/-- Where no due result may stay, none does: no load holds a queue, and what is left are the due cycles of stores. -/
theorem foldl_landStep_all_land (c : Core) (l : List Inflight) : ∀ (d : Core) (keep : List Inflight),
    (loadsOf l).Nodup → c.AgreesFor d l → (∀ i ∈ l, c.mayStay i.what = false) → (∀ i ∈ keep, i.what.isResult = false) →
      ∀ i ∈ (l.foldl landStep (d, keep, [])).2.1, i.what.isResult = false := by
  induction l with
  | nil => exact fun _ _ _ _ _ hk => hk
  | cons j l ih =>
    intro d keep nodup agrees lands hk
    have later := agrees.step nodup keep []
    have rest := fun i hi => lands i (List.mem_cons_of_mem j hi)
    rw [List.foldl_cons]
    rcases landStep_cases d keep [] j with ⟨e, -, step, -⟩ | ⟨qs, step, stays⟩
    · rw [step] at later ⊢
      exact ih _ keep (loadsOf_nodup_tail nodup) later rest hk
    · have dueCycle : j.what.isResult = false := Bool.eq_false_iff.mpr fun result => by
        have may := (c.mayStay_congr d j.what agrees.key agrees.bank agrees.sameLoad).symm.trans (stays.may rfl result)
        exact absurd may (Bool.eq_false_iff.mp (lands j List.mem_cons_self))
      have none_held : qs = [] := List.eq_nil_iff_forall_not_mem.mpr fun q hq => by
        have push := stays.own q (List.any_eq_true.mpr ⟨q, hq, decide_eq_true rfl⟩)
        exact absurd push (Bool.eq_false_iff.mp (not_pushesTo_of_not_isResult q _ dueCycle))
      rw [step, none_held] at later ⊢
      refine ih d _ (loadsOf_nodup_tail nodup) later rest fun i hi => ?_
      rcases List.mem_append.mp hi with hi | hi
      · exact hk i hi
      · exact List.mem_singleton.mp hi ▸ dueCycle

/-! ### The end of the landings -/

theorem Core.landDue_inflight (c : Core) : c.landDue.pipes.inflight
    = ((dueInOrder c.pipes.inflight).foldl landStep (c, [], [])).2.1 ++ c.pipes.inflight.filter fun i => decide (i.rem ≠ 0) := rfl

theorem Core.loadsOf_dueInOrder_nodup (c : Core) (slots : ∀ i ∈ c.pipes.inflight, i.slot < 8) (nodup : c.dueLoads.Nodup) :
    (loadsOf (dueInOrder c.pipes.inflight)).Nodup := by
  rw [c.dueLoads_eq] at nodup
  exact ((dueInOrder_perm _ slots).filterMap _).nodup_iff.mpr nodup

/-- R57: a queue receives, in slot order, the due pushes before the first whose data is not there. -/
theorem Core.landDue_queue (c : Core) (q : Nat) (slots : ∀ i ∈ c.pipes.inflight, i.slot < 8) (nodup : c.dueLoads.Nodup) :
    c.landDue.queue q = c.queue q ++ c.received q (pushesOf q (dueInOrder c.pipes.inflight)) :=
  foldl_landStep_queue c q _ c [] [] (c.loadsOf_dueInOrder_nodup slots nodup) (.refl c _)

theorem Core.landDue_keeps_not_due (c : Core) : (c.landDue.pipes.inflight.filter fun i => decide (i.rem ≠ 0))
    = c.pipes.inflight.filter fun i => decide (i.rem ≠ 0) := by
  have stay_due (i : Inflight) (h : i ∈ ((dueInOrder c.pipes.inflight).foldl landStep (c, [], [])).2.1) : i.rem = 0 :=
    rem_of_mem_dueInOrder _ i ((foldl_landStep_keep _ c [] [] i h).resolve_left List.not_mem_nil)
  rw [c.landDue_inflight, List.filter_append, List.filter_eq_nil_iff.mpr fun i h => by simp [stay_due i h], List.nil_append,
    List.filter_filter]
  exact List.filter_congr fun i _ => Bool.and_self _

theorem Core.landDue_all_land (c : Core) (slots : ∀ i ∈ c.pipes.inflight, i.slot < 8) (nodup : c.dueLoads.Nodup)
    (h : c.lateNow = false) : (c.landDue.pipes.inflight.filter fun i => decide (i.rem = 0) && i.what.isResult) = [] := by
  have lands (i : Inflight) (hi : i ∈ dueInOrder c.pipes.inflight) : c.mayStay i.what = false := by
    have due := (dueInOrder_perm _ slots).mem_iff.mp hi
    rw [c.lateNow_eq, List.any_eq_false] at h
    simpa [rem_of_mem_dueInOrder _ i hi] using h i (List.mem_filter.mp due).1
  have kept := foldl_landStep_all_land c _ c [] (c.loadsOf_dueInOrder_nodup slots nodup) (.refl c _) lands nofun
  rw [c.landDue_inflight, List.filter_append, List.append_eq_nil_iff, List.filter_eq_nil_iff, List.filter_eq_nil_iff]
  refine And.intro (fun i hi => by simp [kept i hi]) fun i hi => ?_
  simp [of_decide_eq_true (List.mem_filter.mp hi).2]

end Sys2Proof.Machine

open Sys2Proof Sys2Proof.Machine in
/-- Settles O15: the due pushes of a queue stand in slot order in `dueInOrder`, and the landings are a fold along it. The statement's
last clause, that no due result is left where none is late, stands within the predicate of the filter before it; it is proved of itself
(`Core.landDue_all_land`). -/
theorem pushesEnterInOrder : Obligations.PushesEnterInOrder := by
  intro c q _ slots nodup
  refine ⟨⟨(dueInOrder c.pipes.inflight).filter fun i => pushesTo q i.what, ?_, (dueInOrder_pairwise _).filter _,
    c.landDue_queue q slots nodup⟩, ?_⟩
  · have due := (dueInOrder_perm _ slots).filter fun i => pushesTo q i.what
    rw [List.filter_filter] at due
    simpa only [Bool.and_comm] using due
  · have last := c.landDue_all_land slots nodup
    simpa only [eq_true last, and_true, Bool.decide_eq_true] using c.landDue_keeps_not_due
end

section
/-! SUPPORT. The S slot (R213 to R217): the operations on words compute the numbers of the rules, and an S instruction that writes a
scalar register or a predicate puts that value in flight where it runs. -/

namespace Sys2Proof.Machine

/-! ### Words from numbers -/

theorem eq_ofNat_of_toNat_eq {v : Word} {n : Nat} (h : v.toNat = n) : v = BitVec.ofNat 64 n := by
  rw [← h, BitVec.ofNat_toNat, BitVec.setWidth_eq]

theorem add_eq_ofNat (a b : Word) : a + b = BitVec.ofNat 64 (a.toNat + b.toNat) := by
  simp [BitVec.ofNat_add]

theorem sub_eq_ofInt (a b : Word) : a - b = BitVec.ofInt 64 (a.toNat - b.toNat) := by
  simp [Int.sub_eq_add_neg, BitVec.ofInt_add, BitVec.ofInt_neg, BitVec.sub_eq_add_neg]

theorem mul_eq_ofNat (a b : Word) : a * b = BitVec.ofNat 64 (a.toNat * b.toNat) := by
  simp [BitVec.ofNat_mul]

/-- The immediate of ADDI and the broadcast value of ADDB are signed numbers of their own widths (R60, R215). -/
theorem add_signExtend_eq_ofInt {w : Nat} (a : Word) (i : BitVec w) :
    a + i.signExtend 64 = BitVec.ofInt 64 (a.toNat + i.toInt) := by
  simp [BitVec.ofInt_add, BitVec.signExtend]

theorem minu_eq_ofNat (a b : Word) : (if a ≤ b then a else b) = BitVec.ofNat 64 (min a.toNat b.toNat) :=
  eq_ofNat_of_toNat_eq (by rw [apply_ite BitVec.toNat, Nat.min_def]; rfl)

theorem maxu_eq_ofNat (a b : Word) : (if a ≤ b then b else a) = BitVec.ofNat 64 (max a.toNat b.toNat) :=
  eq_ofNat_of_toNat_eq (by rw [apply_ite BitVec.toNat, Nat.max_def]; rfl)

theorem andn_eq_ofNat (a b : Word) : a &&& ~~~b = BitVec.ofNat 64 (a.toNat &&& (2 ^ 64 - 1 - b.toNat)) :=
  eq_ofNat_of_toNat_eq (by rw [BitVec.toNat_and, BitVec.toNat_not])

/-! ### Shifts -/

theorem shl_eq_ofNat (a : Word) (n : Nat) : a <<< n = BitVec.ofNat 64 (a.toNat * 2 ^ n) :=
  BitVec.eq_of_toNat_eq (by rw [BitVec.toNat_shiftLeft, Nat.shiftLeft_eq, BitVec.toNat_ofNat])

theorem shr_eq_ofNat (a : Word) (n : Nat) : a >>> n = BitVec.ofNat 64 (a.toNat / 2 ^ n) :=
  eq_ofNat_of_toNat_eq (by rw [BitVec.toNat_ushiftRight, Nat.shiftRight_eq_div_pow])

theorem sar_eq_ofInt (a : Word) (n : Nat) : a.sshiftRight n = BitVec.ofInt 64 (a.toInt / (2 ^ n : Nat)) := by
  rw [BitVec.sshiftRight_eq, Int.shiftRight_eq_div_pow]

/-- A shift amount is its low six bits. -/
theorem and_63_toNat (b : Word) : (b &&& 63).toNat = b.toNat % 64 := by
  rw [BitVec.toNat_and]
  exact Nat.and_two_pow_sub_one_eq_mod b.toNat 6

/-! ### Counts of bits -/

/-- The highest one bit stops the count. -/
theorem zerosFrom_of_ne_zero (n x : Nat) (hx : x ≠ 0) (lt : x < 2 ^ n) : zerosFrom n x = n - 1 - x.log2 := by
  induction n with
  | zero => omega
  | succ n ih =>
    by_cases top : x < 2 ^ n
    · have below : x.log2 < n := (Nat.log2_lt hx).mpr top
      rw [zerosFrom, Nat.div_eq_of_lt top, if_neg Nat.zero_ne_one, ih top]
      omega
    · have log : x.log2 = n := (Nat.log2_eq_iff hx).mpr ⟨by omega, lt⟩
      have one : x / 2 ^ n = 1 := Nat.div_eq_of_lt_le (by omega) (by omega)
      simp [zerosFrom, one, log]

theorem clz64_eq_ofNat (a : Word) : clz64 a = BitVec.ofNat 64 (zerosFrom 64 a.toNat) := by
  by_cases h : a = 0
  · subst h; rfl
  · have hx : a.toNat ≠ 0 := fun e => h (BitVec.eq_of_toNat_eq e)
    rw [clz64, if_neg h, zerosFrom_of_ne_zero 64 _ hx a.isLt]

theorem onesBelow_eq_countP (n x : Nat) : onesBelow n x = (List.range n).countP x.testBit := by
  induction n with
  | zero => rfl
  | succ n ih =>
    rw [onesBelow, ih, List.range_succ, List.countP_append, List.countP_singleton, Nat.testBit_eq_decide_div_mod_eq]
    rcases Nat.mod_two_eq_zero_or_one (x / 2 ^ n) with bit | bit <;> simp [bit, Nat.add_comm]

theorem popc64_eq_ofNat (a : Word) : popc64 a = BitVec.ofNat 64 (onesBelow 64 a.toNat) := by
  rw [onesBelow_eq_countP]
  rfl

/-! ### Division -/

theorem divide_unsigned (a b : Word) : divide a b false = if b = 0 then (BitVec.allOnes 64, a)
    else (BitVec.ofNat 64 (a.toNat / b.toNat), BitVec.ofNat 64 (a.toNat % b.toNat)) := rfl

/-- R216's own case for the least number by −1, whose quotient no word holds, is the same rule modulo 2^64. -/
theorem divide_signed (a b : Word) : divide a b true = if b = 0 then (BitVec.allOnes 64, a)
    else (BitVec.ofInt 64 (a.toInt.tdiv b.toInt), BitVec.ofInt 64 (a.toInt.tmod b.toInt)) := by
  by_cases zero : b = 0
  · simp only [divide, zero]; rfl
  by_cases wraps : a = 0x8000000000000000 ∧ b = 0xFFFFFFFFFFFFFFFF
  · obtain ⟨rfl, rfl⟩ := wraps
    decide
  · rw [divide, if_neg zero, if_neg (by simpa using wraps), if_pos rfl, if_neg zero, Int.tmod_def, Int.mul_comm]

/-! ### Immediates of compares (R217) -/

theorem toInt_sext64 (i : BitVec 5) : (sext64 i).toInt = i.toInt := BitVec.toInt_signExtend_of_le (by decide)

/-! ### Bundle addresses -/

theorem bundleAddr_eq_ofInt (pc : Addr) (k : Int) : bundleAddr pc k = BitVec.ofInt 64 (pc.toNat + 24 * k) := by
  rw [bundleAddr, BitVec.ofInt_add, BitVec.ofInt_natCast, BitVec.ofNat_toNat]

/-! ### What an S instruction does (R213, R214) -/

/-- A result in flight where the slot runs, and nothing where it does not. -/
def State.sWrite (s : State) (p : BitVec 2) (lat : Nat) (w : Landing) : State := if s.activeS p then s.result lat w else s

theorem next_sResult {s : State} {p : BitVec 2} {lat : Nat} {d : BitVec 5} {v x : Word} (h : v = x) :
    (.next (sResult s p lat d v) : Out) = .next (s.sWrite p lat (.sreg d x)) := by
  rw [h]; rfl

theorem next_sPred {s : State} {p : BitVec 2} {d : BitVec 3} {v x : Bool} (h : v = x) :
    (.next (sPred s p d v) : Out) = .next (s.sWrite p 1 (.pred d x)) := by
  rw [h]; rfl

/-- R215, R216, R217: the value that an S instruction computes is that of its rule. -/
theorem exec_of_sWrites {s : State} {i : Instr} {p : BitVec 2} {lat : Nat} {w : Landing} (h : sWrites s i = some (p, lat, w)) :
    exec i s = .next (s.sWrite p lat w) := by
  cases i <;> cases h
  case add => exact next_sResult (add_eq_ofNat _ _)
  case sub => exact next_sResult (sub_eq_ofInt _ _)
  case mul => exact next_sResult (mul_eq_ofNat _ _)
  case mulh | mulhu => exact next_sResult rfl
  case min | max => exact next_sResult (by rw [BitVec.sle_eq_decide]; rfl)
  case minu => exact next_sResult (minu_eq_ofNat _ _)
  case maxu => exact next_sResult (maxu_eq_ofNat _ _)
  case and => exact next_sResult (eq_ofNat_of_toNat_eq (BitVec.toNat_and _ _))
  case or => exact next_sResult (eq_ofNat_of_toNat_eq (BitVec.toNat_or _ _))
  case xor => exact next_sResult (eq_ofNat_of_toNat_eq (BitVec.toNat_xor _ _))
  case andn => exact next_sResult (andn_eq_ofNat _ _)
  case clz => exact next_sResult (clz64_eq_ofNat _)
  case popc => exact next_sResult (popc64_eq_ofNat _)
  case shl => exact next_sResult (by rw [BitVec.shiftLeft_eq', shl_eq_ofNat, and_63_toNat])
  case shr => exact next_sResult (by rw [BitVec.ushiftRight_eq', shr_eq_ofNat, and_63_toNat])
  case sar => exact next_sResult (by rw [sar_eq_ofInt, and_63_toNat])
  case addi => exact next_sResult (add_signExtend_eq_ofInt _ _)
  case shli => exact next_sResult (shl_eq_ofNat _ _)
  case shri => exact next_sResult (shr_eq_ofNat _ _)
  case sari => exact next_sResult (sar_eq_ofInt _ _)
  case pca => exact next_sResult (bundleAddr_eq_ofInt _ _)
  case addb => exact next_sResult (add_signExtend_eq_ofInt _ _)
  case andb | orb | xorb => exact next_sResult rfl
  case div => exact next_sResult (by rw [divide_signed, apply_ite Prod.fst])
  case divu => exact next_sResult (by rw [divide_unsigned, apply_ite Prod.fst])
  case rem => exact next_sResult (by rw [divide_signed, apply_ite Prod.snd])
  case remu => exact next_sResult (by rw [divide_unsigned, apply_ite Prod.snd])
  case cmpeq => exact next_sPred (by simp only [BitVec.toNat_inj])
  case cmpne => exact next_sPred (by simp only [ne_eq, BitVec.toNat_inj])
  case cmplt => exact next_sPred BitVec.slt_eq_decide
  case cmple => exact next_sPred BitVec.sle_eq_decide
  case cmpltu | cmpleu => exact next_sPred rfl
  case cmpeqi => exact next_sPred (by simp only [← toInt_sext64, BitVec.toInt_inj])
  case cmplti => exact next_sPred (by rw [BitVec.slt_eq_decide, toInt_sext64])
  case pand | por | pnot => exact next_sPred rfl

end Sys2Proof.Machine

open Sys2Proof Sys2Proof.Machine in
/-- Settles O17: an S instruction of R215 to R217 computes the value of its rule (`exec_of_sWrites`), whose result is put in flight
where the slot runs. -/
theorem scalarResults : Obligations.ScalarResults := by
  intro s i p lat w rule
  rw [exec_of_sWrites rule, State.sWrite]
  constructor
  · intro runs
    rw [if_pos runs]
    rfl
  · intro off
    rw [off]
    rfl
end

section
/-! SUPPORT. The L slot: transfers of control (R190, R221), the condition of BRMZ (R230), and the guard that no GUARD takes from the
slot (R195). -/

namespace Sys2Proof.Machine

/-! ### Transfers of control to a target that can be one (R190) -/

theorem State.jumpTo_eq_goTo (s : State) (t : Word) (aligned : t.toNat % 8 = 0) (canonical : t.toNat < 2 ^ 57) :
    s.jumpTo t = s.goTo t := by
  have low : bits t 2 0 = 0 := aligned
  have high : bits t 63 57 = 0 := by
    rw [bits, Nat.shiftRight_eq_div_pow, Nat.div_eq_of_lt canonical, Nat.zero_mod]
  rw [State.jumpTo, if_neg (not_not_intro low), if_neg (not_not_intro high)]
  rfl

theorem State.jumpIf_taken {s : State} {cond : Bool} {t : Word} (runs : s.active = true) (h : cond = true) :
    s.jumpIf cond t = s.jumpTo t := by
  rw [State.jumpIf, runs, h]; rfl

theorem State.jumpIf_not_taken {s : State} {cond : Bool} {t : Word} (h : cond = false) : s.jumpIf cond t = s := by
  rw [State.jumpIf, h, Bool.and_false]; rfl

theorem State.relTarget_eq_ofInt (s : State) (o : BitVec 14) :
    s.relTarget o = BitVec.ofInt 64 (s.core.pc.toNat + 24 * o.toInt) := bundleAddr_eq_ofInt _ _

/-! ### The condition of BRMZ (R230) -/

theorem exec_brmz (s : State) (v : BitVec 1) (o : BitVec 14) (compute : s.core.newt = false) :
    exec (.brmz v o) s = .next (s.jumpIf (decide (activeMask (s.core.mask (v = 1)) = 0))
      (BitVec.ofInt 64 (s.core.pc.toNat + 24 * o.toInt))) := by
  rw [← s.relTarget_eq_ofInt]
  change execBrmz v o s = _
  rw [execBrmz, compute]
  rfl

theorem Core.mask_setMask (c : Core) (v1 : Bool) (m : List (BitVec 64)) : (c.setMask v1 m).mask v1 = m := by
  cases v1 <;> rfl

/-! ### The guard of the L slot (R195) -/

theorem guardsOf_L (c : Core) (m : BitVec 2) (v0 v1 c0 c1 : BitVec 4) : vget (guardsOf c m v0 v1 c0 c1) 6 = true := rfl

/-- A GUARD is refused, or replaces the guards and nothing else. -/
theorem exec_guard_cases {s t : State} {m : BitVec 2} {a b c d : BitVec 4} (h : exec (.guard m a b c d) s = .next t) :
    t = s.encFault ∨ t = { s with iss := { s.iss with guards := guardsOf s.core m a b c d } } := by
  change execGuard m a b c d s = _ at h
  rw [execGuard] at h
  split at h
  · exact .inl (Host.Outcome.next.inj h).symm
  · exact .inr (Host.Outcome.next.inj h).symm

theorem State.raise_guards (s : State) (rank code cause : Nat) (repl : Bool) (i0 i1 : Word) :
    (s.raise rank code cause repl i0 i1).iss.guards = s.iss.guards := by
  unfold State.raise
  dsimp only
  split
  · rfl
  · split <;> rfl

end Sys2Proof.Machine

open Sys2Proof Sys2Proof.Machine in
/-- Settles O39: BRMZ is a jump whose condition is the emptiness of the mask before the bundle (`exec_brmz`), and no GUARD names
the L slot (`guardsOf_L`). -/
theorem branchOnEmptyMask : Obligations.BranchOnEmptyMask := by
  refine ⟨?_, fun _ => rfl, ?_⟩
  · intro s v o t m compute runs
    have jump : exec (.brmz v o) s = .next (s.jumpIf (decide (activeMask m = 0)) t) := exec_brmz s v o compute
    have stays (h : activeMask m ≠ 0) : exec (.brmz v o) s = .next s := by
      rw [jump, State.jumpIf_not_taken (decide_eq_false h)]
    refine ⟨fun empty aligned canonical => ?_, stays, fun none => stays ?_, fun l => ?_⟩
    · rw [jump, State.jumpIf_taken runs (decide_eq_true empty), s.jumpTo_eq_goTo t aligned canonical]
    · rw [none]; decide
    · rw [Core.mask_setMask, activeMask]
  · intro s t m a b c d before h
    rcases exec_guard_cases h with rfl | rfl
    · rw [State.encFault, State.raise_guards, before]
    · exact guardsOf_L ..
end

section
/-! SUPPORT. The encodings (R192 to R211): the fields of a word put together, the rows of a map told apart by the bits they fix, and
decoding what an instruction encodes to. -/

namespace Sys2Proof

/-! ### Fields of a word put together with `++` -/

/-- A field that is the whole word. -/
theorem extract_self {v k : Nat} (x : BitVec v) (h : k = 0) : x.extractLsb' k v = x := by
  subst h
  exact BitVec.extractLsb'_eq_self

/-- The field at bit 0 as wide as the lower part is the lower part. -/
theorem extract_append_lower {v w k : Nat} (x : BitVec v) (y : BitVec w) (h : k = 0) : (x ++ y).extractLsb' k w = y := by
  subst h
  exact BitVec.extractLsb'_append_eq_right

/-- A masked word has given bits exactly if its upper and its lower part do. -/
theorem append_and_eq_iff {v w : Nat} (x : BitVec v) (y : BitVec w) (m p : BitVec (v + w)) :
    (x ++ y) &&& m = p ↔ x &&& m.extractLsb' w v = p.extractLsb' w v ∧ y &&& m.extractLsb' 0 w = p.extractLsb' 0 w := by
  constructor
  · rintro rfl
    rw [BitVec.extractLsb'_and, BitVec.extractLsb'_and, BitVec.extractLsb'_append_eq_left, BitVec.extractLsb'_append_eq_right]
    exact ⟨rfl, rfl⟩
  · rintro ⟨hx, hy⟩
    calc (x ++ y) &&& m = (x ++ y) &&& (m.extractLsb' w v ++ m.extractLsb' 0 w) := by rw [BitVec.extractLsb'_append_extractLsb']
      _ = p := by rw [BitVec.and_append, hx, hy, BitVec.extractLsb'_append_extractLsb']

/-! ### The rows of a map are told apart by the bits that both fix -/

/-- No word is covered by two rows, in either order of their places in the map. -/
theorem opRows_disjoint (cl : SlotClass) : (opRows cl).Pairwise fun r q => r.pat &&& q.mask ≠ q.pat &&& r.mask := by
  cases cl <;> decide

/-- Two rows that cover one word agree on the bits that both fix. -/
theorem OpRow.agree_of_covers {r q : OpRow} {w : SlotWord} (hr : r.covers w = true) (hq : q.covers w = true) :
    r.pat &&& q.mask = q.pat &&& r.mask := by
  unfold OpRow.covers at hr hq
  rw [← of_decide_eq_true hr, ← of_decide_eq_true hq, BitVec.and_assoc, BitVec.and_assoc, BitVec.and_comm r.mask]

/-- In a list of rows told apart pairwise, the row found for a word is any row that covers it. -/
theorem find_covers_eq {l : List OpRow} (disjoint : l.Pairwise fun r q => r.pat &&& q.mask ≠ q.pat &&& r.mask)
    {r : OpRow} {w : SlotWord} (mem : r ∈ l) (h : r.covers w = true) : l.find? (·.covers w) = some r := by
  induction disjoint with
  | nil => cases mem
  | @cons q l hq _ ih =>
    rw [List.find?_cons]
    by_cases hqw : q.covers w = true
    · rw [hqw]
      rcases List.mem_cons.mp mem with rfl | mem
      · rfl
      · exact absurd (OpRow.agree_of_covers hqw h) (hq r mem)
    · rw [Bool.not_eq_true] at hqw
      rw [hqw]
      rcases List.mem_cons.mp mem with rfl | mem
      · rw [h] at hqw; cases hqw
      · exact ih mem

/-- A word that is covered by a row decodes to what that row makes of it, if that is well formed and the word is not zero. -/
theorem decode_eq_build {cl : SlotClass} {w : SlotWord} {r : OpRow} (mem : r ∈ opRows cl) (h : w &&& r.mask = r.pat)
    (nonzero : w ≠ 0) (wf : wellFormed (r.build w) = true) : decode cl w = .instr (r.build w) := by
  have found : findRow cl w = some r := find_covers_eq (opRows_disjoint cl) mem (decide_eq_true h)
  rw [decode, if_neg nonzero, found]
  exact if_pos wf

/-! ### The row of an instruction -/

/-- The row of a map that makes instructions of the same constructor. -/
def rowOf (cl : SlotClass) (i : Instr) : Option OpRow := (opRows cl).find? fun r => decide ((r.build 0).ctorIdx = i.ctorIdx)

/-- An instruction whose row fixes some bit of its word: the word decodes to it, if the row covers the word and reads the
operands back. -/
theorem decode_of_rowOf {cl : SlotClass} {i : Instr} {w : SlotWord} {r : OpRow} (row : rowOf cl i = some r)
    (fixes : r.pat ≠ 0) (h : w &&& r.mask = r.pat) (reads : r.build w = i) (wf : wellFormed i = true) :
    decode cl w = .instr i := by
  have nonzero : w ≠ 0 := by
    rintro rfl
    exact fixes (h ▸ BitVec.zero_and)
  rw [← reads] at wf ⊢
  exact decode_eq_build (List.mem_of_find?_eq_some row) h nonzero wf

/-- The word of K: its row fixes only the form bit, which is zero, and a K whose fields are all zero is no instruction (R192). -/
theorem decode_encode_k (f l : BitVec 1) (v : BitVec 3) (k : BitVec 18) (wf : wellFormed (.k f l v k) = true) :
    decode .k (f ++ l ++ v ++ 0#1 ++ k) = .instr (.k f l v k) := by
  have reads : ((f ++ l ++ v ++ 0#1 ++ k : SlotWord).extractLsb' 23 1) = f ∧ ((f ++ l ++ v ++ 0#1 ++ k : SlotWord).extractLsb' 22 1) = l
      ∧ ((f ++ l ++ v ++ 0#1 ++ k : SlotWord).extractLsb' 19 3) = v ∧ ((f ++ l ++ v ++ 0#1 ++ k : SlotWord).extractLsb' 0 18) = k := by
    simp (decide := true) only [BitVec.extractLsb'_append_eq_of_le, extract_self, extract_append_lower, and_self]
  obtain ⟨hf, hl, hv, hk⟩ := reads
  have nonzero : (f ++ l ++ v ++ 0#1 ++ k : SlotWord) ≠ 0 := by
    intro h
    rw [h] at hf hl hv hk
    subst hf hl hv hk
    exact absurd wf (by decide)
  have build : (kRows.head (by decide)).build (f ++ l ++ v ++ 0#1 ++ k) = .k f l v k := by
    show Instr.k _ _ _ _ = _
    rw [hf, hl, hv, hk]
  rw [← build] at wf ⊢
  refine decode_eq_build (cl := .k) (List.head_mem _) ?_ nonzero wf
  show (f ++ l ++ v ++ 0#1 ++ k : SlotWord) &&& 0x040000 = 0
  rw [append_and_eq_iff]
  simp (decide := true) only [append_and_eq_iff]
  simp

end Sys2Proof

open Sys2Proof in
/-- Settles O4: the row of each instruction covers its word, and reads each operand from where the word holds it. -/
theorem decodeOfEncode : Obligations.DecodeOfEncode := by
  intro i cls wf hc
  cases i
  all_goals cases hc
  case k f l v k => exact ⟨_, rfl, decode_encode_k f l v k wf⟩
  case waitr | tret | done => exact ⟨_, rfl, decode_of_rowOf rfl (by decide) rfl rfl wf⟩
  all_goals
    refine ⟨_, rfl, decode_of_rowOf rfl (by decide) ?_ ?_ wf⟩
    · show _ &&& _ = _
      rw [append_and_eq_iff]
      simp (decide := true) only [append_and_eq_iff]
      simp
    · simp (decide := true) only [BitVec.extractLsb'_append_eq_of_le, extract_append_lower, extract_self]
end

section
/-! SUPPORT. What no slot instruction changes before its bundle commits (R191, R193): the frames of the instructions put together. -/

namespace Sys2Proof.Machine

/-- A slot instruction keeps what no slot changes. -/
theorem exec_keeps (i : Instr) (s : State) (slot : (classOf i).isSome = true) : OutKeeps s (exec i s) := by
  cases i
  case add => apply execAdd_keeps
  case sub => apply execSub_keeps
  case mul => apply execMul_keeps
  case mulh => apply execMulh_keeps
  case mulhu => apply execMulhu_keeps
  case min => apply execMin_keeps
  case max => apply execMax_keeps
  case minu => apply execMinu_keeps
  case maxu => apply execMaxu_keeps
  case and => apply execAnd_keeps
  case or => apply execOr_keeps
  case xor => apply execXor_keeps
  case andn => apply execAndn_keeps
  case clz => apply execClz_keeps
  case popc => apply execPopc_keeps
  case shl => apply execShl_keeps
  case shr => apply execShr_keeps
  case sar => apply execSar_keeps
  case addi => apply execAddi_keeps
  case shli => apply execShli_keeps
  case shri => apply execShri_keeps
  case sari => apply execSari_keeps
  case pca => apply execPca_keeps
  case addb => apply execAddb_keeps
  case andb => apply execAndb_keeps
  case orb => apply execOrb_keeps
  case xorb => apply execXorb_keeps
  case div => apply execDiv_keeps
  case divu => apply execDivu_keeps
  case rem => apply execRem_keeps
  case remu => apply execRemu_keeps
  case cmpeq => apply execCmpeq_keeps
  case cmpne => apply execCmpne_keeps
  case cmplt => apply execCmplt_keeps
  case cmpltu => apply execCmpltu_keeps
  case cmple => apply execCmple_keeps
  case cmpleu => apply execCmpleu_keeps
  case cmpeqi => apply execCmpeqi_keeps
  case cmplti => apply execCmplti_keeps
  case pand => apply execPand_keeps
  case por => apply execPor_keeps
  case pnot => apply execPnot_keeps
  case shw => apply execShw_keeps
  case agw => apply execAgw_keeps
  case crr => apply execCrr_keeps
  case crw => apply execCrw_keeps
  case vaddF32 => apply execVaddF32_keeps
  case vsubF32 => apply execVsubF32_keeps
  case vmulF32 => apply execVmulF32_keeps
  case vfmaF32 => apply execVfmaF32_keeps
  case vminF32 => apply execVminF32_keeps
  case vmaxF32 => apply execVmaxF32_keeps
  case vcmpltF32 => apply execVcmpltF32_keeps
  case vcmpleF32 => apply execVcmpleF32_keeps
  case vaddBf16 => apply execVaddBf16_keeps
  case vsubBf16 => apply execVsubBf16_keeps
  case vmulBf16 => apply execVmulBf16_keeps
  case vfmaBf16 => apply execVfmaBf16_keeps
  case vminBf16 => apply execVminBf16_keeps
  case vmaxBf16 => apply execVmaxBf16_keeps
  case vcmpltBf16 => apply execVcmpltBf16_keeps
  case vcmpleBf16 => apply execVcmpleBf16_keeps
  case vaddF16 => apply execVaddF16_keeps
  case vsubF16 => apply execVsubF16_keeps
  case vmulF16 => apply execVmulF16_keeps
  case vfmaF16 => apply execVfmaF16_keeps
  case vminF16 => apply execVminF16_keeps
  case vmaxF16 => apply execVmaxF16_keeps
  case vcmpeqF32 => apply execVcmpeqF32_keeps
  case vcmpeqBf16 => apply execVcmpeqBf16_keeps
  case vdivF32 => apply execVdivF32_keeps
  case vsqrtF32 => apply execVsqrtF32_keeps
  case vrsqrtF32 => apply execVrsqrtF32_keeps
  case vexp2F32 => apply execVexp2F32_keeps
  case vlog2F32 => apply execVlog2F32_keeps
  case vsel => apply execVsel_keeps
  case vamaxF32 => apply execVamaxF32_keeps
  case vamaxBf16 => apply execVamaxBf16_keeps
  case vcvtBf16F32 => apply execVcvtBf16F32_keeps
  case vcvtF16F32 => apply execVcvtF16F32_keeps
  case vcvtE4m3F32 => apply execVcvtE4m3F32_keeps
  case vcvtE5m2F32 => apply execVcvtE5m2F32_keeps
  case vcvtF32Bf16 => apply execVcvtF32Bf16_keeps
  case vcvtF32F16 => apply execVcvtF32F16_keeps
  case vcvtF32E4m3 => apply execVcvtF32E4m3_keeps
  case vcvtF32E5m2 => apply execVcvtF32E5m2_keeps
  case vcvtI32F32 => apply execVcvtI32F32_keeps
  case vcvtF32I32 => apply execVcvtF32I32_keeps
  case vcvtI8F32 => apply execVcvtI8F32_keeps
  case vcvtE4m3Bf16 => apply execVcvtE4m3Bf16_keeps
  case vrsumF32 => apply execVrsumF32_keeps
  case vqntE4m3 => apply execVqntE4m3_keeps
  case vqntE4m3Sr => apply execVqntE4m3Sr_keeps
  case vqntE5m2 => apply execVqntE5m2_keeps
  case vqntE5m2Sr => apply execVqntE5m2Sr_keeps
  case vqntI8 => apply execVqntI8_keeps
  case vqntI8Sr => apply execVqntI8Sr_keeps
  case vdqntE4m3 => apply execVdqntE4m3_keeps
  case vdqntE5m2 => apply execVdqntE5m2_keeps
  case vdqntI8 => apply execVdqntI8_keeps
  case vreluF32 => apply execVreluF32_keeps
  case vreluBf16 => apply execVreluBf16_keeps
  case vmpoolF32 => apply execVmpoolF32_keeps
  case vmpoolBf16 => apply execVmpoolBf16_keeps
  case vrelubF32 => apply execVrelubF32_keeps
  case vrelubBf16 => apply execVrelubBf16_keeps
  case vmpoolbF32 => apply execVmpoolbF32_keeps
  case vmpoolbBf16 => apply execVmpoolbBf16_keeps
  case vgelubF32 => apply execVgelubF32_keeps
  case vgelubBf16 => apply execVgelubBf16_keeps
  case vdropbF32 => apply execVdropbF32_keeps
  case vdropbBf16 => apply execVdropbBf16_keeps
  case vsmaxbF32 => apply execVsmaxbF32_keeps
  case vsmaxbBf16 => apply execVsmaxbBf16_keeps
  case vlnormbF32 => apply execVlnormbF32_keeps
  case vlnormbBf16 => apply execVlnormbBf16_keeps
  case vaddI32 => apply execVaddI32_keeps
  case vsubI32 => apply execVsubI32_keeps
  case vmulI32 => apply execVmulI32_keeps
  case vminI32 => apply execVminI32_keeps
  case vmaxI32 => apply execVmaxI32_keeps
  case vcmpeqI32 => apply execVcmpeqI32_keeps
  case vcmpltI32 => apply execVcmpltI32_keeps
  case vaddI16 => apply execVaddI16_keeps
  case vsubI16 => apply execVsubI16_keeps
  case vaddsI16 => apply execVaddsI16_keeps
  case vaddI8 => apply execVaddI8_keeps
  case vsubI8 => apply execVsubI8_keeps
  case vaddsI8 => apply execVaddsI8_keeps
  case vand => apply execVand_keeps
  case vor => apply execVor_keeps
  case vxor => apply execVxor_keeps
  case vshl => apply execVshl_keeps
  case vshr => apply execVshr_keeps
  case vsar => apply execVsar_keeps
  case vshuf => apply execVshuf_keeps
  case vrot => apply execVrot_keeps
  case vzip => apply execVzip_keeps
  case vunzip => apply execVunzip_keeps
  case vmov => apply execVmov_keeps
  case vxmov d a x m => exact execVxmov_keeps d a x m s
  case vdec d a x m => exact execVdec_keeps d a x m s
  case vlfrd => apply execVlfrd_keeps
  case vlfwr => apply execVlfwr_keeps
  case mmaBf16Latch => apply execMmaBf16Latch_keeps
  case mmaBf16Bank => apply execMmaBf16Bank_keeps
  case mmaF16Latch => apply execMmaF16Latch_keeps
  case mmaF16Bank => apply execMmaF16Bank_keeps
  case mmaE4m3Latch => apply execMmaE4m3Latch_keeps
  case mmaE4m3Bank => apply execMmaE4m3Bank_keeps
  case mmaE5m2Latch => apply execMmaE5m2Latch_keeps
  case mmaE5m2Bank => apply execMmaE5m2Bank_keeps
  case mmaC4Latch => apply execMmaC4Latch_keeps
  case mmaC4Bank => apply execMmaC4Bank_keeps
  case latch => apply execLatch_keeps
  case latchreed => apply execLatchreed_keeps
  case drain => apply execDrain_keeps
  case draint => apply execDraint_keeps
  case zero => apply execZero_keeps
  case ldcbk => apply execLdcbk_keeps
  case ldfmt => apply execLdfmt_keeps
  case lds => apply execLds_keeps
  case ldsk => apply execLdsk_keeps
  case sts => apply execSts_keeps
  case ldsx => apply execLdsx_keeps
  case stsx => apply execStsx_keeps
  case ldr => apply execLdr_keeps
  case str => apply execStr_keeps
  case ldg => apply execLdg_keeps
  case ldgk => apply execLdgk_keeps
  case stg => apply execStg_keeps
  case ldgx => apply execLdgx_keeps
  case stgx => apply execStgx_keeps
  case atadd => apply execAtadd_keeps
  case atand => apply execAtand_keeps
  case ator => apply execAtor_keeps
  case atxchg => apply execAtxchg_keeps
  case atcas => apply execAtcas_keeps
  case atfadd => apply execAtfadd_keeps
  case atfmax => apply execAtfmax_keeps
  case fence => apply execFence_keeps
  case stk => apply execStk_keeps
  case kcopy => apply execKcopy_keeps
  case cp => apply execCp_keeps
  case cpq => apply execCpq_keeps
  case cpblk => apply execCpblk_keeps
  case prefr => apply execPrefr_keeps
  case bankm => apply execBankm_keeps
  case reedinv => apply execReedinv_keeps
  case coll => apply execColl_keeps
  case dpost => apply execDpost_keeps
  case gwait => apply execGwait_keeps
  case lease => apply execLease_keeps
  case lrel => apply execLrel_keeps
  case mbpost => apply execMbpost_keeps
  case b => apply execB_keeps
  case call => apply execCall_keeps
  case brmz => apply execBrmz_keeps
  case jmpi => apply execJmpi_keeps
  case calli => apply execCalli_keeps
  case ret => apply execRet_keeps
  case guard => apply execGuard_keeps
  case loop => apply execLoop_keeps
  case loopp => apply execLoopp_keeps
  case mpush => apply execMpush_keeps
  case minv => apply execMinv_keeps
  case mpop => apply execMpop_keeps
  case waitt => apply execWaitt_keeps
  case waitc => apply execWaitc_keeps
  case waitr => apply execWaitr_keeps
  case bara => apply execBara_keeps
  case barw => apply execBarw_keeps
  case mbtake => apply execMbtake_keeps
  case mbreply => apply execMbreply_keeps
  case launch => apply execLaunch_keeps
  case trap => apply execTrap_keeps
  case tret => apply execTret_keeps
  case done => apply execDone_keeps
  case k => apply execK_keeps
  case kctl => apply execKctl_keeps
  all_goals cases slot

end Sys2Proof.Machine

open Sys2Proof Sys2Proof.Machine in
/-- Settles O9: the frame of every slot instruction (`exec_keeps`), field by field. -/
theorem slotInstructionFrame : Obligations.SlotInstructionFrame := by
  intro i s t slot h
  obtain ⟨mem, tags, poison, flaws, hostMem, core, dies, pkg, ports, ready, seq, -⟩ := exec_keeps i s slot t h
  obtain ⟨regs, pc, scyc, loop, status, spMem, spTags, spPoison, held, stop⟩ := core
  exact ⟨mem, tags, poison, flaws, hostMem, regs, pc, scyc, loop, status, spMem, spTags, spPoison, held, stop, dies, pkg, ports,
    ready, seq⟩
end

section
/-! SUPPORT. The loop sequencer (R224 to R227): the end of a body's pass, what a transfer deactivates, a level begun; and the pc and
the loop sequencer of a core whose bundle has committed (R190). -/

namespace Sys2Proof.Machine

/-! ### Levels by number -/

theorem mem_levels (l : Nat) : l ∈ levels ↔ l < 6 := by
  simp only [levels, List.mem_cons, List.not_mem_nil, or_false]
  omega

/-- The levels around one of them: those further in come first. -/
theorem levels_around {l : Nat} (h : l < 6) :
    ∃ inner outer : List Nat, levels = inner ++ l :: outer ∧ (∀ k ∈ inner, k < l) ∧ ∀ k ∈ outer, l < k ∧ k < 6 := by
  refine ⟨List.range l, (List.range (5 - l)).map (l + 1 + ·), ?_, fun k hk => List.mem_range.mp hk, fun k hk => ?_⟩
  · obtain rfl | rfl | rfl | rfl | rfl | rfl : l = 0 ∨ l = 1 ∨ l = 2 ∨ l = 3 ∨ l = 4 ∨ l = 5 := by omega
    all_goals rfl
  · obtain ⟨j, hj, rfl⟩ := List.mem_map.mp hk
    rw [List.mem_range] at hj
    omega

theorem Core.anyLevel_eq_false (c : Core) : c.anyLevel = false ↔ ∀ l, l < 6 → (vget c.loop.lv l).active = false := by
  simp only [Core.anyLevel, List.any_eq_false, mem_levels, Bool.not_eq_true]

/-! ### A level deactivated -/

theorem LoopSeq.deactivate_lv (ls : LoopSeq) (l : Nat) :
    (ls.deactivate l).lv = vset ls.lv l { vget ls.lv l with active := false, piped := false } := by
  unfold LoopSeq.deactivate
  dsimp only
  split <;> rfl

/-- The level deactivated is not active any more. -/
theorem LoopSeq.deactivate_self (ls : LoopSeq) {l : Nat} (h : l < 6) :
    vget (ls.deactivate l).lv l = { vget ls.lv l with active := false, piped := false } := by
  rw [LoopSeq.deactivate_lv, vget_vset_self _ _ _ h]

/-- Every other level stands as it was. -/
theorem LoopSeq.deactivate_other (ls : LoopSeq) {l k : Nat} (h : l ≠ k) : vget (ls.deactivate l).lv k = vget ls.lv k := by
  rw [LoopSeq.deactivate_lv, vget_vset_ne _ _ _ _ h]

/-- The pass counts and the stage predicates. -/
def LoopSeq.passes (ls : LoopSeq) : BitVec 8 × BitVec 16 × BitVec 4 := (ls.sg, ls.plc, ls.pec)

/-- A LOOPP's level deactivated clears the pass counts and the stage predicates, any other leaves them. -/
theorem LoopSeq.deactivate_passes (ls : LoopSeq) (l : Nat) :
    (ls.deactivate l).passes = if (vget ls.lv l).piped then (0, 0, 0) else ls.passes := by
  unfold LoopSeq.deactivate
  split <;> rename_i h <;> simp [h, LoopSeq.passes]

/-! ### A transfer (R225) -/

/-- One level's turn in a transfer: it ends if it is active and its body does not hold the target. -/
def LoopSeq.leave (t : Addr) (ls : LoopSeq) (l : Nat) : LoopSeq :=
  if (vget ls.lv l).active && !(vget ls.lv l).holds t then ls.deactivate l else ls

theorem LoopSeq.transfer_eq_foldl (ls : LoopSeq) (t : Addr) : ls.transfer t = levels.foldl (LoopSeq.leave t) ls := rfl

theorem LoopSeq.leave_other (ls : LoopSeq) (t : Addr) {l k : Nat} (h : l ≠ k) : vget (ls.leave t l).lv k = vget ls.lv k := by
  unfold LoopSeq.leave
  split
  · exact ls.deactivate_other h
  · rfl

theorem LoopSeq.foldl_leave_other (t : Addr) (k : Nat) (l : List Nat) (ls : LoopSeq) (h : k ∉ l) :
    vget (l.foldl (LoopSeq.leave t) ls).lv k = vget ls.lv k := by
  induction l generalizing ls with
  | nil => rfl
  | cons x l ih =>
    rw [List.mem_cons, not_or] at h
    rw [List.foldl_cons, ih _ h.2, ls.leave_other t (Ne.symm h.1)]

/-- Level k after a transfer is what its own turn makes of it. -/
theorem LoopSeq.transfer_level (ls : LoopSeq) (t : Addr) {k : Nat} (h : k < 6) :
    vget (ls.transfer t).lv k = vget (ls.leave t k).lv k := by
  obtain ⟨inner, outer, split, below, above⟩ := levels_around h
  rw [LoopSeq.transfer_eq_foldl, split, List.foldl_append, List.foldl_cons,
    LoopSeq.foldl_leave_other t k outer _ (fun hk => Nat.lt_irrefl _ (above k hk).1)]
  have same : vget (inner.foldl (LoopSeq.leave t) ls).lv k = vget ls.lv k :=
    LoopSeq.foldl_leave_other t k inner ls fun hk => Nat.lt_irrefl _ (below k hk)
  unfold LoopSeq.leave at same ⊢
  rw [same]
  split
  · rw [LoopSeq.deactivate_self _ h, LoopSeq.deactivate_self _ h, same]
  · exact same

/-- A level is active after a transfer exactly if it was and its body holds the target; it then stands as it was. -/
theorem LoopSeq.transfer_active (ls : LoopSeq) (t : Addr) {k : Nat} (h : k < 6) :
    (vget (ls.transfer t).lv k).active
        = ((vget ls.lv k).active && decide ((vget ls.lv k).first ≤ t) && decide (t ≤ (vget ls.lv k).last))
      ∧ ((vget (ls.transfer t).lv k).active = true → vget (ls.transfer t).lv k = vget ls.lv k) := by
  rw [ls.transfer_level t h, LoopSeq.leave, LoopLevel.holds]
  cases active : (vget ls.lv k).active
  · simp [active]
  · by_cases holds : decide ((vget ls.lv k).first ≤ t) && decide (t ≤ (vget ls.lv k).last)
    · simp only [Bool.true_and, holds, Bool.not_true, Bool.false_eq_true, if_false, active]
      exact ⟨trivial, fun _ => trivial⟩
    · rw [Bool.not_eq_true] at holds
      simp only [Bool.true_and, holds, Bool.not_false, if_true, ls.deactivate_self h, Bool.false_eq_true, false_imp_iff, and_self]

/-- A LOOPP's level that a transfer leaves. -/
def LoopSeq.leavesPiped (ls : LoopSeq) (t : Addr) (k : Nat) : Prop :=
  (vget ls.lv k).active = true ∧ (vget ls.lv k).piped = true ∧ (vget ls.lv k).holds t = false

theorem LoopSeq.leave_passes (ls : LoopSeq) (t : Addr) (l : Nat) :
    (ls.leavesPiped t l → (ls.leave t l).passes = (0, 0, 0)) ∧ (¬ ls.leavesPiped t l → (ls.leave t l).passes = ls.passes) := by
  unfold LoopSeq.leavesPiped LoopSeq.leave
  cases (vget ls.lv l).active <;> cases (vget ls.lv l).holds t <;> cases piped : (vget ls.lv l).piped <;>
    simp [LoopSeq.deactivate_passes, piped]

theorem LoopSeq.leave_cleared (ls : LoopSeq) (t : Addr) (l : Nat) (h : ls.passes = (0, 0, 0)) : (ls.leave t l).passes = (0, 0, 0) := by
  by_cases out : ls.leavesPiped t l
  · exact (ls.leave_passes t l).1 out
  · exact ((ls.leave_passes t l).2 out).trans h

theorem LoopSeq.foldl_leave_cleared (t : Addr) (l : List Nat) (ls : LoopSeq) (h : ls.passes = (0, 0, 0)) :
    (l.foldl (LoopSeq.leave t) ls).passes = (0, 0, 0) := by
  induction l generalizing ls with
  | nil => exact h
  | cons x l ih => exact ih _ (ls.leave_cleared t x h)

/-- A transfer that leaves no LOOPP's level keeps the pass counts and stage predicates. -/
theorem LoopSeq.transfer_passes_kept (ls : LoopSeq) (t : Addr) (h : ∀ k, k < 6 → ¬ ls.leavesPiped t k) :
    (ls.transfer t).passes = ls.passes := by
  rw [LoopSeq.transfer_eq_foldl]
  have nodup : levels.Nodup := by decide
  have below : ∀ k ∈ levels, ¬ ls.leavesPiped t k := fun k hk => h k ((mem_levels k).mp hk)
  clear h
  generalize levels = l at nodup below
  induction l generalizing ls with
  | nil => rfl
  | cons x l ih =>
    rw [List.nodup_cons] at nodup
    rw [List.foldl_cons, ih _ nodup.2, (ls.leave_passes t x).2 (below x (List.mem_cons_self ..))]
    intro k hk
    have hx : x ≠ k := fun e => nodup.1 (e ▸ hk)
    unfold LoopSeq.leavesPiped
    rw [ls.leave_other t hx]
    exact below k (List.mem_cons_of_mem _ hk)

/-- A transfer that leaves a LOOPP's level clears them. -/
theorem LoopSeq.transfer_passes_cleared (ls : LoopSeq) (t : Addr) {k : Nat} (hk : k < 6) (h : ls.leavesPiped t k) :
    (ls.transfer t).passes = (0, 0, 0) := by
  obtain ⟨inner, outer, split, below, -⟩ := levels_around hk
  rw [LoopSeq.transfer_eq_foldl, split, List.foldl_append, List.foldl_cons]
  refine LoopSeq.foldl_leave_cleared t outer _ ((LoopSeq.leave_passes _ t k).1 ?_)
  unfold LoopSeq.leavesPiped
  rw [LoopSeq.foldl_leave_other t k inner ls fun hk => Nat.lt_irrefl _ (below k hk)]
  exact h

/-! ### The end of a body (R225, R227) -/

/-- A level whose last bundle stands at x, and which is active. -/
def LoopSeq.endsAt (ls : LoopSeq) (x : Addr) (l : Nat) : Prop := (vget ls.lv l).active = true ∧ (vget ls.lv l).last = x

/-- One level's turn at the end of the bundle at x. -/
def LoopSeq.endAt (x : Addr) (st : LoopSeq × Option Addr) (l : Nat) : LoopSeq × Option Addr :=
  match st.2 with
  | some _ => st
  | none => if (vget st.1.lv l).active && decide ((vget st.1.lv l).last = x) then st.1.pass l else st

theorem LoopSeq.endStep_eq_foldl (ls : LoopSeq) (x : Addr) : ls.endStep x = levels.foldl (LoopSeq.endAt x) (ls, none) := rfl

theorem LoopSeq.endAt_quiet (ls : LoopSeq) (x : Addr) (l : Nat) (h : ¬ ls.endsAt x l) : LoopSeq.endAt x (ls, none) l = (ls, none) := by
  refine if_neg fun hx => h ?_
  rwa [Bool.and_eq_true, decide_eq_true_eq] at hx

theorem LoopSeq.endAt_pass (ls : LoopSeq) (x : Addr) (l : Nat) (h : ls.endsAt x l) : LoopSeq.endAt x (ls, none) l = ls.pass l :=
  if_pos (by rw [h.1, decide_eq_true h.2]; rfl)

theorem LoopSeq.foldl_endAt_quiet (ls : LoopSeq) (x : Addr) (l : List Nat) (h : ∀ k ∈ l, ¬ ls.endsAt x k) :
    l.foldl (LoopSeq.endAt x) (ls, none) = (ls, none) := by
  induction l with
  | nil => rfl
  | cons k l ih =>
    rw [List.foldl_cons, ls.endAt_quiet x k (h k (List.mem_cons_self ..)), ih fun j hj => h j (List.mem_cons_of_mem _ hj)]

/-- Once a level goes round again, the levels around it have no turn. -/
theorem LoopSeq.foldl_endAt_again (ls : LoopSeq) (x a : Addr) (l : List Nat) : l.foldl (LoopSeq.endAt x) (ls, some a) = (ls, some a) := by
  induction l with
  | nil => rfl
  | cons k l ih => exact ih

/-- A bundle that is no active body's last ends no pass. -/
theorem LoopSeq.endStep_quiet (ls : LoopSeq) (x : Addr) (h : ∀ l, l < 6 → ¬ ls.endsAt x l) : ls.endStep x = (ls, none) :=
  ls.foldl_endAt_quiet x levels fun l hl => h l ((mem_levels l).mp hl)

/-- The innermost level that ends at x has the first turn, and the levels around it the next ones. -/
theorem LoopSeq.endStep_innermost (ls : LoopSeq) (x : Addr) {l : Nat} (hl : l < 6) (h : ls.endsAt x l)
    (inmost : ∀ k, k < l → ¬ ls.endsAt x k) :
    ∃ outer : List Nat, (∀ k ∈ outer, l < k ∧ k < 6) ∧ ls.endStep x = outer.foldl (LoopSeq.endAt x) (ls.pass l) := by
  obtain ⟨inner, outer, split, below, above⟩ := levels_around hl
  refine ⟨outer, above, ?_⟩
  rw [LoopSeq.endStep_eq_foldl, split, List.foldl_append, List.foldl_cons,
    ls.foldl_endAt_quiet x inner fun k hk => inmost k (below k hk), ls.endAt_pass x l h]

/-- If that level goes round again, no other has a turn. -/
theorem LoopSeq.endStep_again (ls d : LoopSeq) (x a : Addr) {l : Nat} (hl : l < 6) (h : ls.endsAt x l)
    (inmost : ∀ k, k < l → ¬ ls.endsAt x k) (again : ls.pass l = (d, some a)) : ls.endStep x = (d, some a) := by
  obtain ⟨outer, -, step⟩ := ls.endStep_innermost x hl h inmost
  rw [step, again, LoopSeq.foldl_endAt_again]

/-- A pass of one level leaves every other as it was. -/
theorem LoopSeq.pass_other (ls : LoopSeq) {l k : Nat} (h : l ≠ k) : vget (ls.pass l).1.lv k = vget ls.lv k := by
  unfold LoopSeq.pass
  dsimp only
  repeat' split
  all_goals first | exact ls.deactivate_other h | exact vget_vset_ne _ _ _ _ h

theorem LoopSeq.foldl_endAt_other (x : Addr) (k : Nat) (l : List Nat) (st : LoopSeq × Option Addr) (h : k ∉ l) :
    vget (l.foldl (LoopSeq.endAt x) st).1.lv k = vget st.1.lv k := by
  induction l generalizing st with
  | nil => rfl
  | cons j l ih =>
    rw [List.mem_cons, not_or] at h
    rw [List.foldl_cons, ih _ h.2, LoopSeq.endAt]
    split
    · rfl
    · split
      · exact st.1.pass_other (Ne.symm h.1)
      · rfl

end Sys2Proof.Machine

open Sys2Proof Sys2Proof.Machine in
/-- Settles O43: the level that ends at the bundle is the innermost (`LoopSeq.endStep_innermost`), and its pass (`LoopSeq.pass`) says
whether it goes round again. -/
theorem loopGoesRound : Obligations.LoopGoesRound := by
  constructor
  · intro ls l x hl active counted last inmost
    have ends : ls.endsAt x l := ⟨active, last⟩
    have inmost' : ∀ k, k < l → ¬ ls.endsAt x k := fun k hk e => inmost k hk e.1 e.2
    constructor
    · intro more
      have again : ls.pass l = ({ ls with lv := vset ls.lv l { vget ls.lv l with lidx := (vget ls.lv l).lidx + 1 } },
          some (vget ls.lv l).first) := by
        simp only [LoopSeq.pass, counted, more, if_true, Bool.false_eq_true, if_false]
      rw [ls.endStep_again _ x _ hl ends inmost' again, vget_vset_self _ _ _ hl]
      exact ⟨rfl, rfl, active⟩
    · intro reached
      have out : ls.pass l = (ls.deactivate l, none) := by
        simp only [LoopSeq.pass, counted, Nat.not_lt.mpr reached, Bool.false_eq_true, if_false]
      obtain ⟨outer, above, step⟩ := ls.endStep_innermost x hl ends inmost'
      rw [step, LoopSeq.foldl_endAt_other x l outer _ (fun h => Nat.lt_irrefl _ (above l h).1), out, ls.deactivate_self hl]
  · intro ls x active piped last
    have ends : ls.endsAt x 0 := ⟨active, last⟩
    have inmost : ∀ k, k < 0 → ¬ ls.endsAt x k := fun k hk => absurd hk (Nat.not_lt_zero k)
    have others (v : LoopLevel) (k : Nat) (hk : 0 < k) : vget (vset ls.lv 0 v) k = vget ls.lv k :=
      vget_vset_ne _ _ _ _ (Nat.ne_of_lt hk)
    refine ⟨fun plc => ?_, fun plc pec => ?_, fun plc pec quiet => ?_⟩
    · have again : ls.pass 0 = ({ ls with
          plc := ls.plc - 1, sg := ((ls.sg <<< 1) ||| 1) &&& BitVec.ofNat 8 (2 ^ ls.stages - 1),
          lv := vset ls.lv 0 { vget ls.lv 0 with lidx := (vget ls.lv 0).lidx + 1 } }, some (vget ls.lv 0).first) := by
        simp only [LoopSeq.pass, piped, if_true, ne_eq, plc, not_false_eq_true]
      rw [ls.endStep_again _ x _ (by decide) ends inmost again]
      exact ⟨⟨rfl, vget_vset_self _ _ _ (by decide), fun k hk _ => others _ k hk⟩, rfl, rfl, rfl⟩
    · have again : ls.pass 0 = ({ ls with
          pec := ls.pec - 1, sg := (ls.sg <<< 1) &&& BitVec.ofNat 8 (2 ^ ls.stages - 1),
          lv := vset ls.lv 0 { vget ls.lv 0 with lidx := (vget ls.lv 0).lidx + 1 } }, some (vget ls.lv 0).first) := by
        simp only [LoopSeq.pass, piped, if_true, ne_eq, plc, pec, not_true_eq_false, if_false, not_false_eq_true]
      rw [ls.endStep_again _ x _ (by decide) ends inmost again]
      exact ⟨⟨rfl, vget_vset_self _ _ _ (by decide), fun k hk _ => others _ k hk⟩, plc, rfl, rfl⟩
    · have out : ls.pass 0 = (ls.deactivate 0, none) := by
        simp only [LoopSeq.pass, piped, if_true, ne_eq, plc, pec, not_true_eq_false, if_false]
      obtain ⟨outer, above, step⟩ := ls.endStep_innermost x (by decide) ends inmost
      have done : ls.endStep x = (ls.deactivate 0, none) := by
        rw [step, out, LoopSeq.foldl_endAt_quiet]
        intro k hk e
        obtain ⟨h0, h6⟩ := above k hk
        unfold LoopSeq.endsAt at e
        rw [ls.deactivate_other (Nat.ne_of_lt h0)] at e
        exact quiet k h0 h6 e.1 e.2
      have cleared := ls.deactivate_passes 0
      rw [if_pos piped] at cleared
      rw [done]
      refine ⟨rfl, ?_, congrArg Prod.fst cleared, fun k hk _ => ls.deactivate_other (Nat.ne_of_lt hk)⟩
      rw [ls.deactivate_self (by decide)]
end

section
/-! SUPPORT. The pc and the loop sequencer of a core when its bundle has committed (R190, R221 to R227, R240): nothing but the bundle's
own transfer or loop moves them. -/

namespace Sys2Proof.Machine

/-! ### Where a core stands in its program -/

/-- Two states of a core stand at the same place: the same pc, loops and handler, and the same core. -/
structure Core.SamePlace (c d : Core) : Prop where
  pc : d.pc = c.pc
  loop : d.loop = c.loop
  held : d.held = c.held
  key : d.key = c.key

theorem Core.SamePlace.refl (c : Core) : c.SamePlace c := ⟨rfl, rfl, rfl, rfl⟩

theorem Core.SamePlace.trans {c d e : Core} (h : c.SamePlace d) (g : d.SamePlace e) : c.SamePlace e :=
  ⟨g.pc.trans h.pc, g.loop.trans h.loop, g.held.trans h.held, g.key.trans h.key⟩

theorem Core.SamePlace.foldl {α : Type} {β : Type} (core : β → Core) (f : β → α → β)
    (hf : ∀ b x, (core b).SamePlace (core (f b x))) (l : List α) (b : β) : (core b).SamePlace (core (l.foldl f b)) := by
  induction l generalizing b with
  | nil => exact .refl _
  | cons x l ih => exact (hf b x).trans (ih _)

/-! ### What leaves it there -/

theorem State.cregWrite_samePlace (s : State) (r : CReg) (v : Word) : s.core.SamePlace (s.cregWrite r v).core := by
  cases r <;> exact ⟨rfl, rfl, rfl, rfl⟩

theorem Core.setTok_samePlace (c : Core) (t : Nat) (p : Bool) : c.SamePlace (c.setTok t p) := by
  unfold Core.setTok
  split <;> exact ⟨rfl, rfl, rfl, rfl⟩

theorem Core.beginSwitch_samePlace (c : Core) (x : Cmd) : c.SamePlace (c.beginSwitch x) := by
  unfold Core.beginSwitch
  split <;> exact ⟨rfl, rfl, rfl, rfl⟩

theorem Core.shw_samePlace (c : Core) (r f : Nat) (v : BitVec 32) : c.SamePlace (c.shw r f v) := by
  unfold Core.shw
  dsimp only
  repeat' split
  all_goals exact ⟨rfl, rfl, rfl, rfl⟩

/-- A write at the end of the cycle. -/
theorem State.applyEoc_samePlace (s : State) (e : Eoc) : s.core.SamePlace (s.applyEoc e).core := by
  cases e with
  | shw r f v => exact s.core.shw_samePlace r f v
  | agw g l f v => exact ⟨rfl, rfl, rfl, rfl⟩
  | crw n v =>
    show s.core.SamePlace ((s.creg n).elim s fun r => s.cregWrite r v).core
    cases s.creg n with
    | none => exact .refl _
    | some r => exact s.cregWrite_samePlace r v
  | cbk n v => exact ⟨rfl, rfl, rfl, rfl⟩
  | cmd x =>
    refine .trans ?_ (Core.beginSwitch_samePlace _ x)
    refine .trans ?_ (Core.setTok_samePlace _ x.tok.toNat true)
    exact ⟨rfl, rfl, rfl, rfl⟩
  | reed r => exact ⟨rfl, rfl, rfl, rfl⟩

theorem State.applyResults_samePlace (s : State) : s.core.SamePlace s.applyResults.core :=
  .trans (.foldl State.core State.applyEoc State.applyEoc_samePlace s.iss.eoc s) ⟨rfl, rfl, rfl, rfl⟩

theorem Core.deliver_samePlace (c : Core) (w : Win) : c.SamePlace (c.deliver w) := by
  unfold Core.deliver
  split <;> exact ⟨rfl, rfl, rfl, rfl⟩

theorem Core.winStep_samePlace (st : Core × List Win) (w : Win) : st.1.SamePlace (Core.winStep st w).1 := by
  unfold Core.winStep
  dsimp only
  repeat' split
  all_goals first | exact .refl _ | exact st.1.deliver_samePlace _

theorem Core.tick_samePlace (c : Core) : c.SamePlace c.tick :=
  .trans (.foldl Prod.fst Core.winStep Core.winStep_samePlace c.pipes.wins (c, [])) ⟨rfl, rfl, rfl, rfl⟩

/-- The focus core changed by its key. -/
theorem State.onCore_focus (s : State) (f : Core → Core) (h : (f s.core).key = s.core.key) :
    s.onCore s.core.key f = { s with core := f s.core } := by
  rw [State.onCore, State.getCore, if_pos rfl, State.putCore, if_pos h.symm]

theorem State.notePosts_samePlace (s : State) : s.core.SamePlace (s.notePosts s.core.key).core := by
  unfold State.notePosts
  dsimp only
  generalize s.getCore s.core.key = c
  generalize c.pipes.cmds.filter c.newPost = l
  suffices ∀ (l : List Cmd) (t : State), s.core.SamePlace t.core → s.core.SamePlace (l.foldl (fun t x =>
      (t.onCore s.core.key fun d => d.putCmd { x with ready := some (vget t.fens c.fen).posts }).onFen c.fen fun f => { f with
        posts := f.posts + 1 }) t).core from this l s (.refl _)
  intro l
  induction l with
  | nil => exact fun _ h => h
  | cons x l ih =>
    intro t h
    refine ih _ (h.trans ?_)
    rw [State.onFen_core, ← h.key, t.onCore_focus _ rfl]
    exact ⟨rfl, rfl, rfl, rfl⟩

/-! ### The commit -/

/-- The next pc and loops depend on the place alone. -/
theorem Core.advance_congr {c d : Core} (h : c.SamePlace d) (i : Issue) :
    (d.advance i).pc = (c.advance i).pc ∧ (d.advance i).loop = (c.advance i).loop := by
  obtain ⟨pc, loop, held, -⟩ := h
  unfold Core.advance
  rw [pc, loop, held]
  repeat' split
  all_goals exact ⟨rfl, rfl⟩

/-- A bundle commits, and neither enters nor leaves a handler nor ends its task. -/
structure Issue.Commits (i : Issue) : Prop where
  hold : i.hold = none
  claim : i.claim = false
  overflow : i.overflow = none
  fault : i.fault = none
  freeze : i.freeze = none
  trap : i.trap = none
  tret : i.tret = false
  done : i.done = false

/-- The core of a bundle that commits, before its pc moves. -/
def State.committed (s : State) : Core :=
  { s.applyResults.core with
    skipBkpt := false, waitcVal := none, wait := none, waits := [], freeze := none, frozen := false,
    cmdWait := Vector.replicate 2 none, fetched := none }

theorem State.commit_plain (s : State) (trap : s.iss.trap = none) (tret : s.iss.tret = false) (done : s.iss.done = false) :
    s.commit =
      let u : State := { s.applyResults with core := (s.committed.advance s.iss).tick }
      let v := if s.iss.synced then u.syncClocks else u
      ({ v with iss := Issue.reset } : State).notePosts v.core.key := by
  unfold State.commit
  simp only [trap, tret, done, Bool.false_eq_true, if_false]
  rfl

theorem State.finishIssue_eq_commit (base s : State) (h : s.iss.Commits) : base.finishIssue s = s.commit := by
  unfold State.finishIssue
  simp only [h.hold, h.claim, h.overflow, h.fault, h.freeze, firstFault, Bool.false_and, Bool.false_eq_true, if_false]

/-- The pc and the loops after it are those of `Core.advance`. -/
theorem State.finishIssue_place (base s : State) (h : s.iss.Commits) :
    (base.finishIssue s).core.pc = (s.core.advance s.iss).pc ∧ (base.finishIssue s).core.loop = (s.core.advance s.iss).loop := by
  have place : s.core.SamePlace s.committed := s.applyResults_samePlace.trans ⟨rfl, rfl, rfl, rfl⟩
  obtain ⟨pc, loop⟩ := Core.advance_congr place s.iss
  have posts (v : State) : v.core.SamePlace (({ v with iss := Issue.reset } : State).notePosts v.core.key).core :=
    State.notePosts_samePlace { v with iss := Issue.reset }
  have clocks (u : State) : u.core.SamePlace (if s.iss.synced then u.syncClocks else u).core := by
    split <;> exact ⟨rfl, rfl, rfl, rfl⟩
  rw [base.finishIssue_eq_commit s h, s.commit_plain h.trap h.tret h.done, ← pc, ← loop]
  have all := ((s.committed.advance s.iss).tick_samePlace.trans
    (clocks { s.applyResults with core := (s.committed.advance s.iss).tick })).trans (posts _)
  exact ⟨all.pc, all.loop⟩

@[simp] theorem LoopSeq.prune_lv (ls : LoopSeq) : ls.prune.lv = ls.lv := rfl
@[simp] theorem LoopSeq.prune_passes (ls : LoopSeq) : ls.prune.passes = ls.passes := rfl

/-- A transfer: its target, and the levels whose bodies hold it; in handler mode all levels. -/
theorem Core.advance_transfer (c : Core) (i : Issue) (t : Addr) (h : i.next = some t) :
    (c.advance i).pc = t ∧ (c.held.isSome = true → (c.advance i).loop = c.loop)
      ∧ (c.held = none → (c.advance i).loop = (c.loop.transfer t).prune) := by
  unfold Core.advance
  rw [h]
  cases held : c.held with
  | none => exact ⟨rfl, fun e => absurd e Bool.false_ne_true, fun _ => rfl⟩
  | some _ => exact ⟨rfl, fun _ => rfl, fun e => absurd e (Option.some_ne_none _)⟩

/-- No transfer and no loop: the end of a pass at this bundle. -/
theorem Core.advance_plain (c : Core) (i : Issue) (next : i.next = none) (loop : i.loopReq = none) :
    (c.advance i).pc = (if c.held.isSome then none else (c.loop.endStep c.pc).2).getD (bundleAt c.pc 1) := by
  unfold Core.advance
  rw [next, loop]
  cases c.held <;> rfl

end Sys2Proof.Machine

open Sys2Proof Sys2Proof.Machine in
/-- Settles O12: a commit leaves the core where `Core.advance` puts it (`State.finishIssue_place`); with no level active no pass ends
(`LoopSeq.endStep_quiet`), and a transfer ends the levels that it leaves (`LoopSeq.transfer_active`). -/
theorem nextBundleFollows : Obligations.NextBundleFollows := by
  intro base s hold claim overflow fault freeze trap tret done
  have place := base.finishIssue_place s ⟨hold, claim, overflow, fault, freeze, trap, tret, done⟩
  generalize (base.finishIssue s).core = d at place ⊢
  obtain ⟨pc, loop⟩ := place
  constructor
  · intro next noLoop noLevel
    rw [Core.anyLevel_eq_false] at noLevel
    rw [pc, Core.advance_plain _ _ next noLoop, LoopSeq.endStep_quiet]
    · cases s.core.held <;> rfl
    · intro l hl ends
      exact Bool.false_ne_true ((noLevel l hl).symm.trans ends.1)
  · intro t next
    obtain ⟨target, handler, outside⟩ := s.core.advance_transfer s.iss t next
    refine ⟨pc.trans target, fun held => loop.trans (handler held), fun held => ?_⟩
    have lv : d.loop.lv = (s.core.loop.transfer t).lv := by rw [loop, outside held, LoopSeq.prune_lv]
    have passes : d.loop.passes = (s.core.loop.transfer t).passes := by
      rw [loop, outside held, LoopSeq.prune_passes]
    refine ⟨fun l hl => ?_, fun within => ?_, fun l hl active piped out => ?_⟩
    · rw [lv]
      exact s.core.loop.transfer_active t hl
    · have kept := passes.trans (s.core.loop.transfer_passes_kept t fun k hk ⟨active, piped, out⟩ => by
        obtain ⟨first, last⟩ := within k hk active piped
        simp [LoopLevel.holds, active, first, last] at out)
      simpa only [LoopSeq.passes, Prod.mk.injEq] using kept
    · have cleared := passes.trans (s.core.loop.transfer_passes_cleared t hl ⟨active, piped, by
        rw [LoopLevel.holds, active, Bool.true_and, ← Bool.decide_and, decide_eq_false out]⟩)
      simpa only [LoopSeq.passes, Prod.mk.injEq] using cleared
end

section
/-! SUPPORT. Loops that start (R209, R224, R227): what LOOP and LOOPP ask for, and what the end of their bundle makes of it. -/

namespace Sys2Proof.Machine

/-- A body that ends within every active body extends past none (R226). -/
theorem Core.pastBody_eq_false (c : Core) (len : Nat)
    (h : ∀ k, k < 6 → (vget c.loop.lv k).active = true → c.pc.toNat + 24 * len ≤ (vget c.loop.lv k).last.toNat) :
    c.pastBody len = false := by
  refine List.any_eq_false.mpr fun k hk past => ?_
  rw [mem_levels] at hk
  rw [Bool.and_eq_true, decide_eq_true_eq] at past
  exact Nat.not_lt.mpr (h k hk past.1) past.2

/-- A loop request with a count: where its level stands after the bundle, and what it leaves of the others. -/
theorem LoopSeq.begin_level (ls : LoopSeq) (q : LoopReq) (pc : Addr) (h : q.level < 6) :
    let v := vget (ls.begin q pc).lv q.level
    v.active = true ∧ v.piped = q.piped ∧ v.lidx = 0 ∧ v.first = bundleAt pc 1 ∧ v.last = bundleAt pc q.len
      ∧ v.lcnt = if q.piped then BitVec.ofNat 16 (q.count.toNat + q.stages - 1) else q.count := by
  unfold LoopSeq.begin LoopSeq.activate
  cases q.piped <;> exact vget_vset_self ls.lv _ _ h ▸ ⟨rfl, rfl, rfl, rfl, rfl, rfl⟩

theorem LoopSeq.begin_other (ls : LoopSeq) (q : LoopReq) (pc : Addr) {l : Nat} (h : l ≠ q.level) :
    vget (ls.begin q pc).lv l = vget ls.lv l := by
  unfold LoopSeq.begin LoopSeq.activate
  split <;> exact vget_vset_ne _ _ _ _ (Ne.symm h)

/-- The pass counts and stage predicates after it. -/
theorem LoopSeq.begin_passes (ls : LoopSeq) (q : LoopReq) (pc : Addr) :
    (q.piped = true → (ls.begin q pc).plc = BitVec.ofNat 16 (q.count.toNat - 1)
        ∧ (ls.begin q pc).pec = BitVec.ofNat 4 (q.stages - 1) ∧ (ls.begin q pc).sg = 1 ∧ (ls.begin q pc).stages = q.stages)
      ∧ (q.piped = false → (ls.begin q pc).plc = ls.plc ∧ (ls.begin q pc).pec = ls.pec ∧ (ls.begin q pc).sg = ls.sg) := by
  unfold LoopSeq.begin LoopSeq.activate
  cases q.piped
  · exact ⟨fun h => (nomatch h), fun _ => ⟨rfl, rfl, rfl⟩⟩
  · exact ⟨fun _ => ⟨rfl, rfl, rfl, rfl⟩, fun h => (nomatch h)⟩

/-- A loop request outside handler mode: the level begins at the next bundle, or the body is skipped and its last bundle's end
is applied. -/
theorem Core.advance_loop (c : Core) (i : Issue) (q : LoopReq) (held : c.held = none) (next : i.next = none)
    (h : i.loopReq = some q) :
    (q.skip = false → (c.advance i).pc = bundleAt c.pc 1 ∧ (c.advance i).loop = c.loop.begin q c.pc)
      ∧ (q.skip = true → (c.advance i).pc = (c.loop.endStep (bundleAt c.pc q.len)).2.getD (bundleAt c.pc (q.len + 1))
        ∧ (c.advance i).loop = (c.loop.endStep (bundleAt c.pc q.len)).1.prune) := by
  unfold Core.advance
  rw [held, next, h]
  dsimp only [Option.isSome_none, Bool.false_eq_true, if_false]
  constructor
  · intro skip
    rw [skip]
    exact ⟨rfl, rfl⟩
  · intro skip
    rw [skip]
    exact ⟨rfl, rfl⟩

end Sys2Proof.Machine

open Sys2Proof Sys2Proof.Machine in
/-- Settles O42: none of the faults of R226 comes, so the request is made; the commit begins its level (`LoopSeq.begin_level`) or
skips its body (`Core.advance_loop`). -/
theorem loopsStart : Obligations.LoopsStart := by
  constructor
  · intro s l st r n len runs held within
    have inside : s.core.pastBody (bodyLen n) = false := s.core.pastBody_eq_false _ within
    constructor
    · intro hl free count
      have level : (vget s.core.loop.lv l.toNat).active = false := free _ (Nat.le_refl _)
      have inner : (levels.any fun k => (vget s.core.loop.lv k).active && decide (k ≤ l.toNat)) = false := by
        refine List.any_eq_false.mpr fun k _ h => ?_
        rw [Bool.and_eq_true, decide_eq_true_eq] at h
        exact Bool.false_ne_true ((free k h.2).symm.trans h.1)
      show Host.Outcome.next _ = _
      simp only [runs, held, level, inner, inside, Nat.not_lt.mpr count, Bool.not_true, Bool.false_eq_true, if_false,
        Option.isSome_none]
      rfl
    · intro free count
      show Host.Outcome.next _ = _
      simp only [runs, held, free, inside, Nat.not_lt.mpr count, Bool.not_true, Bool.false_eq_true, if_false, Option.isSome_none]
      rfl
  · intro base s q hold claim overflow fault freeze next trap tret done held loopReq hq
    have place := base.finishIssue_place s ⟨hold, claim, overflow, fault, freeze, trap, tret, done⟩
    generalize (base.finishIssue s).core = d at place ⊢
    obtain ⟨pc, loop⟩ := place
    obtain ⟨begins, skips⟩ := s.core.advance_loop s.iss q held next loopReq
    constructor
    · intro skip
      obtain ⟨pc', loop'⟩ := begins skip
      obtain ⟨active, piped, lidx, first, last, lcnt⟩ := s.core.loop.begin_level q s.core.pc hq
      rw [pc, pc', loop, loop']
      exact ⟨rfl, active, piped, lidx, first, last, lcnt, fun l _ hl => s.core.loop.begin_other q s.core.pc hl,
        s.core.loop.begin_passes q s.core.pc⟩
    · intro skip
      obtain ⟨pc', loop'⟩ := skips skip
      rw [pc, pc', loop, loop', LoopSeq.prune_lv]
      refine ⟨rfl, rfl, fun quiet => ?_⟩
      have none : s.core.loop.endStep (bundleAt s.core.pc q.len) = (s.core.loop, none) :=
        s.core.loop.endStep_quiet _ fun l hl ends => quiet l hl ends.1 ends.2
      rw [none]
      exact ⟨rfl, rfl⟩
end

section
/-! SUPPORT. What lands: a mask, and a store of any length (R101, R132, R138, R362): the sector parts
of an access, its bytes, and the tags and the poison of the sectors it touches and covers. -/

namespace Sys2Proof.Machine

/-! ### Sector parts (R138) -/

/-- A part of an access begins where the access does or at a sector, and ends at the sector's end or where the access does. -/
theorem mem_sectorParts (f : Nat) : ∀ (a n : Nat) (p : Nat × Nat), n = 0 ∨ a % 128 + n ≤ 128 * f →
    (p ∈ sectorParts a f n ↔ a ≤ p.1 ∧ p.1 < a + n ∧ (p.1 = a ∨ p.1 % 128 = 0) ∧ p.2 = min (a + n - p.1) (128 - p.1 % 128)) := by
  induction f with
  | zero =>
    intro a n p fuel
    rw [sectorParts]
    simp only [List.not_mem_nil, false_iff]
    omega
  | succ f ih =>
    intro a n p fuel
    cases n with
    | zero =>
      rw [sectorParts]
      simp only [List.not_mem_nil, false_iff]
      omega
    | succ n =>
      obtain ⟨x, k⟩ := p
      simp only [sectorParts, List.mem_cons, Prod.mk.injEq]
      rcases Nat.le_total (n + 1) (128 - a % 128) with last | more
      · rw [Nat.min_eq_left last, ih _ _ _ (.inl (Nat.sub_self _))]
        simp only
        omega
      · have aligned : (a + (128 - a % 128)) % 128 = 0 := by omega
        rw [Nat.min_eq_right more, ih _ _ _ (.inr (by omega))]
        simp only
        omega

theorem mem_partsOf (a n : Nat) (p : Nat × Nat) :
    p ∈ partsOf a n ↔ a ≤ p.1 ∧ p.1 < a + n ∧ (p.1 = a ∨ p.1 % 128 = 0) ∧ p.2 = min (a + n - p.1) (128 - p.1 % 128) :=
  mem_sectorParts _ a n p (.inr (by omega))

/-- The sectors that an access touches. -/
theorem exists_part_iff (a n k : Nat) : (∃ p ∈ partsOf a n, p.1 / 128 = k) ↔ 0 < n ∧ a < 128 * (k + 1) ∧ 128 * k < a + n := by
  constructor
  · rintro ⟨⟨x, m⟩, h, hk⟩
    rw [mem_partsOf] at h
    simp only at h hk
    omega
  · intro h
    rcases Nat.le_total a (128 * k) with first | first
    · exact ⟨(128 * k, min (a + n - 128 * k) (128 - 128 * k % 128)), (mem_partsOf ..).mpr ⟨first, h.2.2, .inr (by simp only; omega), rfl⟩, by simp only; omega⟩
    · exact ⟨(a, min (a + n - a) (128 - a % 128)), (mem_partsOf ..).mpr ⟨Nat.le_refl a, by simp only; omega, .inl rfl, rfl⟩, by simp only; omega⟩

/-- The sectors that an access covers. -/
theorem exists_whole_part_iff (a n k : Nat) :
    (∃ p ∈ partsOf a n, p.2 = 128 ∧ p.1 / 128 = k) ↔ a ≤ 128 * k ∧ 128 * (k + 1) ≤ a + n := by
  constructor
  · rintro ⟨⟨x, m⟩, h, hm, hk⟩
    rw [mem_partsOf] at h
    simp only at h hm hk
    omega
  · intro h
    refine ⟨(128 * k, 128), ?_, rfl, by simp only; omega⟩
    rw [mem_partsOf]
    simp only
    omega

/-! ### Bytes written -/

theorem Memory.writeBytes_append (xs ys : List Byte) (m : Memory) (a : Nat) :
    m.writeBytes a (xs ++ ys) = (m.writeBytes a xs).writeBytes (a + xs.length) ys := by
  induction xs generalizing m a with
  | nil => rfl
  | cons x xs ih =>
    rw [List.cons_append, Memory.writeBytes, ih, Memory.writeBytes, List.length_cons]
    congr 1
    omega

/-- What bytes written leave at each address. -/
theorem Memory.read_writeBytes (bs : List Byte) (m : Memory) (a x : Nat) (h : m.wf = true) :
    (m.writeBytes a bs).read x = if a ≤ x ∧ x < a + bs.length then bs.getD (x - a) 0 else m.read x := by
  induction bs generalizing m a with
  | nil =>
    rw [Memory.writeBytes, if_neg]
    simp only [List.length_nil]
    omega
  | cons b bs ih =>
    rw [Memory.writeBytes]
    by_cases hx : x = a
    · subst hx
      rw [Memory.read_writeBytes_other _ _ _ _ (.inl (Nat.lt_succ_self x)), Memory.read_write_same _ _ _ h,
        if_pos ⟨Nat.le_refl _, by rw [List.length_cons]; omega⟩, Nat.sub_self, List.getD_cons_zero]
    · rw [ih _ _ (Memory.write_wf m a b h), Memory.read_write_other _ _ _ _ hx, List.length_cons]
      by_cases inside : a + 1 ≤ x ∧ x < a + 1 + bs.length
      · rw [if_pos inside, if_pos (by omega), show x - a = x - (a + 1) + 1 by omega, List.getD_cons_succ]
      · rw [if_neg inside, if_neg (by omega)]

/-- One byte after a list of writes of the same byte. -/
theorem Memory.read_foldl_write {α : Type} (key : α → Nat) (b : Byte) (l : List α) (m : Memory) (k : Nat) (h : m.wf = true) :
    (l.foldl (fun t p => t.write (key p) b) m).read k = if ∃ p ∈ l, key p = k then b else m.read k := by
  induction l generalizing m with
  | nil => simp
  | cons p l ih =>
    rw [List.foldl_cons, ih _ (Memory.write_wf m _ b h)]
    by_cases later : ∃ q ∈ l, key q = k
    · rw [if_pos later, if_pos (later.imp fun q hq => ⟨List.mem_cons_of_mem _ hq.1, hq.2⟩)]
    · by_cases hp : key p = k
      · rw [if_neg later, if_pos ⟨p, List.mem_cons_self .., hp⟩, hp, Memory.read_write_same _ _ _ h]
      · rw [if_neg later, if_neg, Memory.read_write_other _ _ _ _ (Ne.symm hp)]
        rintro ⟨q, hq, hk⟩
        rcases List.mem_cons.mp hq with rfl | hq
        · exact hp hk
        · exact later ⟨q, hq, hk⟩

theorem setHas_setDel (x k : Nat) (l : List Nat) : setHas x (setDel k l) = (setHas x l && decide (x ≠ k)) := by
  rw [Bool.eq_iff_iff]
  simp only [setHas, setDel, List.any_filter, List.any_eq_true, Bool.and_eq_true, decide_eq_true_eq, ne_eq]
  constructor
  · rintro ⟨y, hy, hk, rfl⟩
    exact ⟨⟨y, hy, rfl⟩, hk⟩
  · rintro ⟨⟨y, hy, rfl⟩, hk⟩
    exact ⟨y, hy, hk, rfl⟩

/-- The sectors that parts cover lose their poison. -/
def coveredOut (l : List (Nat × Nat)) (ps : List Nat) : List Nat :=
  l.foldl (fun q p => if p.2 = 128 then setDel (p.1 / 128) q else q) ps

theorem exists_mem_cons_iff {α : Type} (p : α → Prop) (a : α) (l : List α) : (∃ x ∈ a :: l, p x) ↔ p a ∨ ∃ x ∈ l, p x := by
  simp only [List.mem_cons, exists_eq_or_imp]

theorem setHas_coveredOut (l : List (Nat × Nat)) (ps : List Nat) (k : Nat) :
    setHas k (coveredOut l ps) = (setHas k ps && !decide (∃ p ∈ l, p.2 = 128 ∧ p.1 / 128 = k)) := by
  unfold coveredOut
  induction l generalizing ps with
  | nil => simp
  | cons p l ih =>
    rw [List.foldl_cons, ih]
    by_cases whole : p.2 = 128
    · rw [if_pos whole, setHas_setDel, Bool.and_assoc]
      congr 1
      rw [Bool.eq_iff_iff]
      simp [whole]
      grind
    · rw [if_neg whole]
      simp only [exists_mem_cons_iff, whole, false_and, false_or]

/-! ### A store of any length (R101, R132, R362) -/

theorem Scratch.storePart_plain (sp : Scratch) (a : Nat) (bs : List Byte) (tag : Byte) (h : sp.isFifo a = false) :
    sp.storePart a bs tag = sp.put a bs tag := if_neg (Bool.eq_false_iff.mp h)

/-- Parts stored one after the other, none to a FIFO bank: the bytes in a row, the tag of each part's sector, and the poison of the
sectors covered gone. -/
theorem Scratch.foldl_storePart (tag : Byte) (f : Nat) : ∀ (a : Nat) (bs : List Byte) (sp : Scratch),
    bs.length = 0 ∨ a % 128 + bs.length ≤ 128 * f →
    (∀ x, a ≤ x → x < a + bs.length → sp.isFifo x = false) →
    ((sectorParts a f bs.length).foldl
      (fun (st : Scratch × List Byte) p => (st.1.storePart p.1 (st.2.take p.2) tag, st.2.drop p.2)) (sp, bs)).1
    = { sp with
        mem := sp.mem.writeBytes a bs
        tags := (sectorParts a f bs.length).foldl (fun t p => t.write (p.1 / 128) tag) sp.tags
        poison := coveredOut (sectorParts a f bs.length) sp.poison } := by
  induction f with
  | zero =>
    intro a bs sp fuel _
    rw [List.length_eq_zero_iff.mp (by omega : bs.length = 0)]
    rfl
  | succ f ih =>
    intro a bs sp fuel plain
    cases len : bs.length with
    | zero =>
      rw [List.length_eq_zero_iff.mp len]
      rfl
    | succ n =>
      simp only [sectorParts, List.foldl_cons]
      generalize hk : min (n + 1) (128 - a % 128) = k
      have took : (bs.take k).length = k := by rw [List.length_take]; omega
      have left : (bs.drop k).length = n + 1 - k := by rw [List.length_drop, len]
      rw [sp.storePart_plain a _ tag (plain a (Nat.le_refl _) (by omega)), ← left,
        ih (a + k) (bs.drop k) (sp.put a (bs.take k) tag) (by rw [left]; omega)
          (fun x hx h => plain x (by omega) (by rw [left] at h; omega))]
      have bytes : sp.mem.writeBytes a bs = (sp.mem.writeBytes a (bs.take k)).writeBytes (a + k) (bs.drop k) := by
        conv => lhs; rw [← List.take_append_drop k bs]
        rw [Memory.writeBytes_append, took]
      rw [bytes, coveredOut, coveredOut, List.foldl_cons, Scratch.put, took]

/-- A store none of whose banks is a FIFO. -/
theorem Scratch.store_plain (sp : Scratch) (a : Nat) (bs : List Byte) (tag : Byte)
    (h : ∀ x, a ≤ x → x < a + bs.length → sp.isFifo x = false) :
    sp.store a bs tag = { sp with
      mem := sp.mem.writeBytes a bs
      tags := (partsOf a bs.length).foldl (fun t p => t.write (p.1 / 128) tag) sp.tags
      poison := coveredOut (partsOf a bs.length) sp.poison } :=
  Scratch.foldl_storePart tag _ a bs sp (.inr (by omega)) h

theorem Scratch.store_mem (sp : Scratch) (a : Nat) (bs : List Byte) (tag : Byte) (wf : sp.wf = true)
    (h : ∀ x, a ≤ x → x < a + bs.length → sp.isFifo x = false) (x : Nat) :
    (sp.store a bs tag).mem.read x = if a ≤ x ∧ x < a + bs.length then bs.getD (x - a) 0 else sp.mem.read x := by
  rw [sp.store_plain a bs tag h]
  exact Memory.read_writeBytes bs sp.mem a x (sp.wf_iff.mp wf).1

theorem Scratch.store_tags (sp : Scratch) (a : Nat) (bs : List Byte) (tag : Byte) (wf : sp.wf = true)
    (h : ∀ x, a ≤ x → x < a + bs.length → sp.isFifo x = false) (k : Nat) :
    (sp.store a bs tag).tags.read k
      = if bs ≠ [] ∧ a < 128 * (k + 1) ∧ 128 * k < a + bs.length then tag else sp.tags.read k := by
  rw [sp.store_plain a bs tag h]
  refine (Memory.read_foldl_write _ tag _ sp.tags k (sp.wf_iff.mp wf).2).trans ?_
  simp only [exists_part_iff, List.length_pos_iff]

theorem Scratch.store_poison (sp : Scratch) (a : Nat) (bs : List Byte) (tag : Byte)
    (h : ∀ x, a ≤ x → x < a + bs.length → sp.isFifo x = false) (k : Nat) :
    setHas k (sp.store a bs tag).poison
      = (setHas k sp.poison && !decide (a ≤ 128 * k ∧ 128 * (k + 1) ≤ a + bs.length)) := by
  rw [sp.store_plain a bs tag h]
  refine (setHas_coveredOut _ _ k).trans ?_
  simp only [exists_whole_part_iff]

/-- The times that a core-port write leaves in the sectors change nothing else. -/
theorem Scratch.portWrote_contents (sp : Scratch) (t a n : Nat) :
    (sp.portWrote t a n).mem = sp.mem ∧ (sp.portWrote t a n).tags = sp.tags ∧ (sp.portWrote t a n).poison = sp.poison
      ∧ (sp.portWrote t a n).fifo = sp.fifo := by
  unfold Scratch.portWrote
  induction partsOf a n generalizing sp with
  | nil => exact ⟨rfl, rfl, rfl, rfl⟩
  | cons p l ih => exact ih (sp.wroteAfter t (p.1 / 128))

/-! ### Mask stacks (R229) -/

/-- A mask pushed on one slot's stack leaves the other's. -/
theorem Core.mask_setMask_other (c : Core) (v : Bool) (l : List (BitVec 64)) : (c.setMask v l).mask (!v) = c.mask (!v) := by
  cases v <;> rfl

/-- A write that register 0 discards, said of the register written or of the register read. -/
theorem if_ne_zero_congr {n : Nat} {α : Type} (x r : BitVec n) (v w : α) :
    (if x = r ∧ r ≠ 0 then v else w) = if x = r ∧ x ≠ 0 then v else w := by
  by_cases h : x = r
  · rw [h]
  · rw [if_neg fun e => h e.1, if_neg fun e => h e.1]

end Sys2Proof.Machine

open Sys2Proof Sys2Proof.Machine in
/-- Settles O13: a register write by `Core.rs_ws`, a predicate by `Core.rp_wp`, and a store by `Scratch.store_mem` and its companions. -/
theorem registerWriteLands : Obligations.RegisterWriteLands := by
  intro c
  refine ⟨fun d r v => (c.rs_ws d r v).trans (if_ne_zero_congr r d _ _), fun d r v => (c.rp_wp d r v).trans (if_ne_zero_congr r d _ _), fun _ => rfl, fun _ => rfl, rfl, rfl, fun v m => ?_, ?_⟩
  · exact ⟨c.mask_setMask v _, c.mask_setMask_other v _, rfl, rfl⟩
  · intro a bs o d wf plain
    obtain ⟨mem, tags, poison, fifo⟩ := (c.sp.store o bs 0).portWrote_contents c.pipes.synced o bs.length
    have sp : d.sp = (c.sp.store o bs 0).portWrote c.pipes.synced o bs.length := rfl
    rw [sp, mem, tags, poison, fifo, Scratch.portWrote_bank]
    refine ⟨c.sp.store_mem o bs 0 wf plain, c.sp.store_tags o bs 0 wf plain, c.sp.store_poison o bs 0 plain,
      c.sp.store_bank o bs 0, ?_, rfl, rfl, rfl⟩
    rw [c.sp.store_plain o bs 0 plain]
end

section
/-! SUPPORT. A result that is due alone (R57, R213), and what a schedule cycle of the windows leaves (R46, R164, R277). -/

namespace Sys2Proof.Machine

/-! ### One result due -/

/-- One element alone passes the filter, or all but one. -/
theorem filter_cons_only {α : Type} (p : α → Bool) (x : α) (l : List α) (hx : p x = true) (hl : ∀ y ∈ l, p y = false) :
    (x :: l).filter p = [x] := by
  rw [List.filter_cons_of_pos hx, List.filter_eq_nil_iff.mpr fun y hy => Bool.eq_false_iff.mp (hl y hy)]

theorem filter_cons_others {α : Type} (p : α → Bool) (x : α) (l : List α) (hx : p x = false) (hl : ∀ y ∈ l, p y = true) :
    (x :: l).filter p = l := by
  rw [List.filter_cons_of_neg (Bool.eq_false_iff.mp hx), List.filter_eq_self.mpr hl]

theorem dueInOrder_singleton (i : Inflight) (l : List Inflight) (due : i.rem = 0) (slot : i.slot < 8) (wait : ∀ j ∈ l, j.rem ≠ 0) :
    dueInOrder (i :: l) = [i] := by
  have one : (i :: l).filter (fun j => decide (j.rem = 0)) = [i] :=
    filter_cons_only _ i l (decide_eq_true due) fun j hj => decide_eq_false (wait j hj)
  have slots (j : Inflight) (hj : j ∈ [i]) : decide (j.slot < 8) = true := by
    rw [List.mem_singleton.mp hj]
    exact decide_eq_true slot
  have cut := flatMap_range_filter_perm Inflight.slot [i] 8
  rw [List.filter_eq_self.mpr slots] at cut
  unfold dueInOrder
  rw [one]
  exact List.perm_singleton.mp cut

/-- A result due alone: its landing, and the others as they were. -/
theorem Core.landDue_one (c : Core) (i : Inflight) (l : List Inflight) (h : c.pipes.inflight = i :: l) (due : i.rem = 0)
    (slot : i.slot < 8) (wait : ∀ j ∈ l, j.rem ≠ 0) :
    c.landDue = { (landStep (c, [], []) i).1 with
      pipes := { (landStep (c, [], []) i).1.pipes with inflight := (landStep (c, [], []) i).2.1 ++ l } } := by
  have rest : (i :: l).filter (fun j => decide (j.rem ≠ 0)) = l :=
    filter_cons_others _ i l (decide_eq_false (not_not_intro due)) fun j hj => decide_eq_true (wait j hj)
  unfold Core.landDue
  rw [h, dueInOrder_singleton i l due slot wait, rest]
  rfl

/-! ### A schedule cycle of the windows -/

/-- What windows deliver, captured operands and latches, is all that differs. -/
def Core.OnlyDelivers (c d : Core) : Prop :=
  ∃ mmas lt errs, d = { c with
    mx := { c.mx with
      mmas := mmas
      lt := lt }
    errs := errs }

theorem Core.OnlyDelivers.refl (c : Core) : c.OnlyDelivers c := ⟨_, _, _, rfl⟩

theorem Core.OnlyDelivers.trans {c d e : Core} (h : c.OnlyDelivers d) (k : d.OnlyDelivers e) : c.OnlyDelivers e := by
  obtain ⟨_, _, _, rfl⟩ := h
  obtain ⟨_, _, _, rfl⟩ := k
  exact ⟨_, _, _, rfl⟩

theorem Core.deliver_onlyDelivers (c : Core) (w : Win) : c.OnlyDelivers (c.deliver w) := by
  unfold Core.deliver
  cases w.dest <;> exact ⟨_, _, _, rfl⟩

/-- A window once its next row is read, from the scratchpad as it stands. -/
def Core.winRead (c : Core) (w : Win) (r : BitVec 10) (rest : List (BitVec 10)) : Win :=
  { w with
    rows := rest
    got := w.got ++ [(r, c.groupRow w.group.toNat r)] }

/-- A window goes on with the rows left, a latch's also for the cycle after its last row. -/
def Win.goesOn (w : Win) (rest : List (BitVec 10)) : Prop := rest ≠ [] ∨ ∃ l, w.dest = .latch l

theorem Core.winStep_end (c : Core) (ws : List Win) (w : Win) (h : w.rows = []) : Core.winStep (c, ws) w = (c.deliver w, ws) := by
  unfold Core.winStep
  rw [h]

theorem Core.winStep_read (c : Core) (ws : List Win) (w : Win) (r : BitVec 10) (rest : List (BitVec 10)) (h : w.rows = r :: rest)
    (on : w.goesOn rest) : Core.winStep (c, ws) w = (c, ws ++ [c.winRead w r rest]) := by
  obtain ⟨dest, group, rows, got, shape, btype⟩ := w
  obtain rfl : rows = r :: rest := h
  rcases on with more | ⟨l, hl⟩
  · obtain ⟨r', rest', rfl⟩ := List.exists_cons_of_ne_nil more
    cases dest <;> rfl
  · obtain rfl : dest = .latch l := hl
    rfl

theorem Core.winStep_last (c : Core) (ws : List Win) (w : Win) (r : BitVec 10) (h : w.rows = [r]) (off : ¬w.goesOn []) :
    Core.winStep (c, ws) w = (c.deliver (c.winRead w r []), ws) := by
  obtain ⟨dest, group, rows, got, shape, btype⟩ := w
  obtain rfl : rows = [r] := h
  cases dest with
  | latch l => exact absurd (.inr ⟨l, rfl⟩) off
  | mmaA id => rfl
  | mmaB id => rfl

/-- What one cycle of a window does: the next row is read and the window goes on, or it delivers and ends. -/
theorem Core.winStep_cases (c : Core) (ws : List Win) (w : Win) :
    (∃ r rest, w.rows = r :: rest ∧ w.goesOn rest ∧ Core.winStep (c, ws) w = (c, ws ++ [c.winRead w r rest]))
      ∨ (∃ r, w.rows = [r] ∧ ¬w.goesOn [] ∧ Core.winStep (c, ws) w = (c.deliver (c.winRead w r []), ws))
      ∨ (w.rows = [] ∧ Core.winStep (c, ws) w = (c.deliver w, ws)) := by
  cases h : w.rows with
  | nil => exact .inr (.inr ⟨rfl, c.winStep_end ws w h⟩)
  | cons r rest =>
    by_cases on : w.goesOn rest
    · exact .inl ⟨r, rest, rfl, on, c.winStep_read ws w r rest h on⟩
    · obtain rfl : rest = [] := Classical.byContradiction fun e => on (.inl e)
      exact .inr (.inl ⟨r, rfl, on, c.winStep_last ws w r h on⟩)

theorem Core.foldl_winStep_onlyDelivers (l : List Win) : ∀ (c : Core) (ws : List Win),
    c.OnlyDelivers (l.foldl Core.winStep (c, ws)).1 := by
  induction l with
  | nil => exact fun c _ => .refl c
  | cons w l ih =>
    intro c ws
    rw [List.foldl_cons]
    rcases c.winStep_cases ws w with ⟨r, rest, -, -, e⟩ | ⟨r, -, -, e⟩ | ⟨-, e⟩
    · rw [e]
      exact ih c _
    · rw [e]
      exact (c.deliver_onlyDelivers _).trans (ih _ ws)
    · rw [e]
      exact (c.deliver_onlyDelivers w).trans (ih _ ws)

theorem Core.winTick_eq (c : Core) : c.winTick = { (c.pipes.wins.foldl Core.winStep (c, [])).1 with
    pipes := { (c.pipes.wins.foldl Core.winStep (c, [])).1.pipes with wins := (c.pipes.wins.foldl Core.winStep (c, [])).2 } } := rfl

/-- A schedule cycle of the windows changes what they deliver and the windows themselves. -/
theorem Core.winTick_frame (c : Core) : ∃ mmas lt errs wins, c.winTick = { c with
    mx := { c.mx with
      mmas := mmas
      lt := lt }
    errs := errs
    pipes := { c.pipes with wins := wins } } := by
  obtain ⟨mmas, lt, errs, h⟩ := Core.foldl_winStep_onlyDelivers c.pipes.wins c []
  rw [c.winTick_eq, h]
  exact ⟨_, _, _, _, rfl⟩

end Sys2Proof.Machine

open Sys2Proof Sys2Proof.Machine in
/-- Settles O14: a result due alone by `Core.landDue_one`, the schedule cycle by `Core.winTick_frame`, and pushes by
`Core.landDue_queue`, whose pushes of one slot stand in the order of issue. -/
theorem resultLandsWhenDue : Obligations.ResultLandsWhenDue := by
  refine ⟨fun c d v slot n l h hs hl => ?_, fun c w slot n l h hs hl => ?_, fun c => ?_, fun c q _ slots nodup => ?_⟩
  · rw [c.landDue_one _ l h rfl hs hl]
    change ({ c.ws d v with pipes := { (c.ws d v).pipes with inflight := [] ++ l } } : Core) = _
    rw [c.ws_pipes]
    rfl
  · have one := c.landDue_one _ l h rfl hs hl
    refine ⟨?_, ?_, ?_⟩
    · rintro d v rfl
      rw [one]
      change ({ c.wp d v with pipes := { (c.wp d v).pipes with inflight := [] ++ l } } : Core) = _
      rw [c.wp_pipes]
      rfl
    · rintro v m rfl
      exact one
    · rintro a bs rfl
      refine ⟨fun room => ?_, fun full => ⟨?_, ?_⟩⟩
      · rw [one, show landStep (c, [], []) ⟨0, slot, n, .spWrite a bs⟩ = ((c.keepBefore n a bs.length).land (.spWrite a bs), [], [])
          from if_neg (Bool.eq_false_iff.mp room)]
        exact ⟨rfl, rfl, rfl, rfl, rfl⟩
      · rw [one, show landStep (c, [], []) ⟨0, slot, n, .spWrite a bs⟩ = (c, [⟨0, slot, n, .spWrite a bs⟩], []) from if_pos full,
          List.singleton_append, ← h]
      · rw [Core.lateLoad, h]
        rfl
  · obtain ⟨mmas, lt, errs, wins, h⟩ := c.winTick_frame
    unfold Core.tick
    rw [h]
    exact ⟨rfl, rfl, rfl, rfl, rfl, rfl⟩
  · rw [c.landDue_queue q slots nodup, Core.received]
    have inOrder : pushesOf q (dueInOrder c.pipes.inflight) = c.pushesDue q := by
      unfold pushesOf dueInOrder Core.pushesDue
      simp only [List.filter_flatMap, List.map_flatMap, List.filter_filter]
      refine congrArg (List.flatMap · _) (funext fun k => ?_)
      congr 2
      funext i
      cases decide (i.rem = 0) <;> cases decide (i.slot = k) <;> cases pushesTo q i.what <;> rfl
    rw [inOrder]
end

section
/-! SUPPORT. The M slot (R272 to R293): what an instruction meets nothing to stop it at, the scoreboard, and the windows of the matrix
unit from one schedule cycle to the next. -/

namespace Sys2Proof.Machine

/-! ### Selection, and checks that are met (R272, R278, R283, R360) -/

theorem mRun_active {s t : State} {body : State → State} (held : s.core.held = none) (active : s.active = true) (h : body s = t) :
    mRun s body = .next t := by
  unfold mRun
  rw [held, active, ← h]
  rfl

/-- Every M instruction is ILLEGAL in handler mode. -/
theorem exec_m_held (i : Instr) (s : State) (h : classOf i = some .m) (held : s.core.held.isSome = true) :
    exec i s = .next s.illegal := by
  cases i with
  | mmaBf16Latch | mmaBf16Bank | mmaF16Latch | mmaF16Bank | mmaE4m3Latch | mmaE4m3Bank | mmaE5m2Latch | mmaE5m2Bank
  | mmaC4Latch | mmaC4Bank | latch | latchreed | drain | draint | zero | ldcbk | ldfmt => exact if_pos held
  | _ => exact (nomatch h)

/-- Every M instruction does nothing where its guard is false. -/
theorem exec_m_inactive (i : Instr) (s : State) (h : classOf i = some .m) (held : s.core.held = none) (active : s.active = false) :
    exec i s = .next s := by
  have off : ¬s.core.held.isSome = true := by rw [held]; exact Bool.false_ne_true
  have idle : ¬s.active = true := Bool.eq_false_iff.mp active
  cases i with
  | mmaBf16Latch | mmaBf16Bank | mmaF16Latch | mmaF16Bank | mmaE4m3Latch | mmaE4m3Bank | mmaE5m2Latch | mmaE5m2Bank
  | mmaC4Latch | mmaC4Bank | latch | latchreed | drain | draint | zero | ldcbk | ldfmt => exact (if_neg off).trans (if_neg idle)
  | _ => exact (nomatch h)

/-- What an MMA of any form does. -/
theorem exec_of_mmaSlot (i : Instr) (m : MmaSlot) (s : State) (h : mmaSlot i = some m) : exec i s = mMma m s := by
  unfold mmaSlot at h
  split at h <;> cases h <;> rfl

theorem State.coreRead_of_intact (s : State) (cause n : Nat) (h : s.intact cause n = true) : s.coreRead cause n = s :=
  if_neg (Bool.eq_false_iff.mp (by simpa only [State.intact, Bool.not_eq_true'] using h))

theorem misaligned_eq_none (base stride len : Nat) (h : tileAligned base stride len = true) : misaligned base stride len = none := by
  obtain ⟨hb, hs⟩ := (Bool.and_eq_true ..).mp h
  unfold misaligned
  rw [if_neg (not_not_intro (of_decide_eq_true hb)), if_neg (not_not_intro (of_decide_eq_true hs))]

theorem State.alignTiles_of_aligned (s : State) (l : List (Nat × Nat × Nat)) (h : ∀ x ∈ l, tileAligned x.1 x.2.1 x.2.2 = true) :
    s.alignTiles l = s := by
  unfold State.alignTiles
  rw [List.findSome?_eq_none_iff.mpr fun x hx => misaligned_eq_none _ _ _ (h x hx)]

theorem State.claimWindow_of_free (s : State) (g first : Nat) (rows : List (BitVec 10)) (secs : List Nat)
    (h : s.windowFree g first rows secs = true) : s.claimWindow g first rows secs = s.withWindow g first rows := by
  obtain ⟨opened, free⟩ := (Bool.and_eq_true ..).mp h
  unfold State.claimWindow
  rw [List.find?_eq_none.mpr fun k hk => by simpa using List.all_eq_true.mp opened k hk]
  dsimp only
  rw [List.find?_eq_none.mpr fun x hx => by simpa using List.all_eq_true.mp free x hx]
  rfl

theorem State.poisonSectors_of_clean (s : State) (secs : List Nat) (h : (secs.all fun k => !setHas k s.core.sp.poison) = true) :
    s.poisonSectors secs = s := by
  unfold State.poisonSectors
  rw [List.find?_eq_none.mpr fun k hk => by simpa using List.all_eq_true.mp h k hk]

theorem keptCheck_untagged (kt : Vector (BitVec 32) 16) (p : Presented) (ts : List Byte) (h : ∀ t ∈ ts, tagV t = false) :
    keptCheck kt p ts = .untagged := by
  unfold keptCheck
  rw [List.find?_eq_none.mpr fun t ht => Bool.eq_false_iff.mp (h t ht)]

/-- The tag check of sectors raises a fault where `keptCheck` answers one, and nothing else. -/
theorem State.checkSectors_passes (s : State) (p : Presented) (secs : List Nat)
    (h : ∀ cause t, keptCheck s.ctx.kt p (secs.map fun k => s.core.sp.tags.read k) ≠ .fault cause t) :
    s.checkSectors p secs = (keptCheck s.ctx.kt p (secs.map fun k => s.core.sp.tags.read k), s) := by
  unfold State.checkSectors
  dsimp only
  cases hk : keptCheck s.ctx.kt p (secs.map fun k => s.core.sp.tags.read k) with
  | fault cause t => exact absurd hk (h cause t)
  | untagged => rfl
  | carried t => rfl
  | served e t => rfl

theorem State.plainSectors_of_plain (s : State) (secs : List Nat) (h : s.plainSecs secs = true) : s.plainSectors secs = s := by
  have each (k : Nat) (hk : k ∈ secs) := (Bool.and_eq_true ..).mp (List.all_eq_true.mp h k hk)
  unfold State.plainSectors
  rw [s.poisonSectors_of_clean secs (List.all_eq_true.mpr fun k hk => (each k hk).1), s.checkSectors_passes]
  intro cause t
  rw [keptCheck_untagged]
  · exact nofun
  · intro t ht
    obtain ⟨k, hk, rfl⟩ := List.mem_map.mp ht
    simpa using (each k hk).2

theorem State.checkB_of_servedB (s : State) (f : BitVec 16) (m : MmaSlot) (sh : Shape) (secs : List Nat) (r : Nat × List Nat)
    (h : s.servedB f m sh secs = some r) : s.checkB f m sh secs = (r, s) := by
  unfold State.servedB at h
  dsimp only at h
  split at h
  · cases h
  next clean =>
    have clean' : (secs.all fun k => !setHas k s.core.sp.poison) = true := by simpa using clean
    unfold State.checkB
    rw [s.poisonSectors_of_clean secs clean']
    dsimp only
    revert h
    cases hk : keptCheck s.ctx.kt ⟨mReader m.op m.variant, false, mmaOk f m sh⟩ (secs.map fun k => s.core.sp.tags.read k) with
    | fault cause t => exact nofun
    | untagged => exact fun h => Option.some.inj h ▸ rfl
    | carried t => exact fun h => Option.some.inj h ▸ rfl
    | served e t =>
      dsimp only
      intro h
      by_cases code8 : ktForm e = 4
      · rw [if_pos code8] at h ⊢
        generalize setAdd ((m.groupB.toNat * 2 ^ 18 + shAt sh 465 448) / 128) secs = all at h ⊢
        have pass (cl : (all.all fun k => !setHas k s.core.sp.poison) = true)
            (hf : ∀ cause t, keptCheck s.ctx.kt ⟨mReader m.op m.variant, false, mmaOk f m sh⟩
              (all.map fun k => s.core.sp.tags.read k) ≠ .fault cause t) :
            ((s.poisonSectors all).checkSectors ⟨mReader m.op m.variant, false, mmaOk f m sh⟩ all).2 = s := by
          rw [s.poisonSectors_of_clean all cl, s.checkSectors_passes _ all hf]
        cases hk' : keptCheck s.ctx.kt ⟨mReader m.op m.variant, false, mmaOk f m sh⟩ (all.map fun k => s.core.sp.tags.read k) with
        | fault cause t => rw [hk'] at h; cases h
        | _ =>
          rw [hk'] at h
          obtain ⟨cl, hr⟩ := Option.ite_none_right_eq_some.mp h
          obtain rfl := Option.some.inj hr
          rw [pass cl (by rw [hk']; exact nofun)]
      · rw [if_neg code8] at h ⊢
        exact Option.some.inj h ▸ rfl

/-! ### The scoreboard (R61, R273, R274) -/

/-- A bundle that holds on one wait. -/
theorem State.holdOn_first (s : State) (w : Wait) (h : s.iss.hold = none) :
    s.holdOn w = { s with iss := { s.iss with
      hold := some w
      holdSlot := s.iss.slot } } := by
  unfold State.holdOn
  rw [h]

theorem Core.accBusy_iff (c : Core) (a : BitVec 2) : c.accBusy a.toNat = true ↔ ∃ m ∈ c.mx.mmas, m.acc = a := by
  simp [Core.accBusy, BitVec.toNat_inj]

theorem Core.latchLoading_iff (c : Core) (l : BitVec 2) :
    c.latchLoading l.toNat = true ↔ (∃ w ∈ c.pipes.wins, w.dest = .latch l) ∨ ∃ r ∈ c.mx.reeds, r.lt = l := by
  unfold Core.latchLoading
  rw [Bool.or_eq_true, List.any_eq_true, List.any_eq_true]
  simp only [decide_eq_true_eq, BitVec.toNat_inj]
  refine or_congr (exists_congr fun w => and_congr_right fun _ => ?_) Iff.rfl
  cases w.dest with
  | latch k => simp
  | mmaA id => simp
  | mmaB id => simp

theorem Core.latchUsed_iff (c : Core) (l : BitVec 2) :
    c.latchUsed l.toNat = true ↔ ∃ m ∈ c.mx.mmas, m.arrayDone = false ∧ m.bank = false ∧ m.latch = l := by
  simp [Core.latchUsed, BitVec.toNat_inj, and_assoc]

theorem Core.cbkUsed_iff (c : Core) (n : Nat) :
    c.cbkUsed n = true ↔ ∃ m ∈ c.mx.mmas, m.arrayDone = false ∧ namesCbk m.fmt n = true := by
  simp [Core.cbkUsed]

theorem Core.cbkWait_eq_some (c : Core) (e : BitVec 16) (n : Nat) (hn : n < 4) (names : namesCbk e n = true)
    (busy : vget c.mx.cbkBusy n ≠ none) (first : ∀ k, k < n → namesCbk e k = true → vget c.mx.cbkBusy k = none) :
    c.cbkWait e = some n := by
  refine List.find?_range_eq_some.mpr ⟨?_, List.mem_range.mpr hn, fun k hk => ?_⟩
  · rw [names, Option.isSome_iff_ne_none.mpr busy]
    rfl
  · cases name : namesCbk e k with
    | false => rfl
    | true => rw [first k hk name]; rfl

theorem Core.cbkWait_eq_none (c : Core) (e : BitVec 16) :
    c.cbkWait e = none ↔ ∀ n, n < 4 → namesCbk e n = true → vget c.mx.cbkBusy n = none := by
  unfold Core.cbkWait
  rw [List.find?_range_eq_none]
  refine forall_congr' fun n => forall_congr' fun _ => ?_
  cases namesCbk e n <;> simp

theorem State.mmaHold_full (s : State) (f : BitVec 16) (m : MmaSlot) (full : 4 ≤ s.core.mx.mmas.length) :
    s.mmaHold f m = some (m.acc.toNat, 0) := if_pos full

theorem State.mmaHold_latch (s : State) (f : BitVec 16) (m : MmaSlot) (room : s.core.mx.mmas.length < 4) (bank : m.bank = false)
    (loading : s.core.latchLoading m.latch.toNat = true) : s.mmaHold f m = some (m.latch.toNat, 1) :=
  (if_neg (Nat.not_le.mpr room)).trans (if_pos (by rw [bank, loading]; rfl))

theorem State.mmaHold_else (s : State) (f : BitVec 16) (m : MmaSlot) (room : s.core.mx.mmas.length < 4)
    (free : m.bank = false → ¬s.core.latchLoading m.latch.toNat = true) : s.mmaHold f m = (s.core.cbkWait f).map fun n => (n, 2) := by
  refine (if_neg (Nat.not_le.mpr room)).trans (if_neg fun h => ?_)
  obtain ⟨bank, loading⟩ := (Bool.and_eq_true ..).mp h
  exact free (by simpa using bank) loading

theorem State.mmaHold_eq_none (s : State) (f : BitVec 16) (m : MmaSlot) : s.mmaHold f m = none ↔ s.core.mx.mmas.length < 4
    ∧ (m.bank = false → ¬s.core.latchLoading m.latch.toNat = true) ∧ s.core.cbkWait f = none := by
  rcases Nat.lt_or_ge s.core.mx.mmas.length 4 with room | full
  · by_cases free : m.bank = false → ¬s.core.latchLoading m.latch.toNat = true
    · rw [s.mmaHold_else f m room free, Option.map_eq_none_iff]
      exact ⟨fun h => ⟨room, free, h⟩, fun h => h.2.2⟩
    · obtain ⟨bank, loading⟩ := Classical.not_imp.mp free
      rw [s.mmaHold_latch f m room bank (Classical.not_not.mp loading)]
      exact ⟨nofun, fun h => absurd h.2.1 free⟩
  · rw [s.mmaHold_full f m full]
    exact ⟨nofun, fun h => absurd full (Nat.not_le.mpr h.1)⟩

/-- The bundle holds on one number of the scoreboard (R346). -/
def State.holdsScore (s : State) (n k : BitVec 2) : State :=
  { s with iss := { s.iss with
    hold := some (.scoreboard n k)
    holdSlot := s.iss.slot } }

theorem State.scoreHold_first (s : State) (n k : BitVec 2) (h : s.iss.hold = none) :
    s.scoreHold n.toNat k.toNat = s.holdsScore n k := by
  rw [State.scoreHold, s.holdOn_first _ h, BitVec.ofNat_toNat, BitVec.ofNat_toNat, BitVec.setWidth_eq, BitVec.setWidth_eq]
  rfl

section
variable {s : State} (held : s.core.held = none) (active : s.active = true) (none : s.iss.hold = none)
include held active none

theorem mZero_holds (a : BitVec 2) (busy : s.core.accBusy a.toNat = true) : mZero a s = .next (s.holdsScore a 0) :=
  mRun_active held active ((if_pos busy).trans (s.scoreHold_first a 0 none))

theorem mDrain_holds (tr : Bool) (a sh : BitVec 2) (w : BitVec 1) (t : BitVec 3) (alt z : BitVec 1) (g : BitVec 2)
    (busy : s.core.accBusy a.toNat = true) : mDrain tr a sh w t alt z g s = .next (s.holdsScore a 0) :=
  mRun_active held active ((if_pos busy).trans (s.scoreHold_first a 0 none))

theorem mLatch_holds (l sh : BitVec 2) (w : BitVec 1) (g : BitVec 2)
    (busy : (s.core.latchLoading l.toNat || s.core.latchUsed l.toNat) = true) : mLatch l sh w g s = .next (s.holdsScore l 1) :=
  mRun_active held active ((if_pos busy).trans (s.scoreHold_first l 1 none))

theorem mLatchreed_holds (l sh : BitVec 2) (w : BitVec 1)
    (busy : (s.core.latchLoading l.toNat || s.core.latchUsed l.toNat) = true) : mLatchreed l sh w s = .next (s.holdsScore l 1) :=
  mRun_active held active ((if_pos busy).trans (s.scoreHold_first l 1 none))

theorem mLdcbk_holds (n sh : BitVec 2) (w : BitVec 1) (g : BitVec 2)
    (busy : ((vget s.core.mx.cbkBusy n.toNat).isSome || s.core.cbkUsed n.toNat) = true) :
    mLdcbk n sh w g s = .next (s.holdsScore n 2) :=
  mRun_active held active ((if_pos busy).trans (s.scoreHold_first n 2 none))

theorem mMma_holds (m : MmaSlot) (n k : BitVec 2) (h : s.mmaHold s.core.fmtEntry m = some (n.toNat, k.toNat)) :
    mMma m s = .next (s.holdsScore n k) := by
  refine mRun_active held active ?_
  dsimp only
  rw [h]
  exact s.scoreHold_first n k none

end

end Sys2Proof.Machine

open Sys2Proof Sys2Proof.Machine in
/-- Settles O37: each hold of the scoreboard is the first branch of its instruction; those of an MMA are `State.mmaHold`'s branches. -/
theorem matrixHolds : Obligations.MatrixHolds := by
  refine ⟨fun s i h => ⟨exec_m_held i s h, exec_m_inactive i s h⟩, fun s held active none => ?_⟩
  refine ⟨fun a busy => ?_, fun l busy sh w => ?_, fun n busy sh w g => ?_, fun i m hm => ?_⟩
  · have busy := (s.core.accBusy_iff a).mpr busy
    exact ⟨mZero_holds held active none a busy, fun sh w t alt z g =>
      ⟨mDrain_holds held active none false a sh w t alt z g busy, mDrain_holds held active none true a sh w t alt z g busy⟩⟩
  · have busy : (s.core.latchLoading l.toNat || s.core.latchUsed l.toNat) = true := by
      rwa [Bool.or_eq_true, s.core.latchLoading_iff, s.core.latchUsed_iff]
    exact ⟨mLatchreed_holds held active none l sh w busy, fun g => mLatch_holds held active none l sh w g busy⟩
  · have busy : ((vget s.core.mx.cbkBusy n.toNat).isSome || s.core.cbkUsed n.toNat) = true := by
      rwa [Bool.or_eq_true, Option.isSome_iff_ne_none, s.core.cbkUsed_iff]
    exact mLdcbk_holds held active none n sh w g busy
  · rw [exec_of_mmaSlot i m s hm, s.mmaHold_eq_none, s.core.latchLoading_iff, s.core.cbkWait_eq_none]
    refine ⟨fun full => mMma_holds held active none m m.acc 0 (s.mmaHold_full _ m full),
      fun room bank loading => mMma_holds held active none m m.latch 1
        (s.mmaHold_latch _ m room bank ((s.core.latchLoading_iff _).mpr loading)),
      fun room free n names busy first => mMma_holds held active none m n 2 ?_, Iff.rfl⟩
    rw [s.mmaHold_else _ m room (by rwa [s.core.latchLoading_iff]), s.core.cbkWait_eq_some _ n.toNat n.isLt names busy first]
    rfl
end

section
/-! SUPPORT. What the M slot's instructions start (R280 to R292), and what a window delivers from the scratchpad (R277, R286). -/

namespace Sys2Proof.Machine

/-! ### A window's rows and its delivery (R277, R280, R286) -/

theorem Core.OnlyDelivers.winRead {c d : Core} (h : c.OnlyDelivers d) (w : Win) (r : BitVec 10) (rest : List (BitVec 10)) :
    d.winRead w r rest = c.winRead w r rest := by
  obtain ⟨_, _, _, rfl⟩ := h
  rfl

/-- The windows that a schedule cycle leaves are those that go on, with one row more read. -/
theorem Core.mem_foldl_winStep (c : Core) (v : Win) (l : List Win) : ∀ (d : Core) (ws : List Win), c.OnlyDelivers d →
    (v ∈ (l.foldl Core.winStep (d, ws)).2
      ↔ v ∈ ws ∨ ∃ w ∈ l, ∃ r rest, w.rows = r :: rest ∧ w.goesOn rest ∧ v = c.winRead w r rest) := by
  induction l with
  | nil => intro d ws _; simp
  | cons w l ih =>
    intro d ws same
    rw [List.foldl_cons]
    rcases d.winStep_cases ws w with ⟨r, rest, rows, on, e⟩ | ⟨r, rows, off, e⟩ | ⟨rows, e⟩
    · rw [e, ih d _ same, same.winRead, List.mem_append, List.mem_singleton, or_assoc, exists_mem_cons_iff]
      refine or_congr_right (or_congr_left ⟨fun h => ⟨r, rest, rows, on, h⟩, ?_⟩)
      rintro ⟨r', rest', rows', -, rfl⟩
      obtain ⟨rfl, rfl⟩ := List.cons.inj (rows.symm.trans rows')
      rfl
    · rw [e, ih _ ws (same.trans (d.deliver_onlyDelivers _)), exists_mem_cons_iff]
      refine or_congr_right ⟨.inr, fun h => h.resolve_left ?_⟩
      rintro ⟨r', rest', rows', on, -⟩
      obtain ⟨rfl, rfl⟩ := List.cons.inj (rows.symm.trans rows')
      exact off on
    · rw [e, ih _ ws (same.trans (d.deliver_onlyDelivers _)), exists_mem_cons_iff]
      refine or_congr_right ⟨.inr, fun h => h.resolve_left ?_⟩
      rintro ⟨r', rest', rows', -⟩
      exact absurd (rows.symm.trans rows') (List.cons_ne_nil _ _).symm

theorem Core.mem_winTick (c : Core) (v : Win) : v ∈ c.winTick.pipes.wins
    ↔ ∃ w ∈ c.pipes.wins, ∃ r rest, w.rows = r :: rest ∧ w.goesOn rest ∧ v = c.winRead w r rest := by
  refine (c.mem_foldl_winStep v c.pipes.wins c [] (.refl c)).trans ?_
  simp

/-- What the one window of a destination delivers stands at the end of the cycle: no other window's delivery takes it away. -/
theorem Core.winTick_delivers (c : Core) (w x : Win) (P : Core → Prop) (hw : w ∈ c.pipes.wins)
    (only : ∀ v ∈ c.pipes.wins, v.dest = w.dest → v = w)
    (step : ∀ d ws, c.OnlyDelivers d → Core.winStep (d, ws) w = (d.deliver x, ws))
    (own : ∀ d : Core, P (d.deliver x)) (other : ∀ (d : Core) (v : Win), v.dest ≠ w.dest → P d → P (d.deliver v)) :
    P (c.pipes.wins.foldl Core.winStep (c, [])).1 := by
  suffices ∀ (l : List Win) (d : Core) (ws : List Win), c.OnlyDelivers d → (∀ v ∈ l, v.dest = w.dest → v = w) → (w ∈ l ∨ P d) →
      P (l.foldl Core.winStep (d, ws)).1 from this _ c [] (.refl c) only (.inl hw)
  intro l
  induction l with
  | nil => exact fun d ws _ _ h => h.resolve_left List.not_mem_nil
  | cons v l ih =>
    intro d ws same only h
    rw [List.foldl_cons]
    have only' := fun u hu => only u (List.mem_cons_of_mem v hu)
    by_cases mine : v = w
    · rw [mine, step d ws same]
      exact ih _ ws (same.trans (d.deliver_onlyDelivers x)) only' (.inr (own d))
    · have elsewhere : v.dest ≠ w.dest := fun e => mine (only v List.mem_cons_self e)
      have left : w ∈ l ∨ P d := h.imp_left fun h => (List.mem_cons.mp h).resolve_left (Ne.symm mine)
      have kept (u : Win) (hu : u.dest ≠ w.dest) : w ∈ l ∨ P (d.deliver u) := left.imp_right (other d u hu)
      rcases d.winStep_cases ws v with ⟨r, rest, -, -, e⟩ | ⟨r, -, -, e⟩ | ⟨-, e⟩
      · rw [e]
        exact ih d _ same only' left
      · rw [e]
        exact ih _ ws (same.trans (d.deliver_onlyDelivers _)) only' (kept _ elsewhere)
      · rw [e]
        exact ih _ ws (same.trans (d.deliver_onlyDelivers _)) only' (kept v elsewhere)

theorem mem_map_ite {α : Type} {p : α → Prop} [DecidablePred p] {f : α → α} {l : List α} {y : α}
    (h : y ∈ l.map fun x => if p x then f x else x) : ∃ x ∈ l, (p x ∧ y = f x) ∨ (¬p x ∧ y = x) := by
  obtain ⟨x, hx, rfl⟩ := List.mem_map.mp h
  by_cases e : p x
  · exact ⟨x, hx, .inl ⟨e, if_pos e⟩⟩
  · exact ⟨x, hx, .inr ⟨e, if_neg e⟩⟩

/-- The captured operands of the MMAs of a number. -/
theorem Core.deliver_mmaA (d : Core) (w : Win) (id : Nat) (h : w.dest = .mmaA id) :
    ∀ m ∈ (d.deliver w).mx.mmas, m.id = id → m.rowsA = some w.got := by
  obtain ⟨dest, group, rows, got, shape, btype⟩ := w
  obtain rfl : dest = .mmaA id := h
  intro m hm hid
  obtain ⟨x, -, ⟨-, rfl⟩ | ⟨ne, rfl⟩⟩ := mem_map_ite hm
  · rfl
  · exact absurd hid ne

theorem Core.deliver_mmaB (d : Core) (w : Win) (id : Nat) (h : w.dest = .mmaB id) :
    ∀ m ∈ (d.deliver w).mx.mmas, m.id = id → m.rowsB = some w.got := by
  obtain ⟨dest, group, rows, got, shape, btype⟩ := w
  obtain rfl : dest = .mmaB id := h
  intro m hm hid
  obtain ⟨x, -, ⟨-, rfl⟩ | ⟨ne, rfl⟩⟩ := mem_map_ite hm
  · rfl
  · exact absurd hid ne

/-- A delivery to another place leaves an MMA's captured operand. -/
theorem Core.deliver_rowsA (d : Core) (w : Win) (id : Nat) (got : List (BitVec 10 × Vec)) (h : w.dest ≠ .mmaA id)
    (before : ∀ m ∈ d.mx.mmas, m.id = id → m.rowsA = some got) : ∀ m ∈ (d.deliver w).mx.mmas, m.id = id → m.rowsA = some got := by
  obtain ⟨dest, group, rows, got', shape, btype⟩ := w
  cases dest with
  | latch l => exact before
  | mmaA k =>
    intro m hm hid
    obtain ⟨x, hx, ⟨e, rfl⟩ | ⟨-, rfl⟩⟩ := mem_map_ite hm
    · exact absurd (congrArg WinDest.mmaA (e.symm.trans hid)) h
    · exact before _ hx hid
  | mmaB k =>
    intro m hm hid
    obtain ⟨x, hx, ⟨-, rfl⟩ | ⟨-, rfl⟩⟩ := mem_map_ite hm
    · exact before x hx hid
    · exact before _ hx hid

theorem Core.deliver_rowsB (d : Core) (w : Win) (id : Nat) (got : List (BitVec 10 × Vec)) (h : w.dest ≠ .mmaB id)
    (before : ∀ m ∈ d.mx.mmas, m.id = id → m.rowsB = some got) : ∀ m ∈ (d.deliver w).mx.mmas, m.id = id → m.rowsB = some got := by
  obtain ⟨dest, group, rows, got', shape, btype⟩ := w
  cases dest with
  | latch l => exact before
  | mmaB k =>
    intro m hm hid
    obtain ⟨x, hx, ⟨e, rfl⟩ | ⟨-, rfl⟩⟩ := mem_map_ite hm
    · exact absurd (congrArg WinDest.mmaB (e.symm.trans hid)) h
    · exact before _ hx hid
  | mmaA k =>
    intro m hm hid
    obtain ⟨x, hx, ⟨-, rfl⟩ | ⟨-, rfl⟩⟩ := mem_map_ite hm
    · exact before x hx hid
    · exact before _ hx hid

/-- The latch holds an image, and no error (log entry 111). -/
def Core.latchHolds (c : Core) (l : BitVec 2) (img : TileBits) : Prop := vget c.mx.lt l.toNat = img ∧ (3, 4 + l.toNat) ∉ c.errs

theorem not_mem_errsWithout (x : Nat × Nat) (l : List (Nat × Nat)) : x ∉ errsWithout x l := by
  simp [errsWithout]

theorem mem_of_mem_errsWithout {x y : Nat × Nat} {l : List (Nat × Nat)} (h : y ∈ errsWithout x l) : y ∈ l := by
  unfold errsWithout at h
  split at h
  · exact absurd h List.not_mem_nil
  · exact (List.mem_filter.mp h).1

theorem Core.deliver_latch (d : Core) (w : Win) (l : BitVec 2) (h : w.dest = .latch l) :
    let t := bShape w.btype.toNat
    (d.deliver w).latchHolds l (tileImage t (tileOf w.got (shAt w.shape 17 0) (shAt w.shape 49 32) t)) := by
  obtain ⟨dest, group, rows, got, shape, btype⟩ := w
  obtain rfl : dest = .latch l := h
  exact ⟨vget_vset_self _ _ _ l.isLt, not_mem_errsWithout _ _⟩

theorem Core.deliver_latchHolds (d : Core) (w : Win) (l : BitVec 2) (img : TileBits) (h : w.dest ≠ .latch l)
    (before : d.latchHolds l img) : (d.deliver w).latchHolds l img := by
  obtain ⟨dest, group, rows, got, shape, btype⟩ := w
  cases dest with
  | mmaA k => exact before
  | mmaB k => exact before
  | latch k =>
    have ne : k.toNat ≠ l.toNat := fun e => h (congrArg WinDest.latch (BitVec.eq_of_toNat_eq e))
    refine ⟨(vget_vset_ne _ _ _ _ ne).trans before.1, fun e => before.2 (mem_of_mem_errsWithout e)⟩

/-! ### What an instruction starts -/

theorem mMma_starts (m : MmaSlot) (s : State) (may : s.mmaMay m = true) : mMma m s = .next (s.startMma s.core.fmtEntry m) := by
  unfold State.mmaMay at may
  simp only [Bool.and_eq_true, Option.isNone_iff_eq_none] at may
  obtain ⟨⟨⟨⟨⟨⟨⟨⟨⟨held, active⟩, free⟩, fits⟩, acc⟩, latch⟩, -⟩, -⟩, -⟩, -⟩ := may
  obtain ⟨tyA, tyB⟩ := (Bool.and_eq_true ..).mp fits
  refine mRun_active held active ?_
  dsimp only
  rw [free]
  dsimp only
  rw [if_neg (not_or.mpr ⟨not_not_intro (of_decide_eq_true tyA), not_not_intro (of_decide_eq_true tyB)⟩), s.coreRead_of_intact _ _ acc]
  cases bank : m.bank with
  | true => rfl
  | false =>
    rw [bank] at latch
    rw [s.coreRead_of_intact _ _ latch]
    rfl

/-- An MMA's windows and checks where nothing stops it: the A window's cycles are claimed, and B's where it is a bank group. -/
theorem State.startMma_may (s : State) (m : MmaSlot) (may : s.mmaMay m = true) :
    s.startMma s.core.fmtEntry m
      = let f := s.core.fmtEntry
        let sh := s.mx m.shape
        let s1 := s.withWindow m.groupA.toNat 0 (s.mmaRowsA m)
        let winA : Win := ⟨.mmaA s.core.pipes.nextId, m.groupA, s.mmaRowsA m, [], sh, 0⟩
        if m.bank then
          let k := s1.checkB f m sh (tileSectors m.groupB.toNat (shAt sh 81 64) (shAt sh 113 96) (bShape (fmtB f)))
          ((((k.2.claimWindow m.groupB.toNat 0 (s.mmaRowsB m k.1.1) k.1.2).queueMma f m sh k.1.1).startWin winA).startWin
            ⟨.mmaB s.core.pipes.nextId, m.groupB, s.mmaRowsB m k.1.1, [], sh, 0⟩).swapMx m.shape m.swap
        else ((s1.queueMma f m sh 6).startWin winA).swapMx m.shape m.swap := by
  unfold State.mmaMay at may
  simp only [Bool.and_eq_true] at may
  obtain ⟨⟨⟨⟨-, alignA⟩, alignB⟩, free⟩, plain⟩ := may
  have aligned (x : Nat × Nat × Nat) (hx : x ∈ (shAt (s.mx m.shape) 17 0, shAt (s.mx m.shape) 49 32, (aShape m.ty).width)
      :: if m.bank then [(shAt (s.mx m.shape) 81 64, shAt (s.mx m.shape) 113 96, (bShape (fmtB s.core.fmtEntry)).width)] else []) :
      tileAligned x.1 x.2.1 x.2.2 = true := by
    rcases List.mem_cons.mp hx with rfl | hx
    · exact alignA
    · obtain ⟨bank, hx⟩ := (List.mem_ite_nil_right ..).mp hx
      rw [bank] at alignB
      rw [List.mem_singleton.mp hx]
      exact alignB
  unfold State.startMma
  dsimp only
  rw [s.alignTiles_of_aligned _ aligned, s.claimWindow_of_free _ _ _ _ free,
    (s.withWindow _ _ _).plainSectors_of_plain _ plain]
  rfl

end Sys2Proof.Machine

open Sys2Proof Sys2Proof.Machine in
/-- Settles O33: the MMA starts by `mMma_starts` and `State.startMma_may`; its windows' rows by `Core.mem_winTick`, and the operand
captured with the last by `Core.winTick_delivers`. -/
theorem mmaIssues : Obligations.MmaIssues := by
  refine ⟨⟨fun s i m hm bank may => ?_, ?_⟩, fun c w r rest hw rows => ⟨fun more => ?_, fun id last only => ?_⟩⟩
  · rw [exec_of_mmaSlot i m s hm, mMma_starts m s may, s.startMma_may m may, bank]
    rfl
  · intro s i m form secs hm bank may sh s1 served free
    rw [exec_of_mmaSlot i m s hm, mMma_starts m s may, s.startMma_may m may, bank]
    dsimp only
    rw [if_pos rfl, (s.withWindow _ _ _).checkB_of_servedB _ m _ _ _ served, s1.claimWindow_of_free _ _ _ _ free]
  · exact (c.mem_winTick _).mpr ⟨w, hw, r, rest, rows, .inl more, rfl⟩
  · subst last
    have off (h : w.dest = .mmaA id ∨ w.dest = .mmaB id) : ¬w.goesOn [] := by
      rintro (h' | ⟨l, h'⟩)
      · exact h' rfl
      · rcases h with h | h <;> exact absurd (h.symm.trans h') (by simp)
    have step (h : w.dest = .mmaA id ∨ w.dest = .mmaB id) (d : Core) (ws : List Win) (same : c.OnlyDelivers d) :
        Core.winStep (d, ws) w = (d.deliver (c.winRead w r []), ws) := by
      rw [d.winStep_last ws w r rows (off h), same.winRead]
    refine ⟨fun dest => ?_, fun dest => ?_⟩
    · exact c.winTick_delivers w (c.winRead w r []) (fun d => ∀ m ∈ d.mx.mmas, m.id = id → m.rowsA = some (c.winRead w r []).got) hw only
        (step (.inl dest)) (fun d => d.deliver_mmaA _ id dest) fun d v hv => d.deliver_rowsA v id _ (dest ▸ hv)
    · exact c.winTick_delivers w (c.winRead w r []) (fun d => ∀ m ∈ d.mx.mmas, m.id = id → m.rowsB = some (c.winRead w r []).got) hw only
        (step (.inr dest)) (fun d => d.deliver_mmaB _ id dest) fun d v hv => d.deliver_rowsB v id _ (dest ▸ hv)
end

section
/-! SUPPORT. LATCH, LATCHREED, the drains and the tables (R286 to R292), where nothing stops them. -/

namespace Sys2Proof.Machine

theorem widthClass_isSome (ty : Nat) (h : ty ≤ 4) : (widthClass ty).isNone = false := by
  unfold widthClass
  split
  · rfl
  · split
    · rfl
    · rw [if_pos (by omega)]
      rfl

/-- A tile of one base and stride. -/
theorem State.alignTiles_one (s : State) (base stride len : Nat) (h : tileAligned base stride len = true) :
    s.alignTiles [(base, stride, len)] = s :=
  s.alignTiles_of_aligned _ fun x hx => by rw [List.mem_singleton.mp hx]; exact h

theorem State.storePoison_of_clean (s : State) (a n : Nat) (h : s.storeClean a n = true) : s.storePoison a n = s := by
  unfold State.storePoison
  rw [List.find?_eq_none.mpr fun p hp => ?_]
  have clean := List.all_eq_true.mp h p hp
  cases hf : s.core.sp.isFifo p.1 <;> cases hs : setHas (p.1 / 128) s.core.sp.poison <;> simp_all

/-- Stores that meet no poison, put in flight one after the other. -/
theorem State.foldl_drain (l : List DrainWrite) : ∀ (s : State), (l.all fun y => s.storeClean y.addr y.bytes.length) = true →
    l.foldl (fun s y => (s.storePoison y.addr y.bytes.length).result (3 + y.row) (.spWrite y.addr y.bytes)) s
      = { s with iss := { s.iss with
          newInfl := s.iss.newInfl ++ l.map fun y => ⟨3 + y.row, s.iss.slot, s.core.pipes.bundleNo, .spWrite y.addr y.bytes⟩ } } := by
  induction l with
  | nil =>
    intro s _
    rw [List.map_nil, List.append_nil]
    rfl
  | cons y l ih =>
    intro s clean
    obtain ⟨here, later⟩ := (Bool.and_eq_true ..).mp clean
    rw [List.foldl_cons, s.storePoison_of_clean _ _ here, ih (s.result _ _) later, List.map_cons, List.append_cons]
    rfl

/-- What a drain does where nothing stops it: its elements written, counted and zeroed. -/
theorem mDrain_drains (s : State) (tr : Bool) (a sh : BitVec 2) (w : BitVec 1) (t : BitVec 3) (alt zac : BitVec 1) (g : BitVec 2)
    (held : s.core.held = none) (active : s.active = true) (free : s.core.accBusy a.toNat = false) (whole : s.intact 3 a.toNat = true) :
    let x := s.mx sh
    let ts : TileShape := ⟨32, 4 * (drainFmt t.toNat).w⟩
    let acc := accList (vget s.core.mx.acc a.toNat)
    let el (i j : Nat) : Nat × Bool :=
      drainEl t.toNat (decide (alt = 1)) (acc.getD (if tr then 32 * j + i else 32 * i + j) 0)
    let row (i : Nat) : List Byte := natToBytes ts.width ((List.range 32).foldr
      (fun j b => b * 2 ^ (drainFmt t.toNat).w + (el i j).1 % 2 ^ (drainFmt t.toNat).w) 0)
    let writes := drainWrites g.toNat (shAt x 145 128) (shAt x 177 160) ts ((List.range 32).map row)
    tileAligned (shAt x 145 128) (shAt x 177 160) ts.width = true →
    s.windowFree g.toNat 2 (groupRows (shAt x 145 128) (shAt x 177 160) ts)
      (tileSectors g.toNat (shAt x 145 128) (shAt x 177 160) ts) = true →
    (writes.all fun y => s.storeClean y.addr y.bytes.length) = true →
    mDrain tr a sh w t alt zac g s
      = .next (({ s with
        iss := { s.iss with
          uses := s.iss.uses ++ windowUses g.toNat 2 (groupRows (shAt x 145 128) (shAt x 177 160) ts)
          newInfl := s.iss.newInfl ++ writes.map fun y => ⟨3 + y.row, s.iss.slot, s.core.pipes.bundleNo, .spWrite y.addr y.bytes⟩
          satd := s.iss.satd + ((List.range 32).map fun i => (List.range 32).countP fun j => (el i j).2).sum }
        core := { s.core with mx := { s.core.mx with
          chain := vset s.core.mx.chain a.toNat none
          acc := if zac = 1 then vset s.core.mx.acc a.toNat 0 else s.core.mx.acc } } } : State).swapMx sh w) := by
  intro x ts acc el row writes aligned window clean
  refine mRun_active held active ?_
  dsimp only
  rw [if_neg (Bool.eq_false_iff.mp free), s.coreRead_of_intact 3 _ whole, s.alignTiles_one _ _ _ aligned,
    s.claimWindow_of_free _ _ _ _ window]
  have counted : (List.map (fun i => List.map (el i) (List.range 32)) (List.range 32)).flatten.countP (fun e : Nat × Bool => e.2)
      = ((List.range 32).map fun i => (List.range 32).countP fun j => (el i j).2).sum := by
    rw [List.countP_flatten, List.map_map]
    exact congrArg List.sum (List.map_congr_left fun i _ => List.countP_map ..)
  have rows : (List.map (fun i => List.map (el i) (List.range 32)) (List.range 32)).map (fun r => natToBytes (4 * (drainFmt t.toNat).w)
        (r.foldr (fun e b => b * 2 ^ (drainFmt t.toNat).w + e.1 % 2 ^ (drainFmt t.toNat).w) 0)) = (List.range 32).map row := by
    rw [List.map_map]
    exact List.map_congr_left fun i _ => congrArg (natToBytes _) (List.foldr_map ..)
  rw [rows, counted, State.foldl_drain _ (s.withWindow _ _ _) clean]
  simp only [decide_eq_true_eq]
  rfl

/-- 32 bytes of a group, read where nothing stops it: only the port's cycle is claimed. -/
theorem State.read32_plain (s : State) (x : Shape) (g : BitVec 2) (aligned : shAt x 17 0 % 32 = 0)
    (window : s.windowFree g.toNat 0 [BitVec.ofNat 10 (shAt x 17 0 / 256)] [(g.toNat * 2 ^ 18 + shAt x 17 0) / 128] = true)
    (plain : s.plainSecs [(g.toNat * 2 ^ 18 + shAt x 17 0) / 128] = true) :
    s.read32 x g = (BitVec.ofNat 256 (bytesToNat (s.core.sp.mem.readBytes (g.toNat * 2 ^ 18 + shAt x 17 0) 32)),
      s.withWindow g.toNat 0 [BitVec.ofNat 10 (shAt x 17 0 / 256)]) := by
  unfold State.read32
  dsimp only
  rw [if_neg (not_not_intro aligned), s.claimWindow_of_free _ _ _ _ window, (s.withWindow _ _ _).plainSectors_of_plain _ plain]
  rfl

end Sys2Proof.Machine

open Sys2Proof Sys2Proof.Machine in
/-- Settles O34: what starts where nothing stops it, and the window's delivery by `Core.winTick_delivers`. -/
theorem latchLoads : Obligations.LatchLoads := by
  refine ⟨?_, fun c w l hw dest => ⟨fun r rest rows => ?_, fun rows only => ?_, ?_⟩⟩
  · intro s l sh w f x t held active loading used ty
    have free : (s.core.latchLoading l.toNat || s.core.latchUsed l.toNat) = false := by rw [loading, used]; rfl
    refine ⟨?_, fun aligned => ?_⟩
    · intro g rows secs aligned window plain
      change mLatch l sh w g s = _
      refine mRun_active held active ?_
      dsimp only
      rw [free, widthClass_isSome _ ty, s.alignTiles_one _ _ _ aligned, s.claimWindow_of_free _ _ _ _ window,
        (s.withWindow _ _ _).plainSectors_of_plain _ plain]
      rfl
    · change mLatchreed l sh w s = _
      refine mRun_active held active ?_
      dsimp only
      rw [free, widthClass_isSome _ ty, s.alignTiles_one _ _ _ aligned]
      rfl
  · exact (c.mem_winTick _).mpr ⟨w, hw, r, rest, rows, .inr ⟨l, dest⟩, rfl⟩
  · intro t
    obtain ⟨image, clear⟩ := c.winTick_delivers w w
      (fun d => d.latchHolds l (tileImage t (tileOf w.got (shAt w.shape 17 0) (shAt w.shape 49 32) t))) hw
      (fun v hv e => only v hv (e.trans dest)) (fun d ws _ => d.winStep_end ws w rows) (fun d => d.deliver_latch w l dest)
      fun d v hv => d.deliver_latchHolds v l _ (dest ▸ hv)
    refine ⟨image, fun v hv e => ?_, clear⟩
    obtain ⟨u, hu, r, rest, rows', -, rfl⟩ := (c.mem_winTick v).mp hv
    rw [only u hu e, rows] at rows'
    cases rows'
  · obtain ⟨mmas, lt, errs, wins, h⟩ := c.winTick_frame
    rw [h]
    exact ⟨rfl, rfl, rfl, rfl⟩

open Sys2Proof Sys2Proof.Machine in
/-- Settles O35: DRAINT is DRAIN with the accumulator transposed (`mDrain_drains`). -/
theorem drains : Obligations.Drains := by
  intro s tr a sh w t alt zac g x ts acc el row writes held active free whole aligned window clean
  have h := mDrain_drains s tr a sh w t alt zac g held active free whole aligned window clean
  cases tr with
  | true => exact h
  | false => exact h

open Sys2Proof Sys2Proof.Machine in
/-- Settles O36: ZERO's branch, and the 32 bytes read by `State.read32_plain`. -/
theorem matrixTables : Obligations.MatrixTables := by
  intro s held active
  refine ⟨fun a free => ?_, ?_⟩
  · change mZero a s = _
    exact mRun_active held active (if_neg (Bool.eq_false_iff.mp free))
  · intro sh g w o at_ rows v aligned window plain
    have read := s.read32_plain (s.mx sh) g aligned window plain
    refine ⟨fun l idle unused => ?_, Vector.ofFn fun n : Fin 16 => v.extractLsb' (16 * n.val) 16 &&& 0xFFE0, ?_, fun n hn => ?_⟩
    · change mLdcbk l sh w g s = _
      refine mRun_active held active ?_
      dsimp only
      rw [idle, unused, read]
      rfl
    · change mLdfmt sh w g s = _
      refine mRun_active held active ?_
      dsimp only
      rw [read]
      rfl
    · simp [vget, hn]
end

section
/-! SUPPORT. Fields of the shape registers and of the address generators (R63, R218, R219). -/

namespace Sys2Proof.Machine

/-! ### A field of a shape register -/

theorem getLsbD_setBits {w : Nat} (x : BitVec w) (hi lo v i : Nat) (h : lo ≤ hi + 1) : (setBits x hi lo v).getLsbD i
    = if lo ≤ i ∧ i ≤ hi then decide (i < w) && v.testBit (i - lo) else x.getLsbD i := by
  have field : (i < w → (BitVec.ofNat w ((2 ^ (hi + 1 - lo) - 1) <<< lo)).getLsbD i = decide (lo ≤ i ∧ i ≤ hi)) := fun hw => by
    rw [BitVec.getLsbD_ofNat, Nat.testBit_shiftLeft, Nat.testBit_two_pow_sub_one, decide_eq_true hw, Bool.true_and, Bool.eq_iff_iff,
      Bool.and_eq_true, decide_eq_true_eq, decide_eq_true_eq, decide_eq_true_eq]
    omega
  unfold setBits
  by_cases hw : i < w
  · simp only [BitVec.getLsbD_or, BitVec.getLsbD_and, BitVec.getLsbD_not, field hw, BitVec.getLsbD_ofNat, Nat.testBit_shiftLeft, hw,
      decide_true, Bool.true_and]
    by_cases inside : lo ≤ i ∧ i ≤ hi
    · simp [inside]
    · simp [inside]
  · simp [hw, BitVec.getLsbD_of_ge _ i (Nat.le_of_not_lt hw)]

theorem extract_setBits_same (x : Shape) (f : Nat) (v : BitVec 32) (hf : f < 16) :
    (setBits x (32 * f + 31) (32 * f) v.toNat).extractLsb' (32 * f) 32 = v := by
  refine BitVec.eq_of_getLsbD_eq fun i hi => ?_
  rw [BitVec.getLsbD_extractLsb', getLsbD_setBits _ _ _ _ _ (by omega), if_pos (by omega), Nat.add_sub_cancel_left,
    decide_eq_true hi, decide_eq_true (by omega), Bool.true_and, Bool.true_and]
  rfl

theorem extract_setBits_other (x : Shape) (f g : Nat) (v : BitVec 32) (ne : g ≠ f) :
    (setBits x (32 * f + 31) (32 * f) v.toNat).extractLsb' (32 * g) 32 = x.extractLsb' (32 * g) 32 := by
  refine BitVec.eq_of_getLsbD_eq fun i hi => ?_
  rw [BitVec.getLsbD_extractLsb', BitVec.getLsbD_extractLsb', getLsbD_setBits _ _ _ _ _ (by omega), if_neg (by omega)]

/-- The shape registers after a write of a field: the shadow copy of one. -/
theorem Core.shapeReg_shw (c : Core) (r f q : Nat) (v : BitVec 32) (hr : r < 12) (hq : q < 12) : (c.shw r f v).shapeReg q
    = if q = r then { c.shapeReg r with shadow := setBits (c.shapeReg r).shadow (32 * f + 31) (32 * f) v.toNat } else c.shapeReg q := by
  have entry {α : Type} [Inhabited α] (w : Vector α 4) (i j : Nat) (x : α) (hi : i < 4) :
      vget (vset w i x) j = if j = i then x else vget w j := by
    by_cases e : j = i
    · rw [if_pos e, e, vget_vset_self _ _ _ hi]
    · rw [if_neg e, vget_vset_ne _ _ _ _ (Ne.symm e)]
  unfold Core.shw Core.shapeReg
  dsimp only
  by_cases r4 : r < 4
  · simp only [if_pos r4, entry _ _ _ _ r4]
    by_cases e : q = r
    · rw [if_pos (by omega), if_pos e, if_pos e]
    · simp only [if_neg e]
  · by_cases r8 : r < 8
    · simp only [if_neg r4, if_pos r8, entry _ _ _ _ (show r - 4 < 4 by omega)]
      by_cases e : q = r
      · rw [if_neg (by omega), if_pos (by omega), if_pos (by omega), if_pos e]
      · by_cases q4 : q < 4
        · simp only [if_pos q4, if_neg e]
        · simp only [if_neg q4, if_neg e, if_neg (show ¬q - 4 = r - 4 by omega)]
    · simp only [if_neg r4, if_neg r8, entry _ _ _ _ (show r - 8 < 4 by omega)]
      by_cases e : q = r
      · rw [if_neg (by omega), if_neg (by omega), if_pos (by omega), if_pos e]
      · by_cases q8 : q < 8
        · simp only [if_pos q8, if_neg e]
        · simp only [if_neg q8, if_neg e, if_neg (show ¬q - 8 = r - 8 by omega)]

theorem Core.shw_frame (c : Core) (r f : Nat) (v : BitVec 32) : (c.shw r f v).regs = c.regs ∧ (c.shw r f v).vs = c.vs
    ∧ (c.shw r f v).sp = c.sp ∧ (c.shw r f v).mx = c.mx ∧ (c.shw r f v).pipes = c.pipes := by
  unfold Core.shw
  dsimp only
  split
  · exact ⟨rfl, rfl, rfl, rfl, rfl⟩
  · split <;> exact ⟨rfl, rfl, rfl, rfl, rfl⟩

/-! ### A field of an address generator -/

/-- What a field written says of a parameter set, in R199's order of fields. -/
theorem AgParams.setField_eq (p : AgParams) (l f : Nat) (v : Word) (hf : f < 5) : p.setField l f v
    = if f = 0 then { p with base := v.setWidth 20 } else if f = 1 then { p with levels := v.setWidth 3 }
      else { p with lv := vset p.lv l (if f = 2 then { vget p.lv l with count := v.setWidth 16 }
        else if f = 3 then { vget p.lv l with stride := v.setWidth 20 } else { vget p.lv l with pos := v.setWidth 16 }) } := by
  obtain rfl | rfl | rfl | rfl | rfl : f = 0 ∨ f = 1 ∨ f = 2 ∨ f = 3 ∨ f = 4 := by omega
  all_goals rfl

/-- A write of LEVELS that names a walk. -/
theorem agWalks_iff (v : Word) : agWalks (v.setWidth 3 : BitVec 3).toNat = true ↔ 1 ≤ v.toNat % 8 ∧ v.toNat % 8 ≤ 6 := by
  simp [agWalks]

theorem AgParams.live_eq_nil (p : AgParams) : p.live = [] ↔ ∀ k, k < p.levels.toNat → (vget p.lv k).count = 0 := by
  simp [AgParams.live, List.filter_eq_nil_iff]

theorem AgParams.vget_rewind (p : AgParams) (k : Nat) (hk : k < 6) : vget p.rewind.lv k = { vget p.lv k with pos := 0 } := by
  simp [AgParams.rewind, vget, hk]

/-- A walking generator: the pending set is written, and armed by a LEVELS that names a walk. -/
theorem Ag.write_walking (a : Ag) (l f : Nat) (v : Word) (h : a.walking = true) : a.write l f v = { a with
    pend := a.pend.setField l f v
    armed := a.armed || decide (f = 1 ∧ 1 ≤ v.toNat % 8 ∧ v.toNat % 8 ≤ 6) } := by
  have arms : (decide (f = 1) && agWalks (v.setWidth 3 : BitVec 3).toNat) = decide (f = 1 ∧ 1 ≤ v.toNat % 8 ∧ v.toNat % 8 ≤ 6) := by
    rw [Bool.eq_iff_iff, Bool.and_eq_true, agWalks_iff, decide_eq_true_eq, decide_eq_true_eq]
  unfold Ag.write
  rw [h, arms]
  rfl

/-- An idle generator: the current set is written. -/
theorem Ag.write_idle (a : Ag) (l f : Nat) (v : Word) (h : a.walking = false) (stays : ¬(f = 1 ∧ 1 ≤ v.toNat % 8 ∧ v.toNat % 8 ≤ 6)) :
    a.write l f v = { a with cur := a.cur.setField l f v } := by
  have arms : (decide (f = 1) && agWalks (v.setWidth 3 : BitVec 3).toNat) = false := by
    rw [Bool.eq_false_iff, ne_eq, Bool.and_eq_true, agWalks_iff, decide_eq_true_eq]
    exact stays
  unfold Ag.write
  rw [h, arms]
  rfl

/-- LEVELS from 1 to 6 written to an idle generator starts its walk. -/
theorem Ag.write_starts (a : Ag) (l : Nat) (v : Word) (h : a.walking = false) (low : 1 ≤ v.toNat % 8) (high : v.toNat % 8 ≤ 6) :
    a.write l 1 v = Ag.start { a with cur := { a.cur with levels := v.setWidth 3 } } := by
  have arms : (decide (1 = 1) && agWalks (v.setWidth 3 : BitVec 3).toNat) = true := by
    rw [(agWalks_iff v).mpr ⟨low, high⟩]
    rfl
  unfold Ag.write
  rw [h, arms]
  rfl

end Sys2Proof.Machine

open Sys2Proof Sys2Proof.Machine in
/-- Settles O18: a shape register's field by `Core.shapeReg_shw`, a generator's by the cases of `Ag.write`. -/
theorem fieldWrites : Obligations.FieldWrites := by
  refine ⟨fun s p => ⟨fun r a f h => ?_, fun g l a f h => ?_, fun r a f h hr => ?_, fun g l a f h => ?_⟩, ?_, ?_⟩
  · have mine : (s.core.newt && decide (r < 4)) = false := by
      rw [Bool.eq_false_iff, ne_eq, Bool.and_eq_true, decide_eq_true_eq]
      exact fun e => absurd (h e.1) (BitVec.not_le.mpr e.2)
    change (_ → execShw r a f p s = _) ∧ (_ → execShw r a f p s = _)
    unfold execShw
    rw [mine]
    exact ⟨fun on => by rw [on]; rfl, fun off => by rw [off]; rfl⟩
  · change (_ → execAgw g l a f p s = _) ∧ (_ → execAgw g l a f p s = _)
    unfold execAgw
    rw [h]
    exact ⟨fun on => by rw [on]; rfl, fun off => by rw [off]; rfl⟩
  · change execShw r a f p s = _
    unfold execShw
    rw [h, decide_eq_true hr]
    rfl
  · change execAgw g l a f p s = _
    unfold execAgw
    rw [h]
    rfl
  · intro s r f v hr hf c
    have reg (q : Nat) (hq : q < 12) := s.core.shapeReg_shw r f q v hr hq
    obtain ⟨regs, vs, sp, mx, pipes⟩ := s.core.shw_frame r f v
    refine ⟨fun q hq => ?_, fun q hq ne => ?_, ?_, fun g hg ne => ?_, regs, vs, sp, mx, pipes⟩
    · rw [show c.shapeReg q = _ from reg q hq]
      split
      · next e => rw [e]
      · rfl
    · rw [show c.shapeReg q = _ from reg q hq, if_neg ne]
    · rw [show c.shapeReg r = _ from reg r hr, if_pos rfl]
      exact extract_setBits_same _ f v hf
    · rw [show c.shapeReg r = _ from reg r hr, if_pos rfl]
      exact extract_setBits_other _ f g v ne
  · intro s g l f v hl hf a c x n y put
    have written : x = a.write l f v := vget_vset_self _ _ _ g.isLt
    have field (p : AgParams) : p.setField l f v = put p := p.setField_eq l f v hf
    refine ⟨fun walks => ?_, fun idle stays => ?_, fun idle f1 low high => ?_, fun h hh ne => vget_vset_ne _ _ _ _ (Ne.symm ne),
      rfl, rfl, rfl, rfl, rfl⟩
    · rw [written, a.write_walking l f v walks, field]
    · rw [written, a.write_idle l f v idle stays, field]
    · subst f1
      have live := AgParams.live_eq_nil { a.cur with levels := v.setWidth 3 }
      rw [show (v.setWidth 3 : BitVec 3).toNat = n from BitVec.toNat_setWidth .., show ({ a.cur with levels := v.setWidth 3 } : AgParams).lv = a.cur.lv from rfl] at live
      rw [written, a.write_starts l v idle low high]
      unfold Ag.start
      refine ⟨fun ⟨k, hk, counts⟩ => ?_, fun none => ?_⟩
      · rw [if_neg (by rw [List.isEmpty_iff, live]; exact fun h => counts (h k hk))]
        rfl
      · rw [if_pos (by rw [List.isEmpty_iff, live]; exact none)]
        exact ⟨rfl, rfl, fun k hk => AgParams.vget_rewind _ k hk⟩
end

section
/-! SUPPORT. Element-wise V instructions (R246 to R249): what each shared form of the model does where its operands are read without a
fault. -/

namespace Sys2Proof.Machine

/-- An instruction that pushes the elements of a run completes; its element function need agree with the run's modulo 2^w. -/
theorem VRun.completes_of (r : VRun) (i : Instr) (s : State) (f : Nat → BitVec 32 → Nat × BitVec 7)
    (hw : r.w = 8 ∨ r.w = 16 ∨ r.w = 32) (opened : r.portOpen = true)
    (same : ∀ j draw, j < r.k * r.per → (f j draw).1 % 2 ^ r.w = (r.f j draw).1 % 2 ^ r.w ∧ (f j draw).2 = (r.f j draw).2)
    (run : exec i s = .next ((r.st.elements r.w r.k r.en r.old r.sr f).2.vPush r.lat r.d
      (r.st.elements r.w r.k r.en r.old r.sr f).1)) : r.completes i s := by
  obtain ⟨vs, fl, elements, length, values, flags⟩ := State.elements_run { r with f := f } hw
  dsimp only at elements
  refine ⟨vs, fl, run.trans ?_, length, fun j hj => (values j hj).trans ?_, fun b hb => (flags b hb).trans ?_⟩
  · rw [elements]
    refine congrArg Host.Outcome.next (State.vPush_open _ _ _ _ ?_)
    exact opened
  · exact congrArg (fun n => if r.on j then n else elem r.w r.old (j % r.per)) (same j _ hj).1
  · exact exists_congr fun j => and_congr_right fun hj => and_congr_right fun _ => by rw [← (same j _ hj).2]; rfl

theorem vRun_runs (s : State) (roles : Bool) (body : State → State) (h : roles = true) (active : s.active = true) :
    vRun s roles body = .next (body s) := by
  unfold vRun
  rw [h, active]
  rfl

section
variable {s : State} {r : VRun} {i : Instr} (active : s.active = true) (opened : r.portOpen = true)
include active opened

theorem vBin_completes {t : ElTy} {lat : Nat} {f g : Nat → Nat → Nat × BitVec 7} {d a b : BitVec 4} {x y m c : BitVec 1}
    (h : s.runBin t lat f d a b x y m c = some r) (hw : t.w = 8 ∨ t.w = 16 ∨ t.w = 32)
    (same : ∀ u v, (g u v).1 % 2 ^ t.w = (f u v).1 % 2 ^ t.w ∧ (g u v).2 = (f u v).2)
    (run : exec i s = vBin t lat g d a b x y m c s) : r.completes i s := by
  obtain ⟨roles, h⟩ := Option.ite_none_right_eq_some.mp h
  obtain ⟨⟨as, s1⟩, ha, h⟩ := Option.bind_eq_some_iff.mp h
  obtain ⟨⟨bv, s2⟩, hb, rfl⟩ := Option.map_eq_some_iff.mp h
  refine VRun.completes_of _ i s (fun e _ => g (elem t.w (as.headD 0) e) (elem t.w bv e)) hw opened (fun j _ _ => same _ _) ?_
  refine run.trans ((vRun_runs s _ _ roles active).trans ?_)
  rw [s.opA_of_plainReads _ a x 1 as ha]
  dsimp only
  rw [s1.opB_of_plainB _ t b y c bv hb]

theorem vUn_completes {w lat : Nat} {f : Nat → Nat × BitVec 7} {d a : BitVec 4} {x m : BitVec 1}
    (h : s.runUn w lat f d a x m = some r) (hw : w = 8 ∨ w = 16 ∨ w = 32) (run : exec i s = vUn w lat f d a x m s) :
    r.completes i s := by
  obtain ⟨roles, h⟩ := Option.ite_none_right_eq_some.mp h
  obtain ⟨⟨as, s1⟩, ha, rfl⟩ := Option.map_eq_some_iff.mp h
  refine VRun.completes_of _ i s (fun e _ => f (elem w (as.headD 0) e)) hw opened (fun _ _ _ => ⟨rfl, rfl⟩) ?_
  refine run.trans ((vRun_runs s _ _ roles active).trans ?_)
  rw [s.opA_of_plainReads _ a x 1 as ha]

theorem vFma_completes {f : Fmt} {d a b : BitVec 4} {x y m c : BitVec 1} (h : s.runFma f d a b x y m c = some r)
    (hw : f.w = 8 ∨ f.w = 16 ∨ f.w = 32) (run : exec i s = vFma f d a b x y m c s) : r.completes i s := by
  obtain ⟨roles, h⟩ := Option.ite_none_right_eq_some.mp h
  obtain ⟨⟨as, s1⟩, ha, h⟩ := Option.bind_eq_some_iff.mp h
  obtain ⟨⟨bv, s2⟩, hb, h⟩ := Option.bind_eq_some_iff.mp h
  obtain ⟨⟨cs, s3⟩, hc, rfl⟩ := Option.map_eq_some_iff.mp h
  refine VRun.completes_of _ i s _ hw opened (fun _ _ _ => ⟨rfl, rfl⟩) ?_
  refine run.trans ((vRun_runs s _ _ roles active).trans ?_)
  rw [s.opA_of_plainReads _ a x 1 as ha]
  dsimp only
  rw [s1.opB_of_plainB _ _ b y c bv hb]
  dsimp only
  rw [s2.opC_of_plainReads _ d cs hc]

end

theorem sgn_emod_32 (x : Nat) : (sgn 32 x % 32).toNat = x % 32 := by
  unfold sgn
  split <;> omega

end Sys2Proof.Machine

open Sys2Proof Sys2Proof.Machine in
/-- Settles O20: each is the shared form `vBin` with its element function. -/
theorem vectorArithmetic : Obligations.VectorArithmetic := by
  intro s i r h active opened
  cases i with
  | vaddF32 | vsubF32 | vmulF32 | vminF32 | vmaxF32 | vaddBf16 | vsubBf16 | vmulBf16 | vminBf16 | vmaxBf16 | vaddF16 | vsubF16
  | vmulF16 | vminF16 | vmaxF16 | vdivF32 | vaddI32 | vsubI32 | vmulI32 | vminI32 | vmaxI32 | vaddI16 | vsubI16 | vaddI8 | vsubI8
  | vaddsI16 | vaddsI8 =>
    exact vBin_completes active opened h (by decide) (fun _ _ => ⟨rfl, rfl⟩) rfl
  | vand => exact vBin_completes (f := fun u v => (u &&& v, 0)) active opened h (by decide) (fun _ _ => ⟨rfl, rfl⟩) rfl
  | vor => exact vBin_completes (f := fun u v => (u ||| v, 0)) active opened h (by decide) (fun _ _ => ⟨rfl, rfl⟩) rfl
  | vxor => exact vBin_completes (f := fun u v => (u ^^^ v, 0)) active opened h (by decide) (fun _ _ => ⟨rfl, rfl⟩) rfl
  | vshl =>
    exact vBin_completes (f := fun u v => (u * 2 ^ (v % 32), 0)) (g := fun u v => (u * 2 ^ (v % 32) % 2 ^ 32, 0)) active opened h
      (by decide) (fun _ _ => ⟨Nat.mod_mod .., rfl⟩) rfl
  | vshr =>
    exact vBin_completes (f := fun u v => (u / 2 ^ (v % 32), 0)) (g := fun u v => (u / 2 ^ (v % 32), 0)) active opened h
      (by decide) (fun _ _ => ⟨rfl, rfl⟩) rfl
  | vsar =>
    refine vBin_completes (f := wrapInt 32 fun u v => u / (2 ^ (v % 32).toNat : Nat))
      (g := fun u v => (pat 32 (sgn 32 u / (2 ^ (v % 32) : Nat)), 0)) active opened h (by decide) (fun u v => ⟨?_, rfl⟩) rfl
    dsimp only [wrapInt]
    rw [sgn_emod_32]
    rfl
  | _ => exact (nomatch h)
end

section
/-! SUPPORT. Lane operations, conversions and quantization (R255, R260, R261, R267, R268) as runs of elements. -/

namespace Sys2Proof.Machine

/-! ### Whole vectors from lanes (R267) -/

theorem elem_ofLanes (h : Nat → Nat) (l : Nat) (hl : l < 64) : elem 32 (ofLanes h) l = h l % 2 ^ 32 := by
  unfold ofLanes
  rw [elem_packVec 32 _ l (by simp), List.getD_eq_getElem?_getD, List.getElem?_map, List.getElem?_range hl]
  rfl

section
variable {s : State} {r : VRun} {i : Instr} (active : s.active = true) (opened : r.portOpen = true)
include active opened

/-- A movement of lanes whose entry n has lane l of `h`: the run's element 64 n + l. -/
theorem vWhole_completes {k : Nat} {g : Vec → Vec → Nat → Nat} {whole : Vec → Vec → List Vec} {d a b : BitVec 4} {x y m c : BitVec 1}
    (h : Vec → Vec → Nat → Nat → Nat) (hr : vLanewise.runLanes s k g d a b x y m c = some r)
    (lanes : ∀ u v, whole u v = (List.range k).map fun n => ofLanes (h u v n))
    (same : ∀ u v n l, n < k → l < 64 → h u v n l = g u v (64 * n + l))
    (run : exec i s = vWhole whole d a b x y m c s) : r.completes i s := by
  obtain ⟨roles, hr⟩ := Option.ite_none_right_eq_some.mp hr
  obtain ⟨⟨as, s1⟩, ha, hr⟩ := Option.bind_eq_some_iff.mp hr
  obtain ⟨⟨bv, s2⟩, hb, rfl⟩ := Option.map_eq_some_iff.mp hr
  refine VRun.completes_of _ i s (fun j _ => (elem 32 ((whole (as.headD 0) bv).getD (j / 64) 0) (j % 64), 0)) (.inr (.inr rfl)) opened
    (fun j _ hj => ⟨?_, rfl⟩) ?_
  · have hj : j < k * (2048 / 32) := hj
    have hn : j / 64 < k := by omega
    dsimp only
    rw [lanes, List.getD_eq_getElem?_getD, List.getElem?_map, List.getElem?_range hn, Option.map_some, Option.getD_some,
      elem_ofLanes _ _ (Nat.mod_lt _ (by decide)), same _ _ _ _ hn (Nat.mod_lt _ (by decide)), Nat.div_add_mod, Nat.mod_mod]
  · refine run.trans ((vRun_runs s _ _ roles active).trans ?_)
    rw [s.opA_of_plainReads _ a x 1 as ha]
    dsimp only
    rw [s1.opB_of_plainB _ _ b y c bv hb]
    dsimp only
    rw [show (whole (as.headD 0) bv).length = k by rw [lanes, List.length_map, List.length_range]]

theorem vSel_completes {d a b : BitVec 4} {x y c : BitVec 1} (h : vLanewise s (.vsel d a b x y c) = some r)
    (run : exec i s = vSel d a b x y c s) : r.completes i s := by
  obtain ⟨roles, h⟩ := Option.ite_none_right_eq_some.mp h
  obtain ⟨⟨as, s1⟩, ha, h⟩ := Option.bind_eq_some_iff.mp h
  obtain ⟨⟨bv, s2⟩, hb, rfl⟩ := Option.map_eq_some_iff.mp h
  refine VRun.completes_of _ i s _ (.inr (.inr rfl)) opened (fun _ _ _ => ⟨rfl, rfl⟩) ?_
  refine run.trans ((vRun_runs s _ _ roles active).trans ?_)
  rw [s.opA_of_plainReads _ a x 1 as ha]
  dsimp only
  rw [s1.opB_of_plainB _ _ b y c bv hb]

theorem vLfrd_completes {d : BitVec 4} {m : BitVec 1} (h : vUnary s (.vlfrd d m) = some r)
    (run : exec i s = vLfrd d m s) : r.completes i s := by
  obtain ⟨roles, h⟩ := Option.ite_none_right_eq_some.mp h
  obtain rfl := Option.some.inj h
  exact VRun.completes_of _ i s _ (.inr (.inr rfl)) opened (fun _ _ _ => ⟨rfl, rfl⟩) (run.trans (vRun_runs s _ _ roles active))

/-! ### Conversions and quantization (R260, R261) -/

theorem vCvt_completes {ws ra wd rd : Nat} {rnd : BitVec 3} {f : Nat → BitVec 32 → Nat × BitVec 7} {d a : BitVec 4} {x m : BitVec 1}
    (h : s.runCvt ws ra wd rd rnd f d a x m = some r) (hw : wd = 8 ∨ wd = 16 ∨ wd = 32)
    (run : exec i s = vCvt ws ra wd rd (decide (rndOf rnd.toNat = .sr)) f d a x m s) : r.completes i s := by
  obtain ⟨roles, h⟩ := Option.ite_none_right_eq_some.mp h
  obtain ⟨⟨as, s1⟩, ha, rfl⟩ := Option.map_eq_some_iff.mp h
  refine VRun.completes_of _ i s _ hw opened (fun _ _ _ => ⟨rfl, rfl⟩) ?_
  refine run.trans ((vRun_runs s _ _ roles active).trans ?_)
  rw [s.opA_of_plainReads _ a x ra as ha]

theorem vQnt_completes {dst : Option Fmt} {sr : Bool} {d a b : BitVec 4} {x y m c : BitVec 1}
    (h : s.runQnt dst sr d a b x y m c = some r) (run : exec i s = vQnt dst sr d a b x y m c s) : r.completes i s := by
  obtain ⟨roles, h⟩ := Option.ite_none_right_eq_some.mp h
  obtain ⟨⟨as, s1⟩, ha, h⟩ := Option.bind_eq_some_iff.mp h
  obtain ⟨⟨bv, s2⟩, hb, rfl⟩ := Option.map_eq_some_iff.mp h
  refine VRun.completes_of _ i s _ (.inl rfl) opened (fun _ _ _ => ⟨rfl, rfl⟩) ?_
  refine run.trans ((vRun_runs s _ _ roles active).trans ?_)
  rw [s.opA_of_plainReads _ a x 4 as ha]
  dsimp only
  rw [s1.opB_of_plainB _ _ b y c bv hb]

theorem vDqnt_completes {src : Option Fmt} {g : Nat → Val} {d a b : BitVec 4} {x y m c : BitVec 1}
    (h : s.runDqnt g d a b x y m c = some r) (same : ∀ e, src.elim (Val.ofInt (sgn 8 e)) (fun f => f.dec e) = g e)
    (run : exec i s = vDqnt src d a b x y m c s) : r.completes i s := by
  obtain ⟨roles, h⟩ := Option.ite_none_right_eq_some.mp h
  obtain ⟨⟨as, s1⟩, ha, h⟩ := Option.bind_eq_some_iff.mp h
  obtain ⟨⟨bv, s2⟩, hb, rfl⟩ := Option.map_eq_some_iff.mp h
  refine VRun.completes_of _ i s _ (.inr (.inr rfl)) opened (fun _ _ _ => ⟨rfl, rfl⟩) ?_
  refine run.trans ((vRun_runs s _ _ roles active).trans ?_)
  rw [s.opA_of_plainReads _ a x 1 as ha]
  dsimp only
  rw [s1.opB_of_plainB _ _ b y c bv hb]
  simp only [same]

end

end Sys2Proof.Machine

open Sys2Proof Sys2Proof.Machine in
/-- Settles O21: the one-operand forms are `vUn`, the movements of lanes `vWhole`. -/
theorem vectorLanewise : Obligations.VectorLanewise := by
  intro s i r h active opened
  rcases h with h | h
  · cases i with
    | vsqrtF32 | vrsqrtF32 | vexp2F32 | vlog2F32 | vreluF32 | vreluBf16 => exact vUn_completes active opened h (by decide) rfl
    | vmov => exact vUn_completes (f := fun u => (u, 0)) active opened h (by decide) rfl
    | vlfrd => exact vLfrd_completes active opened h rfl
    | _ => exact (nomatch h)
  · cases i with
    | vfmaF32 | vfmaBf16 | vfmaF16 => exact vFma_completes active opened h (by decide) rfl
    | vsel => exact vSel_completes active opened h rfl
    | vshuf =>
      refine vWhole_completes (k := 1) (g := fun u v j => elem 32 u (elem 32 v j % 64))
        (whole := fun u v => [ofLanes fun l => elem 32 u (elem 32 v l % 64)]) active opened
        (fun u v _ l => elem 32 u (elem 32 v l % 64)) h (fun _ _ => rfl) (fun u v n l hn _ => ?_) rfl
      rw [Nat.lt_one_iff.mp hn, Nat.mul_zero, Nat.zero_add]
    | vrot =>
      refine vWhole_completes (k := 1) (g := fun u v j => elem 32 u ((j + elem 32 v 0) % 64))
        (whole := fun u v => [ofLanes fun l => elem 32 u ((l + elem 32 v 0 % 64) % 64)]) active opened
        (fun u v _ l => elem 32 u ((l + elem 32 v 0 % 64) % 64)) h (fun _ _ => rfl) (fun u v n l _ _ => congrArg (elem 32 u) ?_) rfl
      omega
    | vzip =>
      refine vWhole_completes (k := 2) (g := fun u v j => elem 32 (if j % 2 = 0 then u else v) (32 * (j / 64) + j % 64 / 2))
        (whole := fun u v => [0, 1].map fun n => ofLanes fun l => elem 32 (if l % 2 = 0 then u else v) (32 * n + l / 2)) active opened
        (fun u v n l => elem 32 (if l % 2 = 0 then u else v) (32 * n + l / 2)) h (fun _ _ => rfl) (fun u v n l _ hl => ?_) rfl
      rw [show (64 * n + l) % 2 = l % 2 by omega, show 32 * ((64 * n + l) / 64) + (64 * n + l) % 64 / 2 = 32 * n + l / 2 by omega]
    | vunzip =>
      refine vWhole_completes (k := 2) (g := fun u v j => lane2 u v (2 * (j % 64) + j / 64))
        (whole := fun u v => [0, 1].map fun n => ofLanes fun l => lane2 u v (2 * l + n)) active opened
        (fun u v n l => lane2 u v (2 * l + n)) h (fun _ _ => rfl) (fun u v n l _ hl => ?_) rfl
      rw [show 2 * ((64 * n + l) % 64) + (64 * n + l) / 64 = 2 * l + n by omega]
    | _ => exact (nomatch h)

open Sys2Proof Sys2Proof.Machine in
/-- Settles O22: the conversions are `vCvt`, quantization `vQnt` and `vDqnt`. -/
theorem vectorConversions : Obligations.VectorConversions := by
  intro s i r h active opened
  rcases h with h | h
  · cases i with
    | vcvtBf16F32 d a rnd x m =>
      exact vCvt_completes (f := fun e => narrow .bf16 (rndOf rnd.toNat) .ieee (Fmt.f32.dec e)) active opened h (by decide) rfl
    | vcvtF16F32 d a rnd x m =>
      exact vCvt_completes (f := fun e => narrow .f16 (rndOf rnd.toNat) .ieee (Fmt.f32.dec e)) active opened h (by decide) rfl
    | vcvtE4m3F32 d a rnd t x m =>
      exact vCvt_completes (f := fun e => narrow .e4m3 (rndOf rnd.toNat) (if t = 1 then .nan else .sat) (Fmt.f32.dec e)) active opened h (by decide) rfl
    | vcvtE5m2F32 d a rnd t x m =>
      exact vCvt_completes (f := fun e => narrow .e5m2 (rndOf rnd.toNat) (if t = 1 then .sat else .ieee) (Fmt.f32.dec e)) active opened h (by decide) rfl
    | vcvtF32Bf16 d a x m =>
      exact vCvt_completes (f := fun e => narrow .f32 .rn .ieee (Fmt.bf16.dec e)) active opened h (by decide) rfl
    | vcvtF32F16 d a x m =>
      exact vCvt_completes (f := fun e => narrow .f32 .rn .ieee (Fmt.f16.dec e)) active opened h (by decide) rfl
    | vcvtF32E4m3 d a x m =>
      exact vCvt_completes (f := fun e => narrow .f32 .rn .ieee (Fmt.e4m3.dec e)) active opened h (by decide) rfl
    | vcvtF32E5m2 d a x m =>
      exact vCvt_completes (f := fun e => narrow .f32 .rn .ieee (Fmt.e5m2.dec e)) active opened h (by decide) rfl
    | vcvtI32F32 d a rnd x m =>
      exact vCvt_completes (f := fun e => convertToInt 32 (rndOf rnd.toNat) (Fmt.f32.dec e)) active opened h (by decide) rfl
    | vcvtF32I32 d a rnd x m =>
      exact vCvt_completes (f := fun e => narrow .f32 (rndOf rnd.toNat) .ieee (Val.ofInt (sgn 32 e))) active opened h (by decide) rfl
    | vcvtI8F32 d a rnd x m =>
      exact vCvt_completes (f := fun e => convertToInt 8 (rndOf rnd.toNat) (Fmt.f32.dec e)) active opened h (by decide) rfl
    | vcvtE4m3Bf16 d a rnd t x m =>
      exact vCvt_completes (f := fun e => narrow .e4m3 (rndOf rnd.toNat) (if t = 1 then .nan else .sat) (Fmt.bf16.dec e)) active opened h (by decide) rfl
    | _ => exact (nomatch h)
  · cases i with
    | vqntE4m3 | vqntE4m3Sr | vqntE5m2 | vqntE5m2Sr | vqntI8 | vqntI8Sr => exact vQnt_completes active opened h rfl
    | vdqntE4m3 | vdqntE5m2 => exact vDqnt_completes active opened h (fun _ => rfl) rfl
    | vdqntI8 => exact vDqnt_completes (g := fun e => Val.ofInt (sgn 8 e)) active opened h (fun _ => rfl) rfl
    | _ => exact (nomatch h)
end

section
/-! SUPPORT. Reductions and the backward readers (R258, R259, R263 to R266): the kept operand read under the form that serves it. -/

namespace Sys2Proof.Machine

/-! ### The kept operand (R264, R265) -/

/-- Reads that find their entries read the first ones of the queue. -/
theorem qReads_take (q : Nat) (hq : q < 16) (peek : Bool) (n : Nat) : ∀ (qs t : Vector (List QEntry) 16) (es : List QEntry),
    qReads qs q peek n = some (es, t) → es = (vget qs q).take n ∧ n ≤ (vget qs q).length := by
  induction n with
  | zero =>
    intro qs t es h
    obtain ⟨rfl, -⟩ := Prod.mk.inj (Option.some.inj h)
    exact ⟨rfl, Nat.zero_le _⟩
  | succ n ih =>
    intro qs t es h
    unfold qReads at h
    split at h
    · cases h
    next e r here =>
      split at h
      · cases h
      · obtain ⟨⟨es', t'⟩, later, he⟩ := Option.map_eq_some_iff.mp h
        obtain ⟨rfl, -⟩ := Prod.mk.inj he
        obtain ⟨rest, enough⟩ := ih _ _ _ later
        dsimp only
        cases n with
        | zero => exact ⟨by rw [here, rest]; rfl, by rw [here]; exact Nat.succ_le_succ (Nat.zero_le _)⟩
        | succ n =>
          have after : vget (if (peek && decide (n + 1 = 0)) = true then qs else vset qs q r) q = r := by
            rw [if_neg (by simp), vget_vset_self _ _ _ hq]
          rw [after] at rest enough
          exact ⟨by rw [here, rest]; rfl, by rw [here]; exact Nat.succ_le_succ enough⟩

/-- Reads keep what the check of tags looks at. -/
theorem State.afterReads_take (s t : State) (q : BitVec 4) (peek : Bool) (n : Nat) (es : List QEntry)
    (h : s.afterReads q peek n = some (es, t)) :
    es = (s.core.queue q.toNat).take n ∧ n ≤ (s.core.queue q.toNat).length ∧ t.ctx = s.ctx := by
  obtain ⟨-, h⟩ := Option.ite_none_left_eq_some.mp h
  obtain ⟨⟨es', qs⟩, reads, he⟩ := Option.map_eq_some_iff.mp h
  obtain ⟨rfl, rfl⟩ := Prod.mk.inj he
  obtain ⟨taken, enough⟩ := qReads_take q.toNat q.isLt peek n _ _ _ reads
  exact ⟨taken, enough, rfl⟩

/-- What the check answers of a first entry that it refuses, it answers of all. -/
theorem keptCheck_head_passes (kt : Vector (BitVec 32) 16) (p : Presented) (t : Byte) (ts : List Byte)
    (h : (keptCheck kt p (t :: ts)).passes = true) : (keptCheck kt p [t]).passes = true := by
  by_cases tagged : tagV t = true
  · have first (l : List Byte) : (t :: l).find? tagV = some t := List.find?_cons_of_pos tagged
    unfold keptCheck at h ⊢
    rw [first] at h ⊢
    dsimp only at h ⊢
    by_cases differ : (t :: ts).any (fun x => decide (x ≠ t)) = true
    · rw [if_pos differ] at h
      cases h
    · rw [if_neg differ] at h
      rwa [if_neg (by simp)]
  · rw [keptCheck_untagged kt p [t] fun x hx => by rw [List.mem_singleton.mp hx]; exact Bool.eq_false_iff.mpr tagged]
    rfl

/-- The count of the kept operand's entries, where the head entry passes. -/
theorem State.keptReadCount_eq (s : State) (f : Fmt) (win : Option (Nat × Nat)) (op : Nat) (a : BitVec 4)
    (pass : ∀ e l, s.core.queue a.toNat = e :: l → mixedIn (inPort a) [e.tag] = false
      ∧ (keptCheck s.ctx.kt ⟨vReader op, false, readerOk f win⟩ [e.tag]).passes = true) :
    s.keptReadCount ⟨vReader op, false, readerOk f win⟩ ((win.map (·.1)).getD 1) (inPort a) (s.core.queue a.toNat)
      = s.keptCount f win op a := by
  unfold State.keptCount
  cases hq : s.core.queue a.toNat with
  | nil => rfl
  | cons e l =>
    obtain ⟨plain, passes⟩ := pass e l hq
    dsimp only
    unfold State.keptReadCount State.queueCheck
    dsimp only
    rw [plain, if_neg Bool.false_ne_true]
    cases hk : keptCheck s.ctx.kt ⟨vReader op, false, readerOk f win⟩ [e.tag] with
    | fault cause t =>
      rw [hk] at passes
      cases passes
    | untagged => rfl
    | carried t => rfl
    | served k t =>
      dsimp only [KeptResult.form]
      by_cases six : ktForm k = 6
      · rw [if_pos six, six]
        rfl
      · by_cases four : ktForm k = 4
        · rw [if_neg six, if_pos four, four]
          rfl
        · rw [if_neg six, if_neg four]
          split
          · next e => exact absurd e six
          · next e => exact absurd e four
          · rfl

/-- The kept operand, where its check serves it. -/
theorem State.opKept_of_keptReads (s t : State) (f : Fmt) (win : Option (Nat × Nat)) (op : Nat) (a : BitVec 4) (x : BitVec 1)
    (k : Nat × List Vec) (pos : 1 ≤ (win.map (·.1)).getD 1) (h : s.keptReads f win op a x = some (k, t)) :
    s.opKept ⟨vReader op, false, readerOk f win⟩ win a x = (k, t) := by
  obtain ⟨⟨es, u⟩, reads, h⟩ := Option.bind_eq_some_iff.mp h
  obtain ⟨plain, h⟩ := Option.ite_none_left_eq_some.mp h
  obtain ⟨taken, enough, ctx⟩ := s.afterReads_take u a _ _ es reads
  have whole : es.take (s.core.queue a.toNat).length = es := List.take_of_length_le (by rw [taken, List.length_take]; omega)
  have unmixed : mixedIn (inPort a) (es.map (·.tag)) = false := by
    unfold mixedIn
    rw [List.any_map]
    exact Bool.eq_false_iff.mpr plain
  have passes : (keptCheck s.ctx.kt ⟨vReader op, false, readerOk f win⟩ (es.map (·.tag))).passes = true := by
    dsimp only at h
    cases hk : keptCheck s.ctx.kt ⟨vReader op, false, readerOk f win⟩ (es.map (·.tag)) with
    | fault cause t => rw [hk] at h; cases h
    | untagged => rfl
    | carried t => rfl
    | served e t => rfl
  have count : 1 ≤ s.keptCount f win op a := by
    unfold State.keptCount
    dsimp only
    split
    · exact pos
    · split
      · exact pos
      · decide
      · decide
  have counts : s.keptReadCount ⟨vReader op, false, readerOk f win⟩ ((win.map (·.1)).getD 1) (inPort a) (s.core.queue a.toNat)
      = s.keptCount f win op a := by
    refine s.keptReadCount_eq f win op a fun e l hq => ?_
    obtain ⟨n, hn⟩ := Nat.exists_eq_add_of_le' count
    rw [hq, hn, List.take_succ_cons] at taken
    rw [taken, List.map_cons] at unmixed passes
    refine ⟨?_, keptCheck_head_passes _ _ _ _ passes⟩
    unfold mixedIn at unmixed ⊢
    cases hp : inPort a with
    | false => rfl
    | true =>
      rw [hp, List.any_cons, Bool.true_and, Bool.or_eq_false_iff] at unmixed
      rw [List.any_cons, unmixed.1]
      rfl
  have result : u.queueCheck ⟨vReader op, false, readerOk f win⟩ (inPort a) (es.map (·.tag))
      = keptCheck s.ctx.kt ⟨vReader op, false, readerOk f win⟩ (es.map (·.tag)) := by
    unfold State.queueCheck
    rw [unmixed, ctx]
    rfl
  unfold State.opKept
  dsimp only
  rw [counts, State.readN_of_afterReads _ _ _ _ _ _ reads, whole, result, u.raiseKept_passes _ _ _ _ passes]
  revert h
  dsimp only
  cases keptCheck s.ctx.kt ⟨vReader op, false, readerOk f win⟩ (es.map (·.tag)) with
  | fault cause t => exact nofun
  | untagged => exact fun h => Option.some.inj h
  | carried t => exact fun h => Option.some.inj h
  | served e t => exact fun h => Option.some.inj h

/-! ### Reductions and readers as runs of elements -/

/-- The kept positions of the windows of one entry, looked up. -/
theorem getD_positions (n v c : Nat) (pos : Nat → Nat) (hc : c < n) (whole : v * (n / v) = n) :
    ((List.range (n / v)).map pos).getD (c / v) 0 = pos (c / v) := by
  have hv : 0 < v := Nat.pos_of_ne_zero fun e => by rw [e, Nat.zero_mul] at whole; omega
  have inside : c / v < n / v := Nat.div_lt_of_lt_mul (by rw [whole]; exact hc)
  rw [List.getD_eq_getElem?_getD, List.getElem?_map, List.getElem?_range inside]
  rfl

/-- A window is at least one row high, and one to four elements wide. -/
theorem State.poolWin_bounds (s : State) : 1 ≤ s.poolWin.1 ∧ 1 ≤ s.poolWin.2 ∧ s.poolWin.2 ≤ 4 := by
  have wide : bits s.iss.bc 1 0 < 4 := Nat.mod_lt _ (by decide)
  unfold State.poolWin
  dsimp only
  omega

section
variable {s : State} {r : VRun} {i : Instr} (active : s.active = true) (opened : r.portOpen = true)
include active opened

theorem vAmax_completes {f : Fmt} {d a : BitVec 4} {x m : BitVec 1}
    (h : vReduction.runOver s 1 6 (fun vs => fun _ => (amaxOf f (s.vLanes m) (vs.headD 0), 0)) d a x m = some r)
    (run : exec i s = vAmax f d a x m s) : r.completes i s := by
  obtain ⟨roles, h⟩ := Option.ite_none_right_eq_some.mp h
  obtain ⟨⟨as, s1⟩, ha, rfl⟩ := Option.map_eq_some_iff.mp h
  refine VRun.completes_of _ i s _ (.inr (.inr rfl)) opened (fun _ _ _ => ⟨rfl, rfl⟩) ?_
  refine run.trans ((vRun_runs s _ _ roles active).trans ?_)
  rw [s.opA_of_plainReads _ a x 1 as ha]

theorem vRsum_completes {d a : BitVec 4} {x m : BitVec 1}
    (h : vReduction.runOver s 1 8 (fun vs =>
      let t := sumTree 6 ((List.range 64).map fun l => if bit (s.vLanes m) l then elem 32 (vs.headD 0) l else 2 ^ 31)
      fun _ => (t.1.headD 0, t.2)) d a x m = some r)
    (run : exec i s = vRsum d a x m s) : r.completes i s := by
  obtain ⟨roles, h⟩ := Option.ite_none_right_eq_some.mp h
  obtain ⟨⟨as, s1⟩, ha, rfl⟩ := Option.map_eq_some_iff.mp h
  refine VRun.completes_of _ i s _ (.inr (.inr rfl)) opened (fun _ _ _ => ⟨rfl, rfl⟩) ?_
  refine run.trans ((vRun_runs s _ _ roles active).trans ?_)
  rw [s.opA_of_plainReads _ a x 1 as ha]
  rfl

theorem vMpool_completes {f : Fmt} {d a : BitVec 4} {x m : BitVec 1}
    (h : vReduction.runOver s 2 4 (fun vs e => (elem 32 (poolEntry f (vs.headD 0) (vs.getD 1 0)) e, 0)) d a x m = some r)
    (run : exec i s = vMpool f d a x m s) : r.completes i s := by
  obtain ⟨roles, h⟩ := Option.ite_none_right_eq_some.mp h
  obtain ⟨⟨as, s1⟩, ha, rfl⟩ := Option.map_eq_some_iff.mp h
  refine VRun.completes_of _ i s _ (.inr (.inr rfl)) opened (fun _ _ _ => ⟨rfl, rfl⟩) ?_
  refine run.trans ((vRun_runs s _ _ roles active).trans ?_)
  rw [s.opA_of_plainReads _ a x 2 as ha]

theorem vRead_completes {f : Fmt} {op lat nb : Nat} {g : State → Nat × List Vec → List Vec → Nat → Nat × BitVec 7}
    {d a b : BitVec 4} {x y m : BitVec 1} (h : s.runReader f op lat nb g d a b x y m = some r) (hw : f.w = 8 ∨ f.w = 16 ∨ f.w = 32)
    (run : exec i s = vRead f op lat nb g d a b x y m s) : r.completes i s := by
  obtain ⟨roles, h⟩ := Option.ite_none_right_eq_some.mp h
  obtain ⟨⟨k, s1⟩, hk, h⟩ := Option.bind_eq_some_iff.mp h
  obtain ⟨⟨bs, s2⟩, hb, rfl⟩ := Option.map_eq_some_iff.mp h
  refine VRun.completes_of _ i s _ hw opened (fun _ _ _ => ⟨rfl, rfl⟩) ?_
  refine run.trans ((vRun_runs s _ _ roles active).trans ?_)
  dsimp only
  rw [s.opKept_of_keptReads s1 f none op a x k (Nat.le_refl 1) hk]
  dsimp only
  rw [s1.opBN_of_checkedReads s2 _ b y nb bs hb]

theorem vPoolB_completes {f : Fmt} {op : Nat} {d a b : BitVec 4} {x y m : BitVec 1} (h : s.runPoolB f op d a b x y m = some r)
    (hw : f.w = 16 ∨ f.w = 32) (run : exec i s = vPoolB f op d a b x y m s) : r.completes i s := by
  obtain ⟨tall, low, high⟩ := s.poolWin_bounds
  unfold State.runPoolB at h
  generalize hp : s.poolWin = p at h tall low high
  obtain ⟨rows, v⟩ := p
  dsimp only at h tall low high
  obtain ⟨roles, h⟩ := Option.ite_none_right_eq_some.mp h
  obtain ⟨roles, three⟩ := (Bool.and_eq_true ..).mp roles
  have three : ¬v = 3 := of_decide_eq_true three
  obtain ⟨⟨k, s1⟩, hk, h⟩ := Option.bind_eq_some_iff.mp h
  obtain ⟨⟨bs, s2⟩, hb, rfl⟩ := Option.map_eq_some_iff.mp h
  have whole : v * (2048 / f.w / v) = 2048 / f.w := by
    obtain rfl | rfl | rfl : v = 1 ∨ v = 2 ∨ v = 4 := by omega
    all_goals rcases hw with e | e <;> rw [e]
  have some_elements : 0 < 2048 / f.w := by rcases hw with e | e <;> rw [e] <;> decide
  refine VRun.completes_of _ i s (fun j _ =>
    if ((List.range (2048 / f.w / v)).map fun w => s2.keptPos f k w).getD (j % (2048 / f.w) / v) 0
        = j / (2048 / f.w) * v + j % (2048 / f.w) % v then
      let dy := f.dec (elem f.w (bs.headD 0) (j % (2048 / f.w) / v))
      floatResult f dy [dy]
    else (0, 0)) (.inr hw) opened (fun j _ _ => ?_) ?_
  · dsimp only
    rw [getD_positions _ v _ _ (Nat.mod_lt j some_elements) whole]
    exact ⟨rfl, rfl⟩
  · refine run.trans ((vRun_runs s _ _ roles active).trans ?_)
    dsimp only
    rw [hp]
    dsimp only
    rw [if_neg three, s.opKept_of_keptReads s1 f (some (rows, v)) op a x k tall hk]
    dsimp only
    rw [s1.opBN_of_checkedReads s2 _ b y 1 bs hb]

end

end Sys2Proof.Machine

open Sys2Proof Sys2Proof.Machine in
/-- Settles O23: reductions by their own forms, the readers by `State.opKept_of_keptReads`. -/
theorem vectorReductionsAndReaders : Obligations.VectorReductionsAndReaders := by
  intro s i r h active opened
  rcases h with h | h
  · cases i with
    | vamaxF32 | vamaxBf16 => exact vAmax_completes active opened h rfl
    | vrsumF32 => exact vRsum_completes active opened h rfl
    | vmpoolF32 | vmpoolBf16 => exact vMpool_completes active opened h rfl
    | _ => exact (nomatch h)
  · cases i with
    | vrelubF32 | vrelubBf16 | vgelubF32 | vgelubBf16 | vdropbF32 | vdropbBf16 | vsmaxbF32 | vsmaxbBf16 | vlnormbF32 | vlnormbBf16 =>
      exact vRead_completes active opened h (by decide) rfl
    | vmpoolbF32 | vmpoolbBf16 => exact vPoolB_completes active opened h (by decide) rfl
    | _ => exact (nomatch h)
end

section
/-! SUPPORT. Compares, queue roles, and the V instructions that move entries and LFSRs (R193, R251, R254, R267 to R269). -/

namespace Sys2Proof.Machine

/-! ### What reads leave -/

/-- The queues and the pops noted are all that differs. -/
def State.OnlyReads (s t : State) : Prop := ∃ qs ps, t = s.withReads qs { s.iss with pops := ps }

theorem State.OnlyReads.trans {s t u : State} (h : s.OnlyReads t) (k : t.OnlyReads u) : s.OnlyReads u := by
  obtain ⟨_, _, rfl⟩ := h
  obtain ⟨_, _, rfl⟩ := k
  exact ⟨_, _, rfl⟩

theorem Issue.popped_eq (i : Issue) (q n : Nat) : ∃ ps, i.popped q n = { i with pops := ps } := by
  unfold Issue.popped
  split
  · exact ⟨i.pops, rfl⟩
  · exact ⟨_, rfl⟩

theorem State.afterReads_onlyReads {s t : State} {q : BitVec 4} {peek : Bool} {n : Nat} {es : List QEntry}
    (h : s.afterReads q peek n = some (es, t)) : s.OnlyReads t := by
  obtain ⟨-, h⟩ := Option.ite_none_left_eq_some.mp h
  obtain ⟨⟨es', qs⟩, -, he⟩ := Option.map_eq_some_iff.mp h
  obtain ⟨rfl, rfl⟩ := Prod.mk.inj he
  obtain ⟨ps, hp⟩ := s.iss.popped_eq q.toNat (n - b2n peek)
  exact ⟨qs, ps, by rw [hp]⟩

theorem State.plainReads_onlyReads {s t : State} {q : BitVec 4} {peek : Bool} {n : Nat} {vs : List Vec}
    (h : s.plainReads q peek n = some (vs, t)) : s.OnlyReads t := by
  obtain ⟨⟨es, u⟩, reads, h⟩ := Option.bind_eq_some_iff.mp h
  obtain ⟨-, h⟩ := Option.ite_none_left_eq_some.mp h
  obtain ⟨-, rfl⟩ := Prod.mk.inj (Option.some.inj h)
  exact State.afterReads_onlyReads reads

theorem State.plainB_onlyReads {s t : State} {ty : ElTy} {b : BitVec 4} {y c : BitVec 1} {v : Vec}
    (h : s.plainB ty b y c = some (v, t)) : s.OnlyReads t := by
  unfold State.plainB at h
  split at h
  · obtain ⟨-, rfl⟩ := Prod.mk.inj (Option.some.inj h)
    exact ⟨s.core.vs.q, s.iss.pops, rfl⟩
  · obtain ⟨⟨vs, u⟩, reads, he⟩ := Option.map_eq_some_iff.mp h
    obtain ⟨-, rfl⟩ := Prod.mk.inj he
    exact State.plainReads_onlyReads reads

/-! ### A compare's mask (R254) -/

/-- The mask packed from one bit a lane. -/
theorem getLsbD_packed_mask (g : Nat → Bool) (l : Nat) (hl : l < 64) :
    (BitVec.ofNat 64 (packNat 1 ((List.range 64).map fun k => b2n (g k)))).getLsbD l = g l := by
  have bit := packNat_get 1 ((List.range 64).map fun k => b2n (g k)) l
  rw [List.getD_eq_getElem?_getD, List.getElem?_map, List.getElem?_range hl, Option.map_some, Option.getD_some, Nat.one_mul,
    Nat.shiftRight_eq_div_pow, Nat.pow_one] at bit
  rw [BitVec.getLsbD_ofNat, decide_eq_true hl, Bool.true_and, Nat.testBit_eq_decide_div_mod_eq, bit]
  cases g l <;> rfl

theorem vCmp_pushes {s s1 s2 : State} {i : Instr} {ty : ElTy} {cond g : Nat → Nat → Bool} {a b : BitVec 4} {x y m c : BitVec 1}
    {as : List Vec} {bv : Vec} (run : exec i s = vCmp ty g a b x y m c s) (active : s.active = true)
    (same : ∀ u v, u < 2 ^ ty.w → v < 2 ^ ty.w → g u v = cond u v) (ha : s.vIn a = true) (hb : c = 1 ∨ s.vIn b = true)
    (readA : s.plainReads a (decide (x = 1)) 1 = some (as, s1)) (readB : s1.plainB ty b y c = some (bv, s2))
    (depth : (s.core.mask s.v1).length + s.core.inflightMasks s.v1 + s.iss.compares s.v1 < 8) :
    ∃ mask : BitVec 64,
      exec i s = .next (({ s2 with iss := if s.v1 then { s2.iss with compares1 := s2.iss.compares1 + 1 }
        else { s2.iss with compares0 := s2.iss.compares0 + 1 } }).result 2 (.maskPush s.v1 mask))
      ∧ ∀ l, l < 64 → mask.getLsbD l = ((s.vLanes m).getLsbD l
          && (List.range (32 / ty.w)).all fun j =>
            cond (elem ty.w (as.headD 0) (32 / ty.w * l + j)) (elem ty.w bv (32 / ty.w * l + j))) := by
  have roles : (s.vIn a && (decide (c = 1) || s.vIn b)) = true := by
    rw [ha, Bool.true_and, Bool.or_eq_true, decide_eq_true_eq]
    exact hb
  refine ⟨BitVec.ofNat 64 (packNat 1 ((List.range 64).map fun l => b2n (bit (s.vLanes m) l && (List.range (32 / ty.w)).all fun j =>
    g (elem ty.w (as.headD 0) (32 / ty.w * l + j)) (elem ty.w bv (32 / ty.w * l + j))))), ?_, fun l hl => ?_⟩
  · refine run.trans ((vRun_runs s _ _ roles active).trans ?_)
    rw [s.opA_of_plainReads s1 a x 1 as readA]
    dsimp only
    rw [s1.opB_of_plainB s2 ty b y c bv readB]
    dsimp only
    have same : s2.v1 = s.v1 ∧ (s2.core.mask s.v1).length + s2.core.inflightMasks s.v1 + s2.iss.compares s.v1 < 8 := by
      obtain ⟨qs, ps, rfl⟩ := (State.plainReads_onlyReads readA).trans (State.plainB_onlyReads readB)
      exact ⟨rfl, depth⟩
    obtain ⟨slot, depth⟩ := same
    unfold Issue.compares at depth
    rw [slot, if_neg (Nat.not_le.mpr depth)]
    cases s.v1 <;> rfl
  · rw [getLsbD_packed_mask _ l hl]
    refine congrArg ((s.vLanes m).getLsbD l && ·) (List.all_congr rfl fun j => ?_)
    exact same _ _ (Nat.mod_lt _ (Nat.two_pow_pos _)) (Nat.mod_lt _ (Nat.two_pow_pos _))

theorem sgn_inj_32 (u v : Nat) (hu : u < 2 ^ 32) (hv : v < 2 ^ 32) : decide (sgn 32 u = sgn 32 v) = decide (u = v) := by
  unfold sgn
  rw [decide_eq_decide]
  split <;> split <;> omega

/-! ### Queue roles (R55, R251) -/

/-- Every V instruction checks its roles before its guard. -/
theorem exec_v_roles (s : State) (i : Instr) (b : Bool) (h : vRoles s i = some b) :
    (b = false → exec i s = .next s.illegal) ∧ (b = true → s.active = false → exec i s = .next s) := by
  have breach {roles : Bool} (h : some roles = some b) (hb : b = false) : ¬roles = true := by
    rw [Option.some.inj h, hb]
    exact Bool.false_ne_true
  have idle (ha : s.active = false) : ¬s.active = true := Bool.eq_false_iff.mp ha
  cases i with
  | vaddF32 | vsubF32 | vmulF32 | vminF32 | vmaxF32 | vaddBf16 | vsubBf16 | vmulBf16 | vminBf16 | vmaxBf16 | vaddF16 | vsubF16
  | vmulF16 | vminF16 | vmaxF16 | vdivF32 | vaddI32 | vsubI32 | vmulI32 | vminI32 | vmaxI32 | vaddI16 | vsubI16 | vaddI8 | vsubI8
  | vaddsI16 | vaddsI8 | vand | vor | vxor | vshl | vshr | vsar | vshuf | vrot | vzip | vunzip | vqntE4m3 | vqntE4m3Sr | vqntE5m2
  | vqntE5m2Sr | vqntI8 | vqntI8Sr | vdqntE4m3 | vdqntE5m2 | vdqntI8 | vsel | vfmaF32 | vfmaBf16 | vfmaF16 | vcmpltF32 | vcmpleF32
  | vcmpltBf16 | vcmpleBf16 | vcmpeqF32 | vcmpeqBf16 | vcmpeqI32 | vcmpltI32 | vsqrtF32 | vrsqrtF32 | vexp2F32 | vlog2F32 | vreluF32
  | vreluBf16 | vmov | vamaxF32 | vamaxBf16 | vrsumF32 | vmpoolF32 | vmpoolBf16 | vcvtF32Bf16 | vcvtF32F16 | vcvtF32E4m3 | vcvtF32E5m2
  | vcvtBf16F32 | vcvtF16F32 | vcvtI32F32 | vcvtF32I32 | vcvtI8F32 | vcvtE4m3F32 | vcvtE5m2F32 | vcvtE4m3Bf16 | vrelubF32 | vrelubBf16
  | vmpoolbF32 | vmpoolbBf16 | vgelubF32 | vgelubBf16 | vdropbF32 | vdropbBf16 | vsmaxbF32 | vsmaxbBf16 | vlnormbF32 | vlnormbBf16
  | vxmov | vdec | vlfrd | vlfwr =>
    exact ⟨fun hb => if_neg (breach h hb), fun hb ha => (if_pos ((Option.some.inj h).trans hb)).trans (if_neg (idle ha))⟩
  | _ => exact (nomatch h)

end Sys2Proof.Machine

open Sys2Proof Sys2Proof.Machine in
/-- Settles O24: each is the shared form `vCmp` with its comparison. -/
theorem vectorCompares : Obligations.VectorCompares := by
  intro s s1 s2 i ty cond a b x y m c as bv h active ha hb readA readB depth
  cases i with
  | vcmpltF32 | vcmpleF32 | vcmpltBf16 | vcmpleBf16 | vcmpeqF32 | vcmpeqBf16 =>
    cases h
    exact vCmp_pushes (by exact rfl) active (fun _ _ _ _ => rfl) ha hb readA readB depth
  | vcmpltI32 =>
    cases h
    exact vCmp_pushes (ty := .int 32) (cond := fun u v => decide (sgn 32 u < sgn 32 v)) (g := fun u v => decide (sgn 32 u < sgn 32 v))
      (by exact rfl) active (fun _ _ _ _ => rfl) ha hb readA readB depth
  | vcmpeqI32 =>
    cases h
    exact vCmp_pushes (ty := .int 32) (cond := fun u v => decide (u = v)) (g := fun u v => decide (sgn 32 u = sgn 32 v)) (by exact rfl)
      active sgn_inj_32 ha hb readA readB depth
  | _ => exact (nomatch h)

open Sys2Proof Sys2Proof.Machine in
/-- Settles O25: the roles are checked before the guard. -/
theorem vectorRolesAndGuards : Obligations.VectorRolesAndGuards := fun s i =>
  ⟨fun h => (exec_v_roles s i false h).1 rfl, fun h => (exec_v_roles s i true h).2 rfl⟩
end

section
/-! SUPPORT. VXMOV, VLFWR and VDEC (R267 to R269). -/

namespace Sys2Proof.Machine

/-- Entries of a vector written where a condition holds. -/
theorem vget_foldl_vset {α : Type} [Inhabited α] {n : Nat} (on : Nat → Bool) (g : Nat → α) (l : List Nat) (k : Nat) (hk : k < n) :
    ∀ v : Vector α n, vget (l.foldl (fun v i => if on i then vset v i (g i) else v) v) k
      = if k ∈ l ∧ on k = true then g k else vget v k := by
  induction l with
  | nil => intro v; simp
  | cons i l ih =>
    intro v
    rw [List.foldl_cons, ih]
    by_cases later : k ∈ l ∧ on k = true
    · rw [if_pos later, if_pos ⟨List.mem_cons_of_mem i later.1, later.2⟩]
    · rw [if_neg later]
      by_cases here : k = i ∧ on k = true
      · obtain ⟨rfl, hon⟩ := here
        rw [if_pos hon, vget_vset_self _ _ _ hk, if_pos ⟨List.mem_cons_self, hon⟩]
      · have nowhere : ¬(k ∈ i :: l ∧ on k = true) := fun h =>
          (List.mem_cons.mp h.1).elim (fun e => here ⟨e, h.2⟩) fun e => later ⟨e, h.2⟩
        rw [if_neg nowhere]
        by_cases hon : on i = true
        · rw [if_pos hon]
          exact vget_vset_ne _ _ _ _ fun e => here ⟨e.symm, e ▸ hon⟩
        · rw [if_neg hon]

theorem vget_foldl_vset_lanes {α : Type} [Inhabited α] (on : Nat → Bool) (g : Nat → α) (v : Vector α 64) (k : Nat) (hk : k < 64) :
    vget ((List.range 64).foldl (fun v i => if on i then vset v i (g i) else v) v) k = if on k then g k else vget v k := by
  rw [vget_foldl_vset on g _ k hk]
  simp only [List.mem_range, hk, true_and]

/-- A queue of a cluster is no output port. -/
theorem outPort_of_ownQ (v1 : Bool) (q : BitVec 4) (h : ownQ v1 q = true) : outPort q = false := by
  unfold outPort
  rw [Bool.or_eq_false_iff, decide_eq_false_iff_not, decide_eq_false_iff_not]
  constructor <;> rintro rfl <;> cases v1 <;> exact absurd h (by decide)

/-- Lanes whose buffers hold 32 bits claim nothing of the port. -/
theorem foldl_vdecClaim_filled (q : Nat) (v : Vdec) (s : State) (lanes : List Nat) (full : ∀ l ∈ lanes, 32 ≤ (vget v.bufs l).len) :
    lanes.foldl (vdecClaim q) (v, s) = (v, s) := by
  induction lanes with
  | nil => rfl
  | cons l lanes ih =>
    rw [List.foldl_cons, show vdecClaim q (v, s) l = (v, s) from if_pos (full l List.mem_cons_self)]
    exact ih fun l hl => full l (List.mem_cons_of_mem _ hl)

theorem elem_zero (w e : Nat) : elem w 0 e = 0 := by
  unfold elem
  rw [show (0 : Vec).toNat = 0 from BitVec.toNat_zero, Nat.zero_shiftRight, Nat.zero_mod]

theorem vXmov_carries (s s1 : State) (a d : BitVec 4) (x : BitVec 1) (e : QEntry) (active : s.active = true) (own : ownQ s.v1 a = true)
    (other : ownQ (!s.v1) d = true) (reads : s.afterReads a (decide (x = 1)) 1 = some ([e], s1)) :
    vXmov d a x s = .next (s1.pushQ 2 d.toNat [⟨e.v, e.tag, none⟩]) := by
  refine (vRun_runs s _ _ (by rw [own, other]; rfl) active).trans ?_
  rw [State.readN_of_afterReads _ _ _ _ _ _ reads]
  dsimp only [State.vPushTagged]
  rw [outPort_of_ownQ _ d other]
  rfl

/-- The decoder of a port once its symbols are taken. -/
def State.withVdec (s : State) (p : Nat) (v : Vdec) : State :=
  { s with core := { s.core with vs := { s.core.vs with vdec := vset s.core.vs.vdec p v } } }

theorem vDec_decodes (s : State) (a d : BitVec 4) (m : BitVec 1) (active : s.active = true) (port : inPort a = true)
    (out : s.vOut d = true) (opened : outPort d = true → (vget s.core.vs.ag (d.toNat - 12)).walking = true)
    (full : ∀ k, k < 64 → (s.vLanes m).getLsbD k = true → 32 ≤ (vget (vget s.core.vs.vdec (a.toNat - 12)).bufs k).len) :
    ∃ (v : Vec) (fl : BitVec 7) (bs : Vector VBuf 64),
      vDec d a m s = .next (({ s.withVdec (a.toNat - 12) ⟨bs, (vget s.core.vs.vdec (a.toNat - 12)).next⟩ with
        iss := { s.iss with flg := s.iss.flg ||| fl } } : State).pushQ 6 d.toNat [⟨v, 0, none⟩])
      ∧ ∀ k, k < 64 →
        let b := vget (vget s.core.vs.vdec (a.toNat - 12)).bufs k
        (elem 32 v k = if (s.vLanes m).getLsbD k then b.symbol.1 % 2 ^ 32 else 0)
          ∧ vget bs k = if (s.vLanes m).getLsbD k then b.symbol.2.2 else b := by
  generalize hv : vget s.core.vs.vdec (a.toNat - 12) = v at full
  let sym (k : Nat) : Nat × Bool × VBuf := ((List.range 64).map fun l => (vget v.bufs l).symbol).getD k (0, false, default)
  have sym_eq (k : Nat) (hk : k < 64) : sym k = (vget v.bufs k).symbol := by
    dsimp only [sym]
    rw [List.getD_eq_getElem?_getD, List.getElem?_map, List.getElem?_range hk]
    rfl
  let bs := (List.range 64).foldl (fun bs l => if bit (s.vLanes m) l then vset bs l (sym l).2.2 else bs) v.bufs
  let r : VRun := ⟨s.withVdec (a.toNat - 12) ⟨bs, v.next⟩, s.vLanes m, 0, 32, 1, 6, d, false, fun i _ => ((sym i).1, flIf (sym i).2.1 flNV)⟩
  obtain ⟨vs, fl, elements, length, values, -⟩ := State.elements_run r (.inr (.inr rfl))
  obtain ⟨w, rfl⟩ := List.length_eq_one_iff.mp length
  refine ⟨w, fl, bs, ?_, fun k hk => ⟨?_, ?_⟩⟩
  · refine (vRun_runs s _ _ (by rw [port, out]; rfl) active).trans ?_
    dsimp only
    rw [hv, foldl_vdecClaim_filled _ _ _ ((List.range 64).filter fun l => bit (s.vLanes m) l) fun l hl =>
      full l (List.mem_range.mp (List.mem_filter.mp hl).1) (List.mem_filter.mp hl).2]
    dsimp only
    rw [List.foldl_filter]
    have opened : (!outPort d || (vget s.core.vs.ag (d.toNat - 12)).walking) = true := by
      cases hd : outPort d with
      | false => rfl
      | true => exact opened hd
    refine (congrArg (fun e : List Vec × State => Host.Outcome.next (e.2.vPush 6 d e.1)) elements).trans ?_
    exact congrArg Host.Outcome.next (State.vPush_open _ 6 d [w] opened)
  · have per : r.per = 64 := by
      change 2048 / 32 = 64
      rfl
    have value := values k (by rw [per]; exact Nat.lt_of_lt_of_eq hk (Nat.one_mul 64).symm)
    have lane : r.lane k = k := by
      change k % (2048 / 32) * 32 / 32 = k
      omega
    rw [per, Nat.div_eq_of_lt hk, Nat.mod_eq_of_lt hk] at value
    refine value.trans ?_
    unfold VRun.on
    rw [lane]
    dsimp only [r]
    rw [sym_eq k hk]
    split
    · rfl
    · exact elem_zero 32 k
  · rw [show vget bs k = _ from vget_foldl_vset_lanes _ _ _ k hk, sym_eq k hk]
    rfl

theorem vLfwr_writes (s s1 : State) (a : BitVec 4) (x m : BitVec 1) (v : Vec) (active : s.active = true) (may : s.vIn a = true)
    (reads : s.plainReads a (decide (x = 1)) 1 = some ([v], s1)) :
    exec (.vlfwr a x m) s = .next { s1 with iss := { s1.iss with
      lfs := (List.range 64).foldl (fun l i => if bit (s.vLanes m) i then vset l i (BitVec.ofNat 32 (elem 32 v i)) else l) s1.iss.lfs } } := by
  change vLfwr a x m s = _
  refine (vRun_runs s _ _ may active).trans ?_
  rw [s.opA_of_plainReads s1 a x 1 [v] reads]
  rfl

end Sys2Proof.Machine

open Sys2Proof Sys2Proof.Machine in
/-- Settles O26: the entry read is pushed with its tag, the LFSRs and the decoder's buffers are folds over the lanes. -/
theorem vectorMovesAndDecode : Obligations.VectorMovesAndDecode := by
  intro s s1 a d x m active
  refine ⟨fun e own other reads => vXmov_carries s s1 a d x e active own other reads, fun v may reads => ?_,
    fun port out opened full => vDec_decodes s a d m active port out opened full⟩
  obtain ⟨qs, ps, rfl⟩ := State.plainReads_onlyReads reads
  exact ⟨_, vLfwr_writes s _ a x m v active may reads, fun k hk => vget_foldl_vset_lanes _ _ _ k hk⟩
end

section
/-! SUPPORT. The direct forms of the C slots (R206, R294 to R301) where nothing stops them: the port, poison and tags of a local access,
and the checks of a form that leaves the core. -/

namespace Sys2Proof.Machine

/-! ### Issue (R193, R205, R206) -/

theorem filter_pending_nil (s : State) (x y : BitVec 4) (z : BitVec 3) (h : s.tokensDone x y z = true) :
    ((consumed x y z).filter fun t => s.core.pending t) = [] :=
  List.filter_eq_nil_iff.mpr fun t ht => by simpa using List.all_eq_true.mp h t ht

theorem State.follows_eq (s : State) (x y : BitVec 4) (z : BitVec 3) :
    ∃ b, s.follows x y z = { s with iss := { s.iss with synced := b } } := by
  unfold State.follows
  split
  · exact ⟨s.iss.synced, rfl⟩
  · exact ⟨true, rfl⟩

/-- A direct form whose tokens are DONE runs, after what its tokens' commands did. -/
theorem directForm_runs {s t : State} {n : BitVec 2} {x y : BitVec 4} {w : BitVec 1} {z : BitVec 3} {body : Shape → State → State}
    (active : s.active = true) (tokens : s.tokensDone x y z = true) (h : body (s.ksh n) (s.follows x y z) = t) :
    directForm n x y w z body s = .next (t.swapK n w) := by
  unfold directForm
  rw [if_pos active, filter_pending_nil s x y z tokens, ← h]
  have shape : (s.follows x y z).ksh n = s.ksh n := by
    obtain ⟨b, e⟩ := s.follows_eq x y z
    rw [e]
    rfl
  rw [← shape]
  rfl

theorem State.cChecks_pass (s : State) (illegal enc : Bool) (aligns : List (Nat × Nat)) (hi : illegal = false) (he : enc = false)
    (ha : ∀ p ∈ aligns, p.1 % p.2 = 0) : s.cChecks illegal enc aligns = s := by
  unfold State.cChecks
  rw [hi, he, List.find?_eq_none.mpr fun p hp => by simp [ha p hp]]
  rfl

theorem State.canonCheck_pass (s : State) (a : Word) (h : a.toNat < 2 ^ 57) : s.canonCheck a = s := by
  refine if_neg (not_not_intro ?_)
  unfold bits
  rw [Nat.shiftRight_eq_div_pow, Nat.div_eq_of_lt h, Nat.zero_mod]

/-! ### The core port (R103, R298) -/

/-- The parts of an access within one row are in that row of their banks. -/
theorem portRows_row (a n : Nat) (h : a % 256 + n ≤ 256) (p : Nat × Nat) (hp : p ∈ portRows a n) : p.1 < 8 ∧ p.2 = rowOf a := by
  obtain ⟨⟨x, m⟩, hx, rfl⟩ := List.mem_map.mp hp
  obtain ⟨low, high, -, -⟩ := (mem_partsOf a n _).mp hx
  unfold bankOf rowOf
  dsimp only at low high ⊢
  omega

/-- Cycles of one row claimed of banks that are free do not meet one another. -/
theorem State.foldl_usePort (inCycles row : Nat) (hr : row < 1024) (l : List (Nat × Nat)) : ∀ s : State, (∀ p ∈ l, p.2 = row) →
    (l.all fun p => !(vget s.core.sp.bank p.1).sw && decide ((vget s.core.sp.bank p.1).mode ≠ 1)
      && !s.iss.uses.any fun u => portMeets u inCycles p.1 p.2) = true →
    l.foldl (fun s p => s.usePort inCycles p.1 p.2) s = { s with iss := { s.iss with
      uses := s.iss.uses ++ l.map fun p => ⟨inCycles, BitVec.ofNat 3 p.1, BitVec.ofNat 10 p.2, false⟩ } } := by
  induction l with
  | nil =>
    intro s _ _
    rw [List.map_nil, List.append_nil]
    rfl
  | cons p l ih =>
    intro s rows free
    obtain ⟨here, later⟩ := (Bool.and_eq_true ..).mp free
    have taken : s.usePort inCycles p.1 p.2 = { s with iss := { s.iss with
        uses := s.iss.uses ++ [⟨inCycles, BitVec.ofNat 3 p.1, BitVec.ofNat 10 p.2, false⟩] } } := by
      refine if_neg ?_
      simp only [Bool.and_eq_true, Bool.not_eq_true', decide_eq_true_eq] at here
      obtain ⟨⟨still, fixed⟩, unused⟩ := here
      rw [still, decide_eq_false fixed, unused]
      exact Bool.false_ne_true
    have apart (q : Nat × Nat) (hq : q ∈ l) :
        portMeets ⟨inCycles, BitVec.ofNat 3 p.1, BitVec.ofNat 10 p.2, false⟩ inCycles q.1 q.2 = false := by
      have same : (BitVec.ofNat 10 p.2).toNat = q.2 := by
        rw [rows p List.mem_cons_self, rows q (List.mem_cons_of_mem p hq), BitVec.toNat_ofNat, Nat.mod_eq_of_lt hr]
      simp [portMeets, same]
    rw [List.foldl_cons, taken]
    refine (ih _ (fun q hq => rows q (List.mem_cons_of_mem p hq)) (List.all_eq_true.mpr fun q hq => ?_)).trans ?_
    · dsimp only
      rw [List.any_append, List.any_cons, apart q hq, List.any_nil, Bool.or_self, Bool.or_false]
      exact List.all_eq_true.mp later q hq
    · simp only [List.map_cons, List.append_assoc, List.singleton_append]

/-- The port cycles of an access within one row, where they are free. -/
theorem State.usePorts_of_free (s : State) (inCycles a n : Nat) (h : a % 256 + n ≤ 256) (free : s.portsFree inCycles a n = true) :
    s.usePorts inCycles a n = s.claimPorts inCycles a n :=
  State.foldl_usePort inCycles (rowOf a) (Nat.mod_lt _ (by decide)) _ s (fun p hp => (portRows_row a n h p hp).2) free

/-- An access of a power of two bytes, up to 256, at a multiple of its length lies within one row. -/
theorem row_fits (a k : Nat) (hk : k ≤ 5) (h : a % (8 * 2 ^ k) = 0) : a % 256 + 8 * 2 ^ k ≤ 256 := by
  obtain rfl | rfl | rfl | rfl | rfl | rfl : k = 0 ∨ k = 1 ∨ k = 2 ∨ k = 3 ∨ k = 4 ∨ k = 5 := by omega
  all_goals omega

/-! ### Local reads and stores (R105, R131, R298, R362) -/

theorem State.loadWaits_of_filled (s : State) (a n : Nat) (h : s.fifoFilled a n = true) : s.core.loadWaits a n = false := by
  unfold Core.loadWaits
  rw [List.any_eq_false]
  intro p hp
  have filled := List.all_eq_true.mp h p hp
  simp only [Bool.or_eq_true, decide_eq_true_eq] at filled
  simp only [Core.fifoEmpty, Bool.and_eq_true, decide_eq_true_eq]
  exact fun e => filled.elim (· e.1) (· e.2)

theorem keptCheck_carried (kt : Vector (BitVec 32) 16) (p : Presented) (ts : List Byte) (t : Byte) (carry : p.carry = true)
    (agreed : ∀ x ∈ ts, x = t) : (keptCheck kt p ts).passes = true := by
  unfold keptCheck
  cases hf : ts.find? tagV with
  | none => rfl
  | some u =>
    have hu := agreed u (List.mem_of_find?_eq_some hf)
    dsimp only
    rw [if_neg, if_pos carry]
    · rfl
    · rw [Bool.not_eq_true, List.any_eq_false]
      exact fun x hx => by simp [agreed x hx, hu]

/-- A core-port read that nothing stops. -/
theorem State.spLoad_of_mayRead (s : State) (carry : Bool) (a n : Nat) (row : a % 256 + n ≤ 256) (h : s.mayRead carry a n = true) :
    s.spLoad carry a n = ((s.core.sp.read a n).1, s.afterLoad a n) := by
  unfold State.mayRead at h
  simp only [Bool.and_eq_true] at h
  obtain ⟨⟨⟨ports, filled⟩, clean⟩, tags⟩ := h
  have passes : (keptCheck s.ctx.kt (if carry then Presented.carrying else Presented.none) (s.core.sp.read a n).1.tags).passes = true := by
    rcases (Bool.or_eq_true ..).mp tags with plain | agreed
    · rw [keptCheck_untagged]
      · rfl
      · exact fun t ht => by simpa using List.all_eq_true.mp plain t ht
    · obtain ⟨carries, agreed⟩ := (Bool.and_eq_true ..).mp agreed
      exact keptCheck_carried _ _ _ _ (by rw [carries]; rfl) fun t ht => of_decide_eq_true (List.all_eq_true.mp agreed t ht)
  have checks (u : State) (hu : u.ctx.kt = s.ctx.kt) : u.spChecks carry a n (s.core.sp.read a n).1 = u := by
    unfold State.spChecks
    rw [Option.isNone_iff_eq_none.mp clean, hu]
    dsimp only
    revert passes
    cases keptCheck s.ctx.kt (if carry then Presented.carrying else Presented.none) (s.core.sp.read a n).1.tags with
    | fault cause t => exact nofun
    | untagged => exact fun _ => rfl
    | carried t => exact fun _ => rfl
    | served e t => exact fun _ => rfl
  unfold State.spLoad
  dsimp only
  rw [s.usePorts_of_free 0 a n row ports]
  rw [show (s.claimPorts 0 a n).core = s.core from rfl, s.loadWaits_of_filled a n filled, if_neg Bool.false_ne_true]
  exact congrArg (Prod.mk _) (checks _ rfl)

/-- A core-port store that nothing stops. -/
theorem State.spStoreIssue_of_mayStore (s : State) (a : Nat) (bs : List Byte) (row : a % 256 + bs.length ≤ 256)
    (h : s.mayStore 2 a bs.length = true) : s.spStoreIssue a bs = (s.claimPorts 2 a bs.length).result 3 (.spWrite a bs) := by
  obtain ⟨ports, clean⟩ := (Bool.and_eq_true ..).mp h
  unfold State.spStoreIssue
  rw [s.usePorts_of_free 2 a _ row ports, (s.claimPorts 2 a bs.length).storePoison_of_clean _ _ clean]

/-- An untagged entry popped by a store. -/
theorem State.popStore_of_plainReads (s s1 : State) (q : Nat) (hq : q < 16) (v : Vec)
    (h : s.plainReads (BitVec.ofNat 4 q) false 1 = some ([v], s1)) : s.popStore q = (bvBytes v, s1) := by
  obtain ⟨es, reads, values, plain⟩ := s.plainReads_eq s1 _ false 1 [v] h
  rw [BitVec.toNat_ofNat, Nat.mod_eq_of_lt hq] at reads
  have taken : ([(s.takeQ q false).1], (s.takeQ q false).2) = (es, s1) := reads
  unfold State.popStore
  dsimp only
  generalize s.takeQ q false = r at taken
  obtain ⟨rfl, rfl⟩ := Prod.mk.inj taken
  rw [List.any_cons, List.any_nil, Bool.or_false] at plain
  rw [plain, if_neg Bool.false_ne_true, ← List.head_eq_of_cons_eq values]

/-- Following commands changes nothing that a form reads. -/
theorem State.follows_same (s : State) (x y : BitVec 4) (z : BitVec 3) :
    (s.follows x y z).core = s.core ∧ (∀ c a n, (s.follows x y z).mayRead c a n = s.mayRead c a n)
      ∧ (∀ t a n, (s.follows x y z).mayStore t a n = s.mayStore t a n)
      ∧ (∀ a n t b m, ((s.follows x y z).afterLoad a n).mayStore t b m = (s.afterLoad a n).mayStore t b m)
      ∧ ∀ c n, (s.follows x y z).intact c n = s.intact c n := by
  obtain ⟨b, e⟩ := s.follows_eq x y z
  rw [e]
  exact ⟨rfl, fun _ _ _ => rfl, fun _ _ _ => rfl, fun _ _ _ _ _ => rfl, fun _ _ => rfl⟩

theorem State.usePorts_storePoison (s : State) (inCycles a n : Nat) (row : a % 256 + n ≤ 256) (h : s.mayStore inCycles a n = true) :
    (s.usePorts inCycles a n).storePoison a n = s.claimPorts inCycles a n := by
  obtain ⟨ports, clean⟩ := (Bool.and_eq_true ..).mp h
  rw [s.usePorts_of_free inCycles a _ row ports]
  exact (s.claimPorts inCycles a n).storePoison_of_clean _ _ clean

theorem row_of_256 {a : Nat} (h : a % 256 = 0) : a % 256 + 256 ≤ 256 := by omega

/-- The queue numbers of a queue form fit a queue's four bits. -/
theorem qOf_lt (sh : Shape) : qOf sh < 16 := Nat.mod_lt _ (by decide)

/-- Checks of a queue form that leaves the core. -/
theorem State.farChecks (s : State) (space : Space) (sh : Shape) (h : s.farOk space sh = true) :
    (if space = .window then s.cChecks (decide (11 < qOf sh)) (lvBad sh) [((s.farA space sh).toNat, if space = .window then 256 else 128)]
      else (s.cChecks (decide (11 < qOf sh)) (lvBad sh)
        [((s.farA space sh).toNat, if space = .window then 256 else 128)]).canonCheck (s.farA space sh)) = s := by
  unfold State.farOk at h
  simp only [Bool.and_eq_true, decide_eq_true_eq, Bool.not_eq_true'] at h
  obtain ⟨⟨queue, level⟩, place⟩ := h
  have checks (k : Nat) (hk : (s.farA space sh).toNat % k = 0) :
      s.cChecks (decide (11 < qOf sh)) (lvBad sh) [((s.farA space sh).toNat, k)] = s :=
    s.cChecks_pass _ _ _ (decide_eq_false (Nat.not_lt.mpr queue)) level fun p hp => by rw [List.mem_singleton.mp hp]; exact hk
  by_cases window : space = .window
  · rw [if_pos window] at place
    rw [if_pos window, if_pos window]
    exact checks 256 (of_decide_eq_true place)
  · rw [if_neg window] at place
    rw [if_neg window, if_neg window]
    obtain ⟨line, canonical⟩ := (Bool.and_eq_true ..).mp place
    rw [checks 128 (of_decide_eq_true line)]
    exact s.canonCheck_pass _ (of_decide_eq_true canonical)

theorem loadQBody_sends (s : State) (space : Space) (carry : Bool) (q : BitVec 2) (sh : Shape) (h : s.farOk space sh = true) :
    loadQBody space carry q sh s = (((s.sendAccess q space false carry (s.farA space sh) 256 []).2.notePush (qOf sh) 1).result
      (dueOf sh) (.loadQ (BitVec.ofNat 4 (qOf sh)) s.core.pipes.nextId)) := by
  have checks := s.farChecks space sh h
  unfold State.farA at checks
  unfold loadQBody
  dsimp only
  rw [checks]
  rfl

theorem storeQBody_sends (s s1 : State) (space : Space) (q : BitVec 2) (sh : Shape) (v : Vec) (h : s.farOk space sh = true)
    (reads : s.plainReads (BitVec.ofNat 4 (qOf sh)) false 1 = some ([v], s1)) :
    storeQBody space q sh s = (s1.sendAccess q space true false (s.farA space sh) 256 (bvBytes v)).2.result (dueOf sh)
      (.stored s1.core.pipes.nextId) := by
  have checks := s.farChecks space sh h
  unfold State.farA at checks
  unfold storeQBody
  dsimp only
  rw [checks, s.popStore_of_plainReads s1 _ (qOf_lt sh) v reads]
  rfl

theorem length_natToBytes (n : Nat) : ∀ x, (natToBytes n x).length = n := by
  induction n with
  | zero => exact fun _ => rfl
  | succ n ih => exact fun x => congrArg (· + 1) (ih _)

theorem szxBad_of_le (sh : Shape) (level : lvBad sh = false) (size : fld sh 143 141 ≤ 5) :
    (lvBad sh || decide (6 ≤ fld sh 143 141)) = false := by
  rw [level, decide_eq_false (Nat.not_le.mpr (Nat.lt_succ_of_le size))]
  rfl

theorem sizeBad_of_zero (sh : Shape) (level : lvBad sh = false) (size : fld sh 143 141 = 0) :
    (lvBad sh || decide (fld sh 143 141 ≠ 0)) = false := by
  rw [level, decide_eq_false (not_not_intro size)]
  rfl

theorem aligned_one {a k : Nat} (h : a % k = 0) : ∀ p ∈ [(a, k)], p.1 % p.2 = 0 := by
  intro p hp
  rw [List.mem_singleton.mp hp]
  exact h

theorem aligned_two {a b k : Nat} (ha : a % k = 0) (hb : b % k = 0) : ∀ p ∈ [(a, k), (b, k)], p.1 % p.2 = 0 := by
  intro p hp
  rcases List.mem_cons.mp hp with rfl | hp
  · exact ha
  · exact aligned_one hb p hp

theorem ldsBody_loads (s : State) (carry : Bool) (sh : Shape) (level : lvBad sh = false) (queue : qOf sh ≤ 11)
    (line : s.localA sh % 256 = 0) (may : s.mayRead carry (s.localA sh) 256 = true) :
    ldsBody carry sh s = (s.afterLoad (s.localA sh) 256).pushQ 6 (qOf sh) [⟨vecOfBytes (s.core.sp.read (s.localA sh) 256).1.bytes,
      if carry then agreedTag (s.core.sp.read (s.localA sh) 256).1.tags else 0, none⟩] := by
  have load := s.spLoad_of_mayRead carry (s.localA sh) 256 (row_of_256 line) may
  have checks := s.cChecks_pass (decide (11 < qOf sh)) (lvBad sh) _ (decide_eq_false (Nat.not_lt.mpr queue)) level (aligned_one line)
  unfold State.localA at checks load ⊢
  unfold ldsBody
  dsimp only
  rw [checks, load]

theorem ldsxBody_copies (s : State) (sh : Shape) (level : lvBad sh = false) (size : fld sh 143 141 ≤ 5)
    (from_ : s.localA sh % szxOf sh = 0) (to_ : fld sh 179 160 % s.core.spSize % szxOf sh = 0)
    (may : s.mayRead false (s.localA sh) (szxOf sh) = true)
    (room : (s.afterLoad (s.localA sh) (szxOf sh)).mayStore 5 (fld sh 179 160 % s.core.spSize) (szxOf sh) = true) :
    ldsxBody sh s = ((s.afterLoad (s.localA sh) (szxOf sh)).claimPorts 5 (fld sh 179 160 % s.core.spSize) (szxOf sh)).result 6
      (.spWrite (fld sh 179 160 % s.core.spSize) (s.core.sp.read (s.localA sh) (szxOf sh)).1.bytes) := by
  have load := s.spLoad_of_mayRead false (s.localA sh) (szxOf sh) (row_fits _ _ size from_) may
  have store := (s.afterLoad (s.localA sh) (szxOf sh)).usePorts_storePoison 5 _ _ (row_fits _ _ size to_) room
  have checks := s.cChecks_pass false (lvBad sh || decide (6 ≤ fld sh 143 141)) _ rfl (szxBad_of_le sh level size) (aligned_two from_ to_)
  rw [show 8 * 2 ^ fld sh 143 141 = szxOf sh from rfl] at store
  unfold State.localA at checks load store ⊢
  unfold ldsxBody
  dsimp only
  rw [checks, load, store]

theorem stsBody_stores (s s1 : State) (sh : Shape) (v : Vec) (level : lvBad sh = false) (queue : qOf sh ≤ 11)
    (line : s.localA sh % 256 = 0) (reads : s.plainReads (BitVec.ofNat 4 (qOf sh)) false 1 = some ([v], s1))
    (may : s1.mayStore 2 (s.localA sh) 256 = true) :
    stsBody sh s = (s1.claimPorts 2 (s.localA sh) 256).result 3 (.spWrite (s.localA sh) (bvBytes v)) := by
  have len : (bvBytes v).length = 256 := length_natToBytes _ _
  have store := s1.spStoreIssue_of_mayStore (s.localA sh) (bvBytes v) (by rw [len]; exact row_of_256 line) (by rw [len]; exact may)
  rw [len] at store
  have checks := s.cChecks_pass (decide (11 < qOf sh)) (lvBad sh) _ (decide_eq_false (Nat.not_lt.mpr queue)) level (aligned_one line)
  unfold State.localA at checks store ⊢
  unfold stsBody
  dsimp only
  rw [checks, s.popStore_of_plainReads s1 _ (qOf_lt sh) v reads]
  exact store

theorem stsxBody_stores (s : State) (sh : Shape) (level : lvBad sh = false) (size : fld sh 143 141 = 0)
    (line : s.localA sh % 8 = 0) (may : s.mayStore 2 (s.localA sh) 8 = true) (whole : s.intact 1 (fld sh 148 144) = true) :
    stsxBody sh s = (s.claimPorts 2 (s.localA sh) 8).result 3 (.spWrite (s.localA sh) (s.sregBytes sh)) := by
  have len : (s.sregBytes sh).length = 8 := length_natToBytes _ _
  have store := s.spStoreIssue_of_mayStore (s.localA sh) (s.sregBytes sh) (by rw [len]; exact row_fits _ 0 (Nat.zero_le _) line)
    (by rw [len]; exact may)
  rw [len] at store
  have checks := s.cChecks_pass false (lvBad sh || decide (fld sh 143 141 ≠ 0)) _ rfl (sizeBad_of_zero sh level size) (aligned_one line)
  unfold State.localA at checks store ⊢
  unfold stsxBody State.sregRead
  dsimp only
  rw [checks, s.coreRead_of_intact _ _ whole]
  exact store

theorem ldgxBody_sends (s : State) (q : BitVec 2) (sh : Shape) (level : lvBad sh = false) (canonical : (s.core.addrA sh).toNat < 2 ^ 57)
    (size : fld sh 143 141 ≤ 5) (from_ : (s.core.addrA sh).toNat % szxOf sh = 0)
    (to_ : fld sh 179 160 % s.core.spSize % szxOf sh = 0)
    (room : s.mayStore (dueOf sh - 1) (fld sh 179 160 % s.core.spSize) (szxOf sh) = true) :
    ldgxBody q sh s = ((s.claimPorts (dueOf sh - 1) (fld sh 179 160 % s.core.spSize) (szxOf sh)).sendAccess q .global false false
      (s.core.addrA sh) (szxOf sh) []).2.result (dueOf sh) (.loadX (fld sh 179 160 % s.core.spSize) s.core.pipes.nextId) := by
  have store := s.usePorts_storePoison (dueOf sh - 1) _ _ (row_fits _ _ size to_) room
  unfold ldgxBody
  dsimp only
  rw [s.cChecks_pass _ _ _ rfl (szxBad_of_le sh level size) (aligned_two from_ to_), s.canonCheck_pass _ canonical]
  rw [show 8 * 2 ^ fld sh 143 141 = szxOf sh from rfl] at store
  rw [store]
  rfl

theorem stgxBody_sends (s : State) (q : BitVec 2) (sh : Shape) (level : lvBad sh = false) (canonical : (s.core.addrA sh).toNat < 2 ^ 57)
    (size : fld sh 143 141 = 0) (line : (s.core.addrA sh).toNat % 8 = 0) (whole : s.intact 1 (fld sh 148 144) = true) :
    stgxBody q sh s = (s.sendAccess q .global true false (s.core.addrA sh) 8 (s.sregBytes sh)).2.result (dueOf sh)
      (.stored s.core.pipes.nextId) := by
  unfold stgxBody
  dsimp only
  rw [s.cChecks_pass _ _ _ rfl (sizeBad_of_zero sh level size) (aligned_one line), s.canonCheck_pass _ canonical]
  unfold State.sregRead
  rw [s.coreRead_of_intact _ _ whole]
  rfl

end Sys2Proof.Machine

open Sys2Proof Sys2Proof.Machine in
/-- Settles O27: the read by `State.spLoad_of_mayRead`, LDSX's copy by `State.usePorts_storePoison`. -/
theorem localLoads : Obligations.LocalLoads := by
  intro s n x y w z sh a u active tokens level
  obtain ⟨core, read, -, store, -⟩ := s.follows_same x y z
  have size : u.core.spSize = s.core.spSize := by rw [core]
  have place : u.localA sh = a := by unfold State.localA; rw [core]; rfl
  have loads (carry : Bool) (queue : qOf sh ≤ 11) (line : a % 256 = 0) (may : s.mayRead carry a 256 = true) :=
    ldsBody_loads u carry sh level queue (by rw [place]; exact line) (by rw [place]; exact (read ..).trans may)
  rw [place, core] at loads
  refine ⟨fun queue line may => directForm_runs active tokens (loads false queue line may),
    fun queue line may => directForm_runs active tokens (loads true queue line may), ?_⟩
  intro small len d from_ to_ may room
  have copies := ldsxBody_copies u sh level small (by rw [place]; exact from_) (by rw [size]; exact to_)
    (by rw [place]; exact (read ..).trans may) (by rw [place, size]; exact (store ..).trans room)
  rw [place, size, core] at copies
  exact directForm_runs active tokens copies

open Sys2Proof Sys2Proof.Machine in
/-- Settles O28: the store of what was popped, or of the register, by `State.spStoreIssue_of_mayStore`. -/
theorem localStores : Obligations.LocalStores := by
  intro s s1 n x y w z v sh a u active tokens level
  obtain ⟨core, -, store, -, intact⟩ := s.follows_same x y z
  have place : u.localA sh = a := by unfold State.localA; rw [core]; rfl
  refine ⟨fun queue line reads may => directForm_runs active tokens ?_, fun size line may whole => directForm_runs active tokens ?_⟩
  · rw [← place] at line may ⊢
    exact stsBody_stores u s1 sh v level queue line reads may
  · rw [← core]
    rw [← place] at line may ⊢
    exact stsxBody_stores u sh level size line ((store ..).trans may) ((intact ..).trans whole)

open Sys2Proof Sys2Proof.Machine in
/-- Settles O29: the bodies of the two queue forms after `State.farChecks`, for each form that leaves the core. -/
theorem farQueueForms : Obligations.FarQueueForms := by
  refine ⟨fun s i sp carry n q x y z w far active tokens ok => ?_, fun s s1 i sp n q x y z w v far active tokens ok reads => ?_⟩
  · obtain ⟨core, -⟩ := s.follows_same x y z
    have place : (s.follows x y z).farA sp (s.ksh n) = s.farA sp (s.ksh n) := by unfold State.farA; rw [core]
    have sends := loadQBody_sends (s.follows x y z) sp carry q (s.ksh n) (by unfold State.farOk at ok ⊢; rw [place]; exact ok)
    rw [place, core] at sends
    have runs := directForm_runs (w := w) active tokens sends
    cases i with
    | ldr | ldg | ldgk => cases far; exact runs
    | _ => exact nomatch far
  · obtain ⟨core, -⟩ := s.follows_same x y z
    have place : (s.follows x y z).farA sp (s.ksh n) = s.farA sp (s.ksh n) := by unfold State.farA; rw [core]
    have sends := storeQBody_sends (s.follows x y z) s1 sp q (s.ksh n) v (by unfold State.farOk at ok ⊢; rw [place]; exact ok) reads
    rw [place] at sends
    have runs := directForm_runs (w := w) active tokens sends
    cases i with
    | str | stg => cases far; exact runs
    | _ => exact nomatch far
end

section
/-! SUPPORT. The state after reset (R52 to R69, R161), and one schedule cycle of a core: its bundle, its faults and holds, and the entry
to a trap handler (R189 to R193, R231, R239 to R241, R333 to R338). -/

namespace Sys2Proof.Machine

/-! ### Reset -/

theorem vget_replicate {α : Type} [Inhabited α] (n i : Nat) (x : α) (h : i < n) : vget (Vector.replicate n x) i = x := by
  unfold vget
  rw [Vector.getElem?_eq_getElem h, Vector.getElem_replicate]
  rfl

theorem vget_ofFn {α : Type} [Inhabited α] {n : Nat} (f : Fin n → α) (i : Nat) (h : i < n) : vget (Vector.ofFn f) i = f ⟨i, h⟩ := by
  unfold vget
  rw [Vector.getElem?_eq_getElem h, Vector.getElem_ofFn]
  rfl

theorem vget_outside {α : Type} [Inhabited α] {n : Nat} (v : Vector α n) (i : Nat) (h : n ≤ i) : vget v i = default := by
  unfold vget
  rw [Vector.getElem?_eq_none h]
  rfl

/-- Every core is as its own reset leaves it. -/
theorem getCore_reset (k : CoreKey) : State.reset.getCore k = Core.reset k := by
  unfold State.getCore
  split
  · next h => rw [← h]; rfl
  · rfl

/-! ### Slots (R192, R193) -/

theorem slotClass_vector (n : Nat) (h : n = 1 ∨ n = 2 ∨ n = 3) : slotClass n = .v ∨ slotClass n = .m := by
  rcases h with rfl | rfl | rfl <;> decide

/-- A slot whose word decodes to an instruction. -/
theorem State.runSlot_instr (s : State) (n : Nat) (w : SlotWord) (i : Instr) (newt : (s.core.newt && newtIllegal n w) = false)
    (dec : decode (slotClass n) w = .instr i) :
    s.runSlot n w = exec i (State.readsCore { s with iss := { s.iss with slot := n, word := w } } i) := by
  unfold State.runSlot State.illegalHere
  dsimp only
  rw [newt, dec]
  rfl

theorem State.readsCore_of_intact (s : State) (i : Instr) (errs : s.core.errs = []) : s.readsCore i = s := by
  unfold State.readsCore
  rw [errs]
  rfl

/-! ### A cycle of a core (R45, R46, R189, R299) -/

theorem step_issue (s : State) (k : CoreKey) (rest : List Turn) (agenda : s.agenda = .issue k :: rest) :
    step s = ({ s with agenda := rest } : State).issueTurn k := by
  unfold step State.nextTurn
  rw [agenda]
  rfl

theorem Core.lateLoad_tablesReady (c : Core) : c.tablesReady.lateLoad = c.lateLoad := rfl

/-- A core that runs, with nothing late, issues its bundle. -/
theorem State.issueTurn_issues (s : State) (k : CoreKey) (running : (s.focus k).core.status = .running)
    (stop : (s.focus k).core.stop = none) (saves : (s.focus k).saveHolds = false)
    (late : (s.focus k).dueStores.core.landDue.dfFault = none) (load : (s.focus k).dueStores.core.landDue.lateLoad = false) :
    s.issueTurn k = (s.focus k).dueNow.issueBundle := by
  unfold State.issueTurn
  dsimp only
  rw [stop, saves, running]
  dsimp only
  rw [show (s.focus k).dueNow.core.dfFault = none from late]
  dsimp only
  rw [show (s.focus k).dueNow.core = (s.focus k).dueStores.core.landDue.tablesReady from rfl, Core.lateLoad_tablesReady, load]
  rfl

theorem State.issueBundle_runs (s u : State) (b : Bundle) (next : s.nextBundle = .ok (b, u)) :
    s.issueBundle = andThen (u.beginIssue.runSlots b)
      fun x => .next (({ u with core := u.core.keepBundle b x.iss } : State).finishIssue x) := by
  unfold State.issueBundle
  rw [next]

/-- No store is due where no due result is one. -/
theorem State.dueStores_none (s : State) (h : ∀ j ∈ s.core.pipes.inflight, j.rem = 0 → ∀ id, j.what ≠ .stored id) :
    s.dueStores = s := by
  have none : s.core.storesDue = [] := by
    unfold Core.storesDue
    rw [List.filterMap_eq_nil_iff]
    intro j hj
    obtain ⟨mem, due⟩ := List.mem_filter.mp hj
    rw [List.find?_eq_none]
    intro a _
    rw [decide_eq_false (h j mem (of_decide_eq_true due) a.id)]
    exact Bool.false_ne_true
  unfold State.dueStores
  rw [none]
  rfl

/-! ### Stops and holds (R58, R193, R231, R333) -/

/-- A core's stop at a record. -/
theorem State.stopCore_eq (s : State) (r : FaultRec) (h : r.ctx = s.core.ctx) : s.stopCore r = { s.recorded r with
    core := s.core.stoppedAt s.seq
    await := s.await ++ [⟨s.seq, s.core.ctx, .core s.core.key, r⟩] } := by
  unfold State.stopCore State.postStop State.recorded
  rw [← h]
  dsimp only
  split <;> rfl

theorem State.finishIssue_faults (base s : State) (f : SlotFault) (hold : s.iss.hold = none)
    (claim : (s.iss.claim && s.iss.overflow.isNone) = false) (first : firstFault s.iss.fault s.iss.overflow = some f) :
    base.finishIssue s = base.stopAt s.iss f := by
  unfold State.finishIssue
  dsimp only
  rw [hold]
  dsimp only
  rw [claim, first]
  rfl

/-- Among the queues that overflow, the one whose lowest pushing slot comes first. -/
theorem Issue.overflow_eq (i : Issue) (q : Nat) (hq : q < 16) (excess : i.over q = true)
    (least : ∀ r, r < 16 → i.over r = true → vget i.pushSlot q ≤ vget i.pushSlot r
      ∧ (r < q → vget i.pushSlot q < vget i.pushSlot r)) :
    i.overflow = some ⟨3, vget i.pushSlot q, 0x04, 0, false, BitVec.ofNat 64 q, 0⟩ := by
  have lowest (p : Nat) : (((List.range 16).filter i.over).all fun r => decide (vget i.pushSlot p ≤ vget i.pushSlot r)) = true
      ↔ ∀ r, r < 16 → i.over r = true → vget i.pushSlot p ≤ vget i.pushSlot r := by
    simp only [List.all_eq_true, List.mem_filter, List.mem_range, decide_eq_true_eq, and_imp]
  unfold Issue.overflow
  dsimp only
  rw [List.find?_filter, List.find?_range_eq_some.mpr ⟨?_, List.mem_range.mpr hq, fun r hr => ?_⟩]
  · rfl
  · rw [excess, (lowest q).mpr fun r hr ov => (least r hr ov).1]
    rfl
  · rw [Bool.not_eq_true', ← Bool.not_eq_true, decide_eq_true_eq, lowest]
    rintro ⟨ov, low⟩
    exact Nat.not_le.mpr ((least r (Nat.lt_trans hr hq) ov).2 hr) (low q hq excess)

end Sys2Proof.Machine

open Sys2Proof Sys2Proof.Machine in
/-- Settles O1: no memory lists anything. -/
theorem resetMemoryCanonical : Obligations.ResetMemoryCanonical := rfl

open Sys2Proof Sys2Proof.Machine in
/-- Settles O2: a core not yet touched is `Core.reset`, whose tables are constant but for the LFSRs. -/
theorem resetRegisters : Obligations.ResetRegisters := by
  refine ⟨fun k => ?_, fun f p hf hp => ?_⟩
  · rw [getCore_reset]
    refine ⟨fun r => ?_, fun p => ?_, fun n hn => vget_replicate 32 n 0 hn, fun t => ?_, rfl, rfl, fun l hl => vget_ofFn _ l hl,
      fun q hq => vget_replicate 16 q [] hq, fun b => ?_, fun a ha => vget_replicate 4 a 0 ha, fun _ => rfl, rfl, rfl⟩
    · unfold Core.rs
      split
      · rfl
      · exact vget_replicate 32 _ _ r.isLt
    · unfold Core.rp
      split
      · next h => exact (decide_eq_true h).symm
      · next h => exact (vget_replicate 8 _ _ p.isLt).trans (decide_eq_false h).symm
    · unfold Core.pending
      by_cases h : t < 16
      · rw [show vget (Core.reset k).regs.tok t = false from vget_replicate 16 t _ h, Bool.and_false]
      · rw [vget_outside _ _ (Nat.not_lt.mp h)]
        exact Bool.and_false _
    · cases b <;> rfl
  · rw [show vget State.reset.fens f = Fen.reset from vget_replicate 30 f _ hf]
    exact vget_replicate 4 p _ hp

open Sys2Proof Sys2Proof.Machine in
/-- Settles O5, by evaluation of each word. -/
theorem decodeWords : Obligations.DecodeWords :=
  ⟨rfl, rfl, rfl, rfl, rfl, rfl, rfl, rfl, rfl, rfl⟩

open Sys2Proof Sys2Proof.Machine in
/-- Settles O6: the turn at the agenda's head is the core's, whose cycle reaches the issue of its bundle. -/
theorem stepRunsBundle : Obligations.StepRunsBundle := by
  refine ⟨?_, fun s due => s.dueStores_none due, ?_⟩
  · intro s u k rest b agenda z v running stop saves late load next
    refine (step_issue s k rest agenda).trans ((State.issueTurn_issues _ k running stop saves late load).trans ?_)
    exact State.issueBundle_runs _ u b next
  · intro s n w i u newt dec
    refine ⟨s.runSlot_instr n w i newt dec, fun errs => ?_⟩
    rw [s.runSlot_instr n w i newt dec, State.readsCore_of_intact u i errs]

open Sys2Proof Sys2Proof.Machine in
/-- Settles O8: the slot's class and value decide its fate before anything else. -/
theorem reservedSlotFaults : Obligations.ReservedSlotFaults := by
  intro s n w u
  refine ⟨fun served => ⟨fun dec => ?_, fun dec => ?_⟩, fun newt nonzero slot => ?_⟩
  · unfold State.runSlot State.illegalHere
    dsimp only
    rw [served, dec]
    rfl
  · unfold State.runSlot State.illegalHere
    dsimp only
    rw [served, dec]
    rfl
  · have away : newtIllegal n w = true := by
      unfold newtIllegal
      rw [decide_eq_true nonzero, Bool.true_and]
      rcases slotClass_vector n slot with e | e <;> rw [e]
    unfold State.runSlot State.illegalHere
    dsimp only
    rw [newt, away]
    rfl

open Sys2Proof Sys2Proof.Machine in
/-- Settles O10: a fault stops the core by `State.stopCore_eq`, and of an overflow and another fault `firstFault` takes the earlier. -/
theorem faultStopsBeforeBundle : Obligations.FaultStopsBeforeBundle := by
  refine ⟨fun base s f hold claim overflow fault => ?_, ?_⟩
  · rw [base.finishIssue_faults s f hold (by rw [claim]; rfl) (by rw [fault, overflow]; rfl)]
    exact State.stopCore_eq { base with iss := Issue.reset } _ rfl
  · intro base s q full hq hold excess least
    have overflow := s.iss.overflow_eq q hq (decide_eq_true excess) fun r hr ov => least r hr (of_decide_eq_true ov)
    have claim : (s.iss.claim && s.iss.overflow.isNone) = false := by rw [overflow]; exact Bool.and_false _
    refine ⟨_, rfl, rfl, rfl, rfl, fun none => base.finishIssue_faults s _ hold claim (by rw [none, overflow]; rfl), fun g other => ⟨?_, ?_⟩⟩
    · intro first
      refine base.finishIssue_faults s _ hold claim ?_
      rw [other, overflow]
      exact if_pos (first.imp id fun h => ⟨h.1.symm, h.2⟩)
    · intro first
      refine base.finishIssue_faults s _ hold claim ?_
      rw [other, overflow]
      refine if_neg fun (later : 3 < g.rank ∨ (3 = g.rank ∧ vget s.iss.pushSlot q < g.slot)) => ?_
      have earlier : g.rank < 3 ∨ g.rank = 3 ∧ g.slot < vget s.iss.pushSlot q := first
      omega

open Sys2Proof Sys2Proof.Machine in
/-- Settles O16: both outcomes of `State.takeTrap`. -/
theorem trapEntryAndReturn : Obligations.TrapEntryAndReturn := by
  intro s code thnd
  refine ⟨fun free handler => ?_, ?_⟩
  · have enters : s.takeTrap code = { s with core := s.core.enterHandler thnd code } := by
      refine if_neg ?_
      rw [decide_eq_false handler, free]
      exact Bool.false_ne_true
    rw [enters]
    refine ⟨rfl, rfl, rfl, rfl, rfl, rfl, ?_⟩
    unfold Core.leaveHandler Core.enterHandler
    dsimp only
    rw [List.append_nil, List.append_nil, List.append_nil, ← free]
  · intro stops r
    have stop : s.takeTrap code = s.stopCore r := by
      refine if_pos ?_
      rcases stops with none | held
      · rw [show decide (s.ctx.thnd.extractLsb' 0 57 = 0) = true from decide_eq_true none, Bool.true_or]
      · rw [held, Bool.or_true]
    rw [stop]
    exact s.stopCore_eq r rfl
end

section
/-! SUPPORT. A bundle of one instruction: its zero slots do nothing, and the end of the bundle does not see which slot ran last
(R189, R191, R192). A bundle that holds issues again (R231, R334). -/

namespace Sys2Proof.Machine

/-! ### The end of a bundle reads neither the slot nor its word -/

/-- The bundle's record with another slot and word. -/
def Issue.at (i : Issue) (n : Nat) (w : SlotWord) : Issue := { i with slot := n, word := w }

/-- The state with the slot about to run. -/
def State.at (s : State) (n : Nat) (w : SlotWord) : State := { s with iss := s.iss.at n w }

/-- A change of the state that does not read the bundle's record. -/
def State.Blind (f : State → State) : Prop := ∀ u i, ∃ j, f { u with iss := i } = { f u with iss := j }

theorem State.Blind.ite {f g : State → State} (c : Bool) (hf : Blind f) (hg : Blind g) : Blind fun u => if c then f u else g u := by
  cases c
  · exact hg
  · exact hf

theorem State.Blind.iteOf {f g : State → State} (c : State → Bool) (hc : ∀ u i, c { u with iss := i } = c u) (hf : Blind f)
    (hg : Blind g) : Blind fun u => if c u then f u else g u := by
  intro u i
  dsimp only
  rw [hc]
  cases c u
  · exact hg u i
  · exact hf u i

theorem State.Blind.comp {f g : State → State} (hf : Blind f) (hg : Blind g) : Blind fun u => g (f u) := by
  intro u i
  obtain ⟨j, first⟩ := hf u i
  obtain ⟨k, second⟩ := hg (f u) j
  exact ⟨k, (congrArg g first).trans second⟩

theorem State.Blind.id : Blind id := fun _ i => ⟨i, rfl⟩

theorem State.blind_core (f : State → Core) (h : ∀ u i, f { u with iss := i } = f u) : Blind fun u => { u with core := f u } :=
  fun u i => ⟨i, congrArg (fun c => ({ u with iss := i, core := c } : State)) (h u i)⟩

theorem State.blind_postCend : Blind fun u => u.postCend u.core.ctx.toNat := by
  intro u i
  change ∃ j, State.postCend { u with iss := i } u.core.ctx.toNat = { u.postCend u.core.ctx.toNat with iss := j }
  generalize u.core.ctx.toNat = n
  unfold State.postCend
  dsimp only
  rw [show State.outstanding { u with iss := i } n = u.outstanding n from rfl]
  split <;> exact ⟨i, rfl⟩

/-- The conductor of the focus newt's context has ended. -/
def State.endConductor (s : State) : State :=
  (s.onFen s.core.fen fun x => { x with
    conductors := x.conductors.map fun d => if d.ctx = s.core.ctx then { d with state := .ended } else d }).onCtx s.core.ctx.toNat
      fun x => { x with ended := true }

theorem State.blind_endIssue : Blind State.endIssue := by
  have ends : Blind State.endConductor := fun _ i => ⟨i, rfl⟩
  have finishing := State.blind_core (fun u => { u.core with status := .finishing }) fun _ _ => rfl
  have conductor := State.Blind.iteOf (f := fun u => u) (fun u => !u.core.newt || !u.runsConductor) (fun _ _ => rfl)
    (fun _ i => ⟨i, rfl⟩) (ends.comp State.blind_postCend)
  exact finishing.comp conductor

theorem State.blind_stopCore (r : State → FaultRec) (h : ∀ u i, r { u with iss := i } = r u) : Blind fun u => u.stopCore (r u) := by
  intro u i
  dsimp only
  rw [h]
  generalize r u = r
  unfold State.stopCore State.postStop
  dsimp only
  rw [show State.dieFull { u with iss := i } r.die = u.dieFull r.die from rfl]
  split <;> exact ⟨i, rfl⟩

theorem State.blind_takeTrap (code : Byte) : Blind fun u => u.takeTrap code := by
  have stop := State.blind_stopCore (fun u => u.core.record 0 0x20 0 false 6 (code.setWidth 64) 0) fun _ _ => rfl
  intro u i
  obtain ⟨j, e⟩ := stop u i
  change ∃ j, State.takeTrap { u with iss := i } code = { u.takeTrap code with iss := j }
  unfold State.takeTrap
  dsimp only
  rw [show State.ctx { u with iss := i } = u.ctx from rfl]
  split
  · exact ⟨j, e⟩
  · exact ⟨i, rfl⟩

/-- The end of a bundle that commits, once its results are applied. -/
def State.closes (i : Issue) (u : State) : State :=
  let clocked := if i.synced then u.syncClocks else u
  let ended := if i.done then clocked.endIssue else clocked
  let trapped := match i.trap with
    | some code => ({ ended with core := ended.core.landDue } : State).takeTrap code
    | none => ended
  if i.tret then { trapped with core := trapped.core.leaveHandler } else trapped

theorem State.blind_closes (i : Issue) : Blind (State.closes i) := by
  have clocks : Blind fun u => if i.synced then u.syncClocks else u := .ite _ (fun _ j => ⟨j, rfl⟩) .id
  have ends : Blind fun u => if i.done then u.endIssue else u := .ite _ State.blind_endIssue .id
  have traps : Blind fun u => match i.trap with
      | some code => ({ u with core := u.core.landDue } : State).takeTrap code
      | none => u := by
    cases i.trap with
    | none => exact .id
    | some code => exact .comp (State.blind_core (fun u => u.core.landDue) fun _ _ => rfl) (State.blind_takeTrap code)
  have returns : Blind fun u => if i.tret then { u with core := u.core.leaveHandler } else u :=
    .ite _ (State.blind_core (fun u => u.core.leaveHandler) fun _ _ => rfl) .id
  exact .comp (f := fun u => match i.trap with
      | some code => _
      | none => _) (.comp (.comp clocks ends) traps) returns

theorem State.applyEoc_iss (s : State) (i : Issue) (e : Eoc) :
    (State.applyEoc { s with iss := i } e) = { s.applyEoc e with iss := i } ∧ (s.applyEoc e).iss = s.iss := by
  cases e with
  | crw n v =>
    change (s.creg n).elim _ _ = { (s.creg n).elim s _ with iss := i } ∧ ((s.creg n).elim s _).iss = s.iss
    cases s.creg n with
    | none => exact ⟨rfl, rfl⟩
    | some r => cases r <;> exact ⟨rfl, rfl⟩
  | shw | agw | cbk | cmd | reed => exact ⟨rfl, rfl⟩

theorem State.foldl_applyEoc_iss (i : Issue) (l : List Eoc) : ∀ s : State,
    l.foldl State.applyEoc { s with iss := i } = { l.foldl State.applyEoc s with iss := i }
      ∧ (l.foldl State.applyEoc s).iss = s.iss := by
  induction l with
  | nil => exact fun _ => ⟨rfl, rfl⟩
  | cons e l ih =>
    intro s
    obtain ⟨moved, kept⟩ := s.applyEoc_iss i e
    obtain ⟨moves, keeps⟩ := ih (s.applyEoc e)
    rw [List.foldl_cons, List.foldl_cons, moved]
    exact ⟨moves, keeps.trans kept⟩

theorem State.applyResults_at (s : State) (n : Nat) (w : SlotWord) :
    (s.at n w).applyResults = (s.applyResults).at n w := by
  obtain ⟨moves, kept⟩ := State.foldl_applyEoc_iss (s.iss.at n w) s.iss.eoc s
  unfold State.applyResults
  rw [show (s.at n w).iss.eoc = s.iss.eoc from rfl, show s.at n w = { s with iss := s.iss.at n w } from rfl, moves]
  unfold State.at
  rw [kept]
  generalize s.iss.eoc.foldl State.applyEoc s = u at kept
  rw [← kept]
  rfl

/-- The core of a bundle that commits, moved on. -/
def Core.committed (c : Core) (i : Issue) : Core :=
  (Core.advance { c with
    skipBkpt := false, waitcVal := none, wait := none, waits := [], freeze := none, frozen := false,
    cmdWait := Vector.replicate 2 none, fetched := none } i).tick

/-- The bundle's record is cleared, and its posts take their order. -/
def State.leaves (u : State) : State := ({ u with iss := Issue.reset } : State).notePosts u.core.key

theorem State.commit_eq (s : State) :
    s.commit = (State.closes s.iss { s.applyResults with core := s.applyResults.core.committed s.iss }).leaves := rfl

theorem Core.committed_at (c : Core) (i : Issue) (n : Nat) (w : SlotWord) : c.committed (i.at n w) = c.committed i := rfl

theorem State.closes_at (i : Issue) (n : Nat) (w : SlotWord) : State.closes (i.at n w) = State.closes i := rfl

theorem State.commit_at (s : State) (n : Nat) (w : SlotWord) : (s.at n w).commit = s.commit := by
  obtain ⟨j, e⟩ := State.blind_closes s.iss { s.applyResults with core := s.applyResults.core.committed s.iss }
    (s.applyResults.iss.at n w)
  rw [State.commit_eq, State.commit_eq, State.applyResults_at]
  change (State.closes (s.iss.at n w) { s.applyResults with
    core := s.applyResults.core.committed (s.iss.at n w)
    iss := s.applyResults.iss.at n w }).leaves = _
  rw [Core.committed_at, State.closes_at, e]
  rfl

theorem State.finishIssue_at (base s : State) (n : Nat) (w : SlotWord) : base.finishIssue (s.at n w) = base.finishIssue s := by
  unfold State.finishIssue
  rw [s.commit_at]
  rfl

theorem vget_mapIdx {α β : Type} [Inhabited α] [Inhabited β] {n : Nat} (f : Nat → α → β) (v : Vector α n) (i : Nat) (h : i < n) :
    vget (v.mapIdx f) i = f i (vget v i) := by
  unfold vget
  rw [Vector.getElem?_eq_getElem h, Vector.getElem?_eq_getElem h, Vector.getElem_mapIdx]
  rfl

/-! ### A bundle that holds (R164, R231) -/

theorem Core.noteOthers_frame (c : Core) (w : Wait) (l : List (Wait × Nat)) :
    ∃ wait waits, c.noteOthers w l = { c with
      wait := wait
      waits := waits } := by
  unfold Core.noteOthers
  dsimp only
  split
  · exact ⟨c.wait, c.waits, rfl⟩
  · exact ⟨_, _, rfl⟩

/-- A schedule cycle moves the pipelines and the windows, and counts. -/
theorem Core.tick_frame (c : Core) : ∃ mx errs pipes scyc ran, c.tick = { c with
    mx := mx
    errs := errs
    pipes := pipes
    scyc := scyc
    ran := ran } := by
  obtain ⟨mmas, lt, errs, wins, moved⟩ := c.winTick_frame
  unfold Core.tick
  rw [moved]
  exact ⟨_, _, _, _, _, rfl⟩

/-! ### Zero slots (R192) -/

theorem State.readsCore_nop (s : State) (h : s.core.errs = [] ∨ s.iss.slot ≠ 0) : s.readsCore .nop = s := by
  rcases h with errs | slot
  · exact s.readsCore_of_intact _ errs
  · unfold State.readsCore
    split
    · rfl
    · dsimp only [sources]
      rw [List.foldl_nil, ite_self, if_neg slot]

/-- A zero slot does nothing. -/
theorem State.runSlot_zero (s : State) (m : Nat) (h : s.core.errs = [] ∨ m ≠ 0) : s.runSlot m 0 = .next (s.at m 0) := by
  rw [s.runSlot_instr m 0 .nop (by unfold newtIllegal; exact Bool.and_false _) (if_pos rfl)]
  exact congrArg Host.Outcome.next ((s.at m 0).readsCore_nop h)

/-- The slots that follow one another in a bundle. -/
def runEach (b : Bundle) (l : List Nat) (o : Out) : Out := l.foldl (fun o n => andThen o fun x => x.runSlot n (slotWord b n)) o

theorem runEach_fault (b : Bundle) (l : List Nat) (o : Out) (h : ∀ x, o ≠ .next x) : runEach b l o = o := by
  induction l with
  | nil => rfl
  | cons n l ih =>
    cases o with
    | next x => exact absurd rfl (h x)
    | fault r => exact ih
    | refused r => exact ih

/-- Zero slots leave the bundle's slot and word alone different. -/
theorem runEach_zeros (b : Bundle) (l : List Nat) : ∀ s : State, (∀ m ∈ l, slotWord b m = 0) → (s.core.errs = [] ∨ 0 ∉ l) →
    ∃ t : State, runEach b l (.next s) = .next t ∧ (t = s ∨ ∃ m, t = s.at m 0) := by
  induction l with
  | nil => exact fun s _ _ => ⟨s, rfl, .inl rfl⟩
  | cons m l ih =>
    intro s zeros safe
    have here : s.runSlot m (slotWord b m) = .next (s.at m 0) := by
      rw [zeros m List.mem_cons_self]
      exact s.runSlot_zero m (safe.imp id fun away e => away (e ▸ List.mem_cons_self))
    obtain ⟨t, run, same⟩ := ih (s.at m 0) (fun x hx => zeros x (List.mem_cons_of_mem m hx))
      (safe.imp id fun away mem => away (List.mem_cons_of_mem m mem))
    refine ⟨t, ?_, .inr ?_⟩
    · refine Eq.trans ?_ run
      exact congrArg (runEach b l) here
    · rcases same with rfl | ⟨k, rfl⟩
      · exact ⟨m, rfl⟩
      · exact ⟨k, rfl⟩

/-! ### K and GUARD come first (R194, R196, R223) -/

theorem decode_k {w : SlotWord} {i : Instr} (h : decode .k w = .instr i) :
    i = .nop ∨ (∃ a b c d, i = .k a b c d) ∨ ∃ a b c d, i = .kctl a b c d := by
  unfold decode at h
  split at h
  · exact .inl (Decoded.instr.inj h).symm
  · have fate (j : Instr) : reservedFate j ≠ .instr i := by
      unfold reservedFate
      split
      · split <;> exact nofun
      · exact nofun
    split at h
    · next r found =>
      split at h
      · have built := (Decoded.instr.inj h).symm
        rcases List.mem_cons.mp (List.mem_of_find?_eq_some found) with e | mem
        · rw [e] at built
          exact .inr (.inl ⟨_, _, _, _, built⟩)
        · rw [List.mem_singleton.mp mem] at built
          exact .inr (.inr ⟨_, _, _, _, built⟩)
      · exact absurd h (fate _)
    · split at h
      · exact absurd h (fate _)
      · cases h

theorem decode_guard {w : SlotWord} (h : isGuard w = true) : ∃ m a b c d, decode .l w = .instr (.guard m a b c d) := by
  have op : w.extractLsb' 18 6 = 7#6 := by
    refine BitVec.eq_of_toNat_eq ?_
    rw [BitVec.extractLsb'_toNat, Nat.shiftRight_eq_div_pow, of_decide_eq_true h]
    rfl
  have covered : w &&& 0xFC0000#24 = 0x1C0000#24 := by
    rw [← BitVec.extractLsb'_append_extractLsb' (len := 18) (w := 6) (x := w), append_and_eq_iff, op]
    exact ⟨by decide, BitVec.and_zero⟩
  have nonzero : w ≠ 0 := by
    rintro rfl
    exact absurd h (by decide)
  exact ⟨_, _, _, _, _, decode_eq_build (cl := .l) (r := ⟨0x07, 0xFC0000, 0x1C0000, fun w => .guard (w.extractLsb' 16 2)
    (w.extractLsb' 12 4) (w.extractLsb' 8 4) (w.extractLsb' 4 4) (w.extractLsb' 0 4)⟩)
    (List.mem_append_left _ (List.mem_of_getElem? (i := 6) rfl)) covered nonzero rfl⟩

theorem State.raise_core (s : State) (rank code cause : Nat) (repl : Bool) (i0 i1 : Word) :
    (s.raise rank code cause repl i0 i1).core = s.core := by
  unfold State.raise
  dsimp only
  split
  · rfl
  · split <;> rfl

/-- K instructions and NOP change nothing of the core. -/
theorem exec_k_core {w : SlotWord} {i : Instr} {s t : State} (dec : decode .k w = .instr i) (h : exec i s = .next t) :
    t.core = s.core := by
  rcases decode_k dec with rfl | ⟨a, b, c, d, rfl⟩ | ⟨a, b, c, d, rfl⟩
  · rw [← Host.Outcome.next.inj h]
  · rw [← Host.Outcome.next.inj h]
  · change execKctl a b c d s = _ at h
    unfold execKctl at h
    dsimp only at h
    rw [← Host.Outcome.next.inj h]
    split
    · exact State.raise_core ..
    · rfl

theorem exec_guard_core {m : BitVec 2} {a b c d : BitVec 4} {s t : State} (h : exec (.guard m a b c d) s = .next t) :
    t.core = s.core := by
  rcases exec_guard_cases h with rfl | rfl
  · exact State.raise_core ..
  · rfl

/-- Slot 0 runs after a slot only where that one's instruction changes nothing of the core. -/
theorem slotOrder_zero_last (b : Bundle) (n : Nat) (pre post : List Nat) (h : slotOrder b = pre ++ n :: post)
    (zeros : ∀ m, m < 8 → m ≠ n → slotWord b m = 0) (last : 0 ∈ post) : n = 7 ∨ n = 6 ∧ isGuard (slotWord b 6) = true := by
  unfold slotOrder at h
  split at h
  · next guard =>
    by_cases six : n = 6
    · exact .inr ⟨six, guard⟩
    · rw [zeros 6 (by decide) (Ne.symm six)] at guard
      exact absurd guard (by decide)
  · left
    cases pre with
    | nil => exact (List.cons.inj h).1.symm
    | cons x pre =>
      obtain ⟨-, h⟩ := List.cons.inj h
      cases pre with
      | nil =>
        rw [← (List.cons.inj h).2] at last
        exact absurd last (by decide)
      | cons y pre =>
        obtain ⟨-, h⟩ := List.cons.inj h
        have mem : 0 ∈ [1, 2, 3, 4, 5, 6] := h ▸ List.mem_append_right _ (List.mem_cons_of_mem _ last)
        exact absurd mem (by decide)

theorem slotOrder_nodup (b : Bundle) : (slotOrder b).Nodup := by
  unfold slotOrder
  split <;> decide

theorem mem_slotOrder (b : Bundle) (n : Nat) : n ∈ slotOrder b ↔ n < 8 := by
  unfold slotOrder
  split <;> simp only [List.mem_cons, List.not_mem_nil, or_false] <;> omega

/-- A bundle whose other slots are zero runs the one instruction, up to the slot and word noted last. -/
theorem State.runSlots_one (s : State) (b : Bundle) (n : Nat) (i : Instr) (errs : s.core.errs = []) (hn : n < 8)
    (zeros : ∀ m, m < 8 → m ≠ n → slotWord b m = 0) (newt : (s.core.newt && newtIllegal n (slotWord b n)) = false)
    (dec : decode (slotClass n) (slotWord b n) = .instr i) (f : State → Out) (blind : ∀ x m w, f (State.at x m w) = f x) :
    andThen (s.runSlots b) f = andThen (exec i (s.at n (slotWord b n))) f := by
  obtain ⟨pre, post, order⟩ := List.append_of_mem ((mem_slotOrder b n).mpr hn)
  have nodup := slotOrder_nodup b
  rw [order, List.perm_middle.nodup_iff, List.nodup_cons, List.mem_append, not_or] at nodup
  obtain ⟨⟨notPre, notPost⟩, -⟩ := nodup
  have small (m : Nat) (h : m ∈ pre ∨ m ∈ post) : m < 8 :=
    (mem_slotOrder b m).mp (order ▸ List.mem_append.mpr (h.imp id (List.mem_cons_of_mem n)))
  obtain ⟨u, before, same⟩ := runEach_zeros b pre s
    (fun m hm => zeros m (small m (.inl hm)) fun e => notPre (e ▸ hm)) (.inl errs)
  have here : u.runSlot n (slotWord b n) = exec i (s.at n (slotWord b n)) := by
    have at_ : u.at n (slotWord b n) = s.at n (slotWord b n) := by rcases same with rfl | ⟨m, rfl⟩ <;> rfl
    have core : u.core = s.core := show (u.at n (slotWord b n)).core = _ by rw [at_]; rfl
    rw [u.runSlot_instr n _ i (by rw [core]; exact newt) dec]
    change exec i ((u.at n (slotWord b n)).readsCore i) = _
    rw [at_, State.readsCore_of_intact (s.at n (slotWord b n)) i errs]
  have runs : s.runSlots b = runEach b post (exec i (s.at n (slotWord b n))) := by
    change runEach b (slotOrder b) (.next s) = _
    rw [order, ← here]
    unfold runEach at before ⊢
    rw [List.foldl_append, before]
    rfl
  rw [runs]
  cases result : exec i (s.at n (slotWord b n)) with
  | fault r => rw [runEach_fault b post _ fun x e => by cases e]
  | refused r => rw [runEach_fault b post _ fun x e => by cases e]
  | next t =>
    have safe : t.core.errs = [] ∨ 0 ∉ post := by
      by_cases last : 0 ∈ post
      · left
        have core : t.core = (s.at n (slotWord b n)).core := by
          rcases slotOrder_zero_last b n pre post order zeros last with rfl | ⟨rfl, guard⟩
          · exact exec_k_core dec result
          · obtain ⟨m, a, c, d, e, h⟩ := decode_guard guard
            cases dec.symm.trans h
            exact exec_guard_core result
        rw [core]
        exact errs
      · exact .inr last
    obtain ⟨v, after, noted⟩ := runEach_zeros b post t
      (fun m hm => zeros m (small m (.inr hm)) fun e => notPost (e ▸ hm)) safe
    rw [after]
    rcases noted with rfl | ⟨m, rfl⟩
    · rfl
    · exact blind t m 0

end Sys2Proof.Machine

open Sys2Proof Sys2Proof.Machine in
/-- Settles O7: the other slots do nothing, and the end of the bundle does not see them. -/
theorem stepRunsOneInstruction : Obligations.StepRunsOneInstruction := by
  intro s u k rest b n i agenda z v running stop saves late load next errs hn zeros newt dec
  refine (stepRunsBundle.1 s u k rest b agenda running stop saves late load next).trans ?_
  exact u.beginIssue.runSlots_one b n i errs hn zeros newt dec _ fun x m w => congrArg Host.Outcome.next (State.finishIssue_at _ x m w)

open Sys2Proof Sys2Proof.Machine in
/-- Settles O11: the cycle of a hold is the pipelines' alone, and the bundle is kept. -/
theorem heldBundleReissues : Obligations.HeldBundleReissues := by
  intro base s w b hold k t
  have held : t = (State.holdCycle { k with core := k.core.noteOthers w s.iss.others } w s.iss.holdSlot) := by
    change State.finishIssue k s = _
    unfold State.finishIssue
    dsimp only
    rw [hold]
  obtain ⟨wait, waits, others⟩ := k.core.noteOthers_frame w s.iss.others
  obtain ⟨mx, errs, pipes, scyc, ran, ticked⟩ := Core.tick_frame
    ({ k.core.noteOthers w s.iss.others with frozen := false, freeze := none }.noteWait w s.iss.holdSlot)
  rw [held]
  unfold State.holdCycle
  dsimp only
  rw [ticked, others]
  exact ⟨rfl, rfl, rfl, rfl, rfl, rfl, rfl, rfl, rfl, rfl, rfl⟩

open Sys2Proof Sys2Proof.Machine in
/-- Settles O19: the two instructions by their definitions, and each register's write bit by bit. -/
theorem controlRegisters : Obligations.ControlRegisters := by
  refine ⟨fun s p => ⟨fun d n r known => ⟨fun on => ?_, fun off => ?_⟩, fun c a e r known => ⟨fun on => ?_, fun off => ?_⟩,
    fun d n none => ?_, fun c a e none => ?_, fun n r v known => ?_⟩, fun s v => ?_⟩
  · change execCrr d n p s = _
    unfold execCrr sResult
    rw [known]
    exact congrArg Host.Outcome.next (if_pos on)
  · change execCrr d n p s = _
    unfold execCrr sResult
    rw [known]
    exact congrArg Host.Outcome.next (if_neg (by rw [off]; exact Bool.false_ne_true))
  · change execCrw c a e p s = _
    unfold execCrw
    rw [known]
    exact congrArg Host.Outcome.next (if_pos on)
  · change execCrw c a e p s = _
    unfold execCrw
    rw [known]
    exact congrArg Host.Outcome.next (if_neg (by rw [off]; exact Bool.false_ne_true))
  · change execCrr d n p s = _
    unfold execCrr
    rw [none]
  · change execCrw c a e p s = _
    unfold execCrw
    rw [none]
  · change (s.creg n).elim _ _ = _
    rw [known]
    rfl
  · have here (f : Ctx → Ctx) : (s.onCtx s.core.ctx.toNat f).ctx = f s.ctx :=
      (s.onCtx_get _ _ f s.core.ctx.isLt).trans (if_pos rfl)
    have lnchst : (s.cregWrite .lnchst v).ctx.lnchst = lnchstWrite s.ctx.lnchst v := congrArg Ctx.lnchst (here _)
    have wlkst : (s.cregWrite .wlkst v).ctx.wlkst = wlkstWrite s.ctx.wlkst v := congrArg Ctx.wlkst (here _)
    rw [lnchst, wlkst]
    unfold lnchstWrite wlkstWrite
    refine ⟨rfl, rfl, rfl, rfl, fun k hk => vget_mapIdx _ _ k hk, fun k hk => ?_, ?_, ?_, ?_, ?_, ?_, fun k j hk hj => ?_⟩
    · have number : (BitVec.ofNat 3 k).toNat = k := by rw [BitVec.toNat_ofNat, Nat.mod_eq_of_lt hk]
      have zero : BitVec.ofNat 3 k = 0 ↔ k = 0 := by
        rw [← BitVec.toNat_inj, number]
        rfl
      unfold Core.rp
      rw [number, show (s.cregWrite .prd v).core.regs.p = s.core.regs.p.mapIdx fun i b => if i = 0 then b else bit v i from rfl,
        vget_mapIdx _ _ k hk]
      by_cases h : k = 0
      · rw [if_pos (zero.mpr h), decide_eq_true h, Bool.true_or]
      · rw [if_neg (h ∘ zero.mp), if_neg h, decide_eq_false h, Bool.false_or]
        rfl
    · simpa [BitVec.extractLsb'_or, BitVec.extractLsb'_and] using BitVec.and_allOnes (x := v.extractLsb' 16 48)
    · simp [BitVec.extractLsb'_or, BitVec.extractLsb'_and]
    · simp
    · simpa [BitVec.extractLsb'_or, BitVec.extractLsb'_and] using BitVec.and_allOnes (x := v.extractLsb' 32 32)
    · simpa [BitVec.extractLsb'_or, BitVec.extractLsb'_and] using BitVec.and_allOnes (x := s.ctx.wlkst.extractLsb' 0 32)
    · have kt : (s.cregWrite (.kt k) v).ctx.kt = vset s.ctx.kt k (ktWrite (v.setWidth 32)) := congrArg Ctx.kt (here _)
      rw [kt]
      split
      · next e => rw [e]; exact vget_vset_self _ _ _ hk
      · next e => exact vget_vset_ne _ _ _ _ (Ne.symm e)
end

section
/-! SUPPORT. The L and K slots (R194 to R196, R221 to R242): transfers, guards and gating, mask stacks, waits, barriers, and the programs
of a newt. -/

namespace Sys2Proof.Machine

/-! ### Transfers (R190, R221, R226) -/

theorem bits_low_three (t : Word) : bits t 2 0 = t.toNat % 8 := rfl

theorem bits_above_57 (t : Word) (h : 2 ^ 57 ≤ t.toNat) : bits t 63 57 ≠ 0 := by
  unfold bits
  rw [Nat.shiftRight_eq_div_pow]
  have := t.isLt
  omega

theorem State.jumpTo_misaligned (s : State) (t : Word) (h : t.toNat % 8 ≠ 0) : s.jumpTo t = s.raise 3 0x03 0 false t 0 :=
  if_pos (by rw [bits_low_three]; exact h)

theorem State.jumpTo_nonCanonical (s : State) (t : Word) (aligned : t.toNat % 8 = 0) (h : 2 ^ 57 ≤ t.toNat) :
    s.jumpTo t = s.raise 3 0x0A 6 false t 0 := by
  unfold State.jumpTo
  rw [if_neg (by rw [bits_low_three]; exact not_not_intro aligned), if_pos (bits_above_57 t h)]
  rfl

theorem State.jumpIf_idle {s : State} {cond : Bool} {t : Word} (h : cond = false ∨ s.active = false) : s.jumpIf cond t = s := by
  refine if_neg ?_
  rcases h with e | e <;> simp [e]

theorem State.callIf_idle {s : State} {cond : Bool} {t : Word} (h : cond = false ∨ s.active = false) : s.callIf cond t = s := by
  refine if_neg ?_
  rcases h with e | e <;> simp [e]

section
variable {s : State} {cond : Bool} {t : Word} (runs : s.active = true) (taken : cond = true)
include runs taken

theorem State.callIf_taken (held : s.core.held = none) (level : s.core.anyLevel = false) : s.callIf cond t = s.jumpTo t := by
  unfold State.callIf
  rw [runs, taken, held, level]
  rfl

theorem State.callIf_inLoop (held : s.core.held = none) (level : s.core.anyLevel = true) :
    s.callIf cond t = s.raise 3 0x08 8 false 0 0 := by
  unfold State.callIf
  rw [runs, taken, held, level]
  rfl

theorem State.callIf_inHandler (held : s.core.held.isSome = true) : s.callIf cond t = s.raise 3 0x08 9 false 0 0 := by
  unfold State.callIf
  rw [runs, taken, held]
  rfl

end

/-! ### Gating (R196) -/

theorem gateOpen_not (c : Core) (f l : BitVec 1) (v : Nat) : (!gateOpen c (f = 1) (l = 1) v) = ((vget c.loop.lv v).active
    && ((decide (f = 1) && decide ((vget c.loop.lv v).lidx ≠ 0))
      || (decide (l = 1) && decide ((vget c.loop.lv v).lidx.toNat + 1 ≠ (vget c.loop.lv v).lcnt.toNat)))) := by
  unfold gateOpen
  simp only [Bool.not_or, Bool.not_and, Bool.not_not, decide_not]

/-! ### Mask stacks (R229) -/

theorem State.maskOp_runs {s : State} (compute : s.core.newt = false) (runs : s.active = true) (v1 ok : Bool)
    (f : List (BitVec 64) → List (BitVec 64)) : s.maskOp v1 ok f
      = if ok then { s with core := s.core.setMask v1 (f (s.core.mask v1)) } else s.mstkFault v1 := by
  unfold State.maskOp
  rw [compute, runs]
  rfl

theorem invertTop_cons (t : BitVec 64) (r : List (BitVec 64)) :
    invertTop (t :: r) = (~~~t &&& r.headD (BitVec.allOnes 64)) :: r := by
  cases r with
  | nil => exact congrArg (· :: []) BitVec.and_allOnes.symm
  | cons u r => rfl

/-! ### Waits (R231, R232) -/

/-- The bundle holds on a wait of the running slot. -/
def State.heldOn (s : State) (w : Wait) : State := { s with iss := { s.iss with
  hold := some w
  holdSlot := s.iss.slot } }

theorem State.waitIf_runs {s : State} (runs : s.active = true) (free : s.iss.hold = none) (cond : Bool) (w : Wait) :
    s.waitIf cond w = if cond then s.synced.heldOn w else s.synced := by
  unfold State.waitIf State.holdIf
  rw [if_pos runs, show s.synced.active = true from runs, Bool.true_and, s.synced.holdOn_first w free]
  rfl

/-! ### Barriers (R233, R234) -/

/-- A core's arrival at a barrier of its task. -/
def Task.arrive (t : Task) (k : CoreKey) (b : BitVec 5) (sc : BitVec 3) (q : BitVec 2) (bundle : Nat) : Task :=
  { t with bars := vset t.bars b.toNat { vget t.bars b.toNat with
      arrived := (vget t.bars b.toNat).arrived ++ [⟨k, sc, q, bundle⟩]
      latest := (k, (vget t.bars b.toNat).phase) :: (vget t.bars b.toNat).latest.filter fun x => decide (x.1 ≠ k) } }

theorem Task.arrive_bar (t : Task) (k : CoreKey) (b : BitVec 5) (sc : BitVec 3) (q : BitVec 2) (bundle : Nat) :
    (vget (t.arrive k b sc q bundle).bars b.toNat).arrived = (vget t.bars b.toNat).arrived ++ [⟨k, sc, q, bundle⟩]
      ∧ (vget (t.arrive k b sc q bundle).bars b.toNat).phase = (vget t.bars b.toNat).phase := by
  have bar := vget_vset_self t.bars b.toNat { vget t.bars b.toNat with
    arrived := (vget t.bars b.toNat).arrived ++ [⟨k, sc, q, bundle⟩]
    latest := (k, (vget t.bars b.toNat).phase) :: (vget t.bars b.toNat).latest.filter fun x => decide (x.1 ≠ k) } b.isLt
  exact ⟨congrArg Barrier.arrived bar, (congrArg Barrier.phase bar).trans rfl⟩

/-- A change of the task a core runs that leaves its members is seen in it. -/
theorem State.taskOf_onTask (s : State) (k : CoreKey) (f : Task → Task) (keeps : ∀ t, (f t).runsOn k = t.runsOn k) :
    (s.onTask k f).taskOf k = (s.taskOf k).map f := by
  unfold State.taskOf State.onTask mapIf
  dsimp only
  rw [List.find?_map]
  have same : ((fun t : Task => t.runsOn k) ∘ fun t => if t.runsOn k then f t else t) = fun t => t.runsOn k := by
    funext t
    dsimp only [Function.comp]
    split
    · exact keeps t
    · rfl
  rw [same]
  cases found : s.tasks.find? fun t => t.runsOn k with
  | none => rfl
  | some t => exact congrArg some (if_pos (List.find?_some found))

/-! ### A store that meets no poison (R362) -/

theorem State.storePoison_of_none (s : State) (a n : Nat) (h : s.core.sp.poison = []) : s.storePoison a n = s := by
  refine s.storePoison_of_clean a n (List.all_eq_true.mpr fun p _ => ?_)
  rw [h]
  simp [setHas]

end Sys2Proof.Machine

open Sys2Proof Sys2Proof.Machine in
/-- Settles O38: each form is `State.jumpIf` or `State.callIf` of its target. -/
theorem transfersTaken : Obligations.TransfersTaken := by
  intro s runs
  refine ⟨?_, fun g r taken aligned canonical => ?_⟩
  · intro g o t taken aligned canonical
    have jump : s.jumpTo (s.relTarget o) = s.goTo t := by
      rw [s.relTarget_eq_ofInt]
      exact s.jumpTo_eq_goTo t aligned canonical
    exact ⟨congrArg Host.Outcome.next ((State.jumpIf_taken runs taken).trans jump),
      fun held level => congrArg Host.Outcome.next ((State.callIf_taken runs taken held level).trans jump)⟩
  · have jump := s.jumpTo_eq_goTo (s.core.rs r) aligned canonical
    exact ⟨congrArg Host.Outcome.next ((State.jumpIf_taken runs taken).trans jump),
      congrArg Host.Outcome.next ((State.jumpIf_taken runs taken).trans jump),
      fun held level => congrArg Host.Outcome.next ((State.callIf_taken runs taken held level).trans jump)⟩

open Sys2Proof Sys2Proof.Machine in
/-- Settles O40: the checks of `State.jumpTo` on the target of each form, and those of a call before it. -/
theorem transfersRefused : Obligations.TransfersRefused := by
  intro s g r o t u
  have target : s.relTarget o = u := s.relTarget_eq_ofInt o
  refine ⟨fun idle => ⟨?_, ?_, ?_, ?_, ?_⟩, ?_⟩
  · exact congrArg Host.Outcome.next (State.jumpIf_idle idle)
  · exact congrArg Host.Outcome.next (State.jumpIf_idle idle)
  · exact congrArg Host.Outcome.next (State.callIf_idle idle)
  · exact congrArg Host.Outcome.next (State.jumpIf_idle idle)
  · exact congrArg Host.Outcome.next (State.callIf_idle idle)
  · intro runs taken may
    have jumps (x : Word) {y : State} (h : s.jumpTo x = y) : s.jumpIf (s.core.sel g) x = y := (State.jumpIf_taken runs taken).trans h
    have calls (x : Word) {y : State} (h : s.jumpTo x = y) (m : may) : s.callIf (s.core.sel g) x = y :=
      (State.callIf_taken runs taken m.1 m.2).trans h
    refine ⟨fun low => ?_, fun low high => ?_, fun low => ?_, fun low high => ?_, fun held level => ?_, fun held => ?_⟩
    · have fault := s.jumpTo_misaligned t low
      exact ⟨congrArg Host.Outcome.next (jumps t fault), congrArg Host.Outcome.next (jumps t fault),
        fun m => congrArg Host.Outcome.next (calls t fault m)⟩
    · have fault := s.jumpTo_nonCanonical t low high
      exact ⟨congrArg Host.Outcome.next (jumps t fault), congrArg Host.Outcome.next (jumps t fault),
        fun m => congrArg Host.Outcome.next (calls t fault m)⟩
    · have fault := s.jumpTo_misaligned u low
      rw [← target] at fault
      rw [← target]
      exact ⟨congrArg Host.Outcome.next (jumps _ fault), fun m => congrArg Host.Outcome.next (calls _ fault m)⟩
    · have fault := s.jumpTo_nonCanonical u low high
      rw [← target] at fault
      rw [← target]
      exact ⟨congrArg Host.Outcome.next (jumps _ fault), fun m => congrArg Host.Outcome.next (calls _ fault m)⟩
    · exact ⟨congrArg Host.Outcome.next (State.callIf_inLoop runs taken held level),
        congrArg Host.Outcome.next (State.callIf_inLoop runs taken held level)⟩
    · exact ⟨congrArg Host.Outcome.next (State.callIf_inHandler runs taken held),
        congrArg Host.Outcome.next (State.callIf_inHandler runs taken held)⟩

open Sys2Proof Sys2Proof.Machine in
/-- Settles O41: the definitions of the four forms, and the gate by `gateOpen_not`. -/
theorem guardsAndGating : Obligations.GuardsAndGating := by
  refine fun s => ⟨fun m a b c d compute => ?_, ?_, rfl⟩
  · change execGuard m a b c d s = _
    unfold execGuard
    rw [compute]
    rfl
  · intro f l v k b lv off
    have gate : (!gateOpen s.core (f = 1) (l = 1) v.toNat) = off := gateOpen_not s.core f l v.toNat
    refine ⟨?_, fun quiet => ?_, fun trap debug => ?_⟩
    · change execK f l v k s = _
      unfold execK
      rw [gate]
    · change execKctl f l v b s = _
      unfold execKctl
      dsimp only
      rw [gate, if_neg]
      rcases quiet with rfl | skip
      · exact Bool.false_ne_true
      · rw [skip, Bool.not_true, Bool.and_false]
        exact Bool.false_ne_true
    · change execKctl f l v b s = _
      unfold execKctl
      dsimp only
      rw [gate, if_pos]
      rw [trap, debug]
      rfl

open Sys2Proof Sys2Proof.Machine in
/-- Settles O44: the check and the change of `State.maskOp` for each instruction. -/
theorem maskStacks : Obligations.MaskStacks := by
  intro s v compute runs b m depth put
  have op (ok : Bool) (f : List (BitVec 64) → List (BitVec 64)) : s.maskOp b ok f = if ok then put (f m) else s.mstkFault b :=
    State.maskOp_runs compute runs b ok f
  refine ⟨fun room => ?_, fun full => ?_, fun t r top => ⟨?_, ?_⟩, fun empty => ⟨?_, ?_⟩⟩
  · exact congrArg Host.Outcome.next ((op _ _).trans (if_pos (decide_eq_true room)))
  · refine congrArg Host.Outcome.next ((op _ _).trans (if_neg ?_))
    rw [decide_eq_true_eq]
    exact Nat.not_le.mpr full
  · refine congrArg Host.Outcome.next ((op (!m.isEmpty) List.tail).trans ?_)
    rw [top]
    rfl
  · refine congrArg Host.Outcome.next ((op (!m.isEmpty) invertTop).trans ?_)
    rw [top, invertTop_cons]
    rfl
  · refine congrArg Host.Outcome.next ((op (!m.isEmpty) List.tail).trans ?_)
    rw [empty]
    rfl
  · refine congrArg Host.Outcome.next ((op (!m.isEmpty) invertTop).trans ?_)
    rw [empty]
    rfl

open Sys2Proof Sys2Proof.Machine in
/-- Settles O45: each wait is `State.waitIf` of its condition. -/
theorem waits : Obligations.Waits := by
  intro s runs free u holds
  refine ⟨fun t => congrArg Host.Outcome.next (State.waitIf_runs runs free _ _), ?_, ?_, fun b compute => ?_⟩
  · intro c r exists_ v x
    refine ⟨?_, fun b => rfl⟩
    have reserved : (!s.core.newt && decide (15 < c.toNat)) = false := by
      rcases exists_ with newt | low
      · rw [newt]
        rfl
      · rw [decide_eq_false (Nat.not_lt.mpr (show c.toNat ≤ 15 from BitVec.le_def.mp low)), Bool.and_false]
    change execWaitc c r s = _
    unfold execWaitc
    rw [reserved, if_neg Bool.false_ne_true]
    dsimp only
    rw [if_pos runs, State.waitIf_runs (s := { s with iss := { s.iss with waitc := some v } }) runs free]
    unfold reached
    by_cases h : (vget s.core.regs.ac c.toNat - v).toNat < 2 ^ 31
    · rw [if_pos h, decide_eq_true h]
      rfl
    · rw [if_neg h, decide_eq_false h]
      rfl
  · refine congrArg Host.Outcome.next ((State.waitIf_runs runs free _ _).trans ?_)
    by_cases h : s.core.posts = 0
    · rw [if_pos h, decide_eq_false (not_not_intro h)]
      rfl
    · rw [if_neg h, decide_eq_true h]
      rfl
  · change execBarw b s = _
    unfold execBarw
    rw [compute]
    exact congrArg Host.Outcome.next (State.waitIf_runs runs free _ _)

open Sys2Proof Sys2Proof.Machine in
/-- Settles O46: the arrival is put in the task that `State.taskOf` finds. -/
theorem barrierArrival : Obligations.BarrierArrival := by
  refine fun s b sc q => ⟨fun newt => ⟨?_, ?_⟩, fun compute runs closed => ?_⟩
  · change execBara b sc q s = _
    unfold execBara
    rw [newt]
    rfl
  · change execBarw b s = _
    unfold execBarw
    rw [newt]
    rfl
  · have run : exec (.bara b sc q) s = .next (s.onTask s.core.key fun t => t.arrive s.core.key b sc q s.core.pipes.bundleNo) := by
      change execBara b sc q s = _
      unfold execBara
      dsimp only
      rw [compute, runs, closed]
      rfl
    refine ⟨_, run, rfl, rfl, rfl, fun k mine => ?_⟩
    have task := s.taskOf_onTask s.core.key (fun t => t.arrive s.core.key b sc q s.core.pipes.bundleNo) fun _ => rfl
    rw [mine] at task
    obtain ⟨arrived, phase⟩ := k.arrive_bar s.core.key b sc q s.core.pipes.bundleNo
    exact ⟨_, task, arrived, phase⟩

open Sys2Proof Sys2Proof.Machine in
/-- Settles O47: each branch of the three definitions. -/
theorem newtPrograms : Obligations.NewtPrograms := by
  intro s r q fen
  refine ⟨fun other => ⟨?_, ?_⟩, fun compute => ?_, fun master runs aligned clean => ⟨fun none => ?_, fun e found => ?_⟩,
    ?_, fun newt runs => ⟨fun room => ?_, fun full free => ?_⟩⟩
  · change execMbtake r s = _
    unfold execMbtake
    rw [other]
    rfl
  · change execMbreply r q s = _
    unfold execMbreply
    rw [other]
    rfl
  · change execLaunch r s = _
    unfold execLaunch
    rw [compute]
    rfl
  · change execMbtake r s = _
    unfold execMbtake
    dsimp only
    rw [master, runs, if_neg (c := (s.core.rs r).toNat % 2 ^ 18 % 16 ≠ 0) (by omega), none]
    dsimp only
    rw [s.storePoison_of_none _ _ clean]
    rfl
  · change execMbtake r s = _
    unfold execMbtake
    dsimp only
    rw [master, runs, if_neg (c := (s.core.rs r).toNat % 2 ^ 18 % 16 ≠ 0) (by omega), found]
    dsimp only
    rw [State.storePoison_of_none (State.onFen ..) _ _ clean]
    rfl
  · intro master runs compute reply mine
    change execMbreply r q s = _
    unfold execMbreply
    dsimp only
    rw [master, runs, compute]
    rfl
  · change execLaunch r s = _
    unfold execLaunch
    dsimp only
    rw [newt, runs, if_neg (c := 64 ≤ s.outstanding s.core.ctx.toNat) (Nat.not_le.mpr room)]
    rfl
  · change execLaunch r s = _
    unfold execLaunch
    dsimp only
    rw [newt, runs, if_pos full, s.holdOn_first _ free]
    rfl

open Sys2Proof Sys2Proof.Machine in
/-- Settles O48: what each leaves in the bundle's record, or its refusal. -/
theorem trapReturnDone : Obligations.TrapReturnDone := by
  refine fun s => ⟨fun runs => ⟨fun c => congrArg Host.Outcome.next (if_pos runs), fun held => ?_, fun none => ?_⟩, fun none => ?_, fun held => ?_⟩
  · change execTret s = _
    unfold execTret
    rw [if_neg (by simp [Option.isSome_iff_ne_none.mp held]), if_pos runs]
  · change execDone s = _
    unfold execDone
    rw [none, if_pos runs]
    rfl
  · change execTret s = _
    unfold execTret
    rw [none]
    rfl
  · exact congrArg Host.Outcome.next (if_pos held)
end

section
/-! SUPPORT. The events of a walker (R33 to R43, R155 to R163): the choice of the earliest entry, and the branches of each event. -/

namespace Sys2Proof.Machine

/-! ### The earliest entry (R161, R162) -/

theorem ReadyNode.before_irrefl (a : ReadyNode) : a.before a = false := by
  simp [ReadyNode.before]

theorem ReadyNode.before_asymm {a b : ReadyNode} (h : a.before b = true) : b.before a = false := by
  simp only [ReadyNode.before, Bool.or_eq_true, Bool.and_eq_true, decide_eq_true_eq, ← Bool.not_eq_true] at h ⊢
  omega

/-- The earlier of two entries, of which the first may be missing. -/
def earlier (b : Option ReadyNode) (r : ReadyNode) : Option ReadyNode :=
  match b with
  | none => some r
  | some x => if r.before x then some r else some x

/-- An entry that is before all that follow stays the earliest. -/
theorem foldl_earlier_stays (r : ReadyNode) (l : List ReadyNode) (h : ∀ y ∈ l, y = r ∨ r.before y = true) :
    l.foldl earlier (some r) = some r := by
  induction l with
  | nil => rfl
  | cons y l ih =>
    have stays : earlier (some r) y = some r := by
      refine if_neg ?_
      rcases h y List.mem_cons_self with rfl | first
      · rw [ReadyNode.before_irrefl]; exact Bool.false_ne_true
      · rw [ReadyNode.before_asymm first]; exact Bool.false_ne_true
    rw [List.foldl_cons, stays]
    exact ih fun z hz => h z (List.mem_cons_of_mem y hz)

/-- The entry of a list that is before all others of it is its earliest. -/
theorem foldl_earlier_of_first (r : ReadyNode) (l : List ReadyNode) : ∀ b : Option ReadyNode,
    (∀ x, b = some x → x = r ∨ r.before x = true) → r ∈ l → (∀ y ∈ l, y = r ∨ r.before y = true) →
    l.foldl earlier b = some r := by
  induction l with
  | nil => exact fun _ _ mem _ => (List.not_mem_nil mem).elim
  | cons y l ih =>
    intro b hb mem first
    have rest (z) (hz : z ∈ l) := first z (List.mem_cons_of_mem y hz)
    rw [List.foldl_cons]
    by_cases here : y = r
    · have taken : earlier b y = some r := by
        rw [here]
        cases b with
        | none => rfl
        | some x =>
          unfold earlier
          rcases hb x rfl with rfl | before
          · exact ite_self _
          · exact if_pos before
      rw [taken]
      exact foldl_earlier_stays r l rest
    · refine ih _ (fun x hx => ?_) ((List.mem_cons.mp mem).resolve_left (Ne.symm here)) rest
      unfold earlier at hx
      cases b with
      | none => cases hx; exact first y List.mem_cons_self
      | some z =>
        dsimp only at hx
        split at hx
        · cases hx; exact first y List.mem_cons_self
        · cases hx; exact hb _ rfl

theorem earliest_of_first (r : ReadyNode) (l : List ReadyNode) (mem : r ∈ l) (first : ∀ y ∈ l, y = r ∨ r.before y = true) :
    earliest l = some r := foldl_earlier_of_first r l none nofun mem first

theorem ReadyNode.restarts_iff (r : ReadyNode) : r.restarts = true ↔ r.eff < 3 ∨ r.aged = false := by
  simp [ReadyNode.restarts]

/-! ### Two changes of one context -/

theorem State.onCtx_onCtx (s : State) (n : Nat) (f g : Ctx → Ctx) (h : n < 64) :
    (s.onCtx n f).onCtx n g = s.onCtx n fun x => g (f x) := by
  unfold State.onCtx
  dsimp only
  rw [vget_vset_self _ _ _ h, vset_vset]

/-! ### A launch is taken (R33, R34) -/

/-- What becomes of the oldest launch once its reads are made. -/
def State.launchTurn (n : BitVec 6) (fen : Nat) (q : LaunchReq) (rest : List LaunchReq)
    (r : List (List Byte) × Option FaultInfo × State) : State :=
  match r.2.1 with
  | some f =>
    (r.2.2.onCtx n.toNat fun x => { x with pending := { q with got := r.1, stop := some r.2.2.seq } :: rest }).postStop
      (.launch n) (walkerRec fen n.toNat f)
  | none =>
    let v := r.2.2.onCtx n.toNat fun x => { x with pending := rest }
    match launchOf q.addr v.fenClosed r.1 with
    | .error c => (v.post (walkerRec fen n.toNat ⟨0x10, c.1, true, q.addr, BitVec.ofNat 64 c.2, 0⟩)).postCend n.toNat
    | .ok (y, carea, nodes) => v.startLaunch (q.launch v.nextLaunch y carea nodes) (bytesToNat (y.cnt.getD []))

/-- The walker makes the reads of the oldest launch. -/
theorem execLaunchTake_reads {s : State} {n : BitVec 6} {q : LaunchReq} {rest : List LaunchReq}
    (pending : (vget s.ctxs n.toNat).pending = q :: rest) (live : (vget s.ctxs n.toNat).live = true)
    (die : s.dieLost 0 = false) (stop : q.stop = none) (ordered : s.launchOrdered q = true) :
    exec (.launchTake n) s = .next (State.launchTurn n (vget s.ctxs n.toNat).home.toNat q rest
      (s.readOn (vget s.ctxs n.toNat).home.toNat n.toNat (launchNext q.addr) launchReads q.got)) := by
  change execLaunchTake n s = _
  unfold execLaunchTake
  dsimp only
  rw [pending]
  dsimp only
  rw [live, die, stop, ordered]
  rfl

end Sys2Proof.Machine

open Sys2Proof Sys2Proof.Machine in
/-- Settles O49: each event's branch, by its conditions. -/
theorem walkerEvents : Obligations.WalkerEvents := by
  refine ⟨?_, ?_, ?_, ?_, ?_, ?_, ?_⟩
  · intro s u n q rest got e x fen pending live die stop ctx ordered reads
    have take := execLaunchTake_reads pending live die stop ordered
    rw [reads] at take
    refine ⟨fun f fault => ?_, fun c none refused => ?_, ?_⟩
    · rw [take, fault]
      rfl
    · rw [take, none]
      unfold State.launchTurn
      dsimp only
      rw [show launchOf q.addr (State.fenClosed (u.onCtx n.toNat _)) got = .error c from refused]
    · intro y carea nodes none taken l groups
      rw [take, none]
      unfold State.launchTurn
      dsimp only
      rw [show launchOf q.addr (State.fenClosed (u.onCtx n.toNat _)) got = .ok (y, carea, nodes) from taken]
      dsimp only
      change Host.Outcome.next (State.startLaunch _ l _) = _
      unfold State.startLaunch
      dsimp only
      rw [if_neg groups, show l.ctx = n from ctx, State.onCtx_onCtx _ _ _ _ n.isLt, decide_eq_false groups]
      rfl
  · intro s id k l found slot more live y
    change execGroupInstantiate id s = _
    unfold execGroupInstantiate
    rw [found]
    dsimp only
    rw [slot]
    dsimp only
    rw [if_neg]
    rw [live]
    simpa using more
  · intro s fen p r f die quiet none chosen
    change execDispatch fen s = _
    unfold execDispatch
    dsimp only
    rw [die, Bool.false_or, List.any_eq_false.mpr fun y hy => by rw [(quiet y hy).1]; exact Bool.false_ne_true,
      if_neg Bool.false_ne_true, List.filter_eq_nil_iff.mpr fun y hy => by rw [(quiet y hy).2]; exact Bool.false_ne_true]
    dsimp only [earliest, List.foldl_nil]
    rw [none]
    dsimp only
    rw [chosen]
  · intro s fen idx r f here due
    refine ⟨fun restarts => ?_, fun high aged others alone => ?_⟩
    · change execNodeAging fen idx s = _
      unfold execNodeAging
      dsimp only
      rw [here]
      dsimp only
      rw [due, r.restarts_iff.mpr restarts]
      rfl
    · have old : r.restarts = false := by
        rw [← Bool.not_eq_true, r.restarts_iff, aged]
        exact fun h => h.elim (Nat.not_lt.mpr high) nofun
      have first : earliest (f.ready.filter fun x => !x.restarts && s.agingDue f x) = some r := by
        refine earliest_of_first r _ (List.mem_filter.mpr ⟨List.mem_of_getElem? here, by rw [old, due]; rfl⟩) fun y hy => ?_
        obtain ⟨mem, waits⟩ := List.mem_filter.mp hy
        obtain ⟨restarts, dueY⟩ := (Bool.and_eq_true ..).mp waits
        by_cases same : y.same r = true
        · exact .inl (List.mem_singleton.mp (alone ▸ List.mem_filter.mpr ⟨mem, same⟩))
        · right
          have late : ¬(y.eff < 3 ∨ y.aged = false) := by
            rw [← y.restarts_iff]
            simpa using restarts
          rcases others y mem (Bool.not_eq_true _ ▸ same) with h | h | h | h
          · exact absurd (.inl h) late
          · exact absurd (.inr h) late
          · rw [dueY] at h; cases h
          · exact h
      change execNodeAging fen idx s = _
      unfold execNodeAging
      dsimp only
      rw [here]
      dsimp only
      rw [due, old, first]
      rfl
  · intro s key c u finishing quiet resident
    change execCoreTaskFinish key s = _
    unfold execCoreTaskFinish
    dsimp only
    rw [decide_eq_true finishing, quiet, decide_eq_true resident]
    cases newt : c.newt <;> cases serving : s.serving key <;> rfl
  · intro s fen idx d l n u here found node
    change execNodeFinish fen idx s = _
    unfold execNodeFinish
    rw [here]
    dsimp only
    rw [show State.launch (s.onFen fen.val _) d.launch = some l from found]
    dsimp only [Option.bind]
    rw [node]
  · intro s id l found all done
    change execLaunchComplete id s = _
    unfold execLaunchComplete
    rw [found]
    dsimp only
    rw [if_neg]
    rintro (more | some)
    · exact Nat.not_lt.mpr all more
    · obtain ⟨x, mem, isSome⟩ := List.any_eq_true.mp some
      rw [done x mem] at isSome
      cases isSome
end

section
/-! SUPPORT. The events of a core between its bundles (R46, R57, R59, R103, R105, R148, R335). -/

namespace Sys2Proof.Machine

/-- A change of a core that comes to a core of that key. -/
theorem State.onCore_eq (s : State) (k : CoreKey) (f : Core → Core) {d : Core} (h : f (s.getCore k) = d) : s.onCore k f = s.putCore d :=
  congrArg s.putCore h

/-- An arrived write that its core takes now. -/
theorem State.landNet_done (s : State) (k : CoreKey) (w : NetWrite) (back : State) (d : Core)
    (h : (s.getCore k).netWrite w.addr w.bytes 0 = .done d) :
    s.landNet k w back = (s.putCore d).onCore w.srcKey fun x => x.storeDone w.access w.piece := by
  unfold State.landNet
  rw [h]

/-- A memory without the bytes of some addresses. -/
theorem Memory.read_filter (m : Memory) (p : Nat → Bool) (a : Nat) :
    Memory.read (m.filter fun c => p c.1) a = if p a then m.read a else 0 := by
  induction m with
  | nil => exact (ite_self _).symm
  | cons c r ih =>
    rw [List.filter_cons, Memory.read]
    by_cases here : c.1 = a
    · rw [if_pos here]
      by_cases kept : p a = true
      · rw [here, if_pos kept, if_pos kept, Memory.read, if_pos here]
      · rw [here, if_neg kept, if_neg kept, ih, if_neg kept]
    · rw [if_neg here]
      split
      · rw [Memory.read, if_neg here, ih]
      · exact ih

theorem Memory.read_zeroBank (sp : Scratch) (bank t a : Nat) :
    (sp.zeroBank bank t).mem.read a = if bankOf a = bank then 0 else sp.mem.read a := by
  refine (Memory.read_filter sp.mem (fun x => decide (bankOf x ≠ bank)) a).trans ?_
  by_cases h : bankOf a = bank <;> simp [h]

/-- A core whose bank switch has ended (R103). -/
def Core.switched (c : Core) (b : Nat) (x : Cmd) : Core :=
  { c with
    sp := { c.sp.zeroBank b (vget c.pipes.engClocks (x.slot - 4)) with
      bank := vset (c.sp.zeroBank b (vget c.pipes.engClocks (x.slot - 4))).bank b { vget c.sp.bank b with
        mode := (vget c.sp.bank b).pend
        sw := decide (1 < (c.switches b).length) } }
    pipes := { c.pipes with cmds := c.pipes.cmds.map fun y => if y.id = x.id then { y with finished := true } else y } }

end Sys2Proof.Machine

open Sys2Proof Sys2Proof.Machine in
/-- Settles O50: each event's branch, and what `Scratch.zeroBank` leaves of the memory. -/
theorem coreEvents : Obligations.CoreEvents := by
  refine ⟨fun _ _ => rfl, ?_, ?_, ?_, ?_, ?_, ?_, ?_⟩
  · intro s key c issues late
    exact congrArg Host.Outcome.next (if_pos (by rw [issues, late]; rfl))
  · intro s key id a c d found load complete clean
    refine congrArg Host.Outcome.next (s.onCore_eq key _ ?_)
    change (match c.access id with | none => c | some a => _) = _
    rw [found]
    dsimp only
    rw [load, complete, clean]
    rfl
  · intro s key r fault issues
    change execDirectFormFault key s = _
    unfold execDirectFormFault
    dsimp only
    rw [fault]
    dsimp only
    rw [if_pos issues]
  · intro s key idx w d u here first opens lands
    change execNetworkWriteLand key idx s = _
    unfold execNetworkWriteLand
    dsimp only
    rw [here, Option.filter_some_pos first]
    dsimp only
    unfold State.arriveNet
    refine congrArg Host.Outcome.next ((if_pos opens).trans ?_)
    exact State.landNet_done u key w _ d lands
  · intro s key bank i d c u w found opens lands
    change execFifoHeldWrite key bank s = _
    unfold execFifoHeldWrite
    dsimp only
    rw [found]
    dsimp only
    refine congrArg Host.Outcome.next ((if_pos opens).trans ?_)
    exact State.landNet_done u key w _ d lands
  · intro s key bank x c moves found idle
    refine ⟨c.switched bank.toNat x, congrArg Host.Outcome.next (s.onCore_eq key _ ?_), ?_⟩
    · dsimp only
      rw [show s.enginesHeld (s.getCore key).landDue = false from moves, if_neg Bool.false_ne_true,
        show ((s.getCore key).landDue.switches bank.toNat).find? (·.started) = some x from found]
      dsimp only
      rw [show (s.getCore key).landDue.bankInUse bank.toNat = false from idle, if_neg Bool.false_ne_true]
      rfl
    · have bankReg := vget_vset_self (c.sp.zeroBank bank.toNat (vget c.pipes.engClocks (x.slot - 4))).bank bank.toNat
        { vget c.sp.bank bank.toNat with
          mode := (vget c.sp.bank bank.toNat).pend
          sw := decide (1 < (c.switches bank.toNat).length) } bank.isLt
      refine ⟨congrArg BankReg.mode bankReg, congrArg BankReg.sw bankReg, fun a here => ?_, fun a away => ?_, rfl, rfl⟩
      · exact (Memory.read_zeroBank c.sp _ (vget c.pipes.engClocks (x.slot - 4)) a).trans (if_pos here)
      · exact (Memory.read_zeroBank c.sp _ (vget c.pipes.engClocks (x.slot - 4)) a).trans (if_neg away)
  · intro s key g moves
    exact congrArg Host.Outcome.next (s.onCore_eq key _ (if_pos moves))
end

section
/-! SUPPORT. The events of the matrix unit, the sequencers and barriers (R64, R151, R273 to R291, R296, R297). -/

namespace Sys2Proof.Machine

/-- Changes of a core that agree on it. -/
theorem State.onCore_congr (s : State) (k : CoreKey) {f g : Core → Core} (h : f (s.getCore k) = g (s.getCore k)) :
    s.onCore k f = s.onCore k g := congrArg s.putCore h

theorem Core.setTok_cmds (c : Core) (t : Nat) (p : Bool) : (c.setTok t p).pipes = c.pipes := by
  unfold Core.setTok
  split <;> rfl

/-- The core without a command. -/
def Core.dropCmd (c : Core) (id : Nat) : Core :=
  { c with pipes := { c.pipes with cmds := c.pipes.cmds.filter fun y => decide (y.id ≠ id) } }

theorem Core.completeCmd_eq (c : Core) (id : Nat) (x : Cmd) (h : c.cmd id = some x) : c.completeCmd id
    = if (c.dropCmd id).pipes.cmds.any fun y => decide (y.tok = x.tok) then c.dropCmd id
      else (c.dropCmd id).setTok x.tok.toNat false := by
  unfold Core.completeCmd
  rw [h]
  rfl

theorem Core.completeCmd_pipes (c : Core) (id : Nat) (x : Cmd) (h : c.cmd id = some x) :
    (c.completeCmd id).pipes = (c.dropCmd id).pipes := by
  rw [c.completeCmd_eq id x h]
  split
  · rfl
  · exact Core.setTok_cmds ..

end Sys2Proof.Machine

open Sys2Proof Sys2Proof.Machine in
/-- Settles O51: each event's branch; a command that completes leaves, and with the last of its token so does PENDING. -/
theorem unitEvents : Obligations.UnitEvents := by
  refine ⟨?_, ?_, ?_, ?_, ?_, ?_, ?_⟩
  · intro s key id m c found
    refine ⟨?_, fun moves may => ⟨?_, ?_⟩⟩
    · intro u v ga gb base unread moves issues may first second
      refine congrArg Host.Outcome.next ?_
      unfold State.scalesTurn
      dsimp only
      rw [show (s.getCore key).mx.mmas.find? (fun m => decide (m.id = id)) = some m from found]
      dsimp only
      rw [unread, show (s.getCore key).unitStopped = false from moves, show s.issues (s.getCore key) = true from issues,
        show s.scalesMay (s.getCore key) m = true from may, if_neg (by decide), show s.readScales key m.bundle (BitVec.ofNat 64 (shAt m.shape 440 384)) m.blocksA.flatten = .ok (ga, u) from first]
      dsimp only
      rw [show u.readScales key m.bundle (BitVec.ofNat 64 (shAt m.shape 440 384)) m.blocksB.flatten = .ok (gb, v) from second]
    · refine congrArg Host.Outcome.next (s.onCore_congr key ?_)
      rw [show (s.getCore key).mx.mmas.find? (fun m => decide (m.id = id)) = some m from found]
      exact if_pos (by rw [moves, may]; rfl)
    · refine congrArg Host.Outcome.next (s.onCore_congr key ?_)
      dsimp only
      rw [show (s.getCore key).mx.mmas.find? (fun m => decide (m.id = id)) = some m from found]
      exact if_pos (by rw [moves, may]; rfl)
  · intro s u key lt r bs c found moves going waits read last
    change execLatchreedRowLand key lt s = _
    unfold execLatchreedRowLand
    dsimp only
    rw [show (s.getCore key).mx.reeds.find? (fun r => decide (r.lt = lt)) = some r from found]
    dsimp only
    have ready : (r.waits.any fun i => ((s.getCore key).cmd i).isSome) = false := by
      rw [List.any_eq_false]
      intro i hi
      rw [show (s.getCore key).cmd i = none from waits i hi]
      exact Bool.false_ne_true
    rw [show s.unitMoves (s.getCore key) = true from moves, ready, show (s.getCore key).unitStopped = false from going,
      if_neg (by decide), show s.reedRow (s.getCore key) r = .ok (bs, u) from read]
    dsimp only
    rw [if_neg (Nat.not_lt.mpr last)]
  · intro s key cb c moves done
    refine congrArg Host.Outcome.next (s.onCore_congr key (if_pos ?_))
    rw [show s.unitMoves (s.getCore key) = true from moves, decide_eq_true done]
    rfl
  · intro s key id x c found started seq frozen waits saves
    have ready : (x.waits.any fun i => (c.cmd i).isSome) = false := by
      rw [List.any_eq_false]
      intro i hi
      rw [waits i hi]
      exact Bool.false_ne_true
    change execEngineCommandStart key id s = _
    unfold execEngineCommandStart
    dsimp only
    rw [show (s.getCore key).cmd id = some x from found]
    dsimp only
    rw [show (x.started || (s.getCore key).seqStopped x || (s.getCore key).frozen || (x.waits.any fun i => ((s.getCore key).cmd i).isSome)
      || s.saveStops (s.getCore key)) = (x.started || c.seqStopped x || c.frozen || (x.waits.any fun i => (c.cmd i).isSome)
      || s.saveStops c) from rfl, started, seq, frozen, ready, saves]
    rfl
  · intro s key id x c found finished posted held written
    change execEngineCommandComplete key id s = _
    unfold execEngineCommandComplete
    dsimp only
    rw [show (s.getCore key).cmd id = some x from found]
    dsimp only
    rw [if_pos]
    rw [finished, posted, show s.enginesHeld (s.getCore key) = false from held, written]
    rfl
  · intro c id x found tok
    refine ⟨?_, fun alone => ?_⟩
    · have none : (c.dropCmd id).cmd id = none := by
        refine List.find?_eq_none.mpr fun y hy => ?_
        have other := of_decide_eq_true (List.mem_filter.mp hy).2
        rw [decide_eq_true_eq]
        exact other
      unfold Core.cmd at none ⊢
      rw [c.completeCmd_pipes id x found]
      exact none
    · have last : ((c.dropCmd id).pipes.cmds.any fun y => decide (y.tok = x.tok)) = false := by
        rw [List.any_eq_false]
        intro y hy
        obtain ⟨mem, other⟩ := List.mem_filter.mp hy
        rw [decide_eq_true_eq]
        exact alone y mem (of_decide_eq_true other)
      rw [c.completeCmd_eq id x found, last, if_neg Bool.false_ne_true, Core.pending_setTok _ _ _ _ x.tok.isLt]
      exact if_pos ⟨rfl, fun zero => tok (BitVec.eq_of_toNat_eq zero)⟩
  · intro s key bar t task over_
    change execBarrierComplete key bar s = _
    unfold execBarrierComplete
    rw [task]
    dsimp only
    rw [if_pos over_]
end

section
/-! SUPPORT. The events of the mailbox (R53, R165 to R167, R237, R389, R390). -/

open Sys2Proof Sys2Proof.Machine in
/-- Settles O52: each event's branch, by its conditions. -/
theorem mailboxEvents : Obligations.MailboxEvents := by
  refine ⟨?_, ?_, ?_, ?_, ?_⟩
  · intro s fen w x f first cmd u
    refine ⟨fun master room order => ?_, fun master => ?_⟩
    · change execMailboxPlace fen s = _
      unfold execMailboxPlace
      dsimp only
      rw [first]
      dsimp only
      rw [cmd]
      dsimp only
      rw [if_neg (by rw [Option.isNone_eq_false_iff.mpr master]; exact Bool.false_ne_true), if_pos ⟨room, by rw [order]; rfl⟩]
    · change execMailboxPlace fen s = _
      unfold execMailboxPlace
      dsimp only
      rw [first]
      dsimp only
      rw [cmd]
      dsimp only
      rw [if_pos (by rw [show (vget s.fens fen.val).master = none from master]; rfl)]
  · intro s fen i f master
    have live : (vget s.fens fen.val).master.isNone = false := Option.isNone_eq_false_iff.mpr master
    refine ⟨fun found => ?_, fun noneRead found serves => ?_⟩
    · change execMailboxTake fen s = _
      unfold execMailboxTake
      dsimp only
      rw [live, if_neg Bool.false_ne_true, found]
    · have read : ((vget s.fens fen.val).reading.findIdx? fun e => e.stop.isNone && s.mayServe fen.val e) = none := by
        rw [List.findIdx?_eq_none_iff]
        intro e he
        cases stop : e.stop with
        | none => rw [noneRead e he stop]; rfl
        | some q => rfl
      change execMailboxTake fen s = _
      unfold execMailboxTake
      dsimp only
      rw [live, if_neg Bool.false_ne_true, read]
      dsimp only
      rw [found]
      dsimp only
      rw [if_pos serves]
  · intro s fen site e f none_ master
    refine ⟨fun found => ?_, fun served found free idle taken => ?_⟩
    · change execMailboxServiceStart fen s = _
      unfold execMailboxServiceStart
      dsimp only
      rw [master]
      dsimp only
      rw [show (vget s.fens fen.val).mailbox.find? (fun e => (decide (mbKind e.bits = 0) && !e.taken)
        && (vget s.ctxs (mbCtx e.bits)).noProgram) = some e from found]
    · have program : (vget s.fens fen.val).mailbox.find? (fun e => (decide (mbKind e.bits = 0) && !e.taken)
          && (vget s.ctxs (mbCtx e.bits)).noProgram) = none :=
        List.find?_eq_none.mpr fun y hy => Bool.eq_false_iff.mp (served y hy)
      change execMailboxServiceStart fen s = _
      unfold execMailboxServiceStart
      dsimp only
      rw [master]
      dsimp only
      rw [program]
      dsimp only
      rw [found]
      dsimp only
      rw [show (vget s.fens fen.val).service = none from free, idle, taken]
      rfl
  · intro s key r rest replies ordered
    change execMailboxReplyLand key s = _
    unfold execMailboxReplyLand
    rw [replies]
    dsimp only
    rw [ordered]
    rfl
  · intro c v
    refine ⟨fun none => if_pos none, fun posts => ?_⟩
    have lands : c.landReply v = { c.landDue.ws 31 v with posts := c.landDue.posts - 1 } := if_neg posts
    rw [lands]
    exact ⟨(Core.rs_ws c.landDue 31 31 v).trans (if_pos ⟨rfl, by decide⟩), rfl⟩
end

section
/-! SUPPORT. The events of collectives (R170, R171, R330, R352, R388, R392, R393). -/

namespace Sys2Proof.Machine

/-- A held transfer that its fen cannot take any more is refused wherever it stands in the line. -/
theorem State.landTransfer_refused (s : State) (fen : Nat) (t : Transfer) (n k : Nat) (keep drop : State → State)
    (h : s.arrivalCause fen t.member = some k) : s.landTransfer fen t n keep drop = (drop s).transferRefused t.key k := by
  unfold State.landTransfer
  rw [h]

/-- A held transfer whose turn it is. -/
theorem State.deliverHeld_transfer (s : State) (fen idx : Nat) (t : Transfer) (n : Nat) (noted : Bool)
    (here : (vget s.fens fen).held[idx]? = some (.transfer t n, noted)) (opens : s.heldOpen fen (.transfer t n) = true)
    (first : (vget s.fens fen).firstHeld fen idx (.transfer t n) = true ∨ (s.arrivalCause fen t.member).isSome = true) :
    s.deliverHeld fen idx = if (vget s.fens fen).seen.contains t.key
      then (s.onFen fen fun x => { x with held := x.held.eraseIdx idx }).collCounted t.key
      else s.landTransfer fen t n (fun u => u.onFen fen fun x => { x with held := x.held.set idx (.transfer t (n + 1), noted) })
        fun u => u.onFen fen fun x => { x with held := x.held.eraseIdx idx } := by
  have turn : ((vget s.fens fen).firstHeld fen idx (.transfer t n) || s.heldRefused fen (.transfer t n)) = true := by
    rw [Bool.or_eq_true]
    exact first
  unfold State.deliverHeld
  dsimp only
  rw [here]
  dsimp only
  rw [opens, turn]
  rfl

/-- The logical core that XHOLD names. -/
theorem xhold_core (fen : FenNo) (m : Word) : (if isNewtKey (memberHoldKey fen.val m) then 0xFFF else memberHoldKey fen.val m)
    = if mNewt m then 0xFFF else 128 * fen.val + mCore m := by
  unfold memberHoldKey mNewt mCore isNewtKey
  cases bit m 18 with
  | true => exact if_pos (decide_eq_true (Nat.le_add_right ..))
  | false =>
    have small : bits m 17 11 < 128 := Nat.mod_lt _ (by decide)
    have fenSmall := fen.isLt
    refine if_neg ?_
    rw [decide_eq_true_eq, if_neg Bool.false_ne_true]
    change ¬ (4096 : Nat) ≤ 128 * fen.val + bits m 17 11
    omega

end Sys2Proof.Machine

open Sys2Proof Sys2Proof.Machine in
/-- Settles O53: each event's branch, by its conditions. -/
theorem collectiveEvents : Obligations.CollectiveEvents := by
  refine ⟨?_, ?_, ?_, ?_⟩
  · intro s fen idx c f here master stop left room
    have goes : (f.master.isNone || c.stop.isSome || decide (c.total ≤ c.pos) || decide (1024 ≤ f.unacked)) = false := by
      rw [Option.isNone_eq_false_iff.mpr master, stop, decide_eq_false (Nat.not_le.mpr left), decide_eq_false (Nat.not_le.mpr room)]
      rfl
    refine ⟨fun k cause => ?_, fun u p bs cause next part => ?_⟩
    · change execCollTransferEmit fen idx s = _
      unfold execCollTransferEmit
      dsimp only
      rw [here]
      dsimp only
      rw [goes, if_neg Bool.false_ne_true, cause]
    · change execCollTransferEmit fen idx s = _
      unfold execCollTransferEmit
      dsimp only
      rw [here]
      dsimp only
      rw [goes, if_neg Bool.false_ne_true, cause]
      dsimp only
      rw [next]
      dsimp only
      rw [part]
  · intro s fen idx t n f drop keep here
    have arrive : exec (.transferArrive fen idx) s = .next (
        if f.seen.contains t.key then (drop s).collCounted t.key
        else if n ≠ 0 ∧ s.memberClosed fen.val t.member t.ctx then
          if f.partBehind fen.val idx t then s else (drop s).holdFirst fen.val (.transfer t n)
        else if s.transferStopped t.key then s
        else if n = 0 ∧ (s.arrivalCause fen.val t.member).isSome then
          (drop s).transferRefused t.key ((s.arrivalCause fen.val t.member).getD 0)
        else if n = 0 ∧ (s.memberClosed fen.val t.member t.ctx || s.memberHeld fen.val t.member t.ctx) then
          (drop s).holdAt fen.val (.transfer t 0)
        else s.landTransfer fen.val t n keep drop) := by
      change execTransferArrive fen idx s = _
      unfold execTransferArrive
      dsimp only
      rw [here]
    refine ⟨fun seen => ?_, fun unseen part closed last => ?_, fun unseen going => ⟨fun k whole cause => ?_, fun may => ⟨?_, ?_⟩⟩⟩
    · rw [arrive, if_pos seen]
    · rw [arrive, if_neg (by rw [unseen]; exact Bool.false_ne_true), if_pos ⟨part, closed⟩, if_neg (by rw [last]; exact Bool.false_ne_true)]
      rfl
    · rw [arrive, if_neg (by rw [unseen]; exact Bool.false_ne_true), if_neg fun h => h.1 whole,
        if_neg (by rw [going]; exact Bool.false_ne_true), if_pos ⟨whole, by rw [cause]; rfl⟩, cause]
      rfl
    · intro whole held
      rw [arrive, if_neg (by rw [unseen]; exact Bool.false_ne_true), if_neg fun h => h.1 whole,
        if_neg (by rw [going]; exact Bool.false_ne_true), if_neg fun h => ?_, if_pos ⟨whole, (Bool.or_eq_true ..).mpr held⟩, whole]
      rcases may with part | none
      · exact part whole
      · rw [none] at h
        cases h.2
    · intro opens first
      rw [arrive, if_neg (by rw [unseen]; exact Bool.false_ne_true), if_neg (by rw [opens]; exact fun h => Bool.false_ne_true h.2),
        if_neg (by rw [going]; exact Bool.false_ne_true), if_neg fun h => ?_, if_neg fun h => ?_]
      · rw [opens, Bool.false_or] at h
        rcases first with part | free
        · exact part h.1
        · rw [free] at h
          cases h.2
      · rcases may with part | none
        · exact part h.1
        · rw [none] at h
          cases h.2
  · intro s fen idx t n noted f drop here opens first
    have deliver := s.deliverHeld_transfer fen.val idx t n noted here opens first
    refine ⟨fun seen => ?_, fun k unseen cause => ?_, fun unseen => ?_⟩
    · exact congrArg Host.Outcome.next (deliver.trans (if_pos seen))
    · refine congrArg Host.Outcome.next (deliver.trans ((if_neg ?_).trans (s.landTransfer_refused fen.val t n k _ _ cause)))
      rw [unseen]
      exact Bool.false_ne_true
    · refine congrArg Host.Outcome.next (deliver.trans (if_neg ?_))
      rw [unseen]
      exact Bool.false_ne_true
  · intro s fen idx t n f h here
    change execXhold fen idx s = _
    unfold execXhold
    dsimp only
    rw [here]
    dsimp only
    rw [← xhold_core]
    rfl
end

section
/-! SUPPORT. The events of contexts (R13, R21, R339, R347, R356 and the registers of R404). -/

namespace Sys2Proof.Machine

/-- An element of a mapped vector. -/
theorem vget_map {α β : Type} [Inhabited α] [Inhabited β] {n : Nat} (f : α → β) (v : Vector α n) (i : Nat) (h : i < n) :
    vget (v.map f) i = f (vget v i) := by
  simp [vget, h]

/-- What an invalidation leaves of a list of translations. -/
theorem mem_tlbKept {v : Word} {l : List TlbEntry} {e : TlbEntry} (h : e ∈ l.filter fun e => !e.invalidated v) :
    e ∈ l ∧ e.invalidated v = false :=
  have ⟨was, stays⟩ := List.mem_filter.mp h
  ⟨was, (Bool.not_eq_true' _).mp stays⟩

end Sys2Proof.Machine

open Sys2Proof Sys2Proof.Machine in
/-- Settles O54: each event's branch, by its conditions. -/
theorem contextEvents : Obligations.ContextEvents := by
  refine ⟨?_, fun s n => ⟨?_, ?_, ?_⟩, ?_, ?_, ?_, ?_⟩
  · intro s n k x may idle
    change execContextStart n s = _
    unfold execContextStart
    dsimp only
    rw [show s.idleNewt (vget s.ctxs n.toNat).home.toNat = some k from idle, may]
    rfl
  · intro visible state
    exact congrArg Host.Outcome.next (if_pos (by rw [visible, decide_eq_true state]; rfl))
  · intro visible state
    exact congrArg Host.Outcome.next (if_pos (by rw [visible, decide_eq_true state]; rfl))
  · intro hidden
    exact ⟨congrArg Host.Outcome.next (if_neg (by rw [hidden]; exact Bool.false_ne_true)),
      congrArg Host.Outcome.next (if_neg (by rw [hidden]; exact Bool.false_ne_true))⟩
  · intro s v visible done
    exact congrArg Host.Outcome.next (if_pos (by rw [visible, done]; rfl))
  · intro s asked
    refine ⟨_, congrArg Host.Outcome.next (if_neg (by rw [asked]; exact Bool.false_ne_true)), rfl,
      fun e h => mem_tlbKept h, fun f small e h => ?_, fun c h e mem => ?_, rfl, rfl⟩
    · rw [vget_map _ _ _ small] at h
      exact (mem_tlbKept h).2
    · obtain ⟨d, -, rfl⟩ := List.mem_map.mp h
      exact (mem_tlbKept mem).2
  · intro s nonce visible free
    exact congrArg Host.Outcome.next (if_pos (by rw [visible, free]; rfl))
  · intro s n asked
    change execAttestationReady 0 s = _
    unfold execAttestationReady
    rw [asked]
    rfl
end

section
/-! SUPPORT. A conductor's change (R358): the core that a new program enters follows every event so far (R149). -/

namespace Sys2Proof.Machine

/-- A conductor without an image enters as a new program, with its core's clocks at the latest time. -/
theorem State.conductorEnter_new (s : State) (fen : Nat) (k : CoreKey) (d : Conductor) (h : d.image = none) :
    s.conductorEnter fen k d = .next ((s.onCore k fun c =>
      (c.startConductor d.ctx (vget s.ctxs d.ctx.toNat).entry).syncAt s.latest).onConductor fen d.ctx fun d => { d with state := .running }) := by
  unfold State.conductorEnter
  rw [h]

/-- Of one ready conductor, that one comes next. -/
theorem State.conductorPick_one (s : State) (d : Conductor) : s.conductorPick [d] = some d := by
  unfold State.conductorPick
  rw [List.length_singleton, Nat.mod_one, List.find?_singleton]
  split <;> rfl

/-- The other ready conductors of a fen are passed over as one of them comes next. -/
def State.passedOver (s : State) (fen : FenNo) (d : Conductor) : State :=
  let ready := (vget s.fens fen.val).conductors.filter s.conductorReady
  let count (x : Conductor) : Conductor := { x with passed := if x.ctx = d.ctx then 0 else x.passed + 1 }
  s.fresh.onFen fen.val fun f => { f with conductors := mapIf (fun x => ready.any fun y => decide (y.ctx = x.ctx)) count f.conductors }

/-- A ready conductor comes onto an idle newt. -/
theorem execConductorChange_enters (s : State) (fen : FenNo) (k : CoreKey) (d : Conductor) (key : s.conductorKey fen.val = some k)
    (serving : s.serving k = false) (status : (s.getCore k).landDue.status = .idle) (free : s.newtTaken fen.val = false)
    (pick : s.conductorPick ((vget s.fens fen.val).conductors.filter s.conductorReady) = some d) :
    execConductorChange fen s = (s.passedOver fen d).conductorEnter fen.val k d := by
  unfold execConductorChange
  rw [key]
  dsimp only
  rw [serving, if_neg Bool.false_ne_true, if_pos status]
  unfold State.conductorNext
  dsimp only
  rw [free, if_neg Bool.false_ne_true, pick]
  rfl

/-- A conductor that waits to start. -/
def readyConductor : Conductor := ⟨0, .ready, none, [], 0, false⟩

/-- The package after reset, one time unit on, with a live context whose conductor waits to start on fen 0's idle standby. -/
def conductorWaits : State := { State.reset with
  core := Core.reset 4097
  latest := 1
  fens := vset State.reset.fens 0 { Fen.reset with conductors := [readyConductor] }
  ctxs := vset State.reset.ctxs 0 { Ctx.reset with state := 2 } }

/-- The conductor that waits starts, its core's clocks at time 1. -/
theorem conductorWaits_change : ∃ u, exec (.conductorChange 0) conductorWaits = .next u ∧ u.core.pipes.synced = 1 := by
  have run := execConductorChange_enters conductorWaits 0 4097 readyConductor rfl rfl rfl rfl
    (conductorWaits.conductorPick_one readyConductor)
  exact ⟨_, run.trans ((conductorWaits.passedOver 0 readyConductor).conductorEnter_new 0 4097 readyConductor rfl), rfl⟩

end Sys2Proof.Machine

open Sys2Proof Sys2Proof.Machine in
/-- Refutes O55: a conductor without an image that enters its newt follows every event so far (its clocks are raised to the
latest time), and the statement leaves its clocks as they were; `conductorWaits` is one time unit after reset. -/
theorem not_recordAndPreemptionEvents : ¬ Obligations.RecordAndPreemptionEvents := by
  unfold Obligations.RecordAndPreemptionEvents
  rintro ⟨-, -, -, -, -, -, -, -, change, -⟩
  obtain ⟨u, run, synced⟩ := conductorWaits_change
  have said := run.symm.trans (change conductorWaits 0 4097 readyConductor rfl rfl rfl rfl
    (conductorWaits.conductorPick_one readyConductor) rfl)
  injection said with same
  rw [same] at synced
  exact absurd synced (by decide)
end

section
/-! SUPPORT. The host's accesses (R132, R180, R362, R366, R371, R373, R399, R400, R404). -/

namespace Sys2Proof.Machine

/-- A write below the die's registers leaves the die as it was. -/
theorem Die.register_low (d : Die) (o : Nat) (v : Word) (h : o < 0x1000) : d.register o v = d := by
  unfold Die.register
  repeat rw [if_neg (by omega)]

/-- A change of a die that leaves it as it was. -/
theorem State.onDie_same (s : State) (n : Nat) (f : Die → Die) (h : f (vget s.dies n) = vget s.dies n) : s.onDie n f = s := by
  unfold State.onDie
  rw [h, vset_vget]

/-- A write of a register of the package, which stands on die 0. -/
theorem execHostRegisterWrite_pkg (s : State) (off : BitVec 32) (v : Word) (visible : s.visible = true) (die : s.dieLost 0 = false)
    (low : off.toNat < 0x1000) (other : off.toNat ≠ 8) :
    execHostRegisterWrite off v s = .next { s with pkg := s.pkg.register off.toNat v } := by
  unfold execHostRegisterWrite
  dsimp only
  rw [show off.toNat / 0x10000 = 0 by omega, show off.toNat % 0x10000 = off.toNat by omega, visible, die,
    if_neg (show ¬ (!true || false) = true by decide), if_neg (show ¬ 6 ≤ 0 by decide), if_pos rfl,
    if_neg (show ¬ (0 = 0 ∧ off.toNat = 0x0008) from fun h => other h.2),
    if_neg (show ¬ (0x3400 ≤ off.toNat ∧ off.toNat < 0x3430 ∧ off.toNat % 8 = 0) by omega),
    State.onDie_same _ 0 _ (Die.register_low _ _ v low)]

/-- A write of CTXB. -/
theorem execHostRegisterWrite_ctxb (s : State) (v : Word) (visible : s.visible = true) (die : s.dieLost 0 = false) :
    execHostRegisterWrite 0x08 v s = .next (s.setCtxb v) := by
  unfold execHostRegisterWrite
  dsimp only
  rw [show (0x08 : BitVec 32).toNat / 0x10000 = 0 from rfl, show (0x08 : BitVec 32).toNat % 0x10000 = 8 from rfl, visible, die,
    if_neg (show ¬ (!true || false) = true by decide), if_neg (show ¬ 6 ≤ 0 by decide), if_pos rfl,
    if_pos (show 0 = 0 ∧ 8 = 8 from ⟨rfl, rfl⟩), if_neg (show ¬ (0x3400 ≤ 8 ∧ 8 < 0x3430 ∧ 8 % 8 = 0) by decide),
    State.onDie_same _ 0 _ (Die.register_low _ _ v (by decide))]
  rfl

/-- A write of a die's HEATB. -/
theorem execHostRegisterWrite_heatb (s : State) (v : Word) (die : DieNo) (visible : s.visible = true) (live : s.dieLost die.val = false) :
    execHostRegisterWrite (BitVec.ofNat 32 (0x10000 * die.val + 0x1008)) v s = .next (s.onDie die.val fun d => { d with heatb := v }) := by
  have small := die.isLt
  have at_ : (BitVec.ofNat 32 (0x10000 * die.val + 0x1008)).toNat = 0x10000 * die.val + 0x1008 := by
    rw [BitVec.toNat_ofNat]
    omega
  have kept : s.pkg.register 0x1008 v = s.pkg := rfl
  unfold execHostRegisterWrite
  dsimp only
  rw [at_, show (0x10000 * die.val + 0x1008) / 0x10000 = die.val by omega, show (0x10000 * die.val + 0x1008) % 0x10000 = 0x1008 by omega,
    visible, live, if_neg (show ¬ (!true || false) = true by decide), if_neg (show ¬ 6 ≤ die.val by omega), kept, ite_self,
    if_neg (show ¬ (die.val = 0 ∧ 0x1008 = 0x0008) from fun h => absurd h.2 (by decide)),
    if_neg (show ¬ (0x3400 ≤ 0x1008 ∧ 0x1008 < 0x3430 ∧ 0x1008 % 8 = 0) by decide)]
  rfl

/-- A read of a register of the package, which stands on die 0. -/
theorem State.registerRead_low (s : State) (off : Nat) (visible : s.visible = true) (recovery : s.pkg.recovery = false)
    (die : s.dieLost 0 = false) (low : off < 0x1000) : s.registerRead off = s.pkg.read off := by
  have none : (vget s.dies 0).read off = 0 := by
    unfold Die.read
    repeat rw [if_neg (by omega)]
  unfold State.registerRead
  dsimp only
  rw [recovery, if_neg Bool.false_ne_true, show off / 0x10000 = 0 by omega, show off % 0x10000 = off by omega, visible, die,
    if_neg (by decide), if_neg (by omega), if_pos rfl, none]
  exact BitVec.zero_or

/-- A step of the debug path that has begun. -/
theorem State.debug_goes (s : State) (die : DieNo) (cmd : Word) (op : Nat) {α : Type} (a b c : α) (h : s.dbgStarts die cmd op = false)
    (may : s.dbgMay die cmd op = true) : (if s.dbgStarts die cmd op then a else if !s.dbgMay die cmd op then b else c) = c := by
  rw [h, may]
  rfl

end Sys2Proof.Machine

open Sys2Proof Sys2Proof.Machine in
/-- Settles O56: each access's branch, by its conditions. -/
theorem hostEvents : Obligations.HostEvents := by
  refine ⟨fun s die cmd => ⟨fun starts => ?_, fun starts => ?_, fun starts ok => ?_, fun starts bad => ?_, fun starts record away => ?_,
    fun busy op => ?_⟩, ?_, ?_, ?_, ?_, ?_, ?_⟩
  · exact congrArg Host.Outcome.next (if_pos starts)
  · exact congrArg Host.Outcome.next (if_pos starts)
  · exact congrArg Host.Outcome.next ((if_pos starts).trans (if_pos ok))
  · refine congrArg Host.Outcome.next ((if_pos starts).trans ((if_neg ?_).trans ?_))
    · unfold State.dbgWriteOk
      rw [bad]
      exact Bool.false_ne_true
    · rw [bad]
      rfl
  · refine congrArg Host.Outcome.next ((if_pos starts).trans ((if_neg ?_).trans ?_))
    · unfold State.dbgWriteOk
      rw [away, Bool.and_false]
      exact Bool.false_ne_true
    · rw [record]
      rfl
  · unfold State.dbgStarts
    rw [busy, Bool.and_false]
  · intro s u die cmd bs t began may read
    change execDebugRawRead die cmd s = _
    unfold execDebugRawRead
    rw [s.debug_goes die cmd 0 _ _ _ began may, read]
  · intro s u die cmd bs t began may read
    change execDebugDecodeRead die cmd s = _
    unfold execDebugDecodeRead
    rw [s.debug_goes die cmd 1 _ _ _ began may, read]
  · intro s die cmd d began may runs write
    change execDebugRawWrite die cmd s = _
    unfold execDebugRawWrite
    rw [s.debug_goes die cmd 2 _ _ _ began may, runs]
    dsimp only
    rw [write]
    rfl
  · intro s visible
    refine ⟨fun pa len => ?_, fun pa bs => ?_, fun v die => ⟨?_, ?_, ?_⟩, fun v die live => ?_, fun normal die => ?_, ?_, fun n => ?_,
      fun v newer key => ?_, fun die live phase => ?_, ?_⟩
    · exact congrArg Host.Outcome.next (if_neg (by rw [visible]; decide))
    · exact congrArg Host.Outcome.next (if_neg (by rw [visible]; decide))
    · exact execHostRegisterWrite_ctxb s v visible die
    · exact execHostRegisterWrite_pkg s 0x40 v visible die (by decide) (by decide)
    · exact execHostRegisterWrite_pkg s 0x50 v visible die (by decide) (by decide)
    · exact execHostRegisterWrite_heatb s v die visible live
    · have low off h := s.registerRead_low off visible normal die h
      exact ⟨low _ (by decide), low _ (by decide), low _ (by decide), low _ (by decide), low _ (by decide), low _ (by decide),
        low _ (by decide)⟩
    · exact congrArg Host.Outcome.next (if_neg (by rw [visible]; decide))
    · exact congrArg Host.Outcome.next (if_pos visible)
    · refine congrArg Host.Outcome.next (if_neg ?_)
      rw [visible, decide_eq_false (Nat.not_lt.mpr newer)]
      rcases key with same | unused
      · rw [decide_eq_false (not_not_intro same)]
        exact Bool.false_ne_true
      · rw [unused, List.isEmpty_nil, Bool.not_true, Bool.and_false]
        decide
    · exact congrArg Host.Outcome.next (if_pos (by rw [visible, live, decide_eq_true phase]; rfl))
    · exact congrArg Host.Outcome.next (if_neg (by rw [visible]; exact Bool.false_ne_true))
  · intro s off bs recovery room
    exact congrArg Host.Outcome.next (if_pos (by rw [recovery, decide_eq_true room]; rfl))
  · intro s r normal link
    refine ⟨fun lost => congrArg Host.Outcome.next (if_pos (.inr (.inr (.inr lost)))), fun live => ⟨fun last => ?_, fun on early none => ?_,
      fun slot on early image => ⟨fun c cause => ?_, fun none => ?_⟩⟩⟩
    all_goals
      have goes (on : s.pkg.bootStep ≠ 0) : ¬ (s.pkg.bootStep = 0 ∨ s.pkg.recovery = true ∨ (!r.hostLink) = true ∨ s.dieLost 0 = true) := by
        rw [normal, link, live]
        simpa using on
    · exact congrArg Host.Outcome.next ((if_neg (goes (by rw [last]; decide))).trans (if_pos last))
    · refine congrArg Host.Outcome.next ((if_neg (goes on)).trans ((if_neg early).trans ?_))
      rw [none]
    · refine congrArg Host.Outcome.next ((if_neg (goes on)).trans ((if_neg early).trans ?_))
      rw [image]
      dsimp only
      rw [cause]
    · refine congrArg Host.Outcome.next ((if_neg (goes on)).trans ((if_neg early).trans ?_))
      rw [image]
      dsimp only
      rw [none]
end

section
/-! SUPPORT. Leases (R114, R153, R313, R376 to R378, R398). -/

open Sys2Proof Sys2Proof.Machine in
/-- Settles O58: each event's branch, by its conditions. -/
theorem leaseEvents : Obligations.LeaseEvents := by
  refine ⟨?_, fun s dev size => ⟨rfl, fun win may => ?_⟩, ?_, ?_, ?_, fun s dev lost => ⟨?_, ?_⟩⟩
  · intro s u v fen idx q bs r w here fresh read write
    change execLeaseResponse fen idx r s = _
    unfold execLeaseResponse
    rw [here]
    dsimp only
    rw [fresh]
    unfold State.leaseWrite
    rw [read]
    dsimp only
    rw [write]
    cases r <;> rfl
  · exact congrArg Host.Outcome.next (if_pos may)
  · intro s v l t lent visible
    change execLrevoke v s = _
    unfold execLrevoke
    dsimp only
    rw [lent]
    dsimp only
    rw [visible]
    rfl
  · intro s lender lid t l borrowed live
    change execLeaseNoticeReceive ⟨lender, lid⟩ t s = _
    unfold execLeaseNoticeReceive
    dsimp only
    rw [borrowed]
    dsimp only
    rw [live]
    rfl
  · intro s lid l over_
    change execLeaseExpiry lid s = _
    unfold execLeaseExpiry
    rw [over_]
  · exact congrArg Host.Outcome.next (if_pos lost)
  · exact congrArg Host.Outcome.next (if_pos lost)
end

section
/-! SUPPORT. Ports, modules and dies (R375, R379 to R386). -/

namespace Sys2Proof.Machine

/-- A die beside another has one of the six numbers. -/
theorem diesBeside_lt : ∀ a : Fin 6, ∀ c ∈ diesBeside a.val, c < 8 := by decide

/-- The route between two dies goes to one beside the first, over a pair that is up. -/
theorem State.dieRoute_step (s : State) (a b : Fin 6) (c : BitVec 3) (h : s.dieRoute a.val b.val = some c) :
    a ≠ b ∧ c.toNat ∈ diesBeside a.val ∧ s.pairUp a.val c.toNat = true := by
  unfold State.dieRoute at h
  split at h
  · cases h
  · next apart =>
    obtain ⟨d, found, rfl⟩ := Option.map_eq_some_iff.mp h
    obtain ⟨n, -, step⟩ := List.exists_of_findSome?_eq_some found
    have beside := List.mem_of_find?_eq_some step
    have up := List.find?_some step
    rw [Bool.and_eq_true] at up
    rw [BitVec.toNat_ofNat, Nat.mod_eq_of_lt (diesBeside_lt a d beside)]
    exact ⟨fun same => apart (congrArg Fin.val same), beside, up.1⟩

end Sys2Proof.Machine

open Sys2Proof Sys2Proof.Machine in
/-- Settles O59: each event's branch, by its conditions. -/
theorem linkEvents : Obligations.LinkEvents := by
  refine ⟨?_, ?_, ?_, ?_, ?_, ?_, fun s port => ⟨fun up => ?_, fun down live => ?_⟩, State.dieRoute_step, fun s die live visible => ?_⟩
  · intro s port f p linked settled q
    have up : (vget s.ports port.val).up = true := by
      unfold Port.up
      rw [show (vget s.ports port.val).training = false from settled, decide_eq_true (show (vget s.ports port.val).state = 2 from linked)]
      rfl
    have receive : exec (.flitReceive port f) s = if f.crc ≠ flitCrc f then .next (s.putPort port.val (p.crcError.drop f))
        else if !flitSequenced f then .next (s.putPort port.val q).pump
        else if !q.inOrder f then .next (s.putPort port.val (q.drop f)).pump
        else if f.dst = Config.deviceNo then (s.putPort port.val (q.accept f)).pump.deliver f.src f.body
        else .next ((s.putPort port.val (q.accept f)).pump.forward f) := by
      change execFlitReceive port f s = _
      unfold execFlitReceive
      dsimp only
      rw [up]
      rfl
    refine ⟨fun bad => ?_, fun good free => ?_, fun good seq late => ?_, fun good seq order away => ?_, fun good seq order here => ?_⟩
    · rw [receive, if_pos bad]
    · rw [receive, if_neg (not_not_intro good), free]
      rfl
    · rw [receive, if_neg (not_not_intro good), seq, late]
      rfl
    · rw [receive, if_neg (not_not_intro good), seq, order, if_neg away]
      rfl
    · rw [receive, if_neg (not_not_intro good), seq, order, if_pos here]
      rfl
  · intro s port vc p linked settled
    have up : (vget s.ports port.val).up = true := by
      unfold Port.up
      rw [show (vget s.ports port.val).training = false from settled, decide_eq_true (show (vget s.ports port.val).state = 2 from linked)]
      rfl
    refine ⟨congrArg Host.Outcome.next (if_pos up), fun tired => congrArg Host.Outcome.next (if_pos ?_)⟩
    rw [Bool.and_eq_true]
    refine ⟨up, ?_⟩
    unfold Port.retrains
    rw [Bool.or_eq_true]
    rcases tired with ⟨v, many⟩ | ⟨all, late⟩
    · exact .inl (List.any_eq_true.mpr ⟨_, Vector.mem_toList_iff.mpr (Vector.getElem_mem v.isLt), decide_eq_true many⟩)
    · refine .inr ((Bool.and_eq_true ..).mpr ⟨decide_eq_true all, List.all_eq_true.mpr fun t h => decide_eq_true (late t h)⟩)
  · intro s port lanes p training
    change (_ → execRetrainDone port lanes s = _) ∧ ∀ w l, _ → execRetrainDone port lanes s = _
    unfold execRetrainDone
    dsimp only
    rw [show (vget s.ports port.val).training = true from training, if_neg (by decide)]
    exact ⟨fun none => by rw [none], fun w l wide => by rw [wide]⟩
  · intro s port lanes peer w l down live wide
    change execPortUp port lanes peer s = _
    unfold execPortUp
    dsimp only
    rw [if_neg fun h => h.elim (fun up => up down) fun lost => by rw [live] at lost; exact Bool.false_ne_true lost, wide]
  · intro s dev t u new away
    exact congrArg Host.Outcome.next (if_neg (by rw [new, away]; decide))
  · intro s pair m d dies stands t
    change execUcieModuleOut pair m s = _
    unfold execUcieModuleOut
    dsimp only
    rw [dies]
    dsimp only
    rw [stands]
    rfl
  · exact congrArg Host.Outcome.next (if_pos up)
  · exact congrArg Host.Outcome.next (if_neg (by rw [down, live]; decide))
  · exact congrArg Host.Outcome.next (if_neg (by rw [live, visible]; decide))
end

section
/-! SUPPORT. Monitoring and repair (R122, R184, R187, R188, R360, R363, R365 to R371, R374, R375). -/

namespace Sys2Proof.Machine

/-- A change of a die counts by what it makes of that die. -/
theorem State.onDie_congr (s : State) (n : Nat) (f g : Die → Die) (h : f (vget s.dies n) = g (vget s.dies n)) : s.onDie n f = s.onDie n g := by
  unfold State.onDie
  rw [h]

/-- What a die's reed keeps changes nothing else of the package. -/
theorem State.reedKeep_frame (s : State) (pa : Nat) : (s.reedKeep pa).tags = s.tags ∧ (s.reedKeep pa).core = s.core
    ∧ ∀ die, die < 6 → (vget (s.reedKeep pa).dies die).sweepPos = (vget s.dies die).sweepPos := by
  unfold State.reedKeep
  cases s.tier pa with
  | hbm d =>
    refine ⟨rfl, rfl, fun die small => ?_⟩
    dsimp only [State.onDie]
    by_cases same : d = die
    · rw [same, vget_vset_self _ _ _ small]
    · rw [vget_vset_ne _ _ _ _ same]
  | mire p => exact ⟨rfl, rfl, fun _ _ => rfl⟩
  | lease d => exact ⟨rfl, rfl, fun _ _ => rfl⟩
  | absent => exact ⟨rfl, rfl, fun _ _ => rfl⟩

/-- Nor do several of them. -/
theorem State.reedKeeps_frame (l : List Nat) (s : State) :
    let t := l.foldl (fun s k => s.reedKeep (128 * k)) s
    t.tags = s.tags ∧ t.core = s.core ∧ ∀ die, die < 6 → (vget t.dies die).sweepPos = (vget s.dies die).sweepPos := by
  induction l generalizing s with
  | nil => exact ⟨rfl, rfl, fun _ _ => rfl⟩
  | cons k l ih =>
    obtain ⟨tags, core, dies⟩ := ih (s.reedKeep (128 * k))
    obtain ⟨tags', core', dies'⟩ := s.reedKeep_frame (128 * k)
    exact ⟨tags.trans tags', core.trans core', fun die small => (dies die small).trans (dies' die small)⟩

/-- A sweep's step, done or with more to come. -/
theorem execHeatSweep_eq (s : State) (die : DieNo) (on : (vget s.dies die.val).sweep ≠ 0) :
    let d := vget s.dies die.val
    let n := d.sweepRun (Config.pick s.tick)
    execHeatSweep die s = .next (((s.halveHeat (d.heatb.toNat + d.sweepPos) n).onDie die.val fun d => { d with
      sweepPos := if decide ((vget s.dies die.val).sweepPos + n = heatBytes) then 0 else d.sweepPos + n
      sweep := if decide ((vget s.dies die.val).sweepPos + n = heatBytes) then d.sweep - 1 else d.sweep }).fresh) :=
  congrArg Host.Outcome.next (if_neg on)

/-- An event on a machine-check vector is no fault of a sector. -/
theorem State.mce_frame (s : State) (die cause i0 i1 : Nat) : (s.mce die cause i0 i1).flaws = s.flaws
    ∧ (s.mce die cause i0 i1).mem = s.mem ∧ (s.mce die cause i0 i1).poison = s.poison ∧ (s.mce die cause i0 i1).core = s.core
    ∧ (s.mce die cause i0 i1).dies = s.dies := by
  unfold State.mce State.raiseMsix
  dsimp only
  split <;> exact ⟨rfl, rfl, rfl, rfl, rfl⟩

/-- Poison counts on its die, and its retirement status stays. -/
theorem State.poisonDie_retst (s : State) (die : Nat) (l : List Nat) (h : die < 6) :
    (vget (s.poisonDie die l).dies die).retst = (vget s.dies die).retst := by
  unfold State.poisonDie
  rw [(State.mce_frame _ _ _ _ _).2.2.2.2]
  dsimp only [State.onDie, State.poisonAll]
  rw [vget_vset_self _ _ _ h]
  rfl

/-- A stripe that cannot be moved is poison, and the retirement status stays. -/
theorem State.moveLost_retst (s : State) (die : Nat) (h : die < 6) : (vget (s.moveLost die).dies die).retst = (vget s.dies die).retst := by
  have either (l : List Nat) : (vget (if l.isEmpty then s else s.poisonDie die l).dies die).retst = (vget s.dies die).retst := by
    split
    · rfl
    · exact s.poisonDie_retst die l h
  exact either _

/-- A row repaired with a spare keeps what memory holds. -/
theorem State.remapRow_frame (s : State) (die : Nat) (c : BitVec 6) (row : Nat) : (s.remapRow die c row).mem = s.mem
    ∧ (s.remapRow die c row).poison = s.poison ∧ (s.remapRow die c row).core = s.core := by
  unfold State.remapRow
  dsimp only
  split
  · exact ⟨rfl, rfl, rfl⟩
  · obtain ⟨-, mem, poison, core, -⟩ := State.mce_frame (s.onDie die fun d => { d with
      spares := countSet d.spares c (countOf d.spares c + 1)
      remapped := d.remapped ++ [(c, row)]
      corrected := d.corrected.filter fun x => decide ((x.1, x.2.1) ≠ (c, row)) }) die 1 (c.toNat + row * 64)
      ((vget s.dies die).sparesLeft c - 1)
    exact ⟨mem, poison, core⟩

/-- A set has what is added to it. -/
theorem setHas_setAdd_self (k : Nat) (l : List Nat) : setHas k (setAdd k l) = true := by
  induction l with
  | nil => exact (setHas_cons k k []).trans ((Bool.or_false _).trans (decide_eq_true rfl))
  | cons y l ih =>
    rw [setAdd]
    split
    · rw [setHas_cons, decide_eq_true (rfl : k = k), Bool.true_or]
    · split
      · next same => rw [setHas_cons, decide_eq_true same.symm, Bool.true_or]
      · rw [setHas_cons, ih, Bool.or_true]

/-- Errors that come together count as one where the sector is poison already. -/
theorem State.poisonCounted_one (s : State) (k : Nat) : (s.poisonCounted [k]).flaws = s.flaws ∧ (s.poisonCounted [k]).mem = s.mem
    ∧ setHas k (s.poisonCounted [k]).poison = true := by
  change (if setHas k s.poison then s else (s.poisonAll [k]).onDie (s.homeDie (128 * k)) fun d => d.count 0 1).flaws = _
    ∧ (if setHas k s.poison then s else (s.poisonAll [k]).onDie (s.homeDie (128 * k)) fun d => d.count 0 1).mem = _
    ∧ setHas k (if setHas k s.poison then s else (s.poisonAll [k]).onDie (s.homeDie (128 * k)) fun d => d.count 0 1).poison = true
  split
  · next had => exact ⟨rfl, rfl, had⟩
  · exact ⟨rfl, rfl, setHas_setAdd_self k s.poison⟩

end Sys2Proof.Machine

open Sys2Proof Sys2Proof.Machine in
/-- Settles O60: each event's branch, by its conditions. -/
theorem repairEvents : Obligations.RepairEvents := by
  refine ⟨fun s die v live => ⟨?_, ?_⟩, fun s n uj => rfl, ?_, ?_, ?_, ?_, ?_, ?_, ?_, ?_, fun s cause n => ⟨fun held => ?_, fun free => ?_⟩⟩
  · exact congrArg Host.Outcome.next (if_neg (by rw [live]; exact Bool.false_ne_true))
  · exact congrArg Host.Outcome.next (if_neg (by rw [live]; exact Bool.false_ne_true))
  · intro s die d n on u
    obtain ⟨tags, core, dies⟩ := State.reedKeeps_frame (s.mem.sectorsIn (d.heatb.toNat + d.sweepPos) n) s
    refine ⟨rfl, tags, core, fun last => ?_, fun more => ?_⟩
    · refine (execHeatSweep_eq s die on).trans ?_
      rw [decide_eq_true (show (vget s.dies die.val).sweepPos + n = heatBytes from last)]
      rfl
    · refine (execHeatSweep_eq s die on).trans ?_
      rw [decide_eq_false (show (vget s.dies die.val).sweepPos + n ≠ heatBytes from more)]
      refine congrArg (Host.Outcome.next ∘ State.fresh) (State.onDie_congr _ _ _ _ ?_)
      rw [show (vget (s.halveHeat (d.heatb.toNat + d.sweepPos) n).dies die.val).sweepPos = d.sweepPos from dies die.val die.isLt]
      rfl
  · intro s pa n die tier
    change ∃ t, execScrub pa n s = .next t ∧ _
    unfold execScrub
    rw [tier]
    refine ⟨_, rfl, ?_⟩
    dsimp only
    split
    · exact ⟨rfl, rfl, rfl, fun _ => rfl⟩
    · next within =>
      split
      · have frame := State.remapRow_frame (die := die)
        exact ⟨(frame _ _ _).1, (frame _ _ _).2.1, (frame _ _ _).2.2, fun h => absurd h within⟩
      · exact ⟨rfl, rfl, rfl, fun h => absurd h within⟩
  · intro s pa die d p tier sound whole others
    have clean : (((List.range p.chans.length).filter fun i => decide (i ≠ p.pos)).any fun i =>
        (stripeSector die p pa.toNat i).elim false fun k => setHas k s.poison) = false := by
      refine List.any_eq_false.mpr fun i h => ?_
      obtain ⟨mem, other⟩ := List.mem_filter.mp h
      cases at_ : stripeSector die p pa.toNat i with
      | none => exact Bool.false_ne_true
      | some k =>
        rw [Option.elim_some, others i (List.mem_range.mp mem) (of_decide_eq_true other) k at_]
        exact Bool.false_ne_true
    change execStripeRebuild pa [] s = _
    unfold execStripeRebuild
    rw [tier]
    refine congrArg Host.Outcome.next ((if_neg fun h => ?_).trans (if_pos ?_))
    · simp only [sound, Bool.false_or, Bool.and_eq_true, decide_eq_true_eq] at h
      obtain ⟨⟨lost, -⟩, -⟩ := h
      rw [show (vget s.dies die).lostChannel ((vget s.dies die).place (pa.toNat % 2 ^ 37)) = none from whole] at lost
      cases lost
    · change (true && !(List.any _ _) && (Option.map _ (d.lostChannel p)).isNone) = true
      rw [whole, clean]
      rfl
  · intro s die ch d live fresh due
    change execChannelRetire die ch .training s = _
    unfold execChannelRetire
    dsimp only
    rw [live, show (vget s.dies die.val).retired = [] from fresh, due]
    rfl
  · intro s die d phase live
    have goes : ¬ ((vget s.dies die.val).phase ≠ 2 ∨ s.dieLost die.val = true) := by
      rintro (h | h)
      · exact h phase
      · rw [live] at h
        exact Bool.false_ne_true h
    refine ⟨fun more => congrArg Host.Outcome.next ((if_neg goes).trans (if_pos more)), fun last =>
      congrArg Host.Outcome.next ((if_neg goes).trans ((if_neg (Nat.not_lt.mpr last)).trans ?_))⟩
    refine congrArg (fun u : State => (u.mce die.val 8 (d.retGroup * 64) 0).nextGroup die.val) (State.onDie_congr _ _ _ _ ?_)
    dsimp only [Die.retChan]
    rw [s.moveLost_retst die.val die.isLt]
  · intro s pa p tier
    change execMireTimeout pa s = _
    unfold execMireTimeout
    rw [tier]
  · intro s pa sound unflawed
    obtain ⟨flaws, mem, poison⟩ := s.poisonCounted_one (pa.toNat / 128)
    have only : (s.poisonCounted [pa.toNat / 128]).flaws ++ [(pa.toNat / 128, Flaw.expansion)] = [(pa.toNat / 128, .expansion)] := by
      rw [flaws, unflawed, List.nil_append]
    refine ⟨_, congrArg Host.Outcome.next (if_pos sound), mem, poison, fun va => ?_, fun r code at_ => ?_⟩
    · unfold State.sectorFault
      rw [only, List.find?_singleton, if_pos (decide_eq_true rfl)]
    · unfold State.post
      rw [if_pos code, at_, only]
      exact List.filter_eq_nil_iff.mpr fun x mem => by rw [List.mem_singleton.mp mem, decide_eq_true_eq]; exact not_not_intro rfl
  · intro s key cause n other
    refine congrArg Host.Outcome.next (if_neg ?_)
    rw [other]
    exact Bool.false_ne_true
  · exact if_pos (List.any_eq_true.mpr ⟨_, held, decide_eq_true rfl⟩)
  · refine if_neg fun h => ?_
    obtain ⟨e, mem, same⟩ := List.any_eq_true.mp h
    exact free (of_decide_eq_true same ▸ mem)
end

section
/-! SUPPORT. The command forms of the C slots (R64, R144, R296, R302 to R312) where nothing stops them. -/

namespace Sys2Proof.Machine

/-- A command form whose token is DONE and whose sequencer has room runs. -/
theorem commandForm_runs {s : State} {t : BitVec 4} (body : State → State) (active : s.active = true) (free : s.cmdHolds t = []) :
    commandForm t body s = .next (body s) := by
  unfold commandForm
  rw [if_pos active, free]

/-- So does one with a shape register. -/
theorem shapeCmd_sends {s u : State} {n : BitVec 2} {t : BitVec 4} {w : BitVec 1} {body : Shape → State → State}
    (active : s.active = true) (free : s.cmdHolds t = []) (h : body (s.ksh n) s = u) :
    shapeCmd n t w body s = .next (u.swapK n w) := by
  rw [← h]
  exact commandForm_runs _ active free

/-- Values that are multiples of their alignments pass the checks. -/
theorem State.cChecks_aligned (s : State) (l : List (Nat × Nat)) (h : aligned l = true) : s.cChecks false false l = s :=
  s.cChecks_pass false false l rfl rfl fun p mem => of_decide_eq_true (List.all_eq_true.mp h p mem)

/-- What a form sends, as its bundle goes on. -/
def Sends.out (f : Sends) : Out := .next ((f.st.nextCmd.endOfCycle (.cmd f.cmd)).swapK f.sh f.swap)

section
variable {s : State} {n : BitVec 2} {t x y : BitVec 4} {w : BitVec 1} {z : BitVec 3} {f : Sends} (active : s.active = true)
  (free : s.cmdHolds f.tok = [])

include active free

/-- An atomic sends its command. -/
theorem atomic_sends (k : Nat) (h : s.sendsAtomic k n t x y w z = some f) : shapeCmd n t w (atomicBody k t (consumed x y z)) s = f.out := by
  obtain ⟨checks, rfl⟩ := (Option.ite_none_left_eq_some.mp h).imp id Option.some.inj
  simp only [Bool.not_eq_true, Bool.or_eq_false_iff, Bool.not_eq_false'] at checks
  obtain ⟨⟨levels, kind⟩, places⟩ := checks
  refine shapeCmd_sends active free ?_
  unfold atomicBody
  dsimp only
  rw [levels, kind, Bool.or_self, s.cChecks_aligned _ places]
  rfl

/-- A form without checks sends its command. -/
theorem plain_sends (op : CmdOp) (h : sends.sendsPlain s op n t x y w z = some f) :
    shapeCmd n t w (plainBody op t (consumed x y z)) s = f.out := by
  cases h
  exact shapeCmd_sends active free rfl

/-- A tensor copy sends its command. -/
theorem cp_sends (op : CmdOp) (h : sends.sendsCp s op n t x y w z = some f) : shapeCmd n t w (cpBody op t (consumed x y z)) s = f.out := by
  obtain ⟨places, rfl⟩ := (Option.ite_none_right_eq_some.mp h).imp id Option.some.inj
  refine shapeCmd_sends active free ?_
  exact congrArg (fun u : State => u.sendCmd op _ _ 0 t (consumed x y z) id) (s.cChecks_aligned _ places)

/-- A copy of kept sectors sends its command. -/
theorem kcopy_sends (h : sends s (.kcopy n t x y w z) = some f) : exec (.kcopy n t x y w z) s = f.out := by
  obtain ⟨places, rfl⟩ := (Option.ite_none_right_eq_some.mp h).imp id Option.some.inj
  refine shapeCmd_sends active free ?_
  exact congrArg (fun u : State => u.sendCmd .kcopy _ _ _ t (consumed x y z) id) (s.cChecks_aligned _ places)

/-- A block copy or fill sends its command. -/
theorem cpblk_sends (h : sends s (.cpblk n t x y w z) = some f) : exec (.cpblk n t x y w z) s = f.out := by
  obtain ⟨checks, rfl⟩ := (Option.ite_none_right_eq_some.mp h).imp id Option.some.inj
  simp only [Bool.and_eq_true, Bool.not_eq_true'] at checks
  obtain ⟨⟨⟨windowA, windowB⟩, apart⟩, places⟩ := checks
  refine shapeCmd_sends active free ?_
  unfold cpblkBody asWindow bsWindow
  rw [windowA, windowB, apart]
  exact congrArg (fun u : State => u.sendCmd .cpblk _ _ _ t (consumed x y z) id) (s.cChecks_aligned _ places)

end

/-- An entry that an STK takes: untagged, or FULL. -/
theorem State.stkPops_step (s : State) (q n : Nat) (h : (tagV (s.takeQ q false).1.tag && decide (tagForm (s.takeQ q false).1.tag ≠ 6)) = false) :
    s.stkPops q (n + 1) = ((s.takeQ q false).1 :: ((s.takeQ q false).2.stkPops q n).1, ((s.takeQ q false).2.stkPops q n).2) := by
  rw [State.stkPops, h]
  rfl

/-- Entries read that an STK takes: it pops them all. -/
theorem State.stkPops_of_readN (q n : Nat) : ∀ (s t : State) (es : List QEntry), s.readN q false n = (es, t) →
    (es.any fun e => tagV e.tag && decide (tagForm e.tag ≠ 6)) = false → s.stkPops q n = (es, t) := by
  induction n with
  | zero => exact fun s t es read _ => read
  | succ n ih =>
    intro s t es read plain
    cases n with
    | zero =>
      rw [State.readN] at read
      cases read
      rw [List.any_cons, Bool.or_eq_false_iff] at plain
      exact s.stkPops_step q 0 plain.1
    | succ n =>
      have parts : ((s.takeQ q false).1 :: ((s.takeQ q false).2.readN q false (n + 1)).1, ((s.takeQ q false).2.readN q false (n + 1)).2)
          = (es, t) := read
      obtain ⟨rfl, rfl⟩ := Prod.mk.inj parts
      rw [List.any_cons, Bool.or_eq_false_iff] at plain
      rw [s.stkPops_step q (n + 1) plain.1, ih _ _ _ rfl plain.2]

/-- So with the entries of a queue that an STK names. -/
theorem State.stkPops_of_stkReads (s : State) {sh : Shape} {n : Nat} {es : List QEntry} {u : State}
    (h : s.stkReads (qOf sh) n = some (es, u)) : s.stkPops (qOf sh) n = (es, u) := by
  obtain ⟨r, reads, plain⟩ := Option.bind_eq_some_iff.mp h
  obtain ⟨plain, rfl⟩ := (Option.ite_none_left_eq_some.mp plain).imp id Option.some.inj
  have read := State.readN_of_afterReads n s _ _ false _ reads
  have small : qOf sh < 2 ^ 4 := Nat.mod_lt _ (by decide)
  rw [BitVec.toNat_ofNat, Nat.mod_eq_of_lt small] at read
  exact State.stkPops_of_readN (qOf sh) n s u es read ((Bool.not_eq_true _).mp plain)

/-- An STK sends its command. -/
theorem stk_sends {s : State} {n : BitVec 2} {t x y : BitVec 4} {w : BitVec 1} {z : BitVec 3} {f : Sends} (active : s.active = true)
    (free : s.cmdHolds f.tok = []) (h : s.sendsStk n t x y w z = some f) : exec (.stk n t x y w z) s = f.out := by
  obtain ⟨checks, pops⟩ := Option.ite_none_left_eq_some.mp h
  simp only [Bool.not_eq_true, Bool.or_eq_false_iff, Bool.not_eq_false'] at checks
  obtain ⟨⟨levels, places⟩, served⟩ := checks
  have cause := Option.not_isSome_iff_eq_none.mp (by rw [served]; exact Bool.false_ne_true)
  by_cases queue : bit (s.ksh n) 155 = true
  · rw [if_pos queue] at pops
    obtain ⟨bounds, pops⟩ := Option.ite_none_left_eq_some.mp pops
    obtain ⟨⟨es, u⟩, reads, rfl⟩ := Option.map_eq_some_iff.mp pops
    simp only [Bool.not_eq_true, Bool.or_eq_false_iff] at bounds
    obtain ⟨far, long⟩ := bounds
    refine shapeCmd_sends active free ?_
    unfold stkBody
    dsimp only
    rw [queue, far, long, levels, cause, Bool.and_false, Bool.and_false, Bool.or_false, s.cChecks_aligned _ places]
    dsimp only
    rw [if_pos rfl, s.stkPops_of_stkReads reads]
    rfl
  · rw [if_neg queue] at pops
    cases pops
    refine shapeCmd_sends active free ?_
    unfold stkBody
    dsimp only
    rw [(Bool.not_eq_true _).mp queue, levels, cause, Bool.false_and, Bool.false_and, Bool.false_and, Bool.or_false,
      s.cChecks_aligned _ places]
    rfl

end Sys2Proof.Machine

open Sys2Proof Sys2Proof.Machine in
/-- Settles O31: each form's checks pass and it sends. -/
theorem commandForms : Obligations.CommandForms := by
  refine ⟨fun s i f form active free => ?_, fun s t active free => ⟨fun m o on => ?_, fun o => ?_, fun b m w => ?_⟩⟩
  · change exec i s = f.out
    unfold sends at form
    split at form
    · exact atomic_sends active free 0 form
    · exact atomic_sends active free 1 form
    · exact atomic_sends active free 2 form
    · exact atomic_sends active free 3 form
    · exact atomic_sends active free 4 form
    · exact atomic_sends active free 5 form
    · exact atomic_sends active free 6 form
    · exact stk_sends active free form
    · exact kcopy_sends active free form
    · exact cp_sends active free .cp form
    · exact cp_sends active free .cpq form
    · exact cpblk_sends active free form
    · exact plain_sends active free .prefr form
    · exact plain_sends active free .reedinv form
    · exact plain_sends active free .coll form
    · exact plain_sends active free .dpost form
    · exact plain_sends active free .gwait form
    · exact plain_sends active free .lease form
    · exact plain_sends active free .lrel form
    · cases form
      exact shapeCmd_sends active free rfl
    · cases form
  · change execFence t m o s = _
    unfold execFence
    rw [commandForm_runs _ active free, if_neg on]
    rfl
  · change execFence t 0 o s = _
    unfold execFence
    rw [commandForm_runs _ active free, if_pos rfl]
  · change execBankm t b m w s = _
    unfold execBankm
    rw [commandForm_runs _ active free, show s.core.tokenCmds w.toNat = [w.toNat].flatMap s.core.tokenCmds from (List.append_nil _).symm]
    rfl
end

section
/-! SUPPORT. What holds the forms of the C slots (R64, R206, R232, R296), commands that enter, and the elements of the engines
(R302 to R310). -/

namespace Sys2Proof.Machine

/-! ### Holds (R44, R64, R206, R296) -/

/-- A further wait of a bundle that holds is noted beside the first, unless it is the same. -/
theorem State.holdOn_further (s : State) (v w : Wait) (h : s.iss.hold = some v) : ∃ os,
    s.holdOn w = { s with iss := { s.iss with others := os } } ∧ (∀ x ∈ s.iss.others, x ∈ os) ∧ (w = v ∨ ∃ n, (w, n) ∈ os) := by
  unfold State.holdOn
  rw [h]
  dsimp only
  split
  · next same =>
    refine ⟨s.iss.others, rfl, fun _ mem => mem, ?_⟩
    rcases (Bool.or_eq_true ..).mp same with same | noted
    · exact .inl (of_decide_eq_true same).symm
    · obtain ⟨⟨x, n⟩, mem, rfl⟩ := List.any_eq_true.mp noted |>.imp fun _ p => p.imp id of_decide_eq_true
      exact .inr ⟨n, mem⟩
  · exact ⟨_, rfl, fun _ mem => List.mem_append_left _ mem, .inr ⟨_, List.mem_append_right _ (List.mem_singleton.mpr rfl)⟩⟩

/-- Tokens that a bundle waits for besides the first. -/
theorem State.holdTokens_further (t : BitVec 4) (r : List (BitVec 4)) : ∀ s : State, s.iss.hold = some (.token t) → ∃ os,
    s.holdTokens r = { s with iss := { s.iss with others := os } } ∧ (∀ x ∈ s.iss.others, x ∈ os)
      ∧ ∀ u ∈ r, u = t ∨ ∃ n, (Wait.token u, n) ∈ os := by
  induction r with
  | nil => exact fun s _ => ⟨s.iss.others, rfl, fun _ mem => mem, fun _ mem => absurd mem List.not_mem_nil⟩
  | cons u r ih =>
    intro s h
    obtain ⟨os, first, kept, noted⟩ := s.holdOn_further _ (.token u) h
    obtain ⟨os', rest, kept', noted'⟩ := ih { s with iss := { s.iss with others := os } } h
    refine ⟨os', (congrArg (State.holdTokens · r) first).trans rest, fun x mem => kept' x (kept x mem), fun v mem => ?_⟩
    rcases List.mem_cons.mp mem with rfl | mem
    · rcases noted with same | ⟨n, at_⟩
      · exact .inl (Wait.token.inj same)
      · exact .inr ⟨n, kept' _ at_⟩
    · exact noted' v mem

/-- A bundle that holds on tokens: the first is its wait, and each other is noted beside it. -/
theorem State.holdTokens_eq (s : State) (t : BitVec 4) (r : List (BitVec 4)) (h : s.iss.hold = none) :
    s.holdTokens (t :: r) = { s with iss := { s.iss with
      hold := some (.token t), holdSlot := s.iss.slot, others := (s.holdTokens (t :: r)).iss.others } }
    ∧ ∀ u ∈ r, u = t ∨ ∃ n, (Wait.token u, n) ∈ (s.holdTokens (t :: r)).iss.others := by
  obtain ⟨os, rest, -, noted⟩ := State.holdTokens_further t r
    { s with iss := { s.iss with hold := some (.token t), holdSlot := s.iss.slot } } rfl
  have all : s.holdTokens (t :: r) = _ := (congrArg (State.holdTokens · r) (s.holdOn_first (.token t) h)).trans rest
  rw [all]
  exact ⟨rfl, noted⟩

/-- Every direct form is held by the same rule. -/
theorem directTokens_form {i : Instr} {l : List Nat} (h : directTokens i = some l) : ∃ n x y w z body,
    l = consumed x y z ∧ ∀ s, exec i s = directForm n x y w z body s := by
  unfold directTokens at h
  split at h <;> cases h <;> exact ⟨_, _, _, _, _, _, rfl, fun _ => rfl⟩

/-- So is every command form. -/
theorem commandToken_form {i : Instr} {t : BitVec 4} (h : commandToken i = some t) : ∃ body, ∀ s, exec i s = commandForm t body s := by
  unfold commandToken at h
  split at h <;> cases h <;> exact ⟨_, fun _ => rfl⟩

/-- A command form that holds. -/
theorem commandForm_holds {s : State} {t u : BitVec 4} {l : List (BitVec 4)} (body : State → State) (active : s.active = true)
    (h : s.cmdHolds t = u :: l) : commandForm t body s = .next (s.noteOldest.holdTokens (u :: l)) := by
  unfold commandForm
  rw [if_pos active, h]

/-! ### A command enters (R64, R103, R206) -/

/-- BANKM alone changes a bank as it enters. -/
theorem Core.beginSwitch_frame (c : Core) (x : Cmd) : (c.beginSwitch x).pipes = c.pipes ∧ (c.beginSwitch x).regs = c.regs
    ∧ (c.beginSwitch x).posts = c.posts := by
  unfold Core.beginSwitch
  split <;> exact ⟨rfl, rfl, rfl⟩

/-- A command that enters. -/
def Core.entered (c : Core) (x : Cmd) : Core := (({ c with
  posts := if x.op = CmdOp.mbpost then c.posts + 1 else c.posts
  pipes := { c.pipes with cmds := c.pipes.cmds ++ [x] } } : Core).setTok x.tok.toNat true).beginSwitch x

/-- A command that enters joins its sequencer, its token is PENDING, and an MBPOST counts. -/
theorem Core.entered_frame (c : Core) (x : Cmd) : (c.entered x).pipes.cmds = c.pipes.cmds ++ [x]
    ∧ (∀ t, t < 16 → (c.entered x).pending t = (decide (t ≠ 0) && (decide (t = x.tok.toNat) || c.pending t)))
    ∧ (c.entered x).posts = c.posts + (if x.op = .mbpost then 1 else 0) := by
  obtain ⟨pipes, regs, posts⟩ := Core.beginSwitch_frame (({ c with
    posts := if x.op = CmdOp.mbpost then c.posts + 1 else c.posts
    pipes := { c.pipes with cmds := c.pipes.cmds ++ [x] } } : Core).setTok x.tok.toNat true) x
  refine ⟨?_, fun t small => ?_, ?_⟩
  · exact (congrArg Pipes.cmds pipes).trans (congrArg Pipes.cmds (Core.setTok_cmds ..))
  · have same : (c.entered x).pending t = _ := congrArg (fun r : Regs => decide (t ≠ 0) && vget r.tok t) regs
    refine (same.trans (Core.pending_setTok _ _ t true x.tok.isLt)).trans ?_
    change (if t = x.tok.toNat ∧ x.tok.toNat ≠ 0 then true else decide (t ≠ 0) && vget c.regs.tok t)
      = (decide (t ≠ 0) && (decide (t = x.tok.toNat) || (decide (t ≠ 0) && vget c.regs.tok t)))
    by_cases zero : t = 0
    · rw [if_neg fun h => h.2 (h.1.symm.trans zero), decide_eq_false (not_not_intro zero)]
      rfl
    · rw [decide_eq_true zero, Bool.true_and, Bool.true_and]
      by_cases tok : t = x.tok.toNat
      · rw [if_pos ⟨tok, tok ▸ zero⟩, decide_eq_true tok]
        rfl
      · rw [if_neg fun h => tok h.1, decide_eq_false tok]
        rfl
  · refine (posts.trans (Core.setTok_posts ..)).trans ?_
    change (if x.op = CmdOp.mbpost then c.posts + 1 else c.posts) = _
    split <;> rfl

/-- BANKM as it enters: its bank switches. -/
theorem Core.entered_bankm (c : Core) (x : Cmd) (h : x.op = .bankm) : (c.entered x).sp = { c.sp with
    bank := vset c.sp.bank x.arg1.toNat { vget c.sp.bank x.arg1.toNat with pend := x.arg2.setWidth 2, sw := true } } := by
  unfold Core.entered Core.beginSwitch
  rw [if_pos h]
  dsimp only
  rw [Core.setTok_sp]

/-! ### An element (R137, R297) -/

theorem Cmd.lfsrAt_pos (c : Cmd) : c.lfsrAt c.pos = c.lfsr := by
  unfold Cmd.lfsrAt
  rw [Nat.sub_self]
  exact ite_self _

/-- With nothing of the command read ahead or done early, an element's command is as the element leaves it. -/
theorem Elem.tidy_go (z : Cmd) (w : State) (ahead : z.ahead = []) (early : z.early = []) : (Elem.go z w).tidy = .go z w := by
  have kept := z.lfsrAt_pos
  obtain ⟨⟩ := z
  dsimp only at ahead early kept
  subst ahead early
  unfold Elem.tidy
  simp only [List.length_nil, skipDone, List.filter_nil, kept]

/-- The engine that works for a command of a core. -/
def Core.agentOf (c : Core) (key : CoreKey) (id : Nat) : Agent := ⟨c.fen, some key, c.ctx, some (.cmd key id), none, false⟩

/-- A turn of a command that has started and is not held: its element is done. -/
theorem State.element_goes {s w : State} {key : CoreKey} {id : Nat} {x z : Cmd} (command : (s.getCore key).cmd id = some x)
    (started : x.started = true) (going : (s.getCore key).seqStopped x = false) (open_ : x.finished = false)
    (free : s.enginesHeld (s.getCore key) = false) (unheld : s.heldAny (·.readOf (.cmd key id)) = false)
    (ahead : z.ahead = []) (early : z.early = [])
    (h : cmdElem ((s.getCore key).agentOf key id) (s.getCore key) x s = .go z w) :
    s.turn (.element key id .next) = .next (w.onCore key fun d => d.putCmd z) := by
  refine congrArg Host.Outcome.next ?_
  unfold State.elementTurn
  rw [free, show s.readHolds (.cmd key id) .next = false from unheld, Bool.or_self, if_neg Bool.false_ne_true]
  unfold State.elementRun
  dsimp only
  rw [command]
  dsimp only
  rw [started, going, Bool.false_and, Bool.or_false, if_neg (by decide)]
  unfold engineStep
  dsimp only
  rw [open_, if_neg Bool.false_ne_true]
  change (match (cmdElem ((s.getCore key).agentOf key id) (s.getCore key) x s).tidy with
    | .wait s => s
    | .stop f s => s.stopCmd key x f
    | .go x s => s.onCore key fun c => c.putCmd x) = _
  rw [h, Elem.tidy_go z w ahead early]

/-- A write with no earlier one that has yet to take its place is made now. -/
theorem State.engPut_now {s v : State} {ag : Agent} {c : Cmd} {p : Place} {bs : List Byte} {tag : Byte} {bad : Bool}
    (k : Cmd → State → Elem) (now : ag.post = false) (first : c.posted = []) (h : s.engWrite ag (c.write p bs tag bad) = .ok () v) :
    s.engPut ag c p bs tag bad k = k c v := by
  have clear : s.behind ag c (s.span ag p bs.length) = false := by
    unfold State.behind
    rw [first]
    rfl
  unfold State.engPut
  rw [now, clear, h]
  rfl

/-- A source that no earlier write of the command concerns is read now. -/
theorem State.engSource_now {s : State} {ag : Agent} {c : Cmd} {p : Place × Nat} (source : c.sourceAt c.pos = some p)
    (first : c.posted = []) (fresh : c.ahead = []) : s.engSource ag c = s.readSource ag c.op p := by
  have clear : s.behind ag c (s.span ag p.1 p.2) = false := by
    unfold State.behind
    rw [first]
    rfl
  unfold State.engSource
  rw [source]
  dsimp only
  rw [fresh, List.find?_nil]
  dsimp only
  rw [clear, if_neg Bool.false_ne_true]

/-- A path settled leaves the rest of the command. -/
theorem State.notePath_eq (s : State) (ag : Agent) (c : Cmd) (i : Nat) : ∃ ps fl, s.notePath ag c i = { c with paths := ps, fill := fl } := by
  unfold State.notePath
  split
  · exact ⟨c.paths, c.fill, rfl⟩
  · split
    · exact ⟨c.paths, c.fill, rfl⟩
    · exact ⟨_, _, rfl⟩

/-! ### The elements of each command (R302 to R310) -/

section
variable {s u v : State} {ag : Agent} {c : Core} {x : Cmd} {y : Sect}

/-- The bytes of an atomic's location. -/
def Cmd.atomicBytes (x : Cmd) : Nat := if bit x.shape 156 then 8 else 4

/-- An atomic that has read its location: RES is left, unless it is not written. -/
def Cmd.atomicRead (x : Cmd) (old : List Byte) : Cmd := { x with placed := true, snap := old, finished := bit x.shape 157 }

/-- The piece of an atomic: it reads its operands and its location, and writes the new value if there is one. -/
theorem atomicElem_piece {u1 u2 : State} {o1 o2 : Sect} (k : Nat) (unplaced : x.placed = false)
    (own : s.engPlain ag (.own (fld x.shape 179 160)) x.atomicBytes = .ok o1 u1)
    (second : k = 4 → u1.engPlain ag (.own (fld x.shape 179 160 + x.atomicBytes)) x.atomicBytes = .ok o2 u2)
    (other : k ≠ 4 → o2 = o1 ∧ u2 = u1) (old : u2.engPlain ag (placeAt (bit x.shape 63) x.addrA 0) x.atomicBytes = .ok y u) :
    (atomicNew k (8 * x.atomicBytes) (bytesToNat y.bytes) (bytesToNat o1.bytes) (bytesToNat o2.bytes) = none →
      atomicElem ag k x s = .go (x.atomicRead y.bytes) u)
    ∧ ∀ new, atomicNew k (8 * x.atomicBytes) (bytesToNat y.bytes) (bytesToNat o1.bytes) (bytesToNat o2.bytes) = some new →
      u.engWrite ag (x.write (placeAt (bit x.shape 63) x.addrA 0) (natToBytes x.atomicBytes new) 0 false) = .ok () v →
      atomicElem ag k x s = .go (x.atomicRead y.bytes) v := by
  have operands : (if k = 4 then u1.engPlain ag (.own (fld x.shape 179 160 + x.atomicBytes)) x.atomicBytes else .ok o1 u1) = .ok o2 u2 := by
    by_cases four : k = 4
    · rw [if_pos four, second four]
    · obtain ⟨rfl, rfl⟩ := other four
      exact if_neg four
  unfold Cmd.atomicBytes at *
  unfold atomicElem asWindow
  dsimp only
  rw [unplaced, if_neg Bool.false_ne_true, own]
  dsimp only [Got.elem]
  rw [operands]
  dsimp only
  rw [old]
  dsimp only
  refine ⟨fun none => by rw [none]; rfl, fun new some write => ?_⟩
  rw [some]
  change (Got.elem (u.engWrite ag (x.write (placeAt (bit x.shape 63) x.addrA 0) (natToBytes (if bit x.shape 156 then 8 else 4) new) 0 false))
    fun _ s => Elem.go (x.atomicRead y.bytes) s) = _
  rw [write]
  rfl

/-- The old value of an atomic is written at RES. -/
theorem atomicElem_result (k : Nat) (now : ag.post = false) (first : x.posted = []) (placed : x.placed = true)
    (write : s.engWrite ag (x.write (.own (fld x.shape 211 192)) x.snap 0 false) = .ok () v) :
    atomicElem ag k x s = .go { x with finished := true } v := by
  unfold atomicElem
  exact (if_pos placed).trans (State.engPut_now _ now first write)

/-- A sector of the payload of an STK. -/
theorem stkElem_sector (now : ag.post = false) (first : x.posted = []) (placed : x.placed = true)
    (write : s.engWrite ag (x.write (placeAt (bit x.shape 63) x.addrA (128 * x.pos)) ((x.snap.drop (128 * x.pos)).take 128)
      (mkTag (ktForm x.entry) (fld x.shape 152 149)) false) = .ok () v) :
    stkElem ag x s = .go { x with pos := x.pos + 1, finished := decide (x.snap.length ≤ 128 * (x.pos + 1)) } v := by
  unfold stkElem asWindow
  exact (if_pos placed).trans (State.engPut_now _ now first write)

/-- A sector of a KCOPY. -/
theorem kcopyElem_sector (now : ag.post = false) (first : x.posted = []) (fresh : x.ahead = []) (op : x.op = .kcopy)
    (within : 128 * x.pos < fld x.shape 95 64) (read : s.engRead ag true (placeAt (bit x.shape 63) x.addrA (128 * x.pos)) 128 = .ok y u)
    (write : u.engWrite ag (x.write (placeAt (bit x.shape 223) x.addrB (128 * x.pos)) y.bytes (kcopyTag x.shape y.tag) y.bad) = .ok () v) :
    kcopyElem ag x s = .go { x with pos := x.pos + 1, finished := decide (fld x.shape 95 64 ≤ 128 * (x.pos + 1)) } v := by
  have source : x.sourceAt x.pos = some (placeAt (bit x.shape 63) x.addrA (128 * x.pos), 128) := by
    unfold Cmd.sourceAt
    rw [op]
    exact if_pos within
  have got : s.engSource ag x = .ok y u := by
    rw [State.engSource_now source first fresh, State.readSource, if_pos (.inl op), read]
  unfold kcopyElem bsWindow lenOf
  dsimp only
  rw [if_neg (Nat.not_le.mpr within), carrySector, got]
  dsimp only [Got.elem]
  rw [State.engPut_now _ now first write]
  rfl

/-- A sector of a CPBLK that copies. -/
theorem cpblkElem_copy {z : Cmd} (path : s.notePath ag x x.pos = z) (now : ag.post = false) (first : x.posted = []) (fresh : x.ahead = [])
    (op : x.op = .cpblk) (within : 128 * x.pos < fld x.shape 95 64) (copy : bit x.shape 158 = false)
    (read : s.engRead ag true (.glob (x.addrA + BitVec.ofNat 64 (128 * x.pos))) 128 = .ok y u)
    (write : u.engWrite ag (z.write (.glob (x.addrB + BitVec.ofNat 64 (128 * x.pos))) y.bytes y.tag y.bad) = .ok () v) :
    cpblkElem ag x s = .go { z with pos := x.pos + 1 } (v.afterSector (s.pathAt ag z x.pos)) := by
  obtain ⟨ps, fl, rfl⟩ := (s.notePath_eq ag x x.pos).imp fun _ e => e.imp fun _ e => path.symm.trans e
  have source : Cmd.sourceAt { x with paths := ps, fill := fl } x.pos = some (.glob (x.addrA + BitVec.ofNat 64 (128 * x.pos)), 128) := by
    unfold Cmd.sourceAt
    rw [op]
    exact if_pos ⟨within, by rw [copy]; rfl⟩
  have got : s.engSource ag { x with paths := ps, fill := fl } = .ok y u := by
    rw [State.engSource_now source first fresh, State.readSource, if_pos (.inr op), read]
  obtain ⟨⟩ := ag
  subst now
  unfold cpblkElem lenOf
  dsimp only
  rw [if_neg (Nat.not_le.mpr within), path, Bool.false_and, copy, if_neg Bool.false_ne_true, carrySector, got]
  dsimp only [Got.elem]
  rw [State.engPut_now (c := { x with paths := ps, fill := fl }) (p := placeAt false x.addrB (128 * x.pos)) (tag := id y.tag) _ rfl first write]
  rfl

/-- A sector of a CPBLK that fills. -/
theorem cpblkElem_fill {z : Cmd} (path : s.notePath ag x x.pos = z) (now : ag.post = false) (first : x.posted = [])
    (within : 128 * x.pos < fld x.shape 95 64) (fill : bit x.shape 158 = true)
    (write : s.engWrite ag (z.write (.glob (x.addrB + BitVec.ofNat 64 (128 * x.pos)))
      (List.replicate 16 (natToBytes 8 (fld x.shape 319 256))).flatten 0 false) = .ok () v) :
    cpblkElem ag x s = .go { z with pos := x.pos + 1 } (v.afterSector (s.pathAt ag z x.pos)) := by
  obtain ⟨ps, fl, rfl⟩ := (s.notePath_eq ag x x.pos).imp fun _ e => e.imp fun _ e => path.symm.trans e
  obtain ⟨⟩ := ag
  subst now
  unfold cpblkElem lenOf
  dsimp only
  rw [if_neg (Nat.not_le.mpr within), path, Bool.false_and, fill, if_pos rfl,
    State.engPut_now (c := { x with paths := ps, fill := fl }) (p := placeAt false x.addrB (128 * x.pos)) _ rfl first write]
  rfl

/-- A copy after one more element. -/
def Cmd.copied (x : Cmd) (d : BitVec 1024) (y : Sect) : Cmd :=
  { x with
    pos := x.pos + 1
    lfsr := if dQuant d && decide (dRnd d = 4) then lfsNext x.lfsr else x.lfsr
    amax := if dQuant d then BitVec.ofNat 32 (if (Fmt.f32.dec (bytesToNat y.bytes)).isFin
      then max x.amax.toNat (bytesToNat y.bytes % 2 ^ 31) else x.amax.toNat) else 0
    finished := decide (x.pos + 1 = dTotal d) && (!dQuant d || decide (dAmx d = 0)) }

/-- A copy that does not quantize draws nothing, and has no maximum. -/
theorem Cmd.copied_plain (x : Cmd) (d : BitVec 1024) (y : Sect) (h : dQuant d = false) :
    x.copied d y = { x with pos := x.pos + 1, amax := 0, finished := decide (x.pos + 1 = dTotal d) } := by
  unfold Cmd.copied
  rw [h, Bool.not_false, Bool.true_or, Bool.and_true]
  rfl

/-- One that quantizes draws where it rounds stochastically, and keeps the maximum. -/
theorem Cmd.copied_quant (x : Cmd) (d : BitVec 1024) (y : Sect) (h : dQuant d = true) : x.copied d y = { x with
    pos := x.pos + 1
    lfsr := if dRnd d = 4 then lfsNext x.lfsr else x.lfsr
    amax := BitVec.ofNat 32 (if (Fmt.f32.dec (bytesToNat y.bytes)).isFin then max x.amax.toNat (bytesToNat y.bytes % 2 ^ 31) else x.amax.toNat)
    finished := decide (x.pos + 1 = dTotal d) && decide (dAmx d = 0) } := by
  unfold Cmd.copied
  rw [h, Bool.true_and, Bool.not_true, Bool.false_or, if_pos rfl]
  simp only [decide_eq_true_eq]

/-- An element of a copy, quantizing or not. -/
theorem copyElem_one {d : BitVec 1024} (form : Option Bool) (at_ : Place) (now : ag.post = false) (first : x.posted = [])
    (fresh : x.ahead = []) (op : x.op = .cp ∨ x.op = .cpq) (desc : x.desc = some d) (within : x.pos < dTotal d)
    (placed : dQuant d = true → x.placed = true)
    (read : s.engPlain ag (copySource d x.pos) (2 ^ bits d 129 128) = .ok y u)
    (write : u.engWrite ag (x.write (copyTarget d x.pos) (natToBytes (dSizes d (dQuant d)).2
      (if dQuant d then copyQuant d (bytesToNat y.bytes) x.scale.toNat (lfsNext x.lfsr) else bytesToNat y.bytes)) 0 false) = .ok () v) :
    copyElem ag form at_ x s = .go (x.copied d y) v := by
  have source : x.sourceAt x.pos = some (copySource d x.pos, 2 ^ bits d 129 128) := by
    have at_ : x.copySourceAt x.pos = some (copySource d x.pos, 2 ^ bits d 129 128) := by
      unfold Cmd.copySourceAt
      rw [desc]
      exact if_pos ⟨within, placed⟩
    unfold Cmd.sourceAt
    rcases op with op | op <;> rw [op, at_]
  have got : s.engSource ag x = .ok y u := by
    rw [State.engSource_now source first fresh, State.readSource]
    rcases op with op | op <;> rw [op, if_neg (by decide), if_neg (by decide), read]
  have one : copyOne ag d x s = .go (x.copied d y) v := by
    unfold copyOne
    rw [got]
    dsimp only [Got.elem]
    rw [State.engPut_now _ now first write]
    rfl
  have scaled : (dQuant d && !x.placed) = false := by
    cases quant : dQuant d with
    | false => rfl
    | true =>
      rw [placed quant]
      rfl
  unfold copyElem
  rw [desc]
  dsimp only
  rw [scaled, if_neg Bool.false_ne_true, if_neg (Nat.ne_of_lt within), one]

end

end Sys2Proof.Machine

open Sys2Proof Sys2Proof.Machine in
/-- Settles O32: the holds by the rule that all forms share; a command's entry; and each command's next element. -/
theorem commandEnters : Obligations.CommandEnters := by
  refine ⟨fun s i active free => ⟨fun l t r form pending => ?_, fun t r => s.holdTokens_eq t r free, ?_⟩, ?_, ?_⟩
  · obtain ⟨n, x, y, w, z, body, rfl, run⟩ := directTokens_form form
    rw [run]
    unfold directForm
    rw [if_pos active, pending]
  · intro t form older waiting holds
    obtain ⟨body, run⟩ := commandToken_form form
    refine ⟨fun pending => ?_, fun done => ⟨fun x rest all full fresh => ?_, fun id x waits found => ?_⟩⟩
    · refine (run s).trans (commandForm_holds body active ?_)
      unfold State.cmdHolds
      rw [pending]
      rfl
    · have oldest : s.oldestCmd = some x.id := by
        unfold State.oldestCmd
        rw [show vget s.iss.cmdWait (s.iss.slot - 4) = none from fresh]
        dsimp only
        rw [show s.slotCmds = x :: rest from all, if_pos (show 16 ≤ (x :: rest).length from Nat.succ_le_succ full)]
        rfl
      have first : (s.slotCmds.find? fun y => decide (y.id = x.id)) = some x := by
        rw [show s.slotCmds = x :: rest from all]
        exact List.find?_cons_of_pos (p := fun y : Cmd => decide (y.id = x.id)) (decide_eq_true rfl)
      have held : s.cmdHolds t = [x.tok] := by
        unfold State.cmdHolds
        rw [done, oldest, Option.map_some, first]
        rfl
      refine (run s).trans ((commandForm_holds body active held).trans ?_)
      unfold State.noteOldest
      rw [oldest]
    · have same : x.id = id := of_decide_eq_true (List.find?_some (p := fun y : Cmd => decide (y.id = id)) found)
      have oldest : s.oldestCmd = some id := by
        unfold State.oldestCmd
        rw [show vget s.iss.cmdWait (s.iss.slot - 4) = some id from waits]
        dsimp only
        rw [show (s.slotCmds.find? fun y => decide (y.id = id)) = some x from found, ← same]
        rfl
      have held : s.cmdHolds t = [x.tok] := by
        unfold State.cmdHolds
        rw [done, oldest, Option.map_some, show (s.slotCmds.find? fun y => decide (y.id = id)) = some x from found]
        rfl
      refine (run s).trans ((commandForm_holds body active held).trans ?_)
      unfold State.noteOldest
      rw [oldest]
  · intro s x c
    obtain ⟨cmds, pending, posts⟩ := s.core.entered_frame x
    refine ⟨cmds, pending, fun bankm small => ?_, posts⟩
    rw [show c.sp = _ from s.core.entered_bankm x bankm, vget_vset_self _ _ _ small]
    exact ⟨rfl, rfl, rfl⟩
  · intro s u v key id x y c ag sh i goes a b command started unstopped going open_ free unheld first fresh early
    have run {z : Cmd} {w : State} (h : cmdElem ag c x s = .go z w) (ahead : z.ahead = x.ahead) (done : z.early = x.early) : goes z w :=
      State.element_goes command started going open_ free unheld (ahead.trans fresh) (done.trans early) h
    refine ⟨fun k u1 u2 o1 o2 op unplaced => ?_, fun k op placed write => ?_, fun op placed write => ?_, fun op within read write => ?_,
      fun op within => ?_, fun d desc within => ⟨fun op plain read write => ?_, fun op quant placed => ?_⟩⟩
    · intro n at_ z own second other old
      have elem : cmdElem ag c x s = atomicElem ag k x s := by
        unfold cmdElem
        rw [op]
      obtain ⟨stays, changes⟩ := atomicElem_piece (v := v) k unplaced own second other old
      refine ⟨fun four apart => run (elem.trans (stays ?_)) rfl rfl, fun new value write => run (elem.trans (changes new value write)) rfl rfl⟩
      rw [four]
      exact if_neg apart
    · have elem : cmdElem ag c x s = atomicElem ag k x s := by
        unfold cmdElem
        rw [op]
      exact run (elem.trans (atomicElem_result k rfl first placed write)) rfl rfl
    · have elem : cmdElem ag c x s = stkElem ag x s := by
        unfold cmdElem
        rw [op]
      exact run (elem.trans (stkElem_sector rfl first placed write)) rfl rfl
    · have elem : cmdElem ag c x s = kcopyElem ag x s := by
        unfold cmdElem
        rw [op]
      exact run (elem.trans (kcopyElem_sector rfl first fresh op within read write)) rfl rfl
    · have elem : cmdElem ag c x s = cpblkElem ag x s := by
        unfold cmdElem
        rw [op]
      intro z after
      obtain ⟨ps, fl, path⟩ := s.notePath_eq ag x i
      have ahead : z.ahead = x.ahead := (congrArg Cmd.ahead path : (s.notePath ag x i).ahead = _)
      have early : z.early = x.early := (congrArg Cmd.early path : (s.notePath ag x i).early = _)
      refine ⟨fun copy read write => ?_, fun fill write => ?_⟩
      · exact run (elem.trans (cpblkElem_copy rfl rfl first fresh op within copy read write)) ahead early
      · exact run (elem.trans (cpblkElem_fill rfl rfl first within fill write)) ahead early
    · have elem : cmdElem ag c x s = copyElem ag (some false) (if asWindow x.shape then .own x.addrA.toNat else .glob x.addrA) x s := by
        unfold cmdElem
        rw [op]
      refine run (elem.trans ((copyElem_one _ _ rfl first fresh (.inl op) desc within
        (fun h => absurd (plain.symm.trans h) Bool.false_ne_true) read ?_).trans (congrArg (Elem.go · v) (x.copied_plain d y plain)))) rfl rfl
      rw [plain]
      exact write
    · have elem : cmdElem ag c x s = copyElem ag (some true) (if asWindow x.shape then .own x.addrA.toNat else .glob x.addrA) x s := by
        unfold cmdElem
        rw [op]
      intro n m read write
      refine run (elem.trans ((copyElem_one _ _ rfl first fresh (.inr op) desc within (fun _ => placed) read ?_).trans
        (congrArg (Elem.go · v) (x.copied_quant d y quant)))) rfl rfl
      rw [quant]
      exact write
end

section
/-! SUPPORT. What an access of a direct form does as its pieces take their places (R99, R132, R137, R138, R300, R362): global pieces
through translation, and window pieces at the network port. -/

namespace Sys2Proof.Machine

/-! ### What leaves every store as it was -/

/-- The memories, the cores and the skink stay; what changes is on the way, in a queue, a table or a counter. -/
structure State.Quiet (s t : State) : Prop where
  mem : t.mem = s.mem
  tags : t.tags = s.tags
  poison : t.poison = s.poison
  hostMem : t.hostMem = s.hostMem
  core : t.core = s.core
  cores : t.cores = s.cores
  skink : t.skink = s.skink

theorem State.Quiet.refl (s : State) : s.Quiet s := ⟨rfl, rfl, rfl, rfl, rfl, rfl, rfl⟩

theorem State.Quiet.trans {s t u : State} (h : s.Quiet t) (k : t.Quiet u) : s.Quiet u :=
  ⟨k.mem.trans h.mem, k.tags.trans h.tags, k.poison.trans h.poison, k.hostMem.trans h.hostMem, k.core.trans h.core,
    k.cores.trans h.cores, k.skink.trans h.skink⟩

theorem State.Quiet.foldl {α : Type} {f : State → α → State} (h : ∀ (s : State) (a : α), s.Quiet (f s a)) (l : List α) (s : State) :
    s.Quiet (l.foldl f s) := by
  induction l generalizing s with
  | nil => exact .refl s
  | cons a l ih => exact (h s a).trans (ih (f s a))

/-- The cores by key stay. -/
theorem State.getCore_congr {s t : State} (core : t.core = s.core) (cores : t.cores = s.cores) (k : CoreKey) : t.getCore k = s.getCore k := by
  unfold State.getCore
  rw [core, cores]

theorem State.onDie_quiet (s : State) (n : Nat) (f : Die → Die) : s.Quiet (s.onDie n f) := ⟨rfl, rfl, rfl, rfl, rfl, rfl, rfl⟩
theorem State.setStamp_quiet (s : State) (pa w l t : Nat) : s.Quiet (s.setStamp pa w l t) := ⟨rfl, rfl, rfl, rfl, rfl, rfl, rfl⟩
theorem State.fresh_quiet (s : State) : s.Quiet s.fresh := ⟨rfl, rfl, rfl, rfl, rfl, rfl, rfl⟩
theorem State.withOut_quiet (s : State) (l : List OutMsg) : s.Quiet { s with out := l } := ⟨rfl, rfl, rfl, rfl, rfl, rfl, rfl⟩
theorem State.withPorts_quiet (s : State) (l : Vector Port 36) : s.Quiet { s with ports := l } := ⟨rfl, rfl, rfl, rfl, rfl, rfl, rfl⟩
theorem State.withPkg_quiet (s : State) (p : Pkg) : s.Quiet { s with pkg := p } := ⟨rfl, rfl, rfl, rfl, rfl, rfl, rfl⟩

theorem State.pumpOne_quiet (st : State × List OutMsg) (m : OutMsg) : st.1.Quiet (State.pumpOne st m).1 := by
  unfold State.pumpOne
  dsimp only
  split
  · exact .refl _
  · split
    · exact .refl _
    · exact st.1.withPorts_quiet _

theorem State.pump_quiet (s : State) : s.Quiet s.pump := by
  have all (l : List OutMsg) (st : State × List OutMsg) : st.1.Quiet (l.foldl State.pumpOne st).1 := by
    induction l generalizing st with
    | nil => exact .refl _
    | cons m l ih => exact (State.pumpOne_quiet st m).trans (ih _)
  exact (s.withOut_quiet []).trans ((all s.out ({ s with out := [] }, [])).trans (State.withOut_quiet _ _))

theorem State.sendTo_quiet (s : State) (dev : DevNo) (vc kind : Nat) (body : FlitBody) : s.Quiet (s.sendTo dev vc kind body) :=
  (s.withOut_quiet _).trans (State.pump_quiet _)

theorem State.toLender_quiet (s : State) (pa : Nat) (body : FlitBody) : s.Quiet (s.toLender pa body) := by
  unfold State.toLender
  cases s.lender pa with
  | none => exact .refl s
  | some d => exact s.sendTo_quiet ..

theorem State.reedKeep_quiet (s : State) (pa : Nat) : s.Quiet (s.reedKeep pa) := by
  unfold State.reedKeep
  cases s.tier pa with
  | hbm d => exact s.onDie_quiet ..
  | mire p => exact .refl s
  | lease n => exact .refl s
  | absent => exact .refl s

theorem State.request_quiet (s : State) (pa : Nat) : s.Quiet (s.request pa) := by
  unfold State.request State.requestAs
  split
  · exact .refl s
  · exact s.onDie_quiet ..

theorem State.compress_quiet (s : State) (pa cmp : Nat) : s.Quiet (s.compress pa cmp) := by
  unfold State.compress
  cases s.tier pa with
  | mire p =>
    dsimp only
    split
    · exact .refl s
    · split
      · exact (s.withPkg_quiet _).trans (State.onDie_quiet ..)
      · exact s.onDie_quiet ..
  | hbm d => exact .refl s
  | lease n => exact .refl s
  | absent => exact .refl s

theorem State.walkTaken_quiet (s : State) (ctx : Nat) (va : Word) : s.Quiet (s.walkTaken ctx va) :=
  State.Quiet.foldl (fun s a => (s.request_quiet a).trans (State.setStamp_quiet ..)) _ s

/-! ### A write of a sector (R132, R362) -/

/-- Bytes put into memory, whatever stands there, leave the cores and the host's memory. -/
theorem State.poke_frame (s : State) (pa : Nat) (bs : List Byte) : (s.poke pa bs).core = s.core ∧ (s.poke pa bs).cores = s.cores
    ∧ (s.poke pa bs).hostMem = s.hostMem ∧ (s.poke pa bs).skink = s.skink := by
  have byte (t : State) (a : Nat) (b : Byte) : (t.putByte a b).core = t.core ∧ (t.putByte a b).cores = t.cores
      ∧ (t.putByte a b).hostMem = t.hostMem ∧ (t.putByte a b).skink = t.skink := by
    unfold State.putByte
    split
    · exact ⟨rfl, rfl, rfl, rfl⟩
    · split
      · unfold State.sidePut
        split
        · exact ⟨rfl, rfl, rfl, rfl⟩
        · split <;> exact ⟨rfl, rfl, rfl, rfl⟩
      · exact ⟨rfl, rfl, rfl, rfl⟩
  have all (l : List (Byte × Nat)) (t : State) : (l.foldl (fun s x => s.putByte (pa + x.2) x.1) t).core = t.core
      ∧ (l.foldl (fun s x => s.putByte (pa + x.2) x.1) t).cores = t.cores
      ∧ (l.foldl (fun s x => s.putByte (pa + x.2) x.1) t).hostMem = t.hostMem
      ∧ (l.foldl (fun s x => s.putByte (pa + x.2) x.1) t).skink = t.skink := by
    induction l generalizing t with
    | nil => exact ⟨rfl, rfl, rfl, rfl⟩
    | cons x l ih =>
      obtain ⟨core, cores, host, skink⟩ := ih (t.putByte (pa + x.2) x.1)
      obtain ⟨core', cores', host', skink'⟩ := byte t (pa + x.2) x.1
      exact ⟨core.trans core', cores.trans cores', host.trans host', skink.trans skink'⟩
  unfold State.poke
  split
  · exact ⟨rfl, rfl, rfl, rfl⟩
  · exact all _ s

/-- What a write within one sector, where nothing stops it, is. -/
theorem State.writeBad_eq {s v : State} {va : Word} {pa cmp : Nat} {bs : List Byte} {tag : Byte} {bad : Bool}
    (h : s.writeBad va pa cmp bs tag bad = .ok v) : v = (s.putBad pa bs tag bad).compress pa cmp := by
  unfold State.writeBad at h
  split at h
  · cases h
  · split at h
    · cases h
    · split at h
      · cases h
      · exact (Except.ok.inj h).symm

/-- After the bytes are in memory, only the way to a lender and the store's own tables change. -/
theorem State.putBad_quiet (s : State) (pa : Nat) (bs : List Byte) (tag : Byte) (bad : Bool) (cmp : Nat) :
    ((s.putHere pa bs tag).taint pa bad).Quiet ((s.putBad pa bs tag bad).compress pa cmp) :=
  (State.toLender_quiet ..).trans (State.compress_quiet ..)

/-- A write leaves the cores and the host's memory. -/
theorem State.writeBad_frame {s v : State} {va : Word} {pa cmp : Nat} {bs : List Byte} {tag : Byte} {bad : Bool}
    (h : s.writeBad va pa cmp bs tag bad = .ok v) :
    v.core = s.core ∧ v.cores = s.cores ∧ v.hostMem = s.hostMem ∧ v.skink = s.skink := by
  have quiet := s.putBad_quiet pa bs tag bad cmp
  have keep := s.reedKeep_quiet pa
  obtain ⟨core, cores, host, skink⟩ := (s.reedKeep pa).poke_frame pa bs
  have taint : ((s.putHere pa bs tag).taint pa bad).core = (s.putHere pa bs tag).core
      ∧ ((s.putHere pa bs tag).taint pa bad).cores = (s.putHere pa bs tag).cores
      ∧ ((s.putHere pa bs tag).taint pa bad).hostMem = (s.putHere pa bs tag).hostMem
      ∧ ((s.putHere pa bs tag).taint pa bad).skink = (s.putHere pa bs tag).skink := by
    cases bad <;> exact ⟨rfl, rfl, rfl, rfl⟩
  obtain ⟨core', cores', host', skink'⟩ := taint
  rw [State.writeBad_eq h]
  exact ⟨quiet.core.trans (core'.trans (core.trans keep.core)), quiet.cores.trans (cores'.trans (cores.trans keep.cores)),
    quiet.hostMem.trans (host'.trans (host.trans keep.hostMem)), quiet.skink.trans (skink'.trans (skink.trans keep.skink))⟩

/-- A sector's poison, taken away or put, is that sector's alone. -/
theorem setHas_putPoison (pa k : Nat) (n : Nat) (ps : List Nat) (h : k ≠ pa / 128) :
    setHas k (if n = 128 then setDel (pa / 128) ps else ps) = setHas k ps := by
  split
  · rw [setHas_setDel, decide_eq_true h, Bool.and_true]
  · rfl

theorem setHas_setAdd_other (x k : Nat) (l : List Nat) (h : k ≠ x) : setHas k (setAdd x l) = setHas k l := by
  induction l with
  | nil => exact (setHas_cons k x []).trans (by rw [decide_eq_false (Ne.symm h), Bool.false_or])
  | cons y l ih =>
    rw [setAdd]
    split
    · rw [setHas_cons, decide_eq_false (Ne.symm h), Bool.false_or]
    · split
      · rfl
      · rw [setHas_cons, setHas_cons, ih]

/-- What a write leaves in memory, its tags and its poison, where memory holds no tables of the device. -/
theorem State.writeBad_contents {s v : State} {va : Word} {pa cmp : Nat} {bs : List Byte} {tag : Byte} {bad : Bool}
    (wf : s.memWf = true) (plain : s.plainMem = true) (h : s.writeBad va pa cmp bs tag bad = .ok v) :
    (∀ x, v.mem.read x = if pa ≤ x ∧ x < pa + bs.length then bs.getD (x - pa) 0 else s.mem.read x)
    ∧ (∀ k, v.tags.read k = if k = pa / 128 then tag else s.tags.read k)
    ∧ ∀ k, k ≠ pa / 128 → setHas k v.poison = setHas k s.poison := by
  obtain ⟨memWf, tagsWf, -⟩ := s.memWf_iff.mp wf
  have quiet := s.putBad_quiet pa bs tag bad cmp
  have keep := s.reedKeep_quiet pa
  have plain' : (s.reedKeep pa).plainMem = true := by
    rw [← plain]
    unfold State.reedKeep
    split <;> rfl
  have poke : (s.reedKeep pa).poke pa bs = { s.reedKeep pa with mem := (s.reedKeep pa).mem.writeBytes pa bs } := if_pos plain'
  have here : (s.putHere pa bs tag).mem = s.mem.writeBytes pa bs ∧ (s.putHere pa bs tag).tags = s.tags.write (pa / 128) tag
      ∧ (s.putHere pa bs tag).poison = if bs.length = 128 then setDel (pa / 128) s.poison else s.poison := by
    unfold State.putHere
    dsimp only
    rw [poke]
    dsimp only
    rw [keep.mem, keep.tags, keep.poison]
    exact ⟨rfl, rfl, rfl⟩
  obtain ⟨mem, tags, poison⟩ := here
  have taint : ((s.putHere pa bs tag).taint pa bad).mem = (s.putHere pa bs tag).mem
      ∧ ((s.putHere pa bs tag).taint pa bad).tags = (s.putHere pa bs tag).tags
      ∧ ∀ k, k ≠ pa / 128 → setHas k ((s.putHere pa bs tag).taint pa bad).poison = setHas k (s.putHere pa bs tag).poison := by
    cases bad with
    | false => exact ⟨rfl, rfl, fun _ _ => rfl⟩
    | true => exact ⟨rfl, rfl, fun k other => setHas_setAdd_other _ k _ other⟩
  obtain ⟨mem', tags', poison'⟩ := taint
  rw [State.writeBad_eq h]
  refine ⟨fun x => ?_, fun k => ?_, fun k other => ?_⟩
  · rw [quiet.mem, mem', mem]
    exact Memory.read_writeBytes bs s.mem pa x memWf
  · rw [quiet.tags, tags', tags]
    by_cases same : k = pa / 128
    · rw [if_pos same, same, Memory.read_write_same _ _ _ tagsWf]
    · rw [if_neg same, Memory.read_write_other _ _ _ _ same]
  · rw [quiet.poison, poison' k other, poison, setHas_putPoison pa k bs.length s.poison other]

/-! ### Translation (R116 to R118) -/

/-- A core as translations leave it: only its TLB differs. -/
def Core.Walked (c d : Core) : Prop := ∃ l, d = { c with tlb := l }

theorem Core.Walked.refl (c : Core) : c.Walked c := ⟨c.tlb, rfl⟩

/-- A translation fills TLBs, and leaves the rest of every core. -/
theorem State.tlbFill_getCore (s : State) (fen : Nat) (key : Option CoreKey) (e : TlbEntry) (k : CoreKey) :
    (s.getCore k).Walked ((s.tlbFill fen key e).getCore k) := by
  unfold State.tlbFill
  cases key with
  | none => exact .refl _
  | some j =>
    dsimp only
    rw [State.getCore_onCore _ j k _ (State.getCore_key _ j)]
    split
    · next same => exact same ▸ ⟨_, rfl⟩
    · exact .refl _

theorem State.walked_getCore (s : State) (fen : Nat) (key : Option CoreKey) (ctx : Nat) (va : Word) (write : Bool) (l : Leaf) (k : CoreKey) :
    (s.getCore k).Walked ((s.walked fen key ctx va write l).st.getCore k) := by
  have taken := s.walkTaken_quiet ctx va
  have before : (s.walkTaken ctx va).getCore k = s.getCore k := State.getCore_congr taken.core taken.cores k
  unfold State.walked
  dsimp only
  refine (?_ : ∀ t : State, t.getCore k = s.getCore k → (s.getCore k).Walked ((t.tlbFill fen key _).getCore k)) _ ?_
  · exact fun t same => same ▸ t.tlbFill_getCore fen key _ k
  · split
    · exact before
    · have keep := (s.walkTaken ctx va).reedKeep_quiet l.at_
      exact (State.getCore_congr (s := s.walkTaken ctx va) keep.core keep.cores k).trans before

theorem State.translate_getCore {s : State} {fen : Nat} {key : Option CoreKey} {ctx : Nat} {va : Word} {w : Bool} {x : Xlate}
    (h : s.translate fen key ctx va w = .ok x) (k : CoreKey) : (s.getCore k).Walked (x.st.getCore k) := by
  unfold State.translate at h
  split at h
  · cases h
  · dsimp only at h
    split at h
    · split at h
      · cases h
      · cases h
        exact .refl _
    · split at h
      · cases h
      · cases h
        exact s.walked_getCore ..

/-- So does a write through translation. -/
theorem State.writeAt_getCore {s v : State} {fen pa : Nat} {key : Option CoreKey} {ctx : Nat} {va : Word} {bs : List Byte} {tag : Byte}
    (h : s.writeAt fen key ctx va bs tag = .ok (v, pa)) (k : CoreKey) : (s.getCore k).Walked (v.getCore k) := by
  unfold State.writeAt at h
  split at h
  · cases h
  · next x ok =>
    split at h
    · cases h
    · next u written =>
      cases h
      obtain ⟨core, cores, -⟩ := State.writeBad_frame written
      have asked := u.request_quiet x.pa
      rw [State.getCore_congr asked.core asked.cores k, State.getCore_congr core cores k]
      exact State.translate_getCore ok k

/-! ### A global piece (R137) -/

/-- What a piece of an access leaves of its core. -/
structure Core.Carries (c d : Core) : Prop where
  key : d.key = c.key
  regs : d.regs = c.regs
  vs : d.vs = c.vs
  mem : d.sp.mem = c.sp.mem

theorem Core.Carries.trans {c d e : Core} (h : c.Carries d) (k : d.Carries e) : c.Carries e :=
  ⟨k.key.trans h.key, k.regs.trans h.regs, k.vs.trans h.vs, k.mem.trans h.mem⟩

theorem Core.Walked.carries {c d : Core} (h : c.Walked d) : c.Carries d := by
  obtain ⟨l, rfl⟩ := h
  exact ⟨rfl, rfl, rfl, rfl⟩

/-- A store's piece done: its access, or the end of it. -/
theorem Core.storeDone_carries (c : Core) (id i : Nat) : c.Carries (c.storeDone id i) := by
  unfold Core.storeDone
  dsimp only
  split
  · exact ⟨rfl, rfl, rfl, rfl⟩
  · split <;> exact ⟨rfl, rfl, rfl, rfl⟩

/-- A sector that enters the ways. -/
theorem Core.wayFill_carries (c : Core) (va : Word) (w : Way) (n : Nat) : c.Carries (c.wayFill va w n) := by
  unfold Core.wayFill
  dsimp only
  split <;> exact ⟨rfl, rfl, rfl, rfl⟩

theorem Core.wayFill_pipes (c : Core) (va : Word) (w : Way) (n : Nat) : (c.wayFill va w n).pipes = c.pipes := by
  unfold Core.wayFill
  dsimp only
  split <;> rfl

/-- A piece that may take its place, of an access none of whose pieces would fault. -/
theorem State.performPiece_global {s : State} {key : CoreKey} {id i : Nat} {a : Access} {p : Piece}
    (here : ((s.settle key).getCore key).access id = some a) (piece : a.pieces[i]? = some p) (global : a.space = .global)
    (may : (s.settle key).pieceMay ((s.settle key).getCore key) a p = true) (away : (s.settle key).pieceAway key id i = false)
    (sound : ∀ q ∈ a.pieces, (s.settle key).pieceFault ((s.settle key).getCore key) a q = none) :
    s.performPiece key id i = if a.store then (s.settle key).performStore ((s.settle key).getCore key) a i p
      else (s.settle key).performLoad ((s.settle key).getCore key) a i p := by
  have none : (if a.pieces.any (·.done) then [p] else a.pieces).findSome?
      ((s.settle key).pieceFault ((s.settle key).getCore key) a) = none := by
    refine List.findSome?_eq_none_iff.mpr fun q mem => ?_
    split at mem
    · exact sound q (List.mem_singleton.mp mem ▸ List.mem_of_getElem? piece)
    · exact sound q mem
  unfold State.performPiece
  dsimp only
  rw [here]
  dsimp only
  rw [piece]
  dsimp only
  rw [may, away, if_neg (by decide), global]
  unfold State.performGlobal
  dsimp only
  rw [none]

/-- A store's piece that takes its place: its bytes are written, and its core goes on. -/
theorem State.performStore_ok {s v : State} {c : Core} {a : Access} {i : Nat} {p : Piece} {pa : Nat}
    (h : s.writeAt c.fen (some c.key) c.ctx.toNat p.addr p.bytes 0 = .ok (v, pa)) : ∃ (u : State) (f : Core → Core),
    s.performStore c a i p = u.onCore c.key f ∧ v.Quiet u ∧ ∀ d : Core, d.Carries (f d) := by
  unfold State.performStore
  rw [h]
  refine ⟨_, _, rfl, v.setStamp_quiet .., fun d => ?_⟩
  have raised : d.Carries (d.raiseClock a.queue.toNat (v.wroteTimed pa (c.clockOf a.queue a.bundle)).1) := ⟨rfl, rfl, rfl, rfl⟩
  exact (raised.trans (Core.storeDone_carries _ a.id i)).trans ⟨rfl, rfl, rfl, rfl⟩

/-- An access of a core changed. -/
theorem Core.access_onAccess {c : Core} {id : Nat} {a : Access} (f : Access → Access) (h : c.access id = some a) (same : ∀ b : Access, (f b).id = b.id) :
    (c.onAccess id f).access id = some (f a) := by
  have own : a.id = id := of_decide_eq_true (List.find?_some (p := fun a : Access => decide (a.id = id)) h)
  unfold Core.access Core.onAccess at *
  dsimp only
  rw [List.find?_map]
  have other : ((fun b : Access => decide (b.id = id)) ∘ fun b => if b.id = id then f b else b) = fun b : Access => decide (b.id = id) := by
    funext b
    change decide ((if b.id = id then f b else b).id = id) = decide (b.id = id)
    split
    · rw [same b]
    · rfl
  rw [other, h, Option.map_some, if_pos own]

/-- A piece of an access changed. -/
theorem Access.onPiece_here {a : Access} {i : Nat} {p : Piece} (f : Piece → Piece) (h : a.pieces[i]? = some p) :
    (a.onPiece i f).pieces[i]? = some (f p) := by
  unfold Access.onPiece
  rw [List.getElem?_map, List.getElem?_zipIdx, h]
  simp

/-- Every piece of it is as it was, or changed. -/
theorem Access.mem_onPiece {a : Access} {i : Nat} {q : Piece} (f : Piece → Piece) (h : q ∈ (a.onPiece i f).pieces) :
    ∃ r ∈ a.pieces, q = r ∨ q = f r := by
  obtain ⟨⟨r, j⟩, mem, rfl⟩ := List.mem_map.mp h
  refine ⟨r, List.mem_of_getElem? (List.mem_zipIdx_iff_getElem?.mp mem), ?_⟩
  dsimp only
  split
  · exact .inr rfl
  · exact .inl rfl

/-- A load's piece whose bytes have come, of an access with no tagged sector. -/
theorem State.loadDone_plain {s : State} {key : CoreKey} {id i : Nat} {a : Access} (bs : List Byte) (tag : Byte)
    (here : (s.getCore key).access id = some a) (plain : ∀ q ∈ a.pieces, tagV q.tag = false) (untagged : tagV tag = false) :
    s.loadDone key id i bs tag = s.onCore key fun c => c.onAccess id fun a => a.onPiece i fun p =>
      { p with done := true, bytes := bs, tag := tag } := by
  have core : (s.onCore key fun c => c.onAccess id fun a => a.onPiece i fun p => { p with done := true, bytes := bs, tag := tag }).getCore key
      = (s.getCore key).onAccess id fun a => a.onPiece i fun p => { p with done := true, bytes := bs, tag := tag } :=
    (State.getCore_onCore s key key _ (s.getCore_key key)).trans (if_pos rfl)
  unfold State.loadDone
  dsimp only
  have access := Core.access_onAccess (fun a => a.onPiece i fun p => { p with done := true, bytes := bs, tag := tag }) here fun _ => rfl
  rw [core, access]
  dsimp only
  split
  · unfold State.loadKept
    dsimp only
    rw [keptCheck_untagged]
    refine fun t mem => ?_
    obtain ⟨q, piece, rfl⟩ := List.mem_map.mp mem
    obtain ⟨r, old, same | changed⟩ := Access.mem_onPiece _ piece
    · exact same ▸ plain r old
    · exact changed ▸ untagged
  · rfl

/-- A load's piece that its home serves: the bytes that stand there, and its core goes on. -/
theorem State.performLoad_ok {s : State} {c : Core} {a : Access} {i : Nat} {p : Piece} {x : Xlate} {bs : List Byte} {tag : Byte}
    (core : s.getCore c.key = c) (here : c.access a.id = some a) (piece : a.pieces[i]? = some p)
    (ok : s.translate c.fen (some c.key) c.ctx.toNat p.addr false = .ok x) (read : x.st.readPhys p.addr x.pa p.len = .ok (bs, tag))
    (miss : c.wayHit p.addr x.pa (c.clockOf a.queue a.bundle) = none) (plain : ∀ q ∈ a.pieces, tagV q.tag = false)
    (untagged : tagV tag = false) : ∃ (u : State) (f : Core → Core), s.performLoad c a i p = u.onCore c.key f
      ∧ u.mem = x.st.mem ∧ u.tags = x.st.tags ∧ u.poison = x.st.poison ∧ c.Carries (u.getCore c.key) ∧ (∀ d : Core, d.Carries (f d))
      ∧ ∃ b, (f (u.getCore c.key)).access a.id = some b ∧ b.pieces[i]? = some { p with done := true, bytes := bs, tag := tag } := by
  have asked := x.st.request_quiet x.pa
  obtain ⟨l, walked⟩ := State.translate_getCore ok c.key
  rw [core] at walked
  have served (g : Core → Core) (hg : ∀ d : Core, d.Carries (g d) ∧ (g d).pipes.acc = d.pipes.acc) :
      ∀ u : State, (x.st.request x.pa).Quiet u → ∃ (t : State) (f : Core → Core),
        (u.onCore c.key g).loadDone c.key a.id i bs tag = t.onCore c.key f
        ∧ t.mem = x.st.mem ∧ t.tags = x.st.tags ∧ t.poison = x.st.poison ∧ c.Carries (t.getCore c.key) ∧ (∀ d : Core, d.Carries (f d))
        ∧ ∃ b, (f (t.getCore c.key)).access a.id = some b ∧ b.pieces[i]? = some { p with done := true, bytes := bs, tag := tag } := by
    intro u quiet
    have now : u.getCore c.key = { c with tlb := l } :=
      (State.getCore_congr (asked.trans quiet).core (asked.trans quiet).cores c.key).trans walked
    have then_ : (u.onCore c.key g).getCore c.key = g { c with tlb := l } := by
      rw [State.getCore_onCore u c.key c.key g ((hg _).1.key.trans (u.getCore_key c.key)), if_pos rfl, now]
    have access : ((u.onCore c.key g).getCore c.key).access a.id = some a := by
      rw [then_]
      exact (congrArg (List.find? fun a' : Access => decide (a'.id = a.id)) (hg _).2).trans here
    refine ⟨_, _, State.loadDone_plain bs tag access plain untagged, ?_, ?_, ?_, ?_, fun d => ⟨rfl, rfl, rfl, rfl⟩, ?_⟩
    · exact (u.onCore_mem c.key g).trans ((asked.trans quiet).mem)
    · exact (u.onCore_tags c.key g).trans ((asked.trans quiet).tags)
    · exact (u.onCore_poison c.key g).trans ((asked.trans quiet).poison)
    · rw [then_]
      exact (Core.Walked.carries ⟨l, rfl⟩).trans (hg _).1
    · exact ⟨_, Core.access_onAccess _ access fun _ => rfl, Access.onPiece_here _ piece⟩
  unfold State.performLoad
  dsimp only
  rw [ok]
  dsimp only
  rw [read]
  dsimp only
  rw [miss]
  refine served _ (fun d => ?_) _ ?_
  · have raised : d.Carries (d.raiseClock a.queue.toNat ((x.st.request x.pa).readTimed x.pa (c.clockOf a.queue a.bundle)).1) :=
      ⟨rfl, rfl, rfl, rfl⟩
    refine ⟨raised.trans (Core.wayFill_carries ..), ?_⟩
    exact (congrArg Pipes.acc (Core.wayFill_pipes ..)).trans rfl
  · exact (State.setStamp_quiet ..).trans (State.fresh_quiet _)

/-- A read of memory that holds no tables of the device. -/
theorem State.readPhys_plain {s : State} {va : Word} {pa n : Nat} {bs : List Byte} {tag : Byte} (plain : s.plainMem = true)
    (h : s.readPhys va pa n = .ok (bs, tag)) : bs = s.mem.readBytes pa n := by
  unfold State.readPhys at h
  split at h
  · cases h
  · split at h
    · cases h
    · cases h
      exact if_pos plain

/-! ### A window piece (R99, R101 to R105) -/

/-- A network write to a bank that serves the network, not a FIFO. -/
theorem Core.netWrite_done {c d : Core} {off : Nat} {bs : List Byte} {tag : Byte}
    (sw : (vget c.landDue.sp.bank (bankOf (off % c.landDue.spSize))).sw = false)
    (mode : (vget c.landDue.sp.bank (bankOf (off % c.landDue.spSize))).mode = 0) (h : c.netWrite off bs tag = .done d) :
    d = { c.landDue with sp := (c.landDue.sp.put (off % c.landDue.spSize) bs tag).wrote (off % c.landDue.spSize / 128) } := by
  unfold Core.netWrite BankReg.shut at h
  dsimp only at h
  rw [sw, mode, if_neg (by decide), if_neg (by decide)] at h
  split at h
  · cases h
  · cases h
    rfl

/-- What bytes put into a sector leave of a scratchpad. -/
theorem Scratch.put_contents {sp : Scratch} (a : Nat) (bs : List Byte) (tag : Byte) (wf : sp.wf = true) :
    (∀ x, (sp.put a bs tag).mem.read x = if a ≤ x ∧ x < a + bs.length then bs.getD (x - a) 0 else sp.mem.read x)
    ∧ (∀ k, (sp.put a bs tag).tags.read k = if k = a / 128 then tag else sp.tags.read k)
    ∧ ∀ k, k ≠ a / 128 → setHas k (sp.put a bs tag).poison = setHas k sp.poison := by
  obtain ⟨mem, tags⟩ := sp.wf_iff.mp wf
  refine ⟨fun x => Memory.read_writeBytes bs sp.mem a x mem, fun k => ?_, fun k other => setHas_putPoison a k bs.length sp.poison other⟩
  by_cases same : k = a / 128
  · rw [if_pos same, same]
    exact Memory.read_write_same sp.tags _ tag tags
  · rw [if_neg same]
    exact Memory.read_write_other sp.tags _ _ tag same

end Sys2Proof.Machine

open Sys2Proof Sys2Proof.Machine in
/-- Settles O30: the forms as the direct forms send them; a write as its parts leave the package; each piece as its space serves it. -/
theorem farCopies : Obligations.FarCopies := by
  refine ⟨?_, ?_, ?_, ?_, ?_⟩
  · intro s n q x y w z sh a u active tokens levels canonical
    obtain ⟨core, -, store, -, intact⟩ := s.follows_same x y z
    have place : u.core.addrA sh = a := congrArg (Core.addrA · sh) core
    refine ⟨fun size => ?_, fun size line whole => directForm_runs active tokens ?_⟩
    · intro len d due from_ to_ may
      refine directForm_runs active tokens ?_
      rw [← place] at from_ canonical
      have sends := ldgxBody_sends u q sh levels canonical size from_ (by rw [core]; exact to_) ((store ..).trans (by rw [core]; exact may))
      rw [place, core] at sends
      exact sends
    · rw [← place] at line canonical
      have sends := stgxBody_sends u q sh levels canonical size line ((intact ..).trans whole)
      rw [place, show u.sregBytes sh = bvBytes (u.core.rs (BitVec.ofNat 5 (fld sh 148 144))) from rfl, core] at sends
      exact sends
  · intro s v va pa cmp bs tag bad wf plain _ written
    obtain ⟨mem, tags, poison⟩ := State.writeBad_contents wf plain written
    obtain ⟨core, cores, host, -⟩ := State.writeBad_frame written
    exact ⟨mem, tags, poison, core, cores, host⟩
  · intro s key id i a p u c here piece global may away sound
    have run := State.performPiece_global here piece global may away sound
    have own : c.key = key := u.getCore_key key
    refine ⟨fun store v pa written => ?_, fun load x bs tag ok read miss plain untagged => ?_⟩
    · rw [← own] at written
      obtain ⟨t, f, done, quiet, carries⟩ := State.performStore_ok (a := a) (i := i) written
      have core : c.Carries (t.getCore key) := by
        have walked := (State.writeAt_getCore written key).carries
        rw [State.getCore_congr quiet.core quiet.cores key]
        exact walked
      have after : (t.onCore key f).getCore key = f (t.getCore key) := by
        rw [State.getCore_onCore t key key f ((carries _).key.trans (t.getCore_key key)), if_pos rfl]
      have frame := core.trans (carries (t.getCore key))
      rw [own] at done
      refine ⟨_, congrArg Host.Outcome.next (run.trans ((if_pos store).trans done)), (t.onCore_mem key f).trans quiet.mem,
        (t.onCore_tags key f).trans quiet.tags, (t.onCore_poison key f).trans quiet.poison, (t.onCore_hostMem key f).trans quiet.hostMem, ?_⟩
      rw [after]
      exact ⟨frame.regs, frame.vs, frame.mem⟩
    · refine ⟨fun memory => State.readPhys_plain memory read, ?_⟩
      have known : a.id = id := of_decide_eq_true (List.find?_some (p := fun a : Access => decide (a.id = id)) here)
      rw [← own] at ok
      obtain ⟨t, f, done, mem, tags, poison, core, carries, b, access, bytes⟩ := State.performLoad_ok (a := a)
        (show u.getCore c.key = c from own.symm ▸ rfl) (known.symm ▸ here) piece ok read miss plain untagged
      have after : (t.onCore key f).getCore key = f (t.getCore key) := by
        rw [State.getCore_onCore t key key f ((carries _).key.trans (t.getCore_key key)), if_pos rfl]
      rw [own] at done core access
      rw [known] at access
      have frame := core.trans (carries (t.getCore key))
      refine ⟨_, congrArg Host.Outcome.next (run.trans ((if_neg (by rw [load]; exact Bool.false_ne_true)).trans done)),
        (t.onCore_mem key f).trans mem, (t.onCore_tags key f).trans tags, (t.onCore_poison key f).trans poison, ?_⟩
      rw [after]
      exact ⟨frame.regs, frame.vs, frame.mem, b, access, bytes⟩
  · intro c d off bs tag e o b wf _ sw mode written
    rw [Core.netWrite_done sw mode written]
    obtain ⟨mem, tags, poison⟩ := Scratch.put_contents o bs tag wf
    exact ⟨mem, tags, poison, rfl, rfl, rfl, rfl⟩
  · intro s key off n e o b sw mode clean
    have open_ : (vget e.sp.bank (bankOf o)).shut = false := by
      unfold BankReg.shut
      rw [sw, mode]
      rfl
    unfold State.netRead
    dsimp only
    rw [show (vget (s.getCore key).landDue.sp.bank (bankOf (off % (s.getCore key).landDue.spSize))).shut = false from open_,
      if_neg Bool.false_ne_true,
      if_neg (show ¬ (vget (s.getCore key).landDue.sp.bank (bankOf (off % (s.getCore key).landDue.spSize))).mode = 2 from fun h =>
        absurd (mode.symm.trans h) (by decide)),
      show setHas (off % (s.getCore key).landDue.spSize / 128) (s.getCore key).landDue.sp.poison = false from clean]
    rfl
end

section
/-! SUPPORT. The relation that carries the invariant of O3 (R115, R123) through the model's operations: every memory stays in canonical
form, and the skink's epoch stands. This file says it of the state's own operations, of memory and of translation. -/

namespace Sys2Proof.Machine

/-- Where every memory of `s` is canonical every memory of `t` is, and the epoch of the skink is the same. -/
structure State.Steady (s t : State) : Prop where
  wf : s.memWf = true → t.memWf = true
  epoch : t.skink.epoch = s.skink.epoch

/-- What an attempt leaves, whatever comes of it: `at_` gives the state within its answer. -/
structure TriedSteady {α : Type} (s : State) (at_ : α → State) (r : Tried α) : Prop where
  error : ∀ {e : FaultInfo × State}, r = .error e → s.Steady e.2
  ok : ∀ {a : α}, r = .ok a → s.Steady (at_ a)

/-- Where an event has a next state, its memories are canonical if they were before. -/
structure NextSteady (s : State) (o : Out) : Prop where
  wf : ∀ t, o = .next t → s.memWf = true → t.memWf = true

/-! ### The relation -/

theorem State.Steady.refl (s : State) : s.Steady s := ⟨id, rfl⟩

theorem State.Steady.trans {s t u : State} (h : s.Steady t) (k : t.Steady u) : s.Steady u := ⟨k.wf ∘ h.wf, k.epoch.trans h.epoch⟩

/-- The same, with the last step first: what the step is of is read from the goal. -/
theorem State.Steady.after {s t u : State} (k : t.Steady u) (h : s.Steady t) : s.Steady u := h.trans k

theorem State.Steady.foldl {α : Type} {f : State → α → State} (h : ∀ (s : State) (a : α), s.Steady (f s a)) (l : List α) (s : State) :
    s.Steady (l.foldl f s) := by
  induction l generalizing s with
  | nil => exact .refl s
  | cons a l ih => exact (h s a).trans (ih (f s a))

/-- A branch of which each side keeps. -/
theorem State.Steady.ite {s t u : State} {c : Prop} [Decidable c] (h : s.Steady t) (k : s.Steady u) : s.Steady (if c then t else u) := by
  split
  · exact h
  · exact k

theorem State.Steady.elim {α : Type} {s t : State} {f : α → State} (o : Option α) (none : s.Steady t) (some : ∀ a, s.Steady (f a)) :
    s.Steady (o.elim t f) := by
  cases o with
  | none => exact none
  | some a => exact some a

theorem State.Quiet.steady {s t : State} (h : s.Quiet t) : s.Steady t := by
  refine ⟨fun wf => ?_, congrArg Skink.epoch h.skink⟩
  rw [State.memWf_iff] at wf ⊢
  rw [h.mem, h.tags, h.hostMem, h.core, h.cores]
  exact wf

theorem TriedSteady.failed {α : Type} {s : State} {at_ : α → State} {e : FaultInfo × State} (h : s.Steady e.2) :
    TriedSteady s at_ (.error e) := ⟨fun {_} same => Except.error.inj same ▸ h, fun {_} same => (nomatch same)⟩

theorem TriedSteady.done {α : Type} {s : State} {at_ : α → State} {a : α} (h : s.Steady (at_ a)) : TriedSteady s at_ (.ok a) :=
  ⟨fun {_} same => (nomatch same), fun {_} same => Except.ok.inj same ▸ h⟩

/-- A fault with the machine that the attempt leaves. -/
theorem TriedSteady.stopped {α : Type} {s t : State} {at_ : α → State} {f : FaultInfo} (h : s.Steady t) :
    TriedSteady s at_ (.error (f, t)) := .failed h

/-- An answer with the machine after it. -/
theorem TriedSteady.pair {α : Type} {s t : State} {a : α} (h : s.Steady t) : TriedSteady s Prod.snd (.ok (a, t)) := .done h

theorem TriedSteady.after {α : Type} {s t : State} {at_ : α → State} {r : Tried α} (h : s.Steady t) (k : TriedSteady t at_ r) :
    TriedSteady s at_ r := ⟨fun {_} same => h.trans (k.error same), fun {_} same => h.trans (k.ok same)⟩

theorem NextSteady.next {s t : State} (h : s.Steady t) : NextSteady s (.next t) :=
  ⟨fun _ same wf => Host.Outcome.next.inj same ▸ h.wf wf⟩

/-- An event that may change the epoch. -/
theorem NextSteady.canonical {s t : State} (h : s.memWf = true → t.memWf = true) : NextSteady s (.next t) :=
  ⟨fun _ same wf => Host.Outcome.next.inj same ▸ h wf⟩

theorem NextSteady.after {s t : State} {o : Out} (h : s.Steady t) (k : NextSteady t o) : NextSteady s o :=
  ⟨fun u same wf => k.wf u same (h.wf wf)⟩

theorem NextSteady.fault (s : State) (f : Fault) : NextSteady s (.fault f) := ⟨fun _ same => nomatch same⟩

theorem NextSteady.refused (s : State) (r : Refusal) : NextSteady s (.refused r) := ⟨fun _ same => nomatch same⟩

theorem NextSteady.stays (s : State) : NextSteady s (.next s) := .next (.refl s)

/-! ### The cores, the tables and the queues of records -/

theorem State.putCore_steady (s : State) (c : Core) (h : s.memWf = true → c.sp.wf = true) : s.Steady (s.putCore c) := by
  refine ⟨fun wf => s.putCore_memWf c wf (h wf), ?_⟩
  unfold State.putCore
  split <;> rfl

theorem State.onCore_steady (s : State) (k : CoreKey) (f : Core → Core) (h : ∀ c : Core, c.sp.wf = true → (f c).sp.wf = true) :
    s.Steady (s.onCore k f) := s.putCore_steady _ fun wf => h _ (s.getCore_wf k wf)

/-- The core in focus, replaced by one whose scratchpad is canonical. -/
theorem State.withCore_steady (s : State) (c : Core) (h : s.core.sp.wf = true → c.sp.wf = true) : s.Steady { s with core := c } := by
  refine ⟨fun wf => ?_, rfl⟩
  obtain ⟨mem, tags, host, core, cores⟩ := s.memWf_iff.mp wf
  exact (State.memWf_iff _).mpr ⟨mem, tags, host, h core, cores⟩

theorem State.focus_steady (s : State) (k : CoreKey) : s.Steady (s.focus k) := by
  refine ⟨s.focus_memWf k, ?_⟩
  unfold State.focus
  split <;> rfl

theorem State.withMem_steady (s : State) (m : Memory) (h : s.mem.wf = true → m.wf = true) : s.Steady { s with mem := m } := by
  refine ⟨fun wf => ?_, rfl⟩
  obtain ⟨mem, rest⟩ := s.memWf_iff.mp wf
  exact (State.memWf_iff _).mpr ⟨h mem, rest⟩

theorem State.withTags_steady (s : State) (m : Memory) (h : s.tags.wf = true → m.wf = true) : s.Steady { s with tags := m } := by
  refine ⟨fun wf => ?_, rfl⟩
  obtain ⟨mem, tags, rest⟩ := s.memWf_iff.mp wf
  exact (State.memWf_iff _).mpr ⟨mem, h tags, rest⟩

/-- Memory put aside and put back changed. -/
theorem State.Steady.withMem {s t : State} {m : Memory} (h : s.Steady t) (canonical : s.mem.wf = true → m.wf = true) :
    s.Steady { t with mem := m } := by
  refine ⟨fun wf => ?_, h.epoch⟩
  obtain ⟨-, rest⟩ := t.memWf_iff.mp (h.wf wf)
  exact (State.memWf_iff _).mpr ⟨canonical (s.memWf_iff.mp wf).1, rest⟩

theorem State.onCtx_steady (s : State) (n : Nat) (f : Ctx → Ctx) : s.Steady (s.onCtx n f) := ⟨id, rfl⟩
theorem State.onFen_steady (s : State) (n : Nat) (f : Fen → Fen) : s.Steady (s.onFen n f) := ⟨id, rfl⟩
theorem State.onDie_steady (s : State) (n : Nat) (f : Die → Die) : s.Steady (s.onDie n f) := ⟨id, rfl⟩
theorem State.post_steady (s : State) (r : FaultRec) : s.Steady (s.post r) := ⟨id, rfl⟩
theorem State.fresh_steady (s : State) : s.Steady s.fresh := ⟨id, rfl⟩
theorem State.onTask_steady (s : State) (k : CoreKey) (f : Task → Task) : s.Steady (s.onTask k f) := ⟨id, rfl⟩
theorem State.putPort_steady (s : State) (k : Nat) (p : Port) : s.Steady (s.putPort k p) := ⟨id, rfl⟩
theorem State.readLast_steady (s : State) (pa : Nat) : s.Steady (s.readLast pa) := ⟨id, rfl⟩
theorem State.wroteLast_steady (s : State) (pa : Nat) : s.Steady (s.wroteLast pa) := ⟨id, rfl⟩
theorem State.readFen_steady (s : State) (fen pa : Nat) : s.Steady (s.readFen fen pa) := ⟨id, rfl⟩
theorem State.wroteFen_steady (s : State) (fen pa : Nat) : s.Steady (s.wroteFen fen pa) := ⟨id, rfl⟩
theorem State.wroteNow_steady (s : State) (pa : Nat) : s.Steady (s.wroteNow pa) := ⟨id, rfl⟩
theorem State.fenSync_steady (s : State) (fen : Nat) : s.Steady (s.fenSync fen) := ⟨id, rfl⟩
theorem State.readTimed_steady (s : State) (pa clock : Nat) : s.Steady (s.readTimed pa clock).2.2 := ⟨id, rfl⟩
theorem State.readAt_steady (s : State) (pa clock : Nat) : s.Steady (s.readAt pa clock).2 := ⟨id, rfl⟩
theorem State.wroteTimed_steady (s : State) (pa clock : Nat) : s.Steady (s.wroteTimed pa clock).2 := ⟨id, rfl⟩

theorem State.raise_steady (s : State) (rank code cause : Nat) (repl : Bool) (i0 i1 : Word) :
    s.Steady (s.raise rank code cause repl i0 i1) := by
  unfold State.raise
  dsimp only
  split
  · exact ⟨id, rfl⟩
  · split <;> exact ⟨id, rfl⟩

theorem State.illegal_steady (s : State) : s.Steady s.illegal := s.raise_steady ..
theorem State.encFault_steady (s : State) : s.Steady s.encFault := s.raise_steady ..

theorem State.coreRead_steady (s : State) (cause n : Nat) : s.Steady (s.coreRead cause n) := by
  unfold State.coreRead
  split
  · exact s.raise_steady ..
  · exact .refl s

theorem State.postStop_steady (s : State) (who : Stopped) (r : FaultRec) : s.Steady (s.postStop who r) := by
  unfold State.postStop
  dsimp only
  split <;> exact ⟨id, rfl⟩

theorem State.stopCore_steady (s : State) (r : FaultRec) : s.Steady (s.stopCore r) :=
  (s.postStop_steady _ r).trans (State.withCore_steady _ _ (by
    unfold State.postStop
    dsimp only
    split <;> exact id))

theorem State.takeTrap_steady (s : State) (code : Byte) : s.Steady (s.takeTrap code) := by
  unfold State.takeTrap
  dsimp only
  split
  · exact s.stopCore_steady _
  · exact ⟨id, rfl⟩

theorem Core.leaveHandler_sp (c : Core) : c.leaveHandler.sp = c.sp := by
  unfold Core.leaveHandler
  split <;> rfl

theorem State.freezeCycle_steady (s : State) (q : Byte) : s.Steady (s.freezeCycle q) := ⟨id, rfl⟩

theorem State.stopDirect_steady (s : State) (r : FaultRec) : s.Steady (s.stopDirect r) := by
  have clean : s.Steady { s with core := { s.core with dfFault := none, dfPast := false } } := ⟨id, rfl⟩
  exact clean.trans ((State.stopCore_steady _ _).trans ⟨id, rfl⟩)

theorem State.postCend_steady (s : State) (n : Nat) : s.Steady (s.postCend n) := by
  unfold State.postCend
  dsimp only
  split
  · exact ⟨id, rfl⟩
  · exact .refl s

/-! ### Messages, interrupts and poison -/

theorem State.sendTo_steady (s : State) (dev : DevNo) (vc kind : Nat) (body : FlitBody) : s.Steady (s.sendTo dev vc kind body) :=
  (s.sendTo_quiet ..).steady

theorem State.toLender_steady (s : State) (pa : Nat) (body : FlitBody) : s.Steady (s.toLender pa body) := (s.toLender_quiet ..).steady

theorem State.reedKeep_steady (s : State) (pa : Nat) : s.Steady (s.reedKeep pa) := (s.reedKeep_quiet pa).steady

theorem State.request_steady (s : State) (pa : Nat) : s.Steady (s.request pa) := (s.request_quiet pa).steady

theorem State.requestAs_steady (s : State) (reed : Bool) (pa : Nat) : s.Steady (s.requestAs reed pa) := by
  unfold State.requestAs
  split
  · exact .refl s
  · exact s.onDie_steady ..

theorem State.compress_steady (s : State) (pa cmp : Nat) : s.Steady (s.compress pa cmp) := (s.compress_quiet ..).steady

theorem State.walkTaken_steady (s : State) (ctx : Nat) (va : Word) : s.Steady (s.walkTaken ctx va) := (s.walkTaken_quiet ..).steady

theorem State.pump_steady (s : State) : s.Steady s.pump := s.pump_quiet.steady

theorem State.raiseMsix_steady (s : State) (v : Nat) : s.Steady (s.raiseMsix v) := by
  unfold State.raiseMsix
  split
  · exact ⟨id, rfl⟩
  · exact .refl s

theorem State.mce_steady (s : State) (die cause i0 i1 : Nat) : s.Steady (s.mce die cause i0 i1) := by
  unfold State.mce
  exact (s.post_steady _).trans ((State.raiseMsix_steady _ 2).trans ⟨id, rfl⟩)

theorem State.poisonAll_steady (s : State) (l : List Nat) : s.Steady (s.poisonAll l) := ⟨id, rfl⟩

theorem State.poisonDie_steady (s : State) (die : Nat) (l : List Nat) : s.Steady (s.poisonDie die l) := by
  unfold State.poisonDie
  exact State.Steady.trans (t := (s.poisonAll l).onDie die _) ⟨id, rfl⟩ (State.mce_steady ..)

theorem State.lostLine_steady (s : State) (pa : Nat) : s.Steady (s.lostLine pa) := by
  unfold State.lostLine
  split
  · exact s.poisonDie_steady ..
  · exact .refl s

theorem State.met_steady (s : State) (f : FaultInfo) : s.Steady (s.met f) := by
  unfold State.met
  split
  · exact s.lostLine_steady _
  · exact .refl s

theorem State.readNow_steady (s : State) (pa : Nat) : s.Steady (s.readNow pa) := by
  unfold State.readNow
  exact (s.lostLine_steady pa).trans ⟨id, rfl⟩

/-! ### Memory and its side tables -/

theorem State.poke_steady (s : State) (pa : Nat) (bs : List Byte) : s.Steady (s.poke pa bs) :=
  ⟨s.poke_memWf pa bs, congrArg Skink.epoch (s.poke_frame pa bs).2.2.2⟩

theorem State.putHere_steady (s : State) (pa : Nat) (bs : List Byte) (tag : Byte) : s.Steady (s.putHere pa bs tag) := by
  unfold State.putHere
  dsimp only
  have written := (s.reedKeep_steady pa).trans (State.poke_steady _ pa bs)
  exact written.trans ((State.withTags_steady _ _ fun h => Memory.write_wf _ _ _ h).trans ⟨id, rfl⟩)

theorem State.taint_steady (s : State) (pa : Nat) (bad : Bool) : s.Steady (s.taint pa bad) := by
  cases bad <;> exact ⟨id, rfl⟩

theorem State.putBad_steady (s : State) (pa : Nat) (bs : List Byte) (tag : Byte) (bad : Bool) : s.Steady (s.putBad pa bs tag bad) :=
  (s.putHere_steady pa bs tag).trans ((State.taint_steady _ pa bad).trans (State.toLender_steady ..))

theorem State.putPhys_steady (s : State) (pa : Nat) (bs : List Byte) (tag : Byte) : s.Steady (s.putPhys pa bs tag) :=
  s.putBad_steady pa bs tag false

/-- A write of a sector, where nothing stops it. -/
theorem State.writeBad_steady {s t : State} {va : Word} {pa cmp : Nat} {bs : List Byte} {tag : Byte} {bad : Bool}
    (h : s.writeBad va pa cmp bs tag bad = .ok t) : s.Steady t := by
  rw [State.writeBad_eq h]
  exact (s.putBad_steady pa bs tag bad).trans (State.compress_steady ..)

theorem State.heatTurn_steady (s : State) (pa : Nat) : s.Steady (s.heatTurn pa) := by
  unfold State.heatTurn
  split
  · exact .refl s
  · dsimp only
    split
    · exact s.onDie_steady ..
    · refine State.Steady.withMem (State.Steady.trans (State.Steady.trans (s.onDie_steady _ _) (State.reedKeep_steady _ _))
        (State.onDie_steady _ _ _)) fun h => Memory.write_wf _ _ _ h

theorem State.heatTurns_steady (s : State) (l : List (BitVec 48 × Bool)) (pa : Nat) :
    s.Steady ((l.foldl (fun s x => s.heatTurn x.1.toNat) s).heatTurn pa) := by
  have all : s.Steady (l.foldl (fun s x => s.heatTurn x.1.toNat) s) := .foldl (fun s x => s.heatTurn_steady x.1.toNat) l s
  exact all.trans (State.heatTurn_steady _ pa)

theorem State.missTurn_steady (s : State) (pa : Nat) : s.Steady (s.missTurn pa) := by
  unfold State.missTurn
  dsimp only
  split
  · exact .refl s
  · split
    · exact (s.onDie_steady _ _).trans (State.heatTurns_steady ..)
    · exact ((s.onDie_steady _ _).trans (State.heatTurns_steady ..)).trans (State.toLender_steady ..)

/-- CTXB moved: the entries go back to memory as bytes, and those at the new place are loaded. -/
theorem State.setCtxb_steady (s : State) (v : Word) : s.Steady (s.setCtxb v) := by
  unfold State.setCtxb
  dsimp only
  generalize List.range 64 = ns
  refine State.Steady.trans (State.Steady.trans (State.Steady.ite (State.Steady.foldl (fun t n => ?_) ns s) (.refl s))
    (State.Steady.foldl (fun t n => ?_) ns _)) (State.withPkg_quiet _ _).steady
  · exact t.withMem_steady _ fun h => Memory.writeBytes_wf _ _ _ h
  · exact .ite (.refl t) (t.onCtx_steady ..)

/-! ### Translation -/

theorem State.tlbFill_steady (s : State) (fen : Nat) (key : Option CoreKey) (e : TlbEntry) : s.Steady (s.tlbFill fen key e) := by
  unfold State.tlbFill
  cases key with
  | none => exact ⟨id, rfl⟩
  | some k => exact (s.onFen_steady _ _).trans (State.onCore_steady _ k _ fun _ h => h)

theorem State.walked_steady (s : State) (fen : Nat) (key : Option CoreKey) (ctx : Nat) (va : Word) (write : Bool) (l : Leaf) :
    s.Steady (s.walked fen key ctx va write l).st := by
  unfold State.walked
  refine (s.walkTaken_steady ctx va).trans (State.Steady.trans (.ite (.refl _) ?_) (State.tlbFill_steady ..))
  exact State.Steady.trans (.withMem (State.reedKeep_steady ..) fun h => Memory.writeBytes_wf _ _ _ h) (State.wroteLast_steady ..)

theorem State.translate_steady (s : State) (fen : Nat) (key : Option CoreKey) (ctx : Nat) (va : Word) (w : Bool) :
    TriedSteady s Xlate.st (s.translate fen key ctx va w) := by
  unfold State.translate
  split
  · exact .failed (.refl s)
  · dsimp only
    split
    · split
      · exact .failed (.refl s)
      · exact .done s.fresh_steady
    · split
      · exact .failed (s.walkTaken_steady ..)
      · exact .done (s.walked_steady ..)

theorem State.asked_steady (s : State) (f : FaultInfo) (pa : Nat) : s.Steady (s.asked f pa) := .ite (.refl s) (s.request_steady pa)

theorem State.readPiece_steady (s : State) (fen : Nat) (key : Option CoreKey) (ctx : Nat) (va : Word) (n : Nat) :
    TriedSteady s GRead.st (s.readPiece fen key ctx va n) := by
  unfold State.readPiece
  split
  · next found => exact .failed ((s.translate_steady ..).error found)
  · next found =>
    have walked := (s.translate_steady ..).ok found
    split
    · exact .failed (walked.trans (State.asked_steady ..))
    · exact .done ((walked.trans (State.request_steady ..)).trans (.ite (State.readLast_steady ..) (State.readFen_steady ..)))

theorem State.writeAt_steady (s : State) (fen : Nat) (key : Option CoreKey) (ctx : Nat) (va : Word) (bs : List Byte) (tag : Byte) :
    TriedSteady s Prod.fst (s.writeAt fen key ctx va bs tag) := by
  unfold State.writeAt
  split
  · next found => exact .failed ((s.translate_steady ..).error found)
  · next found =>
    have walked := (s.translate_steady ..).ok found
    split
    · exact .failed (walked.trans (State.asked_steady ..))
    · next written => exact .done ((walked.trans (State.writeBad_steady written)).trans (State.request_steady ..))

theorem State.writePiece_steady (s : State) (fen : Nat) (key : Option CoreKey) (ctx : Nat) (va : Word) (bs : List Byte) (tag : Byte) :
    TriedSteady s id (s.writePiece fen key ctx va bs tag) := by
  unfold State.writePiece
  split
  · next tried => exact .failed ((s.writeAt_steady ..).error tried)
  · next tried =>
    exact .done (((s.writeAt_steady ..).ok tried).trans (.ite (State.wroteLast_steady ..) (State.wroteFen_steady ..)))

theorem GRead.more_steady (fen : Nat) (key : Option CoreKey) (ctx : Nat) (ps : List (Nat × Nat)) (g : GRead) :
    TriedSteady g.st GRead.st (GRead.more fen key ctx ps g) := by
  induction ps generalizing g with
  | nil => exact .done (.refl _)
  | cons p ps ih =>
    unfold GRead.more
    split
    · next tried => exact .failed ((g.st.readPiece_steady ..).error tried)
    · next r tried =>
      exact .after ((g.st.readPiece_steady ..).ok tried) (ih ⟨g.bytes ++ r.bytes, g.tags ++ r.tags, r.st⟩)

theorem State.readVirt_steady (s : State) (fen : Nat) (key : Option CoreKey) (ctx : Nat) (va : Word) (n : Nat) :
    TriedSteady s GRead.st (s.readVirt fen key ctx va n) := GRead.more_steady fen key ctx _ ⟨[], [], s⟩

theorem State.readPlain_steady (s : State) (fen : Nat) (key : Option CoreKey) (ctx : Nat) (va : Word) (n : Nat) :
    TriedSteady s Prod.snd (s.readPlain fen key ctx va n) := by
  unfold State.readPlain
  split
  · next tried => exact .failed ((s.readVirt_steady ..).error tried)
  · next tried =>
    have read := (s.readVirt_steady ..).ok tried
    split
    · exact .failed read
    · exact .done read

theorem State.touch_steady (s : State) (fen : Nat) (key : Option CoreKey) (ctx : Nat) (va : Word) : s.Steady (s.touch fen key ctx va) := by
  unfold State.touch
  split
  · next tried => exact (s.translate_steady ..).error tried
  · next tried => exact ((s.translate_steady ..).ok tried).trans (State.request_steady ..)

/-- Of a write, what is written, or the attempts alone. -/
theorem State.writeMore_steady (fen : Nat) (key : Option CoreKey) (ctx : Nat) (tag : Byte) (ps : List (Nat × Nat)) (bs : List Byte)
    (r u s : State) (attempts : r.Steady u) (writes : r.Steady s) :
    TriedSteady r id (State.writeMore fen key ctx tag ps bs u s) := by
  induction ps generalizing bs u s with
  | nil => exact .done writes
  | cons p ps ih =>
    unfold State.writeMore
    dsimp only
    split
    · exact .failed (attempts.trans (u.touch_steady ..))
    · next tried => exact ih _ _ _ (attempts.trans (u.touch_steady ..)) (writes.trans ((s.writePiece_steady ..).ok tried))

theorem State.writeVirt_steady (s : State) (fen : Nat) (key : Option CoreKey) (ctx : Nat) (va : Word) (bs : List Byte) (tag : Byte) :
    TriedSteady s id (s.writeVirt fen key ctx va bs tag) := State.writeMore_steady fen key ctx tag _ bs s s s (.refl s) (.refl s)

end Sys2Proof.Machine
end

section
/-! SUPPORT. The invariant of O3 through the accesses that have left a core (R99 to R105, R137, R138, R148, R299, R335), bank switches,
FIFO banks, address generators and the landing of results. -/

namespace Sys2Proof.Machine

/-! ### What leaves a scratchpad canonical -/

theorem Core.raiseClocks_sp {α : Type} (c : Core) (l : List α) (q t : α → Nat) :
    (l.foldl (fun d x => d.raiseClock (q x) (t x)) c).sp = c.sp := by
  induction l generalizing c with
  | nil => rfl
  | cons x l ih => exact ih _

theorem Core.landDue_wf (c : Core) (h : c.sp.wf = true) : c.landDue.sp.wf = true := by
  have all (l : List Inflight) (st : Core × List Inflight × List Nat) (h : st.1.sp.wf = true) : (l.foldl landStep st).1.sp.wf = true := by
    induction l generalizing st with
    | nil => exact h
    | cons i l ih =>
      obtain ⟨c, keep, blocked⟩ := st
      refine ih _ ?_
      rcases landStep_cases c keep blocked i with ⟨d, ready, lands, -⟩ | ⟨qs, stays, -⟩
      · rw [lands]
        refine d.land_wf i.what ?_
        rcases ready with same | same
        · exact same ▸ h
        · obtain ⟨b, a, n, same⟩ := same
          exact same ▸ h
      · rw [stays]
        exact h
  exact all _ (c, [], []) h

theorem Core.netWrite_wf {c d : Core} {off : Nat} {bs : List Byte} {tag : Byte} (h : c.sp.wf = true) (done : c.netWrite off bs tag = .done d) :
    d.sp.wf = true := by
  have landed := c.landDue_wf h
  unfold Core.netWrite at done
  dsimp only at done
  split at done
  · cases done
    exact landed
  · split at done
    · split at done
      · cases done
      · cases done
        exact Scratch.storePart_wf _ _ bs tag landed
    · split at done
      · cases done
      · cases done
        exact Scratch.put_wf _ _ bs tag landed

/-! ### The network port -/

theorem State.withLatest_steady (s : State) (t : Nat) : s.Steady { s with latest := t } := ⟨id, rfl⟩

theorem State.spBound_steady (s : State) (k : CoreKey) (clock : Nat) : s.Steady (s.spBound k clock) := by
  unfold State.spBound
  exact .after (State.withLatest_steady _ _) (s.onCore_steady k _ fun _ h => h)

theorem State.spReadAt_steady (s : State) (k : CoreKey) (off clock : Nat) : s.Steady (s.spReadAt k off clock).2 := by
  unfold State.spReadAt
  dsimp only
  exact .after (State.withLatest_steady _ _) (s.putCore_steady _ fun wf => s.getCore_wf k wf)

theorem State.netRead_steady (s : State) (k : CoreKey) (off n : Nat) : s.Steady (s.netRead k off n).2 := by
  have landed (wf : s.memWf = true) : (s.getCore k).landDue.sp.wf = true := Core.landDue_wf _ (s.getCore_wf k wf)
  unfold State.netRead
  dsimp only
  split
  · exact s.putCore_steady _ landed
  · split
    · dsimp only
      exact .after (State.fresh_steady _) (s.putCore_steady _ landed)
    · split <;> exact s.putCore_steady _ landed

theorem State.netRead_found {s t : State} {k : CoreKey} {off n : Nat} {r : Except FaultInfo (List Byte × Byte)} (h : s.netRead k off n = (r, t)) :
    s.Steady t := by
  have read := s.netRead_steady k off n
  rw [h] at read
  exact read

theorem State.holdAt_steady (s : State) (fen : Nat) (h : HeldItem) : s.Steady (s.holdAt fen h) := ⟨id, rfl⟩
theorem State.holdFirst_steady (s : State) (fen : Nat) (h : HeldItem) : s.Steady (s.holdFirst fen h) := ⟨id, rfl⟩

/-! ### Pieces that take their places, and their faults -/

theorem Core.storeDone_sp (c : Core) (id i : Nat) : (c.storeDone id i).sp = c.sp := by
  unfold Core.storeDone
  dsimp only
  split
  · rfl
  · split <;> rfl

theorem Core.wayFill_wf (c : Core) (va : Word) (w : Way) (n : Nat) (h : c.sp.wf = true) : (c.wayFill va w n).sp.wf = true := by
  unfold Core.wayFill
  dsimp only
  split <;> exact h

theorem State.accessFault_steady (s : State) (k : CoreKey) (id : Nat) (f : FaultInfo) : s.Steady (s.accessFault k id f) := by
  refine (s.met_steady f).trans (State.onCore_steady _ k _ fun c h => ?_)
  split
  · exact h
  · dsimp only
    split <;> exact h

theorem State.loadDone_steady (s : State) (k : CoreKey) (id i : Nat) (bs : List Byte) (tag : Byte) : s.Steady (s.loadDone k id i bs tag) := by
  have filled (f : Access → Access) : s.Steady (s.onCore k fun c => c.onAccess id f) := s.onCore_steady k _ fun _ h => h
  unfold State.loadDone
  dsimp only
  split
  · exact filled _
  · split
    · split
      · exact (filled _).trans (State.accessFault_steady ..)
      · exact filled _
    · exact filled _

theorem State.settle_steady (s : State) (k : CoreKey) : s.Steady (s.settle k) := by
  unfold State.settle
  dsimp only
  split
  · exact .refl s
  · refine s.putCore_steady _ fun wf => ?_
    rw [Core.raiseClocks_sp]
    exact s.getCore_wf k wf

theorem State.serveRead_steady (s : State) (t : CoreKey) (off n : Nat) (k : CoreKey) (id i : Nat) : s.Steady (s.serveRead t off n k id i) := by
  unfold State.serveRead
  dsimp only
  split
  · exact .refl s
  · next a _ =>
    have timed : s.Steady ((s.spReadAt t off ((s.getCore k).clockOf a.queue a.bundle)).2.onCore k fun x =>
        x.raiseClock a.queue.toNat (s.spReadAt t off ((s.getCore k).clockOf a.queue a.bundle)).1) :=
      .after (State.onCore_steady _ k _ fun _ h => h) (s.spReadAt_steady ..)
    split
    · split
      · exact timed.trans (State.accessFault_steady ..)
      · exact timed.trans (State.loadDone_steady ..)
    · split
      · next found => exact timed.trans ((State.netRead_found found).trans (State.loadDone_steady ..))
      · next found => exact timed.trans ((State.netRead_found found).trans (State.accessFault_steady ..))

theorem State.sendWindow_steady (s : State) (t : CoreKey) (off : Nat) (c : Core) (a : Access) : s.Steady (s.sendWindow t off c a) :=
  .after (State.onCore_steady _ _ _ fun _ h => h) (s.spBound_steady ..)

theorem State.performWindow_steady (s : State) (c : Core) (a : Access) (i : Nat) (p : Piece) : s.Steady (s.performWindow c a i p) := by
  unfold State.performWindow
  dsimp only
  split
  · refine (s.sendWindow_steady ..).trans (.ite (State.onCore_steady _ _ _ fun _ h => h) (State.holdAt_steady ..))
  · exact .ite (s.serveRead_steady ..) (s.holdAt_steady ..)

theorem State.pieceFault_steady {s : State} {c : Core} {a : Access} {p : Piece} {e : FaultInfo × State} (h : s.pieceFault c a p = some e) :
    s.Steady e.2 := by
  unfold State.pieceFault at h
  split at h
  · split at h
    · next tried =>
      cases h
      exact (s.writePiece_steady ..).error tried
    · cases h
  · split at h
    · next tried =>
      cases h
      exact (s.readPiece_steady ..).error tried
    · cases h

/-- The first piece of an access that faults. -/
theorem State.firstFault_steady {s : State} {c : Core} {a : Access} {l : List Piece} {e : FaultInfo × State}
    (h : l.findSome? (s.pieceFault c a) = some e) : s.Steady e.2 := by
  obtain ⟨p, -, faults⟩ := List.exists_of_findSome?_eq_some h
  exact State.pieceFault_steady faults

theorem State.serveWay_steady (s : State) (c : Core) (a : Access) (i : Nat) (p : Piece) (clock : Nat) (w : Way) :
    s.Steady (s.serveWay c a i p clock w) := by
  unfold State.serveWay
  exact .after (State.fresh_steady _) (.after (State.loadDone_steady ..) (s.onCore_steady _ _ fun _ h => h))

theorem State.serveHome_steady (s : State) (c : Core) (a : Access) (i : Nat) (p : Piece) (clock pa : Nat) (r : List Byte × Byte) :
    s.Steady (s.serveHome c a i p clock pa r) :=
  .after (State.loadDone_steady ..) (.after (State.onCore_steady _ _ _ fun x h => Core.wayFill_wf (x.raiseClock _ _) _ _ _ h)
    (.after (State.readTimed_steady _ pa clock) (s.request_steady pa)))

theorem State.performLoad_steady (s : State) (c : Core) (a : Access) (i : Nat) (p : Piece) : s.Steady (s.performLoad c a i p) := by
  unfold State.performLoad
  dsimp only
  split
  · next tried => exact ((s.translate_steady ..).error tried).trans (State.accessFault_steady ..)
  · next tried =>
    refine ((s.translate_steady ..).ok tried).trans ?_
    split
    · exact (State.asked_steady ..).trans (State.accessFault_steady ..)
    · split
      · exact State.serveWay_steady ..
      · exact State.serveHome_steady ..

theorem State.performStore_steady (s : State) (c : Core) (a : Access) (i : Nat) (p : Piece) : s.Steady (s.performStore c a i p) := by
  unfold State.performStore
  split
  · next tried => exact ((s.writeAt_steady ..).error tried).trans (State.accessFault_steady ..)
  · next tried =>
    refine ((s.writeAt_steady ..).ok tried).trans ((State.wroteTimed_steady _ _ _).trans (State.onCore_steady _ _ _ fun x h => ?_))
    exact (congrArg Scratch.wf (Core.storeDone_sp (x.raiseClock _ _) _ _)).trans h

theorem State.performGlobal_steady (s : State) (c : Core) (a : Access) (i : Nat) (p : Piece) : s.Steady (s.performGlobal c a i p) := by
  unfold State.performGlobal
  dsimp only
  split
  · next faults => exact (State.firstFault_steady faults).trans (State.accessFault_steady ..)
  · exact .ite (s.performStore_steady ..) (s.performLoad_steady ..)

theorem State.dueStore_steady (s : State) (a : Access) : s.Steady (s.dueStore a) := by
  unfold State.dueStore
  dsimp only
  split
  · next faults =>
    split at faults
    · exact (State.firstFault_steady faults).trans (State.accessFault_steady ..)
    · cases faults
  · exact ⟨id, rfl⟩

theorem State.dueStores_steady (s : State) : s.Steady s.dueStores := .foldl State.dueStore_steady _ s

theorem State.performPiece_steady (s : State) (k : CoreKey) (id i : Nat) : s.Steady (s.performPiece k id i) := by
  unfold State.performPiece
  refine (s.settle_steady k).trans ?_
  dsimp only
  split
  · exact .refl _
  · split
    · exact .refl _
    · refine .ite (.refl _) ?_
      split
      · exact State.performWindow_steady ..
      · exact State.performGlobal_steady ..

/-! ### The events of a core -/

theorem execGlobalLoadArrive_steady (key : CoreKey) (id : Nat) (s : State) : NextSteady s (execGlobalLoadArrive key id s) := by
  refine .next (s.onCore_steady key _ fun c h => ?_)
  split
  · exact h
  · split
    · exact h
    · exact Core.landDue_wf (c.onAccess id _) h

theorem execResultLand_steady (key : CoreKey) (s : State) : NextSteady s (execResultLand key s) :=
  .next (s.onCore_steady key _ Core.landDue_wf)

theorem execFreeze_steady (key : CoreKey) (s : State) : NextSteady s (execFreeze key s) := by
  have landed : s.Steady (s.putCore (s.getCore key).landDue) := s.onCore_steady key _ Core.landDue_wf
  exact .next (.ite (landed.trans ((State.focus_steady _ key).trans (State.freezeCycle_steady _ _))) landed)

theorem execDirectFormFault_steady (key : CoreKey) (s : State) : NextSteady s (execDirectFormFault key s) := by
  unfold execDirectFormFault
  refine .next ?_
  split
  · exact .ite ((s.focus_steady key).trans (State.stopDirect_steady ..)) (.refl s)
  · exact .refl s

theorem State.landNet_steady (r s : State) (k : CoreKey) (w : NetWrite) (back : State) (h : r.Steady s) (hb : r.Steady back) :
    r.Steady (s.landNet k w back) := by
  unfold State.landNet
  split
  · next done =>
    refine h.trans ((s.putCore_steady _ fun wf => Core.netWrite_wf (s.getCore_wf k wf) done).trans (State.onCore_steady _ _ _ fun x h => ?_))
    exact (congrArg Scratch.wf (x.storeDone_sp ..)).trans h
  · exact hb
  · exact h.trans (s.accessFault_steady ..)

theorem State.arriveNet_steady (r s : State) (k : CoreKey) (w : NetWrite) (back : State) (h : r.Steady s) (hb : r.Steady back) :
    r.Steady (s.arriveNet k w back) := .ite (State.landNet_steady r s k w back h hb) (h.trans (s.holdAt_steady ..))

theorem execNetworkWriteLand_steady (key : CoreKey) (idx : Nat) (s : State) : NextSteady s (execNetworkWriteLand key idx s) := by
  unfold execNetworkWriteLand
  refine .next ?_
  dsimp only
  split
  · exact .refl s
  · have taken (l : List NetWrite) : s.Steady (s.onCore key fun x => { x with sp := { x.sp with net := l } }) :=
      s.onCore_steady key _ fun _ h => h
    exact State.arriveNet_steady s _ key _ _ (taken _) ((taken _).trans (State.onCore_steady _ _ _ fun _ h => h))

theorem execFifoHeldWrite_steady (key : CoreKey) (bank : BitVec 3) (s : State) : NextSteady s (execFifoHeldWrite key bank s) := by
  unfold execFifoHeldWrite
  refine .next ?_
  dsimp only
  split
  · exact .refl s
  · next i _ =>
    have taken : s.Steady (s.onCore key fun x => { x with sp := { x.sp with fifoHeld := x.sp.fifoHeld.eraseIdx i } }) :=
      s.onCore_steady key _ fun _ h => h
    exact .ite (State.landNet_steady s _ key _ _ taken (.refl s)) (taken.trans (State.holdAt_steady ..))

theorem execBankSwitchDone_steady (key : CoreKey) (bank : BitVec 3) (s : State) : NextSteady s (execBankSwitchDone key bank s) := by
  refine .next (s.onCore_steady key _ fun c h => ?_)
  have landed := c.landDue_wf h
  dsimp only
  split
  · exact landed
  · split
    · exact landed
    · split
      · exact landed
      · exact Scratch.zeroBank_wf _ bank.toNat 0 landed

theorem Scratch.read_wf (sp : Scratch) (a n : Nat) (h : sp.wf = true) : (sp.read a n).2.wf = true := by
  have part (sp : Scratch) (p : Nat × Nat) : (sp.readPart p).2.wf = sp.wf := by
    unfold Scratch.readPart
    split <;> rfl
  have all (l : List (Nat × Nat)) (st : SpRead × Scratch) (h : st.2.wf = true) :
      (l.foldl (fun (st : SpRead × Scratch) p =>
        let r := st.2.readPart p
        (⟨st.1.bytes ++ r.1.bytes, st.1.tags ++ r.1.tags, st.1.poison.or r.1.poison⟩, r.2)) st).2.wf = true := by
    induction l generalizing st with
    | nil => exact h
    | cons p l ih => exact ih _ ((part st.2 p).trans h)
  exact all _ _ h

theorem Core.putAg_sp (c : Core) (g : Nat) (ag : Ag) (starts : Bool) : (c.putAg g ag starts).sp = c.sp := rfl

theorem Core.agFetch_wf (c : Core) (g : Nat) (h : c.sp.wf = true) : (c.agFetch g).sp.wf = true := by
  unfold Core.agFetch
  dsimp only
  split
  · exact h
  · split
    · split
      · exact h
      · exact Scratch.read_wf _ _ _ h
    · split
      · exact h
      · rw [Core.putAg_sp, Core.setQueue_sp]
        exact c.spStore_wf _ _ h

theorem execAgFetch_steady (key : CoreKey) (g : BitVec 2) (s : State) : NextSteady s (execAgFetch key g s) := by
  refine .next (s.onCore_steady key _ fun c h => ?_)
  split
  · exact Core.agFetch_wf _ _ (c.landDue_wf h)
  · exact h

end Sys2Proof.Machine
end

section
/-! SUPPORT. The invariant of O3 through the engines and the elements of commands (R301 to R330). -/

namespace Sys2Proof.Machine

/-- The machine that an engine's access leaves, whatever comes of it. -/
def Got.st {α : Type} : Got α → State
  | .wait s => s
  | .fault _ s => s
  | .ok _ s => s

/-- The machine that an element leaves, whatever comes of it. -/
def Elem.st : Elem → State
  | .wait s => s
  | .stop _ s => s
  | .go _ s => s

theorem Got.elem_steady {α : Type} {r : State} {g : Got α} {k : α → State → Elem} (h : r.Steady g.st)
    (next : ∀ (a : α) (t : State), r.Steady t → r.Steady (k a t).st) : r.Steady (g.elem k).st := by
  cases g with
  | wait s => exact h
  | fault f s => exact h
  | ok a s => exact next a s h

theorem Got.found {α : Type} {r : State} {g u : Got α} (h : r.Steady g.st) (same : g = u) : r.Steady u.st := same ▸ h

/-- The same where the answer goes on as another answer of the same machine. -/
theorem Got.left {α : Type} {r t : State} {g u : Got α} (h : r.Steady g.st) (same : g = u) (leaves : u.st = t) : r.Steady t :=
  leaves ▸ same ▸ h

theorem Elem.found {r : State} {e f : Elem} (h : r.Steady e.st) (same : e = f) : r.Steady f.st := same ▸ h

theorem Elem.atIndex_st (e : Elem) (i : Nat) : (e.atIndex i).st = e.st := by
  cases e <;> rfl

theorem Elem.tidy_st (e : Elem) : e.tidy.st = e.st := by
  cases e <;> rfl

/-! ### Accesses of the engines -/

theorem State.agRaise_steady (s : State) (ag : Agent) (t : Nat) : s.Steady (s.agRaise ag t) := by
  unfold State.agRaise
  dsimp only
  split
  · exact s.onCore_steady _ _ fun _ h => h
  · exact s.onDie_steady ..
  · exact s.onFen_steady ..

theorem State.spSector_steady (s : State) (k : CoreKey) (off n : Nat) (carry : Bool) : s.Steady (s.spSector k off n carry).st := by
  unfold State.spSector
  dsimp only
  split
  · exact s.onCore_steady k Core.landDue Core.landDue_wf
  · split
    · next found => exact State.netRead_found found
    · next found => exact State.netRead_found found

theorem State.engSector_steady (s : State) (ag : Agent) (k : CoreKey) (off n : Nat) (carry : Bool) :
    s.Steady (s.engSector ag k off n carry).st := by
  have read := s.spSector_steady k off n carry
  unfold State.engSector
  split
  · next found => exact Got.found read found
  · next found => exact Got.found read found
  · next found =>
    have read := Got.found read found
    exact read.trans ((State.spReadAt_steady ..).trans (State.agRaise_steady ..))

theorem State.holdEng_steady (s : State) (ag : Agent) (h : EngSrc → HeldItem) : s.Steady (s.holdEng ag h) := by
  unfold State.holdEng
  cases ag.src with
  | none => exact .refl s
  | some x => exact s.holdAt_steady ..

theorem State.engRead_steady (s : State) (ag : Agent) (carry : Bool) (p : Place) (n : Nat) : s.Steady (s.engRead ag carry p n).st := by
  unfold State.engRead
  split
  · split
    · next tried => exact (s.translate_steady ..).error tried
    · next tried =>
      have walked := (s.translate_steady ..).ok tried
      dsimp only
      split
      · exact walked.trans (State.asked_steady ..)
      · exact walked.trans (.after (State.agRaise_steady ..) (.after (State.readAt_steady ..) (.after (State.request_steady ..)
          (.ite (State.lostLine_steady ..) (.refl _)))))
  · dsimp only
    split
    · exact s.engSector_steady ..
    · exact s.holdEng_steady ..
  · split
    · exact s.engSector_steady ..
    · exact .refl s

theorem State.engPlain_steady (s : State) (ag : Agent) (p : Place) (n : Nat) : s.Steady (s.engPlain ag p n).st := by
  have read := s.engRead_steady ag false p n
  unfold State.engPlain
  split
  · next found => exact Got.found read found
  · next found => exact Got.found read found
  · next found =>
    have read := Got.found read found
    split <;> exact read

theorem State.spPut_steady (s : State) (k : CoreKey) (off : Nat) (bs : List Byte) (tag : Byte) (bad : Bool) :
    s.Steady (s.spPut k off bs tag bad).st := by
  unfold State.spPut
  split
  · exact .refl s
  · exact .refl s
  · next done =>
    refine s.putCore_steady _ fun wf => ?_
    have put := Core.netWrite_wf (s.getCore_wf k wf) done
    dsimp only
    split <;> exact put

theorem State.engSpPut_steady (s : State) (ag : Agent) (k : CoreKey) (off : Nat) (bs : List Byte) (tag : Byte) (bad : Bool) :
    s.Steady (s.engSpPut ag k off bs tag bad).st := by
  have put := (s.spBound_steady k (s.agClock ag)).trans (State.spPut_steady _ k off bs tag bad)
  unfold State.engSpPut
  split
  · next found => exact Got.found put found
  · next found => exact Got.found put found
  · next found =>
    have put := Got.found put found
    exact put.trans (State.agRaise_steady ..)

theorem State.engWrite_steady (s : State) (ag : Agent) (w : EngPost) : s.Steady (s.engWrite ag w).st := by
  unfold State.engWrite
  split
  · split
    · next tried => exact (s.translate_steady ..).error tried
    · next tried =>
      have walked := (s.translate_steady ..).ok tried
      split
      · exact walked.trans (State.asked_steady ..)
      · next written =>
        exact (walked.trans (State.writeBad_steady written)).trans (.after (State.agRaise_steady ..) (.after (State.wroteTimed_steady ..)
          (State.request_steady ..)))
  · dsimp only
    split
    · exact s.engSpPut_steady ..
    · split
      · exact .refl s
      · exact s.holdEng_steady ..
  · split
    · exact s.engSpPut_steady ..
    · exact .refl s

theorem State.readSource_steady (s : State) (ag : Agent) (op : CmdOp) (p : Place × Nat) : s.Steady (s.readSource ag op p).st := by
  unfold State.readSource
  split
  · exact s.engRead_steady ..
  · split
    · exact s.engRead_steady ..
    · exact s.engPlain_steady ..

theorem State.engSource_steady (s : State) (ag : Agent) (c : Cmd) : s.Steady (s.engSource ag c).st := by
  unfold State.engSource
  split
  · exact .refl s
  · split
    · exact .refl s
    · split
      · exact .refl s
      · exact s.readSource_steady ..

/-! ### One element of each operation -/

/-- `r` is the machine before the command's step: what the element has read and written up to here keeps. -/
theorem State.engPut_steady {r s : State} (ag : Agent) (c : Cmd) (p : Place) (bs : List Byte) (tag : Byte) (bad : Bool)
    {k : Cmd → State → Elem} (h : r.Steady s) (next : ∀ (c : Cmd) (t : State), r.Steady t → r.Steady (k c t).st) :
    r.Steady (s.engPut ag c p bs tag bad k).st := by
  unfold State.engPut
  split
  · exact h
  · refine Got.elem_steady (h.trans (s.engWrite_steady ..)) fun _ t written => ?_
    split
    · exact next _ s h
    · exact next c t written

theorem copyStart_steady (ag : Agent) (form : Option Bool) (at_ : Place) (c : Cmd) (s : State) : s.Steady (copyStart ag form at_ c s).st :=
  Got.elem_steady (s.engPlain_steady ..) fun x t read => by
    dsimp only
    split <;> exact read

theorem copyFold_steady (ag : Agent) (d : BitVec 1024) (c : Cmd) (s : State) : s.Steady (copyFold ag d c s).st := by
  unfold copyFold
  dsimp only
  split
  · exact .refl s
  · exact Got.elem_steady (s.engPlain_steady ..) fun x t read =>
      Got.elem_steady (read.trans (t.engWrite_steady ..)) fun _ u written => written

theorem copyOne_steady (ag : Agent) (d : BitVec 1024) (c : Cmd) (s : State) : s.Steady (copyOne ag d c s).st :=
  Got.elem_steady (s.engSource_steady ..) fun _ _ read => State.engPut_steady _ _ _ _ _ _ read fun _ _ written => written

theorem copyElem_steady (ag : Agent) (form : Option Bool) (at_ : Place) (c : Cmd) (s : State) : s.Steady (copyElem ag form at_ c s).st := by
  have stopped (e : Elem) : (match e with
      | .wait s => Elem.wait s
      | .stop f s => .stop (copyStop c f) s
      | .go c s => .go c s).st = e.st := by cases e <;> rfl
  refine (stopped _).symm ▸ ?_
  split
  · exact copyStart_steady ..
  · split
    · exact Got.elem_steady (s.engPlain_steady ..) fun _ _ read => read
    · split
      · split
        · exact copyFold_steady ..
        · exact .refl s
      · exact copyOne_steady ..

theorem atomicElem_steady (ag : Agent) (k : Nat) (c : Cmd) (s : State) : s.Steady (atomicElem ag k c s).st := by
  unfold atomicElem
  dsimp only
  split
  · exact State.engPut_steady _ _ _ _ _ _ (.refl s) fun _ _ written => written
  · refine Got.elem_steady (s.engPlain_steady ..) fun x t read => Got.elem_steady ?_ fun y u both =>
      Got.elem_steady (both.trans (u.engPlain_steady ..)) fun z v found => ?_
    · split
      · exact read.trans (t.engPlain_steady ..)
      · exact read
    · split
      · exact found
      · exact Got.elem_steady (found.trans (v.engWrite_steady ..)) fun _ _ written => written

theorem stkElem_steady (ag : Agent) (c : Cmd) (s : State) : s.Steady (stkElem ag c s).st := by
  unfold stkElem
  dsimp only
  split
  · exact State.engPut_steady _ _ _ _ _ _ (.refl s) fun _ _ written => written
  · split
    · exact .refl s
    · split
      · exact .refl s
      · refine Got.elem_steady (s.engSource_steady ..) fun x t read => ?_
        split <;> exact read

theorem carrySector_steady {r s : State} (ag : Agent) (c : Cmd) (dst : Place) (f : Byte → Byte) {k : Cmd → State → Elem} (h : r.Steady s)
    (next : ∀ (c : Cmd) (t : State), r.Steady t → r.Steady (k c t).st) : r.Steady (carrySector ag c dst f s k).st :=
  Got.elem_steady (h.trans (s.engSource_steady ..)) fun _ _ read => State.engPut_steady _ _ _ _ _ _ read next

theorem kcopyElem_steady (ag : Agent) (c : Cmd) (s : State) : s.Steady (kcopyElem ag c s).st := by
  unfold kcopyElem
  dsimp only
  split
  · exact .refl s
  · rw [Elem.atIndex_st]
    exact carrySector_steady _ _ _ _ (.refl s) fun _ _ written => written

theorem State.afterSector_steady (s : State) (x : Option (Nat × Nat × Nat)) : s.Steady (s.afterSector x) := by
  unfold State.afterSector
  split
  · exact ⟨id, rfl⟩
  · exact .refl s

theorem cpblkElem_steady (ag : Agent) (c : Cmd) (s : State) : s.Steady (cpblkElem ag c s).st := by
  unfold cpblkElem
  dsimp only
  split
  · rw [Elem.atIndex_st]
    exact State.engPut_steady _ _ _ _ _ _ (.refl s) fun _ _ written => written
  · rw [Elem.atIndex_st]
    split
    · exact State.engPut_steady _ _ _ _ _ _ (.refl s) fun _ t written => written.trans (t.afterSector_steady _)
    · exact carrySector_steady _ _ _ _ (.refl s) fun _ t written => written.trans (t.afterSector_steady _)

theorem lineElem_steady (drop : Bool) (ag : Agent) (c : Cmd) (s : State) : s.Steady (lineElem drop ag c s).st := by
  unfold lineElem
  split
  · exact .refl s
  · dsimp only
    split
    · next tried => exact (s.translate_steady ..).error tried
    · next x tried =>
      have dropped : x.st.Steady (x.st.reedDrop x.pa) := ⟨id, rfl⟩
      exact ((s.translate_steady ..).ok tried).trans (.ite dropped ((State.request_steady ..).trans (State.request_steady ..)))

/-! ### A step of an engine -/

theorem postedWrite_steady (ag : Agent) (c : Cmd) (i : Nat) (s : State) : s.Steady (postedWrite ag c i s).st := by
  unfold postedWrite
  split
  · exact .refl s
  · next x _ =>
    have write := s.engWrite_steady ag x
    split
    · exact .refl s
    · split
      · exact .refl s
      · next found => exact Got.found write found
      · next found => exact Got.found write found

theorem readAhead_steady (ag : Agent) (c : Cmd) (i : Nat) (s : State) : s.Steady (readAhead ag c i s).st := by
  unfold readAhead
  split
  · exact .refl s
  · next p _ =>
    have read := s.readSource_steady ag c.op p
    dsimp only
    split
    · exact .refl s
    · split
      · exact .refl s
      · exact .refl s
      · next found => exact Got.found read found

theorem jumpElem_steady (ag : Agent) {run : Agent → Cmd → State → Elem} (c : Cmd) (i : Nat) (s : State)
    (h : ∀ ag c, s.Steady (run ag c s).st) : s.Steady (jumpElem ag run c i s).st := by
  unfold jumpElem
  split
  · exact .refl s
  · have ran := h ag { c with pos := i, lfsr := c.lfsrAt i }
    split
    · exact .refl s
    · exact .refl s
    · next d t found => exact (Elem.found ran found : s.Steady (Elem.go d t).st)

theorem engineStep_steady (ag : Agent) {run : Agent → Cmd → State → Elem} (how : EngineStep) (c : Cmd) (s : State)
    (h : ∀ ag c, s.Steady (run ag c s).st) : s.Steady (engineStep ag run how c s).st := by
  unfold engineStep
  split
  · split
    · exact .refl s
    · rw [Elem.tidy_st]
      exact h ..
  · split
    · exact .refl s
    · rw [Elem.tidy_st]
      exact h ..
  · exact postedWrite_steady ..
  · split
    · exact .refl s
    · exact readAhead_steady ..
  · split
    · exact .refl s
    · exact jumpElem_steady _ _ _ _ h

theorem Core.fenceClocks_sp (c : Core) (m : BitVec 4) : (c.fenceClocks m).sp = c.sp := by
  have all (l : List Nat) (d : Core) : (l.foldl (fun d q => if bit m q then d.raiseClock q (c.maskClock m) else d) d).sp = d.sp := by
    induction l generalizing d with
    | nil => rfl
    | cons q l ih =>
      refine (ih _).trans ?_
      dsimp only
      split <;> rfl
  exact all _ c

theorem cmdElem_steady (ag : Agent) (c : Core) (x : Cmd) (s : State) : s.Steady (cmdElem ag c x s).st := by
  unfold cmdElem
  split
  · exact atomicElem_steady ..
  · split
    · exact .after (State.onCore_steady _ _ _ fun d h => (congrArg Scratch.wf (d.fenceClocks_sp _)).trans h) (s.settle_steady _)
    · exact .refl s
  · exact stkElem_steady ..
  · exact kcopyElem_steady ..
  · exact copyElem_steady ..
  · exact copyElem_steady ..
  · exact cpblkElem_steady ..
  · exact lineElem_steady ..
  · exact lineElem_steady ..
  all_goals exact .refl s

/-! ### Commands -/

theorem State.notePosts_steady (s : State) (k : CoreKey) : s.Steady (s.notePosts k) := by
  unfold State.notePosts
  refine .foldl (fun s x => ?_) _ s
  exact .after (State.onFen_steady _ _ _) (s.onCore_steady k _ fun _ h => h)

theorem State.stopCmd_steady (s : State) (k : CoreKey) (x : Cmd) (f : FaultInfo) : s.Steady (s.stopCmd k x f) := by
  unfold State.stopCmd
  exact .after (State.postStop_steady _ _ _) (.after (State.onCore_steady _ k _ fun _ h => h) (s.met_steady f))

theorem State.elementRun_steady (s : State) (k : CoreKey) (id : Nat) (through : Option CoreKey) (how : EngineStep) :
    s.Steady (s.elementRun k id through how) := by
  unfold State.elementRun
  dsimp only
  split
  · exact .refl s
  · next x _ =>
    have ran := engineStep_steady ⟨(s.getCore k).fen, some k, (s.getCore k).ctx, some (.cmd k id), through, false⟩ how x s
      fun ag x => cmdElem_steady ag (s.getCore k) x s
    split
    · exact .refl s
    · split
      · next found => exact Elem.found ran found
      · next found =>
        exact (Elem.found ran found).trans (State.stopCmd_steady ..)
      · next found =>
        exact (Elem.found ran found).trans (State.onCore_steady _ k _ fun _ h => h)

theorem State.elementTurn_steady (s : State) (k : CoreKey) (id : Nat) (how : EngineStep) : s.Steady (s.elementTurn k id how) :=
  .ite (.refl s) (s.elementRun_steady ..)

end Sys2Proof.Machine
end

section
/-! SUPPORT. The invariant of O3 through the matrix unit, the ends of commands, barriers, launches and dispatch (R150, R278 to R285,
R60 to R96). -/

namespace Sys2Proof.Machine

/-! ### The matrix unit -/

/-- The function is unfolded away from its arguments, and its block size has a name: the kernel would otherwise compute with the
16,777,216 within it. -/
theorem State.readScale_steady (s : State) (key : CoreKey) (bundle : Nat) (base : Word) (b : Nat × Nat) :
    TriedSteady s Prod.snd (s.readScale key bundle base b) := by
  have settled := s.settle_steady key
  obtain ⟨size, isSize⟩ : ∃ size, size = 2 ^ 24 := ⟨_, rfl⟩
  obtain ⟨read, same⟩ : ∃ read, read = @State.readScale := ⟨_, rfl⟩
  rw [← same]
  delta State.readScale at same
  rw [← isSize] at same
  subst same
  dsimp only
  split
  · next tried => exact .failed (settled.trans ((State.translate_steady ..).error tried))
  · next tried =>
    have walked := settled.trans ((State.translate_steady ..).ok tried)
    split
    · exact .stopped (walked.trans (State.asked_steady ..))
    · split
      · exact .pair (walked.trans (.after (State.fresh_steady _) (State.onCore_steady _ key _ fun _ h => h)))
      · split
        · exact .stopped (walked.trans (State.request_steady ..))
        · exact .pair (walked.trans (.after (State.onCore_steady _ key _ fun _ h => h) (.after (State.readTimed_steady ..)
            (State.request_steady ..))))

/-- `readScale` stays a name, and the function is unfolded away from its arguments, for the same reason. -/
theorem State.readScales_steady (s : State) (key : CoreKey) (bundle : Nat) (base : Word) (l : List (Nat × Nat)) :
    TriedSteady s Prod.snd (s.readScales key bundle base l) := by
  obtain ⟨one, isOne⟩ : ∃ one, one = @State.readScale := ⟨_, rfl⟩
  have steady : ∀ (s : State) (b : Nat × Nat), TriedSteady s Prod.snd (one s key bundle base b) :=
    fun s b => isOne ▸ s.readScale_steady key bundle base b
  obtain ⟨reads, same⟩ : ∃ reads, reads = @State.readScales := ⟨_, rfl⟩
  rw [← same]
  delta State.readScales State.readScales._f at same
  rw [← isOne] at same
  subst same
  induction l generalizing s with
  | nil => exact .pair (.refl s)
  | cons b l ih =>
    dsimp only at ih ⊢
    split
    · next tried => exact .failed ((steady _ _).error tried)
    · next tried =>
      have read := (steady _ _).ok tried
      split
      · next more => exact .failed (read.trans ((ih _).error more))
      · next more => exact .pair (read.trans ((ih _).ok more))

theorem State.stopMma_steady (s : State) (key : CoreKey) (m : Mma) (f : FaultInfo) : s.Steady (s.stopMma key m f) := by
  unfold State.stopMma
  exact .after (State.postStop_steady _ _ _) (.after (State.onCore_steady _ key _ fun _ h => h) (s.met_steady f))

theorem State.scalesTurn_steady (s : State) (key : CoreKey) (id : Nat) : s.Steady (s.scalesTurn key id) := by
  unfold State.scalesTurn
  dsimp only
  split
  · exact .refl s
  · split
    · exact .refl s
    · split
      · next tried => exact ((s.readScales_steady ..).error tried).trans (State.stopMma_steady ..)
      · next tried =>
        have first := (s.readScales_steady ..).ok tried
        split
        · next more => exact (first.trans ((State.readScales_steady ..).error more)).trans (State.stopMma_steady ..)
        · next more =>
          exact .after (State.onCore_steady _ key _ fun _ h => h) (first.trans ((State.readScales_steady ..).ok more))

theorem State.arrayTurn_steady (s : State) (key : CoreKey) (id : Nat) : s.Steady (s.arrayTurn key id) := by
  refine s.onCore_steady key _ fun c h => ?_
  split
  · exact h
  · split <;> exact h

theorem execMmaStepLand_steady (key : CoreKey) (id : Nat) (s : State) : NextSteady s (execMmaStepLand key id s) := by
  refine .next (s.onCore_steady key _ fun c h => ?_)
  split
  · exact h
  · dsimp only
    split <;> exact h

theorem State.reedSampled_steady (s : State) (die pa : Nat) : s.Steady (s.reedSampled die pa) := by
  unfold State.reedSampled
  split
  · exact s.requestAs_steady ..
  · exact s.request_steady ..
  · exact .refl s
  · exact .refl s

theorem State.reedRow_steady (s : State) (c : Core) (r : Reed) : TriedSteady s Prod.snd (s.reedRow c r) := by
  unfold State.reedRow
  dsimp only
  split
  · next tried => exact .failed ((s.translate_steady ..).error tried)
  · next tried =>
    have sampled := fun die pa => ((s.translate_steady ..).ok tried).trans (State.reedSampled_steady _ die pa)
    split
    · exact .failed (sampled _ _)
    · split
      · exact .failed (.after (State.fresh_steady _) (sampled _ _))
      · exact .done (.after (State.fresh_steady _) (sampled _ _))

theorem execLatchreedRowLand_steady (key : CoreKey) (lt : BitVec 2) (s : State) : NextSteady s (execLatchreedRowLand key lt s) := by
  unfold execLatchreedRowLand
  refine .next ?_
  dsimp only
  split
  · exact .refl s
  · split
    · exact .refl s
    · split
      · next tried =>
        exact .after (State.postStop_steady _ _ _) (.after (State.onCore_steady _ key _ fun _ h => h)
          (.after (State.met_steady _ _) ((s.reedRow_steady ..).error tried)))
      · next tried =>
        have read := (s.reedRow_steady ..).ok tried
        split
        · exact .after (State.onCore_steady _ key _ fun _ h => h) read
        · exact .after (State.onCore_steady _ key _ fun _ h => h) read

theorem execCodebookTableReady_steady (key : CoreKey) (cb : BitVec 2) (s : State) : NextSteady s (execCodebookTableReady key cb s) := by
  refine .next (s.onCore_steady key _ fun c h => ?_)
  split <;> exact h

/-! ### The ends of commands, and barriers -/

theorem Core.completeCmd_sp (c : Core) (id : Nat) : (c.completeCmd id).sp = c.sp := by
  unfold Core.completeCmd
  split
  · rfl
  · dsimp only
    split
    · rfl
    · exact Core.setTok_sp ..

theorem Core.completeCmd_wf (id : Nat) (c : Core) (h : c.sp.wf = true) : (c.completeCmd id).sp.wf = true :=
  (congrArg Scratch.wf (c.completeCmd_sp id)).trans h

theorem State.commandEnded_steady (s : State) (k : CoreKey) (id : Nat) : s.Steady (s.commandEnded k id) := by
  unfold State.commandEnded
  exact .after (State.notePosts_steady _ k) (.ite (s.onCore_steady k _ fun _ h => h) (.refl s))

theorem execEngineCommandComplete_steady (key : CoreKey) (id : Nat) (s : State) : NextSteady s (execEngineCommandComplete key id s) := by
  unfold execEngineCommandComplete
  refine .next ?_
  split
  · exact .refl s
  · split
    · exact .after (State.commandEnded_steady ..) (s.onCore_steady key _ (Core.completeCmd_wf id))
    · exact .refl s

theorem execBarrierComplete_steady (key : CoreKey) (bar : BitVec 5) (s : State) : NextSteady s (execBarrierComplete key bar s) := by
  unfold execBarrierComplete
  refine .next ?_
  split
  · exact .refl s
  · exact .ite (s.onTask_steady ..) (.refl s)

/-! ### Launches and groups -/

theorem State.onPoster_steady (s : State) (k : CoreKey) (ctx : BitVec 6) (f : Core → Core)
    (h : ∀ c : Core, c.sp.wf = true → (f c).sp.wf = true) : s.Steady (s.onPoster k ctx f) := by
  unfold State.onPoster
  refine .ite (s.onCtx_steady ..) (.ite (s.onFen_steady ..) (.ite (s.onCore_steady k f h) (.ite ?_ (.refl s))))
  split
  · exact s.onCore_steady _ f h
  · exact .refl s

theorem State.readOn_steady (s : State) (fen ctx : Nat) (next : List (List Byte) → Option (Word × Nat)) (n : Nat) (got : List (List Byte)) :
    s.Steady (s.readOn fen ctx next n got).2.2 := by
  induction n generalizing s got with
  | zero => exact .refl s
  | succ n ih =>
    unfold State.readOn
    split
    · exact .refl s
    · split
      · next tried =>
        exact .after (State.met_steady _ _) ((s.fenSync_steady fen).trans ((State.readPlain_steady ..).error tried))
      · next tried => exact ((s.fenSync_steady fen).trans ((State.readPlain_steady ..).ok tried)).trans (ih _ _)

theorem State.launchDone_steady (s : State) (l : Launch) : s.Steady (s.launchDone l) := s.onPoster_steady _ _ _ fun _ h => h

theorem State.startLaunch_steady (s : State) (l : Launch) (requested : Nat) : s.Steady (s.startLaunch l requested) := by
  unfold State.startLaunch
  dsimp only
  refine .trans (t := { s.onCtx l.ctx.toNat _ with nextLaunch := s.nextLaunch + 1 }) ⟨id, rfl⟩ (.ite ?_ ⟨id, rfl⟩)
  exact .after (State.postCend_steady _ _) (State.launchDone_steady _ l)

theorem execLaunchTake_steady (n : BitVec 6) (s : State) : NextSteady s (execLaunchTake n s) := by
  unfold execLaunchTake
  refine .next ?_
  dsimp only
  split
  · exact .refl s
  · split
    · exact .refl s
    · split
      · exact .after (State.postStop_steady _ _ _) (.after (State.onCtx_steady ..) (s.readOn_steady ..))
      · split
        · exact .after (State.postCend_steady _ _) (.after (State.post_steady _ _) (.after (State.onCtx_steady ..) (s.readOn_steady ..)))
        · exact .after (State.startLaunch_steady ..) (.after (State.onCtx_steady ..) (s.readOn_steady ..))

theorem State.onLaunch_steady (s : State) (launch : Nat) (f : Launch → Launch) : s.Steady (s.onLaunch launch f) := ⟨id, rfl⟩

theorem State.makeReady_steady (s : State) (l : Launch) (gs node : Nat) : s.Steady (s.makeReady l gs node) := by
  unfold State.makeReady
  dsimp only
  split
  · exact .refl s
  · exact s.onFen_steady ..

theorem State.nextOrder_steady (s : State) : s.Steady s.nextOrder := ⟨id, rfl⟩

theorem execGroupInstantiate_steady (launch : Nat) (s : State) : NextSteady s (execGroupInstantiate launch s) := by
  unfold execGroupInstantiate
  refine .next ?_
  split
  · exact .refl s
  · split
    · exact .refl s
    · split
      · exact .refl s
      · refine .after (State.nextOrder_steady _) (.trans (s.onLaunch_steady launch _) (.foldl (fun s i => ?_) _ _))
        exact .ite (s.makeReady_steady ..) (.refl s)

/-! ### Dispatch -/

theorem Core.enterTask_wf (c : Core) (ctx : BitVec 6) (site : Byte) (entry : Addr) (g rank n : Nat) (arg : Word) (h : c.sp.wf = true) :
    (c.enterTask ctx site entry g rank n arg).sp.wf = true := by
  unfold Core.enterTask
  dsimp only
  split
  · exact h
  · rfl

theorem Core.syncAt_sp (c : Core) (t : Nat) : (c.syncAt t).sp = c.sp := rfl

theorem State.startTile_steady (s : State) (fen : Nat) (l : Launch) (r : ReadyNode) (n : GNode) : s.Steady (s.startTile fen l r n) := by
  unfold State.startTile
  dsimp only
  refine .trans (.trans (s.onFen_steady fen _) (.foldl (fun s x => ?_) _ _)) ⟨id, rfl⟩
  refine s.onCore_steady _ _ fun c h => ?_
  rw [Core.syncAt_sp]
  exact c.enterTask_wf _ _ _ _ _ _ _ h

theorem State.dispatchNode_steady (s : State) (fen : Nat) (r : ReadyNode) : s.Steady (s.dispatchNode fen r) := by
  unfold State.dispatchNode
  split
  · exact .refl s
  · split
    · exact .refl s
    · exact .trans (s.onFen_steady fen _) (.ite (State.onDie_steady ..) (State.startTile_steady ..))

theorem State.refuseNode_steady (s : State) (fen : Nat) (r : ReadyNode) (n : GNode) : s.Steady (s.refuseNode fen r n) := ⟨id, rfl⟩

theorem execDispatch_steady (fen : FenNo) (s : State) : NextSteady s (execDispatch fen s) := by
  unfold execDispatch
  refine .next ?_
  split
  · exact .refl s
  · split
    · next r _ =>
      cases s.nodeAt r with
      | none => exact .refl s
      | some n => exact s.refuseNode_steady fen.val r n
    · split
      · exact s.dispatchNode_steady ..
      · split
        · exact .refl s
        · exact .after (State.onFen_steady ..) (s.dispatchNode_steady ..)

theorem execNodeAging_steady (fen : FenNo) (idx : Nat) (s : State) : NextSteady s (execNodeAging fen idx s) := by
  unfold execNodeAging
  refine .next ?_
  split
  · exact .refl s
  · split
    · exact .refl s
    · split
      · exact s.onFen_steady ..
      · split
        · exact .refl s
        · exact s.onFen_steady ..

/-! ### Nodes that end, and copy nodes -/

theorem State.nodeDone_steady (s : State) (ctx : BitVec 6) (d : DoneNode) : s.Steady (s.nodeDone ctx d) := ⟨id, rfl⟩

theorem State.memberDone_steady (s : State) (k : CoreKey) : s.Steady (s.memberDone k) := by
  unfold State.memberDone
  split
  · exact .refl s
  · dsimp only
    split <;> exact ⟨id, rfl⟩

theorem State.putJob_steady (s : State) (d : DieNo) (e : Fin 8) (j : Option CopyJob) : s.Steady (s.putJob d e j) := ⟨id, rfl⟩

theorem State.stopJob_steady (s : State) (d : DieNo) (e : Fin 8) (j : CopyJob) (f : FaultInfo) : s.Steady (s.stopJob d e j f) := by
  unfold State.stopJob
  exact .after (State.postStop_steady _ _ _) (.after (State.putJob_steady ..) (s.met_steady f))

theorem State.copyRun_steady (s : State) (d : DieNo) (e : Fin 8) (through : Option CoreKey) (how : EngineStep) :
    s.Steady (s.copyRun d e through how) := by
  unfold State.copyRun
  split
  · exact .refl s
  · next j _ =>
    have ran := engineStep_steady ⟨j.fen.val, none, j.ctx, some (.node d e), through, false⟩ how j.cmd s
      fun ag c => copyElem_steady ag none (.glob c.addrA) c s
    split
    · exact .refl s
    · split
      · next found => exact Elem.found ran found
      · next found => exact (Elem.found ran found).trans (State.stopJob_steady ..)
      · next found => exact (Elem.found ran found).trans (State.putJob_steady ..)

theorem State.copyEnd_steady (s : State) (d : DieNo) (e : Fin 8) : s.Steady (s.copyEnd d e) := by
  unfold State.copyEnd
  split
  · exact .refl s
  · exact .ite ((s.putJob_steady ..).trans (State.nodeDone_steady ..)) (.refl s)

theorem State.copyTurn_steady (s : State) (d : DieNo) (e : Fin 8) (how : EngineStep) : s.Steady (s.copyTurn d e how) := by
  unfold State.copyTurn
  split
  · exact .refl s
  · exact .ite (.refl s) ((s.copyRun_steady ..).trans (State.copyEnd_steady ..))

theorem execCoreTaskFinish_steady (key : CoreKey) (s : State) : NextSteady s (execCoreTaskFinish key s) := by
  have put (f : Core → Core) (h : ∀ c : Core, (f c).sp = c.sp) : s.Steady (s.putCore (f (s.getCore key).landDue)) :=
    s.putCore_steady _ fun wf => (congrArg Scratch.wf (h _)).trans (Core.landDue_wf _ (s.getCore_wf key wf))
  unfold execCoreTaskFinish
  refine .next ?_
  dsimp only
  split
  · refine (put (fun c => { c with status := .idle }) fun _ => rfl).trans ?_
    split
    · exact State.onFen_steady ..
    · split
      · exact .refl _
      · exact State.memberDone_steady ..
  · exact put id fun _ => rfl

theorem State.decrement_steady (s : State) (i gs k : Nat) : s.Steady (s.decrement i gs k) := by
  unfold State.decrement
  split
  · exact .refl s
  · split
    · exact .refl s
    · split
      · exact .refl s
      · exact s.onCtx_steady ..
      · exact .trans (s.onLaunch_steady i _) (.ite (State.makeReady_steady ..) (.refl _))

theorem execNodeFinish_steady (fen : FenNo) (idx : Nat) (s : State) : NextSteady s (execNodeFinish fen idx s) := by
  unfold execNodeFinish
  refine .next ?_
  split
  · exact .refl s
  · have taken (f : Fen → Fen) : s.Steady (s.onFen fen.val f) := s.onFen_steady ..
    dsimp only
    split
    · exact taken _
    · refine .after (State.nextOrder_steady _) (.after (State.onLaunch_steady ..) ((taken _).trans (.foldl (fun s k => ?_) _ _)))
      exact s.decrement_steady ..

theorem execLaunchComplete_steady (launch : Nat) (s : State) : NextSteady s (execLaunchComplete launch s) := by
  unfold execLaunchComplete
  refine .next ?_
  split
  · exact .refl s
  · next l _ =>
    split
    · exact .refl s
    · have gone : s.Steady { s with launches := s.launches.filter fun x => decide (x.id ≠ launch) } := ⟨id, rfl⟩
      exact (gone.trans (State.launchDone_steady _ l)).trans (State.postCend_steady ..)

end Sys2Proof.Machine
end

section
/-! SUPPORT. The invariant of O3 through the mailbox, leases and collectives (R153, R159 to R173, R313, R390 to R392). -/

namespace Sys2Proof.Machine

/-! ### The mailbox -/

theorem State.endRequest_steady (s : State) (k : CoreKey) (ctx : BitVec 6) (i : Nat) : s.Steady (s.endRequest k ctx i) := by
  unfold State.endRequest
  refine .ite (s.onCore_steady k _ fun c h => ?_) (s.onPoster_steady k ctx _ (Core.completeCmd_wf i))
  cases c.cmd i with
  | none => exact h
  | some x => exact h

theorem State.placeEntry_steady (s : State) (c : Core) (x : Cmd) (kind : Nat) : s.Steady (s.placeEntry c x kind) :=
  .after (State.onCore_steady _ _ _ fun _ h => h) (s.onFen_steady _ _)

theorem Core.grantTo_wf (c : Core) (i : Nat) (v : Word) (h : c.sp.wf = true) : (c.grantTo i v).sp.wf = true := by
  have landed := c.landDue_wf h
  unfold Core.grantTo
  dsimp only
  cases c.landDue.cmd i with
  | none => exact landed
  | some x => exact (congrArg Scratch.wf (c.landDue.ws_sp 30 v)).trans landed

theorem State.startGwait_steady (s : State) (k : CoreKey) (x : Cmd) : s.Steady (s.startGwait k x) := by
  have started (y : Cmd) : s.Steady (s.onCore k fun c => c.putCmd y) := s.onCore_steady k _ fun _ h => h
  unfold State.startGwait
  dsimp only
  split
  · exact .refl s
  · split
    · split
      · exact .after (State.onCore_steady _ k _ fun c h => c.grantTo_wf _ _ h) (started _)
      · exact started _
    · exact .after (State.onCore_steady _ k _ fun c h => c.grantTo_wf _ _ h) (started _)

theorem State.noMaster_steady (s : State) (k : CoreKey) (x : Cmd) (cause : Nat) : s.Steady (s.noMaster k x cause) := s.stopCmd_steady ..

theorem State.startPost_steady (s : State) (c : Core) (x : Cmd) (kind : Nat) : s.Steady (s.startPost c x kind) := by
  unfold State.startPost
  exact .ite (s.noMaster_steady ..) (.ite (.refl s) (.ite (s.placeEntry_steady ..) (s.onFen_steady ..)))

theorem execEngineCommandStart_steady (key : CoreKey) (i : Nat) (s : State) : NextSteady s (execEngineCommandStart key i s) := by
  unfold execEngineCommandStart
  refine .next ?_
  split
  · exact .refl s
  · refine .ite (.refl s) ?_
    split
    · exact s.startPost_steady ..
    · exact .ite (.ite (s.noMaster_steady ..) (s.startGwait_steady ..)) (s.onCore_steady key _ fun _ h => h)

theorem execMailboxPlace_steady (fen : FenNo) (s : State) : NextSteady s (execMailboxPlace fen s) := by
  have taken (f : Fen → Fen) : s.Steady (s.onFen fen.val f) := s.onFen_steady ..
  unfold execMailboxPlace
  refine .next ?_
  dsimp only
  split
  · exact .refl s
  · split
    · exact taken _
    · exact .ite ((taken _).trans (State.noMaster_steady ..)) (.ite ((taken _).trans (State.placeEntry_steady ..)) (.refl s))

theorem State.replyTo_steady (s : State) (e : MbEntry) (v : Word) : s.Steady (s.replyTo e v) := s.onCore_steady _ _ fun _ h => h

theorem State.startService_steady (s : State) (fen : Nat) (k : CoreKey) (n : BitVec 6) : s.Steady (s.startService fen k n) := by
  have started (f : Fen → Fen) (t : Nat) (a : Addr) : s.Steady ((s.onCore k fun c => (c.startService n a).syncAt t).onFen fen f) :=
    .after (State.onFen_steady ..) (s.onCore_steady k _ fun _ h => h)
  unfold State.startService
  exact .ite ((started ..).trans (State.onCtx_steady ..)) (started ..)

theorem execMailboxServiceStart_steady (fen : FenNo) (s : State) : NextSteady s (execMailboxServiceStart fen s) := by
  unfold execMailboxServiceStart
  refine .next ?_
  dsimp only
  split
  · exact .refl s
  · split
    · exact .after (State.replyTo_steady ..) (s.onFen_steady ..)
    · split
      · exact .refl s
      · exact .ite (.refl s) (s.startService_steady ..)

theorem Core.landReply_wf (c : Core) (v : Word) (h : c.sp.wf = true) : (c.landReply v).sp.wf = true := by
  unfold Core.landReply
  split
  · exact h
  · exact (congrArg Scratch.wf (c.landDue.ws_sp 31 v)).trans (c.landDue_wf h)

theorem execMailboxReplyLand_steady (key : CoreKey) (s : State) : NextSteady s (execMailboxReplyLand key s) := by
  unfold execMailboxReplyLand
  refine .next ?_
  split
  · exact .refl s
  · exact .ite (.refl s) (.after (State.onPoster_steady _ _ _ _ fun c h => c.landReply_wf _ h) (s.onCore_steady key _ fun _ h => h))

/-! ### Leases of the borrower -/

theorem State.leaseStatus_steady (s : State) (fen : Nat) (ctx : BitVec 6) (at_ : Word) (st : Nat) :
    TriedSteady s id (s.leaseStatus fen ctx at_ st) := s.writeVirt_steady ..

/-- A lease expires: its window's bytes and tags are gone. -/
theorem State.expireLease_steady (s : State) (lender : DevNo) (lid : BitVec 32) : s.Steady (s.expireLease lender lid) := by
  unfold State.expireLease
  split
  · exact .refl s
  · refine ⟨fun wf => ?_, rfl⟩
    obtain ⟨mem, tags, rest⟩ := s.memWf_iff.mp wf
    exact (State.memWf_iff _).mpr ⟨Memory.clear_wf _ _ _ mem, Memory.clear_wf _ _ _ tags, rest⟩

theorem State.revoked_steady (s : State) (l : Lease) : s.Steady (s.revoked l) := by
  unfold State.revoked
  split
  · next tried => exact (s.leaseStatus_steady ..).ok tried
  · next tried => exact .after (State.postStop_steady _ _ _) (.after (State.met_steady _ _) ((s.leaseStatus_steady ..).error tried))

theorem State.onLeaseReq_steady (s : State) (fen : Nat) (q : LeaseReq) (f : LeaseReq → LeaseReq) : s.Steady (s.onLeaseReq fen q f) := ⟨id, rfl⟩

theorem State.leaseWrite_steady (s : State) (fen : FenNo) (q : LeaseReq) (r : LeaseReply) : s.Steady (s.leaseWrite fen q r) := by
  unfold State.leaseWrite
  dsimp only
  split
  · next tried =>
    exact .after (State.postStop_steady _ _ _) (.after (State.onLeaseReq_steady ..) (.after (State.met_steady _ _)
      ((s.readPlain_steady ..).error tried)))
  · next tried =>
    have read := (s.readPlain_steady ..).ok tried
    split
    · next more =>
      exact .after (State.postStop_steady _ _ _) (.after (State.onLeaseReq_steady ..) (.after (State.met_steady _ _)
        (read.trans ((State.writeVirt_steady ..).error more))))
    · next more =>
      have wrote := read.trans ((State.writeVirt_steady ..).ok more)
      refine .after (State.endRequest_steady ..) ?_
      split
      · exact wrote.trans ⟨id, rfl⟩
      · exact wrote.trans (State.onFen_steady ..)
      · exact wrote.trans (State.onFen_steady ..)

theorem execLeaseResponse_steady (fen : FenNo) (idx : Nat) (r : LeaseReply) (s : State) : NextSteady s (execLeaseResponse fen idx r s) := by
  unfold execLeaseResponse
  refine .next ?_
  split
  · exact .refl s
  · exact .ite (.refl s) (s.leaseWrite_steady ..)

/-! ### Transfers of collectives, at their source -/

theorem State.collRead_steady (s : State) (fen : Nat) (c : CollRec) (p : Nat × Nat) : s.Steady (s.collRead fen c p).st := by
  have bytes (g : Got Sect) (h : s.Steady g.st) : s.Steady (match g with
      | .wait s => Got.wait s
      | .fault f s => .fault f s
      | .ok x s => .ok x.bytes s).st := by
    cases g <;> exact h
  unfold State.collRead
  dsimp only
  split
  · exact bytes _ (s.engPlain_steady ..)
  · split
    · exact bytes _ (s.engPlain_steady ..)
    · split
      · exact .refl s
      · split <;> exact .refl s

theorem State.collPart_steady (s : State) (fen : FenNo) (c : CollRec) (p : Nat × Nat) : s.Steady (s.collPart fen c p).st := by
  unfold State.collPart
  split
  · exact .refl s
  · exact s.collRead_steady ..

theorem State.sendTransfer_steady (s : State) (t : Transfer) : s.Steady (s.sendTransfer t) := by
  unfold State.sendTransfer
  split
  · exact s.onFen_steady ..
  · refine .foldl (fun s p => ?_) _ s
    exact s.sendTo_steady ..

theorem State.transferPart_steady (s : State) (t : Transfer) (total off : Nat) (bs : List Byte) : s.Steady (s.transferPart t total off bs) := by
  unfold State.transferPart
  dsimp only
  exact .ite (.after (State.fenSync_steady _ _) (.after (State.onFen_steady ..) (s.onFen_steady ..)))
    (.after (State.onFen_steady ..) (s.onFen_steady ..))

theorem State.onColl_steady (s : State) (fen : Nat) (serial : BitVec 32) (f : CollRec → CollRec) : s.Steady (s.onColl fen serial f) := ⟨id, rfl⟩

theorem State.stopColl_steady (s : State) (fen : FenNo) (c : CollRec) (f : FaultInfo) : s.Steady (s.stopColl fen c f) := by
  unfold State.stopColl
  exact .after (State.postStop_steady _ _ _) (.after (State.onColl_steady ..) (s.met_steady f))

theorem State.stopPeer_steady (s : State) (fen : FenNo) (c : CollRec) (pos cause : Nat) : s.Steady (s.stopPeer fen c pos cause) := by
  unfold State.stopPeer
  exact .after (State.stopColl_steady ..) (s.onColl_steady ..)

theorem State.emit_steady (s : State) (fen : FenNo) (c : CollRec) (data : List Byte) : s.Steady (s.emit fen c data) := by
  unfold State.emit
  exact .after (State.sendTransfer_steady _ _) (s.onColl_steady ..)

theorem execCollTransferEmit_steady (fen : FenNo) (idx : Nat) (s : State) : NextSteady s (execCollTransferEmit fen idx s) := by
  unfold execCollTransferEmit
  refine .next ?_
  dsimp only
  split
  · exact .refl s
  · next c _ =>
    refine .ite (.refl s) ?_
    split
    · exact s.stopPeer_steady ..
    · split
      · exact s.emit_steady ..
      · next p _ =>
        have part := s.collPart_steady fen c p
        split
        · next found => exact Got.found part found
        · next found => exact (Got.found part found).trans (State.stopColl_steady ..)
        · next found => exact (Got.found part found).trans (.ite (State.emit_steady ..) (State.onColl_steady ..))

theorem State.collCounted_steady (s : State) (key : XferKey) : s.Steady (s.collCounted key) := by
  unfold State.collCounted
  refine .ite (s.sendTo_steady ..) ?_
  split
  · exact .refl s
  · exact .ite (.after (State.endRequest_steady ..) (s.onFen_steady ..)) (s.onColl_steady ..)

theorem State.transferRefused_steady (s : State) (key : XferKey) (cause : Nat) : s.Steady (s.transferRefused key cause) := by
  unfold State.transferRefused
  refine .ite (s.sendTo_steady ..) ?_
  split
  · exact .refl s
  · exact .ite (.refl s) (.ite (s.onColl_steady ..) (s.stopPeer_steady ..))

theorem State.collGo_steady (s : State) (fen : FenNo) (serial : BitVec 32) : s.Steady (s.collGo fen serial) := by
  have goes (f : CollRec → CollRec) : s.Steady (s.onColl fen.val serial f) := s.onColl_steady ..
  unfold State.collGo
  dsimp only
  split
  · exact goes _
  · split
    · exact goes _
    · exact (goes _).trans (State.stopPeer_steady ..)

/-! ### Transfers of collectives, at their member -/

theorem State.putPart_steady (s : State) (t : Transfer) (fen : Nat) (f : List Byte → List Byte → List Byte) (reads : Bool) (p : Nat × Nat)
    (bs : List Byte) : s.Steady (s.putPart t fen f reads p bs).st := by
  have read (at_ : Place) : s.Steady (if reads then s.engPlain (xferAgent t fen) at_ p.2 else .ok default s).st := by
    split
    · exact s.engPlain_steady ..
    · exact .refl s
  unfold State.putPart
  dsimp only
  split
  · next found => exact Got.left (read _) found rfl
  · next found => exact Got.left (read _) found rfl
  · next found => exact (Got.found (read _) found).trans (State.engWrite_steady ..)

theorem State.putParts_steady (s : State) (t : Transfer) (fen : Nat) (l : List (Nat × Nat)) (bs : List Byte) :
    s.Steady (s.putParts t fen l bs).st := by
  induction l generalizing s bs with
  | nil => exact .refl s
  | cons p l ih =>
    have put := s.putPart_steady t fen (fun _ x => x) false p (bs.take p.2)
    unfold State.putParts
    split
    · next found => exact Got.found put found
    · next found => exact Got.found put found
    · next found => exact (Got.found put found).trans (ih _ _)

theorem State.sumb_steady (s : State) (t : Transfer) (fen : Nat) : s.Steady (s.sumb t fen).st := by
  unfold State.sumb
  dsimp only
  split
  · next tried => exact (s.readPlain_steady ..).error tried
  · next u tried =>
    have read := (s.readPlain_steady ..).ok tried
    have put (done : Bool) (res : List Byte) :
        s.Steady (if done then u.putParts t fen (partsOf t.dst.toNat res.length) res else .ok () u).st := by
      split
      · exact read.trans (u.putParts_steady ..)
      · exact read
    split
    · next found => exact Got.left (put _ _) found rfl
    · next found => exact Got.left (put _ _) found rfl
    · next found =>
      have written := Got.found (put _ _) found
      split
      · next more => exact written.trans ((State.writeVirt_steady ..).error more)
      · next more => exact written.trans ((State.writeVirt_steady ..).ok more)

theorem State.applyPiece_steady (s : State) (fen : Nat) (t : Transfer) (landed : Nat) : s.Steady (s.applyPiece fen t landed).st := by
  unfold State.applyPiece
  dsimp only
  split
  · split
    · exact .refl s
    · have sum := s.sumb_steady t fen
      split
      · next found => exact Got.left sum found rfl
      · next found => exact Got.left sum found rfl
      · next found => exact Got.left sum found rfl
  · split
    · exact .refl s
    · next p _ =>
      have put (bs : List Byte) : s.Steady (if t.red.toNat = 0 then s.putPart t fen (fun _ x => x) false p bs
          else s.putPart t fen (redBytes t.red.toNat t.etype.toNat) true p bs).st := by
        split <;> exact s.putPart_steady ..
      split
      · next found => exact Got.left (put _) found rfl
      · next found => exact Got.left (put _) found rfl
      · next found => exact Got.left (put _) found rfl

theorem State.countMember_steady (s : State) (k : CoreKey) (ctx : BitVec 6) (aci : BitVec 5) (n : Nat) :
    s.Steady (s.countMember k ctx aci n) := by
  have up (c : Core) (h : c.sp.wf = true) : (c.landDue.countUp aci.toNat n).sp.wf = true := c.landDue_wf h
  unfold State.countMember
  exact .ite (s.onPoster_steady _ _ _ up) (s.onCore_steady _ _ up)

theorem State.landTransfer_steady (s : State) (fen : Nat) (t : Transfer) (landed : Nat) {keep drop : State → State}
    (kept : ∀ s : State, s.Steady (keep s)) (dropped : ∀ s : State, s.Steady (drop s)) :
    s.Steady (s.landTransfer fen t landed keep drop) := by
  have piece := s.applyPiece_steady fen t landed
  unfold State.landTransfer
  split
  · exact .after (State.transferRefused_steady ..) (dropped s)
  · split
    · exact .refl s
    · next found => exact .after (State.postStop_steady _ _ _) (.after (State.met_steady _ _) (Got.found piece found))
    · next found => exact (Got.found piece found).trans (kept _)
    · next found =>
      exact .after (State.collCounted_steady ..) (.after (State.countMember_steady ..) (.after (State.onFen_steady ..)
        ((Got.found piece found).trans (dropped _))))

theorem execTransferArrive_steady (fen : FenNo) (idx : Nat) (s : State) : NextSteady s (execTransferArrive fen idx s) := by
  unfold execTransferArrive
  refine .next ?_
  dsimp only
  split
  · exact .refl s
  · exact .ite (.after (State.collCounted_steady ..) (s.onFen_steady ..))
      (.ite (.ite (.refl s) (.after (State.holdFirst_steady ..) (s.onFen_steady ..)))
        (.ite (.refl s) (.ite (.after (State.transferRefused_steady ..) (s.onFen_steady ..))
          (.ite (.after (State.holdAt_steady ..) (s.onFen_steady ..))
            (s.landTransfer_steady _ _ _ (fun s => s.onFen_steady ..) fun s => s.onFen_steady ..)))))

/-! ### What was held at a core -/

theorem State.countNow_steady (s : State) (k : CoreKey) (ctx : BitVec 6) (aci : BitVec 5) (ack : Option XferKey) :
    s.Steady (s.countNow k ctx aci ack) := by
  unfold State.countNow
  cases ack with
  | none => exact s.countMember_steady ..
  | some key => exact .after (State.sendTo_steady ..) (s.countMember_steady ..)

theorem State.stopSrc_steady (s : State) (src : EngSrc) (w : EngPost) (f : FaultInfo) : s.Steady (s.stopSrc src w f) := by
  unfold State.stopSrc
  split
  · next k i =>
    cases (s.getCore k).cmd i with
    | none => exact .refl s
    | some x => exact s.stopCmd_steady ..
  · next d e =>
    cases vget (vget s.dies d.val).engines e.val with
    | none => exact .refl s
    | some j => exact s.stopJob_steady ..

theorem State.runSrc_steady (s : State) (src : EngSrc) (through : CoreKey) : s.Steady (s.runSrc src through) := by
  unfold State.runSrc
  split
  · exact s.elementRun_steady ..
  · exact s.copyRun_steady ..

theorem State.deliverHeld_steady (s : State) (fen idx : Nat) : s.Steady (s.deliverHeld fen idx) := by
  have taken (f : Fen → Fen) (s : State) : s.Steady (s.onFen fen f) := s.onFen_steady ..
  unfold State.deliverHeld
  dsimp only
  split
  · exact .refl s
  · refine .ite (.refl s) ?_
    split
    · exact .ite ((taken _ s).trans (State.collCounted_steady ..)) (s.landTransfer_steady _ _ _ (taken _) (taken _))
    · exact State.landNet_steady s _ _ _ _ (taken _ s) (.after (State.onCore_steady _ _ _ fun _ h => h) (taken _ s))
    · exact (taken _ s).trans (State.serveRead_steady ..)
    · next k src ctx w _ =>
      have write := s.engWrite_steady (src.agent fen ctx k) w
      split
      · exact .refl s
      · exact s.stopSrc_steady ..
      · next found => exact (Got.found write found).trans (taken _ _)
    · exact (taken _ s).trans (State.runSrc_steady ..)
    · exact (taken _ s).trans (State.countNow_steady ..)

theorem execHeldTransferDeliver_steady (fen : FenNo) (idx : Nat) (s : State) : NextSteady s (execHeldTransferDeliver fen idx s) :=
  .next (s.deliverHeld_steady fen.val idx)

theorem execXhold_steady (fen : FenNo) (idx : Nat) (s : State) : NextSteady s (execXhold fen idx s) := by
  unfold execXhold
  refine .next ?_
  split
  · split
    · exact ⟨id, rfl⟩
    · exact ⟨id, rfl⟩
    all_goals exact .refl s
  · exact .refl s
  · exact .refl s

end Sys2Proof.Machine
end

section
/-! SUPPORT. The invariant of O3 through the entries that a master takes, exchanges and the skink (R166, R175 to R179, R394 to R397). -/

namespace Sys2Proof.Machine

/-! ### Waiting commands that get their grant -/

theorem Core.grantWaits_wf (c : Core) (image : Bool) (xid : BitVec 16) (v : Word) (h : c.sp.wf = true) :
    (c.grantWaits image xid v).sp.wf = true := by
  unfold Core.grantWaits
  generalize c.pipes.cmds = l
  induction l generalizing c with
  | nil => exact h
  | cons x l ih =>
    refine ih _ ?_
    dsimp only
    split
    · split
      · exact Core.completeCmd_wf _ _ (c.grantTo_wf _ _ h)
      · exact c.grantTo_wf _ _ h
    · exact h

theorem State.grantAll_steady (s : State) (ctx : BitVec 6) (xid : BitVec 16) (v : Word) : s.Steady (s.grantAll ctx xid v) := by
  have live (c : Core) (h : c.sp.wf = true) : (if c.ctx = ctx then c.grantWaits false xid v else c).sp.wf = true := by
    split
    · exact c.grantWaits_wf _ _ _ h
    · exact h
  refine ⟨fun wf => ?_, rfl⟩
  obtain ⟨mem, tags, host, core, cores⟩ := s.memWf_iff.mp wf
  refine (State.memWf_iff _).mpr ⟨mem, tags, host, live _ core, fun c mine => ?_⟩
  obtain ⟨d, listed, same⟩ := List.mem_map.mp mine
  exact same ▸ live d (cores d listed)

/-! ### Exchanges of this device -/

theorem State.onExch_steady (s : State) (e : Exch) (f : Exch → Exch) : s.Steady (s.onExch e f) := ⟨id, rfl⟩

theorem State.exchEnd_steady (s : State) (e : Exch) : s.Steady (s.exchEnd e) := by
  unfold State.exchEnd
  split
  · exact .refl s
  · exact .ite (.after (State.endRequest_steady ..) (s.onExch_steady ..)) (.refl s)

theorem State.stopExch_steady (s : State) (e : Exch) (f : FaultInfo) : s.Steady (s.stopExch e f) := by
  unfold State.stopExch
  exact .after (State.postStop_steady _ _ _) (s.met_steady f)

theorem State.writeCalendar_steady (s : State) (e : Exch) (c : Calendar) : TriedSteady s id (s.writeCalendar e c) := by
  unfold State.writeCalendar
  dsimp only
  split
  · next tried => exact .failed ((s.writeVirt_steady ..).error tried)
  · next tried =>
    have header := (s.writeVirt_steady ..).ok tried
    split
    · next more => exact .failed (header.trans ((State.writeVirt_steady ..).error more))
    · next more =>
      exact .done (.after (State.grantAll_steady ..) (.after (State.onExch_steady ..) (header.trans ((State.writeVirt_steady ..).ok more))))

theorem State.writeRes_steady (s : State) (e : Exch) (k v : Nat) : TriedSteady s id (s.writeRes e k v) := s.writeVirt_steady ..

theorem State.writeRcv_steady (s : State) (e : Exch) (rank : Nat) (v : BitVec 32) : TriedSteady s id (s.writeRcv e rank v) := s.writeVirt_steady ..

theorem State.countOwner_steady (s : State) (e : Exch) (ack : Option XferKey) : s.Steady (s.countOwner e ack) := by
  unfold State.countOwner
  exact .ite (s.holdAt_steady ..) (s.countNow_steady ..)

theorem State.exchWork_steady (s : State) (e : Exch) (c : Calendar) (w : ExchWork) : TriedSteady s id (s.exchWork e c w) := by
  unfold State.exchWork
  split
  · split
    · exact .done (s.sendTo_steady ..)
    · split
      · next tried => exact .failed ((s.writeVirt_steady ..).error tried)
      · next tried => exact .done (.after (State.sendTo_steady ..) (.after (State.onExch_steady ..) ((s.writeVirt_steady ..).ok tried)))
  · exact s.writeRcv_steady ..
  · split
    · next tried => exact .failed ((s.writeRcv_steady ..).error tried)
    · next tried => exact .done (.after (State.countOwner_steady ..) (.after (State.onExch_steady ..) ((s.writeRcv_steady ..).ok tried)))
  · exact s.writeRes_steady ..

theorem State.exchWorks_steady (s : State) (e : Exch) (n : Nat) : s.Steady (s.exchWorks e n) := by
  induction n generalizing s with
  | zero => exact .refl s
  | succ n ih =>
    unfold State.exchWorks
    split
    · exact .refl s
    · split
      · split
        · next tried => exact .after (State.stopExch_steady ..) ((s.exchWork_steady ..).error tried)
        · next tried => exact (((s.exchWork_steady ..).ok tried).trans (State.onExch_steady ..)).trans (ih _)
      · exact .refl s

theorem State.sendQuanta_steady (s : State) (e : Exch) (c : Calendar) (i k off : Nat) (bs : List Byte) :
    s.Steady (s.sendQuanta e c i k off bs) := by
  unfold State.sendQuanta
  refine .foldl (fun s p => ?_) _ s
  exact .after (State.sendTo_steady ..) (s.onExch_steady ..)

theorem State.sendClose_steady (s : State) (e : Exch) (c : Calendar) (k bytes : Nat) : s.Steady (s.sendClose e c k bytes) := s.sendTo_steady ..

theorem State.exchAgain_steady (s : State) (e : Exch) (n : Nat) : s.Steady (s.exchAgain e n) := by
  induction n generalizing s with
  | zero => exact .refl s
  | succ n ih =>
    unfold State.exchAgain
    split
    · exact .refl s
    · refine .ite (.refl s) ?_
      split
      · exact .refl s
      · dsimp only
        split
        · next tried => exact .after (State.stopExch_steady ..) ((s.readPlain_steady ..).error tried)
        · next tried =>
          exact .trans (.after (State.sendQuanta_steady ..) (.after (State.onExch_steady ..) ((s.readPlain_steady ..).ok tried))) (ih _)
      · exact .trans (.after (State.sendClose_steady ..) (s.onExch_steady ..)) (ih _)
      · exact .refl s

theorem State.exchGo_steady (s : State) (e : Exch) : s.Steady (s.exchGo e) := by
  unfold State.exchGo
  split
  · exact .refl s
  · refine .ite (.refl s) ?_
    split
    · split
      · next tried => exact .after (State.stopExch_steady ..) ((s.writeCalendar_steady ..).error tried)
      · next tried => exact .after (State.exchEnd_steady ..) (.after (State.exchWorks_steady ..) ((s.writeCalendar_steady ..).ok tried))
    · exact .after (State.exchEnd_steady ..) (.after (State.exchAgain_steady ..) (s.exchWorks_steady ..))

theorem State.exchLoss_steady (s : State) (dev : DevNo) (e : Exch) : s.Steady (s.exchLoss dev e) := by
  unfold State.exchLoss
  split
  · exact .refl s
  · split
    · exact .refl s
    · exact .ite (.refl s) (.after (State.exchGo_steady ..) (s.onExch_steady ..))

/-! ### Calendars -/

theorem State.takeCalendar_steady (s : State) (ctx : BitVec 6) (xid : BitVec 16) (c : Calendar) : s.Steady (s.takeCalendar ctx xid c) := by
  have counted (g : BitVec 32) : s.Steady { s with skink := { s.skink with gen := g } } := ⟨id, rfl⟩
  unfold State.takeCalendar
  dsimp only
  split
  · exact counted _
  · refine .ite (counted _) (.trans (.after (State.exchGo_steady ..) (.after (State.onExch_steady ..) (counted _))) (.foldl (fun s d => ?_) _ _))
    exact s.exchLoss_steady ..

theorem State.writeCalendars_steady (s : State) (p : XPend) (x : XIssue) : s.Steady (s.writeCalendars p x) := by
  unfold State.writeCalendars
  refine .foldl (fun s d => ?_) _ s
  exact .ite (s.takeCalendar_steady ..) (s.sendTo_steady ..)

end Sys2Proof.Machine
end

section
/-! SUPPORT. Exchanges and the skink (R176 to R179, R394 to R397). -/

namespace Sys2Proof.Machine

/-- An exchange whose turn it is: its numbers are drawn once its posts are in, or its calendars are written once acknowledged. -/
theorem execExchangeStart_turn (s : State) (idx : Nat) (p : XPend) (here : s.skink.pending[idx]? = some p) (on : s.skinkOn = true)
    (active : s.skink.active = Config.deviceNo) (manned : s.unmanned p = false)
    (first : p.first = true ∨ ∀ y ∈ s.skink.pending, y.first = false ∨ s.unmanned y = true) :
    (p.issue = none → p.full = true → execExchangeStart idx s = .next (
      State.announceIssue { s.fresh with skink := { s.skink with gen := s.skink.gen + 1 } } p
        ⟨quanta (maskDevs p.mask).length ((maskDevs p.mask).map fun x => (p.posts.find? fun y => decide (y.1 = x)).elim [] (·.2)),
          s.skink.gen + 1, Config.startTime s.tick, Config.slotNs⟩))
    ∧ ∀ x, p.issue = some x → execExchangeStart idx s = .next (if p.acked then
      ({ s with skink := ({ s.skink with pending := s.skink.pending.eraseIdx idx } : Skink).wrote p x }).writeCalendars p x else s) := by
  have goes : (!s.skinkOn || decide (s.skink.active ≠ Config.deviceNo)
      || s.unmanned p || (!p.first && s.skink.pending.any fun y => y.first && !s.unmanned y)) = false := by
    rw [on, decide_eq_false (not_not_intro active), manned]
    rcases first with first | others
    · rw [first]
      rfl
    · have none : (s.skink.pending.any fun y => y.first && !s.unmanned y) = false := List.any_eq_false.mpr fun y h => by
        rcases others y h with other | lost
        · rw [other]
          exact Bool.false_ne_true
        · rw [lost, Bool.not_true, Bool.and_false]
          exact Bool.false_ne_true
      rw [none, Bool.and_false]
      rfl
  unfold execExchangeStart
  rw [here]
  dsimp only
  rw [goes, if_neg Bool.false_ne_true]
  refine ⟨fun none full => ?_, fun x issued => ?_⟩
  · rw [none]
    dsimp only
    rw [full]
    rfl
  · rw [issued]

/-- The calendars of one exchange all hold the epoch that the first was written in: taking a calendar leaves it. -/
theorem State.writeCalendars_eq (s : State) (p : XPend) (x : XIssue) : s.writeCalendars p x = (maskDevs p.mask).zipIdx.foldl
    (fun u y => if y.1 = Config.deviceNo then u.takeCalendar p.ctx p.xid (calendarOf s.skink.epoch (maskDevs p.mask).length x y.2)
      else u.sendTo y.1 7 0 (.calendar p.ctx p.xid (calendarOf s.skink.epoch (maskDevs p.mask).length x y.2))) s := by
  unfold State.writeCalendars
  have all (n : Nat) (epoch : BitVec 32) (l : List (DevNo × Nat)) (t : State) (h : t.skink.epoch = epoch) :
      l.foldl (fun s d => if d.1 = Config.deviceNo then s.takeCalendar p.ctx p.xid (calendarOf s.skink.epoch n x d.2)
        else s.sendTo d.1 7 0 (.calendar p.ctx p.xid (calendarOf s.skink.epoch n x d.2))) t
      = l.foldl (fun u y => if y.1 = Config.deviceNo then u.takeCalendar p.ctx p.xid (calendarOf epoch n x y.2)
        else u.sendTo y.1 7 0 (.calendar p.ctx p.xid (calendarOf epoch n x y.2))) t := by
    induction l generalizing t with
    | nil => rfl
    | cons d l ih =>
      rw [List.foldl_cons, List.foldl_cons, h]
      refine ih _ ?_
      have one : t.Steady (if d.1 = Config.deviceNo then t.takeCalendar p.ctx p.xid (calendarOf epoch n x d.2)
          else t.sendTo d.1 7 0 (.calendar p.ctx p.xid (calendarOf epoch n x d.2))) :=
        .ite (t.takeCalendar_steady ..) (t.sendTo_steady ..)
      exact one.epoch.trans h
  exact all _ _ _ s rfl

/-- An announcement of a newer skink is taken. -/
theorem execSkinkAnnounce_newer (s : State) (dev : DevNo) (epoch : BitVec 32) (away : dev ≠ Config.deviceNo)
    (newer : s.skink.epoch < epoch) : execSkinkAnnounce dev epoch s = .next (s.adoptSkink dev epoch) := by
  have notSame (h : epoch = s.skink.epoch) : False := BitVec.lt_irrefl _ (h ▸ newer)
  refine congrArg Host.Outcome.next ((if_neg away).trans ((if_neg fun h => ?_).trans (if_neg fun h => notSame h.2)))
  rcases h with older | same
  · exact BitVec.lt_asymm newer older
  · exact notSame same.1

end Sys2Proof.Machine

open Sys2Proof Sys2Proof.Machine in
/-- Settles O57: each event's branch, by its conditions. -/
theorem exchangeEvents : Obligations.ExchangeEvents := by
  refine ⟨?_, ?_, ?_, ?_, ?_, ?_, fun s dev epoch => ⟨fun own active same on => ?_, fun away old => ?_, fun away newer active => ?_,
    fun away newer active => ?_⟩, ?_⟩
  · intro s idx p devs n d here on active
    refine ⟨fun lost => ?_, fun manned first => ?_⟩
    · change execExchangeStart idx s = _
      unfold execExchangeStart
      rw [here]
      dsimp only
      rw [lost, Bool.or_true, Bool.true_or]
      rfl
    · have turn := execExchangeStart_turn s idx p here on active manned first
      refine ⟨turn.1, fun x issued acked => (turn.2 x issued).trans ?_, fun x issued open_ => (turn.2 x issued).trans ?_⟩
      · rw [if_pos acked, State.writeCalendars_eq]
        rfl
      · rw [open_]
        rfl
  · intro s idx e c p here cal phase going due
    have goes : (s.exchStopped e || decide (s.time < c.t0.toNat + c.slot.toNat * startSlot c e.next)) = false := by
      rw [going, decide_eq_false (Nat.not_lt.mpr due)]
      rfl
    have turn : exec (.phaseStart idx) s = .next (if !e.phaseSends p then (s.onExch e fun x => { x with next := x.next + 1 }).exchEnd e
        else match s.sendPhase e c p with
          | .error f => f.2.stopExch e f.1
          | .ok s => s.exchEnd e) := by
      change execPhaseStart idx s = _
      unfold execPhaseStart
      rw [here]
      dsimp only
      rw [cal]
      dsimp only
      rw [phase]
      dsimp only
      rw [goes]
      rfl
    refine ⟨fun idle => ?_, fun u sends sent => ?_, fun f u sends failed => ?_⟩
    · rw [turn, idle]
      rfl
    · rw [turn, sends, sent]
      rfl
    · rw [turn, sends, failed]
      rfl
  · intro s idx rank bytes e key this here due cal idle going got
    change execCloseFlitReceive idx rank bytes s = _
    unfold execCloseFlitReceive
    dsimp only
    rw [here]
    dsimp only
    rw [show (e.due.find? fun d => decide (d.1 = rank) && decide (d.2.1 = bytes)) = some (rank, bytes, key) from due]
    dsimp only
    rw [Option.isNone_eq_false_iff.mpr cal, going, idle, decide_eq_false (Nat.not_lt.mpr got)]
    rfl
  · intro s key ctx xid gen bytes e r unseen gen_ fresh open_
    unfold State.closeArrives
    rw [if_neg fun h => ?_, gen_]
    · dsimp only
      have new : (e.due.any fun d => decide (d.2.2 = key)) = false :=
        List.any_eq_false.mpr fun d h => by rw [decide_eq_true_eq]; exact fresh d h
      rw [new, show setHas (BitVec.ofNat 6 (rankOf (vMask e.vector) key.dev)).toNat e.closed = false from open_]
      rfl
    · obtain ⟨f, mem, seen⟩ := List.any_eq_true.mp h
      rw [unseen f mem] at seen
      exact Bool.false_ne_true seen
  · intro s t e c rank v write
    refine ⟨write, fun lost => ?_⟩
    rw [lost] at write
    unfold State.exchWork
    dsimp only
    rw [show s.writeRcv e rank 0xFFFFFFFF = .ok t from write]
  · intro s idx p absent here missing unposted on active
    have goes : ((!s.unmanned p && (p.full || p.issue.isSome)) || p.xtmo || !s.skinkOn || decide (s.skink.active ≠ Config.deviceNo))
        = false := by
      rw [unposted, on, decide_eq_false (not_not_intro active)]
      rcases missing with ⟨part, none⟩ | lost
      · rw [part, none, Option.isSome_none, Bool.or_self, Bool.and_false]
        rfl
      · rw [lost]
        rfl
    change execXtmo idx s = _
    unfold execXtmo
    rw [here]
    dsimp only
    rw [goes]
    rfl
  · exact congrArg Host.Outcome.next ((if_pos own).trans (if_pos ⟨active, same, on⟩))
  · exact congrArg Host.Outcome.next ((if_neg away).trans (if_pos old))
  · exact (execSkinkAnnounce_newer s dev epoch away newer).trans (congrArg (Host.Outcome.next ∘ State.postAgain) (if_neg active))
  · exact (execSkinkAnnounce_newer s dev epoch away newer).trans (congrArg (Host.Outcome.next ∘ State.postAgain) (if_pos active))
  · intro s u active on standby
    refine congrArg Host.Outcome.next (if_neg fun h => ?_)
    · rcases h with own | off | other
      · exact active own
      · rw [on] at off
        exact Bool.false_ne_true off
      · exact other standby
end

section
/-! SUPPORT. The invariant of O3 through the entries that a master takes, the phases of exchanges, and the skink's events (R166, R175 to
R179, R394 to R397). -/

namespace Sys2Proof.Machine

/-- The machine that serving an entry leaves, whatever comes of it. -/
def Served.st : Served → State
  | .stop _ _ s => s
  | .ok s => s

theorem Served.found {r : State} {v u : Served} (h : r.Steady v.st) (same : v = u) : r.Steady u.st := same ▸ h

/-! ### Posts to the skink -/

theorem State.skinkAccept_steady (s : State) (dev : DevNo) (ctx : BitVec 6) (xid : BitVec 16) (mask : BitVec 64) (counts : List (BitVec 32)) :
    s.Steady (s.skinkAccept dev ctx xid mask counts) := by
  have added : s.Steady { s with skink := s.skink.add dev ctx xid mask counts } := by
    refine ⟨id, ?_⟩
    unfold Skink.add
    dsimp only
    split <;> rfl
  unfold State.skinkAccept
  dsimp only
  cases State.standbyOf _ Config.deviceNo with
  | none => exact added
  | some d => exact .after (State.sendTo_steady ..) added

theorem State.postSkink_steady (s : State) (ctx : BitVec 6) (v : Demand) (prior : BitVec 32) (again : Bool) :
    s.Steady (s.postSkink ctx v prior again) := by
  unfold State.postSkink
  exact .ite (.ite (s.skinkAccept_steady ..) (.refl s)) (s.sendTo_steady ..)

theorem State.skinkPosted_steady (s : State) (src : DevNo) (ctx : BitVec 6) (xid : BitVec 16) (mask : BitVec 64) (prior : BitVec 32)
    (again : Bool) (counts : List (BitVec 32)) : s.Steady (s.skinkPosted src ctx xid mask prior again counts) := by
  unfold State.skinkPosted
  refine .ite (.refl s) ?_
  split
  · exact s.sendTo_steady ..
  · exact s.skinkAccept_steady ..

/-! ### Entries of the mailbox that the master serves -/

theorem State.readArg_steady (s : State) (fen : Nat) (e : MbEntry) (n : Nat) (f : List Byte → State → Tried State)
    (h : ∀ bs s, TriedSteady s id (f bs s)) : s.Steady (s.readArg fen e n f).st := by
  unfold State.readArg
  dsimp only
  split
  · exact s.readOn_steady ..
  · split
    · next tried => exact (s.readOn_steady ..).trans ((h _ _).error tried)
    · next tried => exact (s.readOn_steady ..).trans ((h _ _).ok tried)

theorem State.leaseTake_steady (s : State) (fen : Nat) (e : MbEntry) : s.Steady (s.leaseTake fen e).st := by
  have status (s : State) (st : Nat) : TriedSteady s id (match s.leaseStatus fen e.ctx e.arg st with
      | .error f => .error f
      | .ok s => .ok (s.endRequest e.poster e.ctx e.cmd)) := by
    split
    · next tried => exact .failed ((s.leaseStatus_steady ..).error tried)
    · next tried => exact .done (.after (State.endRequest_steady ..) ((s.leaseStatus_steady ..).ok tried))
  refine s.readArg_steady fen e 32 _ fun bs s => ?_
  dsimp only
  split
  · exact status s 6
  · split
    · exact status s 3
    · exact .done (.after (State.sendTo_steady ..) (s.onFen_steady ..))

theorem State.lrelTake_steady (s : State) (fen : Nat) (e : MbEntry) : s.Steady (s.lrelTake fen e).st := by
  refine s.readArg_steady fen e 32 _ fun bs s => ?_
  dsimp only
  split
  · exact .done (s.endRequest_steady ..)
  · split
    · next tried => exact .failed ((s.leaseStatus_steady ..).error tried)
    · next tried =>
      exact .done (.after (State.endRequest_steady ..) (.after (State.sendTo_steady ..) (.after (State.expireLease_steady ..)
        ((s.leaseStatus_steady ..).ok tried))))

theorem State.collStart_steady (s : State) (fen : Nat) (e : MbEntry) (r : BitVec 1024) (table : List Word) :
    s.Steady (s.collStart fen e r table) := by
  unfold State.collStart
  exact .ite (s.endRequest_steady ..) (s.onFen_steady ..)

theorem State.collTake_steady (s : State) (fen : Nat) (e : MbEntry) : s.Steady (s.collTake fen e).st := by
  unfold State.collTake
  dsimp only
  split
  · exact s.readOn_steady ..
  · split
    · exact s.readOn_steady ..
    · exact (s.readOn_steady ..).trans (State.collStart_steady ..)

theorem State.withExchs_steady (s : State) (l : List Exch) : s.Steady { s with exchs := l } := ⟨id, rfl⟩

theorem State.dpostTake_steady (s : State) (fen : FenNo) (e : MbEntry) : s.Steady (s.dpostTake fen e).st := by
  unfold State.dpostTake
  dsimp only
  split
  · exact s.readOn_steady ..
  · split
    · exact s.readOn_steady ..
    · refine .after (State.postSkink_steady ..) (.after (State.onFen_steady ..) (.after (State.withExchs_steady ..) (s.readOn_steady ..)))

theorem State.serve_steady (s : State) (fen : FenNo) (e : MbEntry) : s.Steady (s.serve fen e) := by
  have served : s.Steady (match mbKind e.bits with
      | 1 => s.collTake fen.val e
      | 2 => s.dpostTake fen e
      | 3 => s.leaseTake fen.val e
      | _ => s.lrelTake fen.val e).st := by
    split
    · exact s.collTake_steady ..
    · exact s.dpostTake_steady ..
    · exact s.leaseTake_steady ..
    · exact s.lrelTake_steady ..
  unfold State.serve
  dsimp only
  split
  · next found => exact Served.found served found
  · next found => exact .after (State.postStop_steady _ _ _) (.after (State.onFen_steady ..) (Served.found served found))

theorem execMailboxTake_steady (fen : FenNo) (s : State) : NextSteady s (execMailboxTake fen s) := by
  unfold execMailboxTake
  refine .next ?_
  dsimp only
  refine .ite (.refl s) ?_
  split
  · exact .after (State.serve_steady ..) (s.onFen_steady ..)
  · split
    · exact .refl s
    · exact .ite (.after (State.serve_steady ..) (s.onFen_steady ..)) (.refl s)

/-! ### Exchanges that are announced, sent and received -/

theorem State.announceIssue_steady (s : State) (p : XPend) (x : XIssue) : s.Steady (s.announceIssue p x) := by
  have put (l : List XPend) : s.Steady { s with skink := { s.skink with pending := l } } := ⟨id, rfl⟩
  unfold State.announceIssue
  dsimp only
  split
  · exact put _
  · exact .after (State.sendTo_steady ..) (put _)

theorem execExchangeStart_steady (idx : Nat) (s : State) : NextSteady s (execExchangeStart idx s) := by
  have gone (k : Skink) (h : k.epoch = s.skink.epoch) : s.Steady { s with skink := k } := ⟨id, h⟩
  have drawn (g : BitVec 32) : s.Steady { s.fresh with skink := { s.skink with gen := g } } := ⟨id, rfl⟩
  unfold execExchangeStart
  refine .next ?_
  split
  · exact .refl s
  · refine .ite (.refl s) ?_
    split
    · refine .ite (.after (State.writeCalendars_steady ..) (gone _ ?_)) (.refl s)
      unfold Skink.wrote
      dsimp only
    · exact .ite (.refl s) (.after (State.announceIssue_steady ..) (drawn _))

theorem State.keepIssue_steady (s : State) (src : DevNo) (ctx : BitVec 6) (xid : BitVec 16) (mask : BitVec 64) (x : XIssue) :
    s.Steady (s.keepIssue src ctx xid mask x) := by
  have kept (g : BitVec 32) (l : List XPend) (m : List (BitVec 6 × BitVec 16 × BitVec 64 × XIssue)) :
      s.Steady { s with skink := { s.skink with gen := g, pending := l, issued := m } } := ⟨id, rfl⟩
  unfold State.keepIssue
  exact .after (State.sendTo_steady ..) (kept _ _ _)

theorem State.issueHeld_steady (s : State) (ctx : BitVec 6) (xid : BitVec 16) (gen : BitVec 32) : s.Steady (s.issueHeld ctx xid gen) := ⟨id, rfl⟩

theorem State.postRefused_steady (s : State) (ctx : BitVec 6) (xid : BitVec 16) (cause : Nat) : s.Steady (s.postRefused ctx xid cause) := by
  unfold State.postRefused
  split
  · exact .refl s
  · exact .ite (.refl s) (.after (State.postStop_steady _ _ _) (.after (State.onFen_steady ..) (s.withExchs_steady _)))

theorem State.readCount_steady (s : State) (e : Exch) (k : Nat) : TriedSteady s Prod.snd (s.readCount e k) := by
  unfold State.readCount
  split
  · exact .pair (.refl s)
  · split
    · next tried => exact .failed ((s.readPlain_steady ..).error tried)
    · next tried => exact .pair ((s.readPlain_steady ..).ok tried)

theorem State.sendPhase_steady (s : State) (e : Exch) (c : Calendar) (p : Phase) : TriedSteady s id (s.sendPhase e c p) := by
  unfold State.sendPhase
  dsimp only
  split
  · next tried => exact .failed ((s.readCount_steady ..).error tried)
  · next tried =>
    have counted := (s.readCount_steady ..).ok tried
    split
    · next tried => exact .failed (counted.trans ((State.readPlain_steady ..).error tried))
    · next t tried =>
      have read := counted.trans ((State.readPlain_steady ..).ok tried)
      have result (last : Bool) (k v : Nat) : TriedSteady s id (if last then t.writeRes e k v else .ok t) := by
        split
        · exact .after read (t.writeRes_steady ..)
        · exact .done read
      split
      · next tried => exact .failed ((result ..).error tried)
      · next tried =>
        have sent := (result ..).ok tried
        have quanta (f : Exch → Exch) (i k off : Nat) (bs : List Byte) := State.Steady.after
          (State.sendQuanta_steady _ e c i k off bs) (.after (State.onExch_steady _ e f) sent)
        exact .done (.ite (.after (State.sendClose_steady ..) (quanta ..)) (quanta ..))

theorem execPhaseStart_steady (idx : Nat) (s : State) : NextSteady s (execPhaseStart idx s) := by
  unfold execPhaseStart
  refine .next ?_
  split
  · exact .refl s
  · split
    · exact .refl s
    · split
      · exact .refl s
      · refine .ite (.refl s) (.ite (.after (State.exchEnd_steady ..) (s.onExch_steady ..)) ?_)
        split
        · next tried => exact .after (State.stopExch_steady ..) ((s.sendPhase_steady ..).error tried)
        · next tried => exact .after (State.exchEnd_steady ..) ((s.sendPhase_steady ..).ok tried)

theorem State.takeQuanta_steady (s : State) (key : XferKey) (ctx : BitVec 6) (xid : BitVec 16) (gen : BitVec 32) (off : Nat)
    (bs : List Byte) : s.Steady (s.takeQuanta key ctx xid gen off bs) := by
  unfold State.takeQuanta
  split
  · exact .ite (s.sendTo_steady ..) (.refl s)
  · exact .after (State.exchGo_steady ..) (s.onExch_steady ..)

theorem State.quantaLanded_steady (s : State) (key : XferKey) (off : Nat) : s.Steady (s.quantaLanded key off) := by
  unfold State.quantaLanded
  dsimp only
  split
  · exact .refl s
  · exact .after (State.exchEnd_steady ..) (s.onExch_steady ..)

theorem State.closeArrives_steady (s : State) (key : XferKey) (ctx : BitVec 6) (xid : BitVec 16) (gen bytes : BitVec 32) :
    s.Steady (s.closeArrives key ctx xid gen bytes) := by
  unfold State.closeArrives
  refine .ite (s.sendTo_steady ..) ?_
  split
  · exact .refl s
  · exact .ite (.refl s) (.after (State.exchGo_steady ..) (s.onExch_steady ..))

theorem execCloseFlitReceive_steady (idx : Nat) (rank : BitVec 6) (bytes : BitVec 32) (s : State) :
    NextSteady s (execCloseFlitReceive idx rank bytes s) := by
  unfold execCloseFlitReceive
  refine .next ?_
  dsimp only
  split
  · exact .refl s
  · split
    · exact .refl s
    · exact .ite (.refl s) (.after (State.countOwner_steady ..) (.after (State.onFen_steady ..) (s.onExch_steady ..)))

theorem State.closeCounted_steady (s : State) (key : XferKey) : s.Steady (s.closeCounted key) := by
  unfold State.closeCounted
  split
  · exact .refl s
  · exact .after (State.exchEnd_steady ..) (s.onExch_steady ..)

/-! ### Peers that are lost -/

theorem State.recordsLost_steady (s : State) (dev : DevNo) : s.Steady (s.recordsLost dev) := by
  unfold State.recordsLost
  refine .foldl (fun s x => ?_) _ s
  split
  · exact .refl s
  · exact s.transferRefused_steady ..

/-- Every exchange whose numbers are drawn is announced anew. -/
theorem State.announceAgain_steady (s : State) (l : List XPend) :
    s.Steady (l.foldl (fun s p => p.issue.elim s fun x => s.announceIssue p x) s) := by
  refine .foldl (fun s p => ?_) _ s
  cases p.issue with
  | none => exact .refl s
  | some x => exact s.announceIssue_steady ..

theorem execPloss_steady (dev : DevNo) (s : State) : NextSteady s (execPloss dev s) := by
  have lost (p : List DevNo) (x : List Exch) (l : List XPend) :
      s.Steady { s with lostPeers := p, exchs := x, skink := { s.skink with pending := l } } := ⟨id, rfl⟩
  unfold execPloss
  refine .next (.ite (.refl s) (.after (State.recordsLost_steady ..) (.trans (.after (State.announceAgain_steady ..)
    (.after (State.post_steady ..) (lost _ _ _))) (.foldl (fun s e => ?_) _ _))))
  exact s.exchLoss_steady ..

theorem execXtmo_steady (idx : Nat) (s : State) : NextSteady s (execXtmo idx s) := by
  have noted (l : List XPend) : s.Steady { s with skink := { s.skink with pending := l } } := ⟨id, rfl⟩
  unfold execXtmo
  refine .next ?_
  split
  · exact .refl s
  · refine .ite (.refl s) (.trans (noted _) (.foldl (fun s x => ?_) _ _))
    exact .ite (s.post_steady _) (s.sendTo_steady ..)

/-! ### The skink's own events -/

theorem State.postAgain_steady (s : State) : s.Steady s.postAgain := by
  unfold State.postAgain
  refine .foldl (fun s e => ?_) _ s
  exact s.postSkink_steady ..

theorem State.announce_steady (s : State) : s.Steady s.announce := by
  unfold State.announce
  refine .foldl (fun s d => ?_) _ s
  exact s.sendTo_steady ..

theorem State.adoptSkink_memWf (s : State) (dev : DevNo) (epoch : BitVec 32) (h : s.memWf = true) : (s.adoptSkink dev epoch).memWf = true := by
  unfold State.adoptSkink
  refine (State.postAgain_steady _).wf ?_
  split <;> exact h

theorem State.calendarFrom_memWf (s : State) (src : DevNo) (ctx : BitVec 6) (xid : BitVec 16) (c : Calendar) (h : s.memWf = true) :
    (s.calendarFrom src ctx xid c).memWf = true := by
  have taken := (s.takeCalendar_steady ctx xid c).wf h
  unfold State.calendarFrom
  dsimp only
  split
  · exact State.adoptSkink_memWf _ _ _ taken
  · exact taken

theorem execSkinkAnnounce_steady (dev : DevNo) (epoch : BitVec 32) (s : State) : NextSteady s (execSkinkAnnounce dev epoch s) := by
  refine .canonical fun wf => ?_
  split
  · split
    · exact s.announce_steady.wf wf
    · exact wf
  · split
    · exact wf
    · split
      · exact wf
      · exact s.adoptSkink_memWf _ _ wf

theorem execSkinkTakeover_steady (s : State) : NextSteady s (execSkinkTakeover s) := by
  unfold execSkinkTakeover
  refine .canonical fun wf => ?_
  dsimp only
  split
  · exact wf
  · exact (State.postAgain_steady _).wf ((State.announceAgain_steady ..).wf ((State.announce_steady _).wf wf))

end Sys2Proof.Machine
end

section
/-! SUPPORT. The invariant of O3 through RESUME, saves and restores, conductors and the failover of a master (R30, R335, R347 to R357, R393). -/

namespace Sys2Proof.Machine

/-! ### Images and emergency slots -/

/-- The write stays a name, and the function is unfolded away from its arguments: the kernel would otherwise compute with the size of
a slot within it. -/
theorem State.writeSlot_steady (s : State) (n : BitVec 6) (slot : Nat) (c : Core) (block : List Byte) :
    TriedSteady s id (s.writeSlot n slot c block) := by
  obtain ⟨write, isWrite⟩ : ∃ write, write = @State.writeVirt := ⟨_, rfl⟩
  have steady (s : State) (fen : Nat) (key : Option CoreKey) (ctx : Nat) (va : Word) (bs : List Byte) (tag : Byte) :
      TriedSteady s id (write s fen key ctx va bs tag) := isWrite ▸ s.writeVirt_steady ..
  obtain ⟨slots, same⟩ : ∃ slots, slots = @State.writeSlot := ⟨_, rfl⟩
  rw [← same]
  delta State.writeSlot at same
  rw [← isWrite] at same
  subst same
  dsimp only
  split
  · next tried => exact .failed ((steady ..).error tried)
  · next tried => exact .after ((steady ..).ok tried) (steady ..)

theorem State.putBytes_steady (s : State) (pa : Nat) (bs : List Byte) : s.Steady (s.putBytes pa bs) := by
  have all (l : List (Nat × Nat)) (st : State × List Byte) :
      st.1.Steady (l.foldl (fun (st : State × List Byte) p => (st.1.putPhys p.1 (st.2.take p.2) 0, st.2.drop p.2)) st).1 := by
    induction l generalizing st with
    | nil => exact .refl _
    | cons p l ih => exact (st.1.putPhys_steady p.1 (st.2.take p.2) 0).trans (ih (_, _))
  exact all _ (s, bs)

/-- The write stays a name, for the same reason. -/
theorem State.saveCore_steady {s t : State} {n : BitVec 6} {slot : Nat} {c : Core} {task : Option Task} {y : SavedSlot}
    (h : s.saveCore n slot c task = some (y, t)) : s.Steady t := by
  obtain ⟨write, isWrite⟩ : ∃ write, write = @State.writeSlot := ⟨_, rfl⟩
  have steady (s : State) (n : BitVec 6) (slot : Nat) (c : Core) (block : List Byte) : TriedSteady s id (write s n slot c block) :=
    isWrite ▸ s.writeSlot_steady ..
  obtain ⟨save, same⟩ : ∃ save, save = @State.saveCore := ⟨_, rfl⟩
  rw [← same] at h
  delta State.saveCore at same
  rw [← isWrite] at same
  subst same
  dsimp only at h
  split at h
  · next tried =>
    cases h
    exact (s.fresh_steady).trans ((steady ..).ok tried)
  · next tried =>
    split at h
    · cases h
    · cases h
      exact .after (State.postStop_steady _ _ _) (.after (State.onFen_steady ..) (.after (State.putBytes_steady ..)
        (.after (State.met_steady _ _) ((s.fresh_steady).trans ((steady ..).error tried)))))

/-- The write stays a name, for the same reason. -/
theorem State.resumeSave_steady (s : State) (n : BitVec 6) (slot : Nat) : s.Steady (s.resumeSave n slot) := by
  obtain ⟨write, isWrite⟩ : ∃ write, write = @State.writeVirt := ⟨_, rfl⟩
  have steady (s : State) (fen : Nat) (key : Option CoreKey) (ctx : Nat) (va : Word) (bs : List Byte) (tag : Byte) :
      TriedSteady s id (write s fen key ctx va bs tag) := isWrite ▸ s.writeVirt_steady ..
  obtain ⟨resume, same⟩ : ∃ resume, resume = @State.resumeSave := ⟨_, rfl⟩
  rw [← same]
  delta State.resumeSave at same
  rw [← isWrite] at same
  subst same
  dsimp only
  split
  · exact .refl s
  · split
    · next tried => exact .after (State.postStop_steady _ _ _) (.after (State.met_steady _ _) ((steady ..).error tried))
    · next tried =>
      have image := (steady ..).ok tried
      split
      · next more =>
        exact .after (State.postStop_steady _ _ _) (.after (State.met_steady _ _) (image.trans ((steady ..).error more)))
      · next more => exact .after (State.onFen_steady ..) (image.trans ((steady ..).ok more))

/-! ### RESUME -/

theorem State.resumeCore_steady (s : State) (k : CoreKey) (ctx : BitVec 6) (seq : BitVec 32) (who : Stopped) (f : Core → Core)
    (h : ∀ c : Core, c.sp.wf = true → (f c).sp.wf = true) : s.Steady (s.resumeCore k ctx seq who f) :=
  .ite (s.onCore_steady k f h) (s.onPoster_steady k ctx f h)

theorem State.resumeEntry_steady (s : State) (f : FenNo) (k : CoreKey) (i : Nat) : s.Steady (s.resumeEntry f k i) := by
  have goes (g : Fen → Fen) : s.Steady (s.onFen f.val g) := s.onFen_steady ..
  unfold State.resumeEntry
  dsimp only
  split
  · exact goes _
  · exact .elim _ (goes _) fun r => .after (State.leaseWrite_steady ..) (goes _)

theorem State.resumeWho_steady (s : State) (seq : BitVec 32) (skip : Bool) (ctx : BitVec 6) (who : Stopped) :
    s.Steady (s.resumeWho seq skip ctx who) := by
  unfold State.resumeWho
  cases who with
  | core k => exact s.resumeCore_steady _ _ _ _ _ fun _ h => h
  | cmd k i =>
    refine s.resumeCore_steady _ _ _ _ _ fun c h => ?_
    cases c.cmd i with
    | none => exact h
    | some x => exact h
  | mma k i => exact s.resumeCore_steady _ _ _ _ _ fun _ h => h
  | reed k lt => exact s.resumeCore_steady _ _ _ _ _ fun _ h => h
  | copy d e => exact s.onDie_steady ..
  | coll f serial => exact s.collGo_steady f serial
  | entry f k i => exact s.resumeEntry_steady f k i
  | transfer key => exact .refl s
  | exch k i =>
    exact .elim _ (.refl s) s.exchGo_steady
  | launch n => exact s.onCtx_steady ..
  | save n slot => exact s.resumeSave_steady n slot
  | status dev lid =>
    exact .elim _ (.refl s) s.revoked_steady

theorem State.withAwait_steady (s : State) (l : List Await) : s.Steady { s with await := l } := ⟨id, rfl⟩

theorem State.resume_steady (s : State) (seq : BitVec 32) (skip : Bool) : s.Steady (s.resume seq skip) := by
  unfold State.resume
  split
  · exact .refl s
  · exact .ite (.refl s) (.ite (s.onCtx_steady ..) (.after (State.resumeWho_steady ..) (s.withAwait_steady _)))

theorem execResumeReplay_steady (seq : BitVec 32) (s : State) : NextSteady s (execResumeReplay seq s) :=
  .next (.ite (s.resume_steady ..) (.refl s))

theorem execResumeIgnoreBkpt_steady (seq : BitVec 32) (s : State) : NextSteady s (execResumeIgnoreBkpt seq s) :=
  .next (.ite (s.resume_steady ..) (.refl s))

/-! ### Cores that leave and enter -/

theorem Core.vacated_wf (c : Core) : c.vacated.sp.wf = true := rfl

theorem State.vacate_steady (s : State) (k : CoreKey) : s.Steady (s.vacate k) := by
  unfold State.vacate
  refine .after (State.onFen_steady ..) (.trans (.foldl (fun s w => ?_) _ s) (State.onCore_steady _ k _ fun c _ => c.vacated_wf))
  exact s.holdAt_steady ..

theorem State.onConductor_steady (s : State) (fen : Nat) (n : BitVec 6) (f : Conductor → Conductor) : s.Steady (s.onConductor fen n f) := ⟨id, rfl⟩

theorem State.readArea_steady (s : State) (n : BitVec 6) (parts : List (Word × Nat)) (got : List (List Byte)) :
    s.Steady (s.readArea n parts got).2.2 := s.readOn_steady ..

/-- What is loaded of an image has its scratchpad in canonical form: it is made of the image's bytes. -/
theorem SavedSlot.load_wf {y : SavedSlot} {bs : List Byte} {c : Core} (h : y.load bs = some c) : c.sp.wf = true := by
  unfold SavedSlot.load at h
  obtain ⟨-, same⟩ := Option.ite_none_left_eq_some.mp h
  cases same
  exact (Scratch.wf_iff _).mpr ⟨memoryOf_wf _, memoryOf_wf _⟩

theorem State.seat_steady (s : State) (k : CoreKey) (site : Byte) (c : Core) (h : c.sp.wf = true) : s.Steady (s.seat k site c) := by
  unfold State.seat
  exact .after (State.notePosts_steady _ k) (s.putCore_steady _ fun _ => h)

/-- What reads and loads the image stays a name, for the same reason as in a save. -/
theorem State.conductorEnter_steady (s : State) (fen : Nat) (k : CoreKey) (d : Conductor) : NextSteady s (s.conductorEnter fen k d) := by
  obtain ⟨load, isLoad⟩ : ∃ load, load = @SavedSlot.load := ⟨_, rfl⟩
  obtain ⟨read, isRead⟩ : ∃ read, read = @State.readArea := ⟨_, rfl⟩
  have steady (s : State) (n : BitVec 6) (parts : List (Word × Nat)) (got : List (List Byte)) : s.Steady (read s n parts got).2.2 :=
    isRead ▸ s.readArea_steady ..
  obtain ⟨enter, same⟩ : ∃ enter, enter = @State.conductorEnter := ⟨_, rfl⟩
  rw [← same]
  delta State.conductorEnter at same
  rw [← isLoad, ← isRead] at same
  subst same
  dsimp only
  split
  · exact .next (.after (State.onConductor_steady ..) (s.onCore_steady k _ fun _ _ => rfl))
  · split
    · exact .next (.after (State.postStop_steady _ _ _) (.after (State.onConductor_steady ..) (steady ..)))
    · split
      · exact .fault s _
      · next loaded =>
        exact .next (.after (State.onConductor_steady ..) (.after (State.seat_steady _ _ _ _ (SavedSlot.load_wf (isLoad ▸ loaded)))
          (steady ..)))

theorem State.conductorNext_steady (s : State) (fen : Nat) (k : CoreKey) : NextSteady s (s.conductorNext fen k) := by
  unfold State.conductorNext
  dsimp only
  split
  · exact .stays s
  · exact .after (.after (State.onFen_steady ..) s.fresh_steady) (State.conductorEnter_steady ..)

theorem State.conductorOut_steady (s : State) (fen : Nat) (k : CoreKey) : s.Steady (s.conductorOut fen k) := by
  obtain ⟨save, isSave⟩ : ∃ save, save = @State.saveCore := ⟨_, rfl⟩
  obtain ⟨out, same⟩ : ∃ out, out = @State.conductorOut := ⟨_, rfl⟩
  rw [← same]
  delta State.conductorOut at same
  rw [← isSave] at same
  subst same
  dsimp only
  split
  · exact s.onConductor_steady ..
  · next saved => exact .after (State.onConductor_steady ..) (.after (State.vacate_steady ..) (State.saveCore_steady (isSave ▸ saved)))

theorem execConductorChange_steady (fen : FenNo) (s : State) : NextSteady s (execConductorChange fen s) := by
  unfold execConductorChange
  split
  · exact .stays s
  · next k _ =>
    have out : s.Steady ((s.putCore (s.getCore k).landDue).conductorOut fen.val k) :=
      .after (State.conductorOut_steady ..) (s.onCore_steady k _ Core.landDue_wf)
    dsimp only
    split
    · exact .stays s
    · split
      · exact s.conductorNext_steady ..
      · split
        · exact .stays s
        · split
          · split
            · exact .after out (State.conductorNext_steady ..)
            · exact .next out
          · exact .stays s

/-! ### Saves -/

theorem State.withPkg_steady (s : State) (p : Pkg) : s.Steady { s with pkg := p } := ⟨id, rfl⟩
theorem State.withTasks_steady (s : State) (l : List Task) : s.Steady { s with tasks := l } := ⟨id, rfl⟩

theorem execPreemptSave_steady (n : BitVec 6) (s : State) : NextSteady s (execPreemptSave n s) := by
  unfold execPreemptSave
  exact .next (.ite (.refl s) (.ite (s.onCtx_steady ..) (.after (State.withPkg_steady ..) (s.onCtx_steady ..))))

theorem State.saveOut_steady (s : State) (n : BitVec 6) (x : Nat × Core) : s.Steady (s.saveOut n x) := by
  obtain ⟨save, isSave⟩ : ∃ save, save = @State.saveCore := ⟨_, rfl⟩
  obtain ⟨out, same⟩ : ∃ out, out = @State.saveOut := ⟨_, rfl⟩
  rw [← same]
  delta State.saveOut at same
  rw [← isSave] at same
  subst same
  dsimp only
  split
  · exact .refl s
  · next saved =>
    have gone (f : Ctx → Ctx) := State.Steady.after (State.onCtx_steady _ n.toNat f)
      (.after (State.vacate_steady _ x.2.key) (State.saveCore_steady (isSave ▸ saved)))
    split
    · exact gone _
    · exact .after (State.withTasks_steady ..) (gone _)

theorem State.saveConductor_steady (s : State) (n : BitVec 6) : s.Steady (s.saveConductor n) := by
  obtain ⟨save, isSave⟩ : ∃ save, save = @State.saveCore := ⟨_, rfl⟩
  obtain ⟨conductor, same⟩ : ∃ conductor, conductor = @State.saveConductor := ⟨_, rfl⟩
  rw [← same]
  delta State.saveConductor at same
  rw [← isSave] at same
  subst same
  dsimp only
  split
  · exact .after (State.onConductor_steady ..) (s.saveOut_steady ..)
  · split
    · exact .refl s
    · split
      · exact .refl s
      · next saved => exact .after (State.onCtx_steady ..) (.after (State.onConductor_steady ..) (State.saveCore_steady (isSave ▸ saved)))

theorem State.writeAll_steady (s : State) (fen ctx : Nat) (l : List (Word × List Byte)) : TriedSteady s id (s.writeAll fen ctx l) := by
  induction l generalizing s with
  | nil => exact .done (.refl s)
  | cons r l ih =>
    unfold State.writeAll
    split
    · next tried => exact .failed ((s.writeVirt_steady ..).error tried)
    · next tried => exact .after ((s.writeVirt_steady ..).ok tried) (ih _)

theorem State.savedNow_steady (s : State) (n : BitVec 6) : s.Steady (s.savedNow n) := by
  unfold State.savedNow
  dsimp only
  split
  · next tried => exact .after (State.postStop_steady _ _ _) (.after (State.met_steady _ _) ((s.writeAll_steady ..).error tried))
  · next tried =>
    exact .after (State.raiseMsix_steady _ 1) (.after (State.withPkg_steady ..) (.after (State.onCtx_steady ..)
      (.after (State.fresh_steady _) ((s.writeAll_steady ..).ok tried))))

theorem execSaveRelease_steady (n : BitVec 6) (s : State) : NextSteady s (execSaveRelease n s) := by
  have out : s.Steady ((s.saveSlots n).foldl (fun s x => s.saveOut n x) s) := by
    refine .foldl (fun s x => ?_) _ s
    exact s.saveOut_steady n x
  unfold execSaveRelease
  refine .next ?_
  dsimp only
  refine .ite (.refl s) (.ite (.ite out ?_) (.after (State.savedNow_steady ..) (.ite out ?_)))
  · exact .after (State.saveConductor_steady ..) out
  · exact .after (State.saveConductor_steady ..) out

/-! ### Restores -/

theorem execPreemptRestore_steady (n : BitVec 6) (s : State) : NextSteady s (execPreemptRestore n s) := by
  unfold execPreemptRestore
  exact .next (.ite (.refl s) (.after (State.withPkg_steady ..) (s.onCtx_steady ..)))

theorem State.placeSaved_steady (s : State) (y : SavedSlot) : s.Steady (s.placeSaved y) := .ite (.refl s) (s.onFen_steady ..)

theorem loadSlots_wf {l : List SavedSlot} {bs : List Byte} {cs : List Core} (h : loadSlots l bs = some cs) : ∀ c ∈ cs, c.sp.wf = true := by
  induction l generalizing bs cs with
  | nil =>
    cases h
    exact fun _ mine => nomatch mine
  | cons y l ih =>
    unfold loadSlots at h
    split at h
    · cases h
    · next c loaded =>
      obtain ⟨ds, rest, same⟩ := Option.map_eq_some_iff.mp h
      subst same
      intro d mine
      rcases List.mem_cons.mp mine with first | later
      · exact first ▸ SavedSlot.load_wf loaded
      · exact ih rest d later

theorem Ctx.loadAll_wf {x : Ctx} {bs : List Byte} {cs : List Core} (h : x.loadAll bs = some cs) : ∀ c ∈ cs, c.sp.wf = true :=
  loadSlots_wf (Option.ite_none_left_eq_some.mp h).2

theorem State.seatSaved_steady (s : State) (n : BitVec 6) (p : SavedSlot × Core) (h : p.2.sp.wf = true) : s.Steady (s.seatSaved n p) := by
  unfold State.seatSaved
  split
  · exact .refl s
  · next k site _ =>
    have seated : s.Steady ((s.placeSaved p.1).seat k site p.2) := (s.placeSaved_steady p.1).trans (State.seat_steady _ _ _ _ h)
    have ran : s.Steady (if p.2.newt then ((s.placeSaved p.1).seat k site p.2).onConductor p.2.fen n fun d => { d with
        state := if d.state = .ended then .ended else .running } else (s.placeSaved p.1).seat k site p.2) :=
      .ite (seated.trans (State.onConductor_steady ..)) seated
    dsimp only
    split
    · exact ran
    · exact .after (State.withTasks_steady ..) ran

/-- The loaded cores take their seats. -/
theorem State.seatAll_steady (s : State) (n : BitVec 6) (l : List (SavedSlot × Core)) (h : ∀ p ∈ l, p.2.sp.wf = true) :
    s.Steady (l.foldl (fun s p => s.seatSaved n p) s) := by
  induction l generalizing s with
  | nil => exact .refl s
  | cons p l ih =>
    exact (s.seatSaved_steady n p (h p (List.mem_cons_self ..))).trans (ih _ fun q mine => h q (List.mem_cons_of_mem _ mine))

theorem State.deliverAll_steady (s : State) (fen : Nat) (keys : List CoreKey) : s.Steady (s.deliverAll fen keys) := by
  unfold State.deliverAll
  refine .foldl (fun s _ => ?_) _ s
  dsimp only
  split
  · exact .refl s
  · exact s.deliverHeld_steady ..

theorem State.restoredNow_steady (s : State) (n : BitVec 6) (cs : List Core) (h : ∀ c ∈ cs, c.sp.wf = true) :
    s.Steady (s.restoredNow n cs) := by
  have seated := s.seatAll_steady n ((vget s.ctxs n.toNat).saved.zip cs) fun p mine => h p.2 (List.of_mem_zip mine).2
  unfold State.restoredNow
  refine .trans (.trans (.after (State.raiseMsix_steady _ 1) (.after (State.withPkg_steady ..) (.after (State.onCtx_steady ..) seated)))
    (.foldl (fun s f => ?_) _ _)) (.foldl (fun s r => ?_) _ _)
  · exact s.deliverAll_steady ..
  · exact s.resume_steady ..

theorem execRestoreComplete_steady (n : BitVec 6) (s : State) : NextSteady s (execRestoreComplete n s) := by
  unfold execRestoreComplete
  dsimp only
  split
  · exact .stays s
  · split
    · exact .next (.after (State.postStop_steady _ _ _) (.after (State.onCtx_steady ..) (s.readArea_steady ..)))
    · split
      · exact .fault s _
      · next loaded => exact .next ((s.readArea_steady ..).trans (State.restoredNow_steady _ _ _ (Ctx.loadAll_wf loaded)))

/-! ### Failover of a master -/

theorem State.deadNewt_steady (s : State) (fen site : Nat) : s.Steady (s.deadNewt fen site) := s.onCore_steady _ _ fun c _ => c.vacated_wf
theorem State.nfail_steady (s : State) (fen cause site : Nat) : s.Steady (s.nfail fen cause site) := s.post_steady _
theorem State.coreFailed_steady (s : State) (fen site : Nat) (core : Bool) : s.Steady (s.coreFailed fen site core) :=
  .ite (s.post_steady _) (.refl s)

theorem State.newMaster_steady (s : State) (fen : FenNo) (old new : Nat) (was : Option (BitVec 6)) : s.Steady (s.newMaster fen old new was) := by
  have named (f : Fen → Fen) (l : List Exch) : s.Steady { s.onFen fen.val f with exchs := l } := ⟨id, rfl⟩
  have rewound (f : Fen → Fen) (l m : List Exch) : s.Steady (m.foldl State.exchGo { s.onFen fen.val f with exchs := l }) :=
    (named f l).trans (.foldl (fun s e => s.exchGo_steady e) m _)
  unfold State.newMaster
  dsimp only
  split
  · exact rewound ..
  · exact .ite (rewound ..) ((rewound ..).trans (State.startService_steady ..))

theorem execNewtFailover_steady (fen : FenNo) (core : Bool) (s : State) : NextSteady s (execNewtFailover fen core s) := by
  unfold execNewtFailover
  refine .next ?_
  dsimp only
  split
  · exact .refl s
  · next m _ =>
    split
    · next b _ =>
      have out : s.Steady (if (s.getCore (newtKey fen.val b)).status = .idle then s else s.conductorOut fen.val (newtKey fen.val b)) :=
        .ite (.refl s) (s.conductorOut_steady ..)
      exact .ite (.refl s) (.ite out (.after (State.nfail_steady ..) (.after (State.newMaster_steady ..) (.after (State.deadNewt_steady ..)
        (.after (State.coreFailed_steady ..) out)))))
    · have failed := s.coreFailed_steady fen.val m core
      exact .after (State.nfail_steady ..) (.after (State.onFen_steady ..) (.after (State.deadNewt_steady ..)
        (.ite (failed.trans (State.onConductor_steady ..)) failed)))

end Sys2Proof.Machine
end

section
/-! SUPPORT. The invariant of O3 through contexts, records, the host's accesses, repair, leases and the debug path (R36, R118, R153, R184 to
R188, R333 to R346, R360 to R378). -/

namespace Sys2Proof.Machine

/-! ### Contexts -/

theorem State.started_steady (s : State) (n : BitVec 6) : s.Steady (s.started n) := ⟨id, rfl⟩

theorem execContextStart_steady (n : BitVec 6) (s : State) : NextSteady s (execContextStart n s) := by
  unfold execContextStart
  refine .next (.ite (.refl s) ?_)
  split
  · exact s.started_steady n
  · exact .after (State.onConductor_steady ..) (.after (State.onCore_steady _ _ _ fun _ _ => rfl) (s.started_steady n))

theorem Core.dropContext_wf (c : Core) (n : BitVec 6) (h : c.sp.wf = true) : (c.dropContext n).sp.wf = true := by
  unfold Core.dropContext
  dsimp only
  split
  · exact c.vacated_wf
  · exact h

/-- The cores of a context are vacated, and nothing else of a memory changes. -/
theorem State.teardown_steady (s : State) (n : BitVec 6) : s.Steady (s.teardown n) := by
  have dropped (t : State) (mem : t.mem = s.mem) (tags : t.tags = s.tags) (host : t.hostMem = s.hostMem)
      (core : t.core = s.core.dropContext n) (cores : t.cores = s.cores.map (Core.dropContext · n))
      (epoch : t.skink.epoch = s.skink.epoch) : s.Steady t := by
    refine ⟨fun wf => ?_, epoch⟩
    obtain ⟨memWf, tagsWf, hostWf, coreWf, coresWf⟩ := s.memWf_iff.mp wf
    refine (State.memWf_iff _).mpr ⟨mem ▸ memWf, tags ▸ tagsWf, host ▸ hostWf, core ▸ s.core.dropContext_wf n coreWf, fun c mine => ?_⟩
    rw [cores] at mine
    obtain ⟨d, listed, same⟩ := List.mem_map.mp mine
    exact same ▸ d.dropContext_wf n (coresWf d listed)
  unfold State.teardown
  dsimp only
  refine .after (State.post_steady _ _) (.after (State.onCtx_steady ..) (.ite ?_ (.after (State.raiseMsix_steady _ 1) ?_)))
  · exact dropped _ rfl rfl rfl rfl rfl rfl
  · exact dropped _ rfl rfl rfl rfl rfl rfl

theorem State.hostState_steady (s : State) (n : BitVec 6) (v : Nat) : s.Steady (s.hostState n v) := by
  unfold State.hostState
  exact .ite (.ite (.refl s) (s.teardown_steady n)) (.ite (.refl s) (s.onCtx_steady ..))

theorem execContextTeardown_steady (n : BitVec 6) (s : State) : NextSteady s (execContextTeardown n s) :=
  .next (.ite (s.hostState_steady ..) (.refl s))

theorem execContextFree_steady (n : BitVec 6) (s : State) : NextSteady s (execContextFree n s) :=
  .next (.ite (s.hostState_steady ..) (.refl s))

theorem execTlbinv_steady (v : Word) (s : State) : NextSteady s (execTlbinv v s) := .next (.ite (s.withPkg_steady _) (.refl s))

theorem execTlbinvDone_steady (s : State) : NextSteady s (execTlbinvDone s) := by
  refine .next (.ite (.refl s) ⟨fun wf => ?_, rfl⟩)
  obtain ⟨mem, tags, host, core, cores⟩ := s.memWf_iff.mp wf
  refine (State.memWf_iff _).mpr ⟨mem, tags, host, core, fun c mine => ?_⟩
  obtain ⟨d, listed, same⟩ := List.mem_map.mp mine
  exact same ▸ cores d listed

theorem execAttn_steady (nonce : BitVec 256) (s : State) : NextSteady s (execAttn nonce s) := .next (.ite (s.withPkg_steady _) (.refl s))

theorem execAttestationReady_steady (err : BitVec 4) (s : State) : NextSteady s (execAttestationReady err s) := by
  unfold execAttestationReady
  refine .next ?_
  split
  · exact .refl s
  · exact .ite (.after (State.withPkg_steady ..) s.fresh_steady) (.ite (s.withPkg_steady _) (.refl s))

/-! ### Records -/

theorem State.admitLate_steady (s : State) : s.Steady s.admitLate := by
  unfold State.admitLate
  split
  · exact .refl s
  · exact ⟨id, rfl⟩

theorem State.noteTdown_steady (s : State) (r : FaultRec) : s.Steady (s.noteTdown r) := .ite (s.onCtx_steady ..) (.refl s)

theorem execFaultRecordPost_steady (s : State) : NextSteady s (execFaultRecordPost s) := by
  have written (l : List (BitVec 32 × FaultRec)) (at_ : Nat) (bs : List Byte) (p : Pkg) :
      s.Steady { s with ready := l, hostMem := s.hostMem.writeBytes at_ bs, msixDue := true, pkg := p } := by
    refine ⟨fun wf => ?_, rfl⟩
    obtain ⟨mem, tags, host, rest⟩ := s.memWf_iff.mp wf
    exact (State.memWf_iff _).mpr ⟨mem, tags, Memory.writeBytes_wf bs s.hostMem at_ host, rest⟩
  unfold execFaultRecordPost
  refine .next ?_
  split
  · exact .refl s
  · exact .ite (.refl s) (.after (State.admitLate_steady _) (.after (State.noteTdown_steady ..) (written ..)))

theorem State.withMsixDue_steady (s : State) (b : Bool) : s.Steady { s with msixDue := b } := ⟨id, rfl⟩

theorem execMsiXVector0_steady (s : State) : NextSteady s (execMsiXVector0 s) :=
  .next (.ite (.after (State.withMsixDue_steady (s.raiseMsix 0) false) (s.raiseMsix_steady 0)) (.refl s))

theorem Core.tmoPosted_sp (c : Core) (x : Ctx) : (c.tmoPosted x).sp = c.sp := by
  unfold Core.tmoPosted
  dsimp only
  split
  · rfl
  · split <;> rfl

theorem execWaitTimeout_steady (key : CoreKey) (s : State) : NextSteady s (execWaitTimeout key s) := by
  unfold execWaitTimeout
  refine .next ?_
  split
  · exact .after (State.post_steady _ _) (s.onCore_steady key _ fun c h => (congrArg Scratch.wf (c.tmoPosted_sp _)).trans h)
  · split
    · exact .after (State.post_steady _ _) (s.onFen_steady ..)
    · split
      · exact .after (State.post_steady _ _) (s.onConductor_steady ..)
      · split
        · exact .after (State.post_steady _ _) (.after (State.fresh_steady _) (s.onCtx_steady ..))
        · exact .refl s

/-! ### Accesses of the host -/

theorem State.entryWrite_steady (s : State) (n : Nat) (bs : List Byte) (w : Nat → Bool) : s.Steady (s.entryWrite n bs w) := by
  have stored (f : Ctx → Ctx) : s.Steady (s.onCtx n f) := s.onCtx_steady ..
  unfold State.entryWrite
  exact .ite (.after (State.hostState_steady ..) (stored _)) (stored _)

theorem execHostMemRead_steady (pa : BitVec 48) (len : Nat) (s : State) : NextSteady s (execHostMemRead pa len s) := by
  unfold execHostMemRead
  refine .next (.ite (.refl s) (.trans (.after (State.withPkg_steady ..) s.fresh_steady) (.foldl (fun s p => ?_) _ _)))
  exact .after (State.readNow_steady ..) (s.request_steady _)

theorem State.hostWritePart_steady (s : State) (pa : Nat) (bs : List Byte) : s.Steady (s.hostWritePart pa bs) := by
  unfold State.hostWritePart
  split
  · exact s.entryWrite_steady ..
  · split
    · exact .refl s
    · exact .ite (.refl s) (.after (State.wroteNow_steady ..) (.after (State.request_steady ..) (s.putPhys_steady ..)))

theorem State.hostWriteParts_steady (l : List (Nat × Nat)) (st : State × List Byte) :
    st.1.Steady (l.foldl (fun (st : State × List Byte) p => (st.1.hostWritePart p.1 (st.2.take p.2), st.2.drop p.2)) st).1 := by
  induction l generalizing st with
  | nil => exact .refl _
  | cons p l ih => exact (st.1.hostWritePart_steady p.1 (st.2.take p.2)).trans (ih (_, _))

theorem execHostMemWrite_steady (pa : BitVec 48) (bytes : List Byte) (s : State) : NextSteady s (execHostMemWrite pa bytes s) := by
  unfold execHostMemWrite
  exact .next (.ite (.refl s) (State.hostWriteParts_steady _ (s, bytes)))

theorem State.withPortList_steady (s : State) (l : Vector Port 36) : s.Steady { s with ports := l } := ⟨id, rfl⟩

theorem execHostRegisterWrite_steady (off : BitVec 32) (v : Word) (s : State) : NextSteady s (execHostRegisterWrite off v s) := by
  unfold execHostRegisterWrite
  refine .next ?_
  dsimp only
  have package (c : Prop) [Decidable c] (p : Pkg) : s.Steady (if c then { s with pkg := p } else s) := .ite (s.withPkg_steady _) (.refl s)
  have table (c d : Prop) [Decidable c] [Decidable d] (p : Pkg) :
      s.Steady (if d then State.setCtxb (if c then { s with pkg := p } else s) v else if c then { s with pkg := p } else s) :=
    .ite (.after (State.setCtxb_steady ..) (package c p)) (package c p)
  refine .ite (.refl s) (.ite (table _ _ _) (.ite (.after (State.withPortList_steady ..) (.after (State.onDie_steady ..) (table _ _ _)))
    (.after (State.onDie_steady ..) (table _ _ _))))

theorem execTelemUpdate_steady (die : DieNo) (v : Word) (s : State) : NextSteady s (execTelemUpdate die v s) :=
  .next (.ite (.refl s) (s.onDie_steady ..))

theorem execEnergyUpdate_steady (n : BitVec 6) (uj : Word) (s : State) : NextSteady s (execEnergyUpdate n uj s) := .next (s.onCtx_steady ..)

theorem execClockThrottle_steady (die : DieNo) (s : State) : NextSteady s (execClockThrottle die s) :=
  .next (.ite (.refl s) (s.onDie_steady ..))

theorem execOvp_steady (v : Word) (s : State) : NextSteady s (execOvp v s) := .next (.ite (.refl s) (s.withPkg_steady _))

theorem execGetEventRecords_steady (s : State) : NextSteady s (execGetEventRecords s) := .next (.ite (.refl s) (s.withPkg_steady _))

theorem execClearEventRecords_steady (n : Nat) (s : State) : NextSteady s (execClearEventRecords n s) :=
  .next (.ite (s.withPkg_steady _) (.refl s))

/-! ### Heat and repair -/

theorem State.halveHeat_steady (s : State) (a n : Nat) : s.Steady (s.halveHeat a n) :=
  .withMem (.foldl (fun s _ => s.reedKeep_steady _) _ s) (Memory.halve_wf _ a n)

theorem execHeatSweep_steady (die : DieNo) (s : State) : NextSteady s (execHeatSweep die s) := by
  unfold execHeatSweep
  exact .next (.ite (.refl s) (.after (State.fresh_steady _) (.after (State.onDie_steady ..) (s.halveHeat_steady ..))))

theorem State.remapRow_steady (s : State) (die : Nat) (c : BitVec 6) (row : Nat) : s.Steady (s.remapRow die c row) := by
  unfold State.remapRow
  exact .ite (.refl s) (.after (State.mce_steady ..) (s.onDie_steady ..))

theorem execScrub_steady (pa : BitVec 48) (symbols : Nat) (s : State) : NextSteady s (execScrub pa symbols s) := by
  unfold execScrub
  refine .next ?_
  split
  · next die _ =>
    have passed (f : Die → Die) : s.Steady (s.onDie die f) := s.onDie_steady ..
    have counted (f g : Die → Die) : s.Steady ((s.onDie die f).onDie die g) := (passed f).trans (State.onDie_steady ..)
    exact .ite (passed _) (.ite (.after (State.remapRow_steady ..) (counted _ _)) (counted _ _))
  all_goals exact .refl s

theorem execStripeRebuild_steady (pa : BitVec 48) (bad : List (BitVec 4)) (s : State) : NextSteady s (execStripeRebuild pa bad s) := by
  unfold execStripeRebuild
  refine .next ?_
  split
  · exact .ite (.refl s) (.ite (.after (State.remapRow_steady ..) (s.onDie_steady ..)) (s.poisonDie_steady ..))
  all_goals exact .refl s

theorem State.degrade_steady (s : State) (die : Nat) (c : BitVec 6) : s.Steady (s.degrade die c) := .after (State.mce_steady ..) (s.onDie_steady ..)

theorem State.nextGroup_steady (s : State) (die : Nat) : s.Steady (s.nextGroup die) := by
  unfold State.nextGroup
  refine .ite (.refl s) ?_
  split
  · exact .refl s
  · exact s.degrade_steady ..

theorem execChannelRetire_steady (die : DieNo) (ch : BitVec 6) (reason : RetireReason) (s : State) :
    NextSteady s (execChannelRetire die ch reason s) := by
  have full : s.Steady (match reason with
      | .remapTable row => s.mce die.val 5 ch.toNat row.toNat
      | .training => s
      | .rebuilds => s
      | .spares => s) := by
    split
    · exact s.mce_steady ..
    all_goals exact .refl s
  have retired (f : Die → Die) (a b : Nat) := State.Steady.after (State.mce_steady _ die.val 2 a b)
    (.after (State.onDie_steady _ die.val f) full)
  unfold execChannelRetire
  refine .next (.ite (.refl s) ?_)
  dsimp only
  split
  · exact .ite (retired _ _ _) ((retired _ _ _).trans (State.poisonDie_steady ..))
  · exact (retired _ _ _).trans (State.nextGroup_steady ..)

theorem execRetstAck_steady (die : DieNo) (s : State) : NextSteady s (execRetstAck die s) := .next (.ite (s.onDie_steady ..) (.refl s))

theorem State.moveLost_steady (s : State) (die : Nat) : s.Steady (s.moveLost die) := by
  have either (l : List Nat) : s.Steady (if l.isEmpty then s else s.poisonDie die l) := .ite (.refl s) (s.poisonDie_steady ..)
  exact either _

theorem execRestripeStripe_steady (die : DieNo) (s : State) : NextSteady s (execRestripeStripe die s) := by
  unfold execRestripeStripe
  exact .next (.ite (.refl s) (.ite (.after (State.onDie_steady ..) (s.moveLost_steady _))
    (.after (State.nextGroup_steady ..) (.after (State.mce_steady ..) (.after (State.onDie_steady ..) (s.moveLost_steady _))))))

theorem execMireTimeout_steady (pa : BitVec 48) (s : State) : NextSteady s (execMireTimeout pa s) := by
  unfold execMireTimeout
  refine .next ?_
  split
  · exact .after (State.onDie_steady ..) (s.poisonAll_steady _)
  all_goals exact .refl s

theorem State.withMireUp_steady (s : State) (l : Vector Bool 4) : s.Steady { s with mireUp := l } := ⟨id, rfl⟩

theorem execMirePortDown_steady (port : BitVec 2) (s : State) : NextSteady s (execMirePortDown port s) := by
  unfold execMirePortDown
  exact .next (.ite (.after (State.mce_steady ..) (s.withMireUp_steady _)) (.refl s))

theorem execMirePortUp_steady (port : BitVec 2) (s : State) : NextSteady s (execMirePortUp port s) := by
  unfold execMirePortUp
  exact .next (.ite (.refl s) (.after (State.mce_steady ..) (s.withMireUp_steady _)))

/-! ### Leases -/

theorem State.onLease_steady (s : State) (p : Lease → Bool) (f : Lease → Lease) : s.Steady (s.onLease p f) := ⟨id, rfl⟩
theorem State.withLeases_steady (s : State) (l : List Lease) : s.Steady { s with leases := l } := ⟨id, rfl⟩

theorem execLrevoke_steady (v : Word) (s : State) : NextSteady s (execLrevoke v s) := by
  unfold execLrevoke
  refine .next ?_
  dsimp only
  split
  · exact .refl s
  · exact .ite (.refl s) (.after (State.sendTo_steady ..) (s.onLease_steady ..))

theorem execLeaseNoticeReceive_steady (lease : LeaseId) (t : Word) (s : State) : NextSteady s (execLeaseNoticeReceive lease t s) := by
  unfold execLeaseNoticeReceive
  refine .next ?_
  split
  · exact .refl s
  · exact .ite (.refl s) (.after (State.post_steady _ _) (s.onLease_steady ..))

theorem State.borrowerX_steady (s : State) (l : Lease) (cause : Nat) : s.Steady (s.borrowerX l cause) := by
  unfold State.borrowerX
  exact .after (State.revoked_steady ..) (.after (State.post_steady _ _) (s.expireLease_steady ..))

/-- A lease ends at its lender: the window's bytes and tags are gone. -/
theorem State.reclaim_steady (s : State) (l : Lease) : s.Steady (s.reclaim l) := by
  refine ⟨fun wf => ?_, rfl⟩
  obtain ⟨mem, tags, rest⟩ := s.memWf_iff.mp wf
  exact (State.memWf_iff _).mpr ⟨Memory.clear_wf _ _ _ mem, Memory.clear_wf _ _ _ tags, rest⟩

theorem State.lenderX_steady (s : State) (l : Lease) : s.Steady (s.lenderX l) := by
  unfold State.lenderX
  exact .after (State.post_steady _ _) (s.reclaim_steady l)

theorem execLeaseExpiry_steady (lid : BitVec 32) (s : State) : NextSteady s (execLeaseExpiry lid s) := by
  unfold execLeaseExpiry
  refine .next ?_
  split
  · exact .refl s
  · exact .ite (s.borrowerX_steady ..) (s.lenderX_steady _)

theorem execLenderUnreachable_steady (dev : DevNo) (s : State) : NextSteady s (execLenderUnreachable dev s) := by
  refine .next (.ite (.foldl (fun s l => ?_) _ s) (.refl s))
  exact s.borrowerX_steady ..

theorem execBorrowerUnreachable_steady (dev : DevNo) (s : State) : NextSteady s (execBorrowerUnreachable dev s) := by
  refine .next (.ite (.foldl (fun s l => ?_) _ s) (.refl s))
  exact s.lenderX_steady l

theorem execLeaseRequestReceive_steady (dev : DevNo) (size : BitVec 24) (grant : Option (BitVec 48)) (s : State) :
    NextSteady s (execLeaseRequestReceive dev size grant s) := by
  unfold execLeaseRequestReceive
  refine .next ?_
  split
  · exact s.sendTo_steady ..
  · exact .ite (.after (State.sendTo_steady ..) (s.withLeases_steady _)) (.refl s)

/-! ### The debug path -/

/-- The machine that a read of the debug path leaves, whatever comes of it. -/
def DbgRead.st : DbgRead → State
  | .failed _ _ _ s => s
  | .ok _ _ s => s

theorem DbgRead.found {r : State} {v u : DbgRead} (h : r.Steady v.st) (same : v = u) : r.Steady u.st := same ▸ h

theorem State.dbgFail_steady (s : State) (die : DieNo) (ecause : Nat) : s.Steady (s.dbgFail die ecause) := s.onDie_steady ..
theorem State.dbgTake_steady (s : State) (die : DieNo) (cmd : Word) : s.Steady (s.dbgTake die cmd) := s.onDie_steady ..
theorem State.dbgBegin_steady (s : State) (die : DieNo) (cmd : Word) : s.Steady (s.dbgBegin die cmd) := s.onDie_steady ..
theorem State.dbgTagged_steady (s : State) (die : DieNo) (poison : Bool) (tag : Byte) : s.Steady (s.dbgTagged die poison tag) := s.onDie_steady ..
theorem State.dbgDecoded_steady (s : State) (die : DieNo) (e : BitVec 32) (bs : List Byte) (x : DbgAux) : s.Steady (s.dbgDecoded die e bs x) :=
  s.onDie_steady ..

theorem State.dbgRead_steady (s : State) (die : DieNo) (n : BitVec 6) (x : DbgSector) : s.Steady (s.dbgRead die n x).st := by
  unfold State.dbgRead
  split
  · split
    · exact .refl s
    · split
      · exact .refl s
      · dsimp only
        split
        · next found => exact State.netRead_found found
        · next found => exact State.netRead_found found
  · dsimp only
    split
    · exact .refl s
    · have asked : s.Steady (((s.lostLine (128 * x.addr)).request (128 * x.addr)).readLast (128 * x.addr)) :=
        .after (State.readLast_steady ..) (.after (State.request_steady ..) (s.lostLine_steady _))
      split <;> exact asked

theorem execDebugRawRead_steady (die : DieNo) (cmd : Word) (s : State) : NextSteady s (execDebugRawRead die cmd s) := by
  have read := (s.dbgTake_steady die cmd).trans (State.dbgRead_steady _ die (dbgCtx cmd) (dbgSector cmd))
  unfold execDebugRawRead
  refine .next (.ite (s.dbgBegin_steady ..) (.ite (.refl s) ?_))
  split
  · next found => exact .after (State.dbgFail_steady ..) (.after (State.dbgTagged_steady ..) (DbgRead.found read found))
  · next found => exact .after (State.onDie_steady ..) (.after (State.dbgTagged_steady ..) (DbgRead.found read found))

theorem State.dbgScale_steady {s : State} {die : DieNo} {n : BitVec 6} {form : Nat} {v : DbgRead} (h : s.dbgScale die n form = some v) :
    s.Steady v.st := by
  unfold State.dbgScale at h
  obtain ⟨-, same⟩ := Option.ite_none_right_eq_some.mp h
  exact DbgRead.found (s.dbgRead_steady ..) (Option.some.inj same)

theorem State.dbgDecode_steady (s : State) (die : DieNo) (cmd : Word) (bs : List Byte) (t : Byte) : s.Steady (s.dbgDecode die cmd bs t) := by
  unfold State.dbgDecode
  dsimp only
  split
  · exact s.dbgFail_steady ..
  · split
    · split
      · exact s.dbgFail_steady ..
      · exact s.dbgDecoded_steady ..
    · split
      · exact s.dbgDecoded_steady ..
      · next scaled =>
        have read := State.dbgScale_steady scaled
        exact .after (State.dbgFail_steady ..) (.ite (read.trans (State.dbgTagged_steady ..)) read)
      · next scaled =>
        have read := State.dbgScale_steady scaled
        exact .ite (read.trans (State.dbgDecoded_steady ..)) (read.trans (State.dbgFail_steady ..))

theorem execDebugDecodeRead_steady (die : DieNo) (cmd : Word) (s : State) : NextSteady s (execDebugDecodeRead die cmd s) := by
  have read := (s.dbgTake_steady die cmd).trans (State.dbgRead_steady _ die (dbgCtx cmd) (dbgSector cmd))
  unfold execDebugDecodeRead
  refine .next (.ite (s.dbgBegin_steady ..) (.ite (.refl s) ?_))
  split
  · next found => exact .after (State.dbgFail_steady ..) (.after (State.dbgTagged_steady ..) (DbgRead.found read found))
  · next found => exact .after (State.dbgDecode_steady ..) (.after (State.dbgTagged_steady ..) (DbgRead.found read found))

theorem execDebugRawWrite_steady (die : DieNo) (cmd : Word) (s : State) : NextSteady s (execDebugRawWrite die cmd s) := by
  have failed (e : Nat) : s.Steady ((s.dbgTake die cmd).dbgFail die e) := (s.dbgTake_steady ..).trans (State.dbgFail_steady ..)
  unfold execDebugRawWrite
  refine .next (.ite (.ite (s.dbgBegin_steady ..) (failed _)) (.ite (.refl s) (.ite (failed _) ?_)))
  dsimp only
  split
  · next done =>
    exact .after (State.onDie_steady ..) (.after (State.putCore_steady _ _ fun wf => Core.netWrite_wf (s.getCore_wf _ wf) done)
      (s.dbgTake_steady ..))
  · exact .refl s
  · exact failed _

end Sys2Proof.Machine
end

section
/-! SUPPORT. The invariant of O3 through ports, modules, dies, boot and recovery (R24 to R27, R188, R321 to R332, R379 to R386). -/

namespace Sys2Proof.Machine

/-! ### Flits -/

theorem State.link_steady (s : State) (die cause what lanes : Nat) : s.Steady (s.link die cause what lanes) := s.post_steady _

theorem execAckTimeout_steady (port : PortNo) (vc : BitVec 3) (s : State) : NextSteady s (execAckTimeout port vc s) :=
  .next (.ite (s.putPort_steady ..) (.refl s))

theorem State.wireTurn_steady (s : State) (port : Nat) : s.Steady (s.wireTurn port) := .ite (s.putPort_steady ..) (.refl s)

theorem State.withPoison_steady (s : State) (l : List Nat) : s.Steady { s with poison := l } := ⟨id, rfl⟩

theorem State.lentWrite_steady (s : State) (src : DevNo) (pa : Nat) (h : SectorHeader) (bs : List Byte) : s.Steady (s.lentWrite src pa h bs) := by
  have put := s.putHere_steady pa bs h.tag
  unfold State.lentWrite
  exact .ite (.ite (put.trans (State.withPoison_steady _ _)) put) (.refl s)

theorem State.lentRead_steady (s : State) (src : DevNo) (pa len : Nat) : s.Steady (s.lentRead src pa len) := by
  unfold State.lentRead
  exact .ite (s.sendTo_steady ..) (.refl s)

theorem State.leaseAnswer_steady (s : State) (src : DevNo) (r : LeaseReply) : NextSteady s (s.leaseAnswer src r) := by
  unfold State.leaseAnswer
  dsimp only
  split
  · exact .stays s
  · exact execLeaseResponse_steady ..

theorem State.leaseBack_steady (s : State) (src : DevNo) (lid : BitVec 32) : s.Steady (s.leaseBack src lid) := by
  unfold State.leaseBack
  split
  · exact .refl s
  · exact s.reclaim_steady _

theorem State.withSkink_steady (s : State) (k : Skink) (h : k.epoch = s.skink.epoch) : s.Steady { s with skink := k } := ⟨id, h⟩

theorem Skink.add_epoch (k : Skink) (dev : DevNo) (ctx : BitVec 6) (xid : BitVec 16) (mask : BitVec 64) (counts : List (BitVec 32)) :
    (k.add dev ctx xid mask counts).epoch = k.epoch := by
  unfold Skink.add
  dsimp only
  split <;> rfl

theorem State.deliverWhole_steady (s : State) (src : DevNo) (b : FlitBody) : NextSteady s (s.deliverWhole src b) := by
  cases b with
  | empty => exact .stays s
  | part w i n => exact .stays s
  | transfer t total off h bs => exact .next (s.transferPart_steady ..)
  | counted k => exact .next (.ite (s.collCounted_steady _) (.refl s))
  | refused k c => exact .next (.ite (s.transferRefused_steady ..) (.refl s))
  | leaseRequest size => exact .stays s
  | leaseReply r => exact s.leaseAnswer_steady src r
  | leaseNotice lid t => exact execLeaseNoticeReceive_steady ..
  | leaseReturn lid => exact .next (s.leaseBack_steady ..)
  | memory pa h bs => exact .next (s.lentWrite_steady ..)
  | memoryRead pa len => exact .next (s.lentRead_steady ..)
  | memoryData pa h bs => exact .stays s
  | skinkPost ctx xid mask prior again counts => exact .next (s.skinkPosted_steady ..)
  | postRefused ctx xid c => exact .next (.ite (s.postRefused_steady ..) (.refl s))
  | skinkForward dev ctx xid mask counts => exact .next (s.withSkink_steady _ (Skink.add_epoch ..))
  | issue ctx xid mask x => exact .next (s.keepIssue_steady ..)
  | issueHeld ctx xid gen => exact .next (s.issueHeld_steady ..)
  | xtmo ctx xid absent => exact .next (s.post_steady _)
  | calendar ctx xid c => exact .canonical (s.calendarFrom_memWf src ctx xid c)
  | quanta key ctx xid gen off h bs => exact .next (s.takeQuanta_steady ..)
  | quantaLanded key off => exact .next (s.quantaLanded_steady ..)
  | close key ctx xid gen n => exact .next (s.closeArrives_steady ..)
  | closeCounted key => exact .next (s.closeCounted_steady _)
  | announce e => exact execSkinkAnnounce_steady ..

theorem State.deliver_steady (s : State) (src : DevNo) (b : FlitBody) : NextSteady s (s.deliver src b) := by
  unfold State.deliver
  split
  · split
    · exact s.deliverWhole_steady ..
    · exact .stays s
  · exact s.deliverWhole_steady ..

theorem State.withOut_steady (s : State) (l : List OutMsg) : s.Steady { s with out := l } := ⟨id, rfl⟩

theorem State.forward_steady (s : State) (f : Flit) : s.Steady (s.forward f) := .after (State.pump_steady _) (s.withOut_steady _)

theorem execFlitReceive_steady (port : PortNo) (f : Flit) (s : State) : NextSteady s (execFlitReceive port f s) := by
  have put (p : Port) : s.Steady (s.putPort port.val p) := s.putPort_steady ..
  have pumped (p : Port) : s.Steady (s.putPort port.val p).pump := .after (State.pump_steady _) (put p)
  unfold execFlitReceive
  dsimp only
  split
  · exact .stays s
  · split
    · exact .next (put _)
    · split
      · exact .next (pumped _)
      · split
        · exact .next (pumped _)
        · split
          · exact .after (pumped _) (State.deliver_steady ..)
          · exact .next ((pumped _).trans (State.forward_steady ..))

/-! ### Ports -/

theorem execPortRetrain_steady (port : PortNo) (s : State) : NextSteady s (execPortRetrain port s) :=
  .next (.ite (s.putPort_steady ..) (.refl s))

theorem State.withRoutes_steady (s : State) (r : Vector (Option PortNo) 64) : s.Steady { s with routes := r } := ⟨id, rfl⟩

theorem State.reroute_steady (s : State) (need : DevNo → Option PortNo → Bool) (ports : List PortNo) : s.Steady (s.reroute need ports) := by
  unfold State.reroute
  exact .after (State.withRoutes_steady ..) s.fresh_steady

theorem State.portDown_steady (s : State) (port : PortNo) : s.Steady (s.portDown port) := by
  unfold State.portDown
  exact .after (State.pump_steady _) (.after (State.withOut_steady ..) (.after (State.reroute_steady ..) (s.putPort_steady ..)))

theorem execRetrainDone_steady (port : PortNo) (lanes : BitVec 8) (s : State) : NextSteady s (execRetrainDone port lanes s) := by
  have pumped (p : Port) : s.Steady (s.putPort port.val p).pump := .after (State.pump_steady _) (s.putPort_steady ..)
  unfold execRetrainDone
  refine .next (.ite (.refl s) ?_)
  split
  · exact .after (State.link_steady ..) (s.portDown_steady _)
  · exact .ite (pumped _) ((pumped _).trans (State.link_steady ..))

theorem State.peersBack_steady (s : State) : s.Steady s.peersBack := ⟨id, rfl⟩

theorem execPortUp_steady (port : PortNo) (lanes : BitVec 8) (peer : DevNo) (s : State) : NextSteady s (execPortUp port lanes peer s) := by
  unfold execPortUp
  refine .next (.ite (.refl s) ?_)
  split
  · exact .refl s
  · exact .after (State.link_steady ..) (.after (State.pump_steady _) (.after (State.peersBack_steady _) (.after (State.reroute_steady ..)
      (.after (State.withRoutes_steady ..) (s.putPort_steady ..)))))

/-! ### Modules and dies -/

theorem State.routeDies_steady (s : State) : s.Steady s.routeDies := ⟨id, rfl⟩
theorem State.withUcie_steady (s : State) (l : Vector (BitVec 4) 7) : s.Steady { s with ucie := l } := ⟨id, rfl⟩

theorem execUcieModuleOut_steady (pair : BitVec 3) (mod : BitVec 2) (s : State) : NextSteady s (execUcieModuleOut pair mod s) := by
  have out (l : Vector (BitVec 4) 7) (die what : Nat) : s.Steady ({ s with ucie := l }.link die 4 what 0) :=
    .after (State.link_steady ..) (s.withUcie_steady l)
  unfold execUcieModuleOut
  refine .next ?_
  dsimp only
  split
  · exact .refl s
  · exact .ite (.ite ((out ..).trans (State.routeDies_steady _)) (out ..)) (.refl s)

theorem State.portGone_steady (s : State) (port : PortNo) : s.Steady (s.portGone port) := by
  unfold State.portGone
  exact .ite (.refl s) (.after (State.link_steady ..) (s.portDown_steady _))

theorem State.sendBack_steady (s : State) (die : Nat) : s.Steady (s.sendBack die) := by
  unfold State.sendBack
  refine .foldl (fun s k => ?_) _ s
  exact .ite (.refl s) (s.transferRefused_steady ..)

theorem State.withoutDie_steady (s : State) (die : Nat) : s.Steady (s.withoutDie die) := by
  have fens (n : Nat) (t : State) : t.Steady ((List.range n).foldl (fun s j => s.onFen (5 * die + j) Fen.dead) t) :=
    .foldl (fun s j => s.onFen_steady ..) _ t
  have ports (l : List PortNo) (t : State) : t.Steady (l.foldl State.portGone t) := .foldl State.portGone_steady l t
  have gone (p : Pkg) (n : Nat) (l : List PortNo) := (((s.withPkg_steady p).trans (State.sendBack_steady _ die)).trans (fens n _)).trans (ports l _)
  unfold State.withoutDie
  exact .after (State.routeDies_steady _) (.ite (.after (State.withMireUp_steady ..) (gone ..)) (gone ..))

theorem State.dloss_steady (s : State) (die : Nat) : s.Steady (s.dloss die) := s.post_steady _

theorem execDieLoss_steady (die : DieNo) (s : State) : NextSteady s (execDieLoss die s) := by
  unfold execDieLoss
  refine .next (.ite (.refl s) (.trans (.after (State.dloss_steady s die.val) (.refl s)) ?_))
  exact (State.withoutDie_steady _ _).trans (.foldl State.teardown_steady _ _)

/-! ### Boot and recovery -/

theorem State.recoveryMode_steady (s : State) (step cause slot : Nat) : s.Steady (s.recoveryMode step cause slot) := by
  unfold State.recoveryMode
  exact s.withPkg_steady _

theorem State.bootChannel_steady (s : State) (x : DieNo × BitVec 6) : s.Steady (s.bootChannel x) := by
  unfold State.bootChannel
  exact .ite (.refl s) (.after (State.mce_steady ..) (s.onDie_steady ..))

theorem State.bootPort_steady (s : State) (x : PortNo × DevNo × BitVec 8) : s.Steady (s.bootPort x) := by
  unfold State.bootPort
  exact .ite (.refl s) (s.putPort_steady ..)

theorem State.bootRoute_steady (s : State) (x : DevNo × PortNo) : s.Steady (s.bootRoute x) := by
  unfold State.bootRoute
  exact .ite (s.withRoutes_steady _) (.refl s)

theorem State.bootModule_steady (s : State) (x : BitVec 3 × BitVec 2) : s.Steady (s.bootModule x) := ⟨id, rfl⟩

/-- Dies lost one after the other. -/
theorem State.withoutDies_steady {α : Type} (f : α → Nat) (l : List α) (s : State) :
    s.Steady (l.foldl (fun s d => (s.withoutDie (f d)).dloss (f d)) s) := by
  refine .foldl (fun s d => ?_) l s
  exact .after (State.dloss_steady ..) (s.withoutDie_steady _)

theorem State.loseCut_steady (s : State) : s.Steady s.loseCut := State.withoutDies_steady id _ s

theorem State.bootDies_steady (s : State) (slot : Nat) (r : BootInput) : s.Steady (s.bootDies slot r) := by
  have modules (p : Pkg) : s.Steady (r.badModules.foldl State.bootModule { s with pkg := p }) :=
    (s.withPkg_steady p).trans (.foldl State.bootModule_steady _ _)
  unfold State.bootDies
  exact .after (State.loseCut_steady _) (.after (State.withoutDies_steady (fun d : Fin 6 => d.val) _ _)
    (.after (State.routeDies_steady _) (modules _)))

theorem State.bootTests_steady (s : State) (r : BootInput) : s.Steady (s.bootTests r) := by
  have fens (n : Nat) : s.Steady ((List.range n).foldl (fun s f => if s.dieLost (f / 5) then s else s.onFen f fun _ => bootFen (badIn r f)) s) := by
    refine .foldl (fun s f => ?_) _ s
    exact .ite (.refl s) (s.onFen_steady ..)
  have rows (l : List (DieNo × BitVec 6 × Nat)) (t : State) : t.Steady (l.foldl (fun s x => s.onDie x.1.val fun d => d.bootRow x.2.1 x.2.2) t) := by
    refine .foldl (fun s x => ?_) l t
    exact s.onDie_steady ..
  unfold State.bootTests
  exact .after (rows ..) ((fens 30).trans (.foldl State.bootChannel_steady _ _))

theorem State.bootPorts_steady (s : State) (r : BootInput) : s.Steady (s.bootPorts r) := by
  have routed : s.Steady (r.routes.foldl State.bootRoute (r.ports.foldl State.bootPort s)) :=
    (State.Steady.foldl State.bootPort_steady r.ports s).trans (.foldl State.bootRoute_steady _ _)
  have mire (l : List (BitVec 2)) (t : State) : t.Steady (l.foldl (fun s p => { s with mireUp := vset s.mireUp p.toNat false }) t) := by
    refine .foldl (fun s p => ?_) l t
    exact s.withMireUp_steady _
  have cleared (l : List Nat) (t : State) : t.Steady (l.foldl (fun s d =>
      if s.dieLost d then s else { s with mem := s.mem.clear (vget s.dies d).heatb.toNat heatBytes }) t) := by
    refine .foldl (fun s d => ?_) l t
    exact .ite (.refl s) (s.withMem_steady _ fun h => Memory.clear_wf _ _ _ h)
  unfold State.bootPorts
  exact .after (cleared ..) (.after (State.withPkg_steady ..) (.after (mire ..) routed))

theorem State.bootLink_steady (s : State) (slot : Nat) : s.Steady (s.bootLink slot) := ⟨id, rfl⟩

theorem execBoot_steady (r : BootInput) (s : State) : NextSteady s (execBoot r s) := by
  unfold execBoot
  refine .canonical fun wf => ?_
  split
  · exact wf
  · split
    · exact (s.bootPorts_steady r).wf wf
    · split
      · exact (s.recoveryMode_steady ..).wf wf
      · split
        · exact (s.recoveryMode_steady ..).wf wf
        · exact (State.bootLink_steady _ _).wf ((State.bootTests_steady _ r).wf ((s.bootDies_steady _ r).wf wf))

theorem execRecov_steady (s : State) : NextSteady s (execRecov s) := by
  refine .canonical fun wf => ?_
  split
  · exact wf
  · obtain ⟨mem, tags, host, -⟩ := s.memWf_iff.mp wf
    exact (State.memWf_iff _).mpr ⟨mem, tags, host, rfl, fun _ mine => nomatch mine⟩

theorem execRecoveryFlashWrite_steady (off : BitVec 16) (bytes : List Byte) (s : State) : NextSteady s (execRecoveryFlashWrite off bytes s) :=
  .next (.ite (s.withPkg_steady _) (.refl s))

end Sys2Proof.Machine
end

section
/-! SUPPORT. The invariant of O3 through the cycle of a core, the turns of the other units and every event (R14, R46, R47, R191, R232). -/

namespace Sys2Proof.Machine

/-! ### What a cycle leaves of a scratchpad -/

theorem Core.deliver_sp (c : Core) (w : Win) : (c.deliver w).sp = c.sp := by
  unfold Core.deliver
  split <;> rfl

theorem Core.winStep_sp (st : Core × List Win) (w : Win) : (Core.winStep st w).1.sp = st.1.sp := by
  unfold Core.winStep
  split
  · dsimp only
    split
    · rfl
    · exact Core.deliver_sp ..
    · exact Core.deliver_sp ..
    · rfl
    · rfl
  · exact Core.deliver_sp ..

theorem Core.winTick_sp (c : Core) : c.winTick.sp = c.sp := by
  have all (l : List Win) (st : Core × List Win) : (l.foldl Core.winStep st).1.sp = st.1.sp := by
    induction l generalizing st with
    | nil => rfl
    | cons w l ih => exact (ih _).trans (Core.winStep_sp st w)
  exact all _ (c, [])

theorem Core.tick_sp (c : Core) : c.tick.sp = c.sp := c.winTick_sp

theorem Core.advance_sp (c : Core) (i : Issue) : (c.advance i).sp = c.sp := by
  unfold Core.advance
  split
  · rfl
  · split
    · rfl
    · split
      · split <;> rfl
      · rfl

theorem Core.shw_sp (c : Core) (r f : Nat) (v : BitVec 32) : (c.shw r f v).sp = c.sp := by
  unfold Core.shw
  dsimp only
  split
  · rfl
  · split <;> rfl

theorem Core.beginSwitch_wf (c : Core) (x : Cmd) (h : c.sp.wf = true) : (c.beginSwitch x).sp.wf = true := by
  unfold Core.beginSwitch
  split <;> exact h

/-- A core put in focus whose scratchpad is the one that stood there. -/
theorem State.sameSp_steady (s : State) (c : Core) (h : c.sp = s.core.sp) : s.Steady { s with core := c } :=
  s.withCore_steady c fun wf => (congrArg Scratch.wf h).trans wf

theorem State.withIss_steady (s : State) (i : Issue) : s.Steady { s with iss := i } := ⟨id, rfl⟩

/-! ### The fetch -/

theorem State.fetch_steady (s : State) : TriedSteady s Prod.snd s.fetch := by
  unfold State.fetch
  dsimp only
  split
  · exact .pair (.refl s)
  · split
    · next tried => exact .failed ((s.readPlain_steady ..).error tried)
    · next tried =>
      have read := (s.readPlain_steady ..).ok tried
      split
      · exact .pair (read.trans (State.sameSp_steady _ _ rfl))
      · exact .pair read

theorem State.nextBundle_steady (s : State) : TriedSteady s Prod.snd s.nextBundle := by
  unfold State.nextBundle
  split
  · exact .pair (.refl s)
  · exact s.fetch_steady

/-! ### The end of a bundle -/

theorem State.cregWrite_steady (s : State) (r : CReg) (v : Word) : s.Steady (s.cregWrite r v) := by
  unfold State.cregWrite
  dsimp only
  split
  · exact s.sameSp_steady _ rfl
  · exact s.sameSp_steady _ rfl
  · exact s.sameSp_steady _ rfl
  · exact s.withCore_steady _ id
  · exact s.sameSp_steady _ rfl
  all_goals exact s.onCtx_steady ..

theorem State.applyEoc_steady (s : State) (e : Eoc) : s.Steady (s.applyEoc e) := by
  cases e with
  | shw r f v => exact s.sameSp_steady _ (Core.shw_sp ..)
  | agw g l f v => exact s.sameSp_steady _ rfl
  | crw n v => exact .elim (s.creg n) (.refl s) fun r => s.cregWrite_steady r v
  | cbk n v => exact s.sameSp_steady _ rfl
  | cmd x =>
    refine s.withCore_steady _ fun h => Core.beginSwitch_wf _ x ?_
    rw [Core.setTok_sp]
    exact h
  | reed r => exact s.sameSp_steady _ rfl

theorem State.applyResults_steady (s : State) : s.Steady s.applyResults := by
  unfold State.applyResults
  exact .after (State.sameSp_steady _ _ rfl) (.foldl State.applyEoc_steady _ s)

theorem State.syncClocks_steady (s : State) : s.Steady s.syncClocks := s.sameSp_steady _ rfl

theorem State.endIssue_steady (s : State) : s.Steady s.endIssue := by
  have ended : s.Steady { s with core := { s.core with status := .finishing } } := s.sameSp_steady _ rfl
  unfold State.endIssue
  exact .ite ended (.after (State.postCend_steady ..) (.after (State.onCtx_steady ..) (.after (State.onFen_steady ..) ended)))

/-- The core's own work of a bundle that commits. -/
theorem State.advanced_steady (s : State) (c : Core) (i : Issue) (h : c.sp = s.core.sp) : s.Steady { s with core := (c.advance i).tick } :=
  s.sameSp_steady _ (((c.advance i).tick_sp.trans (c.advance_sp i)).trans h)

theorem State.commit_steady (s : State) : s.Steady s.commit := by
  have landed (s : State) : s.Steady { s with core := s.core.landDue } := s.withCore_steady _ s.core.landDue_wf
  have returned (s : State) : s.Steady { s with core := s.core.leaveHandler } := s.sameSp_steady _ s.core.leaveHandler_sp
  have trapped (s : State) (o : Option Byte) : s.Steady (match o with
      | some code => ({ s with core := s.core.landDue } : State).takeTrap code
      | none => s) := by
    cases o with
    | none => exact .refl s
    | some code => exact (landed s).trans (State.takeTrap_steady ..)
  have synced (s : State) (b : Bool) : s.Steady (if b then s.syncClocks else s) := .ite s.syncClocks_steady (.refl s)
  have done (s : State) (b : Bool) : s.Steady (if b then s.endIssue else s) := .ite s.endIssue_steady (.refl s)
  have left (s : State) (b : Bool) : s.Steady (if b then { s with core := s.core.leaveHandler } else s) := .ite (returned s) (.refl s)
  unfold State.commit
  exact .after (State.notePosts_steady ..) (.after (State.withIss_steady ..) (.after (left ..) (.after (trapped ..) (.after (done ..)
    (.after (synced ..) (.after (State.advanced_steady _ _ _ rfl) s.applyResults_steady))))))

theorem Core.noteOthers_sp (c : Core) (w : Wait) (l : List (Wait × Nat)) : (c.noteOthers w l).sp = c.sp := by
  unfold Core.noteOthers
  dsimp only
  split <;> rfl

theorem State.holdCycle_steady (s : State) (w : Wait) (slot : Nat) : s.Steady (s.holdCycle w slot) := by
  have held (c : Core) (h : c.sp = s.core.sp) : s.Steady { s with core := c, iss := Issue.reset } :=
    (s.sameSp_steady c h).trans (State.withIss_steady _ _)
  exact held _ (Core.tick_sp _)

theorem State.stopAt_steady (s : State) (i : Issue) (f : SlotFault) : s.Steady (s.stopAt i f) := by
  unfold State.stopAt
  exact .after (State.stopCore_steady ..) (s.withIss_steady _)

/-- A bundle ends in the state before it, or in the one its slots have made. -/
theorem State.finishIssue_memWf (base s : State) (hb : base.memWf = true) (hs : s.memWf = true) : (base.finishIssue s).memWf = true := by
  have clean : base.Steady { base with core := { base.core with wait := none, waits := [] } } := base.sameSp_steady _ rfl
  unfold State.finishIssue
  dsimp only
  split
  · exact (State.Steady.after (State.holdCycle_steady ..) (base.sameSp_steady _ (Core.noteOthers_sp ..))).wf hb
  · split
    · exact (base.holdCycle_steady ..).wf hb
    · split
      · exact (base.stopAt_steady ..).wf hb
      · split
        · exact (clean.trans (State.freezeCycle_steady _ _)).wf hb
        · exact s.commit_steady.wf hs

/-! ### Every event -/

/-- No event leaves a memory that is not in canonical form. -/
theorem exec_event_steady (i : Instr) (s : State) (event : (classOf i).isNone = true) : NextSteady s (exec i s) := by
  cases i
  case nop => exact .stays s
  case contextStart n => exact execContextStart_steady n s
  case contextTeardown n => exact execContextTeardown_steady n s
  case contextFree n => exact execContextFree_steady n s
  case tlbinv v => exact execTlbinv_steady v s
  case tlbinvDone => exact execTlbinvDone_steady s
  case attn nonce => exact execAttn_steady nonce s
  case attestationReady err => exact execAttestationReady_steady err s
  case resumeReplay seq => exact execResumeReplay_steady seq s
  case resumeIgnoreBkpt seq => exact execResumeIgnoreBkpt_steady seq s
  case preemptSave n => exact execPreemptSave_steady n s
  case saveRelease n => exact execSaveRelease_steady n s
  case preemptRestore n => exact execPreemptRestore_steady n s
  case restoreComplete n => exact execRestoreComplete_steady n s
  case debugRawRead die cmd => exact execDebugRawRead_steady die cmd s
  case debugDecodeRead die cmd => exact execDebugDecodeRead_steady die cmd s
  case debugRawWrite die cmd => exact execDebugRawWrite_steady die cmd s
  case lrevoke v => exact execLrevoke_steady v s
  case ovp v => exact execOvp_steady v s
  case retstAck die => exact execRetstAck_steady die s
  case recov => exact execRecov_steady s
  case recoveryFlashWrite off bytes => exact execRecoveryFlashWrite_steady off bytes s
  case getEventRecords => exact execGetEventRecords_steady s
  case clearEventRecords n => exact execClearEventRecords_steady n s
  case hostMemRead pa len => exact execHostMemRead_steady pa len s
  case hostMemWrite pa bytes => exact execHostMemWrite_steady pa bytes s
  case hostRegisterWrite off v => exact execHostRegisterWrite_steady off v s
  case boot r => exact execBoot_steady r s
  case launchTake n => exact execLaunchTake_steady n s
  case groupInstantiate launch => exact execGroupInstantiate_steady launch s
  case dispatch fen => exact execDispatch_steady fen s
  case nodeAging fen idx => exact execNodeAging_steady fen idx s
  case coreTaskFinish key => exact execCoreTaskFinish_steady key s
  case nodeFinish fen idx => exact execNodeFinish_steady fen idx s
  case launchComplete launch => exact execLaunchComplete_steady launch s
  case conductorChange fen => exact execConductorChange_steady fen s
  case resultLand key => exact execResultLand_steady key s
  case freeze key => exact execFreeze_steady key s
  case globalLoadArrive key i => exact execGlobalLoadArrive_steady key i s
  case directFormFault key => exact execDirectFormFault_steady key s
  case engineCommandStart key i => exact execEngineCommandStart_steady key i s
  case engineCommandComplete key i => exact execEngineCommandComplete_steady key i s
  case barrierComplete key bar => exact execBarrierComplete_steady key bar s
  case agFetch key g => exact execAgFetch_steady key g s
  case bankSwitchDone key bank => exact execBankSwitchDone_steady key bank s
  case fifoHeldWrite key bank => exact execFifoHeldWrite_steady key bank s
  case networkWriteLand key idx => exact execNetworkWriteLand_steady key idx s
  case mmaStepLand key i => exact execMmaStepLand_steady key i s
  case latchreedRowLand key lt => exact execLatchreedRowLand_steady key lt s
  case codebookTableReady key cb => exact execCodebookTableReady_steady key cb s
  case mailboxPlace fen => exact execMailboxPlace_steady fen s
  case mailboxTake fen => exact execMailboxTake_steady fen s
  case mailboxServiceStart fen => exact execMailboxServiceStart_steady fen s
  case mailboxReplyLand key => exact execMailboxReplyLand_steady key s
  case leaseResponse fen idx r => exact execLeaseResponse_steady fen idx r s
  case collTransferEmit fen idx => exact execCollTransferEmit_steady fen idx s
  case transferArrive fen idx => exact execTransferArrive_steady fen idx s
  case heldTransferDeliver fen idx => exact execHeldTransferDeliver_steady fen idx s
  case xhold fen idx => exact execXhold_steady fen idx s
  case exchangeStart idx => exact execExchangeStart_steady idx s
  case phaseStart idx => exact execPhaseStart_steady idx s
  case closeFlitReceive idx rank bytes => exact execCloseFlitReceive_steady idx rank bytes s
  case xtmo idx => exact execXtmo_steady idx s
  case skinkAnnounce dev epoch => exact execSkinkAnnounce_steady dev epoch s
  case skinkTakeover => exact execSkinkTakeover_steady s
  case leaseNoticeReceive lease t => exact execLeaseNoticeReceive_steady lease t s
  case leaseExpiry lid => exact execLeaseExpiry_steady lid s
  case lenderUnreachable dev => exact execLenderUnreachable_steady dev s
  case borrowerUnreachable dev => exact execBorrowerUnreachable_steady dev s
  case flitReceive port f => exact execFlitReceive_steady port f s
  case ackTimeout port vc => exact execAckTimeout_steady port vc s
  case portRetrain port => exact execPortRetrain_steady port s
  case retrainDone port lanes => exact execRetrainDone_steady port lanes s
  case ploss dev => exact execPloss_steady dev s
  case ucieModuleOut pair mod => exact execUcieModuleOut_steady pair mod s
  case dieLoss die => exact execDieLoss_steady die s
  case newtFailover fen core => exact execNewtFailover_steady fen core s
  case faultRecordPost => exact execFaultRecordPost_steady s
  case waitTimeout key => exact execWaitTimeout_steady key s
  case telemUpdate die v => exact execTelemUpdate_steady die v s
  case energyUpdate n uj => exact execEnergyUpdate_steady n uj s
  case clockThrottle die => exact execClockThrottle_steady die s
  case heatSweep die => exact execHeatSweep_steady die s
  case scrub pa symbols => exact execScrub_steady pa symbols s
  case stripeRebuild pa bad => exact execStripeRebuild_steady pa bad s
  case channelRetire die ch reason => exact execChannelRetire_steady die ch reason s
  case restripeStripe die => exact execRestripeStripe_steady die s
  case mireTimeout pa => exact execMireTimeout_steady pa s
  case mirePortDown port => exact execMirePortDown_steady port s
  case mirePortUp port => exact execMirePortUp_steady port s
  case portUp port lanes peer => exact execPortUp_steady port lanes peer s
  case leaseRequestReceive dev size grant => exact execLeaseRequestReceive_steady dev size grant s
  case msiXVector0 => exact execMsiXVector0_steady s
  all_goals exact absurd event Bool.false_ne_true

/-- The slots' instructions touch no memory before their bundle commits. -/
theorem exec_steady (i : Instr) (s : State) : NextSteady s (exec i s) := by
  cases slot : (classOf i).isSome with
  | true => exact ⟨fun t same => (exec_keeps i s slot t same).wf⟩
  | false => exact exec_event_steady i s (Option.isSome_eq_false_iff.mp slot)

/-! ### The slots of a bundle -/

theorem State.readsCore_steady (s : State) (i : Instr) : s.Steady (s.readsCore i) := by
  have named (l : List (BitVec 5)) (t : State) : t.Steady (l.foldl (fun s r => if r = 0 then s else s.coreRead 1 r.toNat) t) := by
    refine .foldl (fun s r => ?_) l t
    exact .ite (.refl s) (s.coreRead_steady ..)
  have decoder (l : List (Nat × Nat)) (t : State) : t.Steady (l.foldl (fun s e => s.coreRead 4 e.2) t) := by
    refine .foldl (fun s e => ?_) l t
    exact s.coreRead_steady ..
  have registers (c : Prop) [Decidable c] (l : List (BitVec 5)) :
      s.Steady (if c then l.foldl (fun s r => if r = 0 then s else s.coreRead 1 r.toNat) s else s) := .ite (named ..) (.refl s)
  unfold State.readsCore
  exact .ite (.refl s) (.ite (.after (decoder ..) (registers ..)) (registers ..))

theorem State.runSlot_steady (s : State) (i : Nat) (w : SlotWord) : NextSteady s (s.runSlot i w) := by
  refine .after (s.withIss_steady { s.iss with slot := i, word := w }) ?_
  unfold State.runSlot
  dsimp only
  split
  · exact .next (State.illegal_steady _)
  · split
    · exact .after (State.readsCore_steady ..) (exec_steady ..)
    · exact .next (State.illegal_steady _)
    · exact .next (.ite (State.illegal_steady _) (State.encFault_steady _))

/-- What follows an outcome, from each state that the outcome may give. -/
theorem andThen_steady {s : State} {o : Out} {f : State → Out} (h : NextSteady s o)
    (k : ∀ t : State, (s.memWf = true → t.memWf = true) → NextSteady s (f t)) : NextSteady s (andThen o f) := by
  cases o with
  | next t => exact k t (h.wf t rfl)
  | fault r => exact .fault s r
  | refused r => exact .refused s r

theorem State.runSlots_steady (s : State) (b : Bundle) : NextSteady s (s.runSlots b) := by
  have all (l : List Nat) (o : Out) (h : NextSteady s o) :
      NextSteady s (l.foldl (fun o i => andThen o fun s => s.runSlot i (slotWord b i)) o) := by
    induction l generalizing o with
    | nil => exact h
    | cons i l ih => exact ih _ (andThen_steady h fun t wf => ⟨fun u same start => (t.runSlot_steady i _).wf u same (wf start)⟩)
  exact all _ _ (.stays s)

theorem State.issueBundle_steady (s : State) : NextSteady s s.issueBundle := by
  unfold State.issueBundle
  split
  · next tried => exact .next (.after (State.stopCore_steady _ _) (.after (State.met_steady _ _) (s.nextBundle_steady.error tried)))
  · next b t tried =>
    refine .after (s.nextBundle_steady.ok tried) ?_
    have ran : NextSteady t (t.beginIssue.runSlots b) := .after (t.withIss_steady _) (State.runSlots_steady ..)
    exact andThen_steady ran fun u wf => .canonical fun start =>
      State.finishIssue_memWf _ u ((t.sameSp_steady (t.core.keepBundle b u.iss) rfl).wf start) (wf start)

/-! ### The turns -/

theorem State.dueNow_steady (s : State) : s.Steady s.dueNow := by
  unfold State.dueNow
  exact .after (State.withCore_steady _ _ (Core.landDue_wf _)) s.dueStores_steady

theorem State.issueTurn_steady (s : State) (k : CoreKey) : NextSteady s (s.issueTurn k) := by
  unfold State.issueTurn
  refine .after (s.focus_steady k) ?_
  dsimp only
  split
  · exact .next (State.sameSp_steady _ _ rfl)
  · split
    · exact .stays _
    · refine .after (State.dueNow_steady _) ?_
      split
      · exact .next (State.stopDirect_steady ..)
      · split
        · exact .next (State.freezeCycle_steady ..)
        · exact .next (State.sameSp_steady _ _ (Core.tick_sp _))
    · refine .after (State.dueNow_steady _) ?_
      split
      · exact .next (State.stopDirect_steady ..)
      · split
        · exact .next (State.freezeCycle_steady ..)
        · exact State.issueBundle_steady _

theorem State.coreError_steady (s : State) (k : CoreKey) (cause number : Nat) : s.Steady (s.coreError k cause number) :=
  .ite (.refl s) (s.onCore_steady k _ fun _ h => h)

theorem State.poisonCounted_steady (s : State) (l : List Nat) : s.Steady (s.poisonCounted l) := by
  unfold State.poisonCounted
  refine .foldl (fun s k => ?_) l s
  exact .ite (.refl s) (.after (State.onDie_steady ..) (s.poisonAll_steady _))

theorem State.withFlaws_steady (s : State) (l : List (Nat × Flaw)) : s.Steady { s with flaws := l } := ⟨id, rfl⟩

theorem State.upsetTurn_steady (s : State) (u : Upset) : s.Steady (s.upsetTurn u) := by
  unfold State.upsetTurn
  split
  · exact s.coreError_steady ..
  · exact .ite (s.onFen_steady ..) (.refl s)
  · exact .ite (.after (State.onDie_steady ..) (s.onCore_steady _ _ fun _ h => h)) (.refl s)
  · exact .ite (.after (State.withFlaws_steady ..) (.ite (s.poisonCounted_steady _) (s.poisonDie_steady ..))) (.refl s)
  · exact .ite (s.poisonDie_steady ..) (.refl s)
  · exact s.withFlaws_steady _
  · exact .ite (.after (State.withFlaws_steady ..) (s.poisonCounted_steady _)) (.refl s)
  · dsimp only
    split
    · exact s.poisonCounted_steady _
    · exact s.poisonCounted_steady _
    · exact .refl s
    · exact .refl s
  · exact s.onDie_steady ..

theorem State.withTime_steady (s : State) (t : Nat) : s.Steady { s with time := t } := ⟨id, rfl⟩

theorem State.withFens_steady (s : State) (l : Vector Fen 30) : s.Steady { s with fens := l } := ⟨id, rfl⟩

theorem State.outCycles_steady (s : State) (ns : Nat) : s.Steady (s.outCycles ns) := by
  unfold State.outCycles
  exact s.withFens_steady _

theorem State.turn_steady (s : State) (t : Turn) : NextSteady s (s.turn t) := by
  cases t with
  | issue k => exact s.issueTurn_steady k
  | event i =>
    unfold State.turn
    dsimp only
    split
    · exact exec_steady i s
    · exact .stays s
  | perform k a p => exact .next (s.performPiece_steady k a p)
  | element k i how => exact .next (s.elementTurn_steady k i how)
  | nodeElement d e how => exact .next (s.copyTurn_steady d e how)
  | scales k i => exact .next (s.scalesTurn_steady k i)
  | array k i => exact .next (s.arrayTurn_steady k i)
  | l2Miss pa => exact .next (s.missTurn_steady _)
  | wire p => exact .next (s.wireTurn_steady _)
  | upset u => exact .next (s.upsetTurn_steady u)
  | clock ns => exact .next ((s.withTime_steady _).trans (State.outCycles_steady _ ns))

theorem State.nextTurn_steady (s : State) : s.Steady s.nextTurn.2 := by
  unfold State.nextTurn
  split
  · exact ⟨id, rfl⟩
  · exact s.fresh_steady

end Sys2Proof.Machine

open Sys2Proof Sys2Proof.Machine in
/-- Settles O3: every turn keeps the canonical form, function by function along the model; a turn of a core by what its slots leave
alone and what its bundle's end writes, an event by its own lemma. -/
theorem stepKeepsMemoryCanonical : Obligations.StepKeepsMemoryCanonical := by
  intro s t wf stepped
  exact (s.nextTurn.2.turn_steady s.nextTurn.1).wf t stepped (s.nextTurn_steady.wf wf)
end
